-- ==== Sys2Proof/Word.lean ====
section
/-! DEFINITION. The word types of the model and their plainest arithmetic. -/

namespace Sys2Proof

/-- One byte. -/
abbrev Byte := BitVec 8

/-- A 64-bit word: registers, counts and postmarks (spec/04 R58, spec/17 R318, spec/21 R399). -/
abbrev Word := BitVec 64

/-- `ceil(a / b)` for naturals; 0 where b is 0. -/
def ceilDiv (a b : Nat) : Nat := if b = 0 then 0 else (a + b - 1) / b

/-- The least multiple of `g` that is not below `a`. -/
def roundUp (a g : Nat) : Nat := ceilDiv a g * g

end Sys2Proof
end

