-- ==== Sys2Proof/Syntax.lean ====
section
/-! DEFINITION. The commands of the block: one constructor of `Instr` per row of spec/opcode_table.json,
with the types of their operands. The table gives its rows no bits and no fields, so the operands are the
ones the rules of spec/ name: the packet of a host command, the issuing thread of a tile instruction, the
unit and the physical data of an event. -/

namespace Sys2Proof

/-- A taken command packet (spec/19 R366, Table 19.17): the header fields, the 256 parameter bits, and the
units after the header. -/
structure Packet where
  ring   : BitVec 7
  tag    : BitVec 64
  ctx    : BitVec 16
  seq    : BitVec 32
  notify : Bool
  fence  : Bool
  param  : BitVec 256
  extra  : List (BitVec 512)
deriving DecidableEq, Repr

/-- The thread that issues a tile instruction: physical core, flat number (spec/03 R43), and thread 0 to 31
(R47). The instruction itself is the word at the thread's pc in the core's program store (spec/04 R59). -/
structure Issuer where
  core   : BitVec 8
  thread : BitVec 5
deriving DecidableEq, Repr

/-- The six engine queues of a core (spec/03 Table 3.5). -/
inductive EngineQ where
  | mat | vec | str | drn | syn | tcd
deriving DecidableEq, Repr

/-- What the error-correcting code says of a word that an event reads (spec/05 R102, spec/11 R217, spec/17 R339). -/
inductive Ecc where
  | good | corrected | uncorrectable
deriving DecidableEq, Repr

/-- An error met in a local-store word that an operation reads: its byte offset, and whether it is uncorrectable. -/
structure LsError where
  addr : Nat
  hard : Bool
deriving DecidableEq, Repr

/-- What the codes report of the bytes that an event moves, by byte offset in the object read (for a stream's OUT tile,
in its slot): the bytes that read as uncorrectable, and the words that read as corrected (spec/11 R217, R218, spec/12 R233). -/
structure HomeEcc where
  bad  : List Nat
  soft : List Nat
deriving DecidableEq, Repr

/-- What the codes report of a gather's next index: its word in the local store, and the corrected words of the row by
byte offset in the object (spec/04 R70, spec/11 R218). -/
structure IndexEcc where
  word : Ecc
  soft : List Nat
deriving DecidableEq, Repr

/-- What the codes report of the words of an update unit's slice, with the elements whose words are uncorrectable
(spec/10 R196). -/
structure SliceEcc where
  word : Ecc
  hard : List Nat
deriving DecidableEq, Repr

/-- The errors that a Kid job meets: in the line buffers, and in the words of the weight buffer by byte offset
(spec/07 R135). -/
structure KidErrors where
  ring : List LsError
  wbuf : List LsError
deriving DecidableEq, Repr

/-- The Kid engine that starts a job, and the corrected words of the weights that it loads, by byte offset from their
address in the shared store (spec/07 R130, R133, spec/11 R218). -/
structure KidStart where
  cluster : BitVec 4
  soft    : List Nat
deriving DecidableEq, Repr

/-- The data of a host access to BAR2: the bytes of a write, and the corrected words of a read by address in BAR2
(spec/11 R218, R220). -/
structure HostData where
  bytes : List Byte
  soft  : List Nat
deriving DecidableEq, Repr

/-- A unit with a hard fault (spec/18 Table 18.1; spec/03 R54; spec/11 R222; spec/15 R287; spec/16 R316). -/
inductive HardUnit where
  | kid (cluster : BitVec 4) | walker (cluster : BitVec 4) | codec (cluster : BitVec 4)
  | sync (cluster : BitVec 4) | storePort (cluster : BitVec 4)
  | bank (b : BitVec 6)
  | video (pipe : BitVec 3)
  | router (port : BitVec 4) | reduce (port : BitVec 4) | update (port : BitVec 4)
deriving DecidableEq, Repr

/-- A JTAG instruction (spec/23 R430). The rules give the instructions no codes. -/
inductive JtagCode where
  | bypass | idcode | samplePreload | extest | other
deriving DecidableEq, Repr

/-- The link header of a flit (spec/16 Table 16.2). -/
structure LinkHdr where
  seq  : BitVec 12
  ack  : BitVec 12
  ackV : Bool
  kind : BitVec 2
  vc   : BitVec 2
  rsv  : BitVec 19
  cr3  : BitVec 6
  cr2  : BitVec 6
  cr1  : BitVec 6
  cr0  : BitVec 6
deriving DecidableEq, Repr

/-- The transaction header of a flit (spec/16 Table 16.4). -/
structure TxnHdr where
  op     : BitVec 8
  srcMod : BitVec 14
  dstMod : BitVec 14
  txn    : BitVec 16
  epoch  : BitVec 8
  ctx    : BitVec 16
  len    : BitVec 9
  fidx   : BitVec 8
  last   : Bool
  hops   : BitVec 6
  status : BitVec 8
  sub    : BitVec 8
  rsv    : BitVec 12
  addr   : BitVec 64
  arg    : BitVec 64
deriving DecidableEq, Repr

/-- A flit (spec/16 Table 16.1): its headers, the data bytes it carries (0 to 464) and its CRC. -/
structure Flit where
  link : LinkHdr
  txn  : TxnHdr
  data : List Byte
  crc  : BitVec 32
deriving DecidableEq, Repr

/-- A READ that a destination serves, and the corrected words of the bytes that it reads, by byte offset in the object
(spec/16 R303, spec/11 R218). -/
structure ReadFlit where
  flit : Flit
  soft : List Nat
deriving DecidableEq, Repr

/-- What the FEC decoder says of the codewords that carry a flit (spec/16 R292): how many it corrected, and
how many it could not. -/
structure Fec where
  corrected     : Nat
  uncorrectable : Nat
deriving DecidableEq, Repr

/-- A step vote, an ABORT, or the outcome on its way down (spec/16 R313, spec/18 R344). The layout of the
VOTE flit's data is not given, so the message carries the fields that the rules name; `flagged` counts the members that
flagged an overflow (spec/09 R172). -/
structure VoteMsg where
  ctx      : BitVec 16
  list     : BitVec 4
  fromPos  : Nat
  down     : Bool
  abort    : Bool
  detail   : BitVec 16
  flagged  : Nat
  part     : Bool
  lost     : Bool
deriving DecidableEq, Repr

/-- An answer over the fabric's management channel (spec/11 R204, R208): a status code and a global address. -/
structure MgtReply where
  status : BitVec 16
  home   : BitVec 64
deriving DecidableEq, Repr

/-- A placement request for a migrating object (spec/11 R208): the parameters of Table 11.2, the object's size and cache flag, which it
keeps, its home, and the modules that hold its bind entries. -/
structure PlaceReq where
  param : BitVec 256
  size  : Nat
  cache : Bool
  home  : BitVec 64
  binders : List (BitVec 14)
deriving DecidableEq, Repr

/-- The readings of one control period (spec/21 R401): input power over the period and averaged over 10 ms,
in watts; and J6 voltage, current and the coolant readings of spec/23 Table 23.3. -/
structure PowerSample where
  watts     : Nat
  watts10ms : Nat
  vin       : BitVec 16
  iin       : BitVec 16
  vaux      : BitVec 16
  inlet     : BitVec 16
  outlet    : BitVec 16
deriving DecidableEq, Repr

/-- One report of the junction sensors (spec/21 R404), in 1/16 degree Celsius (spec/23 R427): the base die and the
clusters, and whether the hottest reading has been below 92 degrees for 1 s or more. -/
structure ThermalSample where
  base     : Int
  clusters : List Int
  coolFor1s : Bool
deriving DecidableEq, Repr

/-- One measurement of the LPDDR6 data-eye margins (spec/21 R408). -/
structure MarginSample where
  belowAdvised : List Bool
  belowForced  : Bool
  linkEccHigh  : Bool
deriving DecidableEq, Repr

/-- The clock domains of spec/21 Table 21.1 that a multiplexer selects, in table order. -/
inductive ClkDomain where
  | arith | fab | ctrl | io
deriving DecidableEq, Repr

/-- A clock source that the clock monitor watches (spec/21 R398): the four dividers are those of Table 21.1. -/
inductive ClkSource where
  | xo | rootPll | divider (d : ClkDomain) | phyPll (n : Nat)
deriving DecidableEq, Repr

/-- The edges of one source counted over a window of 64 XO cycles, and the edges its nominal frequency gives. -/
structure EdgeCount where
  source  : ClkSource
  edges   : Nat
  nominal : Nat
deriving DecidableEq, Repr

/-- The two reset inputs (spec/23 R423). -/
inductive ResetPin where
  | modResetN | perstN
deriving DecidableEq, Repr

/-- What the boot ROM finds in one boot-flash bank in phase FW_AUTH (spec/20 R387, spec/22 Table 22.2). -/
inductive BankCheck where
  | pass (svn : BitVec 8) (major minor : Byte) | keyDigest | signature | rollback | flashRead
deriving DecidableEq, Repr

/-- How a start-up phase ends (spec/22 Table 22.1, R414, R417): the findings of the phase that is running. -/
structure PhaseResult where
  cause       : BitVec 4
  bankA       : BankCheck
  bankB       : BankCheck
  portsUp     : BitVec 16
  coreFaults  : List (BitVec 8)
  clusterFaults : List (BitVec 4)
  bankFaults  : List (BitVec 6)
  videoFaults : List (BitVec 3)
  unitFaults  : List (BitVec 4)
deriving DecidableEq, Repr

/-- The commands, in the order of spec/opcode_table.json. -/
inductive Instr where
  /-- NOP (R371): Command NOP is answered with a receipt of status OK. -/
  | nop (p : Packet)
  /-- ECHO (R371): Command ECHO is answered OK with param [15:0] as the receipt detail. -/
  | echo (p : Packet)
  /-- READ_INFO (R372): Writes the 128 B identity, fence, memory, port and slot record to a host address, then the receipt. -/
  | readInfo (p : Packet)
  /-- OBJ_ALLOC (R201): Creates a home, bind or retired-page entry in the context's object table after ordered checks. -/
  | objAlloc (p : Packet)
  /-- OBJ_FREE (R205): Removes an object-table entry on the receiving module and releases a home entry's home. -/
  | objFree (p : Packet)
  /-- OBJ_MIGRATE (R208): Starts moving an object's home to a new tier or module; the object enters FENCING. -/
  | objMigrate (p : Packet)
  /-- OBJ_QUERY (R223): Writes the 64 B record of an object's home, size, state and binds to a host address. -/
  | objQuery (p : Packet)
  /-- PLAN_LOAD (R248): Verifies a plan image through the loader stages and keeps it under a plan number if it passes. -/
  | planLoad (p : Packet)
  /-- PLAN_VERIFY (R248): Runs the loader checks on a plan image and keeps nothing. -/
  | planVerify (p : Packet)
  /-- PLAN_START (R252): Places a loaded plan, clears accumulators, writes preload data and dispatches every thread. -/
  | planStart (p : Packet)
  /-- PLAN_CANCEL (R254): Ends the context's running plan, halting threads, cancelling streams and aborting any open step. -/
  | planCancel (p : Packet)
  /-- STEP_BEGIN (R179): Checks membership, groups and rates, advances the step, writes the loss scale, takes satchels and signals step-start. -/
  | stepBegin (p : Packet)
  /-- STEP_COMMIT (R190): Waits for the step's sends and updates, completes owned slices and sends the module's vote. -/
  | stepCommit (p : Packet)
  /-- STREAM_ARM (R234): The host arms a free stream of a logical core from a descriptor. -/
  | streamArm (p : Packet)
  /-- STREAM_REARM (R234): The host fills a stream's pending slot, or arms the stream if it is free. -/
  | streamRearm (p : Packet)
  /-- STREAM_CANCEL (R234): The host cancels a stream of a logical core. -/
  | streamCancel (p : Packet)
  /-- SYNC_ALLOC (R335): Allocates a run of free counters, sets them LIVE and writes the range into both sets. -/
  | syncAlloc (p : Packet)
  /-- SYNC_SET_SET (R336): The host sets a counter's count at its home. -/
  | syncSetSet (p : Packet)
  /-- SYNC_SET_SIGNAL (R336): The host adds a value to a counter at its home. -/
  | syncSetSignal (p : Packet)
  /-- SYNC_SET_POISON (R336): The host poisons a counter, waking its waiters with POISONED. -/
  | syncSetPoison (p : Packet)
  /-- SYNC_SET_REVIVE (R334): The host returns a POISONED counter to LIVE, or to FROZEN, with a new count. -/
  | syncSetRevive (p : Packet)
  /-- SYNC_DUMP (R338): Writes the dead-letter dump of the context's counters and waiters to host memory. -/
  | syncDump (p : Packet)
  /-- SYNC_RELEASE (R337): Frees a sync range of the context unless it is still in use. -/
  | syncRelease (p : Packet)
  /-- CFG_WRITE_SHADOW (R383): Writes entries of a configuration item into the shadow set, all or none. -/
  | cfgWriteShadow (p : Packet)
  /-- CFG_SWAP (R386): Locks the shadow set and holds affected packets until the swap point. -/
  | cfgSwap (p : Packet)
  /-- CFG_READ (R384): Writes entries of the active or shadow set to a host address. -/
  | cfgRead (p : Packet)
  /-- CTX_CREATE (R378): Makes a context resident in a slot, with a fresh or kept key. -/
  | ctxCreate (p : Packet)
  /-- CTX_RETIRE (R380): Resets the context, frees its objects and counters, erases its key, scrubs and frees the slot. -/
  | ctxRetire (p : Packet)
  /-- CTX_PREEMPT (R379): Freezes the context's threads, counters, streams, page waits and video jobs. -/
  | ctxPreempt (p : Packet)
  /-- CTX_RESUME (R379): Resumes everything that the context's pre-emption froze. -/
  | ctxResume (p : Packet)
  /-- CTX_RESET (R379): Ends the context's plans, poisons its owned counters and resets the loss scale, keeping its objects. -/
  | ctxReset (p : Packet)
  /-- KV_POOL_GRANT (R149): Copies granted page numbers into the free list and signals the return counter once per page. -/
  | kvPoolGrant (p : Packet)
  /-- KV_PAGE_EDIT (R153): Applies page-table edits, at once or at the next pass boundary, then bumps the generation word. -/
  | kvPageEdit (p : Packet)
  /-- KV_SEQ_ABORT (R150): Moves a sequence to ENDED, ending any page wait. -/
  | kvSeqAbort (p : Packet)
  /-- VID_DECODE (R278): Checks a decode job and queues it on a decode pipeline. -/
  | vidDecode (p : Packet)
  /-- VID_ENCODE (R288): Checks an encode job and queues it on an encode pipeline. -/
  | vidEncode (p : Packet)
  /-- TCD_CONFIG_SET (R260): Writes a tile codec configuration slot of the context. -/
  | tcdConfigSet (p : Packet)
  /-- TCD_CONFIG_CLEAR (R260): Empties a tile codec configuration slot. -/
  | tcdConfigClear (p : Packet)
  /-- TCD_CONFIG_POOL_ADD (R270): Adds an overflow-pool extent to the context and resumes any stalled codec job. -/
  | tcdConfigPoolAdd (p : Packet)
  /-- HEALTH_READ (R341): Copies health-log entries from a given sequence number to host memory. -/
  | healthRead (p : Packet)
  /-- SECURE_NOW_TAKE (R355): Marks a satchel pending for the context's next STEP_BEGIN. -/
  | secureNowTake (p : Packet)
  /-- SECURE_NOW_DRAIN (R356): Starts draining the module from the management ring. -/
  | secureNowDrain (p : Packet)
  /-- SECURE_NOW_UNDRAIN (R355): Ends draining of the module unless the risk score is still elevated. -/
  | secureNowUndrain (p : Packet)
  /-- RESTANTE_COLLECT (R349): Copies one committed part of a parameter group from a replica or satchel into a local object. -/
  | restanteCollect (p : Packet)
  /-- FAB_ROUTE_LOAD (R302): Writes route tables and the timeout into the shadow set, sets the module identifier and retrains ports. -/
  | fabRouteLoad (p : Packet)
  /-- FAB_MEMBERSHIP (R308): Writes a membership list of the context, which takes effect at the next STEP_BEGIN. -/
  | fabMembership (p : Packet)
  /-- ATTEST (R390): Writes a franked report with the measurements and the nonce, signed by the identity key. -/
  | attest (p : Packet)
  /-- FW_STAGE (R389): Authenticates a firmware image and writes it into the bank that is not running. -/
  | fwStage (p : Packet)
  /-- FW_ACTIVATE_SELECT (R389): Selects the staged bank for the next reset. -/
  | fwActivateSelect (p : Packet)
  /-- FW_ACTIVATE_RAISE_FLOOR (R389): Blows fuses until the rollback floor equals the running image's svn. -/
  | fwActivateRaiseFloor (p : Packet)
  /-- FW_ACTIVATE_KEEP (R389): Selects the running bank for the next reset. -/
  | fwActivateKeep (p : Packet)
  /-- PWR_LIMIT (R402): Sets the module power limit L in the POWER item of both sets. -/
  | pwrLimit (p : Packet)
  /-- CLK_REQUEST_GATE (R396): Gates a cluster, core, engine, port or video node that is not in use. -/
  | clkRequestGate (p : Packet)
  /-- CLK_REQUEST_UNGATE (R396): Ungates a gated node within 10 µs. -/
  | clkRequestUngate (p : Packet)
  /-- CLK_REQUEST_ARITH_533 (R407): Requests the permanent move of CLK_ARITH to 533.3 MHz at the next quiescent point. -/
  | clkRequestArith533 (p : Packet)
  /-- CLK_REQUEST_MEM_9600 (R408): Requests the permanent LPDDR6 step to 9,600 MT/s at the next quiescent point. -/
  | clkRequestMem9600 (p : Packet)
  /-- AGEING_REPORT (R412): Writes the ageing, thermal, power and life record to a host address. -/
  | ageingReport (p : Packet)
  /-- RING_TURN (R365): The firmware offers each ring in turn and takes one packet whose units, slot and receipt room allow it. -/
  | ringTurn
  /-- HST_DOORBELL (R364): A doorbell write is checked against head and last tail and, if accepted, becomes the ring's new tail. -/
  | hstDoorbell (ring : BitVec 7) (value : BitVec 64)
  /-- CMD_RCPT_HEAD_WRITE (R370): The host reports receipts consumed, releasing receipts that wait for room. -/
  | cmdRcptHeadWrite (ring : BitVec 7) (value : BitVec 64)
  /-- RING_ENABLE (R363): Setting enable resets head, tail, next_seq and counts and puts the ring pair in service. -/
  | ringEnable (ring : BitVec 7) (value : BitVec 64)
  /-- RING_DISABLE (R363): Clearing enable stops the taking of packets; the ring reads DISABLED after its last receipt. -/
  | ringDisable (ring : BitVec 7) (value : BitVec 64)
  /-- W1C_CLEAR (R7): A write of ones clears W1C status bits, with a simultaneous hardware set winning. -/
  | w1cClear (offset : BitVec 16) (mask hw : BitVec 64)
  /-- REGISTER_WRITE (R360): A write to a register with no row of its own takes effect, or is refused and logged as MMIO. -/
  | registerWrite (offset : BitVec 16) (size : Nat) (value : BitVec 64) (poisoned : Bool)
  /-- BAR2_ACCESS (R220): A host CXL.mem access to BAR2 is served through a window under its context's key, or completes poisoned. -/
  | bar2Access (write : Bool) (offset : BitVec 48) (size : Nat) (data : HostData)
  /-- I3C_PRIVATE_WRITE (R426): An I3C private write sets the register offset and writes the data bytes that follow. -/
  | i3cPrivateWrite (offset : BitVec 8) (data : List Byte) (hw : BitVec 8)
  /-- ENTDAA (R426): The module takes an I3C dynamic address, offering its provisional identifier with the slot number. -/
  | entdaa (address : BitVec 7)
  /-- JTAG_INSTRUCTION (R430): An instruction loaded into the TAP selects BYPASS, IDCODE, SAMPLE/PRELOAD or EXTEST. -/
  | jtagInstruction (code : JtagCode)
  /-- CTL_NOP (R63): Instruction NOP has no effect. -/
  | ctlNop (u : Issuer)
  /-- END (R48): The thread halts, and the thread's leases end. -/
  | endThread (u : Issuer)
  /-- ALU (R64): Scalar or address arithmetic with a register operand, completing in the issue cycle. -/
  | alu (u : Issuer)
  /-- ALUI (R64): Scalar or address arithmetic with an immediate operand. -/
  | alui (u : Issuer)
  /-- CMP (R64): Compares a register with an operand and writes a predicate. -/
  | cmp (u : Issuer)
  /-- LOOP (R65): Opens a counted loop, pushing a loop-stack entry or skipping a zero-count body. -/
  | loopOpen (u : Issuer)
  /-- ENDLOOP (R65): Advances the innermost loop index and branches back, or pops the entry. -/
  | endloop (u : Issuer)
  /-- BR (R64): Branches forward by the offset. -/
  | branch (u : Issuer)
  /-- TAG (R63): Sets the thread's rounding tensor tag rtag. -/
  | tag (u : Issuer)
  /-- MMA (R85): Multiplies A by B and adds into, or overwrites, an accumulator tile, rounding once per group. -/
  | mma (u : Issuer)
  /-- SPILL (R94): Adds an accumulator tile into a WF48 spill slot, then zeroes the tile. -/
  | spill (u : Issuer)
  /-- TOPK (R100): Writes the k largest values and positions of each row of an accumulator tile. -/
  | topk (u : Issuer)
  /-- ACCZ (R63): Writes +0 into an accumulator tile. -/
  | accz (u : Issuer)
  /-- KID (R130): Passes a job descriptor to the cluster's Kid engine. -/
  | kid (u : Issuer)
  /-- ADD (R110): Element-wise x + y, rounded once to FP32 and converted to fmt_d. -/
  | vadd (u : Issuer)
  /-- SUB (R110): Element-wise x − y. -/
  | vsub (u : Issuer)
  /-- MUL (R110): Element-wise x × y. -/
  | vmul (u : Issuer)
  /-- FMA (R110): Element-wise x × y + z, with one rounding. -/
  | vfma (u : Issuer)
  /-- MAX (R110): Element-wise maximum, giving NaN if either input is NaN. -/
  | vmax (u : Issuer)
  /-- MIN (R110): Element-wise minimum, giving NaN if either input is NaN. -/
  | vmin (u : Issuer)
  /-- CVT (R107): Converts n elements unscaled, or from a block-scaled source, to fmt_d. -/
  | cvt (u : Issuer)
  /-- SCL (R109): Block-converts n elements to a scaled format, writing elements and scale bytes. -/
  | scl (u : Issuer)
  /-- RSUM (R111): Sums n elements in the fixed lane-and-tree order into one FP32 word. -/
  | rsum (u : Issuer)
  /-- RMAX (R111): Reduces n elements to their maximum in the fixed order. -/
  | rmax (u : Issuer)
  /-- SSQ (R111): Sums the squares of n elements in the fixed order. -/
  | ssq (u : Issuer)
  /-- LDS (R68): Loads one 64-bit word of local store into a scalar register. -/
  | lds (u : Issuer)
  /-- STS (R68): Stores a scalar register as one 64-bit word of local store. -/
  | sts (u : Issuer)
  /-- EXP (R112): The function unit computes e^x for n elements. -/
  | fnExp (u : Issuer)
  /-- LOG (R112): The function unit computes ln x. -/
  | fnLog (u : Issuer)
  /-- RCP (R40): The function unit computes 1/x, with the special values of Table 2.8. -/
  | fnRcp (u : Issuer)
  /-- RSQ (R40): The function unit computes 1/√x, with the special values of Table 2.8. -/
  | fnRsq (u : Issuer)
  /-- SQRT (R112): The function unit computes √x, correctly rounded. -/
  | fnSqrt (u : Issuer)
  /-- TANH (R112): The function unit computes tanh x. -/
  | fnTanh (u : Issuer)
  /-- SIGM (R112): The function unit computes the logistic sigmoid. -/
  | fnSigm (u : Issuer)
  /-- GELU (R112): The function unit computes GELU in its tanh form. -/
  | fnGelu (u : Issuer)
  /-- SILU (R112): The function unit computes SiLU. -/
  | fnSilu (u : Issuer)
  /-- SIN (R112): The function unit computes sin x, giving NaN from 2^24. -/
  | fnSin (u : Issuer)
  /-- ARM (R69): Arms the lowest-numbered free stream from a descriptor, or refuses a 17th with RESOURCE_BUSY. -/
  | arm (u : Issuer)
  /-- REARM (R231): Fills a stream's pending slot, arms a free stream, or reports PENDING_FULL. -/
  | rearm (u : Issuer)
  /-- CANCEL (R231): Moves a stream to CANCELLING and clears its pending slot. -/
  | cancel (u : Issuer)
  /-- GATHER (R70): Fetches tensor rows by a list of indices and writes them, packed, at the destination. -/
  | gather (u : Issuer)
  /-- SIGNAL (R322): Adds a value to a counter. -/
  | signalCount (u : Issuer)
  /-- WAIT (R325): Sleeps the thread until the counter reaches the target, the timeout expires, or the counter is poisoned. -/
  | waitCount (u : Issuer)
  /-- TAKE (R332): Fetch-and-adds a counter, with a lease and the return list on a LEASED counter. -/
  | takeCount (u : Issuer)
  /-- SET (R322): Sets a counter's count. -/
  | setCount (u : Issuer)
  /-- POISON (R322): Poisons a counter, waking its waiters with POISONED. -/
  | poisonCount (u : Issuer)
  /-- READ (R322): Reads a counter's count into a scalar register. -/
  | readCount (u : Issuer)
  /-- DRAIN (R98): Converts a source tile through scale, bias and function into the local store. -/
  | drain (u : Issuer)
  /-- DRAIN_CLR (R99): Drains a source tile as DRAIN does, then sets the source to +0. -/
  | drainClr (u : Issuer)
  /-- DRAIN_RED (R165): Checks the reduce handle and sends the converted tile to the reduce unit. -/
  | drainRed (u : Issuer)
  /-- ENC (R263): Compresses one tile under a codec configuration slot. -/
  | enc (u : Issuer)
  /-- DEC (R265): Expands one compressed tile and writes a status line. -/
  | dec (u : Issuer)
  /-- ENGINE_OP_START (R435): A queued engine instruction starts once its engine, tile or slot is free, freeing its queue entry. -/
  | engineOpStart (core : BitVec 8) (q : EngineQ)
  /-- ENGINE_OP_COMPLETE (R75): An engine operation reaches its completion point and signals its sig counter. -/
  | engineOpComplete (core : BitVec 8) (id : Nat) (errs : List LsError)
  /-- UNIT_HARD_FAULT (R340): A hard fault of a unit retires a bank or pipeline, takes a port down or fences a cluster. -/
  | unitHardFault (u : HardUnit)
  /-- SYNC_OP_APPLY (R323): A sync unit applies a waiting counter operation at the counter's home, in arrival order. -/
  | syncOpApply (cluster : BitVec 4) (ecc : Ecc)
  /-- WAITER_EVALUATE (R326): A cluster that holds waiters receives a new count and wakes every waiter whose target it meets. -/
  | waiterEvaluate (cluster : BitVec 4)
  /-- WAIT_TIMEOUT (R327): A wait's timeout expires and wakes the waiter with TIMEOUT. -/
  | waitTimeout (core : BitVec 8) (thread : BitVec 5)
  /-- STREAM_TILE_START (R229): A stream starts tile n once the free counter allows it and a fetch tag is free. -/
  | streamTileStart (core : BitVec 8) (stream : BitVec 4)
  /-- STREAM_TILE_DONE (R229): A landed or written tile is signalled on done_sid in tile order, ending a descriptor at its last tile. -/
  | streamTileDone (core : BitVec 8) (stream : BitVec 4) (tile : Nat) (ecc : HomeEcc)
  /-- STREAM_CANCEL_DONE (R231): A CANCELLING stream's last transfer completes; it signals end_sid and becomes FREE. -/
  | streamCancelDone (core : BitVec 8) (stream : BitVec 4)
  /-- GATHER_INDEX_ISSUE (R70): A gather issues its next index when a fetch tag is free, at most one per cycle. -/
  | gatherIndexIssue (core : BitVec 8) (ecc : IndexEcc)
  /-- PAGE_WALK (R143): A Chamois walker reads a page-table entry after a look-aside miss. -/
  | pageWalk (cluster : BitVec 4) (ecc : Ecc)
  /-- PAGE_WAIT_RESUME (R148): A WAITING_PAGES sequence's ticket is satisfied; the take completes and the fetch resumes. -/
  | pageWaitResume (slot : BitVec 6) (seq : BitVec 15)
  /-- PAGE_WAIT_TIMEOUT (R148): A sequence's page-wait timeout expires and the sequence enters ENDED. -/
  | pageWaitTimeout (slot : BitVec 6) (seq : BitVec 15)
  /-- PASS_BOUNDARY (R152): At a pass boundary pending page edits apply, rolled-back pages return and the generation is checked. -/
  | passBoundary (slot : BitVec 6)
  /-- KID_JOB_START (R133): The Kid engine starts its next accepted job, checking the descriptor. -/
  | kidJobStart (start : KidStart)
  /-- KID_JOB_COMPLETE (R132): A Kid job has written every output element and signals its counter. -/
  | kidJobComplete (cluster : BitVec 4) (errs : KidErrors)
  /-- CODEC_JOB_START (R271): A tile codec unit starts its next job of a direction, stalling if the overflow pool has no room. -/
  | codecJobStart (cluster : BitVec 4) (expand : Bool)
  /-- CODEC_JOB_COMPLETE (R271): A codec job has written its output and reconstruction entry. -/
  | codecJobComplete (cluster : BitVec 4) (expand : Bool) (ecc : Ecc)
  /-- PLAN_END (R253): A plan whose threads and jobs have all finished ends; its PLAN_START receipt is written. -/
  | planEnd (slot : BitVec 6)
  /-- UPDATE_UNIT_SLICE (R187): A port update unit applies the update rule to a delivered privileged slice. -/
  | updateUnitSlice (port : BitVec 4) (ecc : SliceEcc)
  /-- FLIT_RECEIVE (R294): The link layer accepts or discards a flit, taking its ack and credit returns. -/
  | flitReceive (port : BitVec 4) (f : Flit) (fec : Fec)
  /-- REPLAY_REQ (R294): A received REPLAY_REQ makes the sender replay every unacknowledged flit in order. -/
  | replayReq (port : BitVec 4) (link : LinkHdr)
  /-- REPLAY_TIMEOUT (R294): The oldest unacknowledged flit has waited 1 µs and every unacknowledged flit is replayed. -/
  | replayTimeout (port : BitVec 4)
  /-- LINK_DOWN_TIMEOUT (R294): A flit unacknowledged for 6 µs, or 6 µs without a good CRC, declares the port down. -/
  | linkDownTimeout (port : BitVec 4) (silence : Bool)
  /-- LANE_LOCK_LOSS (R316): A lane loses lock and its port is declared down. -/
  | laneLockLoss (port : BitVec 4) (lane : BitVec 2)
  /-- PORT_TRAIN (R292): A port's lanes train and equalise with the partner and the port comes up. -/
  | portTrain (port : BitVec 4)
  /-- TRAIN_TIMEOUT (R292): A partner that does not train within 100 ms leaves the port down with TRAIN_FAIL. -/
  | trainTimeout (port : BitVec 4)
  /-- FABRIC_READ (R303): A destination serves a one-sided READ and answers with READ_DATA. -/
  | fabricRead (port : BitVec 4) (r : ReadFlit)
  /-- FABRIC_WRITE (R303): A destination applies a WRITE, with the duplicate filter, and answers COMPLETE. -/
  | fabricWrite (port : BitVec 4) (f : Flit)
  /-- FABRIC_ATOMIC (R303): A destination applies an 8 B atomic once and answers COMPLETE with the old value. -/
  | fabricAtomic (port : BitVec 4) (f : Flit)
  /-- FABRIC_SIGNAL (R303): A destination adds to a counter in sync space and answers COMPLETE. -/
  | fabricSignal (port : BitVec 4) (f : Flit)
  /-- READ_DATA (R305): A source takes read data of the current epoch and ends the transaction's tracking. -/
  | readData (port : BitVec 4) (f : Flit)
  /-- COMPLETE (R305): A source takes a completion of the current epoch and ends the transaction's tracking. -/
  | complete (port : BitVec 4) (f : Flit)
  /-- FABRIC_ERROR (R297): A source takes an ERROR response and ends its plan or declares the destination lost. -/
  | fabricError (port : BitVec 4) (f : Flit)
  /-- PATH_DOWN (R305): A source re-issues the named transaction with the next epoch over the current route. -/
  | pathDown (port : BitVec 4) (f : Flit)
  /-- TXN_TIMEOUT (R305): A transaction without response within the end-to-end timeout is re-issued, or its destination is lost. -/
  | txnTimeout (dst : BitVec 14) (txn : BitVec 16)
  /-- RED_PART (R310): A reduce unit adds a contribution or partial into its slice and forwards or delivers when complete. -/
  | redPart (port : BitVec 4) (f : Flit)
  /-- REDUCTION_DEADLINE (R311): A node's deadline D expires and it proceeds without missing partials. -/
  | reductionDeadline (slot : BitVec 6) (coll : BitVec 16) (group : BitVec 12) (slice : BitVec 32)
  /-- GATHER_DATA (R315): A member writes received all-gather or replica data, forwards it and signals res_sid. -/
  | gatherData (port : BitVec 4) (f : Flit)
  /-- VOTE (R313): A step vote or ABORT rises the tree, and the outcome comes back down and takes effect. -/
  | vote (v : VoteMsg)
  /-- MEMBER_LOST (R345): A MEMBER_LOST notice excludes the lost position and re-forms reductions. -/
  | memberLost (ctx : BitVec 16) (lost : BitVec 14)
  /-- LEAVE (R356): A LEAVE notice excludes a draining module from later steps. -/
  | leave (ctx : BitVec 16) (leaving : BitVec 14)
  /-- MIGRATION_FENCE_NOTICE (R209): A bind module receives a fence notice and holds writes to the object. -/
  | migrationFenceNotice (ctx : BitVec 16) (home : BitVec 64)
  /-- MIGRATION_COMMIT_NOTICE (R209): A bind module receives a commit notice and sends writes to the new home. -/
  | migrationCommitNotice (ctx : BitVec 16) (oldHome newHome : BitVec 64)
  /-- BIND_QUERY (R204): A home module answers a bind query with the home's global address or BAD_FIELD. -/
  | bindQuery (asker : BitVec 14) (ctx : BitVec 16) (objId : BitVec 32)
  /-- MIGRATION_COPY_START (R209): Once writes have drained and bind entries have acknowledged, the copy engine starts copying. -/
  | migrationCopyStart (slot : BitVec 6) (objId : BitVec 32)
  /-- MIGRATION_ACK_TIMEOUT (R209): A bind module that does not acknowledge within the timeout is recorded as lost to the migration. -/
  | migrationAckTimeout (slot : BitVec 6) (objId : BitVec 32) (binder : BitVec 14)
  /-- MIGRATION_COMMIT (R209): The last line is written, the home entry switches atomically and commit notices go out. -/
  | migrationCommit (slot : BitVec 6) (objId : BitVec 32) (ecc : HomeEcc)
  /-- MIGRATION_RELEASE (R209): The old home is released once every bind has acknowledged and reads have completed. -/
  | migrationRelease (slot : BitVec 6) (objId : BitVec 32)
  /-- CFG_SWAP_POINT (R386): At the swap point every block takes the other configuration set in one cycle. -/
  | cfgSwapPoint
  /-- CFG_SWAP_TIMEOUT (R386): A swap whose timeout expires before the swap point changes nothing and answers TIMEOUT. -/
  | cfgSwapTimeout
  /-- VIDEO_JOB_START (R275): A video pipeline starts its next accepted job. -/
  | videoJobStart (pipe : BitVec 3)
  /-- DECODE_FRAME_DONE (R286): An output frame and its status word are written and done_sid is signalled. -/
  | decodeFrameDone (pipe : BitVec 3)
  /-- ENCODE_PICTURE_DONE (R290): A picture's bytes and status word are written and done_sid is signalled. -/
  | encodePictureDone (pipe : BitVec 3)
  /-- VIDEO_JOB_COMPLETE (R285): A video job ends and its receipt is written. -/
  | videoJobComplete (pipe : BitVec 3)
  /-- RISK_COMPUTE (R353): Every 1 ms the risk score is computed and the risk level moves. -/
  | riskCompute
  /-- DRAIN_COMPLETE (R356): After the running steps commit and LEAVE is sent, the module is marked drained. -/
  | drainComplete
  /-- POWER_CONTROL_PERIOD (R401): Every 100 µs the input power is measured and the idle count k is set. -/
  | powerControlPeriod (m : PowerSample)
  /-- IDLE_WINDOW (R401): A core's issue window of 16,384 cycles restarts with its first 256·k slots idle. -/
  | idleWindow (core : BitVec 8)
  /-- THERMAL_SAMPLE (R404): Every 100 µs junction readings set the thermal idle count. -/
  | thermalSample (m : ThermalSample)
  /-- THERMAL_SHUTDOWN (R404): A junction at 110 °C asserts MOD_THERM_N and removes every rail but VDD_AON. -/
  | thermalShutdown
  /-- AGEING_SAMPLE (R406): Every 100 ms path slack is sampled and VDD_ARITH is stepped, or a clock change is advised or forced. -/
  | ageingSample (slacks : List Int)
  /-- CLK_REPLAN_APPLY (R407): At the quiescent point every block moves CLK_ARITH from /8 to /9. -/
  | clkReplanApply
  /-- REPLAN_QUIESCE_TIMEOUT (R407): With no quiescent point 1 s after a forced decision, every plan is cancelled. -/
  | replanQuiesceTimeout
  /-- MEM_MARGIN_MEASURE (R408): Every 10 s the data-eye margins are measured and a memory step is advised or forced. -/
  | memMarginMeasure (m : MarginSample)
  /-- MEM_STEP_APPLY (R408): At a quiescent point LPDDR6 enters self-refresh, relocks, retrains at 9,600 MT/s and exits. -/
  | memStepApply
  /-- MUX_HUNG (R397): A multiplexer switch not complete within 64 XO cycles is flagged, and the domain is reset. -/
  | muxHung (dom : ClkDomain)
  /-- CLOCK_MONITOR_WINDOW (R398): Each 64-XO-cycle window the clock monitor marks sources STOPPED or OFF_FREQ. -/
  | clockMonitorWindow (counts : List EdgeCount)
  /-- ROOT_PLL_LOCK_LOSS (R393): Loss of root-PLL lock after start-up is a MODULE fault. -/
  | rootPllLockLoss
  /-- PHY_PLL_LOCK_LOSS (R394): Loss of lock of a memory PHY's PLL is a MODULE fault. -/
  | phyPllLockLoss
  /-- CONTROL_WATCHDOG (R340): The control-complex watchdog expires and the module stops as a MODULE fault. -/
  | controlWatchdog
  /-- RAIL_TRIP (R406): The VDD_ARITH regulator trips at 0.68 V, a MODULE fault. -/
  | railTrip
  /-- INPUT_OUT_OF_RANGE (R431): J6 input beyond 42 V or 58 V for 1 ms removes every rail but VDD_AON. -/
  | inputOutOfRange
  /-- COOLANT_ALERT (R429): Inlet coolant above 40 °C for 1 s sets the coolant alert cause. -/
  | coolantAlert
  /-- AUX_POWER_GOOD (R424): P3V3_AUX comes into range; management starts and MOD_SLOT_ID is sampled. -/
  | auxPowerGood (slotId : BitVec 6)
  /-- POWER_ON (R413): MOD_PWR_EN rises and start-up begins with phase POWER. -/
  | powerOn (slotId : BitVec 6)
  /-- POWER_OFF (R400): MOD_PWR_EN low moves the module to OFF with only the auxiliary feed left. -/
  | powerOff
  /-- WARM_RESET_ASSERT (R419): MOD_RESET_N or PERST# held low ends all work and enters RESET_HOLD, self-refreshing LPDDR6 if kept. -/
  | warmResetAssert (pin : ResetPin)
  /-- WARM_RESET_RELEASE (R413): Deassertion of the last reset input starts start-up from POWER. -/
  | warmResetRelease (pin : ResetPin)
  /-- XO_STABLE (R392): The XO count reaches 16,384 cycles and XO is judged stable. -/
  | xoStable
  /-- XO_TIMEOUT (R392): XO not stable within 20 ms fails start-up. -/
  | xoTimeout
  /-- PLL_LOCK (R393): The root PLL is judged locked after 4,096 reference cycles. -/
  | pllLock
  /-- PLL_LOCK_TIMEOUT (R393): The root PLL not locked within 2 ms of enable fails start-up. -/
  | pllLockTimeout
  /-- START_PHASE_COMPLETE (R413): A start-up phase ends and the next phase begins. -/
  | startPhaseComplete (r : PhaseResult)
  /-- PHASE_TIMEOUT (R414): A phase that exceeds its bound sets FAILED and stops every domain but always-on. -/
  | phaseTimeout
  /-- LINK_RETRAIN (R359): The CXL link retrains to a lower width or speed and sets HST_ERR.link. -/
  | linkRetrain
  /-- LINK_LOSS (R359): Loss of the CXL link or an IDE failure holds host-memory rings and receipts. -/
  | linkLoss
  /-- LINK_RETURN (R359): The CXL link returns; rings resume from their heads and held receipts are written. -/
  | linkReturn
  /-- BIND_ANSWER (R204): The module that asked for a BIND receives the home module's answer and creates the bind entry with the home's global address, or answers BAD_FIELD. -/
  | bindAnswer (ctx : BitVec 16) (objId : BitVec 32) (reply : MgtReply)
  /-- MIGRATION_PLACE_QUERY (R208): A module named as the new home of an OBJ_MIGRATE receives the placement request over the management channel and makes the tier, partition and space checks for itself. -/
  | migrationPlaceQuery (asker : BitVec 14) (ctx : BitVec 16) (req : PlaceReq)
  /-- MIGRATION_PLACE_ANSWER (R209): The old home receives the new home module's placement answer, and a refusal returns the object to HOMED at the old home with NO_SPACE and wakes the sleeping writers. -/
  | migrationPlaceAnswer (slot : BitVec 6) (objId : BitVec 32) (reply : MgtReply)
  /-- PICTURE_BOUNDARY (R287): A video pipeline finishes a picture, and any pending pre-emption, reset, retire or re-plan pause stops the job there and saves its state. -/
  | pictureBoundary (pipe : BitVec 3)
  /-- AUX_POWER_LOSS (R431): P3V3_AUX falls below 3.0 V, and the module acts as unpowered with I3C silent and MOD_PWR_EN ignored. -/
  | auxPowerLoss
  /-- ENEC (R429): The I3C controller enables the target's interrupts with ENEC, so later alert assertions send an In-Band Interrupt. -/
  | enec
  /-- XO_AMPLITUDE_DETECT (R392): The oscillator's amplitude detector reports swing and the stability count starts, or it drops and the count restarts from 0. -/
  | xoAmplitudeDetect (swing : Bool)
  /-- HDM_DECODER_COMMIT (R357): The host commits the HDM decoder, after which BAR2 becomes reachable over CXL.mem. -/
  | hdmDecoderCommit
deriving DecidableEq, Repr

end Sys2Proof
end

