-- ==== Sys2Proof/Machine/State.lean ====
section
/-! DEFINITION. The state of the module as plain data, and the state right after reset. Every structure names the
rule of spec/ that gives it; a field marked MODEL is the model's own bookkeeping and no state of the spec. -/

namespace Sys2Proof.Machine

/-! ### Memories and tables -/

/-- A memory: address and byte pairs, addresses strictly rising, no byte 0; an unlisted address reads as 0. -/
abbrev Mem := List Host.Cell

/-- A table of like things by number: keys strictly rising, an unlisted key is absent. -/
abbrev Table (α : Type) := List (Nat × α)

/-- A tile of 32-bit words in row-major order (spec/05 R97): element (m, n) is entry 128·m + n. -/
abbrev Tile := List (BitVec 32)

/-! ### Threads (spec/03 R47, R48; spec/04 R58) -/

/-- One entry of a thread's loop stack (spec/04 Table 4.1). -/
structure LoopEntry where
  startPc : BitVec 13
  endPc   : BitVec 13
  count   : BitVec 32
  index   : BitVec 32
deriving DecidableEq, Repr

/-- The five thread states (spec/03 Table 3.4); a frozen thread remembers whether it slept. -/
inductive ThreadState where
  | idle | ready | sleeping | frozen (slept : Bool) | halted
deriving DecidableEq, Repr

/-- Why a READY or SLEEPING thread does not issue: it waits for the result of an operation (spec/04 R72), or for a
resource at its bound (spec/03 R52), after which the instruction is issued again. -/
inductive Hold where
  | none | result (opId : Nat) | fetchTag | kidEntry | codecEntry
deriving DecidableEq, Repr

/-- A hardware thread (spec/04 Table 4.1). -/
structure Thread where
  s     : Vector Word 32
  a     : Vector (BitVec 32) 16
  p     : BitVec 8
  pc    : BitVec 13
  loops : List LoopEntry
  rtag  : BitVec 32
  state : ThreadState
  hold  : Hold
deriving DecidableEq, Repr

/-! ### Engine operations with the registers they read at issue (spec/04 R62) -/

/-- A matrix product (spec/04 Table 4.6). -/
structure MmaOp where
  fmtA : BitVec 4
  fmtB : BitVec 4
  aAddr : Nat
  bAddr : Nat
  acc : BitVec 3
  ovw : Bool
  ta : Bool
  tb : Bool
  sr : Bool
  sta : BitVec 2
  stb : BitVec 2
  kd : BitVec 2
  cnt : Word
  rtag : BitVec 32
deriving DecidableEq, Repr

/-- A spill (spec/05 R94). -/
structure SpillOp where
  acc : BitVec 3
  slot : BitVec 2
  sr : Bool
  cnt : Word
  rtag : BitVec 32
deriving DecidableEq, Repr

/-- A vector or function-unit operation (spec/04 Table 4.7): `bcast` is source 2 where the instruction broadcasts it. -/
structure VecOp where
  isFn : Bool
  op : BitVec 4
  ad : Nat
  a1 : Nat
  a2 : Nat
  a3 : Nat
  fmtD : BitVec 4
  fmtS : BitVec 4
  n : Nat
  ovm : Bool
  st : BitVec 2
  bcast : Option (BitVec 32)
deriving DecidableEq, Repr

/-- A drain (spec/04 Table 4.10). -/
structure DrainOp where
  op : BitVec 4
  src : Bool
  idx : BitVec 3
  ad : Nat
  ap : Nat
  fmtD : BitVec 4
  st : BitVec 2
  ovm : Bool
  fn : BitVec 6
  bias : Bool
  scale : Option (BitVec 32)
  watch : Bool
deriving DecidableEq, Repr

/-- A gather in progress (spec/04 R70): `next` is the first index not issued yet, `got` the rows that have landed, `bad` whether
an index word or a row read as uncorrectable. -/
structure GatherOp where
  desc : BitVec 512
  dst  : Nat
  list : Nat
  n    : Nat
  next : Nat
  got  : List (Nat × List Byte)
  bad  : Bool
deriving DecidableEq, Repr

/-- The counter operations (spec/17 Table 17.2); REVIVE is the firmware's alone. -/
inductive SyncOp where
  | signal | wait | take | set | poison | read | revive
deriving DecidableEq, Repr

/-- A SYN instruction with its operands read (spec/04 Table 4.9). -/
structure SynOp where
  op    : SyncOp
  vid   : BitVec 20
  value : Word
  sd    : BitVec 5
  tmo   : BitVec 4
deriving DecidableEq, Repr

/-- An engine instruction after issue. -/
inductive EngKind where
  | mma (o : MmaOp)
  | spill (o : SpillOp)
  | topk (acc : BitVec 3) (k : Nat) (addr : Nat)
  | accz (acc : BitVec 3)
  | kid (desc : Nat)
  | vec (o : VecOp)
  | lds (addr : Nat) (rd : BitVec 5)
  | sts (addr : Nat) (value : Word)
  | arm (desc : BitVec 512) (sst : BitVec 5)
  | rearm (desc : BitVec 512) (stream : BitVec 4) (sst : BitVec 5)
  | cancel (stream : BitVec 4) (sst : BitVec 5)
  | gather (o : GatherOp)
  | syn (o : SynOp)
  | drain (o : DrainOp)
  | tcd (expand : Bool) (src dst : Nat) (cfg : BitVec 6) (coord : Word)
deriving DecidableEq, Repr

/-- An operation in an engine queue or in an engine: its number on the core (MODEL), its thread, its pc (for the log),
and the virtual identifier that it signals at completion. -/
structure EngOp where
  id     : Nat
  thread : BitVec 5
  pc     : BitVec 13
  kind   : EngKind
  sig    : Option (BitVec 20)
deriving DecidableEq, Repr

/-! ### Streams (spec/12) -/

/-- Stream states (spec/12 Table 12.3); freezing is a separate mark, since a frozen stream keeps its state. -/
inductive StreamState where
  | free | active | cancelling
deriving DecidableEq, Repr

/-- A tile that a stream has started: `landed` once its transfer is complete, `walk` while it waits for a page
translation, `got` the bytes that another module has answered so far, by offset in the object; `sent` whether its writes to another
module have left. -/
structure StreamTile where
  n      : Nat
  landed : Bool
  walk   : Bool
  page   : Option (BitVec 24)
  got    : List (Nat × List Byte)
  sent   : Bool
deriving DecidableEq, Repr

/-- One of the 16 streams of a core (spec/12 R224 to R231). `first` numbers the active descriptor's tile 0; `keep` is the
descriptor that was armed, whose ring, slot, ra, dir, counters and end_sid stay (R230); `held` the done signals that wait for
CTX_RESUME, and `quiet` marks a stream that a reset or a fence ends with no signals (Table 12.3). A PAGED stream keeps the length and the
first token that it read when it was armed (spec/08 R144, R146, R151); `rowBase` counts the ring rows that a CONV stream's earlier
descriptors took (spec/07 R122). -/
structure Stream where
  state    : StreamState
  frozen   : Bool
  desc     : BitVec 512
  keep     : BitVec 512
  pending  : Option (BitVec 512)
  d0       : Word
  f0       : Word
  lastF    : Word
  next     : Nat
  first    : Nat
  signalled : Nat
  tiles    : List StreamTile
  lenAtArm : Nat
  fromAtArm : Nat
  rowBase  : Nat
  held     : Nat
  quiet    : Bool
deriving DecidableEq, Repr

/-! ### Cores (spec/03 R43) -/

/-- One core. `idleUntil` is the postmark at which the idle slots of its issue window end (spec/21 R401). `lastSlot` is the context of
its last thread until a retirement scrubs it (spec/20 R380). `ls` is the whole local store of Table 3.3, accumulator tiles and spill
slots included: tile element (m, n)
is the little-endian word at 4·(128·m + n) of its tile, slot element (m, n) the 6 bytes at 6·(128·m + n) of its slot. Bit n of
`accInt` says that tile n accumulates in INT32 (spec/05 Table 5.1). `rot` is the thread that last issued to each engine queue (R49),
`cycle` the threads that have issued in the running issue cycle, with their queues (MODEL), and `clockOff` whether a fence has gated
the core's clocks (R55). -/
structure Core where
  ls      : Mem
  accInt  : BitVec 8
  prog    : List Word
  threads : Vector Thread 32
  matQ    : List EngOp
  vecQ    : List EngOp
  strQ    : List EngOp
  drnQ    : List EngOp
  synQ    : List EngOp
  tcdQ    : List EngOp
  running : List EngOp
  nextOp  : Nat
  streams : Vector Stream 16
  tags    : Nat
  hardAt  : List Nat
  fenced  : Bool
  gated   : Bool
  slot    : Option (BitVec 6)
  lastSlot : Option (BitVec 6)
  unwatched : List (BitVec 13)
  idleUntil : Word
  rot      : Vector (BitVec 5) 6
  cycle    : List (BitVec 5 × Option EngineQ)
  clockOff : Bool
deriving DecidableEq, Repr

/-! ### Units of a cluster (spec/03 Table 3.1) -/

/-- A Kid job (spec/07 R130): the issuing core, thread and operation, its descriptor and context slot. -/
structure KidJob where
  core : BitVec 8
  op   : EngOp
  slot : BitVec 6
  desc : BitVec 512
deriving DecidableEq, Repr

/-- Who asked the tile codec unit for a job (spec/14 R261): an ENC or DEC, or tile `n` of a CODEC-mode stream. -/
inductive CodecSrc where
  | instr (op : EngOp)
  | stream (stream : BitVec 4) (tile : Nat)
deriving DecidableEq, Repr

/-- A job of a tile codec unit (spec/14 R261). `pool` holds the slots that it has reserved (R269), `src` and `ref` what it read at its
start: its input and its reference entry, and `bad` whether those reads failed. -/
structure CodecJob where
  core   : BitVec 8
  for_   : CodecSrc
  slot   : BitVec 6
  expand : Bool
  cfg    : BitVec 6
  coord  : Word
  lsAddr : Nat
  tierOff : Nat
  obj    : BitVec 32
  pool   : Option (Nat × Nat)
  src    : List Byte
  ref    : List Byte
  bad    : Bool
  badAt  : Option (BitVec 32 × Nat)
  seq    : Nat
deriving DecidableEq, Repr

/-- One direction of a tile codec unit: the waiting jobs, the running one, and whether it is stalled on the pool (R270). -/
structure CodecLane where
  queue   : List CodecJob
  running : Option CodecJob
  stalled : Bool
deriving DecidableEq, Repr

/-- A look-aside entry of a Chamois walker (spec/08 R142). -/
structure LookAside where
  slot : BitVec 6
  seq  : BitVec 15
  page : Nat
  ppn  : BitVec 24
deriving DecidableEq, Repr

/-- A walk request (spec/08 R142, R143): a stream's tile, the sequence and logical page, and whether it writes. -/
structure Walk where
  core   : BitVec 8
  stream : BitVec 4
  tile   : Nat
  slot   : BitVec 6
  seq    : BitVec 15
  page   : Nat
  write  : Bool
  ticket : Option Word
deriving DecidableEq, Repr

/-- The shared units of one cluster. -/
structure Cluster where
  kidQ      : List KidJob
  kidRun    : Option KidJob
  kidWaddr  : Option (BitVec 32)
  kidWeights : List Byte
  enc       : CodecLane
  dec       : CodecLane
  codecSeq  : Nat
  lookAside : List LookAside
  walks     : List Walk
  genSeen   : Option (BitVec 6 × Word)
  syncFenced : Bool
  gated     : Bool
  kidGated  : Bool
  codecGated : Bool
deriving DecidableEq, Repr

/-! ### Counters (spec/17) -/

/-- Counter states (spec/17 R318). A FREE counter is one that the table does not list. -/
inductive CounterState where
  | live | frozen | poisoned
deriving DecidableEq, Repr

/-- An allocated counter (spec/17 R318), its cluster mask (R326) and the postmark of the last operation (Table 17.8). `added` is the value
of the last SIGNAL, from which a paged write stream knows how many tokens a plan appended (spec/08 R151; MODEL, log entry 143). -/
structure Counter where
  count  : Word
  state  : CounterState
  leased : Bool
  owner  : BitVec 9
  slot   : BitVec 6
  last   : Word
  added  : Word
deriving DecidableEq, Repr

/-- Where a counter operation came from (spec/17 R323). -/
inductive SyncSrc where
  | thread (core : BitVec 8) (thread : BitVec 5) (opId : Nat) (sd : BitVec 5) (tmo : BitVec 4) (sig : Option (BitVec 20))
  | engine (core : BitVec 8)
  | fabric (port : BitVec 4) (f : Flit)
  | walker (w : Walk)
  | firmware
deriving DecidableEq, Repr

/-- An operation that waits at a sync unit in arrival order (spec/17 R323). -/
structure SyncReq where
  pid   : BitVec 16
  slot  : BitVec 6
  op    : SyncOp
  value : Word
  src   : SyncSrc
deriving DecidableEq, Repr

/-- Who waits (spec/17 R325, Table 17.9). -/
inductive WaiterKind where
  | thread (core : BitVec 8) (thread : BitVec 5) (opId : Nat) (sd : BitVec 5) (sig : Option (BitVec 20))
  | stream (core : BitVec 8) (stream : BitVec 4)
  | walker (w : Walk)
  | firmware (slot : BitVec 6)
deriving DecidableEq, Repr

/-- A waiter entry (spec/17 R326), in the unit of the waiter's own cluster. `expired` marks a waiter of a frozen context
whose POISONED or TIMEOUT is delivered at CTX_RESUME (R334). -/
structure Waiter where
  cluster : BitVec 4
  kind    : WaiterKind
  pid     : BitVec 16
  slot    : BitVec 6
  target  : Word
  timeout : Option Nat
  since   : Word
  expired : Bool
deriving DecidableEq, Repr

/-- A new count on its way to a cluster that holds waiters (spec/17 R326); `none` says POISONED. -/
structure CountMsg where
  cluster : BitVec 4
  pid     : BitVec 16
  count   : Option Word
deriving DecidableEq, Repr

/-- An entry of a lease table (spec/17 R332): leased to a thread, or returned. -/
structure Lease where
  pid    : BitVec 16
  value  : Word
  holder : Option Issuer
deriving DecidableEq, Repr

/-! ### Objects and tiers (spec/11) -/

/-- Migration states (spec/11 Table 11.3) and LOST (R222), with the codes of Table 11.6. -/
inductive ObjState where
  | homed | fencing | copying | committing | lost
deriving DecidableEq, Repr

/-- A migration in progress (spec/11 R208, R209). -/
structure Migration where
  pkt      : Packet
  newMod   : BitVec 14
  newTier  : BitVec 2
  newOff   : Nat
  newSpread : BitVec 2
  newSgrp  : BitVec 4
  newPart  : BitVec 4
  placed   : Bool
  unacked  : List (BitVec 14)
  lostBind : Bool
deriving DecidableEq, Repr

/-- An object-table entry (spec/11 R200, R201). For a bind entry `homeMod`, `tier` and `off` are the home's global address. -/
structure Obj where
  isBind  : Bool
  homeMod : BitVec 14
  tier    : BitVec 2
  off     : Nat
  size    : Nat
  spread  : BitVec 2
  sgrp    : BitVec 4
  part    : BitVec 4
  cache   : Bool
  state   : ObjState
  binders : List (BitVec 14)
  fenced  : Bool
  mig     : Option Migration
deriving DecidableEq, Repr

/-- What is written beside an LPDDR6 line of 256 bytes (spec/11 R217): the tag's inputs that can differ (module identifier,
key slot, generation; the address is the line's own), the key that encrypted it (R219), and the uncorrectable marker. -/
structure LineTag where
  modId : BitVec 14
  slot  : BitVec 6
  gen   : BitVec 8
  key   : Nat
  bad   : Bool
deriving DecidableEq, Repr

/-- A line of a CACHE partition (spec/11 R214): its bank, the slot that it is tagged by, and the LPDDR6 line it copies. The
cache is never a home, so a line holds no data of its own. The list runs from least to most recently used. -/
structure CacheLine where
  bank : BitVec 6
  slot : BitVec 6
  line : Nat
deriving DecidableEq, Repr

/-! ### Configuration sets (spec/20 R382) -/

/-- One configuration set (spec/20 Table 20.3). -/
structure ConfigSet where
  part    : Vector (BitVec 8) 16
  window  : Vector (BitVec 64) 64
  sync    : Vector (Table (BitVec 64)) 64
  groups  : Vector (BitVec 64) 64
  loss    : Vector (BitVec 64) 64
  secured : Vector (BitVec 64) 64
  risk    : BitVec 64
  power   : BitVec 64
  routes  : Vector (Table (BitVec 16)) 16
  timeout : BitVec 64
deriving DecidableEq, Repr

/-- A pending CFG_SWAP (spec/20 R386). -/
structure Swap where
  pkt     : Packet
  timeout : BitVec 32
deriving DecidableEq, Repr

/-! ### Contexts (spec/20), plans (spec/13), steps (spec/10) -/

/-- What the loader judged a plan against (spec/13 R251): the active set, the fence map, the context's objects, and what its SCRATCH
partitions hold. -/
structure Judged where
  cfg    : ConfigSet
  fences : List Nat
  objs   : Table Obj
  held   : List (Nat × Nat)
deriving DecidableEq, Repr

/-- A loaded plan: its image, the digest of its header, and what it was last judged against (spec/13 R244, R248, R251). -/
structure Plan where
  image : List Byte
  digest : List Byte
  judged : Judged
deriving DecidableEq, Repr

/-- Where a logical core of a running plan was placed (spec/03 R56). -/
structure Placed where
  lcl   : Nat
  lcore : Nat
  core  : BitVec 8
deriving DecidableEq, Repr

/-- How a plan is ending: the status and detail its receipt will carry (spec/13 R253). -/
structure Ending where
  status : BitVec 16
  detail : BitVec 16
deriving DecidableEq, Repr

/-- An instruction fault for which the firmware has not ended the plan yet (spec/04 R77): its core, thread and code, and its
postmark. -/
structure FaultNote where
  core   : BitVec 8
  thread : BitVec 5
  code   : BitVec 16
  at_    : Word
deriving DecidableEq, Repr

/-- The context's running plan (spec/13 R252). -/
structure Running where
  number  : BitVec 4
  pkt     : Packet
  seed    : Word
  steps   : Bool
  startVid : BitVec 20
  sendVid : BitVec 20
  endVid  : BitVec 20
  placed  : List Placed
  working : List Nat
  begun   : Word
  rawFallback : Bool
  tableChanged : Bool
  ending  : Option Ending
  fault   : Option FaultNote
  cancelPkts : List Packet
deriving DecidableEq, Repr

/-- Where a taken STEP_COMMIT stands (spec/10 R190). -/
inductive CommitStage where
  | waitSend | waitEnd | waitOutcome
deriving DecidableEq, Repr

/-- A membership list (spec/16 R308; spec/18 R345): its members by position, the list that the next STEP_BEGIN takes,
the positions excluded as lost, those that leave from the next STEP_BEGIN (R356), those that were excluded when the running step
began, over which its trees are formed (R346), and whether this module was named lost. -/
structure Members where
  now      : List (BitVec 14)
  next     : Option (List (BitVec 14))
  excluded : List Nat
  leaving  : List Nat
  base     : List Nat
  selfLost : Bool
deriving DecidableEq, Repr

/-- A satchel being written, or kept, in a slot of the restante store (spec/18 R352). The layout of a slot is the firmware's own:
here byte x of part p (0 FWD, 2 MST, 3 MOM) of group g of owner position o lies at ((o·4 + p)·4,096 + g)·2^48 + x. -/
structure Satchel where
  step     : BitVec 32
  expected : Nat
  got      : Nat
  complete : Bool
  valid    : Bool
  bytes    : Mem
deriving DecidableEq, Repr

/-- A sequence in WAITING_PAGES (spec/08 R148): its slot, its ticket and the walk that waits. -/
structure SeqWait where
  seq    : BitVec 15
  ticket : Word
  walk   : Walk
deriving DecidableEq, Repr

/-- A context command that waits for an earlier one (spec/20 R379); the first of the list is at work. -/
inductive CtxCmd where
  | preempt | resume | reset | retire
deriving DecidableEq, Repr

/-- A resident context (spec/20 R378 and the per-context registers of spec/19 Table 19.8). -/
structure Ctx where
  ident      : BitVec 16
  preempted  : Bool
  step       : Word
  stepOpen   : Bool
  aborted    : Option (BitVec 16)
  rerun      : Bool
  commit     : Option (Packet × CommitStage)
  voteSent   : Bool
  votes      : List VoteMsg
  objs       : Table Obj
  incoming   : Table (BitVec 64 × Obj)
  releasing  : List (Nat × Obj)
  bindPkts   : List Packet
  plans      : Table Plan
  run        : Option Running
  colls      : List (BitVec 256)
  replicas   : Table (List (BitVec 16 × BitVec 16 × BitVec 16))
  lists      : Table Members
  records    : List (BitVec 1024)
  rates      : List (BitVec 64)
  groupSteps : Table Nat
  attStatus  : BitVec 64
  attEvents  : BitVec 64
  stepEvents : BitVec 64
  updState   : BitVec 64
  updAlarm   : BitVec 64
  updAlarmEvents : BitVec 64
  tcdStatus  : BitVec 64
  tcdEvents  : BitVec 64
  codec      : Table (BitVec 256)
  pool       : List (BitVec 32)
  kvDescs    : List (BitVec 256 × BitVec 20 × Word)
  pass       : List (BitVec 32)
  seqWaits   : List SeqWait
  seqHigh    : Table Nat
  retTickets : List Word
  edits      : List Packet
  violations : List Word
  quarantined : Bool
  secureDue  : Bool
  securePkts : List Packet
  securing   : List Packet
  satchels   : List Satchel
  lateBit    : Bool
  stepLost   : Bool
  stepRaw    : Bool
  updEvents  : Table Nat
  updSums    : Table (List (Nat × BitVec 32 × BitVec 32))
  stepDraw   : Nat
  ctxQ       : List (CtxCmd × Packet)
deriving DecidableEq, Repr

/-- A resident slot: its context, its key (the number of the draw that made it, MODEL: no command reads a key) and generation,
and whether the key is one kept across a WARM reset (spec/20 R381). -/
structure CtxSlot where
  ctx     : Option Ctx
  key     : Option Nat
  kept    : Bool
  gen     : BitVec 8
deriving DecidableEq, Repr

/-! ### Rings (spec/19) -/

/-- Ring states (spec/19 Table 19.15). -/
inductive RingState where
  | disabled | running | held | quarantined
deriving DecidableEq, Repr

/-- A post ring and receipt ring pair (spec/19 Table 19.9). `waiting` holds the receipts that wait for room (R370) or for the
link (R359); `taken` counts the packets taken and not yet answered (R367, fence), `pktHeld` says that a rule holds the head packet. -/
structure Ring where
  postBase : BitVec 64
  rcptBase : BitVec 64
  ctrl     : BitVec 64
  head     : BitVec 32
  nextSeq  : BitVec 32
  consumed : BitVec 32
  tail     : BitVec 32
  comp     : Word
  state    : RingState
  waiting  : List (BitVec 256 × Bool)
  taken    : Nat
  pktHeld  : Bool
deriving DecidableEq, Repr

/-- An MSI-X table entry (spec/19 R374): address, data and mask bit. -/
structure MsixEntry where
  addr : BitVec 64
  data : BitVec 32
  ctrl : BitVec 32
deriving DecidableEq, Repr

/-- A packet that holds a firmware command slot (spec/03 Table 3.6), with its opcode. -/
structure Taken where
  opcode : BitVec 8
  pkt    : Packet
deriving DecidableEq, Repr

/-! ### The fabric (spec/16) -/

/-- Port states and causes (spec/16 Table 16.12). -/
inductive PortState where
  | down | training | up
deriving DecidableEq, Repr

inductive PortCause where
  | none | laneLock | fecRate | retryBound | silence | unitFault | trainFail
deriving DecidableEq, Repr

/-- A fabric port with its link layer (spec/16 R294, R295) and its units. A flit that waits to be sent keeps the number of the route
table that routes it (R300). -/
structure Port where
  state    : PortState
  cause    : PortCause
  lanes    : BitVec 4
  fecCorr  : BitVec 16
  crcFail  : BitVec 16
  replays  : BitVec 16
  txSeq    : BitVec 12
  rxSeq    : BitVec 12
  rxGood   : Bool
  discarding : Bool
  retry    : List Flit
  txQ      : Vector (List (BitVec 4 × Flit)) 4
  credits  : Vector Nat 4
  owed     : Vector Nat 4
  rxBuf    : Vector (List Flit) 4
  altTurn  : Bool
  selfBuf  : List Flit
  uncorrAt : List Word
  unitsOut : Bool
  gated    : Bool
  updQ     : List (BitVec 6 × BitVec 12 × BitVec 32 × Tile)
deriving DecidableEq, Repr

/-- What a tracked transaction is for (spec/16 R296). -/
inductive TxnUse where
  | tile (core : BitVec 8) (stream : BitVec 4) (tile : Nat) (off : Nat)
  | gather (core : BitVec 8) (opId : Nat) (row : Nat)
  | signal (core : BitVec 8) (opId : Option Nat)
  | readCount (core : BitVec 8) (thread : BitVec 5) (opId : Nat) (sd : BitVec 5)
deriving DecidableEq, Repr

/-- A tracking entry (spec/16 R296, R305). -/
structure Txn where
  dst     : BitVec 14
  txn     : BitVec 16
  port    : BitVec 4
  epoch   : BitVec 8
  reissues : Nat
  slot    : BitVec 6
  flits   : List Flit
  reply   : List Flit
  use     : TxnUse
deriving DecidableEq, Repr

/-- A transaction that waits to be sent (spec/03 R52, spec/16 R304, R306): its cluster's route table, its header fields and
data, and the earlier writes of the same core to the module, which a SIGNAL waits for. -/
structure TxnReq where
  table : BitVec 4
  dst   : BitVec 14
  op    : BitVec 8
  slot  : BitVec 6
  addr  : BitVec 64
  arg   : BitVec 64
  data  : List Byte
  use   : TxnUse
  after : List (BitVec 14 × BitVec 16)
deriving DecidableEq, Repr

/-- The duplicate filter's record of one transaction value (spec/16 R307): an atomic's old value, and of a WRITE the flits that have
come at this epoch and the index of the last one. -/
structure DupEntry where
  src   : BitVec 14
  txn   : BitVec 16
  epoch : BitVec 8
  old   : Option Word
  got   : List (BitVec 8)
  last  : Option (BitVec 8)
deriving DecidableEq, Repr

/-- A contribution or partial that a reduce unit holds for one slice (spec/16 R310): the child's relative index. -/
structure RedPart where
  child : Nat
  tile  : Tile
  count : Nat
deriving DecidableEq, Repr

/-- The reduction of one slice of a step at this node (spec/16 R310 to R313); `standIn` where this node stands in for a lost
owner (spec/18 R346), `building` the flits of partials that have not all arrived, by source module. -/
structure Reduction where
  slot   : BitVec 6
  coll   : BitVec 16
  group  : BitVec 12
  slice  : BitVec 32
  step   : BitVec 32
  standIn : Bool
  own    : Option Tile
  parts  : List RedPart
  building : List (BitVec 14 × List Flit)
  markers : List Nat
  started : Bool
  done   : Bool
deriving DecidableEq, Repr

/-- A stale partial kept for the next step (spec/16 R313). -/
structure Stale where
  slot  : BitVec 6
  coll  : BitVec 16
  group : BitVec 12
  slice : BitVec 32
  tile  : Tile
deriving DecidableEq, Repr

/-! ### Video (spec/15) -/

/-- A video job: its packet, which names every object, the frames written so far, and for an encode job the bytes coded so far and the
debt (spec/15 R289). `full` marks an encode job that would pass out_cap. -/
structure VideoJob where
  pkt    : Packet
  slot   : BitVec 6
  encode : Bool
  anyPipe : Bool
  frame  : Nat
  coded  : List Byte
  debt   : Nat
  bad    : Nat
  worst  : BitVec 16
  full   : Bool
deriving DecidableEq, Repr

/-- Why a video job stops at its next picture boundary (spec/15 R287). -/
inductive StopKind where
  | preempt | cancel | pause
deriving DecidableEq, Repr

/-- A video pipeline (spec/15 R275). `stopAt` marks that the running job stops at the next picture boundary (R287). -/
structure VideoPipe where
  queue   : List VideoJob
  running : Option VideoJob
  stopAt  : Option StopKind
  retired : Bool
  gated   : Bool
deriving DecidableEq, Repr

/-! ### Logs -/

/-- A health-log entry (spec/18 Table 18.2). -/
structure HealthEntry where
  postmark : Word
  seq      : BitVec 32
  cls      : BitVec 4
  source   : BitVec 12
  code     : BitVec 16
  ctx      : BitVec 16
  loc      : BitVec 48
  count    : Word
deriving DecidableEq, Repr

/-- A dead-letter entry (spec/19 Table 19.23). -/
structure DeadLetter where
  postmark : Word
  info     : Word
  pktSeq   : BitVec 32
  logSeq   : BitVec 32
  ctx      : BitVec 16
  status   : BitVec 16
  kind     : BitVec 8
  ring     : BitVec 8
  opcode   : BitVec 8
deriving DecidableEq, Repr

/-- One event that the risk monitor has counted (spec/18 R353): the row of Table 18.7, its weight in 1/65,536 points, and
its postmark. -/
structure RiskEvent where
  row    : Nat
  weight : Nat
  at_    : Word
deriving DecidableEq, Repr

/-! ### Start-up, power, clocks, firmware (spec/20 to spec/23) -/

/-- Start-up phases (spec/19 Table 19.4). -/
inductive Phase where
  | power | clocks | fwAuth | sramInit | memTrain | memInit | linkCal | selfTest | ready | failed
deriving DecidableEq, Repr

/-- Power states (spec/21 Table 21.5). -/
inductive PowerState where
  | off | start | idle | active | resetHold
deriving DecidableEq, Repr

/-- The always-on island, the pins and the start-up machine (spec/22, spec/23). -/
structure Life where
  power      : PowerState
  phase      : Phase
  failCode   : BitVec 8
  auxGood    : Bool
  pwrEn      : Bool
  modResetLow : Bool
  perstLow   : Bool
  forceRecoveryLow : Bool
  slotId     : BitVec 6
  keepMem    : Bool
  memKept    : Bool
  keeping    : Bool
  memInitDone : Bool
  xoSwing    : Bool
  xoStable   : Bool
  pllLocked  : Bool
  thermLow   : Bool
  stopped    : Bool
  linkUp     : Bool
  hdmOn      : Bool
deriving DecidableEq, Repr

/-- Module management (spec/23 R426 to R430): the I3C target, the alert register and JTAG. -/
structure Mgmt where
  i3cAddr    : Option (BitVec 7)
  i3cOffset  : BitVec 8
  ibiOn      : Bool
  alertW1c   : BitVec 8
  alertEvents : Vector Byte 8
  jtag       : JtagCode
  sensors    : PowerSample
  temps      : ThermalSample
deriving DecidableEq, Repr

/-- A re-plan of clock or memory that waits for its quiescent point (spec/21 R407): the CLK_REQUEST that asked for it, and whether the
firmware forces it. -/
structure Replan where
  pkt    : Option Packet
  forced : Bool
deriving DecidableEq, Repr

/-- Power control and ageing (spec/21 R401 to R412): the idle counts, the input power of the last ten control periods, the re-plan
state, the sub-channels whose margin has been low for some measurements in a row, and the life counters: the sum and number of
junction readings, their sum in this hour, the rated life used in 2^-32 h, and the voltage steps of the last 1,000 h. -/
structure Ageing where
  kPower    : Nat
  kThermal  : Nat
  limitUnmet : Bool
  throttled : Bool
  watts     : List Nat
  vddMv     : Nat
  slackMin  : Int
  slackMon  : Nat
  clkSlow   : Bool
  memSlow   : Bool
  clkAdvised : Bool
  memAdvised : Bool
  marginBad : Table Nat
  clkPend   : Option Replan
  memPend   : Option Replan
  tjSum     : Int
  samples   : Nat
  hourSum   : Int
  ratedUsed : Nat
  vSteps    : List (Nat × Int)
  stoppedSrc : List ClkSource
  offFreqSrc : List ClkSource
deriving DecidableEq, Repr

/-- The boot flash and fuses (spec/20 R387 to R389): the running and the selected bank (true for B), the security version of the image
that is staged in the bank that does not run, and the images that FW_STAGE wrote; a bank without one holds the image of manufacture. -/
structure Firmware where
  running   : Bool
  selected  : Bool
  staged    : Option (BitVec 8)
  svnA      : BitVec 8
  svnB      : BitVec 8
  imageA   : Option (List Byte)
  imageB   : Option (List Byte)
  floor     : BitVec 8
  major     : Byte
  minor     : Byte
deriving DecidableEq, Repr

/-- What leaves the module: interrupts, fabric notices and management requests, In-Band Interrupts and the
provisional identifier that ENTDAA offers, back-invalidate snoops, and what a BAR2 access completes with. -/
inductive Output where
  | msix (vector : BitVec 6) (addr : BitVec 64) (data : BitVec 32)
  | ibi (cause : Byte)
  | dynamicAddress (provisional : BitVec 48) (address : BitVec 7)
  | flit (port : BitVec 4) (f : Flit)
  | replayReq (port : BitVec 4)
  | vote (port : BitVec 4) (dst : BitVec 14) (v : VoteMsg)
  | memberLost (dst : BitVec 14) (ctx : BitVec 16) (lost : BitVec 14)
  | leave (dst : BitVec 14) (ctx : BitVec 16)
  | fenceNotice (dst : BitVec 14) (ctx : BitVec 16) (home : BitVec 64)
  | fenceAck (dst : BitVec 14) (ctx : BitVec 16) (home : BitVec 64)
  | commitNotice (dst : BitVec 14) (ctx : BitVec 16) (oldHome newHome : BitVec 64)
  | bindQuery (dst : BitVec 14) (ctx : BitVec 16) (objId : BitVec 32)
  | bindAnswer (dst : BitVec 14) (ctx : BitVec 16) (objId : BitVec 32) (r : MgtReply)
  | placeQuery (dst : BitVec 14) (ctx : BitVec 16) (r : PlaceReq)
  | placeAnswer (dst : BitVec 14) (ctx : BitVec 16) (r : MgtReply)
  | collect (dst : BitVec 14) (pkt : Packet)
  | remoteWrite (home : BitVec 64) (bytes : List Byte)
  | backInvalidate (line : Nat)
  | bar2Done (offset : BitVec 48) (data : List Byte) (poisoned : Bool)
deriving DecidableEq, Repr

/-! ### The module -/

/-- The state of the module. -/
structure State where
  /-- The commands that wait, first in, first out (MODEL). -/
  pending  : List Instr
  /-- The free values drawn so far (MODEL): `Config` functions are applied to it. -/
  fresh    : Nat
  /-- What has left the module, oldest first (MODEL). -/
  outbox   : List Output
  life     : Life
  mgmt     : Mgmt
  age      : Ageing
  fw       : Firmware
  /-- The postmark counter (spec/21 R399), and whether phase CLOCKS has ended. -/
  postmark : Word
  timeOn   : Bool
  /-- HST_ID.cap: the part is a CT7-M1536 (spec/19 Table 19.3). -/
  big      : Bool
  hstErr   : BitVec 4
  hstErrEvents : BitVec 64
  rings    : Vector Ring 65
  turn     : Nat
  slots    : List Taken
  msix     : Vector MsixEntry 64
  msixPend : BitVec 64
  dead     : List DeadLetter
  deadCount : BitVec 32
  health   : List HealthEntry
  healthSeq : BitVec 32
  active   : Bool
  swaps    : BitVec 32
  setA     : ConfigSet
  setB     : ConfigSet
  swap     : Option Swap
  /-- The active set as the last CFG_SWAP measured it (spec/20 Table 20.7, m_cfg). -/
  measured : ConfigSet
  ctxs     : Vector CtxSlot 64
  keyDraws : Nat
  hostMem  : Mem
  hostPoison : List Nat
  hostReject : List Nat
  hostLines : Table LineTag
  shared   : Mem
  sharedBad : List Nat
  bankHits : List Nat
  lpddr    : Mem
  lines    : Table LineTag
  retiredPages : List (Nat × Nat)
  retiredBanks : List (BitVec 6)
  cache    : List CacheLine
  cores    : Vector Core 256
  clusters : Vector Cluster 16
  counters : Table Counter
  syncQ    : Vector (List SyncReq) 16
  waiters  : List Waiter
  counts   : List CountMsg
  leases   : Vector (List Lease) 16
  modId    : Option (BitVec 14)
  ports    : Vector Port 16
  txns     : List Txn
  nextTxn  : Table (BitVec 16)
  sendWait : List TxnReq
  dups     : List DupEntry
  fabDrops : Nat
  lostMods : List (BitVec 14)
  reds     : List Reduction
  stales   : List Stale
  pipes    : Vector VideoPipe 6
  videoAny : List VideoJob
  videoStopped : List (Nat × VideoJob)
  riskEvents : List RiskEvent
  riskScore : BitVec 64
  draining : Bool
deriving DecidableEq, Repr

/-- Why the model stops: the one stop is the model's own. -/
inductive Fault where
  /-- Raised where a command's operand names a ring above 64 or a video pipeline above VE1: no such unit exists (safe). -/
  | noSuchUnit
deriving DecidableEq, Repr

/-- Why the model has no meaning for a command. -/
inductive Refusal where
  /-- A command that has no meaning yet, by its mnemonic (safe). -/
  | notModelled (mnemonic : String)
deriving DecidableEq, Repr

/-! ### Reset -/

/-- A thread at reset: IDLE, registers zero (spec/03 R48; p0 reads as 1, R58). -/
def Thread.init : Thread :=
  { s := .replicate 32 0, a := .replicate 16 0, p := 0, pc := 0, loops := [], rtag := 0, state := .idle, hold := .none }

/-- A FREE stream. -/
def Stream.init : Stream :=
  { state := .free, frozen := false, desc := 0, keep := 0, pending := none, d0 := 0, f0 := 0, lastF := 0, next := 0,
    first := 0, signalled := 0, tiles := [], lenAtArm := 0, fromAtArm := 0, rowBase := 0, held := 0, quiet := false }

/-- A core at reset: local store zero (spec/03 R46), threads IDLE, queues empty. -/
def Core.init : Core :=
  { ls := [], accInt := 0, prog := [], threads := .replicate 32 .init, matQ := [], vecQ := [], strQ := [], drnQ := [], synQ := [],
    tcdQ := [], running := [], nextOp := 0, streams := .replicate 16 .init, tags := 0, hardAt := [], fenced := false,
    gated := false, slot := none, lastSlot := none, unwatched := [], idleUntil := 0, rot := .replicate 6 31, cycle := [],
    clockOff := false }

/-- An empty codec direction. -/
def CodecLane.init : CodecLane := { queue := [], running := none, stalled := false }

/-- A cluster's shared units at reset. -/
def Cluster.init : Cluster :=
  { kidQ := [], kidRun := none, kidWaddr := none, kidWeights := [], enc := .init, dec := .init, codecSeq := 0, lookAside := [],
    walks := [], genSeen := none, syncFenced := false, gated := false, kidGated := false, codecGated := false }

/-- A configuration set with every item at its reset value (spec/11 Table 11.4, spec/10 Table 10.5, spec/18 Tables 18.5
and 18.6, spec/21 Table 21.6, spec/16 R302). -/
def ConfigSet.init : ConfigSet :=
  { part := .replicate 16 0x40, window := .replicate 64 0, sync := .replicate 64 [], groups := .replicate 64 0,
    loss := .replicate 64 0x07D0100018000000, secured := .replicate 64 0x0000000000320000, risk := 0x60A0E0,
    power := 0x2EE, routes := .replicate 16 [], timeout := 30 }

/-- A ring pair at reset: disabled, vector n mod 64 (spec/19 Table 19.11). -/
def Ring.init (n : Nat) : Ring :=
  { postBase := 0, rcptBase := 0, ctrl := BitVec.ofNat 64 ((n % 64) * 65536), head := 0, nextSeq := 0, consumed := 0,
    tail := 0, comp := 0, state := .disabled, waiting := [], taken := 0, pktHeld := false }

/-- A fabric port at reset: DOWN, no cause (spec/16 Table 16.12), credits at the partner's buffer sizes (R295). -/
def Port.init : Port :=
  { state := .down, cause := .none, lanes := 0, fecCorr := 0, crcFail := 0, replays := 0, txSeq := 0, rxSeq := 0,
    rxGood := false, discarding := false, retry := [], txQ := .replicate 4 [],
    credits := #v[64, 64, 96, 32], owed := .replicate 4 0, rxBuf := .replicate 4 [], altTurn := false, selfBuf := [], uncorrAt := [],
    unitsOut := false, gated := false, updQ := [] }

/-- A video pipeline at reset. -/
def VideoPipe.init : VideoPipe :=
  { queue := [], running := none, stopAt := none, retired := false, gated := false }

/-- The start-up machine right after the rise of MOD_PWR_EN of a COLD reset (spec/22 R413): phase POWER. -/
def Life.init : Life :=
  { power := .start, phase := .power, failCode := 0, auxGood := true, pwrEn := true, modResetLow := false,
    perstLow := false, forceRecoveryLow := false, slotId := 0, keepMem := false, memKept := false, keeping := false,
    memInitDone := false, xoSwing := false, xoStable := false, pllLocked := false, thermLow := false,
    stopped := false, linkUp := false, hdmOn := false }

/-- Management registers at reset; a sensor with no reading reads 0x8000 (spec/23 R427). -/
def Mgmt.init : Mgmt :=
  { i3cAddr := none, i3cOffset := 0, ibiOn := false, alertW1c := 0, alertEvents := .replicate 8 0, jtag := .idcode,
    sensors := { watts := 0x8000, watts10ms := 0, vin := 0x8000, iin := 0x8000, vaux := 0x8000, inlet := 0x8000,
                 outlet := 0x8000 },
    temps := { base := -32768, clusters := List.replicate 16 (-32768), coolFor1s := true } }

/-- A new part (spec/21 R406, Table 21.9). -/
def Ageing.init : Ageing :=
  { kPower := 0, kThermal := 0, limitUnmet := false, throttled := false, watts := [], vddMv := 550, slackMin := 0, slackMon := 0,
    clkSlow := false, memSlow := false, clkAdvised := false, memAdvised := false, marginBad := [], clkPend := none,
    memPend := none, tjSum := 0, samples := 0, hourSum := 0, ratedUsed := 0, vSteps := [], stoppedSrc := [], offFreqSrc := [] }

/-- The boot flash of a new part: bank A selected, nothing staged, floor 0, no image loaded yet. -/
def Firmware.init : Firmware :=
  { running := false, selected := false, staged := none, svnA := 0, svnB := 0, imageA := none, imageB := none, floor := 0,
    major := 0, minor := 0 }

/-- The module right after a COLD reset of a new CT7-M768: MOD_PWR_EN has risen and phase POWER runs (spec/22 R413, R419). -/
def State.reset : State :=
  { pending := [], fresh := 0, outbox := [], life := .init, mgmt := .init, age := .init, fw := .init, postmark := 0,
    timeOn := false, big := false, hstErr := 0, hstErrEvents := 0, rings := .ofFn fun n => Ring.init n.val, turn := 0,
    slots := [], msix := .replicate 64 { addr := 0, data := 0, ctrl := 1 }, msixPend := 0, dead := [], deadCount := 0,
    health := [], healthSeq := 0, active := false, swaps := 0, setA := .init, setB := .init, swap := none, measured := .init,
    ctxs := .replicate 64 { ctx := none, key := none, kept := false, gen := 0 }, keyDraws := 0, hostMem := [], hostPoison := [],
    hostReject := [], hostLines := [], shared := [], sharedBad := [], bankHits := [], lpddr := [], lines := [], retiredPages := [],
    retiredBanks := [], cache := [], cores := .replicate 256 .init, clusters := .replicate 16 .init, counters := [],
    syncQ := .replicate 16 [], waiters := [], counts := [], leases := .replicate 16 [], modId := none,
    ports := .replicate 16 .init, txns := [], nextTxn := [], sendWait := [], dups := [], fabDrops := 0, lostMods := [], reds := [],
    stales := [], pipes := .replicate 6 .init, videoAny := [], videoStopped := [], riskEvents := [], riskScore := 0,
    draining := false }

end Sys2Proof.Machine
end

