-- ==== Sys2Proof/Machine/Bits.lean ====
section
/-! DEFINITION. Bit fields, byte order, memories, tables and vectors: the helpers that every meaning uses. -/

namespace Sys2Proof.Machine

/-! ### Bit fields (spec/00: bit numbers count from 0 at the least significant end) -/

/-- Bits [lo + len − 1 : lo] of `x`, as a natural number. -/
def bits {w : Nat} (x : BitVec w) (lo len : Nat) : Nat := (x.extractLsb' lo len).toNat

/-- Bit `i` of `x`. -/
def bit {w : Nat} (x : BitVec w) (i : Nat) : Bool := x.getLsbD i

/-- 1 for true, 0 for false. -/
def b2n (b : Bool) : Nat := if b then 1 else 0

/-- The number whose fields, from bit 0 upwards, are the given (width, value) pairs. -/
def pack : List (Nat × Nat) → Nat
  | [] => 0
  | (w, v) :: rest => v % 2 ^ w + 2 ^ w * pack rest

/-- `x` with bits [lo + len − 1 : lo] replaced by `v`. -/
def putBits {w : Nat} (x : BitVec w) (lo len v : Nat) : BitVec w :=
  (x &&& ~~~(BitVec.ofNat w ((2 ^ len - 1) * 2 ^ lo))) ||| BitVec.ofNat w (v % 2 ^ len * 2 ^ lo)

/-- The low `n` bits of `v` as a two's-complement number. -/
def signed (n v : Nat) : Int := if v % 2 ^ n < 2 ^ (n - 1) then (v % 2 ^ n : Nat) else (v % 2 ^ n : Nat) - (2 ^ n : Nat)

/-- The `n`-bit two's-complement encoding of `i`. -/
def toSigned (n : Nat) (i : Int) : Nat := (i % (2 ^ n : Nat)).toNat

/-! ### Byte order: little-endian (spec/19 R360) -/

/-- The `k` low bytes of `v`, least significant first. -/
def leBytes : Nat → Nat → List Byte
  | 0, _ => []
  | k + 1, v => BitVec.ofNat 8 v :: leBytes k (v / 256)

/-- The number whose bytes, least significant first, are the list. -/
def ofLe : List Byte → Nat
  | [] => 0
  | b :: bs => b.toNat + 256 * ofLe bs

/-! ### Memories -/

/-- The byte at address `a`; 0 where nothing is listed. -/
def Mem.byte (m : Mem) (a : Nat) : Byte := (m.lookup a).getD 0

/-- The `n` bytes from address `a`. -/
def Mem.read (m : Mem) (a n : Nat) : List Byte := (List.range n).map fun i => Mem.byte m (a + i)

/-- The little-endian number in the `n` bytes at `a`. -/
def Mem.num (m : Mem) (a n : Nat) : Nat := ofLe (Mem.read m a n)

/-- The non-zero cells of `bs` laid from address `a`. -/
def cellsFrom : Nat → List Byte → Mem
  | _, [] => []
  | a, b :: bs => if b = 0 then cellsFrom (a + 1) bs else (a, b) :: cellsFrom (a + 1) bs

/-- `m` with the bytes `bs` written from address `a`. -/
def Mem.write (m : Mem) (a : Nat) (bs : List Byte) : Mem :=
  m.filter (fun c => c.1 < a) ++ cellsFrom a bs ++ m.filter (fun c => a + bs.length ≤ c.1)

/-- `m` with the `n` bytes from address `a` zero. -/
def Mem.zero (m : Mem) (a n : Nat) : Mem := m.filter fun c => c.1 < a || a + n ≤ c.1

/-- `m` with the low `k` bytes of `v` at `a`. -/
def Mem.put (m : Mem) (a k v : Nat) : Mem := Mem.write m a (leBytes k v)

/-- The canonical form: addresses strictly rising, no byte 0. -/
def Mem.wf : Mem → Bool
  | [] => true
  | [c] => c.2 != 0
  | c :: d :: rest => c.2 != 0 && (c.1 < d.1 && Mem.wf (d :: rest))

/-! ### Tables by number -/

/-- The entry of key `k`. -/
def tget {α : Type} (t : Table α) (k : Nat) : Option α := t.lookup k

/-- `t` with entry `k` set, keys rising. -/
def tput {α : Type} (t : Table α) (k : Nat) (v : α) : Table α :=
  t.filter (fun e => e.1 < k) ++ (k, v) :: t.filter (fun e => k < e.1)

/-- `t` without entry `k`. -/
def tdel {α : Type} (t : Table α) (k : Nat) : Table α := t.filter fun e => e.1 != k

/-- `t` with every entry that `f` maps to none removed. -/
def tmap {α : Type} (t : Table α) (f : Nat → α → α) : Table α := t.map fun e => (e.1, f e.1 e.2)

/-! ### Vectors by number -/

/-- Entry `i`, or `d` past the end. -/
def vget {α : Type} {n : Nat} (v : Vector α n) (i : Nat) (d : α) : α := v[i]?.getD d

/-- `v` with entry `i` set; unchanged past the end. -/
def vset {α : Type} {n : Nat} (v : Vector α n) (i : Nat) (x : α) : Vector α n := v.setIfInBounds i x

/-- The numbers below `n` that satisfy `p`. -/
def numsBelow (n : Nat) (p : Nat → Bool) : List Nat := (List.range n).filter p

/-- The least number below `n` that satisfies `p`. -/
def firstBelow (n : Nat) (p : Nat → Bool) : Option Nat := (List.range n).find? p

/-- A mask with bit `i` set where `p i`. -/
def maskOf (n : Nat) (p : Nat → Bool) : Nat := (List.range n).foldl (fun acc i => if p i then acc + 2 ^ i else acc) 0

end Sys2Proof.Machine
end

