-- ==== Sys2Proof/Machine/Fp.lean ====
section
/-! DEFINITION. Number formats, block scales, conversion, rounding and the rounding generator (spec/02), and how elements lie
in memory (spec/02 R24). -/

namespace Sys2Proof.Machine

/-! ### Exact values -/

/-- A value: a NaN, an infinity, or (−1)^neg · m · 2^e. Zero keeps its sign. -/
inductive FVal where
  | nan
  | inf (neg : Bool)
  | fin (neg : Bool) (m : Nat) (e : Int)
deriving DecidableEq, Repr

/-- +0, and an integer as an exact value. -/
def FVal.zero : FVal := .fin false 0 0
def FVal.ofInt (i : Int) : FVal := .fin (decide (i < 0)) i.natAbs 0

/-- 2^k for k ≥ 0, and 1 below. -/
def pow2 (k : Int) : Nat := 2 ^ k.toNat

/-- The signed integer m · 2^(e − q) for q ≤ e. -/
def scaledInt (neg : Bool) (m : Nat) (e q : Int) : Int := (if neg then -1 else 1) * (m * pow2 (e - q) : Nat)

/-- −x. -/
def FVal.neg : FVal → FVal
  | .nan => .nan
  | .inf n => .inf !n
  | .fin n m e => .fin (!n) m e

/-- The exact sum (spec/02 R32, R33): an exact zero is +0, but (−0) + (−0) is −0. -/
def FVal.add : FVal → FVal → FVal
  | .nan, _ => .nan
  | _, .nan => .nan
  | .inf a, .inf b => if a = b then .inf a else .nan
  | .inf a, _ => .inf a
  | _, .inf b => .inf b
  | .fin a m e, .fin b n f =>
    if m = 0 ∧ n = 0 then .fin (a && b) 0 0
    else
      let q := min e f
      let t := scaledInt a m e q + scaledInt b n f q
      .fin (decide (t < 0)) t.natAbs q

/-- The exact product (spec/02 R32). -/
def FVal.mul : FVal → FVal → FVal
  | .nan, _ => .nan
  | _, .nan => .nan
  | .inf a, .inf b => .inf (a != b)
  | .inf a, .fin b n _ => if n = 0 then .nan else .inf (a != b)
  | .fin a m _, .inf b => if m = 0 then .nan else .inf (a != b)
  | .fin a m e, .fin b n f => .fin (a != b) (m * n) (e + f)

/-- x · 2^k. -/
def FVal.scale (v : FVal) (k : Int) : FVal := match v with
  | .fin n m e => .fin n m (e + k)
  | x => x

/-- x < y for numbers; false where either is a NaN. -/
def FVal.lt : FVal → FVal → Bool
  | .nan, _ => false
  | _, .nan => false
  | .inf a, .inf b => a && !b
  | .inf a, _ => a
  | _, .inf b => !b
  | .fin a m e, .fin b n f => decide (scaledInt a m e (min e f) < scaledInt b n f (min e f))

/-- Whether a value is a NaN, an infinity, zero, or has its sign set. -/
def FVal.isNan (v : FVal) : Bool := v == .nan
def FVal.isInf : FVal → Bool
  | .inf _ => true
  | _ => false
def FVal.isZero : FVal → Bool
  | .fin _ m _ => m == 0
  | _ => false
def FVal.sign : FVal → Bool
  | .nan => false
  | .inf n => n
  | .fin n _ _ => n

/-! ### Formats (spec/02 Tables 2.1, 2.2) -/

/-- What the top of a floating-point format's range encodes. -/
inductive TopKind where
  | ieee | e4m3 | finite
deriving DecidableEq, Repr

/-- A floating-point format: its exponent and fraction widths, and its top. -/
structure Fmt where
  eb : Nat
  fb : Nat
  top : TopKind
deriving DecidableEq, Repr

/-- The format of a code; FP32 for a code that is not a floating-point format. -/
def fmtOf (code : Nat) : Fmt :=
  if code = 1 then ⟨5, 10, .ieee⟩
  else if code = 2 then ⟨8, 7, .ieee⟩
  else if code = 3 then ⟨4, 3, .e4m3⟩
  else if code = 4 then ⟨5, 2, .ieee⟩
  else if code = 5 then ⟨3, 2, .finite⟩
  else if code = 6 then ⟨2, 3, .finite⟩
  else if code = 7 then ⟨2, 1, .finite⟩
  else if code = 10 then ⟨10, 37, .ieee⟩
  else ⟨8, 23, .ieee⟩

def fp32 : Fmt := ⟨8, 23, .ieee⟩
def wf48 : Fmt := ⟨10, 37, .ieee⟩

/-- The exponent bias, and the exponent of the least-significant bit of a subnormal. -/
def Fmt.bias (f : Fmt) : Int := 2 ^ (f.eb - 1) - 1
def Fmt.emin (f : Fmt) : Int := 1 - f.bias - f.fb

/-- INT8 and INT4. -/
def isIntFmt (code : Nat) : Bool := code == 8 || code == 9

/-- Width in bits of one element (spec/02 R24). -/
def fmtBits (code : Nat) : Nat :=
  if code = 0 then 32 else if code = 1 ∨ code = 2 then 16 else if code = 3 ∨ code = 4 ∨ code = 8 then 8
  else if code = 5 ∨ code = 6 then 6 else if code = 7 ∨ code = 9 then 4 else if code = 10 then 48 else 0

/-- The largest exponent field and fraction of a finite value. -/
def Fmt.maxField (f : Fmt) : Nat × Nat := match f.top with
  | .ieee => (2 ^ f.eb - 2, 2 ^ f.fb - 1)
  | .e4m3 => (2 ^ f.eb - 1, 2 ^ f.fb - 2)
  | .finite => (2 ^ f.eb - 1, 2 ^ f.fb - 1)

/-- The encoding of a sign, an exponent field and a fraction. -/
def Fmt.code (f : Fmt) (neg : Bool) (ef frac : Nat) : Nat := frac + 2 ^ f.fb * (ef + 2 ^ f.eb * b2n neg)

/-- The largest finite encoding, infinity, and the canonical NaN (spec/02 R32). A format with no NaN gives +0. -/
def Fmt.maxCode (f : Fmt) (neg : Bool) : Nat := f.code neg f.maxField.1 f.maxField.2
def Fmt.infCode (f : Fmt) (neg : Bool) : Nat := f.code neg (2 ^ f.eb - 1) 0
def Fmt.nanCode (f : Fmt) : Nat := match f.top with
  | .ieee => f.code false (2 ^ f.eb - 1) (2 ^ (f.fb - 1))
  | .e4m3 => 0x7F
  | .finite => 0

/-- The value of an encoding. -/
def Fmt.decode (f : Fmt) (x : Nat) : FVal :=
  let frac := x % 2 ^ f.fb
  let ef := x / 2 ^ f.fb % 2 ^ f.eb
  let neg := x / 2 ^ (f.fb + f.eb) % 2 == 1
  let top := ef == 2 ^ f.eb - 1
  if top && f.top == .ieee then (if frac = 0 then .inf neg else .nan)
  else if top && f.top == .e4m3 && frac == 2 ^ f.fb - 1 then .nan
  else if ef = 0 then .fin neg frac f.emin
  else .fin neg (2 ^ f.fb + frac) (f.emin + ef - 1)

/-- The value of an unscaled element of format `code` (spec/02 R27). -/
def decodeElem (code x : Nat) : FVal :=
  if code = 8 then .ofInt (signed 8 x) else if code = 9 then .ofInt (signed 4 x) else (fmtOf code).decode x

/-- The value of an element in a block with scale byte `sc` (spec/02 R26, R27). -/
def decodeScaled (code sc x : Nat) : FVal :=
  if sc = 0xFF then .nan
  else if code = 8 then (FVal.ofInt (signed 8 x)).scale ((sc : Int) - 133)
  else if code = 9 then (FVal.ofInt (signed 4 x)).scale ((sc : Int) - 129)
  else ((fmtOf code).decode x).scale ((sc : Int) - 127)

/-! ### Rounding (spec/02 R36, R37) -/

/-- floor(log2 m) for m > 0. -/
def ilog2 (m : Nat) : Nat := Nat.log2 m

/-- The multiple of 2^q nearest to m · 2^e, ties to even, as a count of 2^q. -/
def rneTo (m : Nat) (e q : Int) : Nat :=
  if q ≤ e then m * pow2 (e - q)
  else
    let d := pow2 (q - e)
    let k := m / d
    let r := m % d
    if 2 * r > d ∨ (2 * r = d ∧ k % 2 = 1) then k + 1 else k

/-- The same with a 24-bit draw `r` (spec/02 R37). -/
def srTo (r m : Nat) (e q : Int) : Nat :=
  if q ≤ e then m * pow2 (e - q)
  else
    let d := pow2 (q - e)
    let f := (m % d) * 2 ^ 24 / d
    if 2 ^ 24 ≤ f + r then m / d + 1 else m / d

/-- The exponent of the least-significant bit that a magnitude m · 2^e > 0 keeps in format `f`. -/
def Fmt.quantum (f : Fmt) (m : Nat) (e : Int) : Int := max (e + ilog2 m - f.fb) f.emin

/-- The rounding of a finite value, as (count, exponent of the unit), with the range unbounded above. -/
def Fmt.roundWith (f : Fmt) (how : Nat → Int → Int → Nat) (m : Nat) (e : Int) : Nat × Int :=
  if m = 0 then (0, f.emin)
  else
    let q := f.quantum m e
    let k := how m e q
    if k = 2 ^ (f.fb + 1) then (2 ^ f.fb, q + 1) else (k, q)

/-- A rounded magnitude exceeds the largest finite value. -/
def Fmt.over (f : Fmt) (k : Nat) (q : Int) : Bool :=
  let mx := f.maxField
  let ef := q - f.emin + 1
  decide (2 ^ f.fb ≤ k ∧ (mx.1 < ef ∨ (ef = mx.1 ∧ mx.2 + 2 ^ f.fb < k)))

/-- The encoding of a rounded finite magnitude within range. -/
def Fmt.encodeFin (f : Fmt) (neg : Bool) (k : Nat) (q : Int) : Nat :=
  if k < 2 ^ f.fb then f.code neg 0 k else f.code neg (q - f.emin + 1).toNat (k - 2 ^ f.fb)

/-- What an overflowing sum or product becomes: infinity, or the largest finite value (spec/02 R33, spec/06 R108). -/
inductive Overflow where
  | inf | max
deriving DecidableEq, Repr

/-- A value rounded into an IEEE-like format, as its encoding: arithmetic, no events. -/
def Fmt.arith (f : Fmt) (how : Nat → Int → Int → Nat) (o : Overflow) : FVal → Nat
  | .nan => f.nanCode
  | .inf n => f.infCode n
  | .fin n m e =>
    let r := f.roundWith how m e
    if f.over r.1 r.2 then (match o with
      | .inf => f.infCode n
      | .max => f.maxCode n)
    else f.encodeFin n r.1 r.2

/-- FP32 by round-to-nearest-even, overflow to infinity; and as a value again. -/
def f32 (v : FVal) : Nat := fp32.arith rneTo .inf v
def dec32 (x : Nat) : FVal := fp32.decode x
def r32 (v : FVal) : FVal := dec32 (f32 v)

/-- FP32 by round-to-nearest-even with the overflow mode of R108. -/
def r32m (ovm : Bool) (v : FVal) : FVal := dec32 (fp32.arith rneTo (if ovm then .inf else .max) v)

/-! ### Conversion (spec/02 R30, R31, R34, R35) -/

/-- Conversion events (spec/02 R35). -/
structure Events where
  ovf : Bool
  inf : Bool
  nan : Bool
deriving DecidableEq, Repr

def Events.none : Events := ⟨false, false, false⟩
def Events.or (a b : Events) : Events := ⟨a.ovf || b.ovf, a.inf || b.inf, a.nan || b.nan⟩
def Events.any (a : Events) : Bool := a.ovf || a.inf || a.nan

/-- The nearest integer, ties to even, with its sign. -/
def toInt (n : Bool) (m : Nat) (e : Int) : Int := (if n then -1 else 1) * (rneTo m e 0 : Nat)

/-- An unscaled conversion to a `w`-bit integer. -/
def convInt (w : Nat) : FVal → Nat × Events
  | .nan => (0, ⟨false, false, true⟩)
  | .inf n => (if n then 2 ^ (w - 1) else 2 ^ (w - 1) - 1, ⟨false, true, false⟩)
  | .fin n m e =>
    let i := toInt n m e
    if 2 ^ (w - 1) - 1 < i then (2 ^ (w - 1) - 1, ⟨true, false, false⟩)
    else if i < -2 ^ (w - 1) then (2 ^ (w - 1), ⟨true, false, false⟩)
    else (toSigned w i, .none)

/-- What an overflow or an infinity becomes in a floating-point destination (spec/02 Table 2.6). -/
def Fmt.beyond (f : Fmt) (ovm n : Bool) : Nat := match f.top with
  | .ieee => if ovm then f.infCode n else f.maxCode n
  | .e4m3 => if ovm then 0x7F else f.maxCode n
  | .finite => f.maxCode n

/-- An unscaled conversion to a floating-point format. -/
def Fmt.conv (f : Fmt) (ovm : Bool) : FVal → Nat × Events
  | .nan => (f.nanCode, ⟨false, false, true⟩)
  | .inf n => (if f.top = .ieee then f.infCode n else f.beyond ovm n, ⟨false, true, false⟩)
  | .fin n m e =>
    let r := f.roundWith rneTo m e
    if f.over r.1 r.2 then (f.beyond ovm n, ⟨true, false, false⟩) else (f.encodeFin n r.1 r.2, .none)

/-- An unscaled conversion of a value to format `code` with an overflow mode. -/
def convElem (code : Nat) (ovm : Bool) (v : FVal) : Nat × Events :=
  if code = 8 then convInt 8 v else if code = 9 then convInt 4 v else (fmtOf code).conv ovm v

/-! ### Block conversion (spec/02 R28, R29) -/

/-- emax of an element format. -/
def emaxOf (code : Nat) : Int :=
  if code = 3 then 8 else if code = 4 then 15 else if code = 5 then 4 else if code = 6 ∨ code = 7 then 2 else 0

/-- The largest finite magnitude of a block, 0 for none. -/
def amaxOf (vs : List FVal) : FVal := vs.foldl (fun a v => match v with
  | .fin _ m e => if a.lt (.fin false m e) then .fin false m e else a
  | _ => a) .zero

/-- The scale byte of a block. -/
def blockScale (code : Nat) (vs : List FVal) : Nat := match amaxOf vs with
  | .fin _ m e => if m = 0 then 0 else (max (-127) (min 127 (e + ilog2 m - emaxOf code)) + 127).toNat
  | _ => 0

/-- The magnitude that an integer element of a block is limited to, and the exponent of its unit. -/
def intBlock (code : Nat) : Nat × Int := if code = 8 then (127, -6) else (7, -2)

/-- One element of a block with scale byte `sc`. -/
def blockElem (code sc : Nat) (ovm : Bool) (v : FVal) : Nat :=
  let x := v.scale (127 - (sc : Int))
  if isIntFmt code then
    let lim := (intBlock code).1
    match x with
    | .nan => 0
    | .inf n => toSigned (fmtBits code) (if n then -(lim : Int) else lim)
    | .fin n m e =>
      let k := min lim (rneTo m e (intBlock code).2)
      toSigned (fmtBits code) (if n then -(k : Int) else k)
  else
    let f := fmtOf code
    match x with
    | .nan => 0
    | .inf n => if ovm && code == 4 then f.infCode n else f.maxCode n
    | .fin n m e =>
      let r := f.roundWith rneTo m e
      if f.over r.1 r.2 then f.maxCode n else f.encodeFin n r.1 r.2

/-- A block converted: the scale byte, the elements, and the events. -/
def convBlock (code : Nat) (ovm : Bool) (vs : List FVal) : Nat × List Nat × Events :=
  let zeros := vs.map fun _ => 0
  if vs.any FVal.isNan then (0xFF, zeros, ⟨false, false, true⟩)
  else
    let infs := vs.any FVal.isInf
    if infs && ovm && code != 4 then (0xFF, zeros, ⟨false, true, false⟩)
    else
      let sc := blockScale code vs
      (sc, vs.map (blockElem code sc ovm), ⟨false, infs, false⟩)

/-- A list cut into chunks of 32. -/
def chunks32 {α : Type} : Nat → List α → List (List α)
  | 0, _ => []
  | k + 1, l => if l.isEmpty then [] else l.take 32 :: chunks32 k (l.drop 32)

/-- A row of values converted in blocks of 32: scale bytes, elements, events. -/
def convBlocks (code : Nat) (ovm : Bool) (vs : List FVal) : List Nat × List Nat × Events :=
  let bs := (chunks32 (vs.length + 1) vs).map (convBlock code ovm)
  (bs.map (·.1), bs.flatMap (·.2.1), bs.foldl (fun e b => e.or b.2.2) .none)

/-! ### Elements in memory (spec/02 R24) -/

/-- The bytes that `n` elements of a format take. -/
def elemBytes (code n : Nat) : Nat := ceilDiv (n * fmtBits code) 8

/-- Element `i` of a packed run of bytes given by a reader. -/
def elemAt (rd : Nat → Byte) (code i : Nat) : Nat :=
  let w := fmtBits code
  let b := i * w
  ofLe ((List.range (ceilDiv (b % 8 + w) 8)).map fun j => rd (b / 8 + j)) / 2 ^ (b % 8) % 2 ^ w

/-- The 64-bit words of a packed run that element `i` touches, by byte offset of the run. -/
def elemSpan (code i : Nat) : Nat × Nat := (i * fmtBits code / 8, (i * fmtBits code + fmtBits code - 1) / 8)

/-- The little-endian number of packed elements. -/
def packElems (w : Nat) : List Nat → Nat
  | [] => 0
  | x :: xs => x % 2 ^ w + 2 ^ w * packElems w xs

/-- The bytes of packed elements; the bits of the last byte beyond the last element come from `old` (spec/06 R106). -/
def elemsToBytes (code : Nat) (xs : List Nat) (old : Byte) : List Byte :=
  let w := fmtBits code
  let n := xs.length * w
  let high := if n % 8 = 0 then 0 else old.toNat / 2 ^ (n % 8) * 2 ^ n
  leBytes (ceilDiv n 8) (packElems w xs + high)

/-- Where the scale bytes of elements stored at `a` start (spec/04 R67). -/
def scalesAt (a code n : Nat) : Nat := a + roundUp (elemBytes code n) 64

/-! ### The rounding generator (spec/02 R38) -/

/-- Four counter words and two key words. -/
structure PhiloxState where
  c0 : BitVec 32
  c1 : BitVec 32
  c2 : BitVec 32
  c3 : BitVec 32
  k0 : BitVec 32
  k1 : BitVec 32
deriving DecidableEq, Repr

/-- The high and low words of a 32 by 32 product. -/
def mulHiLo (a b : BitVec 32) : BitVec 32 × BitVec 32 :=
  (BitVec.ofNat 32 (a.toNat * b.toNat / 2 ^ 32), BitVec.ofNat 32 (a.toNat * b.toNat))

/-- One round. -/
def philoxRound (s : PhiloxState) : PhiloxState :=
  let p0 := mulHiLo s.c0 0xD2511F53
  let p1 := mulHiLo s.c2 0xCD9E8D57
  { c0 := p1.1 ^^^ s.c1 ^^^ s.k0, c1 := p1.2, c2 := p0.1 ^^^ s.c3 ^^^ s.k1, c3 := p0.2, k0 := s.k0 + 0x9E3779B9,
    k1 := s.k1 + 0xBB67AE85 }

/-- Ten rounds. -/
def philox10 (s : PhiloxState) : PhiloxState :=
  philoxRound (philoxRound (philoxRound (philoxRound (philoxRound (philoxRound (philoxRound (philoxRound
    (philoxRound (philoxRound s)))))))))

/-- The four output words for a 128-bit counter and a 64-bit key. -/
def philox (ctr : BitVec 128) (seed : Word) : List (BitVec 32) :=
  let r := philox10 { c0 := ctr.extractLsb' 0 32, c1 := ctr.extractLsb' 32 32, c2 := ctr.extractLsb' 64 32,
                      c3 := ctr.extractLsb' 96 32, k0 := seed.extractLsb' 0 32, k1 := seed.extractLsb' 32 32 }
  [r.c0, r.c1, r.c2, r.c3]

/-- The rounding counter (spec/02 Table 2.7). -/
structure RoundCtr where
  step : Nat
  tag : Nat
  row : Nat
  col : Nat
  spill : Bool
  chunk : Nat
deriving DecidableEq, Repr

/-- The draw for accumulator element `e` of a tile. -/
def roundDraw (seed : Word) (c : RoundCtr) (e : Nat) : Nat :=
  let ctr := BitVec.ofNat 128 (pack [(12, e / 4), (20, c.chunk), (7, 0), (1, b2n c.spill), (12, c.col), (12, c.row), (32, c.tag),
    (32, c.step)])
  ((philox ctr seed).getD (e % 4) 0).toNat / 256

end Sys2Proof.Machine
end

