-- ==== Sys2Proof/Machine/Image.lean ====
section
/-! DEFINITION. The plan image as bytes: header, directory and records (spec/13 R244 to R247). -/

namespace Sys2Proof.Machine

/-- The little-endian number in `len` bytes at `off` of an image. -/
def imgNum (img : List Byte) (off len : Nat) : Nat := ofLe ((img.drop off).take len)

/-- The header (spec/13 Table 13.7). -/
def hdrMagic (img : List Byte) : Nat := imgNum img 0 4
def hdrVer (img : List Byte) : Nat := imgNum img 4 2
def hdrNsect (img : List Byte) : Nat := imgNum img 6 2
def hdrSize (img : List Byte) : Nat := imgNum img 8 4
def hdrMb (img : List Byte) : Nat := imgNum img 12 2
def hdrNlcl (img : List Byte) : Nat := imgNum img 14 1
def hdrFlags (img : List Byte) : Nat := imgNum img 15 1
def hdrNcore (img : List Byte) (c : Nat) : Nat := imgNum img (16 + c) 1
def hdrSeed (img : List Byte) : Word := BitVec.ofNat 64 (imgNum img 32 8)
def hdrStart (img : List Byte) : Nat := imgNum img 40 4
def hdrSend (img : List Byte) : Nat := imgNum img 44 4
def hdrEnd (img : List Byte) : Nat := imgNum img 48 4
def hdrDigest (img : List Byte) : List Byte := (img.drop 192).take 64
def hdrSteps (img : List Byte) : Bool := hdrFlags img % 2 == 1

/-- A section directory entry (spec/13 Table 13.8). -/
structure Section where
  kind  : Nat
  rsv   : Nat
  rsize : Nat
  count : Nat
  off   : Nat
  bytes : Nat
deriving DecidableEq, Repr

/-- Directory entry `i`. -/
def dirEntry (img : List Byte) (i : Nat) : Section :=
  let o := 256 + 16 * i
  { kind := imgNum img o 1, rsv := imgNum img (o + 1) 1, rsize := imgNum img (o + 2) 2, count := imgNum img (o + 4) 4,
    off := imgNum img (o + 8) 4, bytes := imgNum img (o + 12) 4 }

/-- The section of a kind. -/
def sectionOf (img : List Byte) (kind : Nat) : Option Section :=
  ((List.range (hdrNsect img)).map (dirEntry img)).find? fun e => e.kind == kind

/-- The record size that Table 13.9 gives a kind; 0 for variable records. -/
def recSize (kind : Nat) : Nat :=
  if kind = 0x01 ∨ kind = 0x0A then 64
  else if kind = 0x04 ∨ kind = 0x08 then 80
  else if kind = 0x05 ∨ kind = 0x09 ∨ kind = 0x0B then 32
  else if kind = 0x06 ∨ kind = 0x07 then 48
  else if kind = 0x0D then 16
  else 0

/-- The byte offsets of a section's fixed-size records. -/
def fixedRecs (img : List Byte) (kind : Nat) : List Nat := match sectionOf img kind with
  | some e => (List.range e.count).map fun i => e.off + recSize kind * i
  | none => []

/-- The bytes of a variable record after its 16 B head, from the head at `o` (spec/13 Table 13.9). -/
def varBody (img : List Byte) (kind o : Nat) : Nat :=
  if kind = 0x02 then 8 * imgNum img (o + 4) 4
  else if kind = 0x03 then imgNum img (o + 8) 4
  else if kind = 0x0C then 6 * imgNum img (o + 4) 4
  else if kind = 0x0E then 8 * imgNum img (o + 4) 4
  else 4 * imgNum img o 1

/-- The byte offsets of the heads of `n` variable records from `o`. -/
def varRecs (img : List Byte) (kind : Nat) : Nat → Nat → List Nat
  | 0, _ => []
  | n + 1, o => o :: varRecs img kind n (o + 16 + roundUp (varBody img kind o) 16)

/-- The byte offsets of the records of a section, of fixed or variable size. -/
def recsOf (img : List Byte) (kind : Nat) : List Nat := match sectionOf img kind with
  | some e => if recSize kind = 0 then varRecs img kind e.count e.off else fixedRecs img kind
  | none => []

/-- A program: its logical cluster and core, and its instructions. -/
structure Prog where
  lcl   : Nat
  lcore : Nat
  code  : List Word
deriving DecidableEq, Repr

/-- The PROGRAM record at `o`. -/
def progAt (img : List Byte) (o : Nat) : Prog :=
  { lcl := imgNum img o 1, lcore := imgNum img (o + 1) 1,
    code := (List.range (imgNum img (o + 4) 4)).map fun i => BitVec.ofNat 64 (imgNum img (o + 16 + 8 * i) 8) }

/-- The programs of an image, in record order. -/
def progsOf (img : List Byte) : List Prog := (recsOf img 0x02).map (progAt img)

/-- A descriptor of 64 B after the 16 B head of a STREAM or HANDLE record at `o`. -/
def descAt (img : List Byte) (o : Nat) : BitVec 512 := BitVec.ofNat 512 (imgNum img (o + 16) 64)

/-- The KV descriptor, collective record and policy record of the records at `o`. -/
def kvAt (img : List Byte) (o : Nat) : BitVec 256 := BitVec.ofNat 256 (imgNum img o 32)
def collAt (img : List Byte) (o : Nat) : BitVec 256 := BitVec.ofNat 256 (imgNum img o 32)
def policyAt (img : List Byte) (o : Nat) : BitVec 128 := BitVec.ofNat 128 (imgNum img (o + 48) 16)

/-- The object identifiers that an image names (spec/13 R246): tensors and their stash objects, streams, KV objects, results and
sources of collectives. -/
def imageObjs (img : List Byte) : List Nat :=
  ((recsOf img 0x0A).flatMap fun o => [imgNum img o 4, bits (policyAt img o) 64 32]) ++
  ((recsOf img 0x04).map fun o => bits (descAt img o) 480 32) ++
  ((recsOf img 0x07).flatMap fun o => [bits (kvAt img o) 224 32, bits (kvAt img o) 192 32, bits (kvAt img o) 96 32]) ++
  ((recsOf img 0x0B).flatMap fun o => [bits (collAt img o) 128 32, bits (collAt img o) 28 32])

/-- The forward operation of a recompute operation (spec/14 R258); any other operation is its own. -/
def forwardOf (img : List Byte) (op : Nat) : Nat :=
  (((recsOf img 0x0E).flatMap fun o => (List.range (imgNum img (o + 4) 4)).map fun k =>
    (imgNum img (o + 20 + 8 * k) 4, imgNum img (o + 16 + 8 * k) 4)).lookup op).getD op

end Sys2Proof.Machine
end

