-- ==== Sys2Proof/Config.lean ====
section
/-! DEFINITION. What the spec leaves open: every constant here has no body, so a proof holds whatever it is. A log entry
under notes/assumptions names each. `fresh` is the count of free values drawn (State.fresh). -/

namespace Sys2Proof.Config

/-- The 8-bit tag of an LPDDR6 line (spec/11 R217): a digest of module identifier, line, key slot and generation. -/
opaque tagDigest (modId line slot gen : Nat) : BitVec 8

/-- The check code that MEM_INIT leaves in a line that no context has written (spec/22 R413): the code of no key slot. -/
opaque tagOfNoSlot (line : Nat) : BitVec 8

/-- Byte `i` of a line decrypted under another key or address than the one it was encrypted under (spec/11 R217, R219). -/
opaque garbled (oldKey newKey line : Nat) (plain : List Byte) (i : Nat) : Byte

/-- Byte of an unwritten host-memory home under a key (spec/11 R202). -/
opaque unwrittenHost (key addr : Nat) (raw : Byte) : Byte

/-- A byte read from a home on another module (spec/11 R204): the other module is outside the block. -/
opaque remoteByte (fresh : Nat) (home addr : Nat) : Byte

/-- The page of sub-channel `u` at which its part of a home begins (spec/11 R203, R212): a fixed function of the home's offset, the pages
of a part, its spread and its group, of which the spec gives no value. -/
opaque partPage (off pages spread sgrp u : Nat) : Nat

/-- The sub-channel and page of a page of the tier's linear space that no home holds (spec/11 R198, R212): none is given. -/
opaque barePage (page : Nat) : Nat × Nat

/-- Whether an access through a bind entry, by a unit that this model gives no transaction, is answered with the fabric's error response
(spec/11 R204, R205): the home is outside the block. -/
opaque remoteFails (fresh : Nat) (home : Nat) : Bool

/-- Byte `i` of the ciphertext of a 256 B line of a host-memory home (spec/11 R219). -/
opaque hostCipher (key line : Nat) (plain : List Byte) (i : Nat) : Byte

/-- Where the firmware reserves the 96 MiB of duplicate filters (spec/16 R307). -/
opaque filterBase : Nat

/-- The firmware's choice of place for a new home (spec/11 R201, R207), in granules. -/
opaque placement (fresh : Nat) (tier size : Nat) : Nat

/-- Which of the resident contexts that hold an object of that identifier a management command means (spec/20 R383, R389; spec/16
R302: the command names none). -/
opaque mgmtHolder (fresh obj holders : Nat) : Nat

/-- The old value that answers the re-issue of an atomic which is no more among the last 256 of its source (spec/16 R307). -/
opaque lostOld (draw : Nat) : Word

/-- Which of the four banks of a CACHE partition, and which partition of several, a line may be held in (spec/11 R214). -/
opaque cacheBank (partitions : List Nat) (line : Nat) : Nat

/-- The status and the detail of an event receipt whose rule gives none: 0 risk level SECURE, 1 module drained, 2 port down (spec/18
Table 18.9, R356; spec/16 Table 16.11). -/
opaque eventStatus (what : Nat) : BitVec 16
opaque eventDetail (what : Nat) : BitVec 16

/-- How a copy from another module ends (spec/18 R349): 0 done, 1 the source kept committing, 2 no satchel there, 3 the source is
unreachable; and the step whose committed state was copied. -/
opaque collectEnd (draw : Nat) : Nat
opaque collectStep (draw : Nat) : Nat

/-- The control law of the idle counts (spec/21 R401, R404): the power count for a draw and a limit, and how far the thermal count moves
at a sample. The lowest lane eye margin of a port, in mV (R409). -/
opaque idleCount (draw watts limit : Nat) : Nat
opaque thermalMove (draw : Nat) : Nat
opaque laneMargin (draw port : Nat) : Byte

/-- The next key of the DRBG is never shown: its number stands for it (spec/20 R381). Public values of the security engine:
byte `i` of the device identity key, of the root key and of the certificate (spec/20 R390, R391). -/
opaque identityKey (i : Nat) : Byte
opaque rootKey (i : Nat) : Byte
opaque certificate (i : Nat) : Byte

/-- Byte `i` of the identity signature over a report (spec/20 R390). -/
opaque identitySignature (report : List Byte) (i : Nat) : Byte

/-- Byte `i` of the fused configuration's digest (spec/20 R390). -/
opaque fuseDigest (i : Nat) : Byte

/-- Byte `i` of a measurement of configuration items (spec/20 R390: the encoding of the items under the digest is open). -/
opaque cfgDigest (items : List (BitVec 64)) (i : Nat) : Byte

/-- The image that a bank of the boot flash holds from manufacture (spec/20 R387). -/
opaque factoryImage (bank : Bool) : List Byte

/-- Whether an SLH-DSA signature verifies (spec/20 R387), and whether an image's key has the fused digest. -/
opaque signatureVerifies (image : List Byte) : Bool
opaque keyDigestMatches (image : List Byte) : Bool

/-- The security version that an image carries (spec/20 R387 gives its place no layout). -/
opaque imageSvn (image : List Byte) : Nat

/-- What the function unit gives for an input (spec/06 R112, R113): a fixed function of the function and the input bits, used
where it lies within the accuracy bound. -/
opaque fnValue (fn x : Nat) : BitVec 32

/-- The lowest token position of a query tile that a PAGED stream serves (spec/08 R144, R145): no record of the plan names it. -/
opaque lowQuery (obj seq len : Nat) : Nat

/-- Entry `j` of the touched-row list of sparse group `g` of slot `n` (spec/10 R184): the spec gives the list no place. -/
opaque touchedRow (draw n g j : Nat) : BitVec 32

/-- The conversion events that update threads meet in their stores (spec/10 Table 10.8): no rule counts them on the module. -/
opaque updateEvents (draw n g : Nat) : BitVec 16

/-- A byte of a Kid weight buffer beyond those that its last load wrote (spec/07 R130). -/
opaque staleWeight (draw i : Nat) : Byte

/-- A byte of the compressed tile that a job leaves after an uncorrectable error, and the status line's mask and first raw row of an
expansion that fails (spec/14 R265, R274). -/
opaque codecByte (draw i : Nat) : Byte
opaque codecMask (draw : Nat) : BitVec 21

/-- What the loader finds of a plan under the rules whose condition runs over values that the programs compute, or over a derivation
that the spec does not give (spec/05 R92, R95; spec/08 R151; spec/09 R159, R162, R169; spec/10 R186; spec/13 R240; spec/14 R257,
R259): the item and pc of the first failure of that rule at a stage of Table 13.4, if there is one. -/
opaque planPath (rule stage : Nat) (img : List Byte) : Option (Nat × Nat)

/-- What the codecs' own standards give for picture `i`, in output order, of a stream (spec/15 R277, R279 to R284): the pictures that
the stream shows; a picture's code, aux and bad_pct, where `bad` lists the source bytes that read as uncorrectable; its size; whether
its samples have 10 bits; whether it is monochrome; the chroma siting (horizontally centred, vertically centred), matrix and range that
it signals; and its samples by plane. -/
opaque videoShown (hevc : Bool) (stream : List Byte) : Nat
opaque videoCode (hevc conceal : Bool) (stream : List Byte) (bad : List Nat) (i : Nat) : Nat
opaque videoAux (hevc conceal : Bool) (stream : List Byte) (bad : List Nat) (i : Nat) : BitVec 8
opaque videoBad (hevc conceal : Bool) (stream : List Byte) (bad : List Nat) (i : Nat) : Nat
opaque videoSize (hevc : Bool) (stream : List Byte) (i : Nat) : Nat × Nat
opaque videoTen (hevc : Bool) (stream : List Byte) (i : Nat) : Bool
opaque videoMono (hevc : Bool) (stream : List Byte) (i : Nat) : Bool
opaque videoSiting (hevc : Bool) (stream : List Byte) (i : Nat) : Option (Bool × Bool)
opaque videoMatrix (hevc : Bool) (stream : List Byte) (i : Nat) : Option Nat
opaque videoFull (hevc : Bool) (stream : List Byte) (i : Nat) : Option Bool
opaque videoSample (hevc conceal : Bool) (stream : List Byte) (bad : List Nat) (i plane x y : Nat) : Nat

/-- A byte of a decoded-picture or reference object: its layout is the pipeline's own (spec/15 R278, R287). -/
opaque videoState (draw i : Nat) : Byte

/-- Where a decoder under NONE resize samples a crop that starts between columns (spec/15 R281). -/
opaque videoPhase (x0 : Rat) : Nat

/-- The encoders' fixed model (spec/15 R289), and the bytes of a superblock row at a quantiser index (R288), after the bytes already
coded. -/
opaque encEstimate (hevc : Bool) (record : BitVec 1024) (samples : List Nat) (picture row q : Nat) : Nat
opaque encRow (hevc : Bool) (record : BitVec 1024) (coded : List Byte) (samples : List Nat) (picture row q : Nat) : List Byte

end Sys2Proof.Config
end

