-- ==== Sys2Proof/Machine/Ops.lean ====
section
/-! DEFINITION. The named operations that the commands share: reading and updating parts of the state, logs, interrupts,
receipts and violations, and access to the memory tiers. -/

namespace Sys2Proof.Machine

/-! ### Parts of the state -/

/-- Ring `n`; a disabled ring past 64. -/
def ringOf (s : State) (n : Nat) : Ring := vget s.rings n (Ring.init n)

/-- `s` with ring `n` set. -/
def setRing (s : State) (n : Nat) (r : Ring) : State := { s with rings := vset s.rings n r }

/-- Core `c`, by flat number. -/
def coreOf (s : State) (c : Nat) : Core := vget s.cores c Core.init

/-- `s` with core `c` set. -/
def setCore (s : State) (c : Nat) (x : Core) : State := { s with cores := vset s.cores c x }

/-- `s` with core `c` changed by `f`. -/
def modCore (s : State) (c : Nat) (f : Core → Core) : State := setCore s c (f (coreOf s c))

/-- Thread `t` of a core. -/
def threadOf (c : Core) (t : Nat) : Thread := vget c.threads t Thread.init

/-- A core with thread `t` set. -/
def setThread (c : Core) (t : Nat) (x : Thread) : Core := { c with threads := vset c.threads t x }

/-- `s` with thread `t` of core `c` changed by `f`. -/
def modThread (s : State) (c t : Nat) (f : Thread → Thread) : State :=
  modCore s c fun x => setThread x t (f (threadOf x t))

/-- Stream `k` of a core. -/
def streamOf (c : Core) (k : Nat) : Stream := vget c.streams k Stream.init

/-- A core with stream `k` set. -/
def setStream (c : Core) (k : Nat) (x : Stream) : Core := { c with streams := vset c.streams k x }

/-- `s` with stream `k` of core `c` changed by `f`. -/
def modStream (s : State) (c k : Nat) (f : Stream → Stream) : State :=
  modCore s c fun x => setStream x k (f (streamOf x k))

/-- Cluster `c`. -/
def clusterOf (s : State) (c : Nat) : Cluster := vget s.clusters c Cluster.init

/-- `s` with cluster `c` changed by `f`. -/
def modCluster (s : State) (c : Nat) (f : Cluster → Cluster) : State :=
  { s with clusters := vset s.clusters c (f (clusterOf s c)) }

/-- Fabric port `p`. -/
def portOf (s : State) (p : Nat) : Port := vget s.ports p Port.init

/-- `s` with port `p` changed by `f`. -/
def modPort (s : State) (p : Nat) (f : Port → Port) : State := { s with ports := vset s.ports p (f (portOf s p)) }

/-- Video pipeline `i`. -/
def pipeOf (s : State) (i : Nat) : VideoPipe := vget s.pipes i VideoPipe.init

/-- `s` with pipeline `i` changed by `f`. -/
def modPipe (s : State) (i : Nat) (f : VideoPipe → VideoPipe) : State :=
  { s with pipes := vset s.pipes i (f (pipeOf s i)) }

/-- An empty slot. -/
def CtxSlot.empty : CtxSlot := { ctx := none, key := none, kept := false, gen := 0 }

/-- Resident slot `n`. -/
def slotOf (s : State) (n : Nat) : CtxSlot := vget s.ctxs n CtxSlot.empty

/-- `s` with slot `n` changed by `f`. -/
def modSlot (s : State) (n : Nat) (f : CtxSlot → CtxSlot) : State := { s with ctxs := vset s.ctxs n (f (slotOf s n)) }

/-- The context in slot `n`. -/
def ctxOf (s : State) (n : Nat) : Option Ctx := (slotOf s n).ctx

/-- `s` with the context in slot `n`, if any, changed by `f`. -/
def modCtx (s : State) (n : Nat) (f : Ctx → Ctx) : State := modSlot s n fun x => { x with ctx := x.ctx.map f }

/-- The slot that the context `ident` holds (spec/20 R378: identifiers are unique among resident contexts). -/
def slotOfIdent (s : State) (ident : BitVec 16) : Option Nat :=
  firstBelow 64 fun n => match ctxOf s n with
    | some c => c.ident == ident
    | none => false

/-- The identifier of the context in slot `n`, 0xFFFF for none. -/
def identOf (s : State) (n : Nat) : BitVec 16 := match ctxOf s n with
  | some c => c.ident
  | none => 0xFFFF

/-- The active configuration set (spec/20 R382). -/
def cfgOf (s : State) : ConfigSet := if s.active then s.setB else s.setA

/-- The shadow configuration set. -/
def shadowOf (s : State) : ConfigSet := if s.active then s.setA else s.setB

/-- `s` with the shadow set changed by `f`. -/
def modShadow (s : State) (f : ConfigSet → ConfigSet) : State :=
  if s.active then { s with setA := f s.setA } else { s with setB := f s.setB }

/-- `s` with both sets changed by `f`. -/
def modBothSets (s : State) (f : ConfigSet → ConfigSet) : State := { s with setA := f s.setA, setB := f s.setB }

/-- `s` with `o` sent out of the module. -/
def emit (s : State) (o : Output) : State := { s with outbox := s.outbox ++ [o] }

/-- A thread is dispatched, or a video job or a migration starts: IDLE turns to ACTIVE (spec/21 Table 21.5). -/
def wakePower (s : State) : State :=
  if s.life.power = .idle then { s with life := { s.life with power := .active } } else s

/-- `s` with one more free value drawn. -/
def draw (s : State) : State := { s with fresh := s.fresh + 1 }

/-! ### Health log, risk inputs, HST_ERR, MSI-X (spec/18 R341, R353; spec/19 Tables 19.5, 19.6, R374) -/

/-- Writes an entry into the health log (spec/18 Table 18.2). Corrected events (class 0x1) of one source and one address
merge into one entry. -/
def logHealth (s : State) (cls source code ctx loc : Nat) : State :=
  if cls = 1 ∧ s.health.any (fun e => e.cls == 1 && e.source.toNat == source && e.loc.toNat == loc) then
    { s with health := s.health.map fun e =>
        if e.cls == 1 && e.source.toNat == source && e.loc.toNat == loc then { e with count := e.count + 1 } else e }
  else
    let e : HealthEntry :=
      { postmark := s.postmark, seq := s.healthSeq, cls := BitVec.ofNat 4 cls, source := BitVec.ofNat 12 source,
        code := BitVec.ofNat 16 code, ctx := BitVec.ofNat 16 ctx, loc := BitVec.ofNat 48 loc, count := 1 }
    let h := s.health ++ [e]
    { s with health := h.drop (h.length - 4096), healthSeq := s.healthSeq + 1 }

/-- Records one event of row `row` of Table 18.7 with a weight in 1/65,536 points. -/
def risk (s : State) (row weight : Nat) : State :=
  { s with riskEvents := s.riskEvents ++ [{ row := row, weight := weight, at_ := s.postmark }] }

/-- Sends vector `v`, or marks it pending where it is masked (spec/19 R374). -/
def sendVector (s : State) (v : Nat) : State :=
  let e := vget s.msix v { addr := 0, data := 0, ctrl := 1 }
  if bit e.ctrl 0 then { s with msixPend := s.msixPend ||| BitVec.ofNat 64 (2 ^ v) }
  else emit s (.msix (BitVec.ofNat 6 v) e.addr e.data)

/-- The MSI-X vector of ring `n`: CMD_RING_CTRL.vector. -/
def vectorOf (s : State) (n : Nat) : Nat := bits (ringOf s n).ctrl 16 6

/-- Sets bit `b` of HST_ERR: the bit, its event count (Table 19.6), and the vector of ring 64. -/
def setErr (s : State) (b : Nat) : State :=
  sendVector { s with hstErr := s.hstErr ||| BitVec.ofNat 4 (2 ^ b),
                      hstErrEvents := putBits s.hstErrEvents (16 * b) 16 (bits s.hstErrEvents (16 * b) 16 + 1) }
    (vectorOf s 64)

/-! ### Homes and where LPDDR6 holds them (spec/11 R197, R199, R211, R212) -/

/-- The granule of a tier: 256 B in the shared store, 4 KiB elsewhere (spec/11 Table 11.1). -/
def granule (tier : BitVec 2) : Nat := if tier = 1 then 256 else 4096

/-- The members of a spread set (spec/11 R211). -/
def spreadMembers (spread : BitVec 2) : Nat := if spread = 0 then 192 else if spread = 1 then 48 else 12

/-- The sub-channel of member `j` of a spread set, in ascending order (spec/11 R211, R212). -/
def memberOf (spread : BitVec 2) (sgrp : BitVec 4) (j : Nat) : Nat :=
  if spread = 0 then j else if spread = 1 then 4 * j + sgrp.toNat else 16 * j + sgrp.toNat

/-- The pages of one member's part of a home of `size` bytes (spec/11 R212). -/
def partPages (spread : BitVec 2) (size : Nat) : Nat := ceilDiv size (spreadMembers spread * 4096)

/-- The bytes of the tier that a home of `size` bytes takes (spec/11 R199, R212). -/
def homeBytes (tier spread : BitVec 2) (size : Nat) : Nat :=
  if tier = 0 then spreadMembers spread * (partPages spread size * 4096) else roundUp size (granule tier)

/-- The range of a home entry in its tier. -/
def homeRange (o : Obj) : Nat × Nat := (o.off, homeBytes o.tier o.spread o.size)

/-- Two ranges meet. -/
def overlap (a b : Nat × Nat) : Bool := decide (a.1 < b.1 + b.2 ∧ b.1 < a.1 + a.2)

/-- The sub-channel of byte `b` of an object, and the byte's offset in that member's part (spec/11 R212). -/
def unitPart (spread : BitVec 2) (sgrp : BitVec 4) (b : Nat) : Nat × Nat :=
  let i := b / 256
  let m := spreadMembers spread
  (memberOf spread sgrp (i % m), i / m * 256 + b % 256)

/-- The sub-channel and page of byte `b` of an LPDDR6 home. -/
def unitPage (o : Obj) (b : Nat) : Nat × Nat :=
  let p := unitPart o.spread o.sgrp b
  (p.1, Config.partPage o.off (partPages o.spread o.size) o.spread.toNat o.sgrp.toNat p.1 + p.2 / 4096)

/-- A part of a home of `size` bytes at tier offset `off` takes page `pg` of sub-channel `u`. -/
def usesPage (spread : BitVec 2) (sgrp : BitVec 4) (off size u pg : Nat) : Bool :=
  let n := partPages spread size
  let at_ := Config.partPage off n spread.toNat sgrp.toNat u
  (List.range (spreadMembers spread)).any (fun j => memberOf spread sgrp j == u) && decide (at_ ≤ pg ∧ pg < at_ + n)

/-- The home entries of a context on this module: its own, those a migration is filling, and those that wait for release. -/
def homesOf (c : Ctx) : List Obj :=
  ((c.objs.map (·.2)).filter fun o => !o.isBind) ++ c.incoming.map (·.2.2) ++ c.releasing.map (·.2) ++
  (c.objs.filterMap fun e => match e.2.mig with
    | some m =>
      if m.placed ∧ m.newMod = e.2.homeMod then some { e.2 with tier := m.newTier, off := m.newOff, spread := m.newSpread, sgrp := m.newSgrp }
      else none
    | none => none)

/-- The homes of every resident context. -/
def allHomes (s : State) : List Obj := s.ctxs.toList.flatMap fun x => x.ctx.elim [] homesOf

/-- The sub-channel and page of tier offset `a` of LPDDR6: those that the home there gives it. -/
def tierPage (s : State) (a : Nat) : Nat × Nat :=
  match (allHomes s).find? fun o => o.tier == 0 && overlap (homeRange o) (a, 1) with
  | some o => unitPage o (a - o.off)
  | none => Config.barePage (a / 4096)

/-! ### LPDDR6 lines (spec/11 R217, R219) -/

/-- Bytes of the LPDDR6 tier (spec/11 R197). -/
def lpCapacity (s : State) : Nat := (if s.big then 1536 else 768) * 2 ^ 30

/-- The module identifier; 0 where it is unset (spec/19 Table 19.4). -/
def modIdOf (s : State) : BitVec 14 := s.modId.getD 0

/-- The tag that a line written now under slot `n` carries. -/
def curTag (s : State) (n : Nat) : LineTag :=
  { modId := modIdOf s, slot := BitVec.ofNat 6 n, gen := (slotOf s n).gen, key := (slotOf s n).key.getD 0, bad := false }

/-- The digest of a line's tag. -/
def digestOf (t : LineTag) (line : Nat) : BitVec 8 := Config.tagDigest t.modId.toNat line t.slot.toNat t.gen.toNat

/-- What a read of LPDDR6 line `line` under slot `n` meets. -/
inductive LineRead where
  | good | garbled (key : Nat) | tagFail | uncorrectable
deriving DecidableEq, Repr

/-- The check of one line (spec/11 R217): the marker, then the tag; a tag that passes by chance decrypts to other values. -/
def lineCheck (s : State) (n line : Nat) : LineRead :=
  let cur := curTag s n
  match tget s.lines line with
  | none => if Config.tagOfNoSlot line = digestOf cur line then .garbled 0 else .tagFail
  | some t =>
    if t.bad then .uncorrectable
    else if digestOf t line = digestOf cur line then
      if t.key = cur.key ∧ t.modId = cur.modId then .good else .garbled t.key
    else .tagFail

/-- The plaintext byte at tier offset `a` as slot `n` reads it; 0 where the line fails. -/
def lpByte (s : State) (n a : Nat) : Byte :=
  match lineCheck s n (a / 256) with
  | .good => Mem.byte s.lpddr a
  | .garbled k => Config.garbled k ((slotOf s n).key.getD 0) (a / 256) (Mem.read s.lpddr (a / 256 * 256) 256) (a % 256)
  | _ => 0

/-- Whether the line of offset `a` can be read under slot `n`. -/
def lpOk (s : State) (n a : Nat) : Bool := match lineCheck s n (a / 256) with
  | .good => true
  | .garbled _ => true
  | _ => false

/-- The lines that the range of `len` bytes from `a` touches, for lines of `g` bytes. -/
def linesOf (g a len : Nat) : List Nat :=
  if len = 0 then [] else (List.range ((a + len - 1) / g - a / g + 1)).map (· + a / g)

/-- One line of a write (spec/11 R217): the whole line, with the bytes that the write does not cover read and merged, or zero
where that read fails its tag; the marker stays where the read is uncorrectable and the write does not cover the line. -/
def lpWriteLine (s : State) (n line a : Nat) (bs : List Byte) : State :=
  let covers := decide (a ≤ 256 * line ∧ 256 * line + 256 ≤ a + bs.length)
  let tag := curTag s n
  let chk := lineCheck s n line
  let byteAt := fun (i : Nat) =>
    let x := 256 * line + i
    if a ≤ x ∧ x < a + bs.length then bs.getD (x - a) 0
    else match chk with
      | .uncorrectable => Mem.byte s.lpddr x
      | _ => lpByte s n x
  let bad := chk == .uncorrectable && !covers
  let s1 := { s with lpddr := Mem.write s.lpddr (256 * line) ((List.range 256).map byteAt),
                     lines := tput s.lines line { tag with bad := bad } }
  if bad then logHealth s1 2 (0x200 + (tierPage s (256 * line)).1) 0x0500 (identOf s n).toNat (tierPage s (256 * line)).2
  else s1

/-- A write of `bs` at tier offset `a` under slot `n`, line by line; cached copies of its lines are invalidated first (spec/11 R214). -/
def lpWrite (s : State) (n a : Nat) (bs : List Byte) : State :=
  (linesOf 256 a bs.length).foldl
    (fun s line => lpWriteLine s n line (max a (256 * line)) ((bs.drop (256 * line - a)).take (256 * (line + 1) - max a (256 * line))))
    { s with cache := s.cache.filter fun l => !(linesOf 256 a bs.length).contains l.line }

/-! ### BAR2 windows (spec/11 R220; spec/20 Table 20.4) -/

/-- The base and length of a window entry, in bytes. -/
def windowRange (w : BitVec 64) : Nat × Nat := (bits w 20 20 * 2 ^ 21, bits w 0 20 * 2 ^ 21)

/-- The slot of the valid window that holds the whole range. A window of an empty slot acts as absent (spec/20 R380). -/
def windowFor (s : State) (a len : Nat) : Option Nat :=
  (cfgOf s).window.toList.findSome? fun w =>
    let r := windowRange w
    if bit w 63 ∧ r.1 ≤ a ∧ a + len ≤ r.1 + r.2 ∧ (ctxOf s (bits w 57 6)).isSome then some (bits w 57 6) else none

/-! ### Host memory (spec/11 R198, R219; spec/19 R359) -/

/-- Whether a 64 B line of host memory can be read: the link is up and the line is not poisoned. -/
def hostOk (s : State) (a : Nat) : Bool := s.life.linkUp && !s.hostPoison.contains (a / 64)

/-- The byte at host address `a` as it lies in host memory: ciphertext where a home's line was written under a key (spec/11 R219). -/
def hostRaw (s : State) (a : Nat) : Byte := match tget s.hostLines (a / 256) with
  | some t => Config.hostCipher t.key (a / 256) (Mem.read s.hostMem (a / 256 * 256) 256) (a % 256)
  | none => Mem.byte s.hostMem a

/-- Line `l` of host memory as plain bytes: what it holds is what a raw read gives. -/
def bareLine (s : State) (l : Nat) : State :=
  if (tget s.hostLines l).isNone then s
  else { s with hostMem := Mem.write s.hostMem (256 * l) ((List.range 256).map fun i => hostRaw s (256 * l + i)),
                hostLines := tdel s.hostLines l }

/-- Plain bytes written to host memory (receipts and records): the lines they touch hold no home's data any more. -/
def hostWrite (s : State) (a : Nat) (bs : List Byte) : State :=
  let s1 := (linesOf 256 a bs.length).foldl bareLine s
  { s1 with hostMem := Mem.write s1.hostMem a bs }

/-- A record written to a host address: a line that the host rejects is dropped. -/
def hostRecord (s : State) (a : Nat) (bs : List Byte) : State :=
  if (linesOf 64 a bs.length).any s.hostReject.contains then s else hostWrite s a bs

/-- The byte of a host-memory home at host address `a`, decrypted under slot `n`'s key (spec/11 R202, R219). -/
def hostHomeByte (s : State) (n a : Nat) : Byte :=
  match tget s.hostLines (a / 256) with
  | some t =>
    if t.key = (curTag s n).key ∧ t.modId = modIdOf s then Mem.byte s.hostMem a
    else Config.garbled t.key (curTag s n).key (a / 256) (Mem.read s.hostMem (a / 256 * 256) 256) (a % 256)
  | none => Config.unwrittenHost (curTag s n).key a (Mem.byte s.hostMem a)

/-- A write into a host-memory home: whole 256 B lines under slot `n`'s key (spec/11 R219). -/
def hostHomeWrite (s : State) (n a : Nat) (bs : List Byte) : State :=
  let tag := curTag s n
  (linesOf 256 a bs.length).foldl (fun s line =>
    let byteAt := fun (i : Nat) =>
      let x := 256 * line + i
      if a ≤ x ∧ x < a + bs.length then bs.getD (x - a) 0 else hostHomeByte s n x
    { s with hostMem := Mem.write s.hostMem (256 * line) ((List.range 256).map byteAt),
             hostLines := tput s.hostLines line tag }) s

/-! ### Dead-letter log and receipts (spec/19 R368 to R377) -/

/-- The identifier that a ring's entries and receipts carry: the context of slot `n`, or 0xFFFF for ring 64. -/
def ringCtx (s : State) (n : Nat) : BitVec 16 := if n < 64 then identOf s n else 0xFFFF

/-- The slot that a ring's violations count against: none for ring 64. -/
def ringSlot (n : Nat) : Option Nat := if n < 64 then some n else none

/-- What a violation records (spec/19 Table 19.23): `ring` 255 says none, `slot` is that of the context that it counts against. -/
structure Violation where
  kind   : Nat
  ring   : Nat
  opcode : Nat
  info   : Word
  pktSeq : BitVec 32
  status : Nat
  slot   : Option Nat
deriving DecidableEq, Repr

/-- The dead-letter entry of a violation, and HST_ERR.violation (spec/19 R375, R376). -/
def deadLetter (s : State) (v : Violation) : State :=
  let e : DeadLetter :=
    { postmark := s.postmark, info := v.info, pktSeq := v.pktSeq, logSeq := s.deadCount,
      ctx := (v.slot.map (identOf s)).getD 0xFFFF, status := BitVec.ofNat 16 v.status,
      kind := BitVec.ofNat 8 v.kind, ring := BitVec.ofNat 8 v.ring, opcode := BitVec.ofNat 8 v.opcode }
  let d := s.dead ++ [e]
  setErr { s with dead := d.drop (d.length - 1024), deadCount := s.deadCount + 1 } 0

/-- Counts a violation against the context in slot `n` (spec/19 R377): the postmarks of the last 800,000,000 cycles. -/
def countViolation (s : State) (n : Nat) : State :=
  modCtx s n fun c =>
    { c with violations := c.violations.filter (fun t => (s.postmark - t).toNat < 800000000) ++ [s.postmark] }

/-- The number of entries of a receipt ring, of units of a post ring (spec/19 Table 19.11). -/
def rcptEntries (r : Ring) : Nat := 2 ^ (6 + bits r.ctrl 8 3)
def postUnits (r : Ring) : Nat := 2 ^ (6 + bits r.ctrl 0 3)

/-- CMD_RING_CTRL.enable. -/
def enabled (r : Ring) : Bool := bit r.ctrl 31

/-- The receipt ring is full (spec/19 R370). -/
def rcptFull (r : Ring) : Bool := (r.comp.toNat + 2 ^ 32 - r.consumed.toNat) % 2 ^ 32 == rcptEntries r

/-- CMD_RING_STATUS.state follows the receipt ring's room, the head packet and enable (spec/19 R363, R365, R370). -/
def refreshRing (r : Ring) : Ring :=
  if !enabled r then (if r.taken = 0 ∧ r.waiting = [] then { r with state := .disabled } else r)
  else match r.state with
    | .quarantined => r
    | .disabled => r
    | _ => { r with state := if r.pktHeld || rcptFull r || !r.waiting.isEmpty then .held else .running }

/-- Writes bytes at a ring's place: a host address, or a BAR2 offset inside a window of the ring's context (spec/19 Table
19.10); none where the write fails at the host, or lies outside the context's windows. -/
def ringWrite (s : State) (n : Nat) (base : BitVec 64) (off : Nat) (bs : List Byte) : Option State :=
  let a := bits base 12 36 * 4096 + off
  if bit base 63 then
    if windowFor s a bs.length = some n then some (lpWrite s n a bs) else none
  else if s.hostReject.contains (a / 64) then none else some (hostWrite s a bs)

/-- Receipt `raw` (phase, comp and an event's seq still zero) written into ring `n` (spec/19 R368 to R370, R374): a write that
fails drops the receipt and still counts it, as violation RECEIPT. -/
def writeReceipt (s : State) (n : Nat) (raw : BitVec 256) (notify : Bool) : State :=
  let r := ringOf s n
  let c := r.comp + 1
  let e := rcptEntries r
  let isEvent := bit raw 193
  let r1 := putBits (putBits raw 128 64 c.toNat) 192 1 (((c.toNat - 1) / e + 1) % 2)
  let rec1 := if isEvent then putBits r1 64 32 r.nextSeq.toNat else r1
  let r' := refreshRing { r with comp := c, taken := if isEvent then r.taken else r.taken - 1 }
  let slots' := if isEvent then s.slots
    else s.slots.filter fun t => !(t.pkt.ring.toNat == n && t.pkt.seq.toNat == bits raw 64 32)
  let s1 := { setRing s n r' with slots := slots' }
  match ringWrite s1 n r.rcptBase (32 * ((c.toNat - 1) % e)) (leBytes 32 rec1.toNat) with
  | some s2 =>
    let s3 := setRing s2 n r'
    if notify || isEvent || bit r.ctrl 15 then sendVector s3 (vectorOf s3 n) else s3
  | none =>
    let v : Violation := { kind := 0x0C, ring := n, opcode := bits raw 200 8, info := BitVec.ofNat 64 (bits raw 0 64),
                           pktSeq := BitVec.ofNat 32 (bits rec1 64 32), status := 0, slot := ringSlot n }
    let s3 := deadLetter s1 v
    if n < 64 then countViolation s3 n else s3

/-- A receipt that is due: written, or kept waiting in order while the ring is full or the link is down (R359, R370). -/
def pushReceipt (s : State) (n : Nat) (raw : BitVec 256) (notify : Bool) : State :=
  let r := ringOf s n
  if rcptFull r || !r.waiting.isEmpty || !s.life.linkUp then
    setRing s n (refreshRing { r with waiting := r.waiting ++ [(raw, notify)] })
  else writeReceipt s n raw notify

/-- The receipt of a packet (spec/19 Table 19.18). -/
def rcptOf (s : State) (p : Packet) (opcode status detail : Nat) : BitVec 256 :=
  BitVec.ofNat 256 (pack [(64, p.tag.toNat), (32, p.seq.toNat), (16, status), (16, detail), (64, 0), (1, 0), (1, 0), (6, 0),
    (8, opcode), (16, if p.ring.toNat < 64 then (identOf s p.ring.toNat).toNat else p.ctx.toNat)])

/-- An event receipt (spec/19 R369): dropped where the ring pair is disabled. -/
def eventReceipt (s : State) (n status detail : Nat) (tag : Word) : State :=
  if enabled (ringOf s n) then
    pushReceipt s n (BitVec.ofNat 256 (pack [(64, tag.toNat), (32, 0), (16, status), (16, detail), (64, 0), (1, 0), (1, 1),
      (6, 0), (8, 0xFF), (16, (ringCtx s n).toNat)])) true
  else s

/-- The context in slot `n` reaches 256 violations within 1 s (spec/19 R377): quarantined, once. -/
def quarantineDue (s : State) (n : Nat) : Bool := match ctxOf s n with
  | some c => !c.quarantined && decide (256 ≤ c.violations.length)
  | none => false

/-- The ring of slot `n` enters QUARANTINED with its event receipt (spec/19 Table 19.24). -/
def quarantine (s : State) (n : Nat) : State :=
  if quarantineDue s n then
    let s1 := modCtx s n fun c => { c with quarantined := true }
    let s2 := setRing s1 n { ringOf s1 n with state := .quarantined }
    eventReceipt (setErr s2 1) n 0x0106 0x0100 0
  else s

/-- A host protocol violation (spec/19 R375): its dead-letter entry and count first, then its answer, then quarantine. -/
def hostViolation (s : State) (v : Violation) (reply : State → State) : State :=
  let s1 := deadLetter s v
  match v.slot with
  | some n => quarantine (reply (countViolation s1 n)) n
  | none => reply s1

/-- The answer to a command (spec/19 R369) with the detail that its chapter gives. A BAD_FIELD answer is violation FIELD (Table
19.22). -/
def answerD (s : State) (p : Packet) (opcode status detail : Nat) : State :=
  let n := p.ring.toNat
  let reply := fun (s : State) => pushReceipt s n (rcptOf s p opcode status detail) p.notify
  if status = 0x0102 then
    draw (hostViolation s { kind := 3, ring := n, opcode := opcode, info := p.tag, pktSeq := p.seq, status := status,
                            slot := ringSlot n } reply)
  else draw (reply s)

/-- The answer to a command: where its chapter gives no detail, a violation's detail is its kind (spec/19 Table 19.18). -/
def answer (s : State) (p : Packet) (opcode status detail : Nat) : State :=
  answerD s p opcode status (if status = 0x0102 ∧ detail = 0 then 3 else detail)

/-- A packet that names no resident context: violation CONTEXT (spec/19 R367, step 6). -/
def badContext (s : State) (p : Packet) (opcode : Nat) : State :=
  let n := p.ring.toNat
  draw (hostViolation s { kind := 5, ring := n, opcode := opcode, info := p.tag, pktSeq := p.seq, status := 0x0104,
                          slot := ringSlot n }
    fun s => pushReceipt s n (rcptOf s p opcode 0x0104 5) p.notify)

/-- A violation answer with a kind of its own (spec/19 Table 19.22). -/
def rejectPkt (s : State) (p : Packet) (op status kind : Nat) : State :=
  let n := p.ring.toNat
  draw (hostViolation s { kind := kind, ring := n, opcode := op, info := p.tag, pktSeq := p.seq, status := status,
                          slot := ringSlot n }
    fun s => pushReceipt s n (rcptOf s p op status kind) p.notify)

/-- A poisoned read of a host-memory home of slot `n` (spec/19 Table 19.22, POISON_DATA). -/
def poisonData (s : State) (n : Nat) (addr : Nat) : State :=
  hostViolation (setErr s 2) { kind := 9, ring := 255, opcode := 0, info := BitVec.ofNat 64 addr, pktSeq := 0, status := 0, slot := some n } id

/-- A violation with no ring and no answer (spec/19 Table 19.22: MMIO, BAR2). -/
def unboundViolation (s : State) (kind ring : Nat) (info : Word) : State :=
  deadLetter s { kind := kind, ring := ring, opcode := 0, info := info, pktSeq := 0, status := 0, slot := none }

/-- The slot that a packet's command acts for: the ring's own, or on ring 64 the slot of the context that ctx names. -/
def pktSlot (s : State) (p : Packet) : Option Nat :=
  if p.ring.toNat < 64 then (if (ctxOf s p.ring.toNat).isSome then some p.ring.toNat else none) else slotOfIdent s p.ctx

/-- The firmware runs from phase READY (spec/22 R418) until a fault of class MODULE stops the module (spec/18 R340). -/
def ready (s : State) : Bool := s.life.phase == .ready && !s.life.stopped

/-! ### Objects and homes (spec/11 R198, R200, R207) -/

/-- The home of an object: a tier of this module, or another module. -/
inductive Place where
  | lpddr (off : Nat) | shared (off : Nat) | host (addr : Nat) | remote (home : BitVec 64)
deriving DecidableEq, Repr

/-- A global address (spec/11 R198). -/
def globalAddr (m : BitVec 14) (tier : BitVec 2) (off : Nat) : BitVec 64 :=
  BitVec.ofNat 64 (pack [(48, off), (2, tier.toNat), (14, m.toNat)])

/-- The global address of an object's home (spec/11 Table 11.6). -/
def homeAddr (o : Obj) : BitVec 64 := globalAddr o.homeMod o.tier o.off

/-- Where an object's home lies. -/
def placeOf (o : Obj) : Place :=
  if o.isBind then .remote (homeAddr o)
  else if o.tier = 0 then .lpddr o.off
  else if o.tier = 1 then .shared o.off
  else .host o.off

/-- The entry of object `id` in slot `n`'s table. -/
def objOf (s : State) (n id : Nat) : Option Obj := match ctxOf s n with
  | some c => if id = 0 then none else tget c.objs id
  | none => none

/-- A read of a home: the bytes, and the offsets (within the read) of bytes that read as uncorrectable. -/
structure Rd where
  bytes : List Byte
  bad   : List Nat
deriving DecidableEq, Repr

/-- Whether the 64-bit word of shared-store offset `a` reads as uncorrectable. -/
def sharedBadAt (s : State) (a : Nat) : Bool := s.sharedBad.contains (a / 8)

/-- A read of `len` bytes at `off` of a place, under slot `n`. -/
def readPlace (s : State) (n : Nat) (pl : Place) (off len : Nat) : Rd :=
  let idx := List.range len
  match pl with
  | .lpddr a => { bytes := idx.map fun i => lpByte s n (a + off + i), bad := idx.filter fun i => !lpOk s n (a + off + i) }
  | .shared a => { bytes := Mem.read s.shared (a + off) len, bad := idx.filter fun i => sharedBadAt s (a + off + i) }
  | .host a => { bytes := idx.map fun i => hostHomeByte s n (a + off + i), bad := idx.filter fun i => !hostOk s (a + off + i) }
  | .remote h => { bytes := idx.map fun i => Config.remoteByte s.fresh h.toNat (off + i),
                   bad := if Config.remoteFails s.fresh h.toNat then idx else [] }

/-- A read within an object (spec/11 R222: a LOST object gives no data). -/
def readObj (s : State) (n : Nat) (o : Obj) (off len : Nat) : Rd :=
  if o.state = .lost then { bytes := List.replicate len 0, bad := List.range len } else readPlace s n (placeOf o) off len

/-- A write at `off` of a place, under slot `n`. A write to another module leaves as a message. A back-invalidate snoop goes
before a line that lies in a BAR2 window (spec/19 R358). -/
def writePlace (s : State) (n : Nat) (pl : Place) (off : Nat) (bs : List Byte) : State :=
  match pl with
  | .lpddr a =>
    let s1 := if (windowFor s (a + off) bs.length).isSome ∧ s.life.hdmOn then
        (linesOf 256 (a + off) bs.length).foldl (fun s l => emit s (.backInvalidate l)) s
      else s
    lpWrite s1 n (a + off) bs
  | .shared a => { s with shared := Mem.write s.shared (a + off) bs,
                          sharedBad := s.sharedBad.filter fun w => !(a + off ≤ 8 * w && 8 * w + 8 ≤ a + off + bs.length) }
  | .host a => if (linesOf 64 (a + off) bs.length).any s.hostReject.contains then s else hostHomeWrite s n (a + off) bs
  | .remote h => emit s (.remoteWrite (h + BitVec.ofNat 64 off) bs)

/-- A write within an object. -/
def writeObj (s : State) (n : Nat) (o : Obj) (off : Nat) (bs : List Byte) : State :=
  if o.state = .lost then s else writePlace s n (placeOf o) off bs

/-- `len` bytes at `off` of object `id`: none where the object is unknown or does not hold the range. -/
def readObjAt (s : State) (n id off len : Nat) : Option Rd := match objOf s n id with
  | some o => if off + len ≤ o.size ∨ (o.isBind ∧ o.size = 0) then some (readObj s n o off len) else none
  | none => none

/-! ### Virtual sync identifiers (spec/17 R319, R320) -/

/-- What a vid translates to. -/
inductive Vid where
  | unmapped | here (pid : BitVec 16) | remote (m : BitVec 14)
deriving DecidableEq, Repr

/-- The fields of a sync range entry (spec/17 Table 17.1). -/
def rngBase (e : BitVec 64) : Nat := bits e 44 20
def rngCount (e : BitVec 64) : Nat := bits e 31 13
def rngRemote (e : BitVec 64) : Bool := bit e 30
def rngMod (e : BitVec 64) : BitVec 14 := BitVec.ofNat 14 (bits e 16 14)
def rngPid (e : BitVec 64) : Nat := bits e 0 16

/-- The counter of physical identifier `pid`, if it is allocated. -/
def counterOf (s : State) (pid : Nat) : Option Counter := tget s.counters pid

/-- Translation of a vid of slot `n` through the active set (spec/17 R319). -/
def translate (s : State) (n vid : Nat) : Vid :=
  match (vget (cfgOf s).sync n []).find? fun e => decide (rngBase e.2 ≤ vid ∧ vid < rngBase e.2 + rngCount e.2) with
  | none => .unmapped
  | some e =>
    if rngRemote e.2 then .remote (rngMod e.2)
    else
      let pid := rngPid e.2 + (vid - rngBase e.2)
      match counterOf s pid with
      | some c => if c.slot.toNat = n then .here (BitVec.ofNat 16 pid) else .unmapped
      | none => .unmapped

end Sys2Proof.Machine
end

