-- ==== Sys2Proof/Machine/FabricOps.lean ====
section
/-! DEFINITION. The sending side of the fabric: flits, the link layer's transmitter, routes and transactions (spec/16). -/

namespace Sys2Proof.Machine

/-! ### The flit as bytes (spec/16 R293, Tables 16.1, 16.2, 16.4) -/

/-- The link header as a number. -/
def linkNum (l : LinkHdr) : Nat :=
  pack [(24, 0), (6, l.cr0.toNat), (6, l.cr1.toNat), (6, l.cr2.toNat), (6, l.cr3.toNat), (19, l.rsv.toNat), (2, l.vc.toNat),
    (2, l.kind.toNat), (1, b2n l.ackV), (12, l.ack.toNat), (12, l.seq.toNat)]

/-- The transaction header as a number. -/
def txnNum (h : TxnHdr) : Nat :=
  pack [(64, h.arg.toNat), (64, h.addr.toNat), (12, h.rsv.toNat), (8, h.sub.toNat), (8, h.status.toNat), (6, h.hops.toNat),
    (1, b2n h.last), (8, h.fidx.toNat), (9, h.len.toNat), (16, h.ctx.toNat), (8, h.epoch.toNat), (16, h.txn.toNat),
    (14, h.dstMod.toNat), (14, h.srcMod.toNat), (8, h.op.toNat)]

/-- Bytes 0 to 507 of a flit. -/
def flitBytes (f : Flit) : List Byte :=
  (f.data ++ List.replicate (464 - f.data.length) 0).take 464 ++ leBytes 32 (txnNum f.txn) ++ leBytes 12 (linkNum f.link)

/-- One bit of the CRC-32C shift register. -/
def crcBit (c : BitVec 32) : BitVec 32 := if c.getLsbD 0 then (c >>> 1) ^^^ 0x82F63B78 else c >>> 1

/-- One byte of CRC-32C. -/
def crcByte (c : BitVec 32) (b : Byte) : BitVec 32 :=
  let x := c ^^^ b.setWidth 32
  crcBit (crcBit (crcBit (crcBit (crcBit (crcBit (crcBit (crcBit x)))))))

/-- CRC-32C (the Castagnoli polynomial, reflected, with ones before and after). -/
def crc32c (bs : List Byte) : BitVec 32 := ~~~(bs.foldl crcByte 0xFFFFFFFF)

/-- The flit with its CRC. -/
def withCrc (f : Flit) : Flit := { f with crc := crc32c (flitBytes f) }

/-- An empty link header and transaction header. -/
def LinkHdr.zero : LinkHdr :=
  { seq := 0, ack := 0, ackV := false, kind := 0, vc := 0, rsv := 0, cr3 := 0, cr2 := 0, cr1 := 0, cr0 := 0 }
def TxnHdr.zero : TxnHdr :=
  { op := 0, srcMod := 0, dstMod := 0, txn := 0, epoch := 0, ctx := 0, len := 0, fidx := 0, last := false, hops := 0,
    status := 0, sub := 0, rsv := 0, addr := 0, arg := 0 }

/-- The virtual channel of an operation (spec/16 Table 16.5). -/
def vcOf (op : BitVec 8) : BitVec 2 :=
  if bits op 6 2 = 0 then 0 else if bits op 6 2 = 1 then 1 else if bits op 6 2 = 2 then 2 else 3

/-! ### The transmitter of a port (spec/16 R294, R295) -/

/-- Credits returned in one flit: at most 63 per channel. -/
def takeOwed (p : Port) : Port × (Nat × Nat × Nat × Nat) :=
  let o := fun i => min 63 (vget p.owed i 0)
  ({ p with owed := Vector.ofFn fun i : Fin 4 => vget p.owed i.val 0 - o i.val }, (o 0, o 1, o 2, o 3))

/-- A flit as it goes on the link: with the port's current ack and credit returns, and its CRC. -/
def stamp (p : Port) (f : Flit) : Port × Flit :=
  let (p', c) := takeOwed p
  (p', withCrc { f with link := { f.link with ack := p.rxSeq - 1, ackV := p.rxGood, cr0 := BitVec.ofNat 6 c.1,
                                              cr1 := BitVec.ofNat 6 c.2.1, cr2 := BitVec.ofNat 6 c.2.2.1,
                                              cr3 := BitVec.ofNat 6 c.2.2.2 } })

/-- The channel that the output serves next (spec/16 R295): VC3, VC1, then VC2 and VC0 in alternation while both wait. -/
def nextVc (p : Port) : Option Nat :=
  let can := fun v => !(vget p.txQ v []).isEmpty && decide (0 < vget p.credits v 0)
  if p.state != .up || decide (256 ≤ p.retry.length) then none
  else if can 3 then some 3
  else if can 1 then some 1
  else if can 2 && can 0 then some (if p.altTurn then 0 else 2)
  else if can 2 then some 2
  else if can 0 then some 0
  else none

/-- Sends one waiting flit of port `n`, if one can go. -/
def sendOne (s : State) (n : Nat) : State :=
  let p := portOf s n
  match nextVc p with
  | none => s
  | some v =>
    match vget p.txQ v [] with
    | [] => s
    | (_, f) :: rest =>
      let both := v == 2 || v == 0
      let f1 := { f with link := { f.link with seq := p.txSeq, kind := 0, vc := BitVec.ofNat 2 v } }
      let p1 := { p with txQ := vset p.txQ v rest, credits := vset p.credits v (vget p.credits v 0 - 1),
                         txSeq := p.txSeq + 1, retry := p.retry ++ [f1], altTurn := if both then v == 2 else p.altTurn }
      let (p2, g) := stamp p1 f1
      emit (modPort s n fun _ => p2) (.flit (BitVec.ofNat 4 n) g)

/-- Repeats `f` as often as `k` says. -/
def times {α : Type} : Nat → (α → α) → α → α
  | 0, _, x => x
  | k + 1, f, x => times k f (f x)

/-- The flits that wait at a port. -/
def waitingFlits (p : Port) : Nat := (p.txQ.toList.map List.length).sum

/-- Sends every flit of port `n` that can go. -/
def pump (s : State) (n : Nat) : State := times (waitingFlits (portOf s n)) (fun s => sendOne s n) s

/-- An IDLE flit, which carries the ack and the credits owed (spec/16 R294). -/
def sendIdle (s : State) (n : Nat) : State :=
  let p := portOf s n
  if p.state = .up then
    let (p', f) := stamp p { link := { LinkHdr.zero with kind := 1 }, txn := TxnHdr.zero, data := [], crc := 0 }
    emit (modPort s n fun _ => p') (.flit (BitVec.ofNat 4 n) f)
  else s

/-- After a receive: the waiting flits go; where none does, an IDLE flit returns the ack and the credits. -/
def respond (s : State) (n : Nat) : State :=
  if (nextVc (portOf s n)).isSome then pump s n else sendIdle s n

/-! ### Routes (spec/16 R300) -/

/-- The entry of route table `t` for module `dst`. -/
def routeEntry (s : State) (t : Nat) (dst : BitVec 14) : BitVec 16 :=
  (tget (vget (cfgOf s).routes t []) dst.toNat).getD 0

/-- The first of primary, alt1 and alt2 that is valid and whose port is up. -/
def routePort (s : State) (t : Nat) (dst : BitVec 14) : Option Nat :=
  let e := routeEntry s t dst
  let up := fun p => (portOf s p).state == .up
  if bit e 15 && up (bits e 8 4) then some (bits e 8 4)
  else if bit e 14 && up (bits e 4 4) then some (bits e 4 4)
  else if bit e 13 && up (bits e 0 4) then some (bits e 0 4)
  else none

/-- Queues a flit of route table `t` at output port `n` and sends what can go. -/
def enqueue (s : State) (n t : Nat) (f : Flit) : State :=
  let v := (vcOf f.txn.op).toNat
  pump (modPort s n fun p => { p with txQ := vset p.txQ v (vget p.txQ v [] ++ [(BitVec.ofNat 4 t, f)]) }) n

/-- The router's ERROR answer to a flit's source. It carries the destination that was not reached in src_mod, since a transaction
is identified by its destination and its number (R305). -/
def routerError (f : Flit) (code : Nat) : Flit :=
  { link := LinkHdr.zero, data := [], crc := 0,
    txn := { TxnHdr.zero with op := 0x42, srcMod := f.txn.dstMod, dstMod := f.txn.srcMod, txn := f.txn.txn, epoch := f.txn.epoch,
                              ctx := f.txn.ctx, last := true, hops := 63, status := BitVec.ofNat 8 code, addr := f.txn.addr } }

/-- A flit as it leaves the module. -/
def hop (f : Flit) : Flit := { f with txn := { f.txn with hops := f.txn.hops - 1 } }

/-- The router answers the source of a request or of a VC2 flit with UNREACHABLE or HOPS (R300); any other flit is lost. -/
def bounce (s : State) (t : Nat) (f : Flit) (code : Nat) : State :=
  if vcOf f.txn.op = 0 ∨ vcOf f.txn.op = 2 then
    let e := routerError f code
    if s.modId = some f.txn.srcMod then modPort s t fun p => { p with selfBuf := p.selfBuf ++ [e] }
    else match routePort s t e.txn.dstMod with
      | some n => enqueue s n t (hop e)
      | none => s
  else s

/-- A flit that has been counted out of the module is routed by table `t`. -/
def routeOut (s : State) (t : Nat) (f : Flit) : State := match routePort s t f.txn.dstMod with
  | some n => enqueue s n t f
  | none => bounce s t f 4

/-- A flit of this module leaves by route table `t`. -/
def sendFlit (s : State) (t : Nat) (f : Flit) : State := routeOut s t (hop f)

/-! ### Transactions (spec/16 R296, R304 to R306) -/

/-- The data cut into flits of at most 464 bytes; one flit where there is no data. -/
def cut (fuel : Nat) (bs : List Byte) : List (List Byte) :=
  match fuel with
  | 0 => [bs.take 464]
  | k + 1 => if bs.length ≤ 464 then [bs] else bs.take 464 :: cut k (bs.drop 464)

/-- The flits of a transaction. -/
def txnFlits (s : State) (r : TxnReq) (txn : BitVec 16) (epoch : BitVec 8) : List Flit :=
  let parts := cut 141 r.data
  parts.zipIdx.map fun (d, i) =>
    { link := LinkHdr.zero, data := d, crc := 0,
      txn := { op := r.op, srcMod := modIdOf s, dstMod := r.dst, txn := txn, epoch := epoch, ctx := identOf s r.slot.toNat,
               len := BitVec.ofNat 9 d.length, fidx := BitVec.ofNat 8 i, last := decide (i + 1 = parts.length), hops := 63,
               status := 0, sub := 0, rsv := 0, addr := r.addr, arg := r.arg } }

/-- Whether an operation passes the duplicate filter (writes, atomics, signals). -/
def filtered (op : BitVec 8) : Bool := op == 0x02 || op == 0x03 || op == 0x04

/-- Whether a transaction can be sent now: tracking room at its port (spec/03 Table 3.6), at most 2,048 filtered requests to one
destination (R306), and a SIGNAL's earlier writes complete (R304). -/
def canSend (s : State) (r : TxnReq) : Bool :=
  s.modId.isSome &&
  decide ((s.txns.filter fun t => routePort s t.port.toNat t.dst == routePort s r.table.toNat r.dst).length < 2048) &&
  (!filtered r.op || decide ((s.txns.filter fun t => t.dst == r.dst && (t.flits.any fun f => filtered f.txn.op)).length < 2048)) &&
  !(r.after.any fun a => s.txns.any fun t => t.dst == a.1 && t.txn == a.2)

/-- Sends a transaction: the next identifier of its destination, a tracking entry, and its flits. -/
def sendTxn (s : State) (r : TxnReq) : State :=
  let id := (tget s.nextTxn r.dst.toNat).getD 0
  let fs := txnFlits s r id 0
  let s1 := { s with nextTxn := tput s.nextTxn r.dst.toNat (id + 1),
                     txns := s.txns ++ [{ dst := r.dst, txn := id, port := r.table, epoch := 0, reissues := 0, slot := r.slot,
                                          flits := fs, reply := [], use := r.use }] }
  fs.foldl (fun s f => sendFlit s r.table.toNat f) s1

/-- The waiting transactions that can go now, in order. -/
def flushSends (s : State) : State :=
  s.sendWait.foldl (fun s r => if canSend s r then sendTxn s r else { s with sendWait := s.sendWait ++ [r] })
    { s with sendWait := [] }

/-- A transaction of this module: sent, or kept waiting in order. -/
def request (s : State) (r : TxnReq) : State := flushSends { s with sendWait := s.sendWait ++ [r] }

/-- The writes of core `c` to module `m` that have not completed (R304). -/
def writesOf (s : State) (c : BitVec 8) (m : BitVec 14) : List (BitVec 14 × BitVec 16) :=
  (s.txns.filter fun t => t.dst == m && (t.flits.any fun f => f.txn.op == 0x02) && (match t.use with
    | .tile k _ _ _ => k == c
    | _ => false)).map fun t => (t.dst, t.txn)

/-- A SIGNAL to a counter of another module (spec/17 R320). -/
def remoteSignal (s : State) (core : BitVec 8) (slot vid : Nat) (m : BitVec 14) (value : Word) (opId : Option Nat) : State :=
  request s { table := BitVec.ofNat 4 (core.toNat / 16), dst := m, op := 0x04, slot := BitVec.ofNat 6 slot,
              addr := globalAddr m 3 vid, arg := value, data := [], use := .signal core opId, after := writesOf s core m }

/-- A response of this module to a request. -/
def reply (s : State) (t : Nat) (f : Flit) (op status : Nat) (arg : BitVec 64) (data : List Byte) : State :=
  let parts := cut 141 data
  (parts.zipIdx.map fun (d, i) =>
    ({ link := LinkHdr.zero, data := d, crc := 0,
       txn := { TxnHdr.zero with op := BitVec.ofNat 8 op, srcMod := modIdOf s, dstMod := f.txn.srcMod, txn := f.txn.txn,
                                 epoch := f.txn.epoch, ctx := f.txn.ctx, len := BitVec.ofNat 9 d.length,
                                 fidx := BitVec.ofNat 8 i, last := decide (i + 1 = parts.length), hops := 63,
                                 status := BitVec.ofNat 8 status, addr := f.txn.addr, arg := arg } } : Flit)).foldl
    (fun s g => sendFlit s t g) s

end Sys2Proof.Machine
end

