-- ==== Sys2Proof/Machine/SyncOps.lean ====
section
/-! DEFINITION. Counter operations at their home, waiters, leases, and the threads that wake (spec/17, spec/03 Table 3.4). -/

namespace Sys2Proof.Machine

/-! ### Threads that hold and wake (spec/03 Table 3.4, spec/04 R72) -/

/-- The thread leaves SLEEPING; a frozen one returns to READY at CTX_RESUME. -/
def wake (t : Thread) : Thread :=
  { t with hold := .none, state := match t.state with
      | .sleeping => .ready
      | .frozen _ => .frozen false
      | x => x }

/-- The thread goes to SLEEPING. -/
def sleep (t : Thread) : Thread :=
  { t with state := match t.state with
      | .ready => .sleeping
      | .frozen _ => .frozen true
      | x => x }

/-- Writes scalar register `i`: s0 ignores writes (spec/04 Table 4.1). -/
def setS (t : Thread) (i : Nat) (v : Word) : Thread := if i = 0 then t else { t with s := vset t.s i v }

/-- The result of operation `opId` reaches its thread, which issues again. -/
def deliver (t : Thread) (opId sd : Nat) (v : Word) : Thread :=
  if t.hold = .result opId then wake (setS t sd v) else t

/-! ### Signals from engines (spec/04 R75, spec/17 R320, R324) -/

/-- The cluster of a pid. -/
def pidCluster (pid : BitVec 16) : Nat := bits pid 12 4

/-- An operation arrives at a counter's home. -/
def arrive (s : State) (r : SyncReq) : State :=
  { s with syncQ := vset s.syncQ (pidCluster r.pid) (vget s.syncQ (pidCluster r.pid) [] ++ [r]) }

/-- Adds `v` to the counter that a vid of slot `slot` names, from core `core`. A vid with no translation any more has no effect
and is counted in the health log (spec/17 R337). -/
def signalVid (s : State) (core : BitVec 8) (slot vid : Nat) (v : Word) : State :=
  match translate s slot vid with
  | .here pid => arrive s { pid := pid, slot := BitVec.ofNat 6 slot, op := .signal, value := v, src := .engine core }
  | .remote m => remoteSignal s core slot vid m v none
  | .unmapped => logHealth s 0 core.toNat 0x0102 (identOf s slot).toNat vid

/-- The sig counter of an instruction (spec/04 R75). -/
def signalSig (s : State) (core : BitVec 8) (slot : Nat) (sig : Option (BitVec 20)) : State := match sig with
  | some v => signalVid s core slot v.toNat 1
  | none => s

/-! ### Waiters (spec/17 R325, R326) -/

/-- The clusters that hold waiters on a counter. -/
def clustersWaiting (s : State) (pid : BitVec 16) : List Nat :=
  numsBelow 16 fun c => s.waiters.any fun w => w.pid == pid && w.cluster.toNat == c

/-- The home sends a new count, or POISONED, to every cluster that holds waiters. -/
def publish (s : State) (pid : BitVec 16) (count : Option Word) : State :=
  { s with counts := s.counts ++ (clustersWaiting s pid).map fun c => { cluster := BitVec.ofNat 4 c, pid := pid, count := count } }

/-- `s` with counter `pid` set. -/
def setCounter (s : State) (pid : Nat) (c : Counter) : State := { s with counters := tput s.counters pid c }

/-- A stream that is cancelled (spec/12 Table 12.3, R232): its pending slot is cleared and no tile starts. A tile that has landed and
waits for its signal stays where it goes to a home, which has changed, and is dropped where it comes from one. -/
def cancelStream (x : Stream) : Stream := match x.state with
  | .active => { x with state := .cancelling, pending := none, tiles := if bit x.keep 179 then x.tiles else x.tiles.filter fun t => !t.landed }
  | _ => x

/-- A stream that a reset of its context or a fence of its core ends: with no signals, and with nothing left to arm (Table 12.3). -/
def endStream (x : Stream) : Stream :=
  if x.state = .free then x
  else { cancelStream { x with frozen := false } with pending := none, held := 0, quiet := true, tiles := x.tiles.filter fun t => !t.landed }

/-- The local pid of a vid, if it translates to a counter of this module. -/
def pidOf (s : State) (slot vid : Nat) : Option (BitVec 16) := match translate s slot vid with
  | .here p => some p
  | _ => none

/-- done_sid, free_sid and end_sid of a descriptor (spec/12 Table 12.1). -/
def dDone (d : BitVec 512) : Nat := bits d 252 20
def dFree (d : BitVec 512) : Nat := bits d 232 20
def dEnd (d : BitVec 512) : Nat := bits d 212 20

/-- The streams that follow or signal a poisoned counter cancel (spec/12 R231). -/
def cancelStreamsOn (s : State) (slot : Nat) (pid : BitVec 16) : State :=
  { s with cores := s.cores.map fun c =>
      if c.slot = some (BitVec.ofNat 6 slot) then
        { c with streams := c.streams.map fun x =>
            if x.state != .free && (pidOf s slot (dDone x.keep) == some pid || pidOf s slot (dFree x.keep) == some pid)
            then cancelStream x else x }
      else c }

/-- Poisons counter `pid` (spec/17 Tables 17.2, 17.4): the waiters of a LIVE counter are told at once, those of a FROZEN one at
CTX_RESUME. -/
def poisonCounter (s : State) (pid : BitVec 16) : State :=
  match counterOf s pid.toNat with
  | none => s
  | some c =>
    match c.state with
    | .poisoned => s
    | .live => cancelStreamsOn (publish (setCounter s pid.toNat { c with state := .poisoned, last := s.postmark }) pid none)
        c.slot.toNat pid
    | .frozen => cancelStreamsOn (setCounter s pid.toNat { c with state := .poisoned, last := s.postmark }) c.slot.toNat pid

/-- A counter takes a new count: its waiters are told unless it is FROZEN. -/
def setCount (s : State) (pid : BitVec 16) (c : Counter) (v : Word) : State :=
  let s1 := setCounter s pid.toNat { c with count := v, last := s.postmark }
  if c.state = .live then publish s1 pid (some v) else s1

/-! ### Leases (spec/17 R332) -/

/-- The lease table of the counter's home. -/
def leasesOf (s : State) (pid : BitVec 16) : List Lease := vget s.leases (pidCluster pid) []

/-- `s` with the lease table of the counter's home set. -/
def setLeases (s : State) (pid : BitVec 16) (l : List Lease) : State :=
  { s with leases := vset s.leases (pidCluster pid) l }

/-- A leasing TAKE of a thread: its earlier lease on the counter ends; then the oldest returned value, or the count. None
while the table of 512 entries is full. -/
def leaseTake (s : State) (pid : BitVec 16) (c : Counter) (who : Issuer) : Option (State × Word) :=
  let l := (leasesOf s pid).filter fun e => !(e.pid == pid && e.holder == some who)
  match l.find? fun e => e.pid == pid && e.holder.isNone with
  | some e =>
    let rest := l.erase e
    some (setLeases (setCounter s pid.toNat { c with last := s.postmark }) pid (rest ++ [{ e with holder := some who }]), e.value)
  | none =>
    if l.length < 512 then
      some (setLeases (setCount s pid c (c.count + 1)) pid (l ++ [{ pid := pid, value := c.count, holder := some who }]), c.count)
    else none

/-- The thread's leases end (spec/03 R48, spec/17 R332). -/
def endLeases (s : State) (who : Issuer) : State :=
  { s with leases := s.leases.map fun l => l.filter fun e => e.holder != some who }

/-- The leases of a fenced core become return entries, in the order the values were taken. -/
def returnLeases (s : State) (core : BitVec 8) : State :=
  { s with leases := s.leases.map fun l => l.map fun e => match e.holder with
      | some h => if h.core = core then { e with holder := none } else e
      | none => e }

/-! ### The operations (spec/17 Table 17.2) -/

/-- The result of an operation reaches its source: a thread's register and sig (spec/04 R71, R75), a fabric SIGNAL's COMPLETE. -/
def syncDone (s : State) (r : SyncReq) (v : Word) : State :=
  match r.src with
  | .thread core t opId sd _ sig =>
    let s1 := match r.op with
      | .wait | .take | .read => modThread s core.toNat t.toNat fun x => deliver x opId sd.toNat v
      | _ => s
    signalSig s1 core r.slot.toNat sig
  | .fabric port f => reply s port.toNat f 0x41 0 0 []
  | _ => s

/-- An operation that finds its counter FREE or another context's (spec/17 R337). A fabric SIGNAL is answered all the same. -/
def syncStale (s : State) (r : SyncReq) : State :=
  let s1 := logHealth s 0 0xFFF 0x0105 (identOf s r.slot.toNat).toNat r.pid.toNat
  match r.src with
  | .fabric port f => reply s1 port.toNat f 0x41 0 0 []
  | _ => s1

/-- The cluster of the unit that waits. -/
def srcCluster (r : SyncReq) : Nat := match r.src with
  | .thread core _ _ _ _ _ => core.toNat / 16
  | .engine core => core.toNat / 16
  | .walker w => w.core.toNat / 16
  | _ => pidCluster r.pid

/-- The cycles of a WAIT timeout (spec/04 Table 4.9). -/
def tmoCycles (tmo : Nat) : Option Nat := if tmo = 0 then none else some (2 ^ (tmo + 9))

/-- A WAIT that is not satisfied: the waiter is entered and its thread sleeps. -/
def enterWaiter (s : State) (r : SyncReq) : State :=
  match r.src with
  | .thread core t opId sd tmo sig =>
    let w : Waiter := { cluster := BitVec.ofNat 4 (srcCluster r), kind := .thread core t opId sd sig, pid := r.pid,
                        slot := r.slot, target := r.value, timeout := tmoCycles tmo.toNat, since := s.postmark,
                        expired := false }
    modThread { s with waiters := s.waiters ++ [w] } core.toNat t.toNat fun x => if x.hold = .result opId then sleep x else x
  | .walker w =>
    { s with waiters := s.waiters ++ [{ cluster := BitVec.ofNat 4 (srcCluster r), kind := .walker w, pid := r.pid, slot := r.slot,
                                        target := r.value, timeout := none, since := s.postmark, expired := false }] }
  | _ => s

/-- One operation at its counter's home; none where a leasing TAKE must wait for a lease entry. -/
def applySync (s : State) (r : SyncReq) : Option State :=
  match counterOf s r.pid.toNat with
  | none => some (syncStale s r)
  | some c =>
    if c.slot ≠ r.slot then some (syncStale s r)
    else
      let note := fun s => logHealth s 0 0xFFF 0x0403 (identOf s r.slot.toNat).toNat r.pid.toNat
      match r.op with
      | .signal =>
        if c.state = .poisoned then some (syncDone (note s) r 0)
        else some (syncDone (setCount s r.pid { c with added := r.value } (c.count + r.value)) r c.count)
      | .set =>
        if c.state = .poisoned then some (syncDone (note s) r 0) else some (syncDone (setCount s r.pid c r.value) r 0)
      | .poison =>
        if c.state = .poisoned then some (syncDone (note s) r 0) else some (syncDone (poisonCounter s r.pid) r 0)
      | .read => some (syncDone (setCounter s r.pid.toNat { c with last := s.postmark }) r c.count)
      | .take =>
        if c.state = .poisoned then some (syncDone (note s) r (BitVec.allOnes 64))
        else
          match r.src, c.leased && r.value == 1 with
          | .thread core t _ _ _ _, true =>
            match leaseTake s r.pid c { core := core, thread := t } with
            | some (s1, v) => some (syncDone s1 r v)
            | none => none
          | _, _ => some (syncDone (setCount s r.pid c (c.count + r.value)) r c.count)
      | .wait =>
        let s1 := setCounter s r.pid.toNat { c with last := s.postmark }
        if c.state = .poisoned then some (syncDone (note s1) r 0x0403)
        else if c.state = .live ∧ r.value ≤ c.count then some (syncDone s1 r 0)
        else some (enterWaiter s1 r)
      | .revive => some s

/-- The operations on counter `pid` that wait at its home apply, in the order in which they arrived. -/
def applyWaiting (s : State) (pid : BitVec 16) : State :=
  ((vget s.syncQ (pidCluster pid) []).filter (·.pid == pid)).foldl (fun s r =>
    (applySync { s with syncQ := vset s.syncQ (pidCluster pid) ((vget s.syncQ (pidCluster pid) []).erase r) } r).getD s) s

/-- The firmware's signal to a counter of slot `slot`, which it applies at the counter's home before it goes on (R323, R336): after those
that wait there. -/
def signalFw (s : State) (slot vid : Nat) (v : Word) : State :=
  match translate s slot vid with
  | .here pid =>
    let s1 := applyWaiting s pid
    (applySync s1 { pid := pid, slot := BitVec.ofNat 6 slot, op := .signal, value := v, src := .firmware }).getD s1
  | .remote m => remoteSignal s 0 slot vid m v none
  | .unmapped => logHealth s 0 0xFFF 0x0102 (identOf s slot).toNat vid

/-- The count of the counter that a vid names, as the firmware and the walkers read it; 0 with no translation. -/
def countOf (s : State) (slot vid : Nat) : Word := match pidOf s slot vid with
  | some pid => match counterOf s pid.toNat with
    | some c => c.count
    | none => 0
  | none => 0

/-- The value of the last SIGNAL of the counter that a vid names. -/
def addedOf (s : State) (slot vid : Nat) : Word := match (pidOf s slot vid).bind fun pid => counterOf s pid.toNat with
  | some c => c.added
  | none => 0

/-- Whether the counter that a vid names is POISONED. -/
def isPoisoned (s : State) (slot vid : Nat) : Bool := match pidOf s slot vid with
  | some pid => match counterOf s pid.toNat with
    | some c => c.state == .poisoned
    | none => false
  | none => false

/-- A waiter that ends with a status (spec/04 R71): the thread's result and sig. -/
def endWait (s : State) (w : Waiter) (status : Word) : State :=
  match w.kind with
  | .thread core t opId sd sig =>
    signalSig (modThread s core.toNat t.toNat fun x => deliver x opId sd.toNat status) core w.slot.toNat sig
  | _ => s

end Sys2Proof.Machine
end

