-- ==== Sys2Proof/Machine/KvOps.lean ====
section
/-! DEFINITION. Page tables, sequence records, the free list and ATT_STATUS (spec/08). -/

namespace Sys2Proof.Machine

/-! ### Words of an object -/

/-- The little-endian number in `len` bytes at `off` of object `id`; 0 where the object is unknown. -/
def objNum (s : State) (n id off len : Nat) : Nat := match objOf s n id with
  | some o => ofLe (readObj s n o off len).bytes
  | none => 0

/-- Whether those bytes can be read: the object is known and none of them reads as uncorrectable. -/
def objGood (s : State) (n id off len : Nat) : Bool := match objOf s n id with
  | some o => (readObj s n o off len).bad.isEmpty
  | none => false

/-- Writes the low `len` bytes of `v` at `off` of object `id`. -/
def putObj (s : State) (n id off len v : Nat) : State := match objOf s n id with
  | some o => writeObj s n o off (leBytes len v)
  | none => s

/-! ### The KV descriptor (spec/08 Table 8.1) -/

def kvPt (d : BitVec 256) : Nat := bits d 224 32
def kvFl (d : BitVec 256) : Nat := bits d 192 32
def kvTake (d : BitVec 256) : Nat := bits d 172 20
def kvRet (d : BitVec 256) : Nat := bits d 152 20
def kvPool (d : BitVec 256) : Nat := bits d 128 24
def kvObj (d : BitVec 256) : Nat := bits d 96 32
def kvSlotBytes (d : BitVec 256) : Nat := bits d 80 16 * 256
def kvFmt (d : BitVec 256) : Nat := bits d 76 4
def kvSt (d : BitVec 256) : Nat := bits d 74 2
def kvDim (d : BitVec 256) : Nat := 64 * 2 ^ bits d 72 2
def kvHeads (d : BitVec 256) : Nat := bits d 64 8

/-- The KV descriptors that the running plan of slot `n` registered. -/
def kvDescsOf (s : State) (n : Nat) : List (BitVec 256) := match ctxOf s n with
  | some c => c.kvDescs.map (·.1)
  | none => []

/-- The KV descriptors of every plan of slot `n`: those registered, and those of the images it holds. -/
def kvKnown (s : State) (n : Nat) : List (BitVec 256) := match ctxOf s n with
  | some c => kvDescsOf s n ++ c.plans.flatMap fun e => (recsOf e.2.image 0x07).map (kvAt e.2.image)
  | none => []

/-- The page tables of slot `n`, each once. -/
def tablesOf (s : State) (n : Nat) : List Nat := ((kvKnown s n).map kvPt).eraseDups

/-- A migration fences object `id`: new writes to it sleep at their sources (spec/11 Table 11.3). DEDUCED (log 44): a commit that was
accepted before the fence is a write in flight, with what its plan writes. -/
def isFenced (s : State) (n id : Nat) : Bool := (objOf s n id).elim false fun o =>
  o.fenced && !(o.state == .fencing && (ctxOf s n).any (·.commit.isSome))

/-- A migration fences a descriptor's page table or free list: what would write either waits (R140). -/
def kvFenced (s : State) (n : Nat) (d : BitVec 256) : Bool := isFenced s n (kvPt d) || isFenced s n (kvFl d)

/-- A migration fences a page table or a free list of slot `n`. -/
def tablesFenced (s : State) (n : Nat) : Bool := (kvDescsOf s n).any (kvFenced s n)

/-- The descriptor whose page pool is `obj`. -/
def kvByObj (s : State) (n obj : Nat) : Option (BitVec 256) := (kvDescsOf s n).find? fun d => kvObj d == obj

/-! ### The page-table object (spec/08 R140, R141) -/

/-- The sequence record of slot `q`. -/
def seqRecord (s : State) (n pt q : Nat) : BitVec 512 := BitVec.ofNat 512 (objNum s n pt (64 + 64 * q) 64)

def seqLenSid (r : BitVec 512) : Nat := bits r 140 20
def seqTmo (r : BitVec 512) : Nat := bits r 136 4
def seqState (r : BitVec 512) : Nat := bits r 132 4
def seqWindow (r : BitVec 512) : Nat := bits r 64 32
def seqMax (r : BitVec 512) : Nat := bits r 40 24
def seqPt (r : BitVec 512) : Nat := bits r 16 24
def seqRing (r : BitVec 512) : Nat := bits r 0 16

/-- Writes the state of sequence `q`: 0 FREE, 1 ACTIVE, 2 WAITING_PAGES, 3 ENDED. -/
def setSeqState (s : State) (n pt q st : Nat) : State :=
  putObj s n pt (64 + 64 * q) 64 (putBits (seqRecord s n pt q) 132 4 st).toNat

/-- The length of a sequence, bounded by its pages (spec/08 R141). -/
def seqLen (s : State) (n pt q : Nat) : Nat :=
  let r := seqRecord s n pt q
  min (countOf s n (seqLenSid r)).toNat (seqMax r * 128)

/-- nseq and the byte of entry `e` of the entry array (spec/08 R140). -/
def nseqOf (s : State) (n pt : Nat) : Nat := objNum s n pt 8 2
def entryAt (s : State) (n pt e : Nat) : Nat := objNum s n pt 12 4 + 4 * e

/-- The entry index of a sequence's logical page (spec/08 R142, R146). -/
def entryIndex (r : BitVec 512) (page : Nat) : Nat :=
  if seqWindow r = 0 then seqPt r + page else seqPt r + page % (if seqRing r = 0 then 1 else seqRing r)

/-- The page-table entry of a sequence's logical page. -/
def entryOf (s : State) (n pt q page : Nat) : BitVec 32 :=
  BitVec.ofNat 32 (objNum s n pt (entryAt s n pt (entryIndex (seqRecord s n pt q) page)) 4)

/-- Writes that entry. -/
def setEntry (s : State) (n pt q page : Nat) (e : BitVec 32) : State :=
  putObj s n pt (entryAt s n pt (entryIndex (seqRecord s n pt q) page)) 4 e.toNat

/-! ### ATT_STATUS and ATT_EVENTS (spec/08 Table 8.8, R155) -/

/-- Sets bit `b` of ATT_STATUS, with last_slot where `q` names a slot, and counts the setting. -/
def attSet (s : State) (n b : Nat) (q : Option Nat) : State :=
  modCtx s n fun c =>
    let at_ := match b with
      | 0 => 48
      | 1 => 32
      | 3 => 16
      | _ => 0
    let st := putBits c.attStatus b 1 1
    { c with attStatus := match q with
               | some x => putBits st 16 16 x
               | none => st,
             attEvents := putBits c.attEvents at_ 16 (bits c.attEvents at_ 16 + 1) }

/-- ATT_STATUS.waiting follows the sequences that wait. -/
def attWaiting (s : State) (n : Nat) : State :=
  modCtx s n fun c => { c with attStatus := putBits c.attStatus 2 1 (b2n (!c.seqWaits.isEmpty)) }

/-- The tag of the running plan's PLAN_START (spec/13 R252). -/
def planTag (s : State) (n : Nat) : Word := match ctxOf s n with
  | some c => match c.run with
    | some r => r.pkt.tag
    | none => 0
  | none => 0

/-- A sequence has entered ENDED: its event receipt, and ATT_STATUS.ended (spec/08 Table 8.5). -/
def seqEnded (s : State) (n q status : Nat) : State :=
  eventReceipt (attSet s n 3 (some q)) n status (q + 0x8000) (planTag s n)

/-! ### The free list (spec/08 R147 to R149) -/

/-- Writes one page number at the free-list index of the return counter and signals it by 1. -/
def returnPage (s : State) (n : Nat) (d : BitVec 256) (ppn : Nat) : State :=
  let r := (countOf s n (kvRet d)).toNat
  signalFw (putObj s n (kvFl d) (4 * (r % (if kvPool d = 0 then 1 else kvPool d))) 4 ppn) n (kvRet d) 1

/-- The byte of the free list that ticket `k` names, and the page number there. -/
def ticketAt (d : BitVec 256) (k : Word) : Nat := 4 * (k.toNat % (if kvPool d = 0 then 1 else kvPool d))
def ticketPage (s : State) (n : Nat) (d : BitVec 256) (k : Word) : Nat := objNum s n (kvFl d) (ticketAt d k) 4 % 2 ^ 24

/-- The tickets that the firmware keeps return the page they yield once the return counter passes them (R148). -/
def settleTickets (s : State) (n : Nat) : State :=
  match (kvDescsOf s n).head?, ctxOf s n with
  | some d, some c =>
    times c.retTickets.length (fun s =>
      match ctxOf s n with
      | some c =>
        match c.retTickets.find? fun k => decide (k < countOf s n (kvRet d)) with
        | some k => returnPage (modCtx s n fun c => { c with retTickets := c.retTickets.erase k }) n d (ticketPage s n d k)
        | none => s
      | none => s) s
  | _, _ => s

/-- The waiter entries of a walk end. -/
def dropWalkWaiter (s : State) (w : Walk) : State :=
  { s with waiters := s.waiters.filter fun x => !(x.kind == .walker w) }

/-- A tile that waited for a translation goes on: with page `ppn`, or with none (it reads or writes nothing). -/
def resumeTile (s : State) (w : Walk) (ppn : Option (BitVec 24)) : State :=
  modStream s w.core.toNat w.stream.toNat fun x =>
    { x with tiles := x.tiles.map fun t => if t.n = w.tile then { t with walk := false, page := ppn } else t }

/-- A sequence leaves WAITING_PAGES for state `st`: its waiting fetch ends with nothing, and the firmware keeps its ticket. -/
def endSeqWait (s : State) (n pt : Nat) (w : SeqWait) (st : Nat) : State :=
  let s1 := setSeqState s n pt w.seq.toNat st
  let s2 := modCtx s1 n fun c => { c with seqWaits := c.seqWaits.filter (· != w), retTickets := c.retTickets ++ [w.ticket] }
  settleTickets (attWaiting (resumeTile (dropWalkWaiter s2 w.walk) w.walk none) n) n

/-- Every sequence of slot `n` in WAITING_PAGES leaves it for state `st`; while a migration fences the table, none does yet. -/
def endSeqWaits (s : State) (n st : Nat) : State :=
  match ctxOf s n, (kvDescsOf s n).head? with
  | some c, some d => if tablesFenced s n then s else c.seqWaits.foldl (fun s w => endSeqWait s n (kvPt d) w st) s
  | _, _ => s

/-- After a write to memory of slot `n`: the pages that a sequence has written are those since it was last FREE (R152), so a sequence
that software has made FREE has none. -/
def dropFreed (s : State) (n : Nat) : State :=
  if (ctxOf s n).elim true (·.seqHigh.isEmpty) then s
  else (tablesOf s n).foldl (fun s pt =>
    modCtx s n fun c => { c with seqHigh := c.seqHigh.filter fun e => seqState (seqRecord s n pt e.1) != 0 }) s

/-- The context's look-aside entries are invalidated (spec/08 R143). -/
def flushLookAside (s : State) (n : Nat) : State :=
  { s with clusters := s.clusters.map fun c => { c with lookAside := c.lookAside.filter fun e => e.slot.toNat != n } }

/-! ### Page edits and pass boundaries (spec/08 R143, R152, R153, R155) -/

/-- Edit `i` of a packet (Table 8.7). -/
def editAt (p : Packet) (i : Nat) : BitVec 128 := BitVec.ofNat 128 (bits (p.extra.getD (i / 4) 0) (i % 4 * 128) 128)

/-- The edits of a packet. -/
def editsOf (p : Packet) : List (BitVec 128) := (List.range (bits p.param 216 8)).map (editAt p)

/-- Writes an edit's entry. -/
def applyEdit (s : State) (n pt : Nat) (e : BitVec 128) : State :=
  putObj s n pt (entryAt s n pt (seqPt (seqRecord s n pt (bits e 48 15)) + bits e 0 24)) 4 (bits e 64 32)

/-- Applies a packet of edits: the entries, the generation word, the look-aside entries, the receipt. -/
def applyEdits (s : State) (n : Nat) (p : Packet) : State :=
  let pt := bits p.param 224 32
  let s1 := (editsOf p).foldl (fun s e => applyEdit s n pt e) s
  answer (flushLookAside (putObj s1 n pt 0 8 (objNum s1 n pt 0 8 + 1)) n) p 0x61 0 0

/-- The descriptor that a waiting walk belongs to: every layer of a context uses the same table, free list and counters (R137). -/
def waitDesc (s : State) (n : Nat) : Option (BitVec 256) := (kvDescsOf s n).head?

/-- A pass of slot `n` is open. -/
def openPasses (s : State) (n : Nat) : Bool := (ctxOf s n).elim false fun c => !c.pass.isEmpty

/-- A layer's pass is over: its pass counter has reached the target (R143). -/
def layerDone (c : Ctx) (obj : BitVec 32) (count : BitVec 20 → Word) : Bool :=
  c.kvDescs.any fun e => kvObj e.1 == obj.toNat && decide (e.2.2 ≤ count e.2.1)

/-- The open passes of slot `n` are over: their layers' pass counters have reached the targets, or no plan runs. -/
def passOver (s : State) (n : Nat) : Bool := match ctxOf s n with
  | some c => !c.pass.isEmpty && (c.run.isNone || c.pass.all fun obj => layerDone c obj fun v => countOf s n v.toNat)
  | none => false

/-- The walkers of the pass read the generation word again; a change sets table_changed. -/
def checkGeneration (s : State) (n : Nat) (pt : Nat) : State :=
  let g := BitVec.ofNat 64 (objNum s n pt 0 8)
  (List.range 16).foldl (fun s k => match (clusterOf s k).genSeen with
    | some (m, old) =>
      if m.toNat = n then
        let s1 := modCluster s k fun x => { x with genSeen := none }
        if old = g then s1
        else modCtx (attSet s1 n 0 none) n fun c => { c with run := c.run.map fun r => { r with tableChanged := true } }
      else s
    | none => s) s

/-- A page that verification rolled back returns to the free list, and its entry and look-aside entries are cleared. -/
def rollBack (s : State) (n : Nat) (d : BitVec 256) (q page : Nat) : State :=
  let e := entryOf s n (kvPt d) q page
  if bit e 31 then
    let s1 := setEntry (returnPage s n d (bits e 0 24)) n (kvPt d) q page 0
    { s1 with clusters := s1.clusters.map fun c =>
        { c with lookAside := c.lookAside.filter fun l => !(l.slot.toNat == n && l.seq.toNat == q && l.page == page) } }
  else s

/-- The firmware returns the pages at and beyond each sequence's length (R152). An ENDED sequence's pages stay mapped, and a
window's ring pages stay. -/
def rollBackAll (s : State) (n : Nat) (d : BitVec 256) : State := match ctxOf s n with
  | none => s
  | some c => c.seqHigh.foldl (fun s e =>
      let r := seqRecord s n (kvPt d) e.1
      if (seqState r = 1 ∨ seqState r = 2) ∧ seqWindow r = 0 then
        let from_ := ceilDiv (seqLen s n (kvPt d) e.1) 128
        (List.range (e.2 + 1 - from_)).foldl (fun s i => rollBack s n d e.1 (from_ + i)) s
      else s) s

/-- The look-aside entries of slot `n` that the page table no longer holds leave the buffers: a hit may return an old entry until the next
pass boundary, and not beyond it (R154). -/
def dropStale (s : State) (n pt : Nat) : State :=
  let stays := fun (e : LookAside) => decide (e.slot.toNat ≠ n) || entryOf s n pt e.seq.toNat e.page == BitVec.ofNat 32 (2 ^ 31 + e.ppn.toNat)
  { s with clusters := s.clusters.map fun c => { c with lookAside := c.lookAside.filter stays } }

/-- The page edits that wait for the boundary apply, in sequence order (R153). -/
def applyPending (s : State) (n : Nat) : State := match ctxOf s n with
  | some c => c.edits.foldl (fun s p => applyEdits s n p) (modCtx s n fun c => { c with edits := [] })
  | none => s

/-- What happens between two passes of slot `n`: the check of the pass that ends, the edits, then the returns. -/
def endPass (s : State) (n : Nat) : State :=
  let s0 := modCtx s n fun c => { c with pass := [] }
  match waitDesc s n with
  | none => applyPending s0 n
  | some d => settleTickets (rollBackAll (dropStale (applyPending (checkGeneration s0 n (kvPt d)) n) n (kvPt d)) n d) n

end Sys2Proof.Machine
end

