-- ==== Sys2Proof/Machine/Homes.lean ====
section
/-! DEFINITION. The homes of objects: their ranges, their shared-store banks, and reads that fail (spec/11). -/

namespace Sys2Proof.Machine

open Sys2Proof

/-- `s` with entry `id` of slot `n`'s table set. -/
def putEntry (s : State) (n id : Nat) (o : Obj) : State := modCtx s n fun c => { c with objs := tput c.objs id o }

/-- The modules that hold bind entries are told, each once. -/
def tellBinders (s : State) (o : Obj) (msg : BitVec 14 → Output) : State := o.binders.eraseDups.foldl (fun s m => emit s (msg m)) s

/-- A migration ends at the old home: writers wake, another module releases the new home, and the receipt carries `status`. A notice
whose two homes are one says so (log 44). -/
def migrationBack (s : State) (n id : Nat) (o : Obj) (m : Migration) (status : Nat) : State :=
  let s1 := putEntry s n id { o with state := .homed, fenced := false, mig := none }
  let o1 := if m.newMod = o.homeMod then o else { o with binders := o.binders ++ [m.newMod] }
  answer (tellBinders s1 o1 fun b => .commitNotice b (identOf s n) (homeAddr o) (homeAddr o)) m.pkt 0x12 status 0

/-! ### Reads that fail (spec/11 R213, R218, R222; spec/05 R102) -/

/-- The banks of partition `n` in service. -/
def bankMembers (s : State) (n : Nat) : List Nat :=
  ((List.range 4).map fun i => 4 * n + i).filter fun b => !s.retiredBanks.any fun x => x.toNat == b
/-- The bank that holds shared-store offset `a` (spec/11 R213). -/
def sharedBank (s : State) (a : Nat) : Nat :=
  let n := a / (96 * 2 ^ 20)
  let ms := bankMembers s n
  ms.getD (a % (96 * 2 ^ 20) / 256 % (if ms.isEmpty then 1 else ms.length)) (4 * n)

/-- The health-log source of byte `off` of a home, and its place: the page of an LPDDR6 sub-channel, else the address (spec/18 Table 18.2;
spec/11 R218, R221). -/
def homeSource (s : State) (o : Obj) (off : Nat) : Nat :=
  if o.tier = 0 then 0x200 + (unitPage o off).1
  else if o.tier = 1 then 0x300 + sharedBank s (o.off + off)
  else 0xFFF
def homeWhere (o : Obj) (off : Nat) : Nat := if o.tier = 0 then (unitPage o off).2 else o.off + off

/-- A corrected error at `off` of object `o` is counted (R218). -/
def noteSoft (s : State) (n : Nat) (o : Obj) (off : Nat) : State :=
  risk (logHealth s 1 (homeSource s o off) 0 (identOf s n).toNat (homeWhere o off)) (if o.tier = 0 then 0 else 1)
    (if o.tier = 0 then 1024 else 4096)

/-- The corrected errors of a read of a home on this module, by the bytes' offsets. -/
def noteSofts (s : State) (n : Nat) (o : Obj) (soft : List Nat) : State :=
  if o.isBind then s else soft.foldl (fun s i => noteSoft s n o i) s

/-- The home has a line in bank `b`. -/
def inBank (s : State) (o : Obj) (b : Nat) : Bool :=
  !o.isBind && o.tier == 1 && (linesOf 256 (homeRange o).1 (homeRange o).2).any fun l => sharedBank s (256 * l) == b

/-- A shared-store bank is retired (R222): the objects with a line in it enter LOST, and a migration of one ends. -/
def retireBank (s : State) (b : Nat) : State :=
  if s.retiredBanks.any fun x => x.toNat == b then s
  else
    let hit := (List.range 64).flatMap fun n => match ctxOf s n with
      | some c => (c.objs.filter fun e => inBank s e.2 b).map fun e => (n, e.1)
      | none => []
    let s1 := logHealth { s with retiredBanks := s.retiredBanks ++ [BitVec.ofNat 6 b],
                                 cache := s.cache.filter fun l => l.bank.toNat != b } 5 (0x300 + b) 0 0xFFFF 0
    hit.foldl (fun s h => match objOf s h.1 h.2 with
      | some o =>
        let s2 := match o.mig with
          | some m => migrationBack s h.1 h.2 o m 0x0500
          | none => s
        putEntry s2 h.1 h.2 { o with state := .lost, fenced := false, mig := none }
      | none => s) s1

/-- An uncorrectable word of the shared store: the second at one address retires its bank. -/
def hitShared (s : State) (a : Nat) : State :=
  if s.bankHits.contains (a / 8) then retireBank s (sharedBank s a) else { s with bankHits := s.bankHits ++ [a / 8] }

/-- A home read uncorrectable at `off` of object `o`: health log, risk input, a poisoned host line, a hit at a shared-store word. -/
def noteBad (s : State) (n : Nat) (o : Obj) (off : Nat) : State :=
  let s1 := risk (logHealth s 2 (homeSource s o off) 0x0500 (identOf s n).toNat (homeWhere o off)) 5 (48 * 65536)
  match placeOf o with
  | .shared a => hitShared s1 (a + off)
  | .host a => if s.hostPoison.contains ((a + off) / 64) then poisonData s1 n ((a + off) / 64 * 64) else s1
  | _ => s1

end Sys2Proof.Machine
end

