-- ==== Sys2Proof/Machine/PlanOps.lean ====
section
/-! DEFINITION. How plans and steps end: halting threads, cancelling streams, aborts, fences, instruction and data faults, and
members that are lost (spec/03 R54, R55; spec/04 R77; spec/05 R102; spec/13 R253, R254; spec/18 R344 to R348). -/

namespace Sys2Proof.Machine

/-! ### Votes (spec/16 R313, spec/18 R344) -/

/-- The surviving members of a list, by position. -/
def surviving (m : Members) : List Nat :=
  numsBelow m.now.length fun i => !m.excluded.contains i

/-- This module's position in a list. -/
def ownPos (s : State) (m : Members) : Option Nat := match s.modId with
  | some id => firstBelow m.now.length fun i => m.now[i]? == some id
  | none => none

/-- The member at position `i`. -/
def memberAt (m : Members) (i : Nat) : BitVec 14 := m.now.getD i 0

/-- The lowest set bit of `j > 0`, as a power of two. -/
def lowBit (j : Nat) : Nat := 2 ^ ((firstBelow 15 fun b => j.testBit b).getD 0)

/-- The parent of tree index `j > 0`, and the children of tree index `j` among `n` (spec/16 R310). -/
def parentOf (j : Nat) : Nat := j - lowBit j
def childrenOf (j n : Nat) : List Nat :=
  ((List.range 15).map (2 ^ ·)).filterMap fun d =>
    if (j = 0 ∨ d < lowBit j) ∧ j + d < n then some (j + d) else none

/-- The members over which the running step's trees are formed, and the positions lost since it began. -/
def stepMembers (m : Members) : List Nat := numsBelow m.now.length fun i => !m.base.contains i
def lostNow (m : Members) (i : Nat) : Bool := m.excluded.contains i

/-- The nodes that node `j` still waits for: a lost child's surviving children take its place. -/
def kidsDue (lost has : Nat → Bool) (n : Nat) : Nat → Nat → List Nat
  | 0, _ => []
  | k + 1, j => (childrenOf j n).flatMap fun c => if has c then [] else if lost c then kidsDue lost has n k c else [c]

/-- The node that takes node `j`'s partial: its parent, or the parent's parent where it is lost; 0 for the owner. -/
def liveParent (lost : Nat → Bool) : Nat → Nat → Nat
  | 0, _ => 0
  | k + 1, j => if j = 0 then 0 else
      let p := parentOf j
      if p ≠ 0 ∧ lost p then liveParent lost k p else p

/-- The membership list that a context's votes run over: the lowest-numbered list that its collectives name. -/
def voteListOf (c : Ctx) : Option (Nat × Members) :=
  let used := c.colls.map fun r => bits r 234 4
  (numsBelow 16 used.contains).findSome? fun l => match tget c.lists l with
    | some m => some (l, m)
    | none => none

/-- Sends a vote to the member at position `i`, by route table 0 (spec/16 R300). -/
def sendVoteTo (s : State) (m : Members) (i : Nat) (v : VoteMsg) : State :=
  match routePort s 0 (memberAt m i) with
  | some p => emit s (.vote (BitVec.ofNat 4 p) (memberAt m i) v)
  | none => s

/-- This module's index in the vote tree of the running step. -/
def voteIndex (s : State) (m : Members) : Option Nat := (ownPos s m).map fun i => (stepMembers m).findIdx (· == i)

/-- The vote tree's position of an index, and whether it is lost. -/
def voteAt (m : Members) (j : Nat) : Nat := (stepMembers m).getD j 0
def voteLost (m : Members) (j : Nat) : Bool := lostNow m (voteAt m j)

/-- The index that takes position 0's part: its own while it survives, else the lowest that does (MODEL). -/
def voteRoot (m : Members) : Nat := (firstBelow (stepMembers m).length fun j => !voteLost m j).getD 0

/-- The indices below index `j`: a lost child's surviving children take its place, and the acting root has those of index 0. -/
def voteKids (m : Members) (has : Nat → Bool) (j : Nat) : List Nat :=
  let n := (stepMembers m).length
  kidsDue (voteLost m) has n 16 j ++
  (if j ≠ 0 ∧ j = voteRoot m then (kidsDue (voteLost m) has n 16 0).filter (· != j) else [])

/-- The index above index `j`; none at the root. -/
def voteParent (m : Members) (j : Nat) : Option Nat :=
  if j = voteRoot m then none
  else
    let p := liveParent (voteLost m) 16 j
    some (if p = 0 then voteRoot m else p)

/-- Sends a message down the vote tree from this module's place. -/
def sendDown (s : State) (m : Members) (v : VoteMsg) : State :=
  match voteIndex s m with
  | some j => (voteKids m (fun _ => false) j).foldl (fun s k => sendVoteTo s m (voteAt m k) { v with down := true }) s
  | none => s

/-- Sends a message one step up the vote tree; the root sends an abort down. -/
def sendUp (s : State) (m : Members) (v : VoteMsg) : State :=
  match voteIndex s m with
  | some j => match voteParent m j with
    | some p => sendVoteTo s m (voteAt m p) v
    | none => if v.abort then sendDown s m v else s
  | none => s

/-! ### Threads and streams of a plan -/

/-- The physical cores on which slot `n`'s running plan is placed. -/
def planCores (s : State) (n : Nat) : List Nat := match ctxOf s n with
  | some c => match c.run with
    | some r => r.placed.map (·.core.toNat)
    | none => []
  | none => []

/-- A thread that halts (spec/03 Table 3.4: any but IDLE). -/
def haltThread (t : Thread) : Thread := if t.state = .idle then t else { t with state := .halted, hold := .none }

/-- The waiter entries of core `c`'s threads are removed. -/
def dropThreadWaiters (s : State) (c : Nat) : State :=
  { s with waiters := s.waiters.filter fun w => match w.kind with
      | .thread core _ _ _ _ => core.toNat != c
      | _ => true }

/-- Every thread of core `c` halts. -/
def haltCore (s : State) (c : Nat) : State :=
  dropThreadWaiters (modCore s c fun x => { x with threads := x.threads.map haltThread }) c

/-- Every stream of core `c` is cancelled. -/
def cancelCore (s : State) (c : Nat) : State := modCore s c fun x => { x with streams := x.streams.map cancelStream }

/-- Every stream of core `c` ends with no signals. -/
def endStreams (s : State) (c : Nat) : State := modCore s c fun x => { x with streams := x.streams.map endStream }

/-- The clocks of a fenced core go off once all its streams are FREE (spec/03 R55). -/
def gateFenced (c : Core) : Core :=
  if c.fenced ∧ c.streams.toList.all (fun x => x.state == .free) then { c with clockOff := true } else c

/-- The stalled job of slot `n` at the head of a codec direction (spec/14 R270). -/
def stalledJob (n : Nat) (l : CodecLane) : Option CodecJob :=
  if l.stalled then match l.queue with
    | j :: _ => if j.slot.toNat = n then some j else none
    | [] => none
  else none

/-- A codec direction drops its stalled job of slot `n` (spec/14 R270). -/
def dropStalled (n : Nat) (l : CodecLane) : CodecLane :=
  if (stalledJob n l).isSome then { l with queue := l.queue.tail, stalled := false } else l

/-- A dropped job's stream tile ends with nothing moved, and its fetch tag is free. -/
def dropCodecTile (s : State) (j : CodecJob) : State := match j.for_ with
  | .instr _ => s
  | .stream k t =>
    modCore (modStream s j.core.toNat k.toNat fun x => { x with tiles := x.tiles.filter fun e => e.n != t }) j.core.toNat
      fun c => { c with tags := c.tags - 1 }

/-- The stalled jobs of slot `n` end with no output. -/
def dropStalledJobs (s : State) (n : Nat) : State :=
  let js := s.clusters.toList.flatMap fun k => (stalledJob n k.enc).toList ++ (stalledJob n k.dec).toList
  js.foldl dropCodecTile
    { s with clusters := s.clusters.map fun k => { k with enc := dropStalled n k.enc, dec := dropStalled n k.dec } }

/-! ### Aborting a step (spec/18 R344) -/

/-- At the STEP_COMMIT of the step that took it a satchel is complete, or its slot is invalid (spec/18 R352); the SECURE_NOW packets
that wait for it are answered. -/
def settleSatchels (s : State) (n : Nat) : State :=
  match ctxOf s n with
  | none => s
  | some c =>
    match c.satchels.find? fun x => x.valid && !x.complete with
    | none => s
    | some x =>
      let full := decide (x.expected ≤ x.got)
      let s1 := modCtx s n fun c =>
        { c with securing := [],
                 satchels := c.satchels.map fun y => if y.valid && !y.complete then { y with complete := full, valid := full } else y }
      c.securing.foldl (fun s p => answer s p 0x81 (if full then 0 else 0x0303) (x.step.toNat % 2 ^ 16)) s1

/-- The firmware's waiter for slot `n`'s STEP_COMMIT ends. -/
def dropFirmwareWaiter (s : State) (n : Nat) : State :=
  { s with waiters := s.waiters.filter fun w => match w.kind with
      | .firmware k => k.toNat != n
      | _ => true }

/-- The open step of slot `n` closes, and its STEP_COMMIT is answered. -/
def closeStep (s : State) (n : Nat) (p : Packet) (status detail : Nat) : State :=
  let s1 := modCtx (settleSatchels (dropFirmwareWaiter s n) n) n fun c =>
    { c with stepOpen := false, aborted := none, commit := none, voteSent := false, votes := [], lateBit := false }
  answer s1 p 0x25 status detail

/-- Closes an aborted step with its STEP_COMMIT's answer CANCELLED. -/
def answerCancelled (s : State) (n : Nat) (p : Packet) (detail : Nat) : State := closeStep s n p 0x0400 detail

/-- The open step of slot `n` aborts with `detail`: it is discarded, and a STEP_COMMIT already taken is answered CANCELLED. -/
def dropStep (s : State) (n detail : Nat) : State :=
  match ctxOf s n with
  | none => s
  | some c =>
    if !c.stepOpen || c.aborted.isSome then s
    else
      let s1 := modCtx s n fun c =>
        { c with aborted := some (BitVec.ofNat 16 detail), rerun := true }
      match c.commit with
      | some (p, _) => answerCancelled s1 n p detail
      | none => s1

/-- A step that ends here aborts, and sends ABORT up the vote tree at once. -/
def abortStep (s : State) (n detail : Nat) : State :=
  match ctxOf s n with
  | none => s
  | some c =>
    if !c.stepOpen || c.aborted.isSome then s
    else
      let s1 := match voteListOf c with
        | some (l, m) =>
          sendUp s m { ctx := c.ident, list := BitVec.ofNat 4 l, fromPos := (ownPos s m).getD 0, down := false, abort := true,
                       detail := BitVec.ofNat 16 detail, flagged := 0, part := false, lost := false }
        | none => s
      dropStep s1 n detail

/-! ### Ending a plan (spec/13 R253, R254) -/

/-- The running plan of slot `n` is ending, or there is none: what its engines still complete is discarded (spec/13 R254). -/
def planEnding (s : State) (n : Nat) : Bool := match (ctxOf s n).bind (·.run) with
  | some r => r.ending.isSome
  | none => true

/-- The effects of PLAN_CANCEL on threads, streams, page waits and stalled codec jobs. -/
def cancelPlanWork (s : State) (n : Nat) : State :=
  let s1 := (planCores s n).foldl (fun s c => cancelCore (haltCore s c) c) s
  endSeqWaits (dropStalledJobs s1 n) n 1

/-- How a plan ends for a cause that comes now: an instruction fault that the firmware has not acted on yet came first (spec/04 R77). -/
def endingOf (r : Running) (status detail : Nat) : Ending := match r.fault with
  | some f => { status := 0x0400, detail := 0x0100 + f.code }
  | none => { status := BitVec.ofNat 16 status, detail := BitVec.ofNat 16 detail }

/-- The running plan of slot `n` ends with a status and a detail, as PLAN_CANCEL does; the first cause stands. The open step
aborts with `stepDetail`. -/
def endPlan (s : State) (n status detail stepDetail : Nat) : State :=
  match ctxOf s n with
  | none => s
  | some c =>
    match c.run with
    | none => s
    | some r =>
      if r.ending.isSome then s
      else
        let s1 := modCtx s n fun c =>
          { c with run := c.run.map fun r => { r with ending := some (endingOf r status detail) } }
        abortStep (cancelPlanWork s1 n) n (if r.fault.isSome then 0 else stepDetail)

/-- The resident slot whose plan runs on core `c`. -/
def slotOfCore (s : State) (c : Nat) : Option Nat := ((coreOf s c).slot).map BitVec.toNat

/-- The context that the health log names beside core `c`: that of the plan on the core (spec/18 Table 18.2). -/
def coreCtx (s : State) (c : Nat) : Nat := ((slotOfCore s c).map fun k => (identOf s k).toNat).getD 0xFFFF

/-! ### Fences (spec/03 R54, R55; spec/17 R333) -/

/-- The counters that `own` picks are poisoned. -/
def poisonWhere (s : State) (own : Nat → Counter → Bool) : State :=
  (s.counters.filter fun e => own e.1 e.2).foldl (fun s e => poisonCounter s (BitVec.ofNat 16 e.1)) s

/-- What a fence does to one core: threads halt, leases return, owned counters are poisoned, streams end with no signals, its plan ends,
and its clocks go off where no stream is left. -/
def fenceOne (s : State) (c : Nat) : State :=
  let s1 := modCore (haltCore s c) c fun x => { x with fenced := true }
  let s2 := poisonWhere (returnLeases s1 (BitVec.ofNat 8 c)) fun _ k => k.owner.toNat == c
  let s3 := modCore (endStreams s2 c) c gateFenced
  match slotOfCore s c with
  | some n => endPlan s3 n 0x0400 0x0003 0
  | none => s3

/-- A core fence during operation: health log, event receipt on the management ring, risk input. -/
def fenceCore (s : State) (c : Nat) : State :=
  if (coreOf s c).fenced then s
  else
    let s1 := risk (logHealth (fenceOne s c) 4 c 0 (coreCtx s c) 0) 6 (64 * 65536)
    eventReceipt s1 64 0 (0x0B00 + c) 0

/-- A whole-cluster fence: its 16 cores, each logged under its name, the counters homed there, and one event receipt. -/
def fenceCluster (s : State) (k : Nat) : State :=
  let s1 := (List.range 16).foldl (fun t i => let c := 16 * k + i
    if (coreOf t c).fenced then t else logHealth (fenceOne t c) 4 c 0 (coreCtx s c) 0) s
  let s2 := poisonWhere (modCluster s1 k fun x => { x with syncFenced := true }) fun pid _ => pid / 4096 == k
  eventReceipt (risk s2 6 (64 * 65536)) 64 0 (0x0C00 + k) 0

/-! ### Instruction and data faults (spec/04 R77; spec/05 R102) -/

/-- The fault that the plan's receipt will carry: the first; of two at one postmark, that of the lowest core and thread. -/
def worseFault (old : Option FaultNote) (new : FaultNote) : FaultNote := match old with
  | none => new
  | some f =>
    if f.at_ = new.at_ ∧ new.core.toNat * 32 + new.thread.toNat < f.core.toNat * 32 + f.thread.toNat then new else f

/-- The thread that faulted, and its instruction, in the health log: pc in bits 12 to 0, thread in bits 17 to 13 (spec/18 Table 18.2
names no layout: DESIGN CHOICE, log entry 138). -/
def whereOf (pc thread : Nat) : Nat := pc + 2 ^ 13 * thread

/-- An instruction fault of a thread: it halts, and the fault is logged. The other threads go on until the firmware ends the plan, with
CANCELLED and 0x0100 plus the code (`settleFault`). -/
def instrFault (s : State) (u : Issuer) (pc code : Nat) : State :=
  let s1 := modThread s u.core.toNat u.thread.toNat haltThread
  let s2 := logHealth s1 3 u.core.toNat code (coreCtx s u.core.toNat) (whereOf pc u.thread.toNat)
  match slotOfCore s u.core.toNat with
  | some k => modCtx s2 k fun c =>
      { c with run := c.run.map fun r =>
          { r with fault := some (worseFault r.fault { core := u.core, thread := u.thread, code := BitVec.ofNat 16 code, at_ := s.postmark }) } }
  | none => s2

/-- An instruction fault of slot `n`'s running plan waits for the firmware. -/
def faultDue (s : State) (n : Nat) : Bool := match (ctxOf s n).bind (·.run) with
  | some r => r.fault.isSome && r.ending.isNone
  | none => false

/-- The firmware ends a plan of which a thread has faulted. -/
def settleFault (s : State) (n : Nat) : State := if faultDue s n then endPlan s n 0x0400 0 0 else s

/-- An uncorrectable local-store word at `addr` of core `c` is logged with the instruction that read it, and the second error there
fences the core. -/
def noteHardLs (s : State) (c addr inst : Nat) : State :=
  let again := (coreOf s c).hardAt.contains addr
  let s1 := risk (logHealth s 2 c 0x0500 (coreCtx s c) (addr + 2 ^ 21 * inst)) 5 (48 * 65536)
  let s2 := modCore s1 c fun x => { x with hardAt := if again then x.hardAt else x.hardAt ++ [addr] }
  if again then fenceCore s2 c else s2

/-- The plan on core `c` ends with DATA_ERROR. -/
def lsPlanEnd (s : State) (c : Nat) : State := match slotOfCore s c with
  | some k => endPlan s k 0x0500 0 0
  | none => s

/-- An uncorrectable local-store word at `addr` of core `c`, read by instruction `inst` (`whereOf`; 0 for a stream): DATA_ERROR, log,
and a fence at the second error there, whose CANCELLED comes after DATA_ERROR and does not replace it (DESIGN CHOICE, log entry 126). -/
def hardLsError (s : State) (c addr inst : Nat) : State := noteHardLs (lsPlanEnd s c) c addr inst

/-- A corrected local-store word. -/
def softLsError (s : State) (c addr : Nat) : State := risk (logHealth s 1 c 0 (coreCtx s c) addr) 1 4096

/-- The errors that an instruction met in the local store of core `c`. -/
def lsErrors (s : State) (c inst : Nat) (errs : List LsError) : State :=
  errs.foldl (fun s e => if e.hard then hardLsError s c (e.addr / 8 * 8) inst else softLsError s c (e.addr / 8 * 8)) s

/-- An uncorrectable read of a home, or a LOST object (spec/11 R218, R222): the plan ends with DATA_ERROR. -/
def dataError (s : State) (n source loc : Nat) : State :=
  endPlan (risk (logHealth s 2 source 0x0500 (identOf s n).toNat loc) 5 (48 * 65536)) n 0x0500 0 0

/-- A read of an object by a unit of the plan failed: a home here is noted, a LOST one only ends the plan, and another module notes its
own. -/
def homeError (s : State) (n : Nat) (o : Obj) (off : Nat) : State :=
  endPlan (if o.isBind || o.state == .lost then s else noteBad s n o off) n 0x0500 0 0

/-- A unit writes an object; an access to a LOST one ends the plan (spec/11 R222). -/
def writeHome (s : State) (n : Nat) (o : Obj) (off : Nat) (bs : List Byte) : State :=
  if o.state = .lost then homeError s n o off else writeObj s n o off bs

/-! ### Lost members (spec/18 R345, R348) -/

/-- The context's lists exclude the lost module; the running step will report PEER_LOST. -/
def excludeMember (s : State) (n : Nat) (lost : BitVec 14) : State :=
  modCtx s n fun c =>
    let holds := c.lists.any fun e => e.2.now.contains lost
    { c with stepLost := c.stepLost || (holds && c.stepOpen),
             lists := c.lists.map fun e =>
               (e.1, { e.2 with excluded := e.2.excluded ++
                        (numsBelow e.2.now.length fun i => e.2.now[i]? == some lost && !e.2.excluded.contains i) }) }

/-- Module `lost` takes no new home any more: migrations to it end at the old home with PEER_LOST (spec/11 Table 11.3), and what it was
sending here is released. -/
def dropMigrations (s : State) (n : Nat) (lost : BitVec 14) : State := match ctxOf s n with
  | none => s
  | some c => c.objs.foldl (fun s e => match e.2.mig with
      | some m => if m.newMod = lost ∧ e.2.state ≠ .committing then migrationBack s n e.1 e.2 m 0x0402 else s
      | none => s) (modCtx s n fun c => { c with incoming := c.incoming.filter fun e => BitVec.ofNat 14 (bits e.2.1 50 14) != lost })

/-- A module is declared lost: MEMBER_LOST goes to every other member of each list that holds it (R345). -/
def declareLost (s : State) (lost : BitVec 14) : State :=
  if s.lostMods.contains lost then s
  else
    let s0 := (List.range 64).foldl (fun s n => dropMigrations s n lost)
      (logHealth { s with lostMods := s.lostMods ++ [lost] } 7 0xFFF 0x0402 0xFFFF lost.toNat)
    (List.range 64).foldl (fun s n =>
      match ctxOf s n with
      | none => s
      | some c =>
        let told := (c.lists.filter fun e => e.2.now.contains lost).flatMap fun e =>
          (surviving e.2).map (memberAt e.2)
        let dests := (told.filter fun m => m != lost && some m != s.modId).eraseDups
        excludeMember (dests.foldl (fun s m => emit s (.memberLost m c.ident lost)) s) n lost) s0

/-- A home's module is lost to slot `n`'s plan (R348): the plan ends PEER_LOST and its step aborts with detail 3. -/
def homeLost (s : State) (n : Nat) : State := endPlan s n 0x0402 0 3

end Sys2Proof.Machine
end

