-- ==== Sys2Proof/Machine/Operands.lean ====
section
/-! DEFINITION. The operand forms of tile instructions: header and body fields, registers, and the checks of an instruction at
issue (spec/04 Tables 4.1 to 4.13, spec/03 Table 3.3). -/

namespace Sys2Proof.Machine

/-! ### Fields -/

/-- The header (spec/04 Table 4.2). -/
def iClass (w : Word) : Nat := bits w 60 4
def iOp (w : Word) : Nat := bits w 56 4
def iPneg (w : Word) : Bool := bit w 55
def iPred (w : Word) : Nat := bits w 52 3
def iSig (w : Word) : Nat := bits w 47 5

/-- Whether class.op is in Table 4.4. -/
def opDefined (w : Word) : Bool :=
  let o := iOp w
  match iClass w with
  | 0 => o ≤ 8
  | 1 => o ≤ 4
  | 2 => o ≤ 12
  | 3 => o ≤ 9
  | 4 => o ≤ 3
  | 5 => o ≤ 5
  | 6 => o ≤ 2
  | 7 => o ≤ 1
  | _ => false

/-! ### Registers (spec/04 Table 4.1) -/

/-- s[i], and s[i][31:0] as a number; a[i] as a byte offset; p[i], where p0 reads as 1. -/
def sreg (t : Thread) (i : Nat) : Word := vget t.s i 0
def sreg32 (t : Thread) (i : Nat) : Nat := (sreg t i).toNat % 2 ^ 32
def areg (t : Thread) (i : Nat) : Nat := (vget t.a i 0).toNat
def preg (t : Thread) (i : Nat) : Bool := i == 0 || bit t.p i

/-- Writes an address register, and a predicate: p0 ignores writes. -/
def setA (t : Thread) (i : Nat) (v : Word) : Thread := { t with a := vset t.a i (v.setWidth 32) }
def setP (t : Thread) (i : Nat) (b : Bool) : Thread := if i = 0 then t else { t with p := putBits t.p i 1 (b2n b) }

/-- The predicate test of R61. -/
def passes (t : Thread) (w : Word) : Bool := preg t (iPred w) != iPneg w

/-- The virtual identifier that sig names (spec/04 Table 4.2). -/
def sigOf (t : Thread) (w : Word) : Option (BitVec 20) :=
  if iClass w = 0 ∨ iSig w = 0 then none else some ((sreg t (iSig w)).setWidth 20)

/-! ### Faults (spec/04 Table 4.13): the lowest code of a list is reported -/

/-- A condition and its code. -/
def chk (bad : Bool) (code : Nat) : List Nat := if bad then [code] else []

/-- The end of the region that holds a local-store offset (spec/03 Table 3.3). -/
def regionEnd (a : Nat) : Nat :=
  if a < 0x100000 then 0x100000 else if a < 0x180000 then 0x180000 else if a < 0x1E0000 then 0x1E0000 else 0x200000

/-- An access by address to `len` bytes from `a`: LS_RANGE, LS_ALIGN, LS_REGION. -/
def lsCheck (a len : Nat) : List Nat :=
  chk (0x200000 ≤ a || regionEnd a < a + len) 2 ++ chk (a % 64 != 0) 3 ++ chk (0x100000 ≤ a && a < 0x1E0000) 4

/-- The same for a unit that reaches the operand buffers alone, or the line buffers and scratch region alone. -/
def lsCheckOperand (a len : Nat) : List Nat := lsCheck a len ++ chk (0x1E0000 ≤ a && a < 0x200000) 4
def lsCheckScratch (a len : Nat) : List Nat := lsCheck a len ++ chk (a < 0x1E0000) 4

/-- Reserved format codes, and those that take a block scale (spec/02 Table 2.3). -/
def fmtReserved (f : Nat) : Bool := decide (10 < f)
def scalable (f : Nat) : Bool := decide (3 ≤ f ∧ f ≤ 9)
def narrow (f : Nat) : Bool := decide (5 ≤ f ∧ f ≤ 7)

/-- What bits 0 to `n − 1` of the body hold. -/
def lowZero (w : Word) (n : Nat) : Bool := bits w 0 n == 0

/-- The bytes of `n` elements with their scale bytes, where the scale type has them (spec/04 R67). -/
def operandBytes (code st n : Nat) : Nat :=
  if st = 0 then elemBytes code n else roundUp (elemBytes code n) 64 + ceilDiv n 32

/-! ### CTL (spec/04 Table 4.5) -/

def cF (w : Word) : Bool := bit w 46
def cRd (w : Word) : Nat := bits w 41 5
def cRs1 (w : Word) : Nat := bits w 36 5
def cSub (w : Word) : Nat := bits w 32 4
def cImm (w : Word) : Nat := bits w 0 32
def cPd (w : Word) : Nat := bits w 44 3
def cCond (w : Word) : Nat := bits w 41 3
def cIsImm (w : Word) : Bool := bit w 35
def cRix (w : Word) : Nat := bits w 42 5
def cRcnt (w : Word) : Nat := bits w 37 5
def cEndoff (w : Word) : Nat := bits w 16 16
def cCnt (w : Word) : Nat := bits w 0 16
def cOff (w : Word) : Nat := bits w 0 13

/-- The immediate, sign-extended to 64 bits. -/
def cSext (w : Word) : Word := (w.setWidth 32).signExtend 64

/-- Fields that a CTL operation does not use, or that it reserves. The cnt of a LOOP whose rcnt is not 0, and the imm of a TAG whose rs
is not 0, may hold anything (DESIGN CHOICE, log entry 128). -/
def ctlReserved (w : Word) : Bool :=
  iSig w != 0 ||
  match iOp w with
  | 2 => decide (0xC ≤ cSub w) || (cF w && (decide (16 ≤ cRd w) || decide (16 ≤ cRs1 w))) || bits w 5 27 != 0
  | 3 => decide (0xC ≤ cSub w) || (cF w && (decide (16 ≤ cRd w) || decide (16 ≤ cRs1 w)))
  | 4 => cPd w == 0 || decide (6 ≤ cCond w) || bits w 32 3 != 0 || (!cIsImm w && bits w 5 27 != 0)
  | 5 => bits w 32 5 != 0
  | 7 => cOff w == 0 || bits w 13 34 != 0
  | 8 => bits w 32 10 != 0
  | _ => bits w 0 47 != 0

/-! ### MMA (spec/04 Table 4.6) -/

def mFmtA (w : Word) : Nat := bits w 43 4
def mFmtB (w : Word) : Nat := bits w 39 4
def mAa (w : Word) : Nat := bits w 35 4
def mAb (w : Word) : Nat := bits w 31 4
def mAcc (w : Word) : BitVec 3 := BitVec.ofNat 3 (bits w 28 3)
def mSta (w : Word) : Nat := bits w 22 2
def mStb (w : Word) : Nat := bits w 20 2
def mKd (w : Word) : Nat := bits w 18 2
def mSrs (w : Word) : Nat := bits w 13 5
def mK (w : Word) : Nat := bits w 6 5

/-- A floating-point operand format with its scale type (spec/05 Table 5.1, row 1). -/
def floatOperand (f st : Nat) : Bool :=
  ((f == 1 || f == 2) && st == 0) || ((f == 3 || f == 4) && decide (st ≤ 1)) || (narrow f && st == 1)

/-- The pair is accepted (spec/05 Table 5.1). -/
def pairOk (fa sta fb stb : Nat) : Bool :=
  let scaledOrFloat := fun f st => floatOperand f st || (isIntFmt f && st == 1)
  (isIntFmt fa && isIntFmt fb && sta == 0 && stb == 0) || (scaledOrFloat fa sta && scaledOrFloat fb stb)

/-- The pair accumulates in INT32. -/
def pairInt (fa sta fb stb : Nat) : Bool := isIntFmt fa && isIntFmt fb && sta == 0 && stb == 0

/-- The faults of an MMA. A block-scaled operand has K innermost: ta = 0, tb = 1 (spec/05 R80, R83). -/
def mmaFaults (t : Thread) (w : Word) : List Nat :=
  let depth := 32 * (mKd w + 1)
  chk (!lowZero w 6 || fmtReserved (mFmtA w) || fmtReserved (mFmtB w) || 1 < mSta w || 1 < mStb w) 1 ++
  chk (!pairOk (mFmtA w) (mSta w) (mFmtB w) (mStb w) || (mSta w == 1 && bit w 26) || (mStb w == 1 && !bit w 25)) 5 ++
  lsCheck (areg t (mAa w)) (operandBytes (mFmtA w) (mSta w) (128 * depth)) ++
  lsCheck (areg t (mAb w)) (operandBytes (mFmtB w) (mStb w) (128 * depth))

/-! ### VEC and FN (spec/04 Table 4.7) -/

def vAd (w : Word) : Nat := bits w 43 4
def vA1 (w : Word) : Nat := bits w 39 4
def vA2 (w : Word) : Nat := bits w 35 4
def vA3 (w : Word) : Nat := bits w 31 4
def vFd (w : Word) : Nat := bits w 27 4
def vFs (w : Word) : Nat := bits w 23 4
def vSl (w : Word) : Nat := bits w 18 5
def vSs (w : Word) : Nat := bits w 12 5
def vSt (w : Word) : Nat := bits w 10 2
def vWsel (w : Word) : Nat := bits w 7 3

/-- Operations with two sources, and the reductions. -/
def vecBinary (op : Nat) : Bool := decide (op ≤ 5)
def vecReduce (op : Nat) : Bool := decide (8 ≤ op ∧ op ≤ 10)

/-- The local-store extents of a VEC or FN operation on n elements; none for n = 0 (spec/04 R68). -/
def vecExtents (t : Thread) (w : Word) : List Nat :=
  let n := sreg32 t (vSl w)
  let fn := iClass w == 3
  let op := iOp w
  let src := if !fn && op == 6 then operandBytes (vFs w) (vSt w) n else elemBytes (vFs w) n
  if n = 0 then []
  else
    lsCheck (areg t (vA1 w)) src ++
    (if !fn && vecBinary op && vSs w == 0 then lsCheck (areg t (vA2 w)) src else []) ++
    (if !fn && op == 3 then lsCheck (areg t (vA3 w)) src else []) ++
    lsCheck (areg t (vAd w)) (if !fn && vecReduce op then 4 else if !fn && op == 7 then operandBytes (vFd w) 1 n
      else elemBytes (vFd w) n)

/-- The faults of a VEC operation on elements, and of FN (spec/04 R434; spec/06 R107, R109, R111). -/
def vecFaults (t : Thread) (w : Word) : List Nat :=
  let fn := iClass w == 3
  let op := iOp w
  let cvt := !fn && op == 6
  let scl := !fn && op == 7
  chk (!lowZero w 7 || (fn && (vA2 w != 0 || vA3 w != 0 || vSs w != 0 || vWsel w != 0)) || 1 < vSt w ||
    (vSt w != 0 && !cvt && !scl) || fmtReserved (vFd w) || fmtReserved (vFs w)) 1 ++
  chk (vFd w == 10 || vFs w == 10 || (narrow (vFd w) && !cvt && !scl) || (cvt && vSt w == 1 && !scalable (vFs w)) ||
    (scl && (!scalable (vFd w) || vSt w != 1)) || (!fn && vecReduce op && vFd w != 0)) 5 ++
  vecExtents t w

/-- The faults of LDS and STS, whose line is at `a`: the format fields are those of any VEC instruction (spec/04 R434). -/
def lineFaults (w : Word) (a : Nat) : List Nat :=
  chk (!lowZero w 7 || vSt w != 0 || fmtReserved (vFd w) || fmtReserved (vFs w)) 1 ++
  chk (vFd w == 10 || vFs w == 10 || narrow (vFd w)) 5 ++ lsCheck a 64

/-! ### STR, SYN, DRN, TCD (spec/04 Tables 4.8 to 4.11) -/

def tAx (w : Word) : Nat := bits w 43 4
def tAy (w : Word) : Nat := bits w 39 4
def tAz (w : Word) : Nat := bits w 35 4
def tSn (w : Word) : Nat := bits w 30 5
def tSst (w : Word) : BitVec 5 := BitVec.ofNat 5 (bits w 25 5)

def yVid (w : Word) : Nat := bits w 27 20
def ySx (w : Word) : Nat := bits w 22 5
def ySv (w : Word) : Nat := bits w 17 5
def ySd (w : Word) : BitVec 5 := BitVec.ofNat 5 (bits w 12 5)
def yTmo (w : Word) : BitVec 4 := BitVec.ofNat 4 (bits w 8 4)

/-- The counter and the value of a SYN instruction (spec/04 R71). -/
def synVid (t : Thread) (w : Word) : BitVec 20 := BitVec.ofNat 20 (yVid w + (sreg t (ySx w)).toNat)
def synValue (t : Thread) (w : Word) : Word := if ySv w = 0 then 1 else sreg t (ySv w)

def dSrc (w : Word) : Bool := bit w 46
def dIdx (w : Word) : Nat := bits w 43 3
def dAd (w : Word) : Nat := bits w 39 4
def dAp (w : Word) : Nat := bits w 35 4
def dFmt (w : Word) : Nat := bits w 31 4
def dSt (w : Word) : Nat := bits w 29 2
def dFn (w : Word) : Nat := bits w 22 6
def dBias (w : Word) : Bool := bit w 21
def dSsc (w : Word) : Nat := bits w 16 5

/-- fn is a derivative form, or a code of Table 4.10 at all. -/
def fnDeriv (fn : Nat) : Bool := decide (0x21 ≤ fn ∧ fn ≤ 0x25)
def fnDefined (fn : Nat) : Bool := decide (fn ≤ 5) || fnDeriv fn

/-- The faults of a drain; `red` for DRAIN_RED (spec/05 R97; spec/09 R165). -/
def drainFaults (t : Thread) (w : Word) (red : Bool) : List Nat :=
  let f := dFmt w
  let tile := operandBytes f (dSt w) 16384
  chk (!lowZero w 16 || !fnDefined (dFn w) || fmtReserved f || 1 < dSt w || (red && (dFn w != 0 || dBias w))) 1 ++
  chk (f == 10 || (dSt w == 1 && !scalable f) || (dSt w == 0 && narrow f) || (dSrc w && 3 < dIdx w) ||
    (fnDeriv (dFn w) && dBias w) || (red && (!(f == 1 || f == 2) || dSt w != 0))) 5 ++
  lsCheck (areg t (dAd w)) (if red then 64 else tile) ++
  (if dBias w then lsCheck (areg t (dAp w)) 512 else if fnDeriv (dFn w) then lsCheck (areg t (dAp w)) tile else [])

def xAs (w : Word) : Nat := bits w 43 4
def xAd (w : Word) : Nat := bits w 39 4
def xCfg (w : Word) : BitVec 6 := BitVec.ofNat 6 (bits w 33 6)
def xSc (w : Word) : Nat := bits w 28 5

/-! ### Static faults (spec/04 R76) -/

/-- The fault codes of a word that do not depend on registers or on the context: an idle thread's registers stand for any. The format
fields of SPILL, TOPK, ACCZ and KID, which do not use them, are not judged (DESIGN CHOICE, log entry 123). -/
def staticFaults (w : Word) : List Nat :=
  let t := Thread.init
  let codes := match iClass w, iOp w with
    | 0, _ => chk (ctlReserved w) 1
    | 1, 0 => mmaFaults t w
    | 1, 2 => chk (!lowZero w 6) 1 ++ chk (mK w == 0 || 16 < mK w) 9
    | 1, _ => chk (!lowZero w 6) 1
    | 2, 11 => lineFaults w 0
    | 2, 12 => lineFaults w 0
    | 2, _ => vecFaults t w
    | 3, _ => vecFaults t w
    | 4, _ => chk (!lowZero w 25) 1
    | 5, o => chk (!lowZero w 8 || (o != 1 && yTmo w != 0)) 1
    | 6, o => drainFaults t w (o == 2)
    | _, _ => chk (!lowZero w 28) 1
  if opDefined w then codes.filter fun c => c == 1 || c == 5 || c == 9 else [1]

end Sys2Proof.Machine
end

