-- ==== Sys2Proof/Machine/CodecOps.lean ====
section
/-! DEFINITION. The fields of a tile codec configuration and the sizes that follow from it (spec/14 R260, R261). -/

namespace Sys2Proof.Machine

/-- The fields of Table 14.2. -/
def tcOp (p : BitVec 256) : Nat := bits p 252 4
def tcSlot (p : BitVec 256) : Nat := bits p 246 6
def tcObj (p : BitVec 256) : Nat := bits p 208 32
def tcRefOff (p : BitVec 256) : Nat := bits p 160 48
def tcFmt (p : BitVec 256) : Nat := bits p 156 4
def tcSt (p : BitVec 256) : Nat := bits p 154 2
def tcBounded (p : BitVec 256) : Bool := bit p 153
def tcTpred (p : BitVec 256) : Bool := bit p 152
def tcGuar (p : BitVec 256) : Bool := bit p 151
def tcPeriod (p : BitVec 256) : Nat := bits p 144 7
def tcEb (p : BitVec 256) : Int := signed 8 (bits p 136 8)
def tcBudget (p : BitVec 256) : Nat := bits p 120 16
def tcNtr (p : BitVec 256) : Nat := bits p 104 16
def tcNtc (p : BitVec 256) : Nat := bits p 88 16
def tcNf (p : BitVec 256) : Nat := bits p 72 16

/-- The raw tile size R, and the slot size S (spec/14 R260, R261). -/
def tcRaw (p : BitVec 256) : Nat := if tcFmt p = 1 ∨ tcFmt p = 2 then 32768 else if tcSt p = 1 then 16896 else 16384
def tcSlotBytes (p : BitVec 256) : Nat := if tcGuar p then tcRaw p + 64 else tcBudget p * 64

/-- The configuration in slot `i` of context slot `n`. -/
def codecCfg (s : State) (n i : Nat) : Option (BitVec 256) := match ctxOf s n with
  | some c => tget c.codec i
  | none => none

/-- The coordinate word (spec/14 R261). -/
def cwFrame (w : Word) : Nat := bits w 48 16
def cwRow (w : Word) : Nat := bits w 32 16
def cwCol (w : Word) : Nat := bits w 16 16
def cwInst (w : Word) : Nat := bits w 0 16

end Sys2Proof.Machine
end

