-- ==== Sys2Proof/Machine/Codec.lean ====
section
/-! DEFINITION. The tile codec: the transform, the Rice code, rate control, the compressed tile and its expansion (spec/14 R260 to
R268). -/

namespace Sys2Proof.Machine

/-! ### Elements and predictors (R261, R263) -/

/-- The codes of block row `r` of a tile's bytes: 8 rows of 128. -/
def rowCodes (fmt : Nat) (tile : List Byte) (r : Nat) : List Nat :=
  (List.range 1024).map fun i => elemAt (fun j => tile.getD j 0) fmt (1024 * r + i)

/-- The scale bytes of block row `r`. -/
def rowScales (p : BitVec 256) (tile : List Byte) (r : Nat) : List Byte :=
  if tcSt p = 1 then (tile.drop (elemBytes (tcFmt p) 16384 + 32 * r)).take 32 else []

/-- A sign-magnitude code as an integer that keeps the order of the values, and back; −0 lies just below +0. -/
def ordOf (w x : Nat) : Int := if x < 2 ^ (w - 1) then (x : Int) else -((x - 2 ^ (w - 1) : Nat) : Int) - 1
def codeOf (w : Nat) (o : Int) : Nat :=
  let v := o % (2 ^ w : Nat)
  if v.toNat < 2 ^ (w - 1) then v.toNat else 2 ^ (w - 1) + (2 ^ w - 1 - v.toNat)

/-- Block row `r` of a tile is intra (R263). -/
def rowIntra (p : BitVec 256) (cw : Word) (usable : Bool) (r : Nat) : Bool :=
  let per := if tcPeriod p = 0 then 1 else tcPeriod p
  !tcTpred p || cwFrame cw == 0 || !usable || (16 * cwRow cw + r) % per == cwFrame cw % per

/-- A reference entry's header, and whether a job may use the entry (R261, R262). -/
def refHeader (ref : List Byte) : BitVec 512 := BitVec.ofNat 512 (ofLe (ref.take 64))
def refUsable (ref : List Byte) (cw : Word) : Bool :=
  let h := refHeader ref
  cwFrame cw != 0 && bit h 0 && bits h 32 16 == cwInst cw && bits h 48 16 + 1 == cwFrame cw

/-- The predictor's codes of block row `r`: +0 where the row is intra. -/
def predCodes (p : BitVec 256) (ref : List Byte) (intra : Bool) (r : Nat) : List Nat :=
  if intra then List.replicate 1024 0 else rowCodes (tcFmt p) (ref.drop 64) r

/-! ### The S-transform and the Rice code (R263) -/

/-- One level of the integer S-transform of a line: sums first, then differences; and back. -/
def sForward : List Int → List Int × List Int
  | a :: b :: rest => let r := sForward rest; ((a + b) / 2 :: r.1, (a - b) :: r.2)
  | _ => ([], [])
def sBackward : List Int → List Int → List Int
  | l :: ls, h :: hs => let a := l + (h + 1) / 2; a :: (a - h) :: sBackward ls hs
  | _, _ => []

/-- A line's first `k` entries transformed, and back. -/
def lineForward (k : Nat) (xs : List Int) : List Int := let r := sForward (xs.take k); r.1 ++ r.2 ++ xs.drop k
def lineBackward (k : Nat) (xs : List Int) : List Int := sBackward (xs.take (k / 2)) ((xs.take k).drop (k / 2)) ++ xs.drop k

/-- The transpose of an 8 by 8 block. -/
def flip8 (b : List (List Int)) : List (List Int) := (List.range 8).map fun j => b.map fun row => row.getD j 0

/-- The first `k` rows of a block changed. -/
def firstRows (k : Nat) (f : List Int → List Int) (b : List (List Int)) : List (List Int) := (b.take k).map f ++ b.drop k

/-- One level on the leading k by k part: rows then columns; and back. -/
def levelForward (k : Nat) (b : List (List Int)) : List (List Int) :=
  flip8 (firstRows k (lineForward k) (flip8 (firstRows k (lineForward k) b)))
def levelBackward (k : Nat) (b : List (List Int)) : List (List Int) :=
  firstRows k (lineBackward k) (flip8 (firstRows k (lineBackward k) (flip8 b)))

/-- Three levels. -/
def transform (b : List (List Int)) : List (List Int) := levelForward 2 (levelForward 4 (levelForward 8 b))
def untransform (b : List (List Int)) : List (List Int) := levelBackward 8 (levelBackward 4 (levelBackward 2 b))

/-- The zigzag order of an 8 by 8 block, as row and column. -/
def zigzag : List (Nat × Nat) :=
  (List.range 15).flatMap fun d =>
    let up := (List.range 8).filterMap fun i => if i ≤ d ∧ d - i < 8 then some (i, d - i) else none
    if d % 2 = 0 then up.reverse else up

/-- A signed value folded to unsigned, and back. -/
def foldInt (z : Int) : Nat := if 0 ≤ z then 2 * z.toNat else 2 * (-z).toNat - 1
def unfoldInt (u : Nat) : Int := if u % 2 = 0 then (u / 2 : Nat) else -((u / 2 + 1 : Nat) : Int)

/-- The coefficients of block `b` of a row's values, in zigzag order. -/
def blockCoefs (vs : List Int) (b : Nat) : List Int :=
  let blk := (List.range 8).map fun i => (List.range 8).map fun j => vs.getD (128 * i + 8 * b + j) 0
  let t := transform blk
  zigzag.map fun (i, j) => (t.getD i []).getD j 0

/-- The Rice parameter after a block whose coefficients' magnitudes add up to `m`. -/
def riceParam (m : Nat) : Nat := min 15 (Nat.log2 (64 + m) - 6)

/-- The bits of one value: the quotient in ones and a zero, then the remainder from its low bit. -/
def riceBits (k u : Nat) : List Bool := List.replicate (u / 2 ^ k) true ++ false :: (List.range k).map u.testBit

/-- The bits of a row's 16 blocks. -/
def rowBits (vs : List Int) : List Bool :=
  ((List.range 16).foldl (fun (acc : List Bool × Nat) b =>
    let cs := blockCoefs vs b
    (acc.1 ++ cs.flatMap fun c => riceBits acc.2 (foldInt c), riceParam (cs.map Int.natAbs).sum)) ([], 0)).1

/-- Bits as bytes, the first bit lowest. -/
def bitsToBytes (bs : List Bool) : List Byte :=
  (List.range (ceilDiv bs.length 8)).map fun i =>
    BitVec.ofNat 8 (((bs.drop (8 * i)).take 8).foldr (fun b acc => b2n b + 2 * acc) 0)

/-- The ones before the next zero from a position. -/
def unaryRun (at_ : Nat → Bool) : Nat → Nat → Nat
  | 0, _ => 0
  | f + 1, pos => if at_ pos then unaryRun at_ f (pos + 1) + 1 else 0

/-- One value read with parameter `k`: the value and the next position. -/
def riceRead (at_ : Nat → Bool) (fuel k pos : Nat) : Nat × Nat :=
  let q := unaryRun at_ fuel pos
  (q * 2 ^ k + maskOf k (fun i => at_ (pos + q + 1 + i)), pos + q + 1 + k)

/-- The coefficients of a block read from a position. -/
def readBlock (at_ : Nat → Bool) (fuel k : Nat) : Nat → Nat → List Int × Nat
  | 0, pos => ([], pos)
  | n + 1, pos =>
    let r := riceRead at_ fuel k pos
    let rest := readBlock at_ fuel k n r.2
    (unfoldInt r.1 :: rest.1, rest.2)

/-- A row's values, from its blocks' coefficients. -/
def unblock (blocks : List (List Int)) : List Int :=
  let bs := blocks.map fun cs => untransform ((List.range 8).map fun i => (List.range 8).map fun j =>
    cs.getD (zigzag.findIdx (· == (i, j))) 0)
  (List.range 1024).map fun x => ((bs.getD (x % 128 / 8) []).getD (x / 128) []).getD (x % 8) 0

/-- A row's values read from a position, with the position after its last whole byte. -/
def readRow (at_ : Nat → Bool) (fuel pos : Nat) : List Int × Nat :=
  let r := (List.range 16).foldl (fun (acc : List (List Int) × Nat × Nat) _ =>
    let b := readBlock at_ fuel acc.2.2 64 acc.2.1
    (acc.1 ++ [b.1], b.2, riceParam (b.1.map Int.natAbs).sum)) ([], pos, 0)
  (unblock r.1, 8 * ceilDiv r.2.1 8)

/-! ### Coding a row (R263, R264) -/

/-- A coded row: its step exponent byte, its bytes, and its reconstruction. -/
structure CodedRow where
  qexp  : Nat
  bytes : List Byte
  recon : List Nat
deriving DecidableEq, Repr

/-- A finite value as the nearest integer. -/
def nearInt : FVal → Int
  | .fin n m e => toInt n m e
  | _ => 0

/-- The exponent of the coarsest step of a row, and none where the row is lossless at every step: LOSSLESS mode, a NaN or an
infinity among its elements or predictors, or no element but zeros. -/
def coarsest (p : BitVec 256) (xs ps : List FVal) : Option Int :=
  if !tcBounded p || (xs ++ ps).any fun v => v.isNan || v.isInf then none
  else match amaxOf xs with
    | .fin _ m e => if m = 0 then none else some (tcEb p + 1 + (e + ilog2 m))
    | _ => none

/-- The row coded without loss. -/
def codeLossless (w : Nat) (xs ps : List Nat) : CodedRow :=
  let vs := (xs.zip ps).map fun (x, y) => (ordOf w x - ordOf w y) % (2 ^ w : Nat)
  { qexp := 0x80, bytes := bitsToBytes (rowBits vs), recon := xs }

/-- The value that step 2^q restores from `v`. -/
def restore (fmt : Nat) (q : Int) (pred : FVal) (v : Int) : Nat := (convElem fmt false (pred.add ((FVal.ofInt v).scale q))).1

/-- The row coded with step exponent `q`: without loss where that lies below −127. -/
def codeStep (fmt : Nat) (xs ps : List Nat) (q : Int) : CodedRow :=
  if q < -127 then codeLossless (fmtBits fmt) xs ps
  else
    let vs := (xs.zip ps).map fun (x, y) => nearInt (((decodeElem fmt x).add (decodeElem fmt y).neg).scale (-q))
    { qexp := toSigned 8 q, bytes := bitsToBytes (rowBits vs),
      recon := (vs.zip ps).map fun (v, y) => restore fmt q (decodeElem fmt y) v }

/-- Rate control of one row (R266): the finest of the eight steps whose size meets the target, else the coarsest. -/
def codeRow (p : BitVec 256) (xs ps : List Nat) (target : Nat) : CodedRow :=
  let f := tcFmt p
  match coarsest p (xs.map (decodeElem f)) (ps.map (decodeElem f)) with
  | none => codeLossless (fmtBits f) xs ps
  | some q0 =>
    let tries := ((List.range 8).reverse).map fun (j : Nat) => codeStep f xs ps (q0 - j)
    let extra := if tcSt p = 1 then 32 else 0
    (tries.find? fun r => decide (r.bytes.length + extra ≤ target)).getD (codeStep f xs ps q0)

/-- An encoded tile: its coded rows, the first raw row, the intra mask, and the reconstructed elements. -/
structure Encoded where
  rows    : List CodedRow
  rawFrom : Nat
  intra   : Nat
  recon   : List Byte
deriving DecidableEq, Repr

/-- The rows of a tile coded in order until one does not fit the payload budget. -/
def codeRows (p : BitVec 256) (src ref : List Byte) (intra : Nat → Bool) : List CodedRow :=
  let budget := tcBudget p * 64 - 64
  let extra := if tcSt p = 1 then 32 else 0
  ((List.range 16).foldl (fun (acc : List CodedRow × Nat × Bool) r =>
    if acc.2.2 then acc
    else
      let c := codeRow p (rowCodes (tcFmt p) src r) (predCodes p ref (intra r) r) ((budget - acc.2.1) / (16 - r))
      if budget < acc.2.1 + c.bytes.length + extra then (acc.1, acc.2.1, true)
      else (acc.1 ++ [c], acc.2.1 + c.bytes.length + extra, false)) ([], 0, false)).1

/-- ENC of a tile (R263, R266). -/
def encodeTile (p : BitVec 256) (cw : Word) (src ref : List Byte) : Encoded :=
  let intra := rowIntra p cw (refUsable ref cw)
  let rows := codeRows p src ref intra
  let k := rows.length
  let codes := rows.flatMap (·.recon) ++ ((List.range (16 - k)).map (· + k)).flatMap (rowCodes (tcFmt p) src)
  { rows := rows, rawFrom := k, intra := maskOf 16 intra,
    recon := elemsToBytes (tcFmt p) codes 0 ++ src.drop (elemBytes (tcFmt p) 16384) }

/-- Bytes padded with zeros to whole 64 B units. -/
def padUnits (bs : List Byte) : List Byte := bs ++ List.replicate (roundUp bs.length 64 - bs.length) 0

/-- The header of a compressed tile (Table 14.3). -/
def tileHeader (p : BitVec 256) (cw : Word) (whole : Bool) (rawFrom intra qexp pool : Nat) (payload : List Byte) : List Byte :=
  leBytes 64 (pack [(192, 0), (32, pool), (128, qexp), (16, intra), (11, 0), (5, rawFrom), (16, payload.length / 64),
    (16, cwInst cw), (16, cwCol cw), (16, cwRow cw), (16, cwFrame cw), (1, b2n whole), (1, b2n (tcBounded p)), (2, tcSt p),
    (4, tcFmt p), (8, 1), (32, (crc32c payload).toNat)])

/-- The compressed tile as it lies in its slot: whole and raw where a guaranteed tile has a raw row (R268). -/
def slotImage (p : BitVec 256) (cw : Word) (src : List Byte) (e : Encoded) (pool : Nat) : List Byte :=
  if tcGuar p ∧ e.rawFrom < 16 then tileHeader p cw true 0 e.intra 0 0 src ++ src
  else
    let body := padUnits (e.rows.flatMap (·.bytes) ++
      (if tcSt p = 1 then (src.drop (elemBytes (tcFmt p) 16384)).take (32 * e.rawFrom) else []))
    let qexp := pack (e.rows.map fun r => (8, r.qexp))
    tileHeader p cw false e.rawFrom e.intra qexp (if e.rawFrom < 16 then pool else 0) body ++ body

/-- A raw row as a pool slot holds it (R267). -/
def rawRow (p : BitVec 256) (src : List Byte) (r : Nat) : List Byte :=
  elemsToBytes (tcFmt p) (rowCodes (tcFmt p) src r) 0 ++ rowScales p src r

/-- A reference entry: its header and the reconstruction (R261). -/
def refEntry (cw : Word) (exact : Nat) (recon : List Byte) : List Byte :=
  leBytes 64 (pack [(1, 1), (15, 0), (16, exact), (16, cwInst cw), (16, cwFrame cw), (448, 0)]) ++ recon

/-! ### Expansion (R262, R265, R274) -/

/-- The header fields that an expansion reads. -/
def slotHeader (slot : List Byte) : BitVec 512 := BitVec.ofNat 512 (ofLe (slot.take 64))
def shWhole (h : BitVec 512) : Bool := bit h 464
def shLen (h : BitVec 512) : Nat := bits h 384 16
def shRawFrom (h : BitVec 512) : Nat := bits h 379 5
def shIntra (h : BitVec 512) (r : Nat) : Bool := bit h (352 + r)
def shQexp (h : BitVec 512) (r : Nat) : Nat := bits h (224 + 8 * r) 8
def shPool (h : BitVec 512) : Nat := bits h 192 32

/-- A header that DEC refuses (R274): an unknown version, a reserved value, a format that is not the slot's, a payload beyond the
slot, or a CRC that does not match. -/
def slotCorrupt (p : BitVec 256) (slot : List Byte) : Bool :=
  let h := slotHeader slot
  let body := (slot.drop 64).take (64 * shLen h)
  bits h 472 8 != 1 || bits h 0 192 != 0 || bits h 368 11 != 0 || decide (16 < shRawFrom h) || bits h 468 4 != tcFmt p ||
    bits h 466 2 != tcSt p || bit h 465 != tcBounded p || decide (tcSlotBytes p < 64 + 64 * shLen h) ||
    (shWhole h && 64 * shLen h != tcRaw p) || bits h 480 32 != (crc32c body).toNat

/-- The rows before raw_from: their codes, and the payload position after them. -/
def decodeRows (p : BitVec 256) (slot ref : List Byte) (usable : Bool) : List (List Nat) × Nat :=
  let h := slotHeader slot
  let body := slot.drop 64
  let at_ := fun i => (body.getD (i / 8) 0).toNat.testBit (i % 8)
  let w := fmtBits (tcFmt p)
  (List.range (min 16 (shRawFrom h))).foldl (fun (acc : List (List Nat) × Nat) r =>
    let row := readRow at_ (8 * body.length) acc.2
    let ps := predCodes p ref (shIntra h r || !usable) r
    let codes := if shQexp h r = 0x80 then (row.1.zip ps).map fun (v, y) => codeOf w (v + ordOf w y)
      else (row.1.zip ps).map fun (v, y) => restore (tcFmt p) (signed 8 (shQexp h r)) (decodeElem (tcFmt p) y) v
    (acc.1 ++ [codes], row.2)) ([], 0)

/-- An expanded tile, given its raw rows: elements and scales. -/
def decodeTile (p : BitVec 256) (slot ref : List Byte) (usable : Bool) (raw : List (List Byte)) : List Byte :=
  let h := slotHeader slot
  if shWhole h then (slot.drop 64).take (tcRaw p)
  else
    let r := decodeRows p slot ref usable
    let rowLen := elemBytes (tcFmt p) 1024
    let scales := if tcSt p = 1 then (slot.drop (64 + r.2 / 8)).take (32 * min 16 (shRawFrom h)) ++ raw.flatMap (·.drop rowLen) else []
    elemsToBytes (tcFmt p) (r.1.flatMap id) 0 ++ raw.flatMap (·.take rowLen) ++ scales

/-- The rows that an expansion marks exact (R265): a raw row is exact (R266). -/
def exactMask (slot ref : List Byte) (usable : Bool) : Nat :=
  let h := slotHeader slot
  maskOf 16 fun r => shWhole h || decide (shRawFrom h ≤ r) || shIntra h r || (usable && bit (refHeader ref) (16 + r))

/-- A tile of canonical NaNs. -/
def nanRaw (p : BitVec 256) : List Byte :=
  elemsToBytes (tcFmt p) (List.replicate 16384 (fmtOf (tcFmt p)).nanCode) 0 ++ (if tcSt p = 1 then List.replicate 512 0xFF else [])

end Sys2Proof.Machine
end

