-- ==== Sys2Proof/Machine/Regs.lean ====
section
/-! DEFINITION. What the registers of BAR0 read (spec/19 R360 to R377 and the register tables it names). -/

namespace Sys2Proof.Machine

/-- The phase code of HST_STATUS.phase (spec/19 Table 19.4). -/
def phaseCode : Phase → Nat
  | .power => 0
  | .clocks => 1
  | .fwAuth => 2
  | .sramInit => 3
  | .memTrain => 4
  | .memInit => 5
  | .linkCal => 6
  | .selfTest => 7
  | .ready => 8
  | .failed => 15

/-- HST_ID (spec/19 Table 19.3). -/
def hstId (s : State) : BitVec 64 :=
  BitVec.ofNat 64 (pack [(1, b2n s.big), (7, 0), (8, s.fw.minor.toNat), (8, s.fw.major.toNat), (8, 0xB0), (16, 0x0007), (16, 0x1FA7)])

/-- HST_STATUS (spec/19 Table 19.4). -/
def hstStatus (s : State) : BitVec 64 :=
  BitVec.ofNat 64 (pack [(1, b2n (ready s)), (3, 0), (4, phaseCode s.life.phase), (8, s.life.failCode.toNat), (32, 0),
    (14, (modIdOf s).toNat), (1, 0), (1, b2n s.modId.isSome)])

/-- HST_CORE_FENCE_n (spec/03 Table 3.7). -/
def coreFence (s : State) (n : Nat) : BitVec 64 := BitVec.ofNat 64 (maskOf 64 fun i => (coreOf s (64 * n + i)).fenced)

/-- The state code of a port (spec/16 Table 16.12). -/
def portStateCode : PortState → Nat
  | .down => 0
  | .training => 1
  | .up => 2

/-- The cause code of a port (spec/16 Table 16.12). -/
def portCauseCode : PortCause → Nat
  | .none => 0
  | .laneLock => 1
  | .fecRate => 2
  | .retryBound => 3
  | .silence => 4
  | .unitFault => 5
  | .trainFail => 6

/-- FAB_PORT_STATUS_n (spec/16 Table 16.12). -/
def portStatus (s : State) (n : Nat) : BitVec 64 :=
  let p := portOf s n
  BitVec.ofNat 64 (pack [(2, portStateCode p.state), (6, 0), (4, p.lanes.toNat), (4, portCauseCode p.cause),
    (16, p.replays.toNat), (16, p.crcFail.toNat), (16, p.fecCorr.toNat)])

/-- CFG_ACTIVE_SET (spec/19 Table 19.7). -/
def activeSet (s : State) : BitVec 64 := BitVec.ofNat 64 (pack [(1, b2n s.active), (31, 0), (32, s.swaps.toNat)])

/-- The state code of a ring (spec/19 Table 19.15). -/
def ringStateCode : RingState → Nat
  | .disabled => 0
  | .running => 1
  | .held => 2
  | .quarantined => 3

/-- Violations of the ring's context in the last second, saturating at 2,047 (spec/19 Table 19.15). -/
def recentViolations (s : State) (n : Nat) : Nat :=
  if n < 64 then match ctxOf s n with
    | some c => min 2047 (c.violations.filter fun t => (s.postmark - t).toNat < 800000000).length
    | none => 0
  else 0

/-- A register of ring block `n` (spec/19 Table 19.9). -/
def ringReg (s : State) (n off : Nat) : BitVec 64 :=
  let r := ringOf s n
  if off = 0x00 then r.postBase
  else if off = 0x08 then r.rcptBase
  else if off = 0x10 then r.ctrl
  else if off = 0x18 then BitVec.ofNat 64 (pack [(32, r.head.toNat), (32, r.nextSeq.toNat)])
  else if off = 0x20 then BitVec.ofNat 64 r.consumed.toNat
  else if off = 0x28 then
    BitVec.ofNat 64 (pack [(2, ringStateCode r.state), (10, 0), (11, recentViolations s n), (9, 0), (32, r.tail.toNat)])
  else 0

/-- A job of slot `n` is stalled on the overflow pool (spec/14 Table 14.4). -/
def codecStalled (s : State) (n : Nat) : Bool :=
  let mine := fun (l : CodecLane) => l.stalled && match l.queue with
    | j :: _ => j.slot.toNat == n
    | [] => false
  s.clusters.toList.any fun k => mine k.enc || mine k.dec

/-- A register of context block `n` (spec/19 Table 19.8): its reset value where the slot is empty (R362). -/
def ctxReg (s : State) (n off : Nat) : BitVec 64 :=
  match ctxOf s n with
  | none => if off = 0x18 then 0x0000000000100000 else if off = 0x10 then 0x00000000FFF00000 else 0
  | some c =>
    if off = 0x00 then c.attStatus
    else if off = 0x08 then c.attEvents
    else if off = 0x10 then c.stepEvents
    else if off = 0x18 then c.updState
    else if off = 0x20 then c.updAlarm
    else if off = 0x28 then c.updAlarmEvents
    else if off = 0x30 then putBits c.tcdStatus 4 1 (b2n (codecStalled s n))
    else if off = 0x38 then c.tcdEvents
    else 0

/-- The dead-letter entry at place `i` of the log (spec/19 R376): entry s with s mod 1,024 = i. -/
def deadEntry (s : State) (i : Nat) : BitVec 256 :=
  match s.dead.find? fun e => e.logSeq.toNat % 1024 == i with
  | some e => BitVec.ofNat 256 (pack [(8, 0), (8, e.opcode.toNat), (8, e.ring.toNat), (8, e.kind.toNat), (16, e.status.toNat),
      (16, e.ctx.toNat), (32, e.logSeq.toNat), (32, e.pktSeq.toNat), (64, e.info.toNat), (64, e.postmark.toNat)])
  | none => 0

/-- The 64-bit register of BAR0 at an 8-byte aligned offset (spec/19 Table 19.2). Before READY only HST_ID, HST_STATUS and
HST_ERR are served; every other register reads as its reset value (spec/22 R415). -/
def regRead (s : State) (off : Nat) : BitVec 64 :=
  if off = 0x0000 then hstId s
  else if off = 0x0010 then hstStatus s
  else if off = 0x0018 then s.hstErr.setWidth 64
  else
    let s := if ready s then s else State.reset
    if off = 0x0020 then activeSet s
    else if off = 0x0028 then s.riskScore
    else if off = 0x0030 then s.hstErrEvents
    else if off = 0x0038 then s.deadCount.setWidth 64
    else if 0x0040 ≤ off ∧ off < 0x0060 then coreFence s ((off - 0x0040) / 8)
    else if 0x0100 ≤ off ∧ off < 0x0180 then portStatus s ((off - 0x0100) / 8)
    else if 0x2000 ≤ off ∧ off < 0x2000 + 0x40 * 65 then ringReg s ((off - 0x2000) / 0x40) ((off - 0x2000) % 0x40)
    else if 0x3800 ≤ off ∧ off < 0x3C00 then
      let e := vget s.msix ((off - 0x3800) / 16) { addr := 0, data := 0, ctrl := 1 }
      if off % 16 = 0 then e.addr else BitVec.ofNat 64 (pack [(32, e.data.toNat), (32, e.ctrl.toNat)])
    else if off = 0x3C00 then s.msixPend
    else if 0x4000 ≤ off ∧ off < 0x8000 then ctxReg s ((off - 0x4000) / 0x100) ((off - 0x4000) % 0x100)
    else if 0x8000 ≤ off ∧ off < 0x10000 then
      BitVec.ofNat 64 (bits (deadEntry s ((off - 0x8000) / 32)) (8 * ((off - 0x8000) % 32)) 64)
    else 0

/-- Whether Table 19.2 names an offset. -/
def regNamed (off : Nat) : Bool :=
  decide (off < 0x0008 ∨ (0x0010 ≤ off ∧ off < 0x0060) ∨ (0x0100 ≤ off ∧ off < 0x0180) ∨ (0x1000 ≤ off ∧ off < 0x1208) ∨
    (0x2000 ≤ off ∧ off < 0x3040) ∨ (0x3800 ≤ off ∧ off < 0x3C08) ∨ (0x4000 ≤ off ∧ off < 0x10000))

end Sys2Proof.Machine
end

