-- ==== Sys2Proof/Machine/HostCmds.lean ====
section
/-! DEFINITION. NOP, ECHO, READ_INFO, HEALTH_READ and what every firmware command shares (spec/19 R367 to R372, spec/18 R341). -/

namespace Sys2Proof.Machine

/-- What a step answers. -/
abbrev Out := Host.Outcome State Fault Refusal

/-- A firmware command: there is no ring above 64, and the firmware runs from READY (spec/22 R418). -/
def firmware (p : Packet) (s : State) (f : State → State) : Out :=
  if 64 < p.ring.toNat then .fault .noSuchUnit else if ready s then .next (f s) else .next s

/-- A context-scoped command: BAD_CONTEXT where no resident context is named (spec/19 R367, step 6). -/
def ctxCommand (p : Packet) (op : Nat) (s : State) (f : Nat → State → State) : Out :=
  firmware p s fun s => match pktSlot s p with
    | some n => f n s
    | none => badContext s p op

/-- Parameter bits [lo + len − 1 : lo] are zero. -/
def zeroBits (p : Packet) (lo len : Nat) : Bool := bits p.param lo len == 0

/-- NOP. DESIGN CHOICE (log entry 124): no table gives its parameter a field or a reserved mark, so none of its bits is checked. -/
def execNop (p : Packet) (s : State) : Out := firmware p s fun s => answer s p 0x00 0 0

/-- ECHO: the detail is param [15:0]. -/
def execEcho (p : Packet) (s : State) : Out := firmware p s fun s => answer s p 0x01 0 (bits p.param 0 16)

/-- The READ_INFO record (spec/19 Table 19.21). -/
def infoRecord (s : State) : Nat :=
  pack [(552, 0), (16, s.retiredPages.length), (8, (numsBelow 64 fun n => (ctxOf s n).isNone).length), (10, 0),
    (2, maskOf 2 fun i => !(pipeOf s (4 + i)).retired), (4, maskOf 4 fun i => !(pipeOf s i).retired),
    (16, maskOf 16 fun i => (portOf s i).state == .up), (16, if s.age.memSlow then 9600 else 10667),
    (16, if s.big then 1536 else 768), (64, (coreFence s 0).toNat), (64, (coreFence s 1).toNat), (64, (coreFence s 2).toNat),
    (64, (coreFence s 3).toNat), (64, (hstStatus s).toNat), (64, (hstId s).toNat)]

/-- READ_INFO. -/
def execReadInfo (p : Packet) (s : State) : Out := firmware p s fun s =>
  let addr := bits p.param 192 64
  if addr % 64 ≠ 0 ∨ !zeroBits p 0 192 then answer s p 0x02 0x0102 0
  else answer (hostRecord s addr (leBytes 128 (infoRecord s))) p 0x02 0 0

/-- A health-log entry as it lies in memory (spec/18 Table 18.2). -/
def healthBytes (e : HealthEntry) : List Byte :=
  leBytes 32 (pack [(64, e.count.toNat), (48, e.loc.toNat), (16, e.ctx.toNat), (16, e.code.toNat), (12, e.source.toNat),
    (4, e.cls.toNat), (32, e.seq.toNat), (64, e.postmark.toNat)])

/-- HEALTH_READ (spec/18 R341). -/
def execHealthRead (p : Packet) (s : State) : Out := firmware p s fun s =>
  let addr := bits p.param 192 64
  let cap := bits p.param 176 16
  let from_ := bits p.param 144 32
  if addr % 64 ≠ 0 ∨ cap = 0 ∨ !zeroBits p 0 144 then answer s p 0x80 0x0102 0
  else
    let mine := s.health.filter fun e =>
      decide (from_ ≤ e.seq.toNat) && (p.ring.toNat == 64 || e.ctx == ringCtx s p.ring.toNat)
    let out := mine.take cap
    let lost := decide (from_ + s.health.length < s.healthSeq.toNat)
    answer (hostRecord s addr (out.flatMap healthBytes)) p 0x80 0 (out.length % 2 ^ 15 + 2 ^ 15 * b2n lost)

end Sys2Proof.Machine
end

