-- ==== Sys2Proof/Machine/Objects.lean ====
section
/-! DEFINITION. Objects, homes, retirement and migration (spec/11). -/

namespace Sys2Proof.Machine

/-! ### Space in the tiers (spec/11 R199, R211 to R213) -/

/-- The ranges that homes occupy in a tier. -/
def occupied (s : State) (tier : BitVec 2) : List (Nat × Nat) := ((allHomes s).filter fun o => o.tier == tier).map homeRange

/-- Where the duplicate filters lie (spec/16 R307): 96 MiB of LPDDR6, page aligned, inside the tier. -/
def filterRange (s : State) : Nat × Nat :=
  (min (Config.filterBase / 4096 * 4096) (lpCapacity s - 96 * 2 ^ 20), 96 * 2 ^ 20)

/-- The bytes of partition `n` that are in service: a retired bank leaves three (spec/11 R213, R222). -/
def partBytes (s : State) (n : Nat) : Nat :=
  96 * 2 ^ 20 - 24 * 2 ^ 20 * (s.retiredBanks.filter fun b => b.toNat / 4 == n).length

/-- The bounds of a tier for a home: of its partition in the shared store. -/
def tierRange (s : State) (tier part : Nat) : Nat × Nat :=
  if tier = 0 then (0, lpCapacity s) else (part * (96 * 2 ^ 20), partBytes s part)

/-- A page of the range is retired (spec/11 R221). -/
def touchesRetired (s : State) (spread : BitVec 2) (sgrp : BitVec 4) (r : Nat × Nat) : Bool :=
  s.retiredPages.any fun x => usesPage spread sgrp r.1 r.2 x.1 x.2

/-- A home of this range fits: inside the tier, on no other home, on no retired page, outside the reserved region. -/
def fits (s : State) (tier : BitVec 2) (spread : BitVec 2) (sgrp : BitVec 4) (part : Nat) (r : Nat × Nat) : Bool :=
  let b := tierRange s tier.toNat part
  decide (b.1 ≤ r.1 ∧ r.1 + r.2 ≤ b.1 + b.2) && !(occupied s tier).any (overlap r) &&
  (tier != 0 || (!overlap r (filterRange s) && !touchesRetired s spread sgrp r))

/-- The place of a new home: the firmware's choice where it fits, else the lowest place that fits (spec/11 R201). -/
def placeHome (s : State) (tier spread : BitVec 2) (sgrp : BitVec 4) (part size : Nat) : Option Nat :=
  let g := granule tier
  let len := homeBytes tier spread size
  let lo := (tierRange s tier.toNat part).1
  let ok := fun a => fits s tier spread sgrp part (a, len)
  let pick := Config.placement s.fresh tier.toNat size * g
  if ok pick then some pick
  else (([lo] ++ (occupied s tier).map (fun r => roundUp (r.1 + r.2) g) ++
      [(filterRange s).1 + (filterRange s).2]).filter ok).min?.orElse fun _ =>
    (firstBelow ((tierRange s tier.toNat part).2 / g) fun i => ok (lo + i * g)).map fun i => lo + i * g

/-! ### OBJ_ALLOC (spec/11 R201 to R204, R221) -/

/-- The fields of Table 11.2. -/
def paObj (w : BitVec 256) : Nat := bits w 224 32
def paMod (w : BitVec 256) : BitVec 14 := BitVec.ofNat 14 (bits w 210 14)
def paTier (w : BitVec 256) : BitVec 2 := BitVec.ofNat 2 (bits w 208 2)
def paKind (w : BitVec 256) : Nat := bits w 206 2
def paSpread (w : BitVec 256) : BitVec 2 := BitVec.ofNat 2 (bits w 204 2)
def paSgrp (w : BitVec 256) : BitVec 4 := BitVec.ofNat 4 (bits w 200 4)
def paZero (w : BitVec 256) : Bool := bit w 199
def paCache (w : BitVec 256) : Bool := bit w 198
def paPart (w : BitVec 256) : Nat := bits w 194 4
def paAt (w : BitVec 256) : Bool := bit w 193
def paSize (w : BitVec 256) : Nat := bits w 144 48
def paAddr (w : BitVec 256) : Nat := bits w 64 64
def paOff (w : BitVec 256) : Nat := bits w 64 48

/-- The spread group is in its set's range (spec/11 Table 11.2). -/
def sgrpOk (spread : BitVec 2) (sgrp : BitVec 4) : Bool :=
  if spread = 0 then sgrp == 0 else if spread = 1 then decide (sgrp.toNat < 4) else spread == 2

/-- A reserved identifier, value or bit of Table 11.2, apart from the size's. -/
def allocReserved (w : BitVec 256) : Bool :=
  paObj w == 0 || decide (0xFFFF0000 ≤ paObj w) || paTier w == 3 || paKind w == 3 ||
  paSpread w == 3 || (paTier w == 0 && paKind w == 0 && !sgrpOk (paSpread w) (paSgrp w)) || bit w 192 || bits w 128 16 != 0 || bits w 0 64 != 0

/-- at = 1 with another tier or kind, or with an offset off its page (spec/11 R203). -/
def atBad (w : BitVec 256) : Bool := paAt w && (paTier w != 0 || paKind w != 0 || paOff w % 4096 != 0)

/-- The same, or an offset beyond the tier of this module. -/
def allocAtBad (s : State) (w : BitVec 256) : Bool := atBad w || (paAt w && decide (lpCapacity s ≤ paOff w))

/-- The partition's mode and owner (spec/11 Table 11.4). -/
def partMode (s : State) (n : Nat) : Nat := bits (vget (cfgOf s).part n 0) 6 2
def partOwner (s : State) (n : Nat) : Nat := bits (vget (cfgOf s).part n 0) 0 6

/-- A shared-store home of slot `n` may lie in partition `p`: its own SCRATCH partition, or UPDATE (spec/11 R201). -/
def partAllowed (s : State) (n p : Nat) : Bool := (partMode s p == 1 && partOwner s p == n) || partMode s p == 3

/-- The entries of a context's table: those it holds, and those that a migration to this module will make. -/
def tableCount (c : Ctx) : Nat := (c.objs.map (·.1) ++ c.incoming.map (·.1)).eraseDups.length

/-- Identifier `id` is in the table of slot `n`, or a migration to this module has taken it. -/
def idTaken (s : State) (n id : Nat) : Bool :=
  (objOf s n id).isSome || (ctxOf s n).elim false fun c => (tget c.incoming id).isSome

/-- The tables are full (spec/11 R206). -/
def tablesFull (s : State) (n : Nat) : Bool :=
  decide (262144 ≤ (s.ctxs.toList.map fun x => x.ctx.elim 0 tableCount).sum) ||
    (ctxOf s n).elim true fun c => decide (65536 ≤ tableCount c)

/-- The place that the parameters give a home of `size` bytes: the host's address, the offset of at, or the firmware's. -/
def choosePlace (s : State) (w : BitVec 256) (size : Nat) : Option Nat :=
  if paTier w = 2 then some (paAddr w)
  else if paAt w then
    (if fits s (paTier w) (paSpread w) (paSgrp w) (paPart w) (paOff w, homeBytes (paTier w) (paSpread w) size)
      then some (paOff w) else none)
  else placeHome s (paTier w) (paSpread w) (paSgrp w) (paPart w) size

/-- A home entry made from the parameters. -/
def newHome (w : BitVec 256) (m : BitVec 14) (off size : Nat) (cache : Bool) : Obj :=
  { isBind := false, homeMod := m, tier := paTier w, off := off, size := size, spread := paSpread w, sgrp := paSgrp w,
    part := BitVec.ofNat 4 (paPart w), cache := cache, state := .homed, binders := [], fenced := false, mig := none }

/-- `s` without entry `id` of slot `n`'s table. -/
def delEntry (s : State) (n id : Nat) : State := modCtx s n fun c => { c with objs := tdel c.objs id }

/-- The home lies in the UPDATE partition, which every context may use (R201, R213): it is filled with zeros, so that it never holds another
context's plaintext (R202; DEDUCED, log 150). -/
def mustFill (s : State) (w : BitVec 256) : Bool := paTier w == 1 && partMode s (paPart w) == 3

/-- A home filled with zeros (spec/11 R202). -/
def zeroHome (s : State) (n : Nat) (o : Obj) : State :=
  writePlace s n (placeOf o) 0 (List.replicate (homeBytes o.tier o.spread o.size) 0)

/-- RETIRE_PAGE (spec/11 R221): sub-channel u in [92:85], page in [84:64]. A sub-channel holds capacity / 192 bytes. -/
def retirePage (s : State) (p : Packet) : State :=
  let u := bits p.param 85 8
  let pg := bits p.param 64 21
  if 191 < u ∨ lpCapacity s / 192 / 4096 ≤ pg then answer s p 0x10 0x0102 0
  else if (allHomes s).any fun o => o.tier == 0 && usesPage o.spread o.sgrp o.off o.size u pg then answer s p 0x10 0x0300 0
  else if 4096 ≤ s.retiredPages.length ∧ !s.retiredPages.contains (u, pg) then answer s p 0x10 0x0303 0
  else
    answer { s with retiredPages := if s.retiredPages.contains (u, pg) then s.retiredPages else s.retiredPages ++ [(u, pg)] }
      p 0x10 0 0

/-- OBJ_ALLOC. A BIND asks the home module and answers at BIND_ANSWER (spec/11 R204). -/
def execObjAlloc (p : Packet) (s : State) : Out := ctxCommand p 0x10 s fun n s =>
  let w := p.param
  if allocReserved w ∨ allocAtBad s w ∨ (paKind w = 0 ∧ paSize w = 0) ∨ (paKind w ≠ 0 ∧ paSize w ≠ 0) then answer s p 0x10 0x0102 0
  else if idTaken s n (paObj w) then answer s p 0x10 0x0102 0
  else if (paKind w = 0 ∧ paMod w ≠ modIdOf s) ∨ (paKind w = 1 ∧ paMod w = modIdOf s) then answer s p 0x10 0x0102 0
  else if paKind w = 2 then retirePage s p
  else if paKind w = 0 ∧ paTier w = 2 ∧ (paAddr w % 4096 ≠ 0 ∨ 2 ^ 48 ≤ paAddr w) then answer s p 0x10 0x0102 0
  else if paKind w = 0 ∧ paTier w = 1 ∧ !partAllowed s n (paPart w) then answer s p 0x10 0x0105 0
  else if tablesFull s n then answer s p 0x10 0x0303 0
  else if paKind w = 1 then
    emit (modCtx s n fun c => { c with bindPkts := c.bindPkts ++ [p] })
      (.bindQuery (paMod w) (identOf s n) (BitVec.ofNat 32 (paAddr w)))
  else match choosePlace s w (paSize w) with
    | none => answer s p 0x10 0x0303 0
    | some off =>
      let o := newHome w (modIdOf s) off (paSize w) (paCache w)
      let s1 := putEntry s n (paObj w) o
      answer (if paZero w || mustFill s w then zeroHome s1 n o else s1) p 0x10 0 0

/-- BIND_QUERY (spec/11 R204): the home module answers with the home's global address, BAD_FIELD, or NO_SPACE at 256 binds. During a
migration the new bind entry is fenced as the others are (R209). -/
def execBindQuery (asker : BitVec 14) (ctx : BitVec 16) (objId : BitVec 32) (s : State) : Out :=
  let send := fun (s : State) (st : Nat) (h : BitVec 64) =>
    emit s (.bindAnswer asker ctx objId { status := BitVec.ofNat 16 st, home := h })
  match slotOfIdent s ctx with
  | none => .next (send s 0x0102 0)
  | some n => match objOf s n objId.toNat with
    | none => .next (send s 0x0102 0)
    | some o =>
      if o.isBind then .next (send s 0x0102 0)
      else if 256 ≤ o.binders.length then .next (send s 0x0303 0)
      else
        let m := if o.state = .fencing then o.mig.map fun m => { m with unacked := (m.unacked ++ [asker]).eraseDups } else o.mig
        let s1 := send (putEntry s n objId.toNat { o with binders := o.binders ++ [asker], mig := m }) 0 (homeAddr o)
        .next (if o.fenced then emit s1 (.fenceNotice asker ctx (homeAddr o)) else s1)

/-- BIND_ANSWER: the BIND that waits for it creates its entry, or is answered with the home module's status; BAD_FIELD where its identifier
was allocated meanwhile (R201). -/
def execBindAnswer (ctx : BitVec 16) (objId : BitVec 32) (reply : MgtReply) (s : State) : Out :=
  match slotOfIdent s ctx with
  | none => .next s
  | some n => match ctxOf s n with
    | none => .next s
    | some c => match c.bindPkts.find? fun p => paAddr p.param % 2 ^ 32 == objId.toNat with
      | none => .next s
      | some p =>
        let s1 := modCtx s n fun c => { c with bindPkts := c.bindPkts.erase p }
        if reply.status ≠ 0 then .next (answer s1 p 0x10 reply.status.toNat 0)
        else if idTaken s1 n (paObj p.param) then .next (answer s1 p 0x10 0x0102 0)
        else if tablesFull s1 n then .next (answer s1 p 0x10 0x0303 0)
        else
          let o : Obj := { isBind := true, homeMod := BitVec.ofNat 14 (bits reply.home 50 14),
                           tier := BitVec.ofNat 2 (bits reply.home 48 2), off := bits reply.home 0 48, size := 0, spread := 0,
                           sgrp := 0, part := 0, cache := false, state := .homed, binders := [], fenced := false, mig := none }
          .next (answer (putEntry s1 n (paObj p.param) o) p 0x10 0 0)

/-! ### OBJ_FREE and OBJ_QUERY (spec/11 R205, R223) -/

/-- The parameter-group table of slot `n`: its object and its count (spec/20 Table 20.3). -/
def groupsItem (s : State) (n : Nat) : Nat × Nat :=
  let w := vget (cfgOf s).groups n 0
  (bits w 32 32, bits w 0 13)

/-- Group `g`'s record as it lies in the table now (spec/10 R176). -/
def groupRecord (s : State) (n g : Nat) : BitVec 1024 := BitVec.ofNat 1024 (objNum s n (groupsItem s n).1 (128 * g) 128)

/-- The nine objects that a group record names (spec/10 Table 10.1). -/
def groupObjs (r : BitVec 1024) : List Nat := (List.range 9).map fun i => bits r (992 - 32 * i) 32

/-- The object that an access to `id` reaches in a context whose groups are known: of a pair of versions a read reaches the committed one,
and a write the next one, or the staging object of a sparse group (spec/01 R15; spec/10 R188; DEDUCED, log 153). -/
def versionId (c : Ctx) (write : Bool) (id : Nat) : Nat :=
  (c.records.findSome? fun r => [0, 2, 4, 6].findSome? fun i =>
    let os := groupObjs r
    let v := if bit r 409 then 0 else bits c.updState 0 1
    if id ≠ 0 ∧ (os.getD i 0 = id ∨ os.getD (i + 1) 0 = id) then some (os.getD (i + if write then 1 - v else v) 0) else none).getD id

/-- A parameter-group record of the context names the object. -/
def groupsName (s : State) (n id : Nat) : Bool :=
  (objOf s n (groupsItem s n).1).isSome &&
  (List.range (groupsItem s n).2).any fun g => (groupObjs (groupRecord s n g)).contains id

/-- The image of the running plan. -/
def runImage (c : Ctx) : List Byte := match c.run with
  | some r => match tget c.plans r.number.toNat with
    | some pl => pl.image
    | none => []
  | none => []

/-- The context's running plan names the object. -/
def planNames (s : State) (n id : Nat) : Bool := match ctxOf s n with
  | some c => c.run.isSome && (imageObjs (runImage c)).contains id
  | none => false

/-- OBJ_FREE. -/
def execObjFree (p : Packet) (s : State) : Out := ctxCommand p 0x11 s fun n s =>
  let id := bits p.param 224 32
  match objOf s n id with
  | none => answer s p 0x11 0x0102 0
  | some o =>
    if !zeroBits p 0 224 then answer s p 0x11 0x0102 0
    else if planNames s n id ∨ groupsName s n id ∨ o.mig.isSome ∨ o.fenced then answer s p 0x11 0x0300 0
    else answer (delEntry s n id) p 0x11 0 0

/-- The state code of an object (spec/11 Table 11.6). -/
def objStateCode : ObjState → Nat
  | .homed => 0
  | .fencing => 1
  | .copying => 2
  | .committing => 3
  | .lost => 4

/-- The OBJ_QUERY record (spec/11 Table 11.6). -/
def objRecord (id : Nat) (o : Obj) : Nat :=
  pack [(328, 0), (16, o.binders.length), (32, id), (4, o.part.toNat), (4, o.sgrp.toNat), (2, o.spread.toNat), (1, b2n o.cache),
    (1, b2n o.isBind), (4, objStateCode o.state), (8, 0), (48, o.size), (64, (homeAddr o).toNat)]

/-- OBJ_QUERY. -/
def execObjQuery (p : Packet) (s : State) : Out := ctxCommand p 0x13 s fun n s =>
  let id := bits p.param 224 32
  let addr := bits p.param 128 64
  match objOf s n id with
  | none => answer s p 0x13 0x0102 0
  | some o =>
    if addr % 64 ≠ 0 ∨ !zeroBits p 0 128 ∨ !zeroBits p 192 32 then answer s p 0x13 0x0102 0
    else answer (hostRecord s addr (leBytes 64 (objRecord id o))) p 0x13 0 0

/-! ### Migration (spec/11 R208 to R210, Table 11.3) -/

/-- The object lies in a BAR2 window of the active set. -/
def inWindow (s : State) (o : Obj) : Bool :=
  o.tier == 0 && (cfgOf s).window.toList.any fun w => bit w 63 && overlap (windowRange w) (homeRange o)

/-- A loaded plan of the context holds the object in place as a page table or free list (spec/08 R140). -/
def heldByKv (s : State) (n id : Nat) : Bool := match ctxOf s n with
  | some c => c.plans.any fun e => (recsOf e.2.image 0x07).any fun o =>
      bits (kvAt e.2.image o) 224 32 == id || bits (kvAt e.2.image o) 192 32 == id
  | none => false

/-- OBJ_MIGRATE: the checks of R201 for the new home, then FENCING. DESIGN CHOICE (log 147): a LOST object has nothing to copy, and the
answer is DATA_ERROR. -/
def execObjMigrate (p : Packet) (s : State) : Out := ctxCommand p 0x12 s fun n s =>
  let w := p.param
  let local_ := decide (paMod w = modIdOf s)
  match objOf s n (paObj w) with
  | none => answer s p 0x12 0x0102 0
  | some o =>
    if o.isBind ∨ allocReserved w ∨ (if local_ then allocAtBad s w else atBad w) ∨ paKind w ≠ 0 ∨ paSize w ≠ 0 ∨ paZero w ∨ paCache w then answer s p 0x12 0x0102 0
    else if paTier w = 2 ∧ (paAddr w % 4096 ≠ 0 ∨ 2 ^ 48 ≤ paAddr w) then answer s p 0x12 0x0102 0
    else if inWindow s o ∨ (heldByKv s n (paObj w) ∧ (!local_ ∨ paTier w = 2)) then answer s p 0x12 0x0105 0
    else if o.mig.isSome then answer s p 0x12 0x0300 0
    else if o.state = .lost then answer s p 0x12 0x0500 0
    else if local_ ∧ paTier w = 1 ∧ !partAllowed s n (paPart w) then answer s p 0x12 0x0105 0
    else
      let place := if local_ then choosePlace s w o.size else none
      if local_ ∧ place.isNone then answer s p 0x12 0x0303 0
      else
        let m : Migration :=
          { pkt := p, newMod := paMod w, newTier := paTier w, newOff := place.getD 0, newSpread := paSpread w, newSgrp := paSgrp w,
            newPart := BitVec.ofNat 4 (paPart w), placed := local_, unacked := o.binders.eraseDups, lostBind := false }
        let s1 := tellBinders (putEntry (draw (wakePower s)) n (paObj w) { o with state := .fencing, fenced := true, mig := some m }) o
          fun b => .fenceNotice b (identOf s n) (homeAddr o)
        if local_ then s1
        else emit s1 (.placeQuery (paMod w) (identOf s n) { param := w, size := o.size, cache := o.cache, home := homeAddr o, binders := o.binders })

/-- The bind entry of slot `n` for the home at `home`. -/
def bindFor (s : State) (n : Nat) (home : BitVec 64) : Option Nat :=
  (ctxOf s n).bind fun c => (c.objs.find? fun e => e.2.isBind && homeAddr e.2 == home).map (·.1)

/-- MIGRATION_PLACE_QUERY: the new home module makes the tier, partition and space checks, and keeps the place it answers. The home
entry will be that of the bind entry it holds for the object, under its own identifier, else a new one, whose identifier must not be
in the table (R201, R208). -/
def execMigrationPlaceQuery (asker : BitVec 14) (ctx : BitVec 16) (req : PlaceReq) (s : State) : Out :=
  let send := fun (s : State) (st : Nat) (h : BitVec 64) =>
    emit s (.placeAnswer asker ctx { status := BitVec.ofNat 16 st, home := h })
  let w := req.param
  match slotOfIdent s ctx with
  | none => .next (send s 0x0104 0)
  | some n =>
    let b := bindFor s n req.home
    if allocReserved w ∨ allocAtBad s w ∨ paMod w ≠ modIdOf s ∨ (b.isNone ∧ idTaken s n (paObj w)) then .next (send s 0x0102 0)
    else if paTier w = 1 ∧ !partAllowed s n (paPart w) then .next (send s 0x0105 0)
    else if b.isNone ∧ tablesFull s n then .next (send s 0x0303 0)
    else match choosePlace s w req.size with
      | none => .next (send s 0x0303 0)
      | some off =>
        let o := { newHome w (modIdOf s) off req.size req.cache with
                   binders := req.binders.erase (modIdOf s) ++ [BitVec.ofNat 14 (bits req.home 50 14)] }
        .next (send (draw (modCtx s n fun c => { c with incoming := tput c.incoming (b.getD (paObj w)) (req.home, o) })) 0 (homeAddr o))

/-- The entry of a migrating object in a given state. -/
def migrating (s : State) (slot : BitVec 6) (objId : BitVec 32) (st : ObjState) : Option (Obj × Migration) :=
  match objOf s slot.toNat objId.toNat with
  | some o => match o.mig with
    | some m => if o.state = st then some (o, m) else none
    | none => none
  | none => none

/-- MIGRATION_PLACE_ANSWER: a refusal returns the object to HOMED at the old home; a grant gives the new place. -/
def execMigrationPlaceAnswer (slot : BitVec 6) (objId : BitVec 32) (reply : MgtReply) (s : State) : Out :=
  match migrating s slot objId .fencing with
  | none => .next s
  | some (o, m) =>
    if m.placed then .next s
    else if reply.status ≠ 0 then .next (migrationBack s slot.toNat objId.toNat o m reply.status.toNat)
    else .next (putEntry s slot.toNat objId.toNat
      { o with mig := some { m with placed := true, newTier := BitVec.ofNat 2 (bits reply.home 48 2), newOff := bits reply.home 0 48 } })

/-- A bind entry of the context whose home is `home`, changed by `f`. -/
def onBind (s : State) (ctx : BitVec 16) (home : BitVec 64) (f : Obj → Obj) : State :=
  match slotOfIdent s ctx with
  | none => s
  | some n => modCtx s n fun c =>
      { c with objs := tmap c.objs fun _ o => if o.isBind ∧ homeAddr o = home then f o else o }

/-- MIGRATION_FENCE_NOTICE: writes to the object are held here, and the notice is acknowledged. -/
def execMigrationFenceNotice (ctx : BitVec 16) (home : BitVec 64) (s : State) : Out :=
  .next (emit (onBind s ctx home fun o => { o with fenced := true }) (.fenceAck (BitVec.ofNat 14 (bits home 50 14)) ctx home))

/-- MIGRATION_COMMIT_NOTICE: writes go to the new home; a home that this module placed for the object enters its table, and is released
where the migration went back to the old home. -/
def execMigrationCommitNotice (ctx : BitVec 16) (oldHome newHome : BitVec 64) (s : State) : Out :=
  let s1 := onBind s ctx oldHome fun o =>
    { o with fenced := false, homeMod := BitVec.ofNat 14 (bits newHome 50 14), tier := BitVec.ofNat 2 (bits newHome 48 2),
             off := bits newHome 0 48 }
  match slotOfIdent s1 ctx with
  | none => .next s1
  | some n => .next (modCtx s1 n fun c =>
      { c with incoming := c.incoming.filter fun e => e.2.1 != oldHome,
               objs := (c.incoming.find? fun e => e.2.1 == oldHome && homeAddr e.2.2 == newHome).elim c.objs fun e =>
                 tput c.objs e.1 e.2.2 })

/-- A running codec job writes object `id`. -/
def jobWrites (s : State) (slot : BitVec 6) (id : Nat) (j : CodecJob) : Bool := j.slot == slot && match ctxOf s slot.toNat with
  | some c => ((tget c.codec j.cfg.toNat).elim false fun p => bits p 208 32 == id) ||
      (!j.expand && (j.obj.toNat == id || c.pool.any fun e => e.toNat == id))
  | none => false

/-- A write to the object is in flight: an OUT tile that has started, a codec job that runs, or a STEP_COMMIT that was accepted (log 44). A
tile of a CODEC stream starts with its job. -/
def writesInFlight (s : State) (slot : BitVec 6) (id : Nat) : Bool :=
  (s.cores.toList.any fun c => c.slot == some slot && c.streams.toList.any fun x =>
    x.state != .free && bit x.desc 179 && (ctxOf s slot.toNat).any (fun y => versionId y true (bits x.desc 480 32) == id) && bits x.desc 176 3 != 3 && !x.tiles.isEmpty) ||
  (s.clusters.toList.any fun k => (k.enc.running.toList ++ k.dec.running.toList).any (jobWrites s slot id)) ||
  (ctxOf s slot.toNat).any (·.commit.isSome)

/-- MIGRATION_COPY_START: writes have drained and every bind entry has acknowledged. -/
def execMigrationCopyStart (slot : BitVec 6) (objId : BitVec 32) (s : State) : Out :=
  match migrating s slot objId .fencing with
  | none => .next s
  | some (o, m) =>
    if !m.placed ∨ writesInFlight s slot objId.toNat then .next s
    else .next (putEntry s slot.toNat objId.toNat { o with state := .copying, mig := some { m with unacked := [] } })

/-- MIGRATION_ACK_TIMEOUT: the bind module is lost to the migration. -/
def execMigrationAckTimeout (slot : BitVec 6) (objId : BitVec 32) (binder : BitVec 14) (s : State) : Out :=
  match migrating s slot objId .fencing with
  | none => .next s
  | some (o, m) =>
    if m.unacked.contains binder then
      .next (putEntry s slot.toNat objId.toNat
        { o with binders := o.binders.filter (· != binder),
                 mig := some { m with unacked := m.unacked.erase binder, lostBind := true } })
    else .next s

/-- Marks the lines of a new home that the copy read as uncorrectable (spec/11 R210, spec/12 R233). -/
def markBad (s : State) (pl : Place) (offs : List Nat) : State :=
  match pl with
  | .lpddr a => { s with lines := tmap s.lines fun l t => if offs.any (fun i => (a + i) / 256 == l) then { t with bad := true } else t }
  | .shared a => { s with sharedBad := (s.sharedBad ++ offs.map fun i => (a + i) / 8).eraseDups }
  | .host a => { s with hostPoison := (s.hostPoison ++ offs.map fun i => (a + i) / 64).eraseDups }
  | .remote _ => s

/-- The cached lines that a change makes stale are invalidated (spec/11 R214). -/
def dropCached (s : State) (stale : CacheLine → Bool) : State := { s with cache := s.cache.filter fun l => !stale l }

/-- The lines of an LPDDR6 object leave the cache. -/
def dropCachedObj (s : State) (n : Nat) (o : Obj) : State :=
  dropCached s fun l => o.tier == 0 && l.slot.toNat == n && overlap (l.line * 256, 256) (homeRange o)

/-! ### Migrations that end (R209, R210) -/

/-- MIGRATION_COMMIT: the copy is complete, the entry is switched by one atomic write, commit notices go out, and OBJ_MIGRATE is
answered. `ecc` is what the codes report of the bytes that the copy engine reads. -/
def execMigrationCommit (slot : BitVec 6) (objId : BitVec 32) (ecc : HomeEcc) (s : State) : Out :=
  match migrating s slot objId .copying with
  | none => .next s
  | some (o, m) =>
    let n := slot.toNat
    let rd := readObj s n { o with state := .homed } 0 o.size
    let allBad := rd.bad ++ ecc.bad
    let here := decide (m.newMod = modIdOf s)
    let moved : Obj := { o with homeMod := m.newMod, tier := m.newTier, off := m.newOff, spread := m.newSpread, sgrp := m.newSgrp,
                                part := m.newPart, state := .homed, fenced := false, mig := none, isBind := !here,
                                binders := if here then o.binders else [] }
    let s1 := markBad (writePlace s n (placeOf moved) 0 rd.bytes) (placeOf moved) allBad
    let s2 := modCtx (putEntry (dropCachedObj s1 n o) n objId.toNat moved) n fun c =>
      { c with releasing := c.releasing ++ [(objId.toNat, { o with mig := none })] }
    let s3 := tellBinders s2 { o with binders := if here then o.binders else o.binders ++ [m.newMod] }
      fun b => .commitNotice b (identOf s n) (homeAddr o) (homeAddr moved)
    let s4 := match rd.bad with
      | i :: _ => noteBad s3 n o i
      | [] => s3
    .next (answer (noteSofts s4 n o ecc.soft) m.pkt 0x12 (if !allBad.isEmpty then 0x0500 else if m.lostBind then 0x0402 else 0) 0)

/-- MIGRATION_RELEASE: every bind has acknowledged and every read in flight has completed. -/
def execMigrationRelease (slot : BitVec 6) (objId : BitVec 32) (s : State) : Out :=
  .next (modCtx s slot.toNat fun c => { c with releasing := c.releasing.filter fun e => e.1 != objId.toNat })

/-- Every migration of slot `n` is abandoned at its old home (spec/11 Table 11.3, CTX_RESET). -/
def abandonMigrations (s : State) (n : Nat) : State := match ctxOf s n with
  | some c => c.objs.foldl (fun s e => match e.2.mig with
      | some m => migrationBack s n e.1 e.2 m 0x0400
      | none => s) (modCtx s n fun c => { c with incoming := [] })
  | none => s

end Sys2Proof.Machine
end

