-- ==== Sys2Proof/Machine/FnUnit.lean ====
section
/-! DEFINITION. The function unit (spec/06 R112, R113; spec/02 R40): each function's exact value in fixed point with 256 fraction
bits, and the FP32 results that its accuracy bound allows, of which `Config.fnValue` gives one. -/

namespace Sys2Proof.Machine

/-! ### Fixed point with 256 fraction bits -/

/-- 1, and products and quotients. -/
def fxOne : Int := 2 ^ 256
def fxMul (a b : Int) : Int := a * b / fxOne
def fxDiv (a b : Int) : Int := if b = 0 then 0 else a * fxOne / b

/-- A finite value in fixed point. -/
def fxOf : FVal → Int
  | .fin n m e => (if n then -1 else 1) * (if -256 ≤ e then (m * pow2 (e + 256) : Nat) else (m / pow2 (-256 - e) : Nat) : Int)
  | _ => 0

/-- The square root of a non-negative fixed-point number. -/
def fxSqrt (a : Int) : Int := (Nat.sqrt (a.toNat * 2 ^ 256) : Nat)

/-- Sum of the odd-power series z − c₁z³ + c₂z⁵ − …, with `alt` the alternating signs: the inverse tangents. -/
def atanSum (alt : Bool) (z z2 : Int) : Nat → Nat → Int → Int → Int
  | 0, _, _, acc => acc
  | k + 1, i, t, acc =>
    let term := t / (2 * i + 1 : Nat)
    atanSum alt z z2 k (i + 1) (fxMul t z2) (if alt && i % 2 == 1 then acc - term else acc + term)

/-- arctan and artanh of |z| ≤ 1/3. -/
def fxAtan (z : Int) : Int := atanSum true z (fxMul z z) 100 0 z 0
def fxAtanh (z : Int) : Int := atanSum false z (fxMul z z) 100 0 z 0

/-- ln 2, π and √(2/π). -/
def fxLn2 : Int := 2 * fxAtanh (fxOne / 3)
def fxPi : Int := 16 * fxAtan (fxOne / 5) - 4 * fxAtan (fxOne / 239)
def fxC : Int := fxSqrt (fxDiv (2 * fxOne) fxPi)

/-- The terms x^i / i! times 1 or (−1)^i, every `step`-th, summed. -/
def expSum (x : Int) : Nat → Nat → Int → Int → Int
  | 0, _, _, acc => acc
  | k + 1, i, t, acc => expSum x k (i + 1) (fxMul t x / (i + 1 : Nat)) (acc + t)

/-- e^x, for |x| bounded by 512; 0 far below. -/
def fxExp (x : Int) : Int :=
  if x < -512 * fxOne then 0
  else
    let y := if 512 * fxOne < x then 512 * fxOne else x
    let k := y / fxLn2
    let r := expSum (y - k * fxLn2) 80 0 fxOne 0
    if 0 ≤ k then r * (pow2 k : Nat) else r / (pow2 (-k) : Nat)

/-- ln x for x > 0, as ln of a significand in [1, 2) and a multiple of ln 2. -/
def fxLog (x : Int) : Int :=
  let n := ilog2 x.toNat
  let m : Int := if 256 ≤ n then x / (2 ^ (n - 256) : Nat) else x * (2 ^ (256 - n) : Nat)
  2 * fxAtanh (fxDiv (m - fxOne) (m + fxOne)) + ((n : Int) - 256) * fxLn2

/-- sin x: the argument reduced to [−π, π), then the series. -/
def sinSum (x2 : Int) : Nat → Nat → Int → Int → Int
  | 0, _, _, acc => acc
  | k + 1, i, t, acc =>
    sinSum x2 k (i + 1) (-(fxMul t x2) / ((2 * i + 2) * (2 * i + 3) : Nat)) (acc + t)
def fxSin (x : Int) : Int :=
  let p := fxPi
  let r := x - (x + p) / (2 * p) * (2 * p)
  sinSum (fxMul r r) 60 0 r 0

/-- σ x and tanh x. -/
def fxSigm (x : Int) : Int := if x < 0 then fxDiv (fxExp x) (fxOne + fxExp x) else fxDiv fxOne (fxOne + fxExp (-x))
def fxTanh (x : Int) : Int :=
  let e := fxExp (-2 * (if x < 0 then -x else x))
  let t := fxDiv (fxOne - e) (fxOne + e)
  if x < 0 then -t else t

/-- u = c·(x + 0.044715·x³). -/
def geluU (x : Int) : Int := fxMul fxC (x + fxMul (fxMul x x) x * 44715 / 1000000)

/-- 1 + tanh u, as 2σ(2u), which keeps its precision where u is far below 0. -/
def onePlusTanh (u : Int) : Int := 2 * fxSigm (2 * u)

/-- The functions of Table 6.2 by code, and the derivative forms of Table 6.3 by fn. -/
def fxFn (fn : Nat) (x : Int) : Int :=
  if fn = 0 then fxExp x
  else if fn = 1 then fxLog x
  else if fn = 2 then fxDiv fxOne x
  else if fn = 3 then fxDiv fxOne (fxSqrt x)
  else if fn = 5 then fxTanh x
  else if fn = 6 then fxSigm x
  else if fn = 7 then fxMul x (onePlusTanh (geluU x)) / 2
  else if fn = 8 then fxMul x (fxSigm x)
  else if fn = 9 then fxSin x
  else if fn = 0x22 then
    let p := onePlusTanh (geluU x)
    p / 2 + fxMul (fxMul x (fxMul p (2 * fxOne - p))) (fxMul fxC (fxOne + fxMul x x * 134145 / 1000000)) / 2
  else if fn = 0x23 then fxMul (fxSigm x) (fxOne + fxMul x (fxSigm (-x)))
  else if fn = 0x24 then fxMul (onePlusTanh x) (onePlusTanh (-x))
  else fxMul (fxSigm x) (fxSigm (-x))

/-! ### Results within a bound -/

/-- The error bound of a result, in fixed point: `n` ulp of the rounded result, or the absolute bound of SIN. -/
def fnUlps (fn : Nat) : Nat := if fn = 2 ∨ fn = 3 then 1 else if fn = 6 then 3 else if fn = 7 ∨ fn = 8 ∨ 0x21 ≤ fn then 4 else 2
def fnBound (fn : Nat) (x y : Int) : Int :=
  if fn = 9 then (if (if x < 0 then -x else x) < 2 ^ 20 * fxOne then 2 ^ 234 else 2 ^ 236)
  else
    let r := fp32.roundWith rneTo y.natAbs (-256)
    (fnUlps fn * pow2 (r.2 + 256) : Nat)

/-- Whether FP32 code `c` is a finite result that the bound allows for the exact value `y` of sign `neg`; 2^−190 covers the
error of the fixed point. SIN's bound is absolute, so its results near 0 may have either sign. -/
def fnAllowed (fn c : Nat) (neg : Bool) (x y : Int) : Bool :=
  let v := dec32 c
  !v.isNan && !v.isInf && (fn == 9 || v.sign == neg) && decide (((fxOf v - y).natAbs : Int) ≤ fnBound fn x y + 2 ^ 66)

/-- The result for input bits `xbits`: the free one where it is allowed, else the rounded value. -/
def fnResult (fn xbits : Nat) (neg : Bool) (x y : Int) : Nat :=
  let c := (Config.fnValue fn xbits).toNat
  if fnAllowed fn c neg x y then c else fp32.arith rneTo .max (.fin neg y.natAbs (-256))

/-- An overflowing result (spec/06 R108). -/
def fnOver (ovm neg : Bool) : Nat := if ovm then fp32.infCode neg else fp32.maxCode neg

/-- The square root, correctly rounded: a root with 64 more bits and a sticky bit. -/
def sqrt32 (m : Nat) (e : Int) : Nat :=
  let odd := (e % 2).toNat
  let m2 := m * 2 ^ odd * 2 ^ 128
  let r := Nat.sqrt m2
  f32 (.fin false (2 * r + (if r * r = m2 then 0 else 1)) ((e - odd) / 2 - 65))

/-- −103.98 as a comparison: e^x is +0 below it (spec/06 Table 6.2). -/
def belowExpFloor (v : FVal) : Bool := (FVal.mul v (.fin false 100 0)).lt (.fin true 10398 0)

/-- A function of the function unit: FP32 bits for FP32 bits, with the overflow mode of R108. -/
def fnUnit (fn : Nat) (ovm : Bool) (xbits : Nat) : Nat :=
  let v := dec32 xbits
  let nan := fp32.nanCode
  match v with
  | .nan => nan
  | .inf n =>
    if fn = 0 then (if n then 0 else fp32.infCode false)
    else if fn = 1 then (if n then nan else fp32.infCode false)
    else if fn = 2 then fp32.code n 0 0
    else if fn = 3 then (if n then nan else 0)
    else if fn = 4 then (if n then nan else fp32.infCode false)
    else if fn = 5 then f32 (.fin n 1 0)
    else if fn = 6 then (if n then 0 else f32 (.fin false 1 0))
    else if fn = 7 ∨ fn = 8 then (if n then fp32.code true 0 0 else fp32.infCode false)
    else if fn = 9 then nan
    else if fn = 0x22 ∨ fn = 0x23 then (if n then 0 else f32 (.fin false 1 0))
    else 0
  | .fin n m e =>
    let zero := m == 0
    if zero && fn == 1 then fp32.infCode true
    else if zero && (fn == 2 || fn == 3) then fp32.infCode n
    else if zero && (fn == 4 || fn == 5 || fn == 7 || fn == 8 || fn == 9) then fp32.code n 0 0
    else if n && (fn == 1 || fn == 3 || fn == 4) then nan
    else if fn = 4 then sqrt32 m e
    else if fn = 0 && belowExpFloor v then 0
    else if fn = 1 && v == .fin false (2 ^ 23) (-23) then 0
    else if fn = 9 && !(FVal.lt (.fin false m e) (.fin false (2 ^ 24) 0)) then nan
    else
      let x := fxOf v
      let y := fxFn fn x
      let neg := decide (y < 0) || (y == 0 && n && fn != 0 && fn != 6 && fn != 0x24 && fn != 0x25)
      let r := fp32.roundWith rneTo y.natAbs (-256)
      if fp32.over r.1 r.2 then fnOver ovm neg else fnResult fn xbits neg x y

/-! ### The drain's functions (spec/04 Table 4.10, spec/06 R113) -/

/-- The function unit's code for a drain fn of 2 to 5. -/
def drainFnCode (fn : Nat) : Nat := if fn = 2 then 7 else if fn = 3 then 8 else if fn = 4 then 5 else 6

/-- A forward drain function. A result beyond FP32 becomes infinity (spec/04 R73). -/
def drainFn (fn : Nat) (v : FVal) : FVal :=
  if fn = 0 then v
  else if fn = 1 then (if v.isNan then .nan else if FVal.zero.lt v then v else .zero)
  else dec32 (fnUnit (drainFnCode fn) true (f32 v))

/-- f′ of the pre-activation for a derivative form. -/
def drainDeriv (fn : Nat) (z : FVal) : FVal :=
  if z.isNan then .nan
  else if fn = 0x21 then (if FVal.zero.lt z then .fin false 1 0 else .zero)
  else dec32 (fnUnit fn true (f32 z))

end Sys2Proof.Machine
end

