-- ==== Sys2Proof/Machine/StreamOps.lean ====
section
/-! DEFINITION. Stream descriptors: fields, checks, arming and cancelling (spec/12 R224 to R231). -/

namespace Sys2Proof.Machine

/-- The fields of Table 12.1. -/
def dObj (d : BitVec 512) : Nat := bits d 480 32

/-- The object that a descriptor's transfers reach: of a weight or moment object the version that its direction means (`versionId`). -/
def dHome (s : State) (n : Nat) (d : BitVec 512) : Nat := (ctxOf s n).elim (dObj d) fun c => versionId c (bit d 179) (dObj d)
def dBase (d : BitVec 512) : Nat := bits d 432 48
def dRowBytes (d : BitVec 512) : Nat := bits d 416 16
def dRows (d : BitVec 512) : Nat := bits d 400 16
def dPitch (d : BitVec 512) : Nat := bits d 368 32
def dXs (d : BitVec 512) : Nat := bits d 336 32
def dNx (d : BitVec 512) : Nat := bits d 320 16
def dYs (d : BitVec 512) : Nat := bits d 288 32
def dNy (d : BitVec 512) : Nat := bits d 272 16
def dRing (d : BitVec 512) : Nat := bits d 197 15
def dSlot (d : BitVec 512) : Nat := bits d 183 14
def dA (d : BitVec 512) : Nat := bits d 180 3 + 1
def dOut (d : BitVec 512) : Bool := bit d 179
def dMode (d : BitVec 512) : Nat := bits d 176 3
def dFsrc (d : BitVec 512) : Nat := bits d 172 4
def dStSrc (d : BitVec 512) : Nat := bits d 170 2
def dFdst (d : BitVec 512) : Nat := bits d 166 4
def dAux0 (d : BitVec 512) : Nat := bits d 150 16
def dAux1 (d : BitVec 512) : Nat := bits d 134 16
def dNrow (d : BitVec 512) : Nat := bits d 102 32

/-- Bytes of a tile, and of its BF16 expansion (spec/12 R225, R227): an operand tile of elements followed by scales. -/
def dTileBytes (d : BitVec 512) : Nat := dRows d * dRowBytes d * 64

/-- Whether the stream expands to BF16. -/
def dExpands (d : BitVec 512) : Bool := dFdst d != dFsrc d

/-- The elements of a tile that is expanded: the largest multiple of 32 whose elements and scales fit (spec/12 R227). -/
def dExpandElems (d : BitVec 512) : Nat :=
  let t := dTileBytes d
  let w := fmtBits (dFsrc d)
  if w = 0 then 0
  else if dStSrc d = 0 then t * 8 / w
  else
    let cap := t * 8 / w / 32
    32 * (((List.range (cap + 1)).filter fun k => decide (operandBytes (dFsrc d) 1 (32 * k) ≤ t)).getLastD 0)

/-- The reserved bits and codes of a descriptor (spec/12 Table 12.2, row 1); a GATHER ignores st_src (spec/04 R70). -/
def descReserved (d : BitVec 512) (gather : Bool) : Bool :=
  decide (3 < dMode d) || fmtReserved (dFsrc d) || fmtReserved (dFdst d) || (!gather && decide (1 < dStSrc d)) || bits d 0 102 != 0 ||
  (!gather && dNrow d != 0) || (!gather && dMode d != 2 && dAux1 d != 0) || (!gather && dMode d == 3 && 64 ≤ dAux0 d)

/-- The source tile is one operand tile, 128 by a depth of 32 to 128, elements followed by scales (spec/04 R67, spec/05 R83). -/
def operandTile (d : BitVec 512) : Bool :=
  decide (1 ≤ dFsrc d ∧ dFsrc d ≤ 9) &&
  (List.range 4).any fun k => dTileBytes d == operandBytes (dFsrc d) (if dStSrc d = 1 then 1 else 0) (4096 * (k + 1))

/-- fmt_dst outside the two cases of R227: an operand tile that a LINEAR stream reads, and the V half of a paged read stream. -/
def expandBad (d : BitVec 512) : Bool :=
  dExpands d && !(dFdst d == 2 && !dOut d &&
    ((dMode d == 0 && dPitch d == dRowBytes d && operandTile d) || (dMode d == 2 && dAux0 d / 2 ^ 15 == 1)))

/-- The expanded tile of a BF16 expansion that R227 allows is above the slot. -/
def expandsOver (d : BitVec 512) : Bool := dExpands d && !expandBad d && decide (dSlot d * 64 < 2 * dExpandElems d)

/-- A field outside its range (row 2); nx, ny and the strides are ignored in every mode but LINEAR (spec/12 R226). -/
def descRange (d : BitVec 512) : Bool :=
  let lin := dMode d == 0
  decide (dRowBytes d = 0 ∨ 8192 < dRowBytes d ∨ dRows d = 0 ∨ 4096 < dRows d ∨ dSlot d = 0) ||
  (lin && (dNx d == 0 || dNy d == 0)) ||
  decide (dSlot d < dRows d * dRowBytes d) ||
  expandsOver d || dBase d % 64 != 0

/-- The mask ring of a paged read stream: one FP32 row for each slot of its ring (spec/12 R226). -/
def maskRing (d : BitVec 512) : Nat × Nat := (0x1E0000 + 64 * dAux1 d, 512 * (dA d + 1))
def hasMask (d : BitVec 512) : Bool := dMode d == 2 && !dOut d

/-- The faults of a ring that does not lie wholly in the operand buffers, or wholly in the line buffers and scratch region (row 3), or
whose mask ring leaves the local store. DEDUCED (log 156): row 3 gives LS_RANGE, and a ring within the accumulator memory or the spill
buffer raises LS_REGION, as spec/03 R45 says of stream rings. -/
def ringFaults (d : BitVec 512) : List Nat :=
  lsCheck (64 * dRing d) ((dA d + 1) * dSlot d * 64) ++ chk (hasMask d && decide (0x200000 < (maskRing d).1 + (maskRing d).2)) 2

/-- A vid of a descriptor has no translation, or the stream would wait through a remote range (spec/17 R320). -/
def descVidsBad (s : State) (n : Nat) (d : BitVec 512) : Bool :=
  let bad := fun v => translate s n v == .unmapped
  let far := match translate s n (dFree d) with
    | .remote _ => true
    | _ => false
  bad (dDone d) || bad (dFree d) || far || (dEnd d != 0 && bad (dEnd d))

/-- The faults of a descriptor when it is armed (spec/12 Table 12.2). An st_src of E8M0_32 beside FP32, FP16 or BF16, which R434 does not
name, raises nothing here (DESIGN CHOICE, log entry 133). -/
def armFaults (s : State) (n : Nat) (d : BitVec 512) : List Nat :=
  chk (descReserved d false || descRange d) 1 ++ ringFaults d ++ chk (expandBad d || dFsrc d == 10) 5 ++ chk (descVidsBad s n d) 8

/-- The faults of a GATHER's descriptor (spec/04 R70). -/
def gatherFaults (d : BitVec 512) : List Nat :=
  chk (descReserved d true || dMode d != 0 || dRowBytes d == 0 || 64 < dRowBytes d || dBase d % 64 != 0) 1 ++
  chk (dFdst d != dFsrc d || dFsrc d == 10) 5

/-! ### The number of tiles (spec/12 R225, R226) -/

/-- The logical pages of a PAGED stream (spec/08 R144 to R146, R151): from the page of its first token to that of its last. -/
def pagedPages (len from_ : Nat) : List Nat := (List.range (ceilDiv len 128 - from_ / 128)).map (· + from_ / 128)

/-- The length that a PAGED stream reads when it is armed (spec/08 R141, R144). -/
def armLen (s : State) (n : Nat) (d : BitVec 512) : Nat :=
  if dMode d = 2 then match kvByObj s n (dObj d) with
    | some k => seqLen s n (kvPt k) (dAux0 d % 2 ^ 15)
    | none => 0
  else 0

/-- The first token of a PAGED stream when it is armed: of a read stream, the first that some query of the tile sees, whose lowest query is
free (spec/08 R144, R146); of a write stream, the first of the tokens that the plan appended last (R151). -/
def armFrom (s : State) (n : Nat) (d : BitVec 512) : Nat :=
  if dMode d = 2 then match kvByObj s n (dObj d) with
    | some k =>
      let r := seqRecord s n (kvPt k) (dAux0 d % 2 ^ 15)
      let len := armLen s n d
      if dOut d then min len ((countOf s n (seqLenSid r)).toNat - (addedOf s n (seqLenSid r)).toNat)
      else if seqWindow r = 0 ∨ len = 0 then 0
      else Config.lowQuery (dObj d) (dAux0 d) len % len + 1 - seqWindow r
    | none => 0
  else 0

/-- A geometry record (spec/07 Table 7.1). -/
structure Geo where
  inExt : Nat
  k : Nat
  dil : Nat
  stride : Nat
  lo : Nat
  hi : Nat
deriving DecidableEq, Repr

/-- The geometry in a 64-bit record. -/
def geoOf (x : Nat) : Geo :=
  let r : BitVec 64 := BitVec.ofNat 64 x
  { inExt := bits r 48 16, k := bits r 40 8, dil := bits r 32 8, stride := bits r 26 6, lo := bits r 14 12, hi := bits r 2 12 }

/-- The output extent (spec/07 R117). -/
def Geo.out (g : Geo) : Int :=
  ((g.inExt : Int) + g.lo + g.hi - g.dil * (g.k - 1 : Int) - 1) / (if g.stride = 0 then 1 else g.stride : Nat) + 1

/-- A convolution layer as a CONV stream needs it: its word, its geometry and its input tensor's channels and batch. -/
structure ConvLayer where
  word : BitVec 64
  w : Geo
  h : Geo
  t : Geo
  chans : Nat
  batch : Nat
deriving DecidableEq, Repr

/-- The LAYER record at offset `o` of an image (spec/13 Table 13.9). -/
def layerAt (img : List Byte) (o : Nat) : ConvLayer :=
  let word : BitVec 64 := BitVec.ofNat 64 (imgNum img o 8)
  let t := (recsOf img 0x0A).getD (imgNum img (o + 36) 4) 0
  let nd := bits word 44 2
  { word := word, w := geoOf (imgNum img (o + 8) 8), h := geoOf (imgNum img (o + 16) 8), t := geoOf (imgNum img (o + 24) 8),
    chans := imgNum img (t + 20) 4,
    batch := if nd + 1 < imgNum img (t + 16) 2 then imgNum img (t + 20 + 4 * (nd + 1)) 4 else 1 }

/-- The LAYER record at offset `o` as it runs: a layer of a recompute segment has the engine and mapping of its forward layer (spec/14
R258, spec/07 R128). -/
def layerRun (img : List Byte) (o : Nat) : ConvLayer :=
  let l := layerAt img o
  match (recsOf img 0x06).find? fun x => imgNum img (x + 32) 4 == forwardOf img (imgNum img (o + 32) 4) with
  | some f => { l with word := BitVec.ofNat 64 (l.word.toNat - bits l.word 46 4 * 2 ^ 46 + bits (layerAt img f).word 46 4 * 2 ^ 46) }
  | none => l

/-- The image of the running plan of slot `n`. -/
def imageOf (s : State) (n : Nat) : List Byte := (ctxOf s n).elim [] runImage

/-- The layer that a CONV stream names in the running plan (spec/12 Table 12.1). -/
def convLayer (s : State) (n : Nat) (d : BitVec 512) : Option ConvLayer := match ctxOf s n with
  | some c => ((recsOf (runImage c) 0x06)[dAux0 d]?).map (layerRun (runImage c))
  | none => none

/-- Some tap of the first `outs` output elements reads padded position `v` of an extent (spec/07 R117). -/
def tapReads (g : Geo) (outs v : Nat) : Bool :=
  let st := if g.stride = 0 then 1 else g.stride
  (List.range g.k).any fun j => decide (g.dil * j ≤ v) && (v - g.dil * j) % st == 0 && decide ((v - g.dil * j) / st < outs)

/-- The input rows of `outs` output rows (spec/07 R122). -/
def rowsIn (l : ConvLayer) (outs : Nat) : Nat := (outs - 1) * l.h.stride + l.h.dil * (l.h.k - 1) + 1

/-- The rows of a tile that each of the K_t input frames may fill. -/
def frameRows (l : ConvLayer) (d : BitVec 512) : Nat := dRows d / (if l.t.k = 0 then 1 else l.t.k)

/-- Output rows of a stripe: the most whose input rows of every tap frame fill the tile's rows (spec/07 R122). -/
def stripeRows (l : ConvLayer) (d : BitVec 512) : Nat :=
  (frameRows l d - (l.h.dil * (l.h.k - 1) + 1)) / (if l.h.stride = 0 then 1 else l.h.stride) + 1

/-- Stripes of one output frame: an OUT tile's rows are output rows. -/
def stripesPerFrame (l : ConvLayer) (d : BitVec 512) : Nat :=
  ceilDiv l.h.out.toNat (if dOut d then (if dRows d = 0 then 1 else dRows d) else stripeRows l d)

/-- The rows by which a stripe moves on in the ring: its new rows where it shares a halo with the stripe before, all of them else. -/
def stripeStep (l : ConvLayer) (d : BitVec 512) : Nat := min (stripeRows l d * l.h.stride) (rowsIn l (stripeRows l d))

/-- The ring rows of one output frame: those of its last stripe, after a step for each stripe before it. -/
def ringRowsPerFrame (l : ConvLayer) (d : BitVec 512) : Nat :=
  let last := stripesPerFrame l d - 1
  last * stripeStep l d + rowsIn l (l.h.out.toNat - last * stripeRows l d)

/-- The micro-batches of the running plan (spec/13 Table 13.7). -/
def planMb (s : State) (n : Nat) : Nat := match ctxOf s n with
  | some c => hdrMb (runImage c)
  | none => 0

/-- The number of tiles of a descriptor; a PAGED stream's follow from what it read when it was armed. -/
def tileCount (s : State) (n : Nat) (d : BitVec 512) (len from_ : Nat) : Nat :=
  match dMode d with
  | 0 => dNx d * dNy d
  | 1 => match convLayer s n d with
    | some l => stripesPerFrame l d * l.t.out.toNat * l.batch
    | none => 0
  | 2 => (pagedPages len from_).length
  | _ => match codecCfg s n (dAux0 d % 64) with
    | some c => planMb s n * tcNf c * tcNtr c * tcNtc c
    | none => 0

/-! ### Arming, ending and cancelling (spec/12 R229, R231, Table 12.3) -/

/-- The waiter entry of a stream (spec/17 R325). -/
def isStreamWaiter (core k : Nat) (w : Waiter) : Bool := match w.kind with
  | .stream c x => c.toNat == core && x.toNat == k
  | _ => false
def dropStreamWaiter (s : State) (core k : Nat) : State :=
  { s with waiters := s.waiters.filter fun w => !isStreamWaiter core k w }

/-- Signals a stream's end_sid, 0 for none. -/
def signalEnd (s : State) (core n : Nat) (d : BitVec 512) : State :=
  if dEnd d = 0 then s else signalVid s (BitVec.ofNat 8 core) n (dEnd d) 1

/-- What a PAGED descriptor's sequence does to the plan when it takes effect: a record that reads as uncorrectable ends the plan (spec/08
R156), and a write stream whose tokens all lie beyond the sequence's pages writes nothing and ends the sequence (R147). -/
def armSeq (s : State) (n : Nat) (d : BitVec 512) : State :=
  if dMode d = 2 then match kvByObj s n (dObj d) with
    | some k =>
      let q := dAux0 d % 2 ^ 15
      let r := seqRecord s n (kvPt k) q
      if !objGood s n (kvPt k) (64 + 64 * q) 64 then (objOf s n (kvPt k)).elim s fun o => homeError s n o (64 + 64 * q)
      else if dOut d ∧ seqMax r * 128 ≤ armFrom s n d ∧ seqMax r * 128 < (countOf s n (seqLenSid r)).toNat ∧ seqState r ≠ 3 then
        seqEnded (setSeqState s n (kvPt k) q 3) n q 0x0303
      else s
    | none => s
  else s

/-- Arms stream `k` of core `core` from a descriptor: D0 and F0 are read, and the stream follows free_sid. -/
def armNow (s : State) (core n k : Nat) (d : BitVec 512) : State :=
  let f0 := countOf s n (dFree d)
  let s1 := modStream (dropStreamWaiter s core k) core k fun _ =>
    { Stream.init with state := .active, desc := d, keep := d, d0 := countOf s n (dDone d), f0 := f0, lastF := f0,
                       lenAtArm := armLen s n d, fromAtArm := armFrom s n d }
  match pidOf s n (dFree d) with
  | some pid =>
    let w : Waiter := { cluster := BitVec.ofNat 4 (core / 16), kind := .stream (BitVec.ofNat 8 core) (BitVec.ofNat 4 k),
                        pid := pid, slot := BitVec.ofNat 6 n, target := 0, timeout := none, since := s.postmark, expired := false }
    armSeq { s1 with waiters := s1.waiters ++ [w] } n d
  | none => armSeq s1 n d

/-- The tiles of a stream's active descriptor. -/
def streamTiles (s : State) (n : Nat) (x : Stream) : Nat := tileCount s n x.desc x.lenAtArm x.fromAtArm

/-- A descriptor that takes effect in a running stream keeps the stream's counters, end_sid, ring, slot, ra and dir (R230). -/
def keepFields (keep d : BitVec 512) : BitVec 512 := BitVec.ofNat 512 (d.toNat - bits d 179 93 * 2 ^ 179 + bits keep 179 93 * 2 ^ 179)

/-- The ring rows that the frames of a stream's active descriptor take (spec/07 R122). -/
def ringRowsOf (s : State) (n : Nat) (x : Stream) : Nat :=
  if dMode x.desc = 1 then match convLayer s n x.desc with
    | some l => ringRowsPerFrame l x.desc * l.t.out.toNat * l.batch
    | none => 0
  else 0

/-- The number of tiles left unsignalled of the active descriptor is 0. -/
def descDone (s : State) (n : Nat) (x : Stream) : Bool :=
  x.state == .active && x.tiles.isEmpty && decide (x.first + streamTiles s n x ≤ x.signalled)

/-- The last descriptor of a stream has ended: end_sid is signalled, and the stream is FREE. -/
def freeDone (s : State) (core n k : Nat) : State :=
  let s1 := signalEnd s core n (streamOf (coreOf s core) k).keep
  modStream (dropStreamWaiter s1 core k) core k fun x => { x with state := .free }

/-- The active descriptor has ended: end_sid is signalled, and the pending descriptor becomes active or the stream FREE. A pending
descriptor with no tiles ends as it becomes active. -/
def endDesc (s : State) (core n k : Nat) : State :=
  let x := streamOf (coreOf s core) k
  if descDone s n x then
    match x.pending with
    | some p =>
      let d := keepFields x.keep p
      let s2 := modStream (signalEnd s core n x.keep) core k fun x =>
        { x with desc := d, pending := none, first := x.signalled, next := x.signalled, lenAtArm := armLen s n d,
                 fromAtArm := armFrom s n d, rowBase := x.rowBase + ringRowsOf s n x }
      let s3 := armSeq s2 n d
      if descDone s3 n (streamOf (coreOf s3 core) k) then freeDone s3 core n k else s3
    | none => freeDone s core n k
  else s

/-- A CANCELLING stream whose last transfer has completed becomes FREE, or arms its pending descriptor afresh; a quiet one gives no
signal and arms nothing. -/
def cancelDone (s : State) (core n k : Nat) (quiet : Bool) : State :=
  let x := streamOf (coreOf s core) k
  let s1 := dropStreamWaiter (if quiet then s else signalEnd s core n x.keep) core k
  match if quiet then none else x.pending with
  | some d => armNow s1 core n k d
  | none => modStream s1 core k fun x => { x with state := .free, frozen := false, pending := none }

/-- The lowest-numbered free stream. -/
def freeStream (s : State) (core : Nat) : Option Nat := firstBelow 16 fun k => (streamOf (coreOf s core) k).state == .free

/-- ARM: the status code and the stream number (spec/04 R69, spec/03 R53). A refused ARM has no stream: it reports 0 (DESIGN CHOICE, log
entry 131). One that a plan left in its queue when it began to end starts no stream. -/
def armStream (s : State) (core n : Nat) (d : BitVec 512) : State × Nat × Nat :=
  if planEnding s n then (s, 0, 0) else match freeStream s core with
  | some k => (endDesc (armNow s core n k d) core n k, 0, k)
  | none => (s, 0x0300, 0)

/-- REARM (spec/12 Table 12.3). -/
def rearmStream (s : State) (core n k : Nat) (d : BitVec 512) : State × Nat × Nat :=
  let x := streamOf (coreOf s core) k
  if planEnding s n then (s, 0, k)
  else if x.state = .free then (endDesc (armNow s core n k d) core n k, 0, k)
  else if x.pending.isSome then (s, 0x0301, k)
  else (modStream s core k fun x => { x with pending := some d }, 0, k)

/-- CANCEL. -/
def cancelOne (s : State) (core k : Nat) : State × Nat × Nat := (modStream s core k cancelStream, 0, k)

/-! ### Fetch tags (spec/03 R52) -/

/-- A fetch tag is free. -/
def tagFree (c : Core) : Bool := decide (c.tags < 128)

/-- The threads of a core that wait for a resource issue again. -/
def wakeHeld (h : Hold) (c : Core) : Core :=
  { c with threads := c.threads.map fun t => if t.hold = h then wake t else t }

/-- One fetch tag of core `c` is released. -/
def releaseTag (s : State) (c : Nat) : State := modCore s c fun x => wakeHeld .fetchTag { x with tags := x.tags - 1 }

end Sys2Proof.Machine
end

