-- ==== Sys2Proof/Machine/Matrix.lean ====
section
/-! DEFINITION. The arithmetic of the matrix array and the spill path (spec/05 R79 to R103). -/

namespace Sys2Proof.Machine

/-! ### Operands with their errors (spec/05 R102) -/

/-- An uncorrectable word lies between byte offsets `lo` and `hi`, taken by 64-bit words. -/
def hardIn (errs : List LsError) (lo hi : Nat) : Bool := errs.any fun e => e.hard && decide (lo / 8 ≤ e.addr / 8 ∧ e.addr / 8 ≤ hi / 8)

/-- The code of element `i` of a packed run at `a`. -/
def lsCode (ls : Mem) (code a i : Nat) : Nat := elemAt (fun j => Mem.byte ls (a + j)) code i

/-- Element `i` has an uncorrectable word. -/
def elemHard (errs : List LsError) (code a i : Nat) : Bool := hardIn errs (a + (elemSpan code i).1) (a + (elemSpan code i).2)

/-- An unscaled element: a NaN where its word is uncorrectable. -/
def lsElem (ls : Mem) (errs : List LsError) (code a i : Nat) : FVal :=
  if elemHard errs code a i then .nan else decodeElem code (lsCode ls code a i)

/-- A scaled element, with its scale byte at `sa`. -/
def lsScaled (ls : Mem) (errs : List LsError) (code a i sa : Nat) : FVal :=
  if elemHard errs code a i || hardIn errs sa sa then .nan
  else decodeScaled code (Mem.byte ls sa).toNat (lsCode ls code a i)

/-! ### Tiles and spill slots (spec/03 Table 3.3) -/

/-- Where accumulator tile `n` and spill slot `m` start. -/
def tileBase (n : Nat) : Nat := 0x100000 + n * 0x10000
def slotBase (m : Nat) : Nat := 0x180000 + m * 0x18000

/-- The 32 bits of tile element `e`, and its bytes' errors. -/
def tileWord (c : Core) (n e : Nat) : Nat := Mem.num c.ls (tileBase n + 4 * e) 4
def tileHard (errs : List LsError) (n e : Nat) : Bool := hardIn errs (tileBase n + 4 * e) (tileBase n + 4 * e + 3)

/-- Whether tile `n` holds INT32. -/
def tileInt (c : Core) (n : Nat) : Bool := bit c.accInt n

/-- INT32 0x8000_0000, which stands for a NaN in an integer tile. -/
def intBad : Nat := 0x80000000

/-- An element of a tile as a value: an INT32 element as its integer, an uncorrectable one as NaN. -/
def tileVal (c : Core) (errs : List LsError) (n e : Nat) : FVal :=
  if tileHard errs n e then .nan
  else if tileInt c n then .ofInt (signed 32 (tileWord c n e))
  else dec32 (tileWord c n e)

/-- Tile `n` with every element given by `f`. -/
def putTile (c : Core) (n : Nat) (f : Nat → Nat) : Core :=
  { c with ls := Mem.write c.ls (tileBase n) ((List.range 16384).flatMap fun e => leBytes 4 (f e)) }

/-- Tile `n`, and slot `m`, at +0. -/
def zeroTile (c : Core) (n : Nat) : Core := { c with ls := Mem.zero c.ls (tileBase n) 0x10000 }
def zeroSlot (c : Core) (m : Nat) : Core := { c with ls := Mem.zero c.ls (slotBase m) 0x18000 }

/-- An element of a spill slot. -/
def slotVal (c : Core) (errs : List LsError) (m e : Nat) : FVal :=
  let a := slotBase m + 6 * e
  if hardIn errs a (a + 5) then .nan else wf48.decode (Mem.num c.ls a 6)

/-! ### MMA (spec/05 R82 to R87) -/

/-- A[m, k] and B[k, n] by Table 5.2, with their block scales (R83). -/
def mmaA (ls : Mem) (errs : List LsError) (o : MmaOp) (depth m k : Nat) : FVal :=
  let f := o.fmtA.toNat
  let i := if o.ta then k * 128 + m else m * depth + k
  if o.sta = 1 then lsScaled ls errs f o.aAddr i (scalesAt o.aAddr f (128 * depth) + m * (depth / 32) + k / 32)
  else lsElem ls errs f o.aAddr i
def mmaB (ls : Mem) (errs : List LsError) (o : MmaOp) (depth k n : Nat) : FVal :=
  let f := o.fmtB.toNat
  let i := if o.tb then n * depth + k else k * 128 + n
  if o.stb = 1 then lsScaled ls errs f o.bAddr i (scalesAt o.bAddr f (128 * depth) + n * (depth / 32) + k / 32)
  else lsElem ls errs f o.bAddr i

/-- The exact sum of a list of values; +0 for none. -/
def sumExact : List FVal → FVal
  | [] => .zero
  | x :: xs => xs.foldl FVal.add x

/-- The exact group sum S_g (R84). -/
def groupSum (ls : Mem) (errs : List LsError) (o : MmaOp) (depth m n g : Nat) : FVal :=
  sumExact ((List.range 32).map fun i => (mmaA ls errs o depth m (32 * g + i)).mul (mmaB ls errs o depth (32 * g + i) n))

/-- The depth of an MMA. -/
def mmaDepth (o : MmaOp) : Nat := 32 * (o.kd.toNat + 1)

/-- The rounding of an add: stochastic with the draw of an element where sr is set (spec/02 R37, R38). -/
def accRound (sr : Bool) (seed : Word) (ctr : RoundCtr) (e : Nat) : Nat → Int → Int → Nat :=
  if sr then srTo (roundDraw seed ctr e) else rneTo

/-- The rounding counter of an instruction: srs holds row, column and K-chunk. -/
def instrCtr (step : Nat) (rtag : BitVec 32) (cnt : Word) (spill : Bool) (g : Nat) : RoundCtr :=
  { step := step, tag := rtag.toNat, row := bits cnt 32 12, col := bits cnt 20 12, spill := spill,
    chunk := (bits cnt 0 20 + g) % 2 ^ 20 }

/-- One FP32 output element (R85). -/
def mmaElem (c : Core) (errs : List LsError) (o : MmaOp) (seed : Word) (step e : Nat) : Nat :=
  let depth := mmaDepth o
  let t0 := if o.ovw then 0 else if tileHard errs o.acc.toNat e then fp32.nanCode else tileWord c o.acc.toNat e
  (List.range (depth / 32)).foldl (fun t g =>
    fp32.arith (accRound o.sr seed (instrCtr step o.rtag o.cnt false g) e) .inf
      ((dec32 t).add (groupSum c.ls errs o depth (e / 128) (e % 128) g))) t0

/-- An integer of an exact value. -/
def intOf : FVal → Int
  | .fin n m e => toInt n m e
  | _ => 0

/-- One INT32 output element (R87): 0x8000_0000 where it depends on an uncorrectable word. -/
def mmaInt (c : Core) (errs : List LsError) (o : MmaOp) (e : Nat) : Nat :=
  let depth := mmaDepth o
  let sums := (List.range (depth / 32)).map fun g => groupSum c.ls errs o depth (e / 128) (e % 128) g
  if sums.any FVal.isNan || (!o.ovw && tileHard errs o.acc.toNat e) then intBad
  else toSigned 32 ((if o.ovw then 0 else signed 32 (tileWord c o.acc.toNat e)) + (sums.map intOf).sum)

/-- An MMA: every element of the tile. -/
def runMma (c : Core) (errs : List LsError) (o : MmaOp) (seed : Word) (step : Nat) : Core :=
  let int := pairInt o.fmtA.toNat o.sta.toNat o.fmtB.toNat o.stb.toNat
  let c1 := putTile c o.acc.toNat fun e => if int then mmaInt c errs o e else mmaElem c errs o seed step e
  { c1 with accInt := putBits c1.accInt o.acc.toNat 1 (b2n int) }

/-- ACCZ. -/
def runAccz (c : Core) (n : Nat) : Core := zeroTile c n

/-! ### SPILL (spec/05 R94, spec/02 R25) -/

/-- One element of the slot: one rounding to WF48, stochastic for an FP32 tile with sr. -/
def spillElem (c : Core) (errs : List LsError) (o : SpillOp) (seed : Word) (step e : Nat) : Nat :=
  wf48.arith (accRound (o.sr && !tileInt c o.acc.toNat) seed (instrCtr step o.rtag o.cnt true 0) e) .inf
    ((slotVal c errs o.slot.toNat e).add (tileVal c errs o.acc.toNat e))

/-- SPILL: the slot takes the sums, then the tile is +0. -/
def runSpill (c : Core) (errs : List LsError) (o : SpillOp) (seed : Word) (step : Nat) : Core :=
  let sum := (List.range 16384).flatMap fun e => leBytes 6 (spillElem c errs o seed step e)
  zeroTile { c with ls := Mem.write c.ls (slotBase o.slot.toNat) sum } o.acc.toNat

/-! ### TOPK (spec/05 R100, R101) -/

/-- `a` ranks above `b`: a NaN above every number, then the larger value; equals keep their order. -/
def ranksAbove (a b : FVal) : Bool := (a.isNan && !b.isNan) || b.lt a

/-- The first `k` of a list of (value, item) by rank, equal values in list order. -/
def topK {α : Type} (k : Nat) (l : List (FVal × α)) : List (FVal × α) :=
  (l.mergeSort fun x y => !ranksAbove y.1 x.1).take k

/-- The record of one row: values, then positions, then zeros. -/
def topkRecord (k : Nat) (ranked : List (Nat × Nat)) : List Byte :=
  ((List.range 16).flatMap fun i => leBytes 4 (if i < k then (ranked.getD i (0, 0)).1 else 0)) ++
  ((List.range 16).flatMap fun i => leBytes 2 (if i < k then (ranked.getD i (0, 0xFFFF)).2 else 0xFFFF)) ++ List.replicate 32 0

/-- The record of row `m` of a tile: an uncorrectable INT32 element counts as the integer that stands for it. -/
def topkRow (c : Core) (errs : List LsError) (n k m : Nat) : List Byte :=
  let code := fun j => if tileHard errs n (128 * m + j) then (if tileInt c n then intBad else fp32.nanCode)
    else tileWord c n (128 * m + j)
  let row := (List.range 128).map fun j => (if tileInt c n then FVal.ofInt (signed 32 (code j)) else dec32 (code j), j)
  topkRecord k ((topK k row).map fun x => (code x.2, x.2))

/-- TOPK. -/
def runTopk (c : Core) (errs : List LsError) (n k addr : Nat) : Core :=
  { c with ls := Mem.write c.ls addr ((List.range 128).flatMap (topkRow c errs n k)) }

end Sys2Proof.Machine
end

