-- ==== Sys2Proof/Machine/VectorUnit.lean ====
section
/-! DEFINITION. The vector engine (spec/06 R105 to R115). -/

namespace Sys2Proof.Machine

/-- The scale byte of element `i` of `n` elements at `a`. -/
def vecScaleAt (a code n i : Nat) : Nat := scalesAt a code n + i / 32

/-- Element `i` of source 1. A scaled source of CVT takes its exact value (R107). -/
def vecX (ls : Mem) (errs : List LsError) (o : VecOp) (i : Nat) : FVal :=
  let f := o.fmtS.toNat
  if o.st = 1 ∧ o.op = 6 ∧ !o.isFn then lsScaled ls errs f o.a1 i (vecScaleAt o.a1 f o.n i) else lsElem ls errs f o.a1 i

/-- Element `i` of source 2, or the broadcast value; and of source 3. -/
def vecY (ls : Mem) (errs : List LsError) (o : VecOp) (i : Nat) : FVal := match o.bcast with
  | some b => dec32 b.toNat
  | none => lsElem ls errs o.fmtS.toNat o.a2 i
def vecZ (ls : Mem) (errs : List LsError) (o : VecOp) (i : Nat) : FVal := lsElem ls errs o.fmtS.toNat o.a3 i

/-- MAX and MIN of Table 6.1. -/
def fmax (x y : FVal) : FVal :=
  if x.isNan || y.isNan then .nan else if x.isZero && y.isZero then (if x.sign then y else x) else if x.lt y then y else x
def fmin (x y : FVal) : FVal :=
  if x.isNan || y.isNan then .nan else if x.isZero && y.isZero then (if x.sign then x else y) else if y.lt x then y else x

/-- The FP32 result of an element-wise operation, before its conversion (R107, R108, R110). CVT and SCL pass the value on. -/
def vecCompute (o : VecOp) (x y z : FVal) : FVal :=
  if o.isFn then dec32 (fnUnit o.op.toNat o.ovm (f32 x))
  else match o.op.toNat with
    | 0 => r32m o.ovm (x.add y)
    | 1 => r32m o.ovm (x.add y.neg)
    | 2 => r32m o.ovm (x.mul y)
    | 3 => r32m o.ovm ((x.mul y).add z)
    | 4 => fmax x y
    | 5 => fmin x y
    | _ => x

/-- Elements `lo` to `lo + k − 1` of the result, as destination codes. -/
def vecBlock (ls : Mem) (errs : List LsError) (o : VecOp) (lo k : Nat) : List Nat :=
  (List.range k).map fun i =>
    (convElem o.fmtD.toNat o.ovm (vecCompute o (vecX ls errs o (lo + i)) (vecY ls errs o (lo + i)) (vecZ ls errs o (lo + i)))).1

/-- Writes codes at element `lo` of the destination; the bits of the last byte beyond them stay (R106). A block of elements starts
on a byte. -/
def putElems (ls : Mem) (code a lo : Nat) (xs : List Nat) : Mem :=
  let at_ := a + lo * fmtBits code / 8
  Mem.write ls at_ (elemsToBytes code xs (Mem.byte ls (at_ + xs.length * fmtBits code / 8)))

/-- The elements of a block (R105). -/
def vecBlockLen (o : VecOp) : Nat := if o.fmtS = 0 then 64 else 128

/-- The blocks of an element-wise operation in ascending order, each read before it is written. -/
def vecBlocks (errs : List LsError) (o : VecOp) : Nat → Nat → Mem → Mem
  | 0, _, ls => ls
  | k + 1, lo, ls =>
    let len := min (vecBlockLen o) (o.n - lo)
    if len = 0 then ls
    else vecBlocks errs o k (lo + vecBlockLen o) (putElems ls o.fmtD.toNat o.ad lo (vecBlock ls errs o lo len))

/-- SCL: blocks of 32 with their scale bytes, in the same block order (R109). -/
def sclBlocks (errs : List LsError) (o : VecOp) : Nat → Nat → Mem → Mem
  | 0, _, ls => ls
  | k + 1, lo, ls =>
    let len := min (vecBlockLen o) (o.n - lo)
    if len = 0 then ls
    else
      let xs := (List.range len).map fun i => vecX ls errs { o with st := 0 } (lo + i)
      let r := convBlocks o.fmtD.toNat o.ovm xs
      let ls1 := putElems ls o.fmtD.toNat o.ad lo r.2.1
      sclBlocks errs o k (lo + vecBlockLen o)
        (Mem.write ls1 (vecScaleAt o.ad o.fmtD.toNat o.n lo) (r.1.map (BitVec.ofNat 8)))

/-- The lane and tree steps of a reduction (R111): 0 sum, 1 max, 2 sum of squares. -/
def redStep (k : Nat) (ovm : Bool) (acc x : FVal) : FVal :=
  if k = 0 then r32m ovm (acc.add x) else if k = 1 then fmax acc x else r32m ovm (acc.add (x.mul x))
def redJoin (k : Nat) (ovm : Bool) (a b : FVal) : FVal := if k = 1 then fmax a b else r32m ovm (a.add b)

/-- The tree over `w` pairs, halving. -/
def redTree (k : Nat) (ovm : Bool) : Nat → List FVal → List FVal
  | 0, l => l
  | j + 1, l =>
    let w := l.length / 2
    redTree k ovm j ((List.range w).map fun i => redJoin k ovm (l.getD i .zero) (l.getD (i + w) .zero))

/-- The value of a reduction over a list. -/
def reduceList (k : Nat) (ovm : Bool) (xs : List FVal) : FVal :=
  let ident : FVal := if k = 1 then .inf true else .zero
  let lanes := (List.range 64).map fun j =>
    (List.range (ceilDiv xs.length 64)).foldl (fun acc r => match xs[j + 64 * r]? with
      | some x => redStep k ovm acc x
      | none => acc) ident
  (redTree k ovm 6 lanes).getD 0 ident

/-- A VEC or FN operation on elements: the core's local store after it. -/
def runVec (ls : Mem) (errs : List LsError) (o : VecOp) : Mem :=
  if o.n = 0 then ls
  else
    let blocks := o.n / 64 + 1
    if !o.isFn && vecReduce o.op.toNat then
      let xs := (List.range o.n).map (vecX ls errs o)
      Mem.put ls o.ad 4 (f32 (reduceList (o.op.toNat - 8) o.ovm xs))
    else if !o.isFn && o.op == 7 then sclBlocks errs o blocks 0 ls
    else vecBlocks errs o blocks 0 ls

/-- The events that the conversions of a VEC operation report are those of R35; they enter no register (spec/09 R172 names drains,
jobs and reductions). LDS reads all ones from an uncorrectable word (R115). -/
def ldsWord (ls : Mem) (errs : List LsError) (a : Nat) : Word :=
  if hardIn errs a (a + 7) then BitVec.allOnes 64 else BitVec.ofNat 64 (Mem.num ls a 8)

end Sys2Proof.Machine
end

