-- ==== Sys2Proof/Machine/CollOps.lean ====
section
/-! DEFINITION. Parameter groups, collectives and the reduce units (spec/09 R167, R171, R172; spec/10 Table 10.1; spec/16 R308 to
R314; spec/18 R346, R347). -/

namespace Sys2Proof.Machine

/-! ### Group records (spec/10 Table 10.1) and collective records (spec/16 Table 16.10) -/

/-- Object `i` of a group record: fwd0, fwd1, tr0, tr1, mst0, mst1, mom0, mom1, rec_obj. -/
def grObj (r : BitVec 1024) (i : Nat) : Nat := bits r (992 - 32 * i) 32
def grRows (r : BitVec 1024) : Nat := bits r 704 32
def grCols (r : BitVec 1024) : Nat := bits r 672 32
def grB1 (r : BitVec 1024) : Nat := bits r 640 32
def grB2 (r : BitVec 1024) : Nat := bits r 608 32
def grEps (r : BitVec 1024) : Nat := bits r 576 32
def grClip (r : BitVec 1024) : Nat := bits r 544 32
def grLo (r : BitVec 1024) : Nat := bits r 512 32
def grHi (r : BitVec 1024) : Nat := bits r 480 32
def grTInit (r : BitVec 1024) : Nat := bits r 448 32
def grCap (r : BitVec 1024) : Nat := bits r 424 24
def grFmtF (r : BitVec 1024) : Nat := bits r 420 4
def grStF (r : BitVec 1024) : Nat := bits r 418 2
def grFmtT (r : BitVec 1024) : Nat := bits r 414 4
def grStT (r : BitVec 1024) : Nat := bits r 412 2
def grMode (r : BitVec 1024) : Nat := bits r 410 2
def grSparse (r : BitVec 1024) : Bool := bit r 409
def grPriv (r : BitVec 1024) : Bool := bit r 408
def grDrop (r : BitVec 1024) : Bool := bit r 407
def grRule (r : BitVec 1024) : Nat := bits r 404 3

def clId (r : BitVec 256) : Nat := bits r 240 16
def clKind (r : BitVec 256) : Nat := bits r 238 2
def clList (r : BitVec 256) : Nat := bits r 234 4
def clRound (r : BitVec 256) : Bool := bit r 233
def clK (r : BitVec 256) : Nat := bits r 228 5
def clWire (r : BitVec 256) : Nat := bits r 224 4
def clD (r : BitVec 256) : Nat := bits r 192 32
def clDst (r : BitVec 256) : Nat := bits r 128 32
def clOff (r : BitVec 256) : Nat := bits r 80 48
def clSid (r : BitVec 256) : Nat := bits r 60 20
def clSrc (r : BitVec 256) : Nat := bits r 28 32

/-- The registered collective `coll` of slot `n`. -/
def collOf (s : State) (n coll : Nat) : Option (BitVec 256) := match ctxOf s n with
  | some c => c.colls.find? fun r => clId r == coll
  | none => none

/-- Group `g`'s record as the firmware last read it (spec/09 R168). -/
def recordOf (s : State) (n g : Nat) : Option (BitVec 1024) := match ctxOf s n with
  | some c => c.records[g]?
  | none => none

/-- A migration fences an object that a parameter group of slot `n` names (spec/11 Table 11.3). -/
def groupsFenced (s : State) (n : Nat) : Bool :=
  (ctxOf s n).any fun c => c.records.any fun r => (groupObjs r).any (isFenced s n)

/-- A migration fences the object that collective `coll` writes. -/
def collFenced (s : State) (n coll : Nat) : Bool := (collOf s n coll).any fun r => isFenced s n (bits r 128 32)

/-! ### Slices (spec/09 R167) -/

/-- Out-blocks, in-blocks and slices of a group; a sparse group's list positions take the place of out. -/
def grOut (r : BitVec 1024) : Nat := if grSparse r then grCap r else grRows r
def grOb (r : BitVec 1024) : Nat := ceilDiv (grOut r) 128
def grIb (r : BitVec 1024) : Nat := ceilDiv (grCols r) 128
def grSlices (r : BitVec 1024) : Nat := grIb r * grOb r

/-- The in-block and out-block of slice `k`, and its valid rows and columns. -/
def sliceIb (r : BitVec 1024) (k : Nat) : Nat := k / (if grOb r = 0 then 1 else grOb r)
def sliceOb (r : BitVec 1024) (k : Nat) : Nat := k % (if grOb r = 0 then 1 else grOb r)
def sliceRows (r : BitVec 1024) (k : Nat) : Nat := min 128 (grCols r - 128 * sliceIb r k)
def sliceCols (r : BitVec 1024) (k : Nat) : Nat := min 128 (grOut r - 128 * sliceOb r k)

/-! ### CTX_STEP_EVENTS (spec/09 R171, R172) -/

/-- A flag enters the register: source, count and event bits. -/
def flagEvents (s : State) (n src : Nat) (e : Events) : State :=
  if e.any then
    modCtx s n fun c =>
      let r := c.stepEvents
      let r1 := if bits r 20 12 = 0xFFF then putBits r 20 12 src else r
      let r2 := putBits r1 8 12 (min 4095 (bits r 8 12 + 1))
      { c with stepEvents := r2 ||| BitVec.ofNat 64 (b2n e.ovf + 2 * b2n e.inf + 4 * b2n e.nan) }
  else s

/-! ### The tree of a slice (spec/16 R309, R310; spec/18 R346) -/

/-- The owner position of slice `k` of `slices` among `n` members. -/
def ownerPos (coll : BitVec 256) (n slices k : Nat) : Nat :=
  if clRound coll then k % (if n = 0 then 1 else n) else k * n / (if slices = 0 then 1 else slices)

/-- The replicas of position `o` of list `l`, in the map's order. -/
def replicasOf (c : Ctx) (l o : Nat) : List Nat := match tget c.replicas l with
  | some t => match t[o]? with
    | some (a, b, d) => ([a, b, d].map BitVec.toNat).filter (· != 0xFFFF)
    | none => []
  | none => []

/-- Who owns position `o`'s slices when the positions that `ex` picks are out: itself, or its first surviving replica. -/
def actingOwner (c : Ctx) (l o : Nat) (ex : Nat → Bool) : Option Nat :=
  if !ex o then some o else (replicasOf c l o).find? fun q => !ex q

/-- The tree of one slice as this node sees it: its collective, group record, members, owner's position, and this node's index. -/
structure RedTree where
  coll  : BitVec 256
  rec_  : BitVec 1024
  mem   : Members
  pos   : List Nat
  orig  : Nat
  owner : Nat
  me    : Nat
  acting : Option Nat
  step  : BitVec 32
deriving DecidableEq, Repr

/-- The tree of a slice; none where the collective, the group, its owner or this module's position is missing. -/
def treeOf (s : State) (n coll g k : Nat) : Option RedTree := do
  let c ← ctxOf s n
  let r ← collOf s n coll
  let gr ← c.records[g]?
  let m ← tget c.lists (clList r)
  let o := ownerPos r m.now.length (grSlices gr) k
  let q ← actingOwner c (clList r) o m.base.contains
  let mine ← ownPos s m
  pure { coll := r, rec_ := gr, mem := m, pos := stepMembers m, orig := o, owner := q, me := mine,
         acting := actingOwner c (clList r) o (fun i => lostNow m i), step := c.step.setWidth 32 }

/-- The relative index of a position, and the position of a relative index. -/
def RedTree.index (t : RedTree) (i : Nat) : Nat :=
  let n := t.pos.length
  (t.pos.findIdx (· == i) + n - t.pos.findIdx (· == t.owner)) % (if n = 0 then 1 else n)
def RedTree.posOf (t : RedTree) (j : Nat) : Nat :=
  let n := t.pos.length
  t.pos.getD ((j + t.pos.findIdx (· == t.owner)) % (if n = 0 then 1 else n)) 0

/-- Relative index `j` has been lost. -/
def RedTree.lost (t : RedTree) (j : Nat) : Bool := lostNow t.mem (t.posOf j)

/-! ### Tiles on the wire (spec/16 Table 16.4, R310) -/

/-- addr of a RED_PART. -/
def redAddr (coll g k : Nat) : BitVec 64 := BitVec.ofNat 64 (pack [(4, 0), (32, k), (12, g), (16, coll)])

/-- arg of a RED_PART. -/
def redArg (count : Nat) (step : BitVec 32) (partial_ : Bool) (rows cols : Nat) : BitVec 64 :=
  BitVec.ofNat 64 (pack [(16, 0), (7, cols - 1), (7, rows - 1), (1, b2n partial_), (1, 0), (16, step.toNat % 2 ^ 16), (16, count)])

/-- The valid elements of a tile, row by row; and a whole tile from them, +0 outside. -/
def validElems (rows cols : Nat) (t : Tile) : List Nat :=
  (List.range rows).flatMap fun m => (List.range cols).map fun n => (t.getD (128 * m + n) 0).toNat
def wholeTile (rows cols : Nat) (xs : List Nat) : Tile :=
  (List.range 128).flatMap fun m => (List.range 128).map fun n =>
    if m < rows ∧ n < cols then BitVec.ofNat 32 (xs.getD (m * cols + n) 0) else 0

/-- The record words of a TOPK row (spec/05 Table 5.4): a partial of TOPK is `rows` records. -/
def recordWords (bs : List Byte) (k : Nat) : List (BitVec 32) :=
  (List.range k).map fun i => BitVec.ofNat 32 (ofLe ((bs.drop (4 * i)).take 4))

/-- The data of a partial or contribution. -/
def redData (t : RedTree) (rows cols : Nat) (partial_ : Bool) (tile : Tile) : List Byte :=
  if !partial_ then elemsToBytes (clWire t.coll) ((validElems rows cols tile).map fun x => (convElem (clWire t.coll) true (dec32 x)).1) 0
  else if clKind t.coll = 2 then (tile.take (32 * rows)).flatMap fun w => leBytes 4 w.toNat
  else (validElems rows cols tile).flatMap (leBytes 4)

/-- The candidate records of a contribution of member position `i` (R310). -/
def topkOwn (k rows cols i : Nat) (tile : Tile) : Tile :=
  (List.range 128).flatMap fun m =>
    let row := (List.range (if m < rows then cols else 0)).map fun j =>
      (dec32 (tile.getD (128 * m + j) 0).toNat, ((tile.getD (128 * m + j) 0).toNat, i * 128 + j))
    recordWords (topkRecord (min k row.length) ((topK k row).map (·.2))) 32

/-- What a received run of bytes gives: FP32 words, or records. -/
def redTile (t : RedTree) (rows cols src : Nat) (partial_ : Bool) (bs : List Byte) : Tile :=
  if clKind t.coll = 2 ∧ partial_ then (recordWords bs (32 * rows) ++ List.replicate 4096 0).take 4096
  else
    let xs := if partial_ then (List.range (rows * cols)).map fun i => ofLe ((bs.drop (4 * i)).take 4)
      else (List.range (rows * cols)).map fun i => f32 (decodeElem (clWire t.coll) (elemAt (fun j => bs.getD j 0) (clWire t.coll) i))
    let w := wholeTile rows cols xs
    if clKind t.coll = 2 then topkOwn (clK t.coll) rows cols src w else w

/-! ### Combining (spec/16 R310, R312) -/

/-- The candidates of row `m` of a TOPK partial of `count` members. -/
def topkCands (k cols m : Nat) (p : RedPart) : List (FVal × (Nat × Nat)) :=
  let w := (p.tile.drop (32 * m)).take 32
  (List.range (min k (p.count * cols))).map fun i =>
    let v := (w.getD i 0).toNat
    (dec32 v, (v, (w.getD (16 + i / 2) 0).toNat / 2 ^ (16 * (i % 2)) % 2 ^ 16))

/-- The union of partials of TOPK, ranked with equal values by position. -/
def topkMerge (k rows cols : Nat) (ps : List RedPart) : Tile :=
  (List.range 128).flatMap fun m =>
    let all := if m < rows then ps.flatMap (topkCands k cols m) else []
    let sorted := all.mergeSort fun a b => decide (a.2.2 ≤ b.2.2)
    recordWords (topkRecord (min k all.length) ((topK k sorted).map (·.2))) 32

/-- p := p + p_child, element by element. -/
def redJoin32 (kind : Nat) (a b : BitVec 32) : BitVec 32 :=
  BitVec.ofNat 32 (if kind = 0 then f32 ((dec32 a.toNat).add (dec32 b.toNat)) else f32 (fmax (dec32 a.toNat) (dec32 b.toNat)))

/-- The partial of a node from its terms in order; +0 in every element for none. -/
def combine (t : RedTree) (rows cols : Nat) (ps : List RedPart) : Tile :=
  if clKind t.coll = 2 then topkMerge (clK t.coll) rows cols ps
  else match ps with
    | [] => List.replicate 16384 0
    | p :: rest => rest.foldl (fun acc q => List.zipWith (redJoin32 (clKind t.coll)) acc q.tile) p.tile

/-- n / c in binary64, rounded once to FP32. -/
def scaleFactor (n c : Nat) : FVal :=
  let q := n * 2 ^ 200 / c
  let x : FVal := .fin false (2 * q + (if n * 2 ^ 200 % c = 0 then 0 else 1)) (-201)
  let f64 : Fmt := ⟨11, 52, .ieee⟩
  r32 (f64.decode (f64.arith rneTo .inf x))

/-- What the owner delivers of a sum over `n` members with count `c`. -/
def delivered (kind n c : Nat) (t : Tile) : Tile :=
  if c = 0 then List.replicate t.length 0
  else if kind = 0 ∧ c < n then t.map fun w => BitVec.ofNat 32 (f32 ((dec32 w.toNat).mul (scaleFactor n c)))
  else t

/-- The events of a delivered SUM or MAX (R312). -/
def tileEvents (t : Tile) : Events :=
  { ovf := false, inf := t.any fun w => (dec32 w.toNat).isInf, nan := t.any fun w => (dec32 w.toNat).isNan }

/-! ### Reduce units and slots (spec/16 R309, R314) -/

/-- The port whose reduce unit handles slice `k` of group `g`: (g + k) mod 16, or the next in service. -/
def redPort (s : State) (g k : Nat) : Nat :=
  ((List.range 16).map fun i => (g + k + i) % 16).find? (fun p => !(portOf s p).unitsOut) |>.getD ((g + k) % 16)

/-- The groups that the running plan's HANDLE records name with a collective, ascending. -/
def collGroups (s : State) (n coll : Nat) : List Nat := match ctxOf s n with
  | some c =>
    let img := runImage c
    let hs := (recsOf img 0x08).map (descAt img)
    let gs := (hs.filter fun h => bits h 496 16 == coll).map fun h => bits h 484 12
    numsBelow 4096 gs.contains
  | none => []

/-- The slices of a collective that owner position `o` of `nm` members owns, by group and slice. -/
def slicesOwned (s : State) (n : Nat) (r : BitVec 256) (nm o : Nat) : List (Nat × Nat) :=
  (collGroups s n (clId r)).flatMap fun g => match recordOf s n g with
    | some gr => ((List.range (grSlices gr)).filter fun k => ownerPos r nm (grSlices gr) k == o).map fun k => (g, k)
    | none => []

/-- The 65,792 bytes of a delivered slot: tile and trailer. -/
def slotBytes (t : RedTree) (tile : Tile) (count : Nat) : List Byte :=
  let body := tile.flatMap fun w => leBytes 4 w.toNat
  body ++ List.replicate (65536 - body.length) 0 ++
    leBytes 256 (pack [(32, count), (32, t.step.toNat), (1, b2n (decide (count < t.pos.length)))])

/-- Writes slot `m` of the result object, or passes the tile of a privileged group to the update unit of its port; the queue of a port whose
units are out of service is the vector engines' (R187). -/
def placeResult (s : State) (n : Nat) (t : RedTree) (g k : Nat) (bs : List Byte) (tile : Tile) : State :=
  if grPriv t.rec_ then
    modPort s ((g + k) % 16) fun p => { p with updQ := p.updQ ++ [(BitVec.ofNat 6 n, BitVec.ofNat 12 g, BitVec.ofNat 32 k, tile)] }
  else
    let m := (slicesOwned s n t.coll t.mem.now.length t.orig).findIdx (· == (g, k))
    match objOf s n (clDst t.coll) with
    | some o => writeHome s n o (clOff t.coll + 65792 * m) bs
    | none => s

/-- A flit of VC2 from the unit of port `p`: the kind of its data stands in sub. -/
def vc2Flits (s : State) (p : Nat) (dst : BitVec 14) (op sub : Nat) (n : Nat) (addr arg : BitVec 64) (data : List Byte) : State :=
  let parts := cut 141 data
  (parts.zipIdx.map fun (d, i) =>
    ({ link := LinkHdr.zero, data := d, crc := 0,
       txn := { TxnHdr.zero with op := BitVec.ofNat 8 op, srcMod := modIdOf s, dstMod := dst, ctx := identOf s n,
                                 len := BitVec.ofNat 9 d.length, fidx := BitVec.ofNat 8 i, last := decide (i + 1 = parts.length),
                                 hops := 63, sub := BitVec.ofNat 8 sub, addr := addr, arg := arg } } : Flit)).foldl
    (fun s f => sendFlit s p f) s

/-- The vote of the running step will carry the partial bit. -/
def setPartial (s : State) (n : Nat) : State := modCtx s n fun c => { c with lateBit := true }

/-- The owner delivers slice `k`: flag, slot and res_sid, replicas (R312, R314; spec/18 R347). -/
def deliverSlice (s : State) (n : Nat) (t : RedTree) (g k : Nat) (sum : Tile) (count : Nat) : State :=
  let tile := delivered (clKind t.coll) t.pos.length count sum
  let p := redPort s g k
  let s1 := if clKind t.coll = 2 then s else flagEvents s n (0x100 + p) (tileEvents tile)
  let bs := slotBytes t tile count
  let s2 := placeResult s1 n t g k bs tile
  let s3 := if grPriv t.rec_ then s2 else signalVid s2 (BitVec.ofNat 8 (16 * p)) n (clSid t.coll) 1
  let reps := match ctxOf s n with
    | some c => (replicasOf c (clList t.coll) t.orig).filter fun q => q != t.me && !lostNow t.mem q
    | none => []
  if clKind t.coll = 2 then s3
  else reps.foldl (fun s q => vc2Flits s p (memberAt t.mem q) 0x81 1 n (redAddr (clId t.coll) g k)
    (redArg count t.step true 128 128) bs) s3

/-! ### One reduction at this node -/

/-- A reduction with nothing yet. -/
def Reduction.fresh (n coll g k : Nat) (step : BitVec 32) (standIn : Bool) : Reduction :=
  { slot := BitVec.ofNat 6 n, coll := BitVec.ofNat 16 coll, group := BitVec.ofNat 12 g, slice := BitVec.ofNat 32 k, step := step,
    standIn := standIn, own := none, parts := [], building := [], markers := [], started := false, done := false }

/-- The same slice, step and role. -/
def sameRed (a b : Reduction) : Bool :=
  a.slot == b.slot && a.coll == b.coll && a.group == b.group && a.slice == b.slice && a.step == b.step && a.standIn == b.standIn

/-- The reduction like `r` that the unit holds, or `r` itself; and `s` with it set. -/
def findRed (s : State) (r : Reduction) : Reduction := (s.reds.find? (sameRed r)).getD r
def putRed (s : State) (r : Reduction) : State := { s with reds := s.reds.filter (fun x => !sameRed r x) ++ [r] }

/-- This node's relative index in a reduction: 0 where it stands in for the owner. -/
def redIndex (t : RedTree) (r : Reduction) : Nat := if r.standIn then 0 else t.index t.me

/-- What a reduction still waits for. -/
def redDue (t : RedTree) (r : Reduction) : List Nat :=
  kidsDue t.lost (fun c => (r.parts.any fun p => p.child == c) || r.markers.contains c) t.pos.length 16 (redIndex t r)

/-- Every term has arrived. -/
def redReady (t : RedTree) (r : Reduction) : Bool := !r.done && (r.own.isSome || r.standIn) && (redDue t r).isEmpty

/-- The kept stale partials of a slice, which enter this step's reduction (R313). -/
def stalesFor (s : State) (r : Reduction) : List Stale :=
  s.stales.filter fun x => x.slot == r.slot && x.coll == r.coll && x.group == r.group && x.slice == r.slice

/-- The terms of a node in order: its own, its children's by ascending index, then stale ones, whose count is not added. -/
def redTerms (t : RedTree) (r : Reduction) (st : List Stale) : List RedPart :=
  (match r.own with
    | some x => [{ child := redIndex t r, tile := x, count := 1 : RedPart }]
    | none => []) ++
  (r.parts.mergeSort fun a b => decide (a.child ≤ b.child)) ++ st.map fun x => { child := 0, tile := x.tile, count := 0 }

/-- A partial of `count` members for node role or stand-in role, with index `j` of the node that made it, taken here. -/
def takePart (r : Reduction) (j : Nat) (tile : Tile) (count : Nat) : Reduction :=
  { r with started := true, parts := r.parts.filter (fun p => p.child != j) ++ [{ child := j, tile := tile, count := count }] }

/-- The module that takes this node's partial, and whether as the owner's stand-in (spec/18 R346). -/
def partDest (t : RedTree) (j : Nat) : Option (Nat × Bool) :=
  let p := liveParent t.lost 16 j
  if p = 0 ∧ t.lost 0 then t.acting.map fun q => (q, true) else some (t.posOf p, false)

/-- The reduce unit has no credit for the module that this one sends a slice to: channel 2 of the port there has none, or flits that wait
for it (spec/09 R170). -/
def noCredit (s : State) (t : RedTree) (g k : Nat) : Bool := match partDest t (t.index t.me) with
  | some (q, _) => q != t.me && t.index t.me != 0 && (routePort s (redPort s g k) (memberAt t.mem q)).any fun p =>
      vget (portOf s p).credits 2 0 == 0 || !(vget (portOf s p).txQ 2 []).isEmpty
  | none => false

/-- A node's partial leaves towards its parent; a stand-in's own partial stays on the module. -/
def sendPart (s : State) (n : Nat) (t : RedTree) (r : Reduction) (tile : Tile) (count : Nat) (leaf : Bool) : State :=
  let g := r.group.toNat
  let k := r.slice.toNat
  let j := redIndex t r
  match partDest t j with
  | none => s
  | some (q, true) =>
    if q = t.me then putRed s (takePart (findRed s (.fresh n (clId t.coll) g k t.step true)) j tile count)
    else vc2Flits s (redPort s g k) (memberAt t.mem q) 0x80 0 n (redAddr (clId t.coll) g k)
      (redArg count t.step (!leaf) (sliceRows t.rec_ k) (sliceCols t.rec_ k))
      (redData t (sliceRows t.rec_ k) (sliceCols t.rec_ k) (!leaf) tile)
  | some (q, false) =>
    vc2Flits s (redPort s g k) (memberAt t.mem q) 0x80 0 n (redAddr (clId t.coll) g k)
      (redArg count t.step (!leaf) (sliceRows t.rec_ k) (sliceCols t.rec_ k))
      (redData t (sliceRows t.rec_ k) (sliceCols t.rec_ k) (!leaf) tile)

/-- A reduction's partial with its count, and whether it is a leaf's contribution in the wire format. -/
def redResult (s : State) (t : RedTree) (r : Reduction) : Tile × Nat × Bool :=
  let k := r.slice.toNat
  let st := if clKind t.coll = 0 then stalesFor s r else []
  let terms := redTerms t r st
  let leaf := decide (terms.length = 1) && r.own.isSome && (childrenOf (redIndex t r) t.pos.length).isEmpty
  let own := fun (x : Tile) => if clKind t.coll = 2 then topkOwn (clK t.coll) (sliceRows t.rec_ k) (sliceCols t.rec_ k) t.me x else x
  if leaf then (r.own.getD [], 1, true)
  else
    let terms1 := match r.own, terms with
      | some x, p :: rest => { p with tile := own x } :: rest
      | _, l => l
    (combine t (sliceRows t.rec_ k) (sliceCols t.rec_ k) terms1, (terms.map (·.count)).sum, false)

/-- The node completes its slice with what it holds: the owner delivers, any other node forwards. `short` where it proceeds
without a term, which sets the partial bit (R313). -/
def completeRed (s : State) (n : Nat) (t : RedTree) (r : Reduction) (short : Bool) : State :=
  let res := redResult s t r
  let s1 := { putRed s { r with done := true, started := true } with
                stales := if clKind t.coll = 0 then s.stales.filter (fun x => !(stalesFor s r).contains x) else s.stales }
  let s2 := if short then setPartial s1 n else s1
  if redIndex t r = 0 then
    let tile := if clKind t.coll = 2 ∧ res.2.2 then
        topkOwn (clK t.coll) (sliceRows t.rec_ r.slice.toNat) (sliceCols t.rec_ r.slice.toNat) t.me res.1 else res.1
    deliverSlice s2 n t r.group.toNat r.slice.toNat tile res.2.1
  else sendPart s2 n t r res.1 res.2.1 res.2.2

/-- Completes reduction `r` if every term has arrived, and a stand-in reduction that this feeds. -/
def advanceRed (s : State) (n : Nat) (t : RedTree) (r : Reduction) : State :=
  let r0 := findRed s r
  let s1 := if redReady t r0 then completeRed s n t r0 false else s
  let r1 := findRed s1 { r with standIn := true }
  if !r.standIn && r1.started && redReady t r1 then completeRed s1 n t r1 false else s1

/-- A late contribution or partial (R313): kept for the next step's reduction, or dropped; logged either way. DESIGN CHOICE (log entry
125): one that comes after its own step has committed sets the partial bit of the vote that the context casts next. -/
def lateRed (s : State) (n : Nat) (t : RedTree) (r : Reduction) (tile : Tile) (src : Nat) : State :=
  let p := redPort s r.group.toNat r.slice.toNat
  let s1 := risk (setPartial (logHealth s 0 (0x100 + p) 0 (identOf s n).toNat src) n) 9 1024
  let held := (s.stales.filter fun x => redPort s x.group.toNat x.slice.toNat == p).length
  if clKind t.coll = 0 ∧ !grDrop t.rec_ ∧ held < 64 then
    { s1 with stales := s1.stales ++ [{ slot := r.slot, coll := r.coll, group := r.group, slice := r.slice, tile := tile }] }
  else s1

/-- A node's own contribution is accepted from core `core` (spec/09 R169): a second one in a step is discarded and logged. -/
def acceptOwn (s : State) (n coll g k : Nat) (tile : Tile) (core : Nat) : State :=
  match treeOf s n coll g k with
  | none => s
  | some t =>
    let open_ := match ctxOf s n with
      | some c => c.stepOpen
      | none => false
    let dropped := planEnding s n || match ctxOf s n with
      | some c => c.aborted.isSome
      | none => true
    let r0 := findRed s (.fresh n coll g k t.step false)
    let r := if r0.done && !open_ then .fresh n coll g k t.step false else r0
    if dropped then s
    else if r.own.isSome then logHealth s 0 core 0 (identOf s n).toNat k
    else if r.done then lateRed (putRed s { r with own := some tile }) n t r tile (modIdOf s).toNat
    else advanceRed (putRed s { r with own := some tile, started := true }) n t r

/-- At STEP_COMMIT this module completes every slice that it owns and has not delivered (R311). -/
def finishOwned (s : State) (n : Nat) : State := match ctxOf s n with
  | none => s
  | some c =>
    (c.colls.filter fun r => clKind r != 3).foldl (fun s r =>
      (collGroups s n (clId r)).foldl (fun s g => match recordOf s n g with
        | none => s
        | some gr => (List.range (grSlices gr)).foldl (fun s k => match treeOf s n (clId r) g k with
          | none => s
          | some t =>
            if t.acting = some t.me then
              let standIn := t.me != t.owner
              let x := findRed s (.fresh n (clId r) g k t.step standIn)
              if x.done then s
              else completeRed s n t x (decide ((redTerms t x []).foldl (fun a p => a + p.count) 0 < t.pos.length))
            else s) s) s) s

end Sys2Proof.Machine
end

