-- ==== Sys2Proof/Machine/DrainUnit.lean ====
section
/-! DEFINITION. The drain (spec/04 R73; spec/05 R97 to R99; spec/06 R113 to R115; spec/09 R165, R168). -/

namespace Sys2Proof.Machine

/-- Step 1: element `e` of the source, with the events of a spill slot's conversion (spec/02 R25). ovm does not act here (spec/04 R73): a
sum beyond FP32 becomes infinity, with Table 2.6's event (DESIGN CHOICE, log entry 129). -/
def drainSource (c : Core) (errs : List LsError) (o : DrainOp) (e : Nat) : FVal × Events :=
  if o.src then
    let r := fp32.conv true (slotVal c errs o.idx.toNat e)
    (dec32 r.1, r.2)
  else (r32 (tileVal c errs o.idx.toNat e), .none)

/-- The source is an INT32 tile whose values saturate directly (spec/05 R98). -/
def drainDirect (c : Core) (o : DrainOp) : Bool :=
  !o.src && tileInt c o.idx.toNat && o.scale.isNone && !o.bias && o.fn == 0 && isIntFmt o.fmtD.toNat && o.st == 0

/-- The pre-activation of element `e` (spec/06 R114). -/
def drainPre (ls : Mem) (errs : List LsError) (o : DrainOp) (e : Nat) : FVal :=
  let f := o.fmtD.toNat
  if o.st = 1 then lsScaled ls errs f o.ap e (scalesAt o.ap f 16384 + e / 32) else lsElem ls errs f o.ap e

/-- Steps 2 to 4, each rounded to FP32. -/
def drainSteps (ls : Mem) (errs : List LsError) (o : DrainOp) (e : Nat) (x : FVal) : FVal :=
  let x1 := match o.scale with
    | some w => r32 (x.mul (dec32 w.toNat))
    | none => x
  let x2 := if o.bias then r32 (x1.add (lsElem ls errs 0 o.ap (e % 128))) else x1
  let fn := o.fn.toNat
  if fn = 0 then x2
  else if fnDeriv fn then r32 (x2.mul (drainDeriv fn (drainPre ls errs o e)))
  else drainFn fn x2

/-- The FP32 elements of row `m` before step 5, and the events of step 1. -/
def drainRow (c : Core) (ls : Mem) (errs : List LsError) (o : DrainOp) (m : Nat) : List FVal × Events :=
  let xs := (List.range 128).map fun n => drainSource c errs o (128 * m + n)
  (xs.zipIdx.map fun (x, n) =>
    if drainDirect c o then tileVal c errs o.idx.toNat (128 * m + n) else drainSteps ls errs o (128 * m + n) x.1,
   xs.foldl (fun e x => e.or x.2) .none)

/-- Step 5 for a row: scale bytes, element codes, events. -/
def drainConv (o : DrainOp) (xs : List FVal) : List Nat × List Nat × Events :=
  if o.st = 1 then convBlocks o.fmtD.toNat o.ovm xs
  else
    let r := xs.map (convElem o.fmtD.toNat o.ovm)
    ([], r.map (·.1), r.foldl (fun e x => e.or x.2) .none)

/-- Rows `m` and on, each read before it is written (spec/06 R114). -/
def drainRows (c : Core) (errs : List LsError) (o : DrainOp) : Nat → Nat → Mem → Events → Mem × Events
  | 0, _, ls, ev => (ls, ev)
  | k + 1, m, ls, ev =>
    let f := o.fmtD.toNat
    let row := drainRow c ls errs o m
    let out := drainConv o row.1
    let ls1 := Mem.write ls (o.ad + m * (128 * fmtBits f / 8)) (elemsToBytes f out.2.1 0)
    let ls2 := if o.st = 1 then Mem.write ls1 (scalesAt o.ad f 16384 + 4 * m) (out.1.map (BitVec.ofNat 8)) else ls1
    drainRows c errs o k (m + 1) ls2 (ev.or (row.2.or out.2.2))

/-- The source at +0 (spec/05 R99). -/
def clearSource (c : Core) (o : DrainOp) : Core := if o.src then zeroSlot c o.idx.toNat else zeroTile c o.idx.toNat

/-- DRAIN and DRAIN_CLR: the core after it, and its conversion events. -/
def runDrain (c : Core) (errs : List LsError) (o : DrainOp) : Core × Events :=
  let r := drainRows c errs o 128 0 c.ls .none
  let c1 := { c with ls := r.1 }
  (if o.op = 1 then clearSource c1 o else c1, r.2)

/-- The tile of a DRAIN_RED in the wire format, as exact FP32, and its events. -/
def redDrain (c : Core) (errs : List LsError) (o : DrainOp) (rows cols : Nat) : Tile × Events :=
  let f := o.fmtD.toNat
  let out := (List.range 128).map fun m =>
    let row := drainRow c c.ls errs o m
    let conv := drainConv o row.1
    (conv.2.1.map fun x => BitVec.ofNat 32 (f32 (decodeElem f x)), row.2.or conv.2.2)
  (out.zipIdx.flatMap fun (r, m) => r.1.zipIdx.map fun (w, n) => if m < rows ∧ n < cols then w else 0,
   out.foldl (fun e r => e.or r.2) .none)

/-! ### The reduce handle (spec/09 Table 9.1, R168) -/

def hColl (h : BitVec 512) : Nat := bits h 496 16
def hGroup (h : BitVec 512) : Nat := bits h 484 12
def hSlice (h : BitVec 512) : Nat := bits h 448 32
def hRows (h : BitVec 512) : Nat := bits h 441 7 + 1
def hCols (h : BitVec 512) : Nat := bits h 434 7 + 1

/-- The handle at a drain's ad. -/
def handleOf (c : Core) (o : DrainOp) : BitVec 512 := BitVec.ofNat 512 (Mem.num c.ls o.ad 64)

/-- The handle check fails. -/
def handleBad (s : State) (n : Nat) (h : BitVec 512) (fmt : Nat) : Bool :=
  match ctxOf s n, collOf s n (hColl h), recordOf s n (hGroup h) with
  | some c, some r, some g =>
    decide (grSlices g ≤ hSlice h) || hRows h != sliceRows g (hSlice h) || hCols h != sliceCols g (hSlice h) ||
    clWire r != fmt || ((c.run.map (·.steps)).getD false && !c.stepOpen) || bits h 480 4 != 0 || bits h 0 434 != 0
  | _, _, _ => true

/-- A DRAIN_RED holds its tile: the reduce unit has no credit for the slice's destination (spec/09 R170), or a migration fences the
object that the collective writes (spec/11 Table 11.3). -/
def redWaits (s : State) (n : Nat) (h : BitVec 512) : Bool :=
  collFenced s n (hColl h) || (treeOf s n (hColl h) (hGroup h) (hSlice h)).any fun t => noCredit s t (hGroup h) (hSlice h)

end Sys2Proof.Machine
end

