-- ==== Sys2Proof/Machine/TileIssue.lean ====
section
/-! DEFINITION. Issue of tile instructions: one command is the issue, by its thread's scheduler, of the instruction at the thread's
pc (spec/03 R49; spec/04 R60 to R77). -/

namespace Sys2Proof.Machine

/-- An instruction at issue: who issues, the context slot, the core, the thread, its pc and the word. -/
structure Iss where
  u : Issuer
  slot : Nat
  core : Core
  t : Thread
  w : Word
deriving DecidableEq, Repr

/-! ### Engine queues and the rotation (spec/03 R49, R435) -/

/-- The queue of an engine, and its entries (spec/03 Table 3.5). -/
def queueOf (c : Core) : EngineQ → List EngOp
  | .mat => c.matQ
  | .vec => c.vecQ
  | .str => c.strQ
  | .drn => c.drnQ
  | .syn => c.synQ
  | .tcd => c.tcdQ
def setQueue (c : Core) (q : EngineQ) (l : List EngOp) : Core := match q with
  | .mat => { c with matQ := l }
  | .vec => { c with vecQ := l }
  | .str => { c with strQ := l }
  | .drn => { c with drnQ := l }
  | .syn => { c with synQ := l }
  | .tcd => { c with tcdQ := l }
def queueSize : EngineQ → Nat
  | .mat => 4
  | .vec => 8
  | .str => 8
  | .drn => 4
  | .syn => 8
  | .tcd => 2

/-- The engine queue of an instruction; none for CTL. -/
def engineOf (w : Word) : Option EngineQ := match iClass w with
  | 1 => some .mat
  | 2 => some .vec
  | 3 => some .vec
  | 4 => some .str
  | 5 => some .syn
  | 6 => some .drn
  | 7 => some .tcd
  | _ => none

/-- The number of an engine queue. -/
def queueNo : EngineQ → Nat
  | .mat => 0
  | .vec => 1
  | .str => 2
  | .drn => 3
  | .syn => 4
  | .tcd => 5

/-- The operations of core `c`'s threads that wait at a busy sync unit: they keep their entries of the sync port (R435). -/
def synWaiting (s : State) (c : Nat) : Nat :=
  (s.syncQ.toList.map fun l => (l.filter fun r => match r.src with
    | .thread core _ _ _ _ _ => core.toNat == c
    | _ => false).length).sum

/-- A GATHER that has issued its first index: it holds the head of its queue, but no entry (R435). -/
def gatherBegun (o : EngOp) : Bool := match o.kind with
  | .gather g => decide (0 < g.next)
  | _ => false

/-- The entries of queue `q` of core `k` in use. -/
def queueUsed (s : State) (k : Nat) (q : EngineQ) : Nat :=
  let c := coreOf s k
  match q with
  | .str => (c.strQ.filter fun o => !gatherBegun o).length
  | .syn => c.synQ.length + synWaiting s k
  | q => (queueOf c q).length

/-- Thread `t` of core `c` is a candidate for engine queue `q`: READY, held by nothing, and its next instruction enters that queue. -/
def candidate (c : Core) (q : EngineQ) (t : Nat) : Bool :=
  let x := threadOf c t
  x.state == .ready && x.hold == .none && match c.prog[x.pc.toNat]? with
    | some w => opDefined w && engineOf w == some q && passes x w
    | none => false

/-- Thread `t` has issued in the running issue cycle. -/
def hasIssued (c : Core) (t : Nat) : Bool := c.cycle.any fun e => e.1.toNat == t

/-- The running issue cycle has no place for thread `u`, for queue `q` if one is named: four have issued, the thread has, or the queue
has taken its instruction. -/
def cycleFull (c : Core) (u : Nat) (q : Option EngineQ) : Bool :=
  decide (4 ≤ c.cycle.length) || hasIssued c u || (q.isSome && c.cycle.any fun e => e.2 == q)

/-- The rotation of queue `q` lets thread `u` issue: no candidate comes before it, counting upward from the thread after the one that
last issued there, but those that have issued in the same cycle. -/
def rotates (c : Core) (q : EngineQ) (u : Nat) : Bool :=
  let first := (vget c.rot (queueNo q) 31).toNat + 1
  (List.range 32).all fun t =>
    !decide ((t + 64 - first) % 32 < (u + 64 - first) % 32) || !candidate c q t || (!cycleFull c u (some q) && hasIssued c t)

/-- Thread `u` issues, into queue `q` if one is named: the rotation of that queue advances. Where the running cycle has no place for
it, the next cycle begins. -/
def noteIssue (u : BitVec 5) (q : Option EngineQ) (c : Core) : Core :=
  { c with cycle := if cycleFull c u.toNat q then [(u, q)] else c.cycle ++ [(u, q)],
           rot := match q with
             | some q => vset c.rot (queueNo q) u
             | none => c.rot }

/-! ### Issue -/

/-- The rotation lets thread `u` issue `w`: a word that enters no queue, because it is CTL or its predicate fails, needs no turn. -/
def turnOf (c : Core) (u : Nat) (t : Thread) (w : Word) : Bool := match engineOf w with
  | some q => !opDefined w || !passes t w || rotates c q u
  | none => true

/-- The instruction that thread `u` issues now, if it can issue at all: the thread is READY and held by nothing, the rotation of its
engine has come to it, and its core is in no idle slot (spec/03 R49, R51). None with a fault code where the pc is past the program, or the operation is reserved. -/
def issuing (u : Issuer) (s : State) : Option (Iss × Option Nat) :=
  let c := coreOf s u.core.toNat
  let t := threadOf c u.thread.toNat
  if t.state != .ready || t.hold != .none || decide (s.postmark < c.idleUntil) || c.fenced then none
  else match c.slot with
    | none => none
    | some n => match c.prog[t.pc.toNat]? with
      | none => some ({ u := u, slot := n.toNat, core := c, t := t, w := 0 }, some 0x0C)
      | some w =>
        if turnOf c u.thread.toNat t w then
          some ({ u := u, slot := n.toNat, core := c, t := t, w := w }, if opDefined w then none else some 1)
        else none

/-- An instruction fault of the issuing thread (spec/04 R77). -/
def issueFault (s : State) (i : Iss) (code : Nat) : State := instrFault s i.u i.t.pc.toNat code

/-- The issue of operation cls.op, where that is what the thread issues. -/
def issue (u : Issuer) (cls op : Nat) (s : State) (f : Iss → State → State) : Out :=
  if !ready s then .next s
  else match issuing u s with
    | none => .next s
    | some (i, some code) => .next (issueFault s i code)
    | some (i, none) => if iClass i.w = cls ∧ iOp i.w = op then .next (f i s) else .next s

/-- `s` with the issuing thread changed. -/
def setIssuer (s : State) (i : Iss) (t : Thread) : State := modThread s i.u.core.toNat i.u.thread.toNat fun _ => t

/-- `s` with the issuing thread changed by an instruction that enters no queue. -/
def retire (s : State) (i : Iss) (t : Thread) : State :=
  modCore s i.u.core.toNat fun c => setThread (noteIssue i.u.thread none c) i.u.thread.toNat t

/-- The thread at its next instruction. -/
def stepPc (t : Thread) : Thread := { t with pc := t.pc + 1 }

/-! ### CTL (spec/04 R64, R65) -/

/-- A CTL operation: its reserved fields, its predicate, then its effect, or a fault code. -/
def ctl (u : Issuer) (op : Nat) (s : State) (f : Iss → Except Nat Thread) : Out :=
  issue u 0 op s fun i s =>
    if ctlReserved i.w then issueFault s i 1
    else if !passes i.t i.w then retire s i (stepPc i.t)
    else match f i with
      | .ok t => retire s i t
      | .error code => issueFault s i code

/-- CTL NOP. -/
def execCtlNop (u : Issuer) (s : State) : Out := ctl u 0 s fun i => .ok (stepPc i.t)

/-- Every thread of the plan of slot `n` is HALTED or IDLE. -/
def allHalted (s : State) (n : Nat) : Bool :=
  (planCores s n).all fun c => (coreOf s c).threads.toList.all fun t => t.state == .halted || t.state == .idle

/-- The streams that are still ACTIVE when the last thread ends are cancelled, and logged (spec/13 R253). -/
def cancelLeftover (s : State) (n : Nat) : State :=
  (planCores s n).foldl (fun s c =>
    let live := numsBelow 16 fun k => (streamOf (coreOf s c) k).state == .active
    cancelCore (live.foldl (fun s k => logHealth s 0 c 0 (identOf s n).toNat k) s) c) s

/-- END: the thread halts and its leases end (spec/03 R48, spec/17 R332). -/
def execEndThread (u : Issuer) (s : State) : Out := issue u 0 1 s fun i s =>
  if ctlReserved i.w then issueFault s i 1
  else if !passes i.t i.w then retire s i (stepPc i.t)
  else
    let s1 := endLeases (retire s i (haltThread i.t)) i.u
    if allHalted s1 i.slot then cancelLeftover s1 i.slot else s1

/-- The ALU's result (spec/04 Table 4.5). -/
def aluOp (sub : Nat) (x y : Word) : Word :=
  let k := y.toNat % 64
  match sub with
  | 0 => x + y
  | 1 => x - y
  | 2 => x * y
  | 3 => x &&& y
  | 4 => x ||| y
  | 5 => x ^^^ y
  | 6 => x <<< k
  | 7 => x >>> k
  | 8 => x.sshiftRight k
  | 9 => if x.toInt ≤ y.toInt then x else y
  | 10 => if x.toInt ≤ y.toInt then y else x
  | _ => y

/-- ALU and ALUI with their second operand: f chooses the register file. -/
def aluWith (t : Thread) (w : Word) (y : Word) : Thread :=
  if cF w then stepPc (setA t (cRd w) (aluOp (cSub w) ((vget t.a (cRs1 w) 0).setWidth 64) y))
  else stepPc (setS t (cRd w) (aluOp (cSub w) (sreg t (cRs1 w)) y))

/-- ALU. -/
def execAlu (u : Issuer) (s : State) : Out := ctl u 2 s fun i => .ok (aluWith i.t i.w (sreg i.t (cImm i.w % 32)))

/-- ALUI. -/
def execAlui (u : Issuer) (s : State) : Out := ctl u 3 s fun i => .ok (aluWith i.t i.w (cSext i.w))

/-- The condition of CMP. -/
def cmpCond (c : Nat) (x y : Word) : Bool := match c with
  | 0 => x == y
  | 1 => x != y
  | 2 => decide (x.toInt < y.toInt)
  | 3 => decide (y.toInt ≤ x.toInt)
  | 4 => decide (x.toNat < y.toNat)
  | _ => decide (y.toNat ≤ x.toNat)

/-- CMP. -/
def execCmp (u : Issuer) (s : State) : Out := ctl u 4 s fun i =>
  let y := if cIsImm i.w then cSext i.w else sreg i.t (cImm i.w % 32)
  .ok (stepPc (setP i.t (cPd i.w) (cmpCond (cCond i.w) (sreg i.t (cRs1 i.w)) y)))

/-- LOOP: a count of 0 skips the body; a fifth nested loop faults (spec/04 R65). With a count of 0 s[rix] keeps its value (DESIGN CHOICE,
log entry 130). -/
def execLoopOpen (u : Issuer) (s : State) : Out := ctl u 5 s fun i =>
  let n := if cRcnt i.w = 0 then cCnt i.w else sreg32 i.t (cRcnt i.w)
  if n = 0 then .ok { i.t with pc := i.t.pc + BitVec.ofNat 13 (cEndoff i.w + 1) }
  else if 4 ≤ i.t.loops.length then .error 6
  else
    let e : LoopEntry := { startPc := i.t.pc + 1, endPc := i.t.pc + BitVec.ofNat 13 (cEndoff i.w), count := BitVec.ofNat 32 n,
                           index := 0 }
    .ok (stepPc (setS { i.t with loops := e :: i.t.loops } (cRix i.w) 0))

/-- ENDLOOP: the index register is the one that the LOOP before the body names. -/
def execEndloop (u : Issuer) (s : State) : Out := ctl u 6 s fun i =>
  match i.t.loops with
  | [] => .error 7
  | e :: rest =>
    let ix := e.index + 1
    let rix := cRix ((i.core.prog[(e.startPc - 1).toNat]?).getD 0)
    if ix < e.count then
      .ok { setS { i.t with loops := { e with index := ix } :: rest } rix (ix.setWidth 64) with pc := e.startPc }
    else .ok (stepPc { i.t with loops := rest })

/-- BR: forward. -/
def execBranch (u : Issuer) (s : State) : Out := ctl u 7 s fun i => .ok { i.t with pc := i.t.pc + BitVec.ofNat 13 (cOff i.w) }

/-- TAG. -/
def execTag (u : Issuer) (s : State) : Out := ctl u 8 s fun i =>
  .ok (stepPc { i.t with rtag := if cRix i.w = 0 then BitVec.ofNat 32 (cImm i.w) else BitVec.ofNat 32 (sreg32 i.t (cRix i.w)) })

/-! ### Engine instructions (spec/04 R61, R62, R75, R76) -/

/-- The sig counter has no translation (spec/17 R319). -/
def sigUnmapped (s : State) (i : Iss) : Bool := match sigOf i.t i.w with
  | some v => translate s i.slot v.toNat == .unmapped
  | none => false

/-- The instruction enters its queue with the registers it read; the thread goes on, or is held for the result (spec/04 R72). -/
def enqueueOp (s : State) (i : Iss) (q : EngineQ) (k : EngKind) (held : Bool) : State :=
  modCore s i.u.core.toNat fun c =>
    let op : EngOp := { id := c.nextOp, thread := i.u.thread, pc := i.t.pc, kind := k, sig := sigOf i.t i.w }
    let t := stepPc i.t
    setThread (setQueue { noteIssue i.u.thread (some q) c with nextOp := c.nextOp + 1 } q (queueOf c q ++ [op])) i.u.thread.toNat
      (if held then { t with hold := .result c.nextOp } else t)

/-- The thread sleeps at a bound, and issues the instruction again when it wakes (spec/03 Table 3.4). -/
def sleepAt (s : State) (i : Iss) (h : Hold) : State := setIssuer s i { sleep i.t with hold := h }

/-- An engine instruction. Where its predicate fails it enters no queue, and signals sig (R61); its static faults are raised all the
same (R76). Else a full queue leaves the thread READY; the lowest fault code halts the thread; a bound of Table 3.6 makes it sleep;
or it enters the queue. -/
def engineIssue (u : Issuer) (cls op : Nat) (q : EngineQ) (s : State) (faults : Iss → State → List Nat)
    (bound : Iss → State → Option Hold) (kind : Iss → State → EngKind) (held : Iss → Bool) : Out :=
  issue u cls op s fun i s =>
    let sigBad := chk (sigUnmapped s i) 8
    if !passes i.t i.w then match (staticFaults i.w ++ sigBad).min? with
      | some code => issueFault s i code
      | none => signalSig (retire s i (stepPc i.t)) i.u.core i.slot (sigOf i.t i.w)
    else if queueSize q ≤ queueUsed s i.u.core.toNat q then s
    else match (faults i s ++ sigBad).min? with
      | some code => issueFault s i code
      | none => match bound i s with
        | some h => sleepAt s i h
        | none => enqueueOp s i q (kind i s) (held i)

/-- No bound, and no hold. -/
def noBound (_ : Iss) (_ : State) : Option Hold := none
def notHeld (_ : Iss) : Bool := false

/-! ### MMA class (spec/04 R67) -/

/-- The counter fields that srs names, read where sr = 1. -/
def srWord (i : Iss) : Word := if bit i.w 24 then sreg i.t (mSrs i.w) else 0

/-- MMA. -/
def execMma (u : Issuer) (s : State) : Out := engineIssue u 1 0 .mat s (fun i _ => mmaFaults i.t i.w) noBound
  (fun i _ => .mma { fmtA := BitVec.ofNat 4 (mFmtA i.w), fmtB := BitVec.ofNat 4 (mFmtB i.w), aAddr := areg i.t (mAa i.w),
                     bAddr := areg i.t (mAb i.w), acc := mAcc i.w, ovw := bit i.w 27, ta := bit i.w 26, tb := bit i.w 25,
                     sr := bit i.w 24, sta := BitVec.ofNat 2 (mSta i.w), stb := BitVec.ofNat 2 (mStb i.w),
                     kd := BitVec.ofNat 2 (mKd i.w), cnt := srWord i, rtag := i.t.rtag }) notHeld

/-- SPILL. -/
def execSpill (u : Issuer) (s : State) : Out := engineIssue u 1 1 .mat s (fun i _ => chk (!lowZero i.w 6) 1) noBound
  (fun i _ => .spill { acc := mAcc i.w, slot := BitVec.ofNat 2 (bits i.w 11 2), sr := bit i.w 24, cnt := srWord i,
                       rtag := i.t.rtag }) notHeld

/-- TOPK. -/
def execTopk (u : Issuer) (s : State) : Out := engineIssue u 1 2 .mat s
  (fun i _ => chk (!lowZero i.w 6) 1 ++ lsCheck (areg i.t (mAa i.w)) 16384 ++ chk (mK i.w == 0 || 16 < mK i.w) 9) noBound
  (fun i _ => .topk (mAcc i.w) (mK i.w) (areg i.t (mAa i.w))) notHeld

/-- ACCZ. -/
def execAccz (u : Issuer) (s : State) : Out := engineIssue u 1 3 .mat s (fun i _ => chk (!lowZero i.w 6) 1) noBound
  (fun i _ => .accz (mAcc i.w)) notHeld

/-- The cores of cluster `k`. -/
def clusterCores (k : Nat) : List Nat := (List.range 16).map (16 * k + ·)

/-- The Kid jobs of a cluster, from issue to completion (spec/03 Table 3.6). -/
def kidJobs (s : State) (k : Nat) : Nat :=
  let c := clusterOf s k
  c.kidQ.length + c.kidRun.toList.length + ((clusterCores k).map fun x => ((coreOf s x).matQ.filter fun o => match o.kind with
    | .kid _ => true
    | _ => false).length).sum

/-- KID: the thread sleeps at 16 jobs. -/
def execKid (u : Issuer) (s : State) : Out := engineIssue u 1 4 .mat s
  (fun i _ => chk (!lowZero i.w 6) 1 ++ lsCheckScratch (areg i.t (mAa i.w)) 64)
  (fun i s => if 16 ≤ kidJobs s (i.u.core.toNat / 16) then some .kidEntry else none)
  (fun i _ => .kid (areg i.t (mAa i.w))) notHeld

/-! ### VEC and FN (spec/04 R68) -/

/-- The operation with its operands. -/
def vecOp (i : Iss) : VecOp :=
  { isFn := iClass i.w == 3, op := BitVec.ofNat 4 (iOp i.w), ad := areg i.t (vAd i.w), a1 := areg i.t (vA1 i.w),
    a2 := areg i.t (vA2 i.w), a3 := areg i.t (vA3 i.w), fmtD := BitVec.ofNat 4 (vFd i.w), fmtS := BitVec.ofNat 4 (vFs i.w),
    n := sreg32 i.t (vSl i.w), ovm := bit i.w 17, st := BitVec.ofNat 2 (vSt i.w),
    bcast := if vSs i.w = 0 then none else some (BitVec.ofNat 32 (sreg32 i.t (vSs i.w))) }

/-- The issue of an element operation cls.op. -/
def vecIssue (cls op : Nat) (u : Issuer) (s : State) : Out :=
  engineIssue u cls op .vec s (fun i _ => vecFaults i.t i.w) noBound (fun i _ => .vec (vecOp i)) notHeld

def execVadd (u : Issuer) (s : State) : Out := vecIssue 2 0 u s
def execVsub (u : Issuer) (s : State) : Out := vecIssue 2 1 u s
def execVmul (u : Issuer) (s : State) : Out := vecIssue 2 2 u s
def execVfma (u : Issuer) (s : State) : Out := vecIssue 2 3 u s
def execVmax (u : Issuer) (s : State) : Out := vecIssue 2 4 u s
def execVmin (u : Issuer) (s : State) : Out := vecIssue 2 5 u s
def execCvt (u : Issuer) (s : State) : Out := vecIssue 2 6 u s
def execScl (u : Issuer) (s : State) : Out := vecIssue 2 7 u s
def execRsum (u : Issuer) (s : State) : Out := vecIssue 2 8 u s
def execRmax (u : Issuer) (s : State) : Out := vecIssue 2 9 u s
def execSsq (u : Issuer) (s : State) : Out := vecIssue 2 10 u s
def execFnExp (u : Issuer) (s : State) : Out := vecIssue 3 0 u s
def execFnLog (u : Issuer) (s : State) : Out := vecIssue 3 1 u s
def execFnRcp (u : Issuer) (s : State) : Out := vecIssue 3 2 u s
def execFnRsq (u : Issuer) (s : State) : Out := vecIssue 3 3 u s
def execFnSqrt (u : Issuer) (s : State) : Out := vecIssue 3 4 u s
def execFnTanh (u : Issuer) (s : State) : Out := vecIssue 3 5 u s
def execFnSigm (u : Issuer) (s : State) : Out := vecIssue 3 6 u s
def execFnGelu (u : Issuer) (s : State) : Out := vecIssue 3 7 u s
def execFnSilu (u : Issuer) (s : State) : Out := vecIssue 3 8 u s
def execFnSin (u : Issuer) (s : State) : Out := vecIssue 3 9 u s

/-- LDS: one word of the line at a1. -/
def execLds (u : Issuer) (s : State) : Out := engineIssue u 2 11 .vec s (fun i _ => lineFaults i.w (areg i.t (vA1 i.w))) noBound
  (fun i _ => .lds (areg i.t (vA1 i.w) + 8 * vWsel i.w) (BitVec.ofNat 5 (vSl i.w))) notHeld

/-- STS: one word of the line at ad. -/
def execSts (u : Issuer) (s : State) : Out := engineIssue u 2 12 .vec s (fun i _ => lineFaults i.w (areg i.t (vAd i.w))) noBound
  (fun i _ => .sts (areg i.t (vAd i.w) + 8 * vWsel i.w) (sreg i.t (vSl i.w))) notHeld

/-! ### STR (spec/04 R69, R70) -/

/-- The descriptor that ax names in the local store. -/
def issDesc (i : Iss) : BitVec 512 := BitVec.ofNat 512 (Mem.num i.core.ls (areg i.t (tAx i.w)) 64)

/-- The faults of a descriptor's place, or else of the descriptor. -/
def descFaults (i : Iss) (f : BitVec 512 → List Nat) : List Nat := match lsCheck (areg i.t (tAx i.w)) 64 with
  | [] => f (issDesc i)
  | l => l

/-- The faults of a GATHER's registers: its list is 4 bytes an index; its destination is a row an index, or an address alone where the
descriptor's place is refused. -/
def gatherRegs (i : Iss) : List Nat :=
  let row := if lsCheck (areg i.t (tAx i.w)) 64 = [] then dRowBytes (issDesc i) * 64 else 0
  lsCheck (areg i.t (tAz i.w)) (4 * sreg32 i.t (tSn i.w)) ++ lsCheck (areg i.t (tAy i.w)) (sreg32 i.t (tSn i.w) * row)

/-- The stream number: the whole of s[sn] (DESIGN CHOICE, log entry 127: the table names no bits of sn). -/
def streamNo (i : Iss) : Nat := (sreg i.t (tSn i.w)).toNat

/-- A status register is written. -/
def sstHeld (i : Iss) : Bool := tSst i.w != 0

/-- ARM. -/
def execArm (u : Issuer) (s : State) : Out := engineIssue u 4 0 .str s
  (fun i s => chk (!lowZero i.w 25) 1 ++ descFaults i (armFaults s i.slot)) noBound
  (fun i _ => .arm (issDesc i) (tSst i.w)) sstHeld

/-- REARM. -/
def execRearm (u : Issuer) (s : State) : Out := engineIssue u 4 1 .str s
  (fun i s => chk (!lowZero i.w 25) 1 ++ descFaults i (armFaults s i.slot) ++ chk (15 < streamNo i) 0x0A) noBound
  (fun i _ => .rearm (issDesc i) (BitVec.ofNat 4 (streamNo i)) (tSst i.w)) sstHeld

/-- CANCEL. -/
def execCancel (u : Issuer) (s : State) : Out := engineIssue u 4 2 .str s
  (fun i _ => chk (!lowZero i.w 25) 1 ++ chk (15 < streamNo i) 0x0A) noBound
  (fun i _ => .cancel (BitVec.ofNat 4 (streamNo i)) (tSst i.w)) sstHeld

/-- The number of indices of a GATHER: s[sn][31:0] (DESIGN CHOICE, log entry 127: the table names no bits of sn). -/
def gatherN (i : Iss) : Nat := sreg32 i.t (tSn i.w)

/-- GATHER: its descriptor, its list and its destination are checked; at the tag bound the thread sleeps. -/
def execGather (u : Issuer) (s : State) : Out := engineIssue u 4 3 .str s
  (fun i _ => chk (!lowZero i.w 25) 1 ++ descFaults i gatherFaults ++ gatherRegs i)
  (fun i _ => if tagFree i.core || gatherN i == 0 then none else some .fetchTag)
  (fun i _ => .gather { desc := issDesc i, dst := areg i.t (tAy i.w), list := areg i.t (tAz i.w), n := gatherN i, next := 0,
                        got := [], bad := false }) notHeld

/-! ### SYN (spec/04 R71, spec/17 R320) -/

/-- The issue of SYN operation `op`; a thread that awaits a result is held (spec/04 R72). -/
def synIssue (op : Nat) (k : SyncOp) (u : Issuer) (s : State) : Out := engineIssue u 5 op .syn s
  (fun i s => chk (!lowZero i.w 8 || (op != 1 && yTmo i.w != 0)) 1 ++
    chk (match translate s i.slot (synVid i.t i.w).toNat with
      | .unmapped => true
      | .here _ => false
      | .remote _ => !(op == 0 || op == 5)) 8) noBound
  (fun i _ => .syn { op := k, vid := synVid i.t i.w, value := synValue i.t i.w, sd := ySd i.w, tmo := yTmo i.w })
  (fun _ => op == 1 || op == 2 || op == 5)

def execSignalCount (u : Issuer) (s : State) : Out := synIssue 0 .signal u s
def execWaitCount (u : Issuer) (s : State) : Out := synIssue 1 .wait u s
def execTakeCount (u : Issuer) (s : State) : Out := synIssue 2 .take u s
def execSetCount (u : Issuer) (s : State) : Out := synIssue 3 .set u s
def execPoisonCount (u : Issuer) (s : State) : Out := synIssue 4 .poison u s
def execReadCount (u : Issuer) (s : State) : Out := synIssue 5 .read u s

/-! ### DRN (spec/04 R73) -/

/-- The drain with its operands. -/
def drainOp (i : Iss) : DrainOp :=
  { op := BitVec.ofNat 4 (iOp i.w), src := dSrc i.w, idx := BitVec.ofNat 3 (dIdx i.w), ad := areg i.t (dAd i.w),
    ap := areg i.t (dAp i.w), fmtD := BitVec.ofNat 4 (dFmt i.w), st := BitVec.ofNat 2 (dSt i.w), ovm := bit i.w 28,
    fn := BitVec.ofNat 6 (dFn i.w), bias := dBias i.w,
    scale := if dSsc i.w = 0 then none else some (BitVec.ofNat 32 (sreg32 i.t (dSsc i.w))),
    watch := !i.core.unwatched.contains i.t.pc }

/-- The issue of DRN operation `op`. -/
def drainIssue (op : Nat) (u : Issuer) (s : State) : Out := engineIssue u 6 op .drn s
  (fun i _ => drainFaults i.t i.w (op == 2)) noBound (fun i _ => .drain (drainOp i)) notHeld

def execDrain (u : Issuer) (s : State) : Out := drainIssue 0 u s
def execDrainClr (u : Issuer) (s : State) : Out := drainIssue 1 u s
def execDrainRed (u : Issuer) (s : State) : Out := drainIssue 2 u s

/-! ### TCD (spec/04 R74) -/

/-- The codec jobs of a cluster, from issue to completion (spec/03 Table 3.6). -/
def laneJobs (l : CodecLane) : Nat := l.queue.length + l.running.toList.length
def codecJobs (s : State) (k : Nat) : Nat :=
  let c := clusterOf s k
  laneJobs c.enc + laneJobs c.dec + ((clusterCores k).map fun x => (coreOf s x).tcdQ.length).sum

/-- The issue of ENC and DEC: raw tile and slot by the configuration; DEC writes a status line after its tile. -/
def tcdIssue (op : Nat) (u : Issuer) (s : State) : Out := engineIssue u 7 op .tcd s
  (fun i s => chk (!lowZero i.w 28) 1 ++ match codecCfg s i.slot (xCfg i.w).toNat with
    | none => 0x0B :: (lsCheckOperand (areg i.t (xAs i.w)) 0 ++ lsCheckOperand (areg i.t (xAd i.w)) 0)
    | some c =>
      let raw := tcRaw c + (if op = 1 then 64 else 0)
      lsCheckOperand (areg i.t (xAs i.w)) (if op = 0 then raw else tcSlotBytes c) ++
      lsCheckOperand (areg i.t (xAd i.w)) (if op = 0 then tcSlotBytes c else raw))
  (fun i s => if 16 ≤ codecJobs s (i.u.core.toNat / 16) then some .codecEntry else none)
  (fun i _ => .tcd (op == 1) (areg i.t (xAs i.w)) (areg i.t (xAd i.w)) (xCfg i.w) (sreg i.t (xSc i.w))) notHeld

def execEnc (u : Issuer) (s : State) : Out := tcdIssue 0 u s
def execDec (u : Issuer) (s : State) : Out := tcdIssue 1 u s

end Sys2Proof.Machine
end

