-- ==== Sys2Proof/Machine/Engine.lean ====
section
/-! DEFINITION. The engines of a core: operations start, gathers issue their indices, and operations complete (spec/03 R435; spec/04
R75; spec/05 R88 to R90). -/

namespace Sys2Proof.Machine

/-! ### Starting (spec/03 R435, spec/05 R88, R90) -/

/-- The accumulator tiles and spill slots that an operation holds: tile n as n, slot m as 8 + m. -/
def holds : EngKind → List Nat
  | .mma o => [o.acc.toNat]
  | .spill o => [o.acc.toNat, 8 + o.slot.toNat]
  | .topk a _ _ => [a.toNat]
  | .accz a => [a.toNat]
  | .drain o => [if o.src then 8 + o.idx.toNat else o.idx.toNat]
  | _ => []

/-- The unit inside the core that an operation occupies alone: the array 1, the vector engine 2, the drain 3, the spill path 4 (spec/05
R94); 0 for none. -/
def unitOf : EngKind → Nat
  | .mma _ => 1
  | .spill _ => 4
  | .topk _ _ _ => 1
  | .accz _ => 1
  | .vec _ => 2
  | .lds _ _ => 2
  | .sts _ _ => 2
  | .drain _ => 3
  | _ => 0

/-- An operation can start beside those that run: its unit is free, and nothing holds its tiles and slots. -/
def canStart (c : Core) (k : EngKind) : Bool :=
  !c.running.any fun r => (unitOf k != 0 && unitOf r.kind == unitOf k) || (holds k).any (holds r.kind).contains

/-- Bytes of the local store of core `c`. -/
def lsRead (s : State) (c a n : Nat) : List Byte := Mem.read (coreOf s c).ls a n

/-- The head of queue `q` leaves it. -/
def popQueue (s : State) (c : Nat) (q : EngineQ) : State := modCore s c fun x => setQueue x q (queueOf x q).tail

/-- The head starts in its engine. -/
def beginOp (s : State) (c : Nat) (q : EngineQ) (op : EngOp) : State :=
  modCore (popQueue s c q) c fun x => { x with running := x.running ++ [op] }

/-- The counter request of a SYN operation. -/
def synReq (c n : Nat) (op : EngOp) (o : SynOp) (pid : BitVec 16) : SyncReq :=
  { pid := pid, slot := BitVec.ofNat 6 n, op := o.op, value := o.value,
    src := .thread (BitVec.ofNat 8 c) op.thread op.id o.sd o.tmo op.sig }

/-- A SYN operation is handed to its home unit, or to the fabric port for a remote range. One whose identifier has lost its
translation has no effect and is counted (spec/17 R337). -/
def startSyn (s : State) (c n : Nat) (op : EngOp) (o : SynOp) : State :=
  match translate s n o.vid.toNat with
  | .here pid => arrive (popQueue s c .syn) (synReq c n op o pid)
  | .remote m =>
    if o.op = .signal then
      remoteSignal (beginOp s c .syn op) (BitVec.ofNat 8 c) n o.vid.toNat m o.value (some op.id)
    else
      request (beginOp s c .syn op)
        { table := BitVec.ofNat 4 (c / 16), dst := m, op := 0x01, slot := BitVec.ofNat 6 n, addr := globalAddr m 3 o.vid.toNat,
          arg := 8, data := [], use := .readCount (BitVec.ofNat 8 c) op.thread op.id o.sd, after := [] }
  | .unmapped => logHealth (popQueue s c .syn) 0 c 0x0102 (identOf s n).toNat o.vid.toNat

/-- A job enters a direction of the codec unit of core `c`'s cluster, with its place in the unit's order of acceptance (spec/14 R262). -/
def pushCodec (s : State) (c : Nat) (j0 : CodecJob) : State :=
  modCluster s (c / 16) fun k0 =>
    let j := { j0 with seq := k0.codecSeq }
    let k := { k0 with codecSeq := k0.codecSeq + 1 }
    if j.expand then { k with dec := { k.dec with queue := k.dec.queue ++ [j] } }
    else { k with enc := { k.enc with queue := k.enc.queue ++ [j] } }

/-- The head of queue `q` of core `c` starts, if it can. -/
def startHead (s : State) (c : Nat) (q : EngineQ) (n : Nat) (op : EngOp) : State :=
  match op.kind with
  | .kid a =>
    let j : KidJob := { core := BitVec.ofNat 8 c, op := op, slot := BitVec.ofNat 6 n, desc := BitVec.ofNat 512 (ofLe (lsRead s c a 64)) }
    modCluster (popQueue s c q) (c / 16) fun k => { k with kidQ := k.kidQ ++ [j] }
  | .syn o => startSyn s c n op o
  | .tcd expand src dst cfg coord =>
    pushCodec (popQueue s c q) c
      { core := BitVec.ofNat 8 c, for_ := .instr op, slot := BitVec.ofNat 6 n, expand := expand, cfg := cfg, coord := coord,
        lsAddr := src, tierOff := dst, obj := 0, pool := none, src := [], ref := [], bad := false, badAt := none, seq := 0 }
  | .gather o => if o.n = 0 then beginOp s c q op else s
  | .drain o =>
    if !canStart (coreOf s c) op.kind then s
    else if o.op = 2 ∧ handleBad s n (handleOf (coreOf s c) o) o.fmtD.toNat then
      instrFault (popQueue s c q) { core := BitVec.ofNat 8 c, thread := op.thread } op.pc.toNat 1
    else beginOp s c q op
  | k => if canStart (coreOf s c) k then beginOp s c q op else s

/-- ENGINE_OP_START. -/
def execEngineOpStart (core : BitVec 8) (q : EngineQ) (s : State) : Out :=
  let c := coreOf s core.toNat
  match ready s, c.slot, queueOf c q with
  | true, some n, op :: _ => .next (startHead s core.toNat q n.toNat op)
  | _, _, _ => .next s

/-! ### GATHER (spec/04 R70) -/

/-- Operation `id` of core `c`, in its fetch queue or running. -/
def gatherOp (c : Core) (id : Nat) : Option GatherOp :=
  ((c.strQ ++ c.running).find? fun o => o.id == id).bind fun o => match o.kind with
    | .gather g => some g
    | _ => none

/-- Changes a gather wherever it stands. -/
def modGather (c : Core) (id : Nat) (f : GatherOp → GatherOp) : Core :=
  let g := fun (o : EngOp) => if o.id = id then match o.kind with
      | .gather x => { o with kind := .gather (f x) }
      | _ => o
    else o
  { c with strQ := c.strQ.map g, running := c.running.map g }

/-- Bytes of elements of format `code` with a NaN in every element that an uncorrectable byte touches (spec/11 R218); 0 for an
integer. The bytes past the last whole element are 0 where they are bad. -/
def nanElems (code : Nat) (bs : List Byte) (bad : List Nat) : List Byte :=
  if bad.isEmpty then bs
  else
    let w := fmtBits code
    let n := if w = 0 then 0 else bs.length * 8 / w
    let xs := (List.range n).map fun i =>
      let sp := elemSpan code i
      if bad.any fun b => decide (sp.1 ≤ b ∧ b ≤ sp.2) then (convElem code false .nan).1 else elemAt (fun j => bs.getD j 0) code i
    let out := elemsToBytes code xs 0
    out ++ (List.range (bs.length - out.length)).map fun i =>
      if bad.contains (out.length + i) then 0 else bs.getD (out.length + i) 0

/-- Row `row` of a gather lands. -/
def landRow (s : State) (c id row : Nat) (bs : List Byte) (bad : Bool) : State :=
  modCore s c fun x => modGather x id fun g => { g with got := g.got ++ [(row, bs)], bad := g.bad || bad }

/-- The fetch of index `ix` as row `row`: from a home here it lands now; from another module it takes a fetch tag until its
READ_DATA. -/
def fetchRow (s : State) (c n id row ix : Nat) (g : GatherOp) : State :=
  let d := g.desc
  let len := dRowBytes d * 64
  let off := dBase d + 64 * ix * dPitch d
  match objOf s n (dHome s n d) with
  | none => landRow s c id row (List.replicate len 0) true
  | some o =>
    if o.isBind then
      request (modCore s c fun x => { x with tags := x.tags + 1 })
        { table := BitVec.ofNat 4 (c / 16), dst := o.homeMod, op := 0x01, slot := BitVec.ofNat 6 n,
          addr := homeAddr o + BitVec.ofNat 64 off, arg := BitVec.ofNat 64 len, data := [],
          use := .gather (BitVec.ofNat 8 c) id row, after := [] }
    else if o.size < off + len then landRow s c id row (List.replicate len 0) true
    else
      let r := readObj s n o off len
      let s1 := landRow s c id row (nanElems (dFsrc d) r.bytes r.bad) (!r.bad.isEmpty)
      match r.bad with
      | i :: _ => if o.state = .lost then s1 else noteBad s1 n o (off + i)
      | [] => s1

/-- The instruction of an operation, for the health log. -/
def instOf (op : EngOp) : Nat := whereOf op.pc.toNat op.thread.toNat

/-- GATHER_INDEX_ISSUE: the gather at the head of the fetch queue issues its next index; at the bound its thread sleeps. An index word
that reads as uncorrectable is noted now, and the plan ends once the gather has completed (spec/04 R70). -/
def execGatherIndexIssue (core : BitVec 8) (ecc : IndexEcc) (s : State) : Out :=
  let k := core.toNat
  let c := coreOf s k
  match ready s, c.slot, c.strQ with
  | true, some n, op :: _ =>
    match op.kind with
    | .gather g =>
      if g.n ≤ g.next then .next s
      else if !tagFree c then
        .next (modThread s k op.thread.toNat fun t => if t.hold = .none ∧ t.state = .ready then { sleep t with hold := .fetchTag } else t)
      else
        let ix := Mem.num c.ls (g.list + 4 * g.next) 4
        let len := dRowBytes g.desc * 64
        let s1 := modCore s k fun x => modGather x op.id fun g => { g with next := g.next + 1 }
        let s2 := match ecc.word with
          | .uncorrectable => landRow s1 k op.id g.next (List.replicate len 0) true
          | _ => if dNrow g.desc ≤ ix then landRow s1 k op.id g.next (List.replicate len 0) false
            else fetchRow ((objOf s1 n.toNat (dHome s1 n.toNat g.desc)).elim s1 fun o => noteSofts s1 n.toNat o ecc.soft) k n.toNat op.id g.next ix g
        let s3 := match ecc.word with
          | .good => s2
          | .corrected => softLsError s2 k ((g.list + 4 * g.next) / 8 * 8)
          | .uncorrectable => noteHardLs s2 k ((g.list + 4 * g.next) / 8 * 8) (instOf op)
        let s4 := if g.next + 1 = g.n then
            match (coreOf s3 k).strQ with
            | o :: _ => if o.id = op.id then beginOp s3 k .str o else s3
            | [] => s3
          else s3
        .next s4
    | _ => .next s
  | _, _, _ => .next s

/-! ### Completing (spec/04 Table 4.12) -/

/-- The seed of the running plan and the step number of slot `n` (spec/02 R38). -/
def seedOf (s : State) (n : Nat) : Word := match ctxOf s n with
  | some c => match c.run with
    | some r => r.seed
    | none => 0
  | none => 0
def stepOf (s : State) (n : Nat) : Nat := match ctxOf s n with
  | some c => c.step.toNat
  | none => 0

/-- The flag of a drain enters CTX_STEP_EVENTS, or the health log where the drain is unwatched (spec/09 R171). -/
def drainFlag (s : State) (n core : Nat) (op : EngOp) (o : DrainOp) (e : Events) : State :=
  if o.watch then flagEvents s n core e
  else if e.any then logHealth s 0 core 0 (identOf s n).toNat op.pc.toNat
  else s

/-- A status register takes a status code and a stream number (spec/04 R69). -/
def statusWord (st stream : Nat) : Word := BitVec.ofNat 64 (st + 65536 * stream)

/-- The effect of an operation that completes; none where it cannot complete yet, or completes elsewhere. -/
def finishOp (s : State) (c n : Nat) (op : EngOp) (errs : List LsError) : Option State :=
  let put := fun (x : Core) => some (setCore s c x)
  let core := coreOf s c
  let strDone := fun (r : State × Nat × Nat) (sst : BitVec 5) =>
    some (modThread r.1 c op.thread.toNat fun t => deliver t op.id sst.toNat (statusWord r.2.1 r.2.2))
  let strFirst := (core.running.find? fun o => match o.kind with
    | .arm _ _ => true
    | .rearm _ _ _ => true
    | .cancel _ _ => true
    | _ => false).map (·.id) == some op.id
  match op.kind with
  | .mma o => put (runMma core errs o (seedOf s n) (stepOf s n))
  | .spill o => put (runSpill core errs o (seedOf s n) (stepOf s n))
  | .topk a k addr => put (runTopk core errs a.toNat k addr)
  | .accz a => put (runAccz core a.toNat)
  | .vec o => put { core with ls := runVec core.ls errs o }
  | .lds addr rd => put (setThread core op.thread.toNat (setS (threadOf core op.thread.toNat) rd.toNat (ldsWord core.ls errs addr)))
  | .sts addr v => put { core with ls := Mem.put core.ls addr 8 v.toNat }
  | .drain o =>
    if o.op = 2 then
      let h := handleOf core o
      let r := redDrain core errs o (hRows h) (hCols h)
      let s1 := setCore s c (clearSource core o)
      if redWaits s n h && !planEnding s n then none
      else some (acceptOwn (drainFlag s1 n c op o r.2) n (hColl h) (hGroup h) (hSlice h) r.1 c)
    else
      let r := runDrain core errs o
      some (drainFlag (setCore s c r.1) n c op o r.2)
  | .arm d sst => if strFirst then strDone (armStream s c n d) sst else none
  | .rearm d k sst => if strFirst then strDone (rearmStream s c n k.toNat d) sst else none
  | .cancel k sst => if strFirst then strDone (cancelOne s c k.toNat) sst else none
  | .gather g =>
    if g.got.length < g.n then none
    else
      let len := dRowBytes g.desc * 64
      let s1 := if (threadOf core op.thread.toNat).state == .halted then s
        else setCore s c { core with ls := g.got.foldl (fun ls r => Mem.write ls (g.dst + r.1 * len) r.2) core.ls }
      some (if g.bad then endPlan s1 n 0x0500 0 0 else s1)
  | .kid _ => none
  | .syn _ => none
  | .tcd _ _ _ _ _ => none

/-- ENGINE_OP_COMPLETE: the operation's effect, its signal, and the errors that it met. -/
def execEngineOpComplete (core : BitVec 8) (id : Nat) (errs : List LsError) (s : State) : Out :=
  let c := coreOf s core.toNat
  match ready s, c.slot, c.running.find? fun o => o.id == id with
  | true, some n, some op => match finishOp s core.toNat n.toNat op errs with
    | none => .next s
    | some s1 =>
      let s2 := modCore s1 core.toNat fun x => { x with running := x.running.filter fun o => o.id != id }
      .next (lsErrors (signalSig s2 core n.toNat op.sig) core.toNat (instOf op) errs)
  | _, _, _ => .next s

end Sys2Proof.Machine
end

