-- ==== Sys2Proof/Machine/StreamUnit.lean ====
section
/-! DEFINITION. Tiles of streams: where they lie in the object and in the ring, how they start, move and are signalled (spec/12 R225 to
R233; spec/07 R117 to R126; spec/08 R142 to R147). -/

namespace Sys2Proof.Machine

/-! ### The ring (spec/12 R225, R230) -/

/-- The local-store address of tile `t`'s slot, by the descriptor that was armed. -/
def slotAddr (x : Stream) (t : Nat) : Nat := 64 * (dRing x.keep + t % (dA x.keep + 1) * dSlot x.keep)

/-- The stream writes to its tier. -/
def isOut (x : Stream) : Bool := dOut x.keep

/-! ### LINEAR (spec/12 R225) -/

/-- The rows of tile `i` of a descriptor as ranges of the object. -/
def linearSegs (d : BitVec 512) (i : Nat) : List (Nat × Nat) :=
  let y := i / dNx d
  let x := i % dNx d
  (List.range (dRows d)).map fun r => (dBase d + 64 * (y * dYs d + x * dXs d + r * dPitch d), dRowBytes d * 64)

/-! ### CONV (spec/07 R117 to R126) -/

/-- The fields of the layer word (spec/07 Table 7.2). -/
def lwFmtIn (l : ConvLayer) : Nat := bits l.word 60 4
def lwFmtW (l : ConvLayer) : Nat := bits l.word 56 4
def lwFmtOut (l : ConvLayer) : Nat := bits l.word 52 4
def lwPmode (l : ConvLayer) : Nat := bits l.word 50 2
def lwEng (l : ConvLayer) : Nat := bits l.word 48 2
def lwMap (l : ConvLayer) : Nat := bits l.word 46 2
def lwPool (l : ConvLayer) : Bool := bits l.word 42 2 != 0
def lwPadC (l : ConvLayer) : Nat := bits l.word 0 32

/-- A format of the Kid engine's inputs and outputs (spec/07 R129). -/
def kidFmt (f : Nat) : Bool := f == 2 || f == 3 || f == 4

/-- The limits of the Kid engine (spec/07 R129). -/
def kidLimits (l : ConvLayer) : Bool :=
  decide (l.chans ≤ 16 ∧ l.t.k * l.h.k * l.w.k * l.chans ≤ 2048) && kidFmt (lwFmtIn l) && lwFmtW l == 2 && kidFmt (lwFmtOut l)

/-- The engine that runs a convolution (spec/07 R125, R128). -/
def onKid (l : ConvLayer) : Bool :=
  let used := if 32 ≤ l.chans then l.chans else l.w.k * l.chans
  !lwPool l && (lwEng l == 1 || (lwEng l == 2 && kidLimits l && decide (2 * used < roundUp used 32)))

/-- What padded position `p` of an extent reads: an element of the tensor, or none where the padding value is substituted. -/
def padPos (pmode ext : Nat) (p : Int) : Option Nat :=
  if 0 ≤ p ∧ p < ext then some p.toNat
  else if pmode = 2 then some (if p < 0 then (-p).toNat else (2 * ((ext : Int) - 1) - p).toNat)
  else if pmode = 3 then some (if p < 0 then 0 else ext - 1)
  else none

/-- The code that the maximum of a pooling window ignores: −infinity, or the least number of a format that has none. -/
def leastCode (f : Nat) : Nat := match f with
  | 0 => 0xFF800000
  | 1 => 0xFC00
  | 2 => 0xFF80
  | 3 => 0xFE
  | 4 => 0xFC
  | 5 => 0x3F
  | 6 => 0x3F
  | 7 => 0xF
  | 8 => 0x80
  | _ => 0x8

/-- The code of a substituted element (spec/07 Table 7.3). POOL_MAX ignores padding (R134): its rings hold a code there that no maximum takes
(DEDUCED, log entry 144). -/
def padCode (l : ConvLayer) : Nat :=
  if bits l.word 42 2 = 1 then leastCode (lwFmtIn l)
  else if lwPmode l = 1 then (convElem (lwFmtIn l) false (dec32 (lwPadC l))).1 else 0

/-- A pixel of a ring row: its elements' codes, none where nothing is fetched or written. -/
abbrev Pixel := List (Option Nat)

/-- A convolution on the arrays in the PLAIN mapping (spec/07 R127). -/
def plainConv (l : ConvLayer) : Bool := !lwPool l && !onKid l && lwMap l == 2

/-- The padded positions of a row that may read pixel `p`: its own, its reflections, and what REPLICATE takes from the edges. -/
def pixelPlaces (g : Geo) (pmode p : Nat) : List Nat :=
  [g.lo + p] ++ (if pmode = 2 then [g.lo - p, g.lo + 2 * (g.inExt - 1) - p] else []) ++
  (if pmode = 3 ∧ p = 0 then List.range g.lo else []) ++
  if pmode = 3 ∧ p + 1 = g.inExt then (List.range g.hi).map (· + g.lo + g.inExt) else []

/-- Whether some tap of some output reads pixel `p` of a row (spec/07 R121), itself or as padding that REFLECT or REPLICATE takes from it. -/
def pixelRead (l : ConvLayer) (p : Nat) : Bool :=
  (pixelPlaces l.w (lwPmode l) p).any fun v =>
    padPos (lwPmode l) l.w.inExt ((v : Int) - l.w.lo) == some p && tapReads l.w l.w.out.toNat v

/-- The pixels of a row that are read, as runs of first pixel and count. -/
def pixelRuns (l : ConvLayer) : List (Nat × Nat) :=
  ((List.range l.w.inExt).filter (pixelRead l)).foldl (fun runs p => match runs.getLast? with
    | some r => if r.1 + r.2 = p then runs.dropLast ++ [(r.1, r.2 + 1)] else runs ++ [(p, 1)]
    | none => [(p, 1)]) []

/-- The padded pixels of a row, from −pad_lo to W − 1 + pad_hi. -/
def paddedRow (l : ConvLayer) (row : List Pixel) : List Pixel :=
  (List.range (l.w.lo + l.w.inExt + l.w.hi)).map fun (i : Nat) => match padPos (lwPmode l) l.w.inExt ((i : Int) - l.w.lo) with
    | some p => row.getD p []
    | none => List.replicate l.chans (some (padCode l))

/-- A pixel of a convolution on the arrays: its channels and the zero channels up to a multiple of 32 (spec/07 R124). -/
def padChans (l : ConvLayer) (px : Pixel) : Pixel :=
  if lwPool l then px else px ++ List.replicate (roundUp l.chans 32 - l.chans) (some 0)

/-- The positions of a line of the DIAGONAL mapping: the last tile's span, rounded up to a multiple of 32, ends it (spec/07 R126). -/
def lineLen (l : ConvLayer) : Nat :=
  max (l.w.lo + l.w.inExt + l.w.hi)
    ((ceilDiv l.w.out.toNat 128 - 1) * 128 * l.w.stride + roundUp (127 * l.w.stride + l.w.dil * (l.w.k - 1) + 1) 32)

/-- A ring row in the form that the mapping reads (spec/07 R123 to R126). -/
def ringRow (l : ConvLayer) (row : List Pixel) : Pixel :=
  let pad := paddedRow l row
  let st := if l.w.stride = 0 then 1 else l.w.stride
  let zeros := fun n => List.replicate n (some 0)
  if onKid l then row.flatten
  else if !lwPool l && lwMap l == 1 then
    (List.range l.chans).flatMap fun c => (pad.map fun px => px.getD c (some 0)) ++ zeros (lineLen l - pad.length)
  else if !lwPool l && l.chans < 32 then
    (List.range l.w.out.toNat).flatMap fun o =>
      let win := (List.range l.w.k).flatMap fun j => pad.getD (o * st + l.w.dil * j) []
      win ++ zeros (roundUp win.length 32 - win.length)
  else if st = 1 then (pad.map (padChans l)).flatten
  else
    let phases := (List.range st).filter fun r => (List.range l.w.k).any fun j => l.w.dil * j % st == r
    phases.flatMap fun r => ((pad.zipIdx.filter fun x => x.2 % st == r).map fun x => padChans l x.1).flatten

/-- A ring row with zeros in what is left of it, which the last output pixels of a row on the arrays read (spec/07 R125). -/
def wholeRow (l : ConvLayer) (bytes : Nat) (row : List Pixel) : Pixel :=
  let r := ringRow l row
  let w := fmtBits (lwFmtIn l)
  if onKid l || lwPool l || w == 0 then r else r ++ List.replicate (bytes * 8 / w - r.length) (some 0)

/-- The bytes of a ring row: none where no written element lies. -/
def pixelBytes (f : Nat) (row : Pixel) : List (Option Byte) :=
  let es := row.toArray
  let w := fmtBits f
  (elemsToBytes f (row.map (·.getD 0)) 0).zipIdx.map fun (b, i) =>
    if (List.range' (i * 8 / w) ((i * 8 + 7) / w + 1 - i * 8 / w)).any fun e => (es.getD e none).isSome then some b else none

/-- Where input row (item, frame, row) starts in the object. -/
def convRowOff (l : ConvLayer) (d : BitVec 512) (nb it ih : Nat) : Nat :=
  dBase d + ((nb * l.t.inExt + it) * l.h.inExt + ih) * dPitch d * 64

/-- The ranges of an input row at `off` that are fetched. -/
def rowSegs (l : ConvLayer) (off : Nat) : List (Nat × Nat) :=
  (pixelRuns l).map fun r =>
    let a := (elemSpan (lwFmtIn l) (r.1 * l.chans)).1
    (off + a, (elemSpan (lwFmtIn l) ((r.1 + r.2) * l.chans - 1)).2 + 1 - a)

/-- The rows that stripe `i` of a CONV stream fetches or fills: for each, the row of the stream's ring, from row `rowBase` of the ring on, and
the tensor row that it reads (none in substituted padding). The halo rows of the stripe before it in its frame are in the ring already;
the PLAIN mapping has no ring, and fills its slot whole (spec/07 R121, R122, R127). Where in the ring a row lies is a DESIGN CHOICE, log
entry 145. -/
def convRows (l : ConvLayer) (d : BitVec 512) (rowBase i : Nat) : List (Nat × Option Nat) :=
  let nz := fun (v : Nat) => if v = 0 then 1 else v
  let per := nz (stripesPerFrame l d)
  let frame := i / per
  let ot := frame % nz l.t.out.toNat
  let nb := frame / nz l.t.out.toNat
  let outs := stripeRows l d
  let oh0 := i % per * outs
  let ohn := min outs (l.h.out.toNat - oh0)
  let slots := dA d + 1
  let cap := nz (slots * dSlot d / nz (dRowBytes d) / nz l.t.k)
  let seq := rowBase + frame * ringRowsPerFrame l d + i % per * stripeStep l d
  let old := if plainConv l ∨ i % per = 0 then 0 else rowsIn l outs - stripeStep l d
  (List.range l.t.k).flatMap fun kt =>
    let it := padPos (lwPmode l) l.t.inExt ((ot * l.t.stride + l.t.dil * kt : Nat) - (l.t.lo : Int))
    ((List.range (min (frameRows l d) (rowsIn l ohn))).filter fun r => decide (old ≤ r) && tapReads l.h ohn r).map fun r =>
      let ih := padPos (lwPmode l) l.h.inExt ((oh0 * l.h.stride + r : Nat) - (l.h.lo : Int))
      (if plainConv l then kt * frameRows l d + r else kt * cap + (seq + r) % cap, match it, ih with
        | some a, some b => some (convRowOff l d nb a b)
        | _, _ => none)

/-- The ranges of the object that stripe `i` reads. -/
def convSegs (l : ConvLayer) (d : BitVec 512) (i : Nat) : List (Nat × Nat) :=
  ((convRows l d 0 i).filterMap (·.2)).eraseDups.flatMap (rowSegs l)

/-- The channels of the output tensor that an OUT stream writes: the innermost extent of the TENSOR record of its range, or as many as its
rows have room for. -/
def outChans (img : List Byte) (l : ConvLayer) (d : BitVec 512) : Nat :=
  let mine := (recsOf img 0x0A).filter fun o => imgNum img o 4 == dObj d && decide (imgNum img (o + 4) 6 ≤ dBase d)
  let room := dRowBytes d * 64 * 8 / (if fmtBits (lwFmtOut l) * l.w.out.toNat = 0 then 1 else fmtBits (lwFmtOut l) * l.w.out.toNat)
  ((mine.map fun o => (imgNum img (o + 4) 6, imgNum img (o + 20) 4)).foldl (fun (b : Option (Nat × Nat)) t => match b with
    | some x => if x.1 ≤ t.1 then some t else b
    | none => some t) none).elim room fun t => min room t.2

/-- An OUT stripe: whole tile rows of the output tensor, one output row each, of which the real pixels are written (spec/07 R125). -/
def convOutSegs (img : List Byte) (l : ConvLayer) (d : BitVec 512) (i : Nat) : List (Nat × Nat) :=
  let per := ceilDiv l.h.out.toNat (if dRows d = 0 then 1 else dRows d)
  let st := i % (if per = 0 then 1 else per)
  let f := i / (if per = 0 then 1 else per)
  let len := min (dRowBytes d * 64) (elemBytes (lwFmtOut l) (l.w.out.toNat * outChans img l d))
  (List.range (min (dRows d) (l.h.out.toNat - st * dRows d))).map fun r =>
    (dBase d + (f * l.h.out.toNat + st * dRows d + r) * dPitch d * 64, len)

/-! ### PAGED (spec/08 R139, R144) -/

/-- A page half as a PAGED stream sees it: descriptor, sequence, length, first visible token, logical page, half V. -/
structure PageHalf where
  kv   : BitVec 256
  seq  : Nat
  len  : Nat
  from_ : Nat
  page : Nat
  v    : Bool
deriving DecidableEq, Repr

/-- The page half of tile `i` of a PAGED stream. -/
def pageHalf (s : State) (n : Nat) (x : Stream) (i : Nat) : Option PageHalf :=
  (kvByObj s n (dObj x.desc)).map fun k =>
    { kv := k, seq := dAux0 x.desc % 2 ^ 15, len := x.lenAtArm, from_ := x.fromAtArm,
      page := (pagedPages x.lenAtArm x.fromAtArm).getD i 0, v := dAux0 x.desc / 2 ^ 15 == 1 }

/-- The bytes of one half's elements and scales. -/
def halfElems (k : BitVec 256) : Nat := elemBytes (kvFmt k) (128 * kvDim k)
def halfScales (k : BitVec 256) : Nat := if kvSt k = 1 then 128 * kvDim k / 32 else 0
def halfBytes (k : BitVec 256) : Nat := halfElems k + halfScales k

/-- Where a page half lies in the pool object: base is the head's offset in slot 0. -/
def halfOff (h : PageHalf) (d : BitVec 512) (ppn : Nat) : Nat :=
  dBase d + ppn * kvSlotBytes h.kv + (if h.v then halfBytes h.kv else 0)

/-- The tokens of the page that the stream reads or writes: the first, and how many. -/
def pageTokens (h : PageHalf) : Nat × Nat :=
  let a := max h.from_ (h.page * 128)
  (a - h.page * 128, min h.len (h.page * 128 + 128) - a)

/-- The ranges of those tokens' elements and scales, from the start of the half. -/
def tokenSegs (h : PageHalf) : List (Nat × Nat) :=
  let row := elemBytes (kvFmt h.kv) (kvDim h.kv)
  let (a, c) := pageTokens h
  if c = 0 then []
  else [(a * row, c * row)] ++
    if kvSt h.kv = 1 then [(halfElems h.kv + a * (kvDim h.kv / 32), c * (kvDim h.kv / 32))] else []

/-- Token `t` of the page is visible to some query. -/
def tokVisible (h : PageHalf) (t : Nat) : Bool := decide (h.page * 128 + t < h.len ∧ h.from_ ≤ h.page * 128 + t)

/-- The code of element (t, j) and the scale byte of its block, from the half's bytes; 0 for a hidden token or no page. A bad byte
makes a NaN: the scale, or the element where there are no scales. -/
def halfCode (h : PageHalf) (rd : Nat → Byte) (t j : Nat) : Nat :=
  if tokVisible h t then elemAt rd (kvFmt h.kv) (t * kvDim h.kv + j) else 0
def halfScale (h : PageHalf) (rd : Nat → Byte) (t b : Nat) : Nat :=
  if tokVisible h t then (rd (halfElems h.kv + t * (kvDim h.kv / 32) + b)).toNat else 0

/-- The half's bytes with NaNs where they are bad (spec/08 R156): a scaled block by its scale byte. -/
def nanScaled (code n : Nat) (at_ : Nat) (bs : List Byte) (bad : List Nat) : List Byte :=
  if bad.isEmpty then bs
  else
    let blockBad := fun b => bad.any fun x => decide (x = at_ + b) || (List.range 32).any fun i =>
      let sp := elemSpan code (32 * b + i)
      decide (32 * b + i < n ∧ sp.1 ≤ x ∧ x ≤ sp.2)
    bs.zipIdx.map fun (v, i) => if at_ ≤ i ∧ i < at_ + ceilDiv n 32 ∧ blockBad (i - at_) then 0xFF else v

/-- The bytes that a PAGED IN tile leaves in its slot: B tiles of at most 128 columns, expanded to BF16 where the stream does. -/
def halfToSlot (h : PageHalf) (expand : Bool) (rd : Nat → Byte) : List Byte :=
  let d := kvDim h.kv
  let w := min d 128
  let f := kvFmt h.kv
  (List.range (d / w)).flatMap fun q =>
    let codes := (List.range 128).flatMap fun t => (List.range w).map fun j => halfCode h rd t (q * w + j)
    if expand then
      let xs := (List.range 128).flatMap fun t => (List.range w).map fun j =>
        let c := halfCode h rd t (q * w + j)
        (convElem 2 false (if kvSt h.kv = 1 then decodeScaled f (halfScale h rd t ((q * w + j) / 32)) c else decodeElem f c)).1
      elemsToBytes 2 xs 0
    else
      let e := elemsToBytes f codes 0
      if kvSt h.kv = 1 then
        e ++ List.replicate (roundUp e.length 64 - e.length) 0 ++
          ((List.range 128).flatMap fun t => (List.range (w / 32)).map fun b => BitVec.ofNat 8 (halfScale h rd t (q * w / 32 + b)))
      else e

/-- The offset in the slot of a PAGED OUT tile from which byte `i` of the half comes (the layout of `halfToSlot`). -/
def slotOffset (h : PageHalf) (i : Nat) : Nat :=
  let d := kvDim h.kv
  let w := min d 128
  let row := elemBytes (kvFmt h.kv) d
  let part := elemBytes (kvFmt h.kv) w
  let tileLen := if kvSt h.kv = 1 then roundUp (128 * part) 64 + 128 * w / 32 else 128 * part
  if i < halfElems h.kv then i % row / part * tileLen + i / row * part + i % row % part
  else
    let k := i - halfElems h.kv
    let b := k % (d / 32)
    b / (w / 32) * tileLen + roundUp (128 * part) 64 + k / (d / 32) * (w / 32) + b % (w / 32)

/-- The FP32 mask row (spec/08 R144): +0 for a visible token, −infinity for the others. -/
def maskRow (h : PageHalf) : List Byte :=
  (List.range 128).flatMap fun t => leBytes 4 (if tokVisible h t then 0 else fp32.infCode true)
def maskAddr (x : Stream) (t : Nat) : Nat := (maskRing x.desc).1 + 512 * (t % (dA x.keep + 1))

/-! ### The ranges of a tile -/

/-- The ranges of the object that tile `t` of a stream reads or writes; none for CODEC, whose unit moves them. -/
def tileSegs (s : State) (n : Nat) (x : Stream) (t : StreamTile) : List (Nat × Nat) :=
  let d := x.desc
  let i := t.n - x.first
  match dMode d with
  | 0 => linearSegs d i
  | 1 => match convLayer s n d with
    | some l => if isOut x then convOutSegs (imageOf s n) l d i else convSegs l d i
    | none => []
  | 2 => match pageHalf s n x i, t.page with
    | some h, some p => (tokenSegs h).map fun r => (halfOff h d p.toNat + r.1, r.2)
    | _, _ => []
  | _ => []

/-- A range cut into requests of 256 B (spec/12 R230). -/
def cutReqs : Nat → Nat × Nat → List (Nat × Nat)
  | 0, r => [r]
  | k + 1, (a, len) => if len ≤ 256 then [(a, len)] else (a, 256) :: cutReqs k (a + 256, len - 256)

/-- The requests of a range. -/
def requestsOf (r : Nat × Nat) : List (Nat × Nat) := cutReqs (r.2 / 256) r

/-- The requests of a tile. -/
def tileChunks (s : State) (n : Nat) (x : Stream) (t : StreamTile) : List (Nat × Nat) := (tileSegs s n x t).flatMap requestsOf

/-- Range (off, len) as it has come from another module: a part whose read failed is bad (spec/16 R297). -/
def gotRange (t : StreamTile) (off len : Nat) : Rd :=
  (requestsOf (off, len)).foldl (fun acc r => match t.got.lookup r.1 with
    | some bs => { acc with bytes := acc.bytes ++ bs }
    | none => { bytes := acc.bytes ++ List.replicate r.2 0, bad := acc.bad ++ (List.range r.2).map (· + acc.bytes.length) })
    { bytes := [], bad := [] }

/-- Reads a range of a tile's object: what another module sent, or the home here. -/
def readSeg (s : State) (n : Nat) (o : Obj) (t : StreamTile) (off len : Nat) : Rd :=
  if o.isBind then gotRange t off len else readObj s n o off len

/-- A range lies beyond its object (spec/12 R228). -/
def beyond (o : Obj) (segs : List (Nat × Nat)) : Bool := !o.isBind && segs.any fun r => decide (o.size < r.1 + r.2)

/-! ### The CACHE partitions (spec/11 R214) -/

/-- A read of LPDDR6 lines of an object whose cache flag is set leaves them as the most recently used of their banks. -/
def touchCache (s : State) (n : Nat) (o : Obj) (off len : Nat) : State :=
  let parts := numsBelow 16 fun p => partMode s p == 2
  if o.isBind || o.tier != 0 || !o.cache || parts.isEmpty then s
  else
    (linesOf 256 (o.off + off) len).foldl (fun s line =>
      let i := Config.cacheBank parts line
      let ms := bankMembers s (parts.getD (i / 4 % parts.length) 0)
      let b := ms.getD (i % 4 % ms.length) 0
      let e : CacheLine := { bank := BitVec.ofNat 6 b, slot := BitVec.ofNat 6 n, line := line }
      let rest := s.cache.filter (· != e)
      let full := decide (98304 ≤ (rest.filter fun x => x.bank == e.bank).length)
      let kept := if full then match rest.find? fun x => x.bank == e.bank with
          | some old => rest.erase old
          | none => rest
        else rest
      if ms.isEmpty then s else { s with cache := kept ++ [e] }) s

/-! ### Page walks are asked for (spec/08 R142, R143) -/

/-- The look-aside entry of a page in cluster `k`. -/
def lookAsideHit (s : State) (k n seq page : Nat) : Option (BitVec 24) :=
  ((clusterOf s k).lookAside.find? fun e => e.slot.toNat == n && e.seq.toNat == seq && e.page == page).map (·.ppn)

/-- The first paged access of a layer opens its pass, and the cluster's walker reads the generation word at its first of the pass (spec/08
R143, R155). Where the passes before it are over, their boundary comes first, with the page edits that wait for it (R153). -/
def openPass (s0 : State) (n k : Nat) (h : BitVec 256) : State :=
  let s := if passOver s0 n then endPass s0 n else s0
  let pt := kvPt h
  let obj : BitVec 32 := BitVec.ofNat 32 (kvObj h)
  let s1 := modCtx s n fun c => { c with pass := if c.pass.contains obj then c.pass else c.pass ++ [obj] }
  modCluster s1 k fun x => match x.genSeen with
    | some (m, g) => if m.toNat = n then { x with genSeen := some (m, g) }
      else { x with genSeen := some (BitVec.ofNat 6 n, BitVec.ofNat 64 (objNum s n pt 0 8)) }
    | none => { x with genSeen := some (BitVec.ofNat 6 n, BitVec.ofNat 64 (objNum s n pt 0 8)) }

/-- An uncorrectable error in a sequence record or a page-table entry ends the plan (spec/08 R156). -/
def tableError (s : State) (n pt off : Nat) : State := (objOf s n pt).elim s fun o => homeError s n o off

/-- A tile of a PAGED stream asks for its page: a look-aside hit, a walk, or nothing for an ENDED sequence. -/
def askPage (s : State) (c n k : Nat) (x : Stream) (t : Nat) (h : PageHalf) : State :=
  let cl := c / 16
  let s0 := openPass s n cl h.kv
  if !objGood s0 n (kvPt h.kv) (64 + 64 * h.seq) 64 then tableError s0 n (kvPt h.kv) (64 + 64 * h.seq)
  else if seqState (seqRecord s0 n (kvPt h.kv) h.seq) = 3 then s0
  else match lookAsideHit s0 cl n h.seq h.page with
    | some p =>
      modCluster (modStream s0 c k fun x => { x with tiles := x.tiles.map fun e => if e.n = t then { e with page := some p } else e })
        cl fun y => match y.lookAside.find? fun e => e.slot.toNat == n && e.seq.toNat == h.seq && e.page == h.page with
          | some e => { y with lookAside := y.lookAside.erase e ++ [e] }
          | none => y
    | none =>
      let w : Walk := { core := BitVec.ofNat 8 c, stream := BitVec.ofNat 4 k, tile := t, slot := BitVec.ofNat 6 n,
                        seq := BitVec.ofNat 15 h.seq, page := h.page, write := isOut x, ticket := none }
      modCluster (modStream s0 c k fun x => { x with tiles := x.tiles.map fun e => if e.n = t then { e with walk := true } else e })
        cl fun y => { y with walks := y.walks ++ [w] }

/-! ### Starting a tile (spec/12 R229, R230) -/

/-- The counter lets the stream's next tile start. -/
def mayStart (x : Stream) : Bool :=
  let adv := (x.lastF - x.f0).toNat
  if isOut x then decide (x.next + 1 ≤ adv) else decide (x.next ≤ adv + dA x.keep)

/-- The PLAIN mapping runs ahead by one tile at most (spec/07 R127). -/
def aheadOk (s : State) (n : Nat) (x : Stream) : Bool :=
  if dMode x.desc = 1 ∧ !isOut x then match convLayer s n x.desc with
    | some l => !plainConv l || decide (x.next ≤ (x.lastF - x.f0).toNat + 1)
    | none => true
  else true

/-- The coordinate word of tile `i` of a CODEC stream (spec/14 R261). -/
def streamCoord (c : BitVec 256) (i : Nat) : Word :=
  let nz := fun (v : Nat) => if v = 0 then 1 else v
  BitVec.ofNat 64 (pack [(16, i / (nz (tcNtc c) * nz (tcNtr c) * nz (tcNf c))), (16, i % nz (tcNtc c)),
    (16, i / nz (tcNtc c) % nz (tcNtr c)), (16, i / (nz (tcNtc c) * nz (tcNtr c)) % nz (tcNf c))])

/-- What a started tile asks of other units: a page, a codec job, or reads from another module. -/
def launchTile (s : State) (c n k : Nat) (x : Stream) (t : Nat) : State :=
  let d := x.desc
  let i := t - x.first
  match dMode d with
  | 2 => match pageHalf s n x i with
    | some h => askPage s c n k x t h
    | none => s
  | 3 => match codecCfg s n (dAux0 d % 64) with
    | some cfg => pushCodec s c
        { core := BitVec.ofNat 8 c, for_ := .stream (BitVec.ofNat 4 k) t, slot := BitVec.ofNat 6 n, expand := !isOut x,
          cfg := BitVec.ofNat 6 (dAux0 d), coord := streamCoord cfg i, lsAddr := slotAddr x t, tierOff := dBase d + i * tcSlotBytes cfg,
          obj := BitVec.ofNat 32 (dHome s n d), pool := none, src := [], ref := [], bad := false, badAt := none, seq := 0 }
    | none => s
  | _ => s

/-- Reads of a tile's ranges from another module. -/
def askRemote (s : State) (c n k : Nat) (x : Stream) (t : StreamTile) : State :=
  match objOf s n (dHome s n x.desc) with
  | some o =>
    if o.isBind ∧ !isOut x then
      (tileChunks s n x t).foldl (fun s r => request s
        { table := BitVec.ofNat 4 (c / 16), dst := o.homeMod, op := 0x01, slot := BitVec.ofNat 6 n,
          addr := homeAddr o + BitVec.ofNat 64 r.1, arg := BitVec.ofNat 64 r.2, data := [],
          use := .tile (BitVec.ofNat 8 c) (BitVec.ofNat 4 k) t.n r.1, after := [] }) s
    else s
  | none => s

/-- STREAM_TILE_START. -/
def execStreamTileStart (core : BitVec 8) (stream : BitVec 4) (s : State) : Out :=
  let c := core.toNat
  let k := stream.toNat
  let x := streamOf (coreOf s c) k
  match ready s, (coreOf s c).slot with
  | true, some sl =>
    let n := sl.toNat
    if x.state != .active || x.frozen || (isOut x && isFenced s n (dHome s n x.desc)) || !tagFree (coreOf s c) || !mayStart x || !aheadOk s n x ||
        decide (x.first + streamTiles s n x ≤ x.next) then .next s
    else
      let t : StreamTile := { n := x.next, landed := false, walk := false, page := none, got := [], sent := false }
      let s1 := modCore s c fun y => { setStream y k { x with next := x.next + 1, tiles := x.tiles ++ [t] } with tags := y.tags + 1 }
      let s2 := launchTile s1 c n k x x.next
      .next (if dMode x.desc = 2 ∨ dMode x.desc = 3 then s2 else askRemote s2 c n k x t)
  | _, _ => .next s

/-! ### Moving a tile -/

/-- Writes bytes into the local store of core `c`. -/
def lsPut (s : State) (c a : Nat) (bs : List Byte) : State := modCore s c fun x => { x with ls := Mem.write x.ls a bs }

/-- The BF16 expansion of an operand tile (spec/12 R227): elements and scales to elements. -/
def expandTile (d : BitVec 512) (bs : List Byte) (bad : List Nat) : List Byte :=
  let f := dFsrc d
  let n := dExpandElems d
  let rd := fun i => bs.getD i 0
  elemsToBytes 2 ((List.range n).map fun i =>
    let sp := elemSpan f i
    let sa := scalesAt 0 f n + i / 32
    let isBad := bad.any fun b => decide ((sp.1 ≤ b ∧ b ≤ sp.2) ∨ (dStSrc d = 1 ∧ b = sa))
    let v := if isBad then FVal.nan else if dStSrc d = 1 then decodeScaled f (rd sa).toNat (elemAt rd f i)
      else decodeElem f (elemAt rd f i)
    (convElem 2 false v).1) 0

/-- An operand tile with NaNs where its bytes are bad (spec/12 R233). -/
def nanTile (d : BitVec 512) (bs : List Byte) (bad : List Nat) : List Byte :=
  if dStSrc d = 1 then
    let n := dExpandElems d
    nanScaled (dFsrc d) n (scalesAt 0 (dFsrc d) n) bs bad
  else nanElems (dFsrc d) bs bad

/-- The reads of an IN tile, one after another, with the offsets of bad bytes in the run. -/
def gatherSegs (s : State) (n : Nat) (o : Obj) (t : StreamTile) (segs : List (Nat × Nat)) (bad : List Nat) : List Byte × List Nat :=
  segs.foldl (fun acc r =>
    let rd := readSeg s n o t r.1 r.2
    let extra := bad.filterMap fun b => if r.1 ≤ b ∧ b < r.1 + r.2 then some (b - r.1) else none
    (acc.1 ++ rd.bytes, acc.2 ++ (rd.bad ++ extra).map (· + acc.1.length))) ([], [])

/-- The reads of ascending ranges of an object as one run of bytes from `base` on, zeros between them, with the offsets of bad bytes. -/
def readParts (s : State) (n : Nat) (o : Obj) (t : StreamTile) (segs : List (Nat × Nat)) (bad : List Nat) (base : Nat) : List Byte × List Nat :=
  segs.foldl (fun acc r =>
    let rd := gatherSegs s n o t [r] bad
    let at_ := r.1 - base
    (acc.1 ++ List.replicate (at_ - acc.1.length) 0 ++ rd.1, acc.2 ++ rd.2.map (· + at_))) ([], [])

/-- Writes bytes into the local store of core `c` where there are any. -/
def lsPutSome (s : State) (c a : Nat) (bs : List (Option Byte)) : State :=
  lsPut s c a (bs.zipIdx.map fun (b, i) => b.getD (Mem.byte (coreOf s c).ls (a + i)))

/-- A CONV stripe written into the ring, row by row. -/
def landConv (s : State) (c n : Nat) (x : Stream) (t : StreamTile) (o : Obj) (l : ConvLayer) (bad : List Nat) : State × Bool :=
  let d := x.desc
  let f := lwFmtIn l
  let rb := dRowBytes d * 64
  let start := if plainConv l then slotAddr x t.n else 64 * dRing d
  let reads := (List.range l.w.inExt).map (pixelRead l)
  (convRows l d x.rowBase (t.n - x.first)).foldl (fun (acc : State × Bool) r =>
    let rd := match r.2 with
      | some off => readParts s n o t (rowSegs l off) bad off
      | none => ([], [])
    let bs := (nanElems f rd.1 rd.2).toArray
    let row : List Pixel := match r.2 with
      | some _ => reads.zipIdx.map fun (used, p) => (List.range l.chans).map fun ch =>
          if used then some (elemAt (fun i => bs.getD i 0) f (p * l.chans + ch)) else none
      | none => List.replicate l.w.inExt (List.replicate l.chans (some (padCode l)))
    (lsPutSome acc.1 c (start + r.1 * rb) ((pixelBytes f (wholeRow l rb row)).take rb), acc.2 || !rd.2.isEmpty)) (s, false)

/-- An IN tile lands: the state after it, and whether a read failed. `bad` lists further offsets of the object that read as
uncorrectable. -/
def landTile (s : State) (c n : Nat) (x : Stream) (t : StreamTile) (o : Obj) (bad : List Nat) : State × Bool :=
  let d := x.desc
  let a := slotAddr x t.n
  match dMode d with
  | 0 =>
    let r := gatherSegs s n o t (tileSegs s n x t) bad
    (lsPut s c a (if dExpands d then expandTile d r.1 r.2 else nanTile d r.1 r.2), !r.2.isEmpty)
  | 1 => match convLayer s n d with
    | some l => landConv s c n x t o l bad
    | none => (s, false)
  | _ => match pageHalf s n x (t.n - x.first) with
    | none => (s, false)
    | some h =>
      let r := readParts s n o t (tileSegs s n x t) bad (t.page.elim 0 fun p => halfOff h d p.toNat)
      let bs := if kvSt h.kv = 1 then nanScaled (kvFmt h.kv) (128 * kvDim h.kv) (halfElems h.kv) r.1 r.2
        else nanElems (kvFmt h.kv) r.1 r.2
      let rd := fun i => bs.getD i 0
      let body := if t.page.isSome then halfToSlot h (dExpands d && h.v) rd
        else List.replicate (halfToSlot h (dExpands d && h.v) (fun _ => 0)).length 0
      (lsPut (lsPut s c a body) c (maskAddr x t.n) (maskRow h), !r.2.isEmpty)

/-- What an OUT tile writes, range by range: where in the object, the bytes, and the offset in the slot from which each byte comes. A PAGED
stream writes the tokens that the plan appended (spec/08 R151); a tile of the DIAGONAL mapping lies position-major in its slot, channel by
channel, and is turned into the tensor's layout (spec/07 R126; the slot's layout is a DESIGN CHOICE, log entry 146). -/
def outSegs (s : State) (c n : Nat) (x : Stream) (t : StreamTile) : List (Nat × List Byte × (Nat → Nat)) :=
  let d := x.desc
  let a := slotAddr x t.n
  let rd := fun i => Mem.byte (coreOf s c).ls (a + i)
  let copied := (tileSegs s n x t).zipIdx.map fun (r, i) =>
    (r.1, lsRead s c (a + i * dRowBytes d * 64) r.2, fun j => i * dRowBytes d * 64 + j)
  match dMode d with
  | 2 => match pageHalf s n x (t.n - x.first) with
    | some h => ((tileSegs s n x t).zip (tokenSegs h)).map fun (r, q) =>
        (r.1, (List.range q.2).map fun j => rd (slotOffset h (q.1 + j)), fun j => slotOffset h (q.1 + j))
    | none => []
  | 1 => match convLayer s n d with
    | some l =>
      if lwPool l || onKid l || lwMap l != 1 then copied
      else
        let f := lwFmtOut l
        let oc := outChans (imageOf s n) l d
        let from_ := fun (line e : Nat) => (e % oc * l.w.out.toNat + e / oc) * dRows d + line
        (tileSegs s n x t).zipIdx.map fun (r, i) =>
          (r.1, (elemsToBytes f ((List.range (l.w.out.toNat * oc)).map fun e => elemAt rd f (from_ i e)) 0).take r.2,
            fun j => (elemSpan f (from_ i (j * 8 / (if fmtBits f = 0 then 1 else fmtBits f)))).1)
    | none => copied
  | _ => copied

/-- The offsets of a range that its marked requests cover: those with a word of the slot that reads as uncorrectable. -/
def markedOffs (bad : List Nat) (from_ : Nat → Nat) (len : Nat) : List Nat :=
  let hit := (((List.range len).filter fun j => bad.any fun b => b / 8 == from_ j / 8).map (· / 256)).eraseDups
  (List.range len).filter fun j => hit.contains (j / 256)

/-- An OUT tile is written at its home here. -/
def storeTile (s : State) (c n : Nat) (x : Stream) (t : StreamTile) (o : Obj) (bad : List Nat) : State :=
  (outSegs s c n x t).foldl (fun s (off, bs, from_) =>
    let s1 := writeObj s n o off bs
    let offs := if bad.isEmpty then [] else markedOffs bad from_ bs.length
    if offs.isEmpty then s1 else markBad s1 (placeOf o) (offs.map (· + off))) s

/-- The highest logical page that a sequence has written (spec/08 R152). A write that goes on beyond the sequence's pages ends
the sequence once the tokens that fit are written (R147). -/
def noteWritten (s : State) (n : Nat) (x : Stream) (t : StreamTile) : State :=
  match dMode x.desc == 2 && isOut x && t.page.isSome, pageHalf s n x (t.n - x.first) with
  | true, some h =>
    let s1 := modCtx s n fun c =>
      { c with seqHigh := tput c.seqHigh h.seq (max h.page ((tget c.seqHigh h.seq).getD 0)) }
    let r := seqRecord s n (kvPt h.kv) h.seq
    if h.page + 1 = seqMax r ∧ seqMax r * 128 < (countOf s n (seqLenSid r)).toNat ∧ seqState r ≠ 3 then
      seqEnded (setSeqState s1 n (kvPt h.kv) h.seq 3) n h.seq 0x0303
    else s1
  | _, _ => s

/-! ### Signalling in tile order (spec/12 R229, R232) -/

/-- Signals done_sid for the tiles that are next in order and have landed; a frozen stream's signals wait for CTX_RESUME. In a stream that
is cancelled a tile that ended with nothing moved leaves no gap. -/
def signalTiles : Nat → State → Nat → Nat → Nat → State
  | 0, s, _, _, _ => s
  | f + 1, s, c, n, k =>
    let x := streamOf (coreOf s c) k
    match x.tiles with
    | t :: rest =>
      if t.landed ∧ (t.n = x.signalled ∨ x.state = .cancelling) then
        let s1 := modStream s c k fun x =>
          { x with tiles := rest, signalled := t.n + 1, held := if x.frozen then x.held + 1 else x.held }
        let s2 := if x.frozen then s1 else signalVid s1 (BitVec.ofNat 8 c) n (dDone x.keep) 1
        signalTiles f (if x.frozen then s2 else endDesc s2 c n k) c n k
      else s
    | [] => s

/-- A tile's transfer is complete: its tag is free, and it is signalled in order; in a stream that is cancelled an IN tile is not
signalled, and where the cancel is quiet no tile is (spec/12 R232, Table 12.3). -/
def completeTile (s : State) (c n k t : Nat) : State :=
  let x := streamOf (coreOf s c) k
  let s1 := releaseTag s c
  if x.state = .cancelling ∧ (!isOut x || x.quiet) then
    modStream s1 c k fun x => { x with tiles := x.tiles.filter fun e => e.n != t }
  else
    let s2 := modStream s1 c k fun x => { x with tiles := x.tiles.map fun e => if e.n = t then { e with landed := true } else e }
    signalTiles (x.tiles.length + 1) s2 c n k

/-- The writes of an OUT tile to another module leave. -/
def sendTile (s : State) (c n k : Nat) (x : Stream) (t : StreamTile) (o : Obj) : State :=
  let chunks := (outSegs s c n x t).flatMap fun (off, bs, _) =>
    (requestsOf (off, bs.length)).map fun q => (q.1, (bs.drop (q.1 - off)).take q.2)
  chunks.foldl (fun s r => request s
    { table := BitVec.ofNat 4 (c / 16), dst := o.homeMod, op := 0x02, slot := BitVec.ofNat 6 n, addr := homeAddr o + BitVec.ofNat 64 r.1,
      arg := 0, data := r.2, use := .tile (BitVec.ofNat 8 c) (BitVec.ofNat 4 k) t.n r.1, after := [] })
    (modStream s c k fun x => { x with tiles := x.tiles.map fun e => if e.n = t.n then { e with sent := true } else e })

/-- A transaction of a tile is outstanding, or waits to be sent. -/
def tileBusy (s : State) (c k t : Nat) : Bool :=
  let mine := fun (u : TxnUse) => match u with
    | .tile a b e _ => a.toNat == c && b.toNat == k && e == t
    | _ => false
  s.txns.any (fun x => mine x.use) || s.sendWait.any fun x => mine x.use

/-- The errors of an OUT tile's local-store words (spec/12 R233). -/
def slotErrors (s : State) (c : Nat) (x : Stream) (t : StreamTile) (bad soft : List Nat) : State :=
  lsErrors s c 0 (bad.map (fun b => { addr := slotAddr x t.n + b, hard := true }) ++
    soft.map fun b => { addr := slotAddr x t.n + b, hard := false })

/-- The first offset of a tile's ranges that reads as uncorrectable. -/
def firstBad (s : State) (n : Nat) (o : Obj) (t : StreamTile) (segs : List (Nat × Nat)) (bad : List Nat) : Nat :=
  (segs.findSome? fun r => (((readSeg s n o t r.1 r.2).bad.map (· + r.1)) ++ bad.filter fun b => decide (r.1 ≤ b ∧ b < r.1 + r.2)).head?).getD
    (segs.headD (0, 0)).1

/-- STREAM_TILE_DONE. For an IN tile `ecc.bad` lists offsets of its object that read as uncorrectable; for an OUT tile, offsets of its
slot. -/
def execStreamTileDone (core : BitVec 8) (stream : BitVec 4) (tile : Nat) (ecc : HomeEcc) (s : State) : Out :=
  let c := core.toNat
  let k := stream.toNat
  let x := streamOf (coreOf s c) k
  match ready s, (coreOf s c).slot, x.tiles.find? fun t => t.n == tile with
  | true, some sl, some t =>
    let n := sl.toNat
    if t.landed || t.walk || dMode x.desc == 3 || tileBusy s c k tile then .next s
    else match objOf s n (dHome s n x.desc) with
      | none => .next (completeTile (dataError s n c 0) c n k tile)
      | some o =>
        let segs := tileSegs s n x t
        if beyond o segs then .next (completeTile (dataError s n c (segs.headD (0, 0)).1) c n k tile)
        else if isOut x then
          if dMode x.desc == 2 && tablesFenced s n then .next s
          else if o.state = .lost then .next (completeTile (homeError s n o 0) c n k tile)
          else if o.isBind then
            if t.sent then .next (completeTile (noteWritten s n x t) c n k tile)
            else .next (slotErrors (sendTile s c n k x t o) c x t ecc.bad ecc.soft)
          else .next (completeTile (slotErrors (noteWritten (dropFreed (storeTile s c n x t o ecc.bad) n) n x t) c x t ecc.bad ecc.soft) c n k tile)
        else if o.isBind && dMode x.desc == 2 && t.page.isSome && !t.sent then
          .next (askRemote (modStream s c k fun x =>
            { x with tiles := x.tiles.map fun e => if e.n = tile then { e with sent := true } else e }) c n k x t)
        else
          let r := landTile (segs.foldl (fun s g => touchCache s n o g.1 g.2) (noteSofts s n o ecc.soft)) c n x t o ecc.bad
          let s1 := completeTile r.1 c n k tile
          .next (if r.2 then homeError s1 n o (firstBad s n o t segs ecc.bad) else s1)
  | _, _, _ => .next s

/-- STREAM_CANCEL_DONE: the last transfer of a CANCELLING stream has completed. -/
def execStreamCancelDone (core : BitVec 8) (stream : BitVec 4) (s : State) : Out :=
  let c := core.toNat
  let x := streamOf (coreOf s c) stream.toNat
  match ready s, (coreOf s c).slot with
  | true, some n =>
    if x.state = .cancelling ∧ x.tiles.all (·.landed) ∧ !x.frozen then
      let s1 := signalTiles x.tiles.length s c n.toNat stream.toNat
      .next (modCore (cancelDone s1 c n.toNat stream.toNat x.quiet) c gateFenced)
    else .next s
  | _, _ => .next s

/-! ### The host's stream commands (spec/12 R234) -/

/-- The physical core of a logical core of the running plan. -/
def placedCore (s : State) (n lcl lcore : Nat) : Option Nat := match ctxOf s n with
  | some c => c.run.bind fun r => (r.placed.find? fun p => p.lcl == lcl && p.lcore == lcore).map (·.core.toNat)
  | none => none

/-- The descriptor that a command's object holds. -/
def hostDesc (s : State) (n : Nat) (w : BitVec 256) : Option (BitVec 512) :=
  if bits w 176 48 % 64 ≠ 0 then none
  else match readObjAt s n (bits w 224 32) (bits w 176 48) 64 with
    | some r => if r.bad.isEmpty then some (BitVec.ofNat 512 (ofLe r.bytes)) else none
    | none => none

/-- One host stream command: its core, then the answer. -/
def hostStream (p : Packet) (op : Nat) (s : State) (ok : BitVec 256 → Bool) (f : Nat → Nat → Nat → State → State × Nat × Nat) : Out :=
  ctxCommand p op s fun n s =>
    let w := p.param
    match placedCore s n (bits w 172 4) (bits w 168 4) with
    | none => answer s p op 0x0102 0
    | some c =>
      if !zeroBits p 0 164 || !ok w then answer s p op 0x0102 0
      else
        let r := f n c (bits w 164 4) s
        answer r.1 p op r.2.1 r.2.2

/-- STREAM_ARM. -/
def execStreamArm (p : Packet) (s : State) : Out :=
  hostStream p 0x30 s (fun w => bits w 164 4 == 0) fun n c _ s => match hostDesc s n p.param with
    | some d => if armFaults s n d = [] then armStream s c n d else (s, 0x0102, 0)
    | none => (s, 0x0102, 0)

/-- STREAM_REARM. -/
def execStreamRearm (p : Packet) (s : State) : Out :=
  hostStream p 0x31 s (fun _ => true) fun n c k s => match hostDesc s n p.param with
    | some d => if armFaults s n d = [] then rearmStream s c n k d else (s, 0x0102, 0)
    | none => (s, 0x0102, 0)

/-- STREAM_CANCEL. -/
def execStreamCancel (p : Packet) (s : State) : Out :=
  hostStream p 0x32 s (fun w => bits w 224 32 == 0 && bits w 176 48 == 0) fun _ c k s => cancelOne s c k

end Sys2Proof.Machine
end

