-- ==== Sys2Proof/Machine/CodecCmds.lean ====
section
/-! DEFINITION. TCD_CONFIG, the overflow pool, and the jobs of a tile codec unit (spec/14 R260 to R274). -/

namespace Sys2Proof.Machine

/-! ### TCD_CONFIG (R260) -/

/-- The configuration slots that an image names: CODEC streams, OFF_CODEC tensors, ENC and DEC. -/
def imageCodecSlots (img : List Byte) : List Nat :=
  ((recsOf img 0x04).map (descAt img)).filterMap (fun d => if dMode d = 3 then some (dAux0 d % 64) else none) ++
  ((recsOf img 0x0A).map (policyAt img)).filterMap (fun p => if bits p 125 3 = 3 then some (bits p 119 6) else none) ++
  ((progsOf img).flatMap (·.code)).filterMap (fun w => if iClass w = 7 then some (xCfg w).toNat else none)

/-- A running plan of slot `n` names configuration slot `i`. -/
def codecNamed (s : State) (n i : Nat) : Bool := match ctxOf s n with
  | some c => c.run.isSome && (imageCodecSlots (runImage c)).contains i
  | none => false

/-- The bytes that the reference region needs (R261). -/
def refRegion (p : BitVec 256) : Nat := tcNtr p * tcNtc p * (tcRaw p + 64)

/-- A SET whose fields are refused. -/
def badConfig (s : State) (n : Nat) (p : BitVec 256) : Bool :=
  let f := tcFmt p
  bits p 240 6 != 0 || bits p 0 72 != 0 || f == 0 || decide (4 < f) || decide (1 < tcSt p) || (tcSt p == 1 && decide (f < 3)) ||
  (tcBounded p && (tcSt p == 1 || decide (tcEb p < -24 ∨ -1 < tcEb p))) || (!tcBounded p && tcEb p != 0) ||
  decide (tcPeriod p < 2 ∨ 64 < tcPeriod p) || tcNtr p == 0 || tcNtc p == 0 || tcNf p == 0 ||
  decide (tcBudget p < 2 ∨ (tcRaw p + 64) / 64 < tcBudget p) || tcRefOff p % 64 != 0 ||
  (match objOf s n (tcObj p) with
    | some o => !(o.isBind && o.size == 0) && decide (o.size < tcRefOff p + refRegion p)
    | none => true)

/-- A TCD_CONFIG of sub-op `sub`: a packet of another sub-op has no such effect. -/
def tcdCommand (p : Packet) (sub : Nat) (s : State) (f : Nat → State → State) : Out :=
  if tcOp p.param = sub then ctxCommand p 0x78 s f else .next s

/-- TCD_CONFIG SET. -/
def execTcdConfigSet (p : Packet) (s : State) : Out := tcdCommand p 0 s fun n s =>
  if codecNamed s n (tcSlot p.param) then answer s p 0x78 0x0300 0
  else if badConfig s n p.param then answer s p 0x78 0x0102 0
  else answer (modCtx s n fun c => { c with codec := tput c.codec (tcSlot p.param) p.param }) p 0x78 0 0

/-- TCD_CONFIG CLEAR. -/
def execTcdConfigClear (p : Packet) (s : State) : Out := tcdCommand p 1 s fun n s =>
  if codecNamed s n (tcSlot p.param) then answer s p 0x78 0x0300 0
  else if bits p.param 240 6 ≠ 0 ∨ !zeroBits p 0 72 then answer s p 0x78 0x0102 0
  else answer (modCtx s n fun c => { c with codec := tdel c.codec (tcSlot p.param) }) p 0x78 0 0

/-- TCD_CONFIG POOL_ADD (R269). -/
def execTcdConfigPoolAdd (p : Packet) (s : State) : Out := tcdCommand p 2 s fun n s =>
  if tcSlot p.param ≠ 0 ∨ bits p.param 240 6 ≠ 0 ∨ !zeroBits p 0 72 ∨ (objOf s n (tcObj p.param)).isNone then
    answer s p 0x78 0x0102 0
  else if (match ctxOf s n with
      | some c => decide (4 ≤ c.pool.length)
      | none => false) then answer s p 0x78 0x0303 0
  else answer (modCtx s n fun c => { c with pool := c.pool ++ [BitVec.ofNat 32 (tcObj p.param)] }) p 0x78 0 0

/-! ### The overflow pool (R269) -/

/-- The slots of a pool extent. -/
def poolSlots (s : State) (n : Nat) (id : BitVec 32) : Nat := match objOf s n id.toNat with
  | some o => (o.size - 4096) / 2048
  | none => 0

/-- Takes `rows` slots of the first extent with room for all of them: the number of the first, or none. -/
def reservePool (s : State) (n rows : Nat) : Nat → List (BitVec 32) → Option (State × Nat)
  | _, [] => none
  | base, id :: rest =>
    let used := objNum s n id.toNat 0 8
    if used + rows ≤ poolSlots s n id then some (putObj s n id.toNat 0 8 (used + rows), base + used)
    else reservePool s n rows (base + poolSlots s n id) rest

/-- The object and offset of a pool slot. -/
def poolPlace (s : State) (n : Nat) : Nat → List (BitVec 32) → Option (Nat × Nat)
  | _, [] => none
  | i, id :: rest =>
    if i < poolSlots s n id then some (id.toNat, 4096 + 2048 * i) else poolPlace s n (i - poolSlots s n id) rest

/-- The context's pool extents. -/
def poolOfCtx (s : State) (n : Nat) : List (BitVec 32) := match ctxOf s n with
  | some c => c.pool
  | none => []

/-! ### TCD_STATUS and TCD_EVENTS (R272) -/

/-- Sets bit `b` of TCD_STATUS, with last_slot, and counts the setting. -/
def tcdSet (s : State) (n b cfg : Nat) : State :=
  modCtx s n fun c =>
    { c with tcdStatus := putBits (putBits c.tcdStatus b 1 1) 16 16 cfg,
             tcdEvents := putBits c.tcdEvents (48 - 16 * b) 16 (bits c.tcdEvents (48 - 16 * b) 16 + 1) }

/-- A tile wrote `rows` raw rows: TCD_STATUS, and the step or the plan reports OK_RAW_FALLBACK (R273). -/
def noteRaw (s : State) (n cfg rows : Nat) : State :=
  modCtx (tcdSet s n 0 cfg) n fun c =>
    { c with tcdStatus := putBits c.tcdStatus 32 32 (min (2 ^ 32 - 1) (bits c.tcdStatus 32 32 + rows)),
             stepRaw := true, run := c.run.map fun r => { r with rawFallback := true } }

/-! ### Starting a job -/

/-- A direction of the unit of cluster `k`, and the state with it changed. -/
def laneOf (s : State) (k : Nat) (expand : Bool) : CodecLane := if expand then (clusterOf s k).dec else (clusterOf s k).enc
def modLane (s : State) (k : Nat) (expand : Bool) (f : CodecLane → CodecLane) : State :=
  modCluster s k fun c => if expand then { c with dec := f c.dec } else { c with enc := f c.enc }

/-- The place of a job's reference entry in its object. -/
def refOff (p : BitVec 256) (cw : Word) : Nat := tcRefOff p + (cwRow cw * tcNtc p + cwCol cw) * (tcRaw p + 64)

/-- What a job reads at its start: its input and its reference entry, whether either read fails, and the first place that does. -/
def readJob (s : State) (j : CodecJob) (p : BitVec 256) : CodecJob :=
  let n := j.slot.toNat
  let at_ := fun (r : Rd) (id off : Nat) => r.bad.head?.map fun i => (BitVec.ofNat 32 id, off + i)
  let rf := (readObjAt s n (tcObj p) (refOff p j.coord) (tcRaw p + 64)).getD { bytes := [], bad := [0] }
  let local_ := fun len => ({ bytes := lsRead s j.core.toNat j.lsAddr len, bad := [] } : Rd)
  let src := if j.expand then match j.for_ with
      | .instr _ => local_ (tcSlotBytes p)
      | .stream _ _ => (readObjAt s n j.obj.toNat j.tierOff (tcSlotBytes p)).getD { bytes := [], bad := [0] }
    else local_ (tcRaw p)
  { j with src := src.bytes, ref := rf.bytes, bad := !src.bad.isEmpty || !rf.bad.isEmpty,
           badAt := (at_ src j.obj.toNat j.tierOff).orElse fun _ => at_ rf (tcObj p) (refOff p j.coord) }

/-- A coordinate beyond the configuration (R261). -/
def coordBad (p : BitVec 256) (cw : Word) : Bool := decide (tcNtr p ≤ cwRow cw ∨ tcNtc p ≤ cwCol cw ∨ tcNf p ≤ cwFrame cw)

/-- An entry of the unit of cluster `k` is free: the threads that wait for one issue again. -/
def freeCodec (s : State) (k : Nat) : State := (clusterCores k).foldl (fun s c => modCore s c (wakeHeld .codecEntry)) s

/-- A job that cannot run: an instruction's thread faults with `code`; a stream's tile ends and so does the plan. -/
def failJob (s : State) (j : CodecJob) (code : Nat) : State := match j.for_ with
  | .instr op => instrFault s { core := j.core, thread := op.thread } op.pc.toNat code
  | .stream k t =>
    completeTile (endPlan s j.slot.toNat 0x0400 (0x0100 + code) 0) j.core.toNat j.slot.toNat k.toNat t

/-- The jobs of a unit run one at a time, in the order of acceptance (R262): the head of a direction may start where the other direction
runs nothing and its head was accepted later. R271's next job of a direction, which starts before the one before it is complete, is
timing. -/
def codecTurn (s : State) (k : Nat) (expand : Bool) (j : CodecJob) : Bool :=
  let o := laneOf s k (!expand)
  o.running.isNone && o.queue.head?.all fun x => decide (j.seq < x.seq)

/-- The head job of a direction begins. -/
def runJob (s : State) (k : Nat) (j : CodecJob) : State :=
  modLane s k j.expand fun l => { l with queue := l.queue.tail, running := some j, stalled := false }

/-- The raw rows that a compression sends to the pool. -/
def poolRows (p : BitVec 256) (j : CodecJob) : Nat :=
  if j.expand || j.bad || tcGuar p then 0 else 16 - (encodeTile p j.coord j.src j.ref).rawFrom

/-- A migration fences an object that a job writes, or may write: such a job sleeps before it starts (spec/11 Table 11.3). -/
def jobFenced (s : State) (j : CodecJob) (p : BitVec 256) : Bool :=
  let f := isFenced s j.slot.toNat
  f (tcObj p) || (!j.expand && ((match j.for_ with
    | .stream _ _ => f j.obj.toNat
    | .instr _ => false) || (poolOfCtx s j.slot.toNat).any fun id => f id.toNat))

/-- The head job begins, with its pool slots reserved; without room it stalls the direction (R270). -/
def startJob (s : State) (k : Nat) (j : CodecJob) (p : BitVec 256) : State :=
  let n := j.slot.toNat
  let rows := poolRows p j
  if rows = 0 then runJob s k j
  else match reservePool s n rows 0 (poolOfCtx s n) with
    | some (s1, at_) => runJob s1 k { j with pool := some (at_, rows) }
    | none =>
      if (laneOf s k j.expand).stalled then s
      else
        let s1 := tcdSet (modLane s k j.expand fun l => { l with stalled := true }) n 1 j.cfg.toNat
        if planEnding s n then dropStalledJobs s1 n else eventReceipt s1 n 0x0304 j.cfg.toNat (planTag s1 n)

/-- CODEC_JOB_START. A job that is stalled waits while its context is pre-empted. -/
def execCodecJobStart (cluster : BitVec 4) (expand : Bool) (s : State) : Out :=
  let k := cluster.toNat
  let l := laneOf s k expand
  match ready s && !(clusterOf s k).syncFenced, l.running, l.queue with
  | true, none, j :: rest =>
    if !codecTurn s k expand j then .next s else
    let n := j.slot.toNat
    let drop := fun (s : State) => freeCodec (modLane s k expand fun l => { l with queue := rest, stalled := false }) k
    if l.stalled && (match ctxOf s n with
        | some c => c.preempted
        | none => false) then .next s
    else match codecCfg s n j.cfg.toNat with
      | none => .next (failJob (drop s) j 0x0B)
      | some p => .next (if coordBad p j.coord then failJob (drop s) j 1
          else if jobFenced s j p then s else startJob s k (readJob s j p) p)
  | _, _, _ => .next s

/-! ### Completing a job -/

/-- Writes a job's output: into the local store at `addr`, or at its place in the stream's object. -/
def putOutput (s : State) (j : CodecJob) (bs : List Byte) : State :=
  let n := j.slot.toNat
  match j.for_, j.expand with
  | .instr _, _ => lsPut s j.core.toNat j.tierOff bs
  | .stream _ _, true => lsPut s j.core.toNat j.lsAddr bs
  | .stream _ _, false => match objOf s n j.obj.toNat with
    | some o =>
      if !o.isBind && decide (o.size < j.tierOff + bs.length) then dataError s n j.core.toNat j.tierOff
      else writeHome s n o j.tierOff bs
    | none => dataError s n j.core.toNat j.tierOff

/-- Writes a job's reference entry. -/
def putRef (s : State) (j : CodecJob) (p : BitVec 256) (entry : List Byte) : State :=
  match objOf s j.slot.toNat (tcObj p) with
  | some o => writeHome s j.slot.toNat o (refOff p j.coord) entry
  | none => s

/-- The raw rows of a compression go to its pool slots. -/
def putPool (s : State) (j : CodecJob) (p : BitVec 256) : State := match j.pool with
  | none => s
  | some (at_, rows) => (List.range rows).foldl (fun s i =>
      match poolPlace s j.slot.toNat (at_ + i) (poolOfCtx s j.slot.toNat) with
      | some (id, off) => match objOf s j.slot.toNat id with
        | some o => writeHome s j.slot.toNat o off (rawRow p j.src (16 - rows + i))
        | none => s
      | none => s) s

/-- The health-log source of a job's reference entry. -/
def refSource (s : State) (j : CodecJob) (p : BitVec 256) : Nat := match objOf s j.slot.toNat (tcObj p) with
  | some o => homeSource s o (refOff p j.coord)
  | none => 0xFFF

/-- An uncorrectable read of a job ends its plan: it is logged at the place `at_` that failed (R274, R218), or at the reference entry
where only the unit saw the error. -/
def jobError (s : State) (j : CodecJob) (p : BitVec 256) (at_ : Option (BitVec 32 × Nat)) : State :=
  let n := j.slot.toNat
  match at_.bind fun x => (objOf s n x.1.toNat).map (·, x.2) with
  | some (o, off) => homeError s n o off
  | none => dataError s n (refSource s j p) (refOff p j.coord)

/-- What a compression leaves in its reference entry: its reconstruction, or the tile itself where it is written raw whole (R268). -/
def encRecon (p : BitVec 256) (src : List Byte) (e : Encoded) : List Byte :=
  if tcGuar p && decide (e.rawFrom < 16) then src.take (tcRaw p) else e.recon

/-- A compression ends: the slot, the pool rows, the reference entry (R263, R266 to R268). -/
def finishEnc (s : State) (j : CodecJob) (p : BitVec 256) (hard : Bool) : State :=
  let n := j.slot.toNat
  if hard then
    let bs := (List.range (tcSlotBytes p)).map (Config.codecByte s.fresh)
    jobError (putRef (putOutput (draw s) j bs) j p (List.replicate 64 0)) j p j.badAt
  else
    let e := encodeTile p j.coord j.src j.ref
    let s1 := putPool (putOutput s j (slotImage p j.coord j.src e ((j.pool.map (·.1)).getD 0))) j p
    let s2 := putRef s1 j p (refEntry j.coord 0xFFFF (encRecon p j.src e))
    if e.rawFrom < 16 then noteRaw s2 n j.cfg.toNat (if tcGuar p then 16 else 16 - e.rawFrom) else s2

/-- The raw rows of a compressed tile as the pool holds them, with their places; none where a slot does not exist. -/
def fetchRows (s : State) (j : CodecJob) (p : BitVec 256) : List (Option (Rd × Nat × Nat)) :=
  let h := slotHeader j.src
  let from_ := if shWhole h then 16 else min 16 (shRawFrom h)
  let len := elemBytes (tcFmt p) 1024 + (if tcSt p = 1 then 32 else 0)
  (List.range (16 - from_)).map fun i =>
    match poolPlace s j.slot.toNat (shPool h + i) (poolOfCtx s j.slot.toNat) with
    | some (id, off) => (readObjAt s j.slot.toNat id off len).map (·, id, off)
    | none => none

/-- The status line of DEC: the not-exact mask and the first raw row. -/
def statusLine (mask first : Nat) : List Byte := leBytes 64 (mask % 2 ^ 16 + 2 ^ 16 * (first % 32))

/-- The end of an expansion: its tile, its status line or the count of tiles that are not exact, its reference entry (R265). -/
def putExpanded (s : State) (j : CodecJob) (p : BitVec 256) (tile : List Byte) (notExact first : Nat) : State :=
  let s1 := putOutput s j tile
  let s2 := match j.for_ with
    | .instr _ => lsPut s1 j.core.toNat (j.tierOff + tcRaw p) (statusLine notExact first)
    | .stream _ _ => s1
  let s3 := if notExact % 2 ^ 16 = 0 then s2 else tcdSet s2 j.slot.toNat 2 j.cfg.toNat
  putRef s3 j p (refEntry j.coord (0xFFFF - notExact % 2 ^ 16) tile)

/-- An expansion ends (R265, R274). -/
def finishDec (s : State) (j : CodecJob) (p : BitVec 256) (hard : Bool) : State :=
  let n := j.slot.toNat
  let raw := fetchRows s j p
  let mask := (Config.codecMask s.fresh).toNat
  let failed := fun (s : State) => putExpanded (draw s) j p (nanRaw p) (mask % 2 ^ 16) (mask / 2 ^ 16)
  let rowBad := raw.findSome? fun r => r.bind fun x => x.1.bad.head?.map fun i => (BitVec.ofNat 32 x.2.1, x.2.2 + i)
  if hard || rowBad.isSome then jobError (failed s) j p (j.badAt.orElse fun _ => rowBad)
  else if slotCorrupt p j.src || raw.any Option.isNone then endPlan (tcdSet (failed s) n 3 j.cfg.toNat) n 0x0501 0 0
  else
    let usable := refUsable j.ref j.coord
    let tile := decodeTile p j.src j.ref usable (raw.filterMap fun r => r.map (·.1.bytes))
    putExpanded s j p tile (0xFFFF - exactMask j.src j.ref usable) (if shWhole (slotHeader j.src) then 0 else shRawFrom (slotHeader j.src))

/-- CODEC_JOB_COMPLETE. -/
def execCodecJobComplete (cluster : BitVec 4) (expand : Bool) (ecc : Ecc) (s : State) : Out :=
  let k := cluster.toNat
  match ready s, (laneOf s k expand).running with
  | true, some j => match codecCfg s j.slot.toNat j.cfg.toNat with
    | none => .next (failJob (freeCodec (modLane s k expand fun l => { l with running := none }) k) j 0x0B)
    | some p =>
        let hard := j.bad || ecc == .uncorrectable
        let s0 := freeCodec (modLane s k expand fun l => { l with running := none }) k
        let s1 := if ecc = .corrected then (objOf s0 j.slot.toNat (tcObj p)).elim s0 fun o =>
            noteSofts s0 j.slot.toNat o [refOff p j.coord] else s0
        let s2 := if expand then finishDec s1 j p hard else finishEnc s1 j p hard
        .next (match j.for_ with
          | .instr op => signalSig s2 j.core j.slot.toNat op.sig
          | .stream x t => completeTile s2 j.core.toNat j.slot.toNat x.toNat t)
  | _, _ => .next s

end Sys2Proof.Machine
end

