-- ==== Sys2Proof/Machine/GroupOps.lean ====
section
/-! DEFINITION. Parameter groups: the checks of STEP_BEGIN, the objects that a record names, the rule ADAMW, and the update-to-weight
ratio (spec/10). -/

namespace Sys2Proof.Machine

/-! ### Objects of a group (spec/10 R180, R437) -/

/-- A format with its scale type may be stored in a tier (spec/02 Table 2.3). -/
def storedFmt (f st : Nat) : Bool := decide (f ≤ 9 ∧ st ≤ 1) && (st == 0 || scalable f) && (!narrow f || st == 1)

/-- The bytes that a weight, master or remainder object of `n` elements needs, and where its scale plane starts. -/
def scalePlane (f n : Nat) : Nat := roundUp (elemBytes f n) 256
def copyBytes (f st n : Nat) : Nat := scalePlane f n + (if st = 1 then n / 32 else 0)

/-- Where part `i` of a moment object of `e` elements starts: m, its scales, q, its scales, row states. -/
def momPart (e : Nat) : Nat → Nat
  | 0 => 0
  | k + 1 => roundUp (momPart e k + (if k % 2 = 0 then e else e / 32)) 256

/-- The bytes that a moment object needs. -/
def momBytes (rows cols : Nat) (sparse : Bool) : Nat :=
  let e := rows * cols
  if sparse then momPart e 4 + 8 * rows else momPart e 3 + e / 32

/-- The object is known to the context and holds `len` bytes; a bind entry knows no size. -/
def objHolds (s : State) (n id len : Nat) : Bool := match objOf s n id with
  | some o => (o.isBind && o.size == 0) || decide (len ≤ o.size)
  | none => false

/-- The bytes that object `i` of a record needs (Table 10.1). -/
def groupObjBytes (r : BitVec 1024) (i : Nat) : Nat :=
  let rows := if grSparse r && i % 2 == 1 then grCap r else grRows r
  let e := rows * grCols r
  if i < 2 then copyBytes (grFmtF r) (grStF r) e
  else if i < 4 then copyBytes (grFmtT r) (grStT r) (grRows r * grCols r)
  else if i < 6 then copyBytes (if grMode r = 2 then 8 else 0) 0 e
  else if i < 8 then momBytes rows (grCols r) (grSparse r)
  else 2048

/-- A value of FP32 bits is a number from 0 up and finite. -/
def f32NonNeg (x : Nat) : Bool := match dec32 x with
  | .fin sg m _ => !sg || m == 0
  | _ => false

/-- A record fails a check of R177. -/
def recordBad (s : State) (n : Nat) (r : BitVec 1024) : Bool :=
  let one : FVal := .fin false 1 0
  let named := fun i => grObj r i != 0
  bits r 0 404 != 0 || grMode r == 3 || grRule r != 0 ||
  grRows r == 0 || grCols r % 32 != 0 || !f32NonNeg (grB1 r) || !(dec32 (grB1 r)).lt one || !f32NonNeg (grB2 r) ||
  !(dec32 (grB2 r)).lt one || !f32NonNeg (grEps r) || (dec32 (grEps r)).isZero || !f32NonNeg (grClip r) ||
  (if grSparse r then grCap r == 0 else grCap r != 0) || (grMode r == 0 && (named 4 || named 5)) ||
  ((List.range 9).any fun i => named i && !objHolds s n (grObj r i) (groupObjBytes r i)) ||
  !named 0 || !named 1 || !named 6 || !named 7 || !named 8 || (grMode r != 0 && (!named 4 || !named 5)) ||
  (grMode r == 0 && !(decide (grFmtF r ≤ 2) && grStF r == 0)) || (grMode r == 2 && !(grFmtF r == 2 && grStF r == 0)) ||
  !storedFmt (grFmtF r) (grStF r) || !storedFmt (grFmtT r) (grStT r) ||
  (!(dec32 (grHi r)).isZero && (dec32 (grHi r)).lt (dec32 (grLo r))) || named 2 != named 3 ||
  (named 2 && grStT r == 1 && grRows r % 32 != 0) || (grSparse r && (named 2 || named 3 || grPriv r))

/-- A step-rate entry fails (R178). -/
def rateBad (w : BitVec 64) : Bool := !f32NonNeg (bits w 0 32) || !f32NonNeg (bits w 32 32)

/-- The objects of a privileged group lie in the partition for update units (R187). -/
def privHomed (s : State) (n : Nat) (r : BitVec 1024) : Bool :=
  (List.range 9).all fun i => grObj r i == 0 || match objOf s n (grObj r i) with
    | some o => !o.isBind && o.tier == 1 && partMode s o.part.toNat == 3
    | none => false

/-! ### Elements of an object -/

/-- Element `i` of an object of `total` elements with its scale plane, and whether a byte of it reads as uncorrectable, which gives
NaN (R196). `at_` and `plane` are where elements and scale bytes start. -/
def objElem (s : State) (n id code st at_ plane i : Nat) : FVal × Bool := match objOf s n id with
  | none => (.nan, true)
  | some o =>
    let sp := elemSpan code i
    let r := readObj s n o (at_ + sp.1) (sp.2 - sp.1 + 1)
    let x := ofLe r.bytes / 2 ^ (i * fmtBits code % 8) % 2 ^ fmtBits code
    let sc := if st = 1 then readObj s n o (plane + i / 32) 1 else { bytes := [], bad := [] }
    if !r.bad.isEmpty || !sc.bad.isEmpty then (.nan, true)
    else (if st = 1 then decodeScaled code (ofLe sc.bytes) x else decodeElem code x, false)

/-- Writes element code `x` as element `i`. -/
def putObjElem (s : State) (n id code at_ i x : Nat) : State :=
  let sp := elemSpan code i
  let len := sp.2 - sp.1 + 1
  let sh := i * fmtBits code % 8
  let old := objNum s n id (at_ + sp.1) len
  putObj s n id (at_ + sp.1) len (old - old / 2 ^ sh % 2 ^ fmtBits code * 2 ^ sh + x % 2 ^ fmtBits code * 2 ^ sh)

/-- The unit of the remainder of a BF16 encoding, as a power of two (R183). -/
def bfUnit (b : Nat) : Int := if b / 128 % 256 = 0 then -141 else (b / 128 % 256 : Nat) - 142

/-- The weight of element `e` of `total` in version object `v` (Table 10.3, R183). -/
def weightAt (s : State) (n : Nat) (r : BitVec 1024) (v total e : Nat) : FVal × Bool :=
  if grMode r = 1 then objElem s n (grObj r (4 + v)) 0 0 0 0 e
  else
    let b := objElem s n (grObj r v) (grFmtF r) (grStF r) 0 (scalePlane (grFmtF r) total) e
    if grMode r = 0 then b
    else
      let k := objElem s n (grObj r (4 + v)) 8 0 0 0 e
      let code := ((fmtOf 2).conv false b.1).1
      (b.1.add (k.1.scale (bfUnit code)), b.2 || k.2)

/-! ### The rule (spec/10 R175) -/

/-- Binary64, rounded once. -/
def r64 (v : FVal) : FVal :=
  let f : Fmt := ⟨11, 52, .ieee⟩
  f.decode (f.arith rneTo .inf v)

/-- A power of a finite value, exactly. -/
def fpow (b : FVal) (t : Nat) : FVal := match b with
  | .fin sg m e => .fin (sg && t % 2 == 1) (m ^ t) (e * t)
  | x => x

/-- 1 / x in binary64, for finite x > 0. -/
def recip64 (x : FVal) : FVal := match x with
  | .fin _ m e =>
    if m = 0 then .inf false
    else
      let q := 2 ^ 200 / m
      r64 (.fin false (2 * q + (if 2 ^ 200 % m = 0 then 0 else 1)) (-201 - e))
  | v => v

/-- The constants of a group in a step. -/
structure UpdConst where
  inv  : FVal
  clip : FVal
  b1   : FVal
  b2   : FVal
  a1   : FVal
  a2   : FVal
  c1   : FVal
  c2   : FVal
  eps  : FVal
  lr   : FVal
  wd   : FVal
deriving DecidableEq, Repr

/-- The constants that the firmware computes from a record, a step-rate entry, the loss-scale exponent and the step count t. -/
def updConst (r : BitVec 1024) (rate : BitVec 64) (e t : Nat) : UpdConst :=
  let one : FVal := .fin false 1 0
  let b1 := dec32 (grB1 r)
  let b2 := dec32 (grB2 r)
  let c := fun (b : FVal) => r32 (recip64 (r64 (one.add (r64 (fpow b t)).neg)))
  { inv := .fin false 1 (-(e : Int)), clip := dec32 (grClip r), b1 := b1, b2 := b2, a1 := r32 (r64 (one.add b1.neg)),
    a2 := r32 (r64 (one.add b2.neg)), c1 := c b1, c2 := c b2, eps := dec32 (grEps r), lr := dec32 (bits rate 0 32),
    wd := dec32 (bits rate 32 32) }

/-- A function of the function unit on a value. -/
def fnVal (fn : Nat) (v : FVal) : FVal := dec32 (fnUnit fn true (f32 v))

/-- The new m, q and w of one element. -/
def updateElem (k : UpdConst) (x m0 q0 w0 : FVal) : FVal × FVal × FVal :=
  let g0 := r32 (x.mul k.inv)
  let g := if FVal.zero.lt k.clip then fmax (fmin g0 k.clip) k.clip.neg else g0
  let m := r32 ((k.b1.mul m0).add (k.a1.mul g))
  let v := r32 ((k.b2.mul (q0.mul q0)).add (k.a2.mul (g.mul g)))
  let q := fnVal 4 v
  let mh := r32 (m.mul k.c1)
  let vh := r32 (v.mul k.c2)
  let d := fnVal 3 (r32 (vh.add k.eps))
  let u := r32 (mh.mul d)
  let sm := r32 (u.add (k.wd.mul w0))
  (m, q, r32 ((k.lr.neg.mul sm).add w0))

/-- A weight split for mode REMAINDER (R183): the BF16 code, the remainder code, and the event of its saturation. -/
def splitRemainder (w : FVal) : Nat × Nat × Events :=
  let r := (fmtOf 2).conv false w
  let rem := fun (b : Nat) => (w.add ((fmtOf 2).decode b).neg).scale (-(bfUnit b))
  let k := convInt 8 (rem r.1)
  if k.2.ovf ∧ !r.2.any ∧ !(rem r.1).sign then
    let up := if r.1 < 0x8000 then r.1 + 1 else r.1 - 1
    (up, (convInt 8 (rem up)).1, r.2)
  else (r.1, k.1, r.2)

/-! ### The update of one dense slice (spec/10 R175, R181 to R183, R187) -/

/-- The number of conversions among some that raised an event. -/
def countEvents (es : List Events) : Nat := (es.filter Events.any).length

/-- The results of a slice: rows of the forward copy, each a list over its columns, with whether a read failed. `hard` lists the slice's
elements of which the update reads an uncorrectable word (R196). -/
def sliceResults (s : State) (n : Nat) (r : BitVec 1024) (k : UpdConst) (ver sl : Nat) (tile : Tile) (hard : List Nat) :
    List (List (FVal × FVal × FVal)) × Bool :=
  let total := grRows r * grCols r
  let one := fun (nn mm : Nat) =>
    let e := (128 * sliceOb r sl + nn) * grCols r + 128 * sliceIb r sl + mm
    let m0 := objElem s n (grObj r (6 + ver)) 8 1 0 (momPart total 1) e
    let q0 := objElem s n (grObj r (6 + ver)) 3 1 (momPart total 2) (momPart total 3) e
    let w0 := weightAt s n r ver total e
    let x : FVal := if hard.contains (128 * mm + nn) then .nan else dec32 (tile.getD (128 * mm + nn) 0).toNat
    (updateElem k x m0.1 q0.1 w0.1, hard.contains (128 * mm + nn) || m0.2 || q0.2 || w0.2)
  let rows := (List.range (sliceCols r sl)).map fun nn => (List.range (sliceRows r sl)).map fun mm => one nn mm
  (rows.map fun l => l.map (·.1), rows.any fun l => l.any (·.2))

/-- Writes a block-scaled or plain run of values as elements from `e`, and counts its events. -/
def putRun (s : State) (n id code st at_ plane e : Nat) (vs : List FVal) : State × Nat :=
  if st = 1 then
    let blocks := chunks32 (vs.length / 32 + 1) vs
    blocks.zipIdx.foldl (fun acc (b, i) =>
      let c := convBlock code false b
      let s1 := c.2.1.zipIdx.foldl (fun s (x, j) => putObjElem s n id code at_ (e + 32 * i + j) x) acc.1
      (putObj s1 n id (plane + e / 32 + i) 1 c.1, acc.2 + countEvents [c.2.2])) (s, 0)
  else
    let cs := vs.map (convElem code false)
    (cs.zipIdx.foldl (fun s (c, j) => putObjElem s n id code at_ (e + j) c.1) s, countEvents (cs.map (·.2)))

/-- Writes a slice's results into the next version's objects: moments, master or remainder, forward and transposed copies. -/
def putSlice (s : State) (n : Nat) (r : BitVec 1024) (next sl : Nat) (res : List (List (FVal × FVal × FVal))) : State × Nat :=
  let total := grRows r * grCols r
  let r0 := 128 * sliceOb r sl
  let c0 := 128 * sliceIb r sl
  let mom := grObj r (6 + next)
  let a := res.zipIdx.foldl (fun acc (row, nn) =>
    let e := (r0 + nn) * grCols r + c0
    let ws := row.map (·.2.2)
    let x1 := putRun acc.1 n mom 8 1 0 (momPart total 1) e (row.map (·.1))
    let x2 := putRun x1.1 n mom 3 1 (momPart total 2) (momPart total 3) e (row.map (·.2.1))
    if grMode r = 2 then
      let sp := ws.map splitRemainder
      let s3 := sp.zipIdx.foldl (fun s (p, j) =>
        putObjElem (putObjElem s n (grObj r next) 2 0 (e + j) p.1) n (grObj r (4 + next)) 8 0 (e + j) p.2.1) x2.1
      (s3, acc.2 + x1.2 + x2.2 + countEvents (sp.map (·.2.2)))
    else
      let x3 := putRun x2.1 n (grObj r next) (grFmtF r) (grStF r) 0 (scalePlane (grFmtF r) total) e ws
      let x4 := if grMode r = 1 then putRun x3.1 n (grObj r (4 + next)) 0 0 0 0 e ws else (x3.1, 0)
      (x4.1, acc.2 + x1.2 + x2.2 + x3.2 + x4.2)) (s, 0)
  if grObj r 2 = 0 then a
  else (List.range (sliceRows r sl)).foldl (fun acc mm =>
    let ws := res.map fun row => (row.getD mm (.zero, .zero, .zero)).2.2
    let x := putRun acc.1 n (grObj r (2 + next)) (grFmtT r) (grStT r) 0 (scalePlane (grFmtT r) total) ((c0 + mm) * grRows r + r0) ws
    (x.1, acc.2 + x.2)) a

/-! ### Groups of a context in a step -/

/-- CTX_UPD_STATE.ver, e, and a group's step count. -/
def verOf (c : Ctx) : Nat := bits c.updState 0 1
def lossExp (c : Ctx) : Nat := bits c.updState 16 8
def groupStep (c : Ctx) (g : Nat) : Nat := (tget c.groupSteps g).getD (grTInit (c.records.getD g 0))

/-- The slices of group `g` that this module acts as owner of; all of them where no collective names the group. -/
def groupSlicesOwned (s : State) (n g : Nat) : List Nat := match ctxOf s n, recordOf s n g with
  | some c, some r =>
    let named := c.colls.filter fun x => clKind x != 3 && (collGroups s n (clId x)).contains g
    (List.range (grSlices r)).filter fun k => named.isEmpty || named.any fun x => match treeOf s n (clId x) g k with
      | some t => t.acting == some t.me
      | none => false
  | _, _ => []

/-- A membership list takes effect at STEP_BEGIN (spec/16 R308, spec/18 R346, R356). -/
def beginList (m : Members) : Members :=
  let ex := if m.next.isSome then [] else m.excluded ++ m.leaving.filter fun i => !m.excluded.contains i
  { now := m.next.getD m.now, next := none, excluded := ex, leaving := [], base := ex, selfLost := false }

/-- The privileged groups of slot `n` that this module owns: it acts as owner of a slice. -/
def privOwned (s : State) (n : Nat) : List Nat := match ctxOf s n with
  | some c => (List.range c.records.length).filter fun g => grPriv (c.records.getD g 0) && !(groupSlicesOwned s n g).isEmpty
  | none => []

/-- The privileged groups of the other resident contexts that this module owns. -/
def privElsewhere (s : State) (n : Nat) : Nat := ((List.range 64).map fun k => if k = n then 0 else (privOwned s k).length).sum

/-- The first privileged group that does not fit, by the records and the memberships that the step will have (R187). -/
def privMisfit (s : State) (n : Nat) (rs : List (BitVec 1024)) : Option Nat :=
  let s1 := modCtx s n fun c => { c with records := rs, lists := c.lists.map fun e => (e.1, beginList e.2) }
  let base := privElsewhere s n
  (List.range rs.length).find? fun g =>
    grPriv (rs.getD g 0) && (decide ((privOwned s1 n).contains g ∧ 64 < base + ((privOwned s1 n).filter (· ≤ g)).length) ||
      !privHomed s n (rs.getD g 0))

/-- The touched-row list of a step for a sparse group: the spec names no place for it (R184). -/
def touchedRow (s : State) (n g j : Nat) : Nat := match ctxOf s n with
  | some c => (Config.touchedRow c.stepDraw n g j).toNat
  | none => 0

/-- Entry `j` is used: its row exists and no earlier entry names it. -/
def touchedUsed (s : State) (n g rows j : Nat) : Bool :=
  decide (touchedRow s n g j < rows) && !(List.range j).any fun i => touchedRow s n g i == touchedRow s n g j

/-- Slice positions as (element in the committed objects, element in the next ones). -/
def sliceElems (s : State) (n g : Nat) (r : BitVec 1024) (k : Nat) : List (Nat × Nat) :=
  (List.range (sliceRows r k)).flatMap fun mm => (List.range (sliceCols r k)).filterMap fun nn =>
    let out := 128 * sliceOb r k + nn
    let col := 128 * sliceIb r k + mm
    if !grSparse r then some (out * grCols r + col, out * grCols r + col)
    else if touchedUsed s n g (grRows r) out then some (touchedRow s n g out * grCols r + col, out * grCols r + col)
    else none

/-- The SSQ words of a slice's committed w and of w_new − w, from the two values of each element (R194). -/
def sliceSums (es : List (FVal × FVal)) : BitVec 32 × BitVec 32 :=
  (BitVec.ofNat 32 (f32 (reduceList 2 false (es.map (·.1)))),
   BitVec.ofNat 32 (f32 (reduceList 2 false (es.map fun e => r32 (e.2.add e.1.neg)))))

/-- The SSQ words of a slice that the update unit applies, from its results, rows of the forward copy. -/
def unitSums (s : State) (n g : Nat) (r : BitVec 1024) (ver sl : Nat) (res : List (List (FVal × FVal × FVal))) : BitVec 32 × BitVec 32 :=
  let new := (List.range (sliceRows r sl)).flatMap fun mm => res.map fun row => (row.getD mm (.zero, .zero, .zero)).2.2
  sliceSums (((sliceElems s n g r sl).map fun e => (weightAt s n r ver (grRows r * grCols r) e.1).1).zip new)

/-- The SSQ words of a slice that update threads hold. DESIGN CHOICE (log 154): w_new is what the next version holds. -/
def storedSums (s : State) (n g : Nat) (r : BitVec 1024) (ver sl : Nat) : BitVec 32 × BitVec 32 :=
  let v := if grSparse r then 0 else ver
  let total := grRows r * grCols r
  let total' := if grSparse r then grCap r * grCols r else total
  sliceSums ((sliceElems s n g r sl).map fun e => ((weightAt s n r v total e.1).1, (weightAt s n r (1 - v) total' e.2).1))

/-- The update unit's words of slice `sl` of group `g` in this step. -/
def unitSumOf (c : Ctx) (g sl : Nat) : Option (BitVec 32 × BitVec 32) := (((tget c.updSums g).getD []).find? fun e => e.1 == sl).map (·.2)

/-- wnorm and unorm of a group on this module, over its slices in ascending order (R194). -/
def groupNorms (s : State) (n g : Nat) (r : BitVec 1024) (c : Ctx) : FVal × FVal :=
  let sums := (groupSlicesOwned s n g).map fun k => (unitSumOf c g k).getD (storedSums s n g r (verOf c) k)
  (fnVal 4 (sums.foldl (fun a x => r32 (a.add (dec32 x.1.toNat))) .zero), fnVal 4 (sums.foldl (fun a x => r32 (a.add (dec32 x.2.toNat))) .zero))

/-- Sets CTX_UPD_ALARM and counts it (R195). -/
def updAlarmSet (s : State) (n g : Nat) (hi lo : Bool) : State :=
  if hi || lo then
    risk (modCtx s n fun c =>
      { c with updAlarm := putBits c.updAlarm 52 12 g ||| BitVec.ofNat 64 (2 * b2n hi + b2n lo),
               updAlarmEvents := putBits (putBits c.updAlarmEvents 32 32 (bits c.updAlarmEvents 32 32 + b2n hi)) 0 32
                 (bits c.updAlarmEvents 0 32 + b2n lo) }) 7 (8 * 65536)
  else s

/-- Every slice of group `g` that this module owns has been applied by an update unit. -/
def unitsDone (s : State) (n g : Nat) : Bool :=
  (ctxOf s n).any fun c => !(groupSlicesOwned s n g).isEmpty && (groupSlicesOwned s n g).all fun k => (unitSumOf c g k).isSome

/-- Writes the ratio record of group `g` for the running step, where this module owns a slice of it (R194, R195, Table 10.8). The stores of a group that update threads hold are
not counted by any rule, so their event count is free. -/
def ratioRecord (s : State) (n g : Nat) : State := match ctxOf s n, recordOf s n g with
  | some c, some r =>
    if (groupSlicesOwned s n g).isEmpty then s else
    let nm := groupNorms s n g r c
    let ratio := r32 (nm.2.mul (fnVal 2 nm.1))
    let hi := !(dec32 (grHi r)).isZero && (ratio.isNan || (dec32 (grHi r)).lt ratio)
    let lo := !(dec32 (grLo r)).isZero && ratio.lt (dec32 (grLo r))
    let ovf := if grPriv r then (tget c.updEvents g).getD 0 else (Config.updateEvents c.stepDraw n g).toNat
    let rec_ := pack [(1, b2n lo), (1, b2n hi), (1, 0), (77, 0), (16, min 65535 ovf), (32, f32 nm.1), (32, f32 nm.2), (32, f32 ratio),
      (32, groupStep c g + 1), (32, c.step.toNat)]
    updAlarmSet (putObj s n (grObj r 8) (32 * (c.step.toNat % 64)) 32 rec_) n g hi lo
  | _, _ => s

end Sys2Proof.Machine
end

