-- ==== Sys2Proof/Machine/StepOps.lean ====
section
/-! DEFINITION. What a step shares: what holds a packet in its ring, GATHER and satchels, votes, and the step outcome (spec/10 R179,
R189, R190, R192; spec/16 R313, R315; spec/18 R350 to R352; spec/20 R385). -/

namespace Sys2Proof.Machine

/-! ### Packets that wait in their ring (spec/10 R179; spec/13 R252; spec/20 R385, Table 20.6; spec/21 R407) -/

/-- A context is affected by a pending swap: one of its slot items differs, or a module item that concerns it. -/
def swapAffects (s : State) (n : Nat) : Bool :=
  let a := cfgOf s
  let b := shadowOf s
  let differ := fun (i : Nat) => vget a.part i 0 != vget b.part i 0
  let shared := fun (e : BitVec 8) => decide (2 ≤ bits e 6 2)
  let owns := fun (e : BitVec 8) => bits e 6 2 == 1 && bits e 0 6 == n
  vget a.sync n [] != vget b.sync n [] || vget a.groups n 0 != vget b.groups n 0 || vget a.loss n 0 != vget b.loss n 0 ||
  vget a.secured n 0 != vget b.secured n 0 || a.risk != b.risk || a.power != b.power || a.routes != b.routes ||
  a.timeout != b.timeout ||
  ((List.range 16).any fun i => differ i && (shared (vget a.part i 0) || shared (vget b.part i 0) || owns (vget a.part i 0) ||
    owns (vget b.part i 0))) ||
  ((List.range 64).any fun i => vget a.window i 0 != vget b.window i 0 &&
    (bits (vget a.window i 0) 57 6 == n || bits (vget b.window i 0) 57 6 == n))

/-- STEP_BEGIN and PLAN_START of slot `n` wait: the context is PREEMPTED, a pending CFG_SWAP affects it, or a re-plan waits for its
quiescent point. -/
def stepHeld (s : State) (n : Nat) : Bool :=
  (match ctxOf s n with
    | some c => c.preempted
    | none => false) ||
  (s.swap.isSome && swapAffects s n) || s.age.clkPend.isSome || s.age.memPend.isSome

/-- A STEP_BEGIN of slot `n` waits for the STEP_COMMIT of the previous step as well (spec/01 R14). -/
def beginHeld (s : State) (n : Nat) : Bool := stepHeld s n || (ctxOf s n).any fun c =>
  (c.run.any (·.steps)) && ((c.stepOpen && c.commit.isSome) || c.pool.any fun id => isFenced s n id.toNat)

/-- A packet that a rule holds keeps its ring HELD, and nothing else happens. -/
def holdRing (s : State) (p : Packet) : State :=
  setRing s p.ring.toNat (refreshRing { ringOf s p.ring.toNat with pktHeld := true })

/-- The context has an open step, or a running plan without steps (spec/20 R385, spec/21 R407). -/
def busyCtx (c : Ctx) : Bool := c.stepOpen || match c.run with
  | some r => !r.steps
  | none => false

/-! ### GATHER (spec/16 R315) and satchels (spec/18 R350, R352) -/

/-- The committed version of an object that a group record names; the object itself where none does (spec/10 R188). -/
def committedId (c : Ctx) (id : Nat) : Nat := versionId c false id

/-- The group whose forward copy an object is. -/
def forwardGroup (c : Ctx) (id : Nat) : Option Nat :=
  (List.range c.records.length).find? fun g => grObj (c.records.getD g 0) 0 == id || grObj (c.records.getD g 0) 1 == id

/-- The bytes of an object, 0 where it is unknown. -/
def objSize (s : State) (n id : Nat) : Nat := match objOf s n id with
  | some o => o.size
  | none => 0

/-- The slices of a GATHER: 65,536 B units of its source. -/
def gatherSlices (s : State) (n : Nat) (r : BitVec 256) : Nat := ceilDiv (objSize s n (clSrc r)) 65536

/-- The tree of slice `k` of a GATHER. -/
def gatherTree (s : State) (n : Nat) (r : BitVec 256) (k : Nat) : Option RedTree := do
  let c ← ctxOf s n
  let m ← tget c.lists (clList r)
  let o := ownerPos r m.now.length (gatherSlices s n r) k
  let q ← actingOwner c (clList r) o (fun i => lostNow m i)
  let mine ← ownPos s m
  pure { coll := r, rec_ := 0, mem := m, pos := stepMembers m, orig := o, owner := q, me := mine, acting := some q,
         step := c.step.setWidth 32 }

/-- The keeper of owner position `o`: the surviving position (o + ⌊n / 2⌋) mod n, or the next after it. -/
def keeperOf (m : Members) (o : Nat) : Nat :=
  let n := m.now.length
  (((List.range n).map fun i => (o + n / 2 + i) % n).find? fun q => !lostNow m q).getD o

/-- Where byte 0 of a part of a group of an owner lies in a satchel. -/
def satchelBase (o part g : Nat) : Nat := ((o * 4 + part) * 4096 + g) * 2 ^ 48

/-- Bytes of a satchel part reach this keeper: they enter the slot that is being written for this step. -/
def keepBytes (s : State) (n : Nat) (step : BitVec 32) (o part g off : Nat) (bs : List Byte) : State :=
  modCtx s n fun c =>
    { c with satchels := c.satchels.map fun x =>
        if x.valid && !x.complete && x.step == step then
          { x with bytes := Mem.write x.bytes (satchelBase o part g + off) bs, got := x.got + bs.length } else x }

/-- The satchel place of a GATHER's slices: the FWD part of its group, or a place of its own where it is no group's copy. -/
def gatherPart (c : Ctx) (r : BitVec 256) : Nat × Nat := match forwardGroup c (clSrc r) with
  | some g => (0, g)
  | none => (1, clId r % 4096)

/-- Slice `k` of a GATHER reaches this member: once in a step it is written and signalled, and kept where this module is the
keeper. -/
def landSlice (s : State) (n : Nat) (c : Ctx) (t : RedTree) (k : Nat) (bs : List Byte) : State :=
  let r := findRed s (.fresh n (clId t.coll) 0 k t.step false)
  if r.done then s
  else
    let s0 := putRed s { r with done := true }
    let s1 := match objOf s0 n (clDst t.coll) with
      | some o => writeHome s0 n o (clOff t.coll + 65536 * k) bs
      | none => s0
    let s2 := signalVid s1 (BitVec.ofNat 8 (16 * redPort s 0 k)) n (clSid t.coll) 1
    if keeperOf t.mem t.orig = t.me then
      keepBytes s2 n t.step t.orig (gatherPart c t.coll).1 (gatherPart c t.coll).2 (65536 * k) bs
    else s2

/-- Slice `k` of a GATHER lands, and is passed on to the children (R315). -/
def takeSlice (s : State) (n : Nat) (t : RedTree) (k : Nat) (bs : List Byte) : State := match ctxOf s n with
  | none => s
  | some c =>
    let p := redPort s 0 k
    let s3 := landSlice s n c t k bs
    (kidsDue t.lost (fun _ => false) t.pos.length 16 (t.index t.me)).foldl (fun s j =>
      vc2Flits s p (memberAt t.mem (t.posOf j)) 0x81 0 n (redAddr (clId t.coll) 0 k) (redArg 0 t.step false 128 128) bs) s3

/-- An object in its committed version, in units of 65,536 B. -/
def objUnits (s : State) (n id : Nat) : List (Nat × List Byte) :=
  (List.range (ceilDiv (objSize s n id) 65536)).map fun i =>
    let len := min 65536 (objSize s n id - 65536 * i)
    (i, match readObjAt s n id (65536 * i) len with
      | some r => r.bytes
      | none => [])

/-- The owner's master and moment objects go to the keeper alone. -/
def sendSatchelParts (s : State) (n : Nat) (t : RedTree) (g : Nat) : State := match ctxOf s n with
  | none => s
  | some c =>
    let r := c.records.getD g 0
    let q := keeperOf t.mem t.orig
    [(2, versionId c false (grObj r 4)), (3, versionId c false (grObj r 6))].foldl (fun s (part, id) =>
      (objUnits s n id).foldl (fun s (i, bs) =>
        if q = t.me then keepBytes s n t.step t.orig part g (65536 * i) bs
        else vc2Flits s (redPort s g i) (memberAt t.mem q) 0x81 part n (redAddr (clId t.coll) g i) (redArg 0 t.step false 128 128) bs) s) s

/-- The collectives of kind GATHER. -/
def gathersOf (c : Ctx) : List (BitVec 256) := c.colls.filter fun r => clKind r == 3

/-- GATHER: this module sends the slices that it owns whose tree `pick` takes, and with a satchel its groups' other
objects. -/
def startGathers (s : State) (n : Nat) (due : Bool) (pick : RedTree → Bool) : State := match ctxOf s n with
  | none => s
  | some c => (gathersOf c).foldl (fun s r =>
      let mine := (List.range (gatherSlices s n r)).filterMap fun k => match gatherTree s n r k with
        | some t => if t.owner = t.me ∧ pick t then some (k, t) else none
        | none => none
      let s1 := (objUnits s n (committedId c (clSrc r))).foldl (fun s (i, bs) => match mine.find? fun x => x.1 == i with
        | some x => takeSlice s n x.2 i bs
        | none => s) s
      match due, forwardGroup c (clSrc r), mine.head? with
      | true, some g, some x => sendSatchelParts s1 n x.2 g
      | _, _, _ => s1) s

/-- The bytes that a satchel of this keeper expects. -/
def satchelExpected (s : State) (n : Nat) : Nat := match ctxOf s n with
  | none => 0
  | some c => ((gathersOf c).map fun r =>
      let ks := (List.range (gatherSlices s n r)).filterMap fun k => match gatherTree s n r k with
        | some t => if keeperOf t.mem t.orig = t.me then some (k, t.orig) else none
        | none => none
      let slices := (ks.map fun k => min 65536 (objSize s n (clSrc r) - 65536 * k.1)).sum
      match forwardGroup c (clSrc r) with
      | some g =>
        let x := c.records.getD g 0
        slices + (ks.map (·.2)).eraseDups.length * (objSize s n (versionId c false (grObj x 4)) + objSize s n (versionId c false (grObj x 6)))
      | none => slices).sum

/-- The fields of the secured-state word (spec/18 Table 18.5). -/
def securedObj (s : State) (n : Nat) : Nat := bits (vget (cfgOf s).secured n 0) 32 32
def securedInterval (s : State) (n : Nat) : Nat := bits (vget (cfgOf s).secured n 0) 16 16

/-- RSK_SCORE.score, drained and level, and the thresholds of the risk word (spec/18 Tables 18.6, 18.8). -/
def riskNow (s : State) : Nat := bits s.riskScore 0 8
def drainedNow (s : State) : Bool := bit s.riskScore 10
def riskElev (s : State) : Nat := bits (cfgOf s).risk 16 8

/-- A satchel is due at this STEP_BEGIN (R350). -/
def satchelDue (s : State) (n : Nat) : Bool := match ctxOf s n with
  | some c => (securedInterval s n != 0 && c.step.toNat % securedInterval s n == 0) || decide (riskElev s ≤ riskNow s) || c.secureDue ||
      !c.securePkts.isEmpty
  | none => false

/-- A satchel is not taken: the event receipt, the risk input, and the answers of the SECURE_NOWs that wait for it. -/
def satchelRefused (s : State) (n status detail : Nat) : State := match ctxOf s n with
  | none => s
  | some c =>
    let s1 := risk (eventReceipt (modCtx s n fun c => { c with securePkts := [], secureDue := false }) n status detail 0) 10 (16 * 65536)
    c.securePkts.foldl (fun s p => answer s p 0x81 0x0303 (c.step.toNat % 2 ^ 16)) s1

/-- Takes the satchel that is due (R350 to R352): the slot that is not the latest complete one is written. -/
def takeSatchel (s : State) (n : Nat) : State := match ctxOf s n with
  | none => s
  | some c =>
    let id := securedObj s n
    if !satchelDue s n then s
    else if id = 0 ∨ gathersOf c = [] then
      c.securePkts.foldl (fun s p => answer s p 0x81 0x0303 (c.step.toNat % 2 ^ 16))
        (modCtx s n fun c => { c with securePkts := [], secureDue := false })
    else match objOf s n id with
      | none => satchelRefused s n 0x0102 6
      | some o =>
        if o.isBind || o.tier != 0 then satchelRefused s n 0x0102 6
        else if o.size / 2 < satchelExpected s n then satchelRefused s n 0x0303 0
        else
          let x : Satchel := { step := c.step.setWidth 32, expected := satchelExpected s n, got := 0, complete := false, valid := true, bytes := [] }
          modCtx s n fun c =>
            { c with securing := c.securePkts, securePkts := [], secureDue := false,
                     satchels := (c.satchels.filter (·.complete)).getLast?.toList ++ [x] }

/-! ### The step outcome (spec/10 R189, R192; spec/01 R18) -/

/-- The raw code of an element. -/
def rawElem (s : State) (n id code at_ i : Nat) : Nat :=
  let sp := elemSpan code i
  objNum s n id (at_ + sp.1) (sp.2 - sp.1 + 1) / 2 ^ (i * fmtBits code % 8) % 2 ^ fmtBits code

/-- Copies row `j` of a staging object into row `row` of the committed one: elements and scale bytes. -/
def copyRow (s : State) (n src dst code st cols : Nat) (at1 plane1 at0 plane0 j row : Nat) : State :=
  let s1 := (List.range cols).foldl (fun s c =>
    putObjElem s n dst code at0 (row * cols + c) (rawElem s n src code at1 (j * cols + c))) s
  if st = 1 then (List.range (cols / 32)).foldl (fun s b =>
    putObj s n dst (plane0 + row * cols / 32 + b) 1 (objNum s n src (plane1 + j * cols / 32 + b) 1)) s1 else s1

/-- A sparse group's staging entry `j` becomes row `row` (R189). -/
def commitRow (s : State) (n : Nat) (r : BitVec 1024) (j row : Nat) : State :=
  let cols := grCols r
  let e0 := grRows r * cols
  let e1 := grCap r * cols
  let f := grFmtF r
  let s1 := copyRow s n (grObj r 1) (grObj r 0) f (grStF r) cols 0 (scalePlane f e1) 0 (scalePlane f e0) j row
  let s2 := if grMode r = 0 then s1
    else copyRow s1 n (grObj r 5) (grObj r 4) (if grMode r = 2 then 8 else 0) 0 cols 0 0 0 0 j row
  let s3 := copyRow s2 n (grObj r 7) (grObj r 6) 8 1 cols 0 (momPart e1 1) 0 (momPart e0 1) j row
  let s4 := copyRow s3 n (grObj r 7) (grObj r 6) 3 1 cols (momPart e1 2) (momPart e1 3) (momPart e0 2) (momPart e0 3) j row
  putObj s4 n (grObj r 6) (momPart e0 4 + 8 * row) 8 (objNum s4 n (grObj r 7) (momPart e1 4 + 8 * j) 8)

/-- A sparse group's staging entries are copied; an index that is out of range or repeats is skipped and logged (R184). -/
def commitSparse (s : State) (n g : Nat) (r : BitVec 1024) : State :=
  (List.range (grCap r)).foldl (fun s j =>
    let row := touchedRow s n g j
    if row = 0xFFFFFFFF then s
    else if touchedUsed s n g (grRows r) j then commitRow s n r j row
    else logHealth s 0 0xFFF 0 (identOf s n).toNat row) s

/-- The committed version of slot `n` moves to the next one (Table 10.4). -/
def commitVersions (s : State) (n : Nat) : State := match ctxOf s n with
  | none => s
  | some c =>
    let s1 := c.records.zipIdx.foldl (fun s (r, g) =>
      let at_ := 32 * (c.step.toNat % 64)
      let s1 := putObj s n (grObj r 8) at_ 1 (putBits (BitVec.ofNat 8 (objNum s n (grObj r 8) at_ 1)) 2 1 1).toNat
      if grSparse r then commitSparse s1 n g r else s1) s
    modCtx s1 n fun x =>
      { x with updState := x.updState ^^^ 1,
               groupSteps := (List.range c.records.length).map fun g => (g, (groupStep c g + 1) % 2 ^ 32) }

/-- The policy word of slot `n` (Table 10.5). -/
def lossWord (s : State) (n : Nat) : BitVec 64 := vget (cfgOf s).loss n 0

/-- The loss scale after a commit that is no skip (Table 10.6). -/
def lossClean (s : State) (n : Nat) : State :=
  let w := lossWord s n
  modCtx s n fun c =>
    let u := putBits c.updState 24 8 0
    let clean := bits u 32 32
    let interval := bits w 48 16
    if interval = 0 ∨ clean + 1 < interval then { c with updState := putBits u 32 32 (clean + 1) }
    else
      let e := min (lossExp c + 1) (bits w 24 8)
      { c with updState := putBits (putBits (putBits (putBits u 32 32 0) 16 8 e) 1 1 (b2n (decide (e = bits w 24 8)))) 2 1 0 }

/-- The loss scale after an OVERFLOW_SKIPPED commit (Table 10.6), with its risk input. -/
def lossSkip (s : State) (n : Nat) : State := match ctxOf s n with
  | none => s
  | some c =>
    let w := lossWord s n
    let e := max (lossExp c - 1) (bits w 32 8)
    let skips := min 255 (bits c.updState 24 8 + 1)
    let s1 := modCtx s n fun c =>
      { c with updState := putBits (putBits (putBits (putBits (putBits c.updState 32 32 0) 24 8 skips) 16 8 e) 2 1
                 (b2n (decide (e = bits w 32 8)))) 1 1 0 }
    risk s1 8 ((if skips = 3 then 16 else 4) * 65536)

/-- A member has flagged an overflow in this step (spec/09 R171). -/
def ownFlag (c : Ctx) : Bool := bits c.stepEvents 0 3 != 0

/-- The status of a step that is not aborted (spec/01 Table 1.4). -/
def outcomeStatus (c : Ctx) (v : VoteMsg) : Nat :=
  if v.flagged ≠ 0 then 0x0404 else if v.lost || c.stepLost then 0x0402 else if v.part then 0x0001 else if c.stepRaw then 0x0002 else 0

/-- The outcome takes effect (R189), and STEP_COMMIT is answered, with TABLE_CHANGED as its detail where spec/08 R155 applies. -/
def stepOutcome (s : State) (n : Nat) (v : VoteMsg) : State := match ctxOf s n with
  | none => s
  | some c => match c.commit with
    | none => s
    | some (p, _) =>
      let remote := decide (b2n (ownFlag c) < v.flagged)
      let s1 := modCtx s n fun c => { c with stepEvents := putBits c.stepEvents 3 1 (b2n remote) }
      let s2 := if v.flagged ≠ 0 then lossSkip s1 n else lossClean (commitVersions s1 n) n
      let changed := (c.run.map (·.tableChanged)).getD false
      let s3 := modCtx s2 n fun c => { c with run := c.run.map fun r => { r with tableChanged := false } }
      closeStep (dropCached s3 fun l => l.slot.toNat == n) n p (outcomeStatus c v) (if changed then 0x0503 else 0)

/-! ### The vote (spec/16 R313, spec/10 R190) -/

/-- This module's own vote. -/
def ownVote (s : State) (c : Ctx) (l : Nat) (m : Option Members) : VoteMsg :=
  { ctx := c.ident, list := BitVec.ofNat 4 l, fromPos := (m.bind (ownPos s)).getD 0, down := false, abort := false, detail := 0,
    flagged := b2n (ownFlag c), part := c.lateBit, lost := c.stepLost }

/-- Two votes joined. -/
def joinVotes (a b : VoteMsg) : VoteMsg :=
  { a with flagged := a.flagged + b.flagged, part := a.part || b.part, lost := a.lost || b.lost }

/-- Once its own vote stands and its children's have arrived, a node sends the joined vote up; the root has the outcome. -/
def voteAdvance (s : State) (n : Nat) : State := match ctxOf s n with
  | none => s
  | some c => if faultDue s n then settleFault s n else match c.commit with
    | some (_, .waitOutcome) => match voteListOf c with
      | none => stepOutcome s n (ownVote s c 0 none)
      | some (l, m) => match voteIndex s m with
        | none => stepOutcome s n (ownVote s c l (some m))
        | some j =>
          let mine := c.votes.filter fun v => v.list.toNat == l
          let has := fun k => mine.any fun v => v.fromPos == voteAt m k
          if !(voteKids m has j).isEmpty then s
          else
            let v := mine.foldl joinVotes (ownVote s c l (some m))
            match voteParent m j with
            | none => stepOutcome (sendDown s m { v with down := true }) n v
            | some p =>
              if c.voteSent then s else modCtx (sendVoteTo s m (voteAt m p) v) n fun c => { c with voteSent := true }
    | _ => s

/-- The firmware waits at a counter for STEP_COMMIT. -/
def commitWait (s : State) (n vid target : Nat) : State := match pidOf s n vid with
  | none => s
  | some pid =>
    let w : Waiter := { cluster := BitVec.ofNat 4 (pidCluster pid), kind := .firmware (BitVec.ofNat 6 n), pid := pid,
                        slot := BitVec.ofNat 6 n, target := BitVec.ofNat 64 target, timeout := none, since := s.postmark, expired := false }
    let s1 := dropFirmwareWaiter s n
    { s1 with waiters := s1.waiters ++ [w] }

/-- Slices of slot `n` that the update units have still to apply. -/
def updatesWait (s : State) (n : Nat) : Bool := s.ports.toList.any fun p => p.updQ.any fun u => u.1.toNat == n

/-- The stage of STEP_COMMIT. -/
def setStage (s : State) (n : Nat) (st : CommitStage) : State :=
  modCtx s n fun c => { c with commit := c.commit.map fun x => (x.1, st) }

/-- Steps 1 to 4 of STEP_COMMIT, as far as they go now (R190). -/
def commitAdvance : Nat → State → Nat → State
  | 0, s, _ => s
  | f + 1, s, n => match ctxOf s n with
    | none => s
    | some c => match c.commit with
      | none => s
      | some (_, .waitOutcome) => voteAdvance s n
      | some (_, st) => match c.run with
        | none => abortStep s n 0
        | some r =>
          if r.ending.isSome ∨ r.begun = 0 then abortStep s n 0
          else if r.fault.isSome then settleFault s n
          else
            let vid := (if st = .waitSend then r.sendVid else r.endVid).toNat
            if isPoisoned s n vid then endPlan s n 0x0400 5 4
            else if countOf s n vid < r.begun then commitWait s n vid r.begun.toNat
            else if st = .waitSend then commitAdvance f (setStage (finishOwned s n) n .waitEnd) n
            else if updatesWait s n then dropFirmwareWaiter s n
            else
              let s1 := (List.range c.records.length).foldl (fun s g => if unitsDone s n g then s else ratioRecord s n g)
                (dropFirmwareWaiter s n)
              voteAdvance (setStage s1 n .waitOutcome) n

end Sys2Proof.Machine
end

