-- ==== Sys2Proof/Machine/KvCmds.lean ====
section
/-! DEFINITION. The paged cache: grants, page edits, sequence aborts, page walks and waits, pass boundaries (spec/08). -/

namespace Sys2Proof.Machine

/-! ### Tables and descriptors that a command names -/

/-- The pool that page table `pt` names. -/
def poolOf (s : State) (n pt : Nat) : Option (BitVec 256) := (kvKnown s n).find? fun d => kvPt d == pt

/-- Whether `pt` is an object of slot `n` whose home is in this module (R140). -/
def tableHere (s : State) (n pt : Nat) : Bool := match objOf s n pt with
  | some o => !o.isBind && o.state != .lost && decide (64 ≤ o.size)
  | none => false

/-! ### KV_POOL_GRANT (R149) -/

/-- The page numbers of a grant's list; none where the object does not hold it. -/
def grantList (s : State) (n id off k : Nat) : Option Rd := readObjAt s n id off (4 * k)

/-- Copies the granted pages into the free list from index `r`, and signals the return counter once per page. -/
def grantPages (s : State) (n : Nat) (d : BitVec 256) (r : Nat) (pages : List Nat) : State :=
  pages.zipIdx.foldl (fun s (ppn, i) =>
    signalFw (putObj s n (kvFl d) (4 * ((r + i) % (if kvPool d = 0 then 1 else kvPool d))) 4 ppn) n (kvRet d) 1) s

/-- KV_POOL_GRANT; it waits while a migration fences the free list (R140). -/
def execKvPoolGrant (p : Packet) (s : State) : Out := ctxCommand p 0x60 s fun n s =>
  let pt := bits p.param 224 32
  let off := bits p.param 160 32
  let k := bits p.param 136 24
  match poolOf s n pt with
  | none => answer s p 0x60 0x0102 0
  | some d =>
    if !zeroBits p 0 136 || off % 4 != 0 || k == 0 then answer s p 0x60 0x0102 0
    else match grantList s n (bits p.param 192 32) off k with
      | none => answer s p 0x60 0x0102 0
      | some rd =>
        let pages := (List.range k).map fun i => ofLe ((rd.bytes.drop (4 * i)).take 4)
        let r := (countOf s n (kvRet d)).toNat
        if !rd.bad.isEmpty then answer s p 0x60 0x0500 0
        else if pages.any (fun x => decide (kvPool d ≤ x)) || decide (kvPool d + (countOf s n (kvTake d)).toNat < r + k) then
          answer s p 0x60 0x0102 0
        else if kvFenced s n d then holdRing s p
        else answer (settleTickets (grantPages s n d r pages) n) p 0x60 0 0

/-! ### KV_PAGE_EDIT (R153) -/

/-- An edit that names no slot or no page of the table, or has a reserved field that is not zero. -/
def badEdit (s : State) (n pt : Nat) (e : BitVec 128) : Bool :=
  let q := bits e 48 15
  bits e 96 32 != 0 || bits e 88 7 != 0 || bit e 63 || bits e 24 24 != 0 || decide (nseqOf s n pt ≤ q) ||
    decide (seqMax (seqRecord s n pt q) ≤ bits e 0 24)

/-- KV_PAGE_EDIT: applied at once, or at the next pass boundary; it waits while a migration fences the table (R140). -/
def execKvPageEdit (p : Packet) (s : State) : Out := ctxCommand p 0x61 s fun n s =>
  let pt := bits p.param 224 32
  let m := bits p.param 216 8
  if !zeroBits p 0 216 || m == 0 || decide (252 < m) || p.extra.length != ceilDiv m 4 || !tableHere s n pt then
    answer s p 0x61 0x0102 0
  else if (editsOf p).any (badEdit s n pt) then answer s p 0x61 0x0102 0
  else if openPasses s n then modCtx s n fun c => { c with edits := c.edits ++ [p] }
  else if isFenced s n pt then holdRing s p
  else applyEdits s n p

/-! ### KV_SEQ_ABORT (R150) -/

/-- The sequence of slot `q` that waits for a page. -/
def seqWaitOf (s : State) (n q : Nat) : Option SeqWait := match ctxOf s n with
  | some c => c.seqWaits.find? fun w => w.seq.toNat == q
  | none => none

/-- A sequence enters ENDED (Table 8.5). -/
def endSeq (s : State) (n pt q : Nat) : State :=
  seqEnded (match seqWaitOf s n q with
    | some w => endSeqWait s n pt w 3
    | none => setSeqState s n pt q 3) n q 0x0302

/-- KV_SEQ_ABORT; it waits while a migration fences the table (R140). -/
def execKvSeqAbort (p : Packet) (s : State) : Out := ctxCommand p 0x62 s fun n s =>
  let pt := bits p.param 224 32
  let q := bits p.param 208 15
  if !zeroBits p 0 208 || bit p.param 223 || !tableHere s n pt || decide (nseqOf s n pt ≤ q) then answer s p 0x62 0x0102 0
  else
    let st := seqState (seqRecord s n pt q)
    if st = 0 then answer s p 0x62 0x0102 0
    else if st = 3 then answer s p 0x62 0 0
    else if isFenced s n pt || tablesFenced s n then holdRing s p
    else answer (endSeq s n pt q) p 0x62 0 0

/-! ### Page walks (R142, R143, R147, R148) -/

/-- A translation enters the look-aside buffer of cluster `k`: 256 entries, the least recently used one replaced. -/
def learnPage (s : State) (k : Nat) (w : Walk) (ppn : BitVec 24) : State :=
  modCluster s k fun x =>
    let rest := x.lookAside.filter fun e => !(e.slot == w.slot && e.seq == w.seq && e.page == w.page)
    { x with lookAside := rest.drop (rest.length - 255) ++ [{ slot := w.slot, seq := w.seq, page := w.page, ppn := ppn }] }

/-- The walk ends with page `ppn`. -/
def walkFound (s : State) (w : Walk) (ppn : BitVec 24) : State :=
  resumeTile (learnPage s (w.core.toNat / 16) w ppn) w (some ppn)

/-- A satisfied take: the page of ticket `k` goes into the entry by compare-and-swap; where the entry is valid by now, the page is
handed to the firmware for return and the entry that stands is used. DEDUCED (log 149): a free-list word that reads as uncorrectable
ends the plan as an entry does, with no page. -/
def takePage (s : State) (n : Nat) (d : BitVec 256) (w : Walk) (k : Word) : State :=
  let e := entryOf s n (kvPt d) w.seq.toNat w.page
  let ppn := ticketPage s n d k
  if !objGood s n (kvFl d) (ticketAt d k) 4 then resumeTile (tableError s n (kvFl d) (ticketAt d k)) w none
  else if bit e 31 then walkFound (returnPage s n d ppn) w (BitVec.ofNat 24 (bits e 0 24))
  else walkFound (setEntry s n (kvPt d) w.seq.toNat w.page (BitVec.ofNat 32 (2 ^ 31 + ppn))) w (BitVec.ofNat 24 ppn)

/-- Whether the return counter lets ticket `k` be used. -/
def ticketDue (s : State) (n : Nat) (d : BitVec 256) (k : Word) : Bool := decide (k < countOf s n (kvRet d))

/-- A ticket that must wait: the sequence enters WAITING_PAGES with its event receipt. -/
def waitPage (s : State) (n : Nat) (d : BitVec 256) (w : Walk) (k : Word) : State :=
  let q := w.seq.toNat
  let pt := kvPt d
  let r := putBits (putBits (seqRecord s n pt q) 132 4 2) 96 32 k.toNat
  let s1 := putObj s n pt (64 + 64 * q) 64 r.toNat
  let s2 := modCtx s1 n fun c => { c with seqWaits := c.seqWaits ++ [{ seq := w.seq, ticket := k, walk := w }] }
  let s3 := match pidOf s2 n (kvRet d) with
    | some pid => enterWaiter s2 { pid := pid, slot := w.slot, op := .wait, value := k + 1, src := .walker w }
    | none => s2
  eventReceipt (attWaiting (attSet s3 n 1 (some q)) n) n 0x0302 q (planTag s n)

/-- A paged write to a page whose entry is not valid: TAKE 1 on take_sid. A counter that gives no ticket ends the walk with no
page. -/
def walkTake (s : State) (n : Nat) (d : BitVec 256) (w : Walk) : State :=
  match pidOf s n (kvTake d) with
  | none => resumeTile (logHealth s 0 w.core.toNat 0x0102 (identOf s n).toNat (kvTake d)) w none
  | some pid =>
    let k := countOf s n (kvTake d)
    let s1 := (applySync s { pid := pid, slot := w.slot, op := .take, value := 1, src := .walker w }).getD s
    if isPoisoned s n (kvTake d) then resumeTile s1 w none
    else if ticketDue s1 n d k then takePage s1 n d w k
    else waitPage s1 n d { w with ticket := some k } k

/-- A walk reads its entry. -/
def walkEntry (s : State) (n : Nat) (d : BitVec 256) (w : Walk) : State :=
  let e := entryOf s n (kvPt d) w.seq.toNat w.page
  if seqState (seqRecord s n (kvPt d) w.seq.toNat) = 3 then resumeTile s w none
  else if bit e 31 then walkFound s w (BitVec.ofNat 24 (bits e 0 24))
  else if w.write then walkTake s n d w
  else resumeTile (attSet s n 4 (some w.seq.toNat)) w none

/-- The descriptor of the page pool that a walk's stream moves. -/
def walkKv (s : State) (w : Walk) : Option (BitVec 256) :=
  kvByObj s w.slot.toNat (dObj (streamOf (coreOf s w.core.toNat) w.stream.toNat).desc)

/-- A walk that would take a page sleeps while a migration fences the page table or the free list (R140). -/
def walkSleeps (s : State) (w : Walk) : Bool := match walkKv s w with
  | some d => w.write && kvFenced s w.slot.toNat d && !bit (entryOf s w.slot.toNat (kvPt d) w.seq.toNat w.page) 31
  | none => false

/-- A walk may go on: its context is not pre-empted, its sequence does not wait for an earlier page, and no fence holds it. -/
def walkable (s : State) (w : Walk) : Bool := match ctxOf s w.slot.toNat with
  | some c => !c.preempted && !(c.seqWaits.any fun x => x.seq == w.seq) && !walkSleeps s w
  | none => true

/-- The record and the entry that a walk reads are both readable (R156). -/
def walkReads (s : State) (n pt : Nat) (w : Walk) : Bool :=
  objGood s n pt (64 + 64 * w.seq.toNat) 64 &&
    objGood s n pt (entryAt s n pt (entryIndex (seqRecord s n pt w.seq.toNat) w.page)) 4

/-- The page-table object's health-log source and location for an entry. -/
def walkLoc (s : State) (n pt : Nat) (w : Walk) : Nat × Nat :=
  let off := entryAt s n pt (entryIndex (seqRecord s n pt w.seq.toNat) w.page)
  match objOf s n pt with
  | some o => (homeSource s o off, homeWhere o off)
  | none => (0xFFF, off)

/-- PAGE_WALK: the oldest walk of the cluster that can go on. -/
def execPageWalk (cluster : BitVec 4) (ecc : Ecc) (s : State) : Out :=
  let k := cluster.toNat
  match ready s, (clusterOf s k).walks.find? (walkable s) with
  | true, some w =>
    let n := w.slot.toNat
    let s1 := modCluster s k fun x => { x with walks := x.walks.erase w }
    match walkKv s w with
    | none => .next (resumeTile s1 w none)
    | some d =>
      let at_ := walkLoc s n (kvPt d) w
      let row := if at_.1 / 256 = 2 then 0 else 1
      if ecc = .uncorrectable || !walkReads s n (kvPt d) w then
        .next (resumeTile (dataError s1 n at_.1 at_.2) w none)
      else
        let s2 := if ecc = .corrected then risk (logHealth s1 1 at_.1 0 (identOf s n).toNat at_.2) row (if row = 0 then 1024 else 4096)
          else s1
        .next (walkEntry s2 n d w)
  | _, _ => .next s

/-! ### Page waits (R148) -/

/-- The wait of a sequence is satisfied. -/
def resumeSeq (s : State) (n : Nat) (d : BitVec 256) (w : SeqWait) : State :=
  let s1 := setSeqState (dropWalkWaiter s w.walk) n (kvPt d) w.seq.toNat 1
  let s2 := attWaiting (modCtx s1 n fun c => { c with seqWaits := c.seqWaits.filter (· != w) }) n
  takePage s2 n d w.walk w.ticket

/-- A context runs: it is resident and not pre-empted. -/
def running (s : State) (n : Nat) : Bool := match ctxOf s n with
  | some c => !c.preempted
  | none => false

/-- PAGE_WAIT_RESUME. -/
def execPageWaitResume (slot : BitVec 6) (seq : BitVec 15) (s : State) : Out :=
  let n := slot.toNat
  match ready s && running s n && !tablesFenced s n, waitDesc s n, seqWaitOf s n seq.toNat with
  | true, some d, some w => if ticketDue s n d w.ticket then .next (resumeSeq s n d w) else .next s
  | _, _, _ => .next s

/-- PAGE_WAIT_TIMEOUT: where the grant falls in the same cycle, the wait is satisfied. -/
def execPageWaitTimeout (slot : BitVec 6) (seq : BitVec 15) (s : State) : Out :=
  let n := slot.toNat
  match ready s && !tablesFenced s n, waitDesc s n, seqWaitOf s n seq.toNat with
  | true, some d, some w =>
    if seqTmo (seqRecord s n (kvPt d) seq.toNat) = 0 then .next s
    else if ticketDue s n d w.ticket then .next (if running s n then resumeSeq s n d w else s)
    else .next (endSeq s n (kvPt d) seq.toNat)
  | _, _, _ => .next s

/-! ### Pass boundaries (R143, R152, R153, R155) -/

/-- PASS_BOUNDARY: what it writes waits while a migration fences the table or the free list (R140). -/
def execPassBoundary (slot : BitVec 6) (s : State) : Out :=
  .next (if ready s && passOver s slot.toNat && !tablesFenced s slot.toNat then endPass s slot.toNat else s)

end Sys2Proof.Machine
end

