-- ==== Sys2Proof/Machine/Paths.lean ====
section
/-! DEFINITION. The paths of tile programs as the loader walks them (spec/04 R66): which instructions they reach with which loop stack,
what they add up, and which registers hold a known value. -/

namespace Sys2Proof.Machine

/-! ### Loop bodies -/

/-- LOOP, ENDLOOP, BR, END. -/
def isCtl (w : Word) (op : Nat) : Bool := iClass w == 0 && iOp w == op

/-- The index of the ENDLOOP that matches a LOOP whose body starts at the head of `ws`, counted from that head. -/
def matchEnd : List Word → Nat → Nat → Option Nat
  | [], _, _ => none
  | w :: ws, depth, at_ =>
    if isCtl w 5 then matchEnd ws (depth + 1) (at_ + 1)
    else if isCtl w 6 then (if depth = 0 then some at_ else matchEnd ws (depth - 1) (at_ + 1))
    else matchEnd ws depth (at_ + 1)

/-- The bodies of a program: each LOOP with its ENDLOOP. -/
def bodiesOf (code : List Word) : List (Nat × Nat) :=
  code.zipIdx.filterMap fun (w, i) => if isCtl w 5 then (matchEnd (code.drop (i + 1)) 0 (i + 1)).map (i, ·) else none

/-- The bodies that hold an index. -/
def bodiesAt (bs : List (Nat × Nat)) (i : Nat) : List (Nat × Nat) := bs.filter fun b => decide (b.1 < i ∧ i ≤ b.2)

/-- The loop structure at an instruction is refused. -/
def loopBad (code : List Word) (bs : List (Nat × Nat)) (i : Nat) (w : Word) : Bool :=
  if isCtl w 5 then decide (4 ≤ (bodiesAt bs i).length) || !bs.contains (i, i + cEndoff w)
  else if isCtl w 6 then !bs.any fun b => b.2 == i
  else if isCtl w 7 then decide (code.length ≤ i + cOff w) || bodiesAt bs i != bodiesAt bs (i + cOff w)
  else false

/-! ### What paths reach -/

/-- A place on a path: the index, and the LOOPs that the thread's loop stack holds, innermost first. -/
abbrev PathPoint := Nat × List Nat

/-- An instruction can be skipped: its predicate is other than p0, or pneg is 1. -/
def skippable (w : Word) : Bool := iPred w != 0 || iPneg w

/-- An instruction can be executed: an operation with pred p0 and pneg 1 never is. -/
def executable (w : Word) : Bool := iPred w != 0 || !iPneg w

/-- Where a path goes from a point. A LOOP is followed with a count of 0 and with more; an ENDLOOP leaves the innermost entry's loop, whose
next iteration the path has seen from its LOOP on. -/
def pathNext (bs : List (Nat × Nat)) (st : List Nat) (i : Nat) (w : Word) : List PathPoint :=
  (if skippable w then [(i + 1, st)] else []) ++
  if !executable w then []
  else if isCtl w 1 then []
  else if isCtl w 5 then (if st.length < 4 then [(i + 1, i :: st)] else []) ++ [((bs.lookup i).getD i + 1, st)]
  else if isCtl w 6 then [(i + 1, st.tail)]
  else if isCtl w 7 then [(i + 1, st), (i + cOff w, st)]
  else [(i + 1, st)]

/-- The points that paths reach from the entries: control goes forward but for loops, which return to where they came from. -/
def reachOf (code : List Word) (bs : List (Nat × Nat)) (entries : List Nat) : List PathPoint :=
  code.zipIdx.foldl (fun seen (w, i) =>
    (seen ++ ((seen.filter (·.1 == i)).flatMap fun p => pathNext bs p.2 i w)).eraseDups) (entries.map (·, []))

/-- A path ends in a fault of R66 at an instruction: an ENDLOOP with no LOOP, or a fifth LOOP. -/
def pathFault (w : Word) (st : List Nat) : Bool :=
  executable w && ((isCtl w 6 && st.isEmpty) || (isCtl w 5 && decide (4 ≤ st.length)))

/-! ### Sums along paths -/

/-- What a stretch of program does to a sum along its paths: the most that a path adds that never sets the sum, the most that it leaves
where a path sets it, and the most that it shows before the first setting, and after one. None where no path goes through so. -/
structure PathSum where
  add  : Option Nat
  set  : Option Nat
  high : Nat
  seen : Nat
deriving DecidableEq, Repr

/-- The larger of two sums that may be absent, and their total. -/
def optMax : Option Nat → Option Nat → Option Nat
  | some a, some b => some (max a b)
  | some a, none => some a
  | none, b => b
def optAdd : Option Nat → Option Nat → Option Nat
  | some a, some b => some (a + b)
  | _, _ => none

/-- Nothing happens; the path ends; `n` is added; the sum is set to `n`. -/
def PathSum.skip : PathSum := ⟨some 0, none, 0, 0⟩
def PathSum.stop : PathSum := ⟨none, none, 0, 0⟩
def PathSum.plus (n : Nat) : PathSum := ⟨some n, none, n, 0⟩
def PathSum.to (n : Nat) : PathSum := ⟨none, some n, 0, n⟩

/-- One stretch after another, and one or the other. -/
def PathSum.then_ (a b : PathSum) : PathSum :=
  let through := a.add.isSome || a.set.isSome
  { add := optAdd a.add b.add, set := optMax (optAdd a.set b.add) (if through then b.set else none),
    high := max a.high ((optAdd a.add (some b.high)).getD 0),
    seen := max (max a.seen ((optAdd a.set (some b.high)).getD 0)) (if through then b.seen else 0) }
def PathSum.or_ (a b : PathSum) : PathSum :=
  { add := optMax a.add b.add, set := optMax a.set b.set, high := max a.high b.high, seen := max a.seen b.seen }

/-- A body `n` times over. -/
def PathSum.times : Nat → PathSum → PathSum
  | 0, _ => .skip
  | 1, b => b
  | n + 2, b =>
    { add := b.add.map ((n + 2) * ·), set := b.set.map (· + (n + 1) * b.add.getD 0),
      high := (n + 1) * b.add.getD 0 + b.high,
      seen := max b.seen ((b.set.map (· + n * b.add.getD 0 + b.high)).getD 0) }

/-- The most that a sum shows. -/
def PathSum.top (a : PathSum) : Nat := max a.high a.seen

/-- A region whose sums are being formed, from its end: each index with the sum from it to the end. -/
abbrev PathFrame := List (Nat × PathSum)

/-- The sum from an index to the region's end. -/
def PathFrame.from_ (f : PathFrame) (i : Nat) : PathSum := (f.lookup i).getD .stop

/-- The times that a body runs where it runs: an immediate count, or once for a register's (DESIGN CHOICE, log entry 139: R66 follows a
loop with a count of 0 and with more, and the image does not give a register's value). -/
def bodyTimes (w : Word) : Nat := if cRcnt w = 0 then max 1 (cCnt w) else 1

/-- One instruction before what follows it; `eff` is its own effect on the sum. -/
def sumStep (eff : Nat → Word → PathSum) : List PathFrame → Word × Nat → List PathFrame
  | frames, (w, i) =>
    match frames with
    | [] => []
    | f :: rest =>
      if isCtl w 6 then [(i, .skip)] :: frames
      else if isCtl w 5 then match rest with
        | [] => frames
        | p :: up =>
          let body := (PathSum.times (bodyTimes w) (f.from_ (i + 1))).or_ .skip
          ((i, body.then_ (p.from_ ((f.getLast?.map (·.1)).getD i + 1))) :: p) :: up
      else
        let next := f.from_ (i + 1)
        let own := if isCtl w 1 then PathSum.stop
          else if isCtl w 7 then next.or_ (f.from_ (i + cOff w))
          else (eff i w).then_ next
        ((i, if !executable w then next else if skippable w then own.or_ next else own) :: f) :: rest

/-- The sums of a program from every index outside its loops to the program's end. -/
def sumsOf (eff : Nat → Word → PathSum) (code : List Word) : PathFrame :=
  (code.zipIdx.reverse.foldl (sumStep eff) [[(code.length, .skip)]]).getLastD []

/-- The most that a sum shows on a path from an entry. -/
def pathTop (eff : Nat → Word → PathSum) (code : List Word) (entries : List Nat) : Nat :=
  let f := sumsOf eff code
  (entries.map fun e => (f.from_ e).top).foldl max 0

/-- The most that a sum shows before its first setting. -/
def pathHigh (eff : Nat → Word → PathSum) (code : List Word) (entries : List Nat) : Nat :=
  let f := sumsOf eff code
  (entries.map fun e => (f.from_ e).high).foldl max 0

/-! ### Registers with a known value -/

/-- The scalar and address registers of a thread that hold one value on every path. -/
structure Known where
  s : List (Option Word)
  a : List (Option Word)
deriving DecidableEq, Repr

/-- Register `i` of the file that `f` chooses. -/
def Known.get (k : Known) (f : Bool) (i : Nat) : Option Word := if f then k.a.getD i none else if i = 0 then some 0 else k.s.getD i none
def Known.put (k : Known) (f : Bool) (i : Nat) (v : Option Word) : Known :=
  if f then { k with a := k.a.set i (v.map fun x => (x.setWidth 32).setWidth 64) } else { k with s := k.s.set i v }

/-- What two paths agree on. -/
def agree (x y : List (Option Word)) : List (Option Word) := (x.zip y).map fun p => if p.1 = p.2 then p.1 else none
def Known.meet (j k : Known) : Known := { s := agree j.s k.s, a := agree j.a k.a }

/-- The register that an instruction writes, if any: file and number. -/
def writes (w : Word) : List (Bool × Nat) := match iClass w, iOp w with
  | 0, 2 => [(cF w, cRd w)]
  | 0, 3 => [(cF w, cRd w)]
  | 0, 5 => [(false, cRix w)]
  | 2, 11 => [(false, vSl w)]
  | 4, o => if o ≤ 2 then [(false, (tSst w).toNat)] else []
  | 5, o => if o = 1 ∨ o = 2 ∨ o = 5 then [(false, (ySd w).toNat)] else []
  | _, _ => []

/-- The registers after an instruction: ALU and ALUI of known sources give a known result. -/
def knownAfter (k : Known) (w : Word) : Known :=
  let second := if iOp w = 3 then some (cSext w) else k.get false (cImm w % 32)
  let value := if iClass w = 0 ∧ (iOp w = 2 ∨ iOp w = 3) then match k.get (cF w) (cRs1 w), second with
      | some x, some y => some (aluOp (cSub w) x y)
      | _, _ => if cSub w = 11 then second else none
    else none
  let after := (writes w).foldl (fun k r => k.put r.1 r.2 value) k
  if skippable w then k.meet after else after

/-- Nothing that a body writes is known in it. -/
def forget (k : Known) (ws : List Word) : Known := (ws.flatMap writes).foldl (fun k r => k.put r.1 r.2 none) k

/-- A path comes to index `i` with `k`. -/
def arrives (t : List (Nat × Known)) (i : Nat) (k : Known) : List (Nat × Known) := match t.lookup i with
  | none => (i, k) :: t
  | some j => (i, j.meet k) :: t

/-- The known registers at every index that paths reach from one entry. -/
def knownOf (code : List Word) (bs : List (Nat × Nat)) (entry : Nat) (k0 : Known) : List (Nat × Known) :=
  code.zipIdx.foldl (fun t (w, i) => match t.lookup i with
    | none => t
    | some k =>
      if isCtl w 5 then
        let e := (bs.lookup i).getD i
        arrives (arrives t (i + 1) (forget k ((code.drop i).take (e - i)))) (e + 1) k
      else if isCtl w 7 then arrives (arrives t (i + 1) k) (i + cOff w) k
      else if isCtl w 1 ∧ !skippable w then t
      else arrives t (i + 1) (knownAfter k w)) [(entry, k0)]

end Sys2Proof.Machine
end

