-- ==== Sys2Proof/Machine/Shake.lean ====
section
/-! DEFINITION. SHAKE256, the digest of plan images, measurements and reports (spec/13 R244, spec/20 R390). -/

namespace Sys2Proof.Machine

/-- The lane of a Keccak state at (x, y). -/
def lane (a : List Word) (x y : Nat) : Word := a.getD (x % 5 + 5 * (y % 5)) 0

/-- A Keccak state from its lanes. -/
def lanes (f : Nat → Nat → Word) : List Word := (List.range 25).map fun i => f (i % 5) (i / 5)

/-- The rotations of step rho, by lane. -/
def rhoOf : List Nat :=
  [0, 1, 62, 28, 27, 36, 44, 6, 55, 20, 3, 10, 43, 25, 39, 41, 45, 15, 21, 8, 18, 2, 61, 56, 14]

/-- The round constants of step iota. -/
def iotaOf : List Word :=
  [0x0000000000000001, 0x0000000000008082, 0x800000000000808A, 0x8000000080008000, 0x000000000000808B, 0x0000000080000001,
   0x8000000080008081, 0x8000000000008009, 0x000000000000008A, 0x0000000000000088, 0x0000000080008009, 0x000000008000000A] ++
  [0x000000008000808B, 0x800000000000008B, 0x8000000000008089, 0x8000000000008003, 0x8000000000008002, 0x8000000000000080,
   0x000000000000800A, 0x800000008000000A, 0x8000000080008081, 0x8000000000008080, 0x0000000080000001, 0x8000000080008008]

/-- One round of Keccak-f[1600]. -/
def keccakRound (a : List Word) (rc : Word) : List Word :=
  let c := fun x => lane a x 0 ^^^ lane a x 1 ^^^ lane a x 2 ^^^ lane a x 3 ^^^ lane a x 4
  let th := lanes fun x y => lane a x y ^^^ c (x + 4) ^^^ (c (x + 1)).rotateLeft 1
  let b := lanes fun x y =>
    let sx := (x + 3 * y) % 5
    (lane th sx x).rotateLeft (rhoOf.getD (sx + 5 * x) 0)
  let chi := lanes fun x y => lane b x y ^^^ (~~~(lane b (x + 1) y) &&& lane b (x + 2) y)
  lanes fun x y => if x = 0 ∧ y = 0 then lane chi 0 0 ^^^ rc else lane chi x y

/-- Keccak-f[1600]. -/
def keccakF (a : List Word) : List Word := iotaOf.foldl keccakRound a

/-- A block of 136 bytes absorbed. -/
def absorb (a : List Word) (block : List Byte) : List Word :=
  keccakF (a.zipIdx.map fun (w, i) => if i < 17 then w ^^^ BitVec.ofNat 64 (ofLe ((block.drop (8 * i)).take 8)) else w)

/-- The message's blocks absorbed, the last one padded. -/
def absorbAll : Nat → List Word → List Byte → List Word
  | 0, a, _ => a
  | f + 1, a, bs =>
    if bs.length < 136 then
      let p := (bs ++ 0x1F :: List.replicate (135 - bs.length) 0)
      absorb a (p.zipIdx.map fun (b, i) => if i = 135 then b ||| 0x80 else b)
    else absorbAll f (absorb a (bs.take 136)) (bs.drop 136)

/-- SHAKE256 with `n` bytes of output, at most 136. -/
def shake256 (bs : List Byte) (n : Nat) : List Byte :=
  ((absorbAll (bs.length / 136 + 1) (List.replicate 25 0) bs).flatMap fun w => leBytes 8 w.toNat).take n

end Sys2Proof.Machine
end

