-- ==== Sys2Proof/Machine/Loader.lean ====
section
/-! DEFINITION. The loader's checks that need only the image: stages 1 to 9 of Table 13.4 (spec/13 R236 to R249 and the rules that the
table names). -/

namespace Sys2Proof.Machine

/-- A failed check (spec/13 Table 13.6). -/
structure Reject where
  stage  : Nat
  kind   : Nat
  item   : Nat
  detail : Nat
  lcl    : Nat
  lcore  : Nat
  pc     : Nat
deriving DecidableEq, Repr

/-- The details of Table 13.5. -/
def dAccTiles : Nat := 1
def dAlignment : Nat := 2
def dCount : Nat := 3
def dOutEmpty : Nat := 4
def dFormat : Nat := 5
def dLsBudget : Nat := 6
def dSsBudget : Nat := 7
def dStash : Nat := 8
def dBadField : Nat := 0x0102

/-- A check of an item: its failure where `bad`. -/
def rj (bad : Bool) (stage kind item detail : Nat) : List Reject :=
  if bad then [{ stage := stage, kind := kind, item := item, detail := detail, lcl := 0xFF, lcore := 0xFF, pc := 0 }] else []

/-- The same for an item of a logical core. -/
def rjc (bad : Bool) (stage kind item detail lcl lcore pc : Nat) : List Reject :=
  (rj bad stage kind item detail).map fun r => { r with lcl := lcl, lcore := lcore, pc := pc }

/-- Failure `a` comes before `b`: by stage, then by item, then by kind (R249). -/
def Reject.before (a b : Reject) : Bool :=
  decide (a.stage < b.stage ∨ (a.stage = b.stage ∧ (a.item < b.item ∨ (a.item = b.item ∧ a.kind < b.kind))))

/-- The first failure. -/
def firstReject (l : List Reject) : Option Reject :=
  l.foldl (fun acc r => match acc with
    | none => some r
    | some a => if r.before a then some r else some a) none

/-! ### Stage 1: header and directory (R244, R245) -/

/-- The header is refused. -/
def headerBad (img : List Byte) (size : Nat) : Bool :=
  let nlcl := hdrNlcl img
  decide (size < 256) || hdrMagic img != 0x7E7A0007 || !(hdrVer img == 0x0201 || hdrVer img == 0x0105) || hdrSize img != size ||
  hdrNsect img == 0 || decide (32 < hdrNsect img) || hdrMb img == 0 || decide (4096 < hdrMb img) || nlcl == 0 ||
  decide (16 < nlcl) || decide (1 < hdrFlags img) ||
  ((List.range 16).any fun c => if c < nlcl then hdrNcore img c == 0 || decide (16 < hdrNcore img c) else hdrNcore img c != 0) ||
  [hdrStart img, hdrSend img, hdrEnd img].any (fun v => decide (2 ^ 20 ≤ v)) ||
  (!hdrSteps img && (hdrStart img != 0 || hdrSend img != 0 || hdrEnd img != 0)) || imgNum img 52 140 != 0 ||
  hdrDigest img != shake256 (img.take 192 ++ img.drop 256) 64

/-- The directory of an image. -/
def dirOf (img : List Byte) : List Section := (List.range (hdrNsect img)).map (dirEntry img)

/-- The bytes that a section's records take. -/
def sectionUse (img : List Byte) (e : Section) : Nat :=
  if recSize e.kind = 0 then match (varRecs img e.kind e.count e.off).getLast? with
    | some o => o + 16 + roundUp (varBody img e.kind o) 16 - e.off
    | none => 0
  else recSize e.kind * e.count

/-- The directory is refused. -/
def dirBad (img : List Byte) (size : Nat) : Bool :=
  let es := dirOf img
  let n := hdrNsect img
  es.any (fun e => e.kind == 0 || decide (0x0F < e.kind) || e.rsv != 0 || e.rsize != recSize e.kind || e.off % 64 != 0 ||
    decide (size < e.off + e.bytes) || decide (e.bytes < sectionUse img e) || overlap (e.off, e.bytes) (0, 256 + 16 * n)) ||
  es.zipIdx.any (fun (a, i) => (es.drop (i + 1)).any fun b => a.kind == b.kind || overlap (a.off, a.bytes) (b.off, b.bytes)) ||
  decide (size < 256 + 16 * n) || [0x01, 0x02, 0x0D].any fun k => !es.any fun e => e.kind == k

/-- Stage 1. -/
def stage1 (img : List Byte) (size : Nat) : List Reject := rj (headerBad img size || dirBad img size) 1 0 0 dBadField

/-! ### Records with their indices -/

/-- The records of a kind, numbered. -/
def recs (img : List Byte) (kind : Nat) : List (Nat × Nat) := (recsOf img kind).zipIdx

/-- Every check of a section's records. -/
def each (img : List Byte) (kind : Nat) (f : Nat → Nat → List Reject) : List Reject :=
  (recs img kind).flatMap fun (o, i) => f o i

/-- The logical cluster and core in the first two bytes of a record, and whether they exist. -/
def recCore (img : List Byte) (o : Nat) : Nat × Nat := (imgNum img o 1, imgNum img (o + 1) 1)
def coreExists (img : List Byte) (c : Nat × Nat) : Bool := decide (c.1 < hdrNlcl img ∧ c.2 < hdrNcore img c.1)

/-- Every check of the instructions: of record i, the pc and the word. -/
def eachWord (img : List Byte) (f : Nat → Prog → Nat → Word → List Reject) : List Reject :=
  (progsOf img).zipIdx.flatMap fun (p, i) => p.code.zipIdx.flatMap fun (w, pc) => f i p pc w

/-! ### Instructions (spec/04 R76, R434) -/

/-- A format field of a word names a reserved code. -/
def fmtFieldReserved (w : Word) : Bool :=
  match iClass w, iOp w with
  | 1, 0 => fmtReserved (mFmtA w) || fmtReserved (mFmtB w)
  | 2, _ => fmtReserved (vFd w) || fmtReserved (vFs w)
  | 3, _ => fmtReserved (vFd w) || fmtReserved (vFs w)
  | 6, _ => fmtReserved (dFmt w)
  | _, _ => false

/-- The static faults of a program's instructions. -/
def wordChecks (img : List Byte) : List Reject := eachWord img fun i p pc w =>
  let f := staticFaults w
  let bad := fun (b : Bool) stage detail => rjc b stage 1 i detail p.lcl p.lcore pc
  bad (f.contains 1 && fmtFieldReserved w) 2 dFormat ++ bad ((f.contains 1 && !fmtFieldReserved w) || f.contains 9) 2 dBadField ++
  bad (f.contains 5) 4 dFormat

/-! ### Loops and paths (spec/04 R66) -/

/-- The entries of a logical core's threads. -/
def entriesOf (img : List Byte) (c : Nat × Nat) : List Nat :=
  ((recsOf img 0x01).filter fun o => recCore img o == c).map fun o => imgNum img (o + 4) 2

/-- The structure of every program. An entry outside the program is the THREAD record's failure and starts no path. -/
def pathChecks (img : List Byte) : List Reject :=
  (progsOf img).zipIdx.flatMap fun (p, i) =>
    let bs := bodiesOf p.code
    let seen := reachOf p.code bs ((entriesOf img (p.lcl, p.lcore)).filter fun e => decide (e < p.code.length))
    (p.code.zipIdx.flatMap fun (w, pc) =>
      rjc (loopBad p.code bs pc w || seen.any fun x => x.1 == pc && pathFault w x.2) 3 1 i dCount p.lcl p.lcore pc) ++
    rjc (seen.any fun x => x.1 == p.code.length) 3 1 i dCount p.lcl p.lcore p.code.length

/-! ### Threads and programs (spec/13 R247, Table 13.10; spec/03 R47; spec/04 R59) -/

/-- A preset register code. -/
def presetOk (c : Nat) : Bool := decide ((1 ≤ c ∧ c ≤ 0x1F) ∨ (0x20 ≤ c ∧ c ≤ 0x30))

/-- THREAD records. -/
def threadChecks (img : List Byte) : List Reject := each img 0x01 fun o i =>
  let c := recCore img o
  let npre := imgNum img (o + 3) 1
  let bad := fun (b : Bool) stage detail => rjc b stage 13 i detail c.1 c.2 0
  let mine := (recsOf img 0x01).filter fun x => recCore img x == c
  let progs := (progsOf img).filter fun p => (p.lcl, p.lcore) == c
  bad (decide (31 < imgNum img (o + 2) 1) || decide (6 < npre) || imgNum img (o + 6) 2 != 0 || imgNum img (o + 14) 2 != 0 ||
    (List.range 6).any fun k => if k < npre then !presetOk (imgNum img (o + 8 + k) 1) else imgNum img (o + 8 + k) 1 != 0) 2 dBadField ++
  bad (!coreExists img c || decide (32 < mine.length) || decide (progs.length ≠ 1) ||
    (mine.any fun x => x != o && imgNum img (x + 2) 1 == imgNum img (o + 2) 1) ||
    progs.any fun p => decide (p.code.length ≤ imgNum img (o + 4) 2)) 3 dCount

/-- PROGRAM heads. The programs of a logical core share its store of 8,192 instructions (spec/04 R59). -/
def programChecks (img : List Byte) : List Reject := each img 0x02 fun o i =>
  let c := recCore img o
  rjc (imgNum img (o + 2) 2 != 0 || imgNum img (o + 8) 8 != 0) 2 1 i dBadField c.1 c.2 0 ++
  let held := (((recsOf img 0x02).filter fun x => recCore img x == c).map fun x => imgNum img (x + 4) 4).sum
  rjc (imgNum img (o + 4) 4 == 0 || decide (8192 < held) || !coreExists img c) 3 1 i dCount c.1 c.2 0

/-! ### The operation map (spec/13 R247, Table 13.12) -/

/-- An OPMAP record. -/
structure OpMap where
  prog : Nat
  pc   : Nat
  role : Nat
  watch : Nat
  op   : Nat
  pre  : Nat
deriving DecidableEq, Repr

def opMapAt (img : List Byte) (o : Nat) : OpMap :=
  { prog := imgNum img o 4, pc := imgNum img (o + 4) 2, role := imgNum img (o + 6) 1, watch := imgNum img (o + 7) 1,
    op := imgNum img (o + 8) 4, pre := imgNum img (o + 12) 4 }
def opMaps (img : List Byte) : List OpMap := (recsOf img 0x0D).map (opMapAt img)

/-- The instruction that an OPMAP record names. -/
def mapWord (img : List Byte) (m : OpMap) : Option Word := ((progsOf img)[m.prog]?).bind fun p => p.code[m.pc]?

/-- The role that a word plays: 0 MMA, 1 SPILL, 2 DRN, 3 KID, 4 TOPK, 5 ACCZ; none for a word that has no record. -/
def roleOf (w : Word) : Option Nat := match iClass w, iOp w with
  | 1, 0 => some 0
  | 1, 1 => some 1
  | 1, 2 => some 4
  | 1, 3 => some 5
  | 1, 4 => some 3
  | 6, _ => some 2
  | _, _ => none

/-- The operation identifiers of TILING and LAYER records. -/
def tilingOps (img : List Byte) : List Nat := (recsOf img 0x05).map fun o => imgNum img o 4
def layerOps (img : List Byte) : List Nat := (recsOf img 0x06).map fun o => imgNum img (o + 32) 4

/-- OPMAP records. -/
def mapChecks (img : List Byte) : List Reject := each img 0x0D fun o i =>
  let m := opMapAt img o
  let w := mapWord img m
  let drn := m.role == 2
  let deriv := drn && (match w with
    | some x => fnDeriv (dFn x)
    | none => false)
  rj (decide (5 < m.role) || (if drn then decide (1 < m.watch) else m.watch != 0) || (!deriv && m.pre != 0xFFFFFFFF)) 2 1 i dBadField ++
  rj (drn && m.watch == 0 && (match w with
    | some x => !dBias x
    | none => false)) 2 1 i dBadField ++
  rj ((match w with
      | some x => roleOf x != some m.role
      | none => true) || !(tilingOps img ++ layerOps img).contains m.op ||
    (opMaps img).any (fun k => k != m && k.prog == m.prog && k.pc == m.pc) ||
    decide (1 < ((opMaps img).filter (· == m)).length)) 7 1 i dCount ++
  rj (deriv && match (recsOf img 0x0A)[m.pre]?, w with
    | some t, some x => imgNum img (t + 10) 1 != dFmt x + 16 * dSt x
    | _, _ => true) 4 1 i dFormat

/-- Every instruction that needs an OPMAP record has one. -/
def mapCoverage (img : List Byte) : List Reject := eachWord img fun i p pc w =>
  rjc ((roleOf w).isSome && !(opMaps img).any fun m => m.prog == i && m.pc == pc) 7 1 i dCount p.lcl p.lcore pc

/-! ### Tiling (R236, R237, R240; spec/05 R87, R95; spec/02 R38) -/

/-- A level record (Table 13.1). -/
def lvOrder (x : BitVec 64) : Nat := bits x 61 3
def lvOv (x : BitVec 64) : Bool := bit x 58
def lvLevel (x : BitVec 64) : Nat := bits x 56 2
def lvM (x : BitVec 64) : Nat := bits x 40 16
def lvN (x : BitVec 64) : Nat := bits x 24 16
def lvK (x : BitVec 64) : Nat := bits x 0 24

/-- The level records of a TILING record: 0 OP, 1 CLUSTER, 2 CORE; and its spill interval. -/
def levelAt (img : List Byte) (o l : Nat) : BitVec 64 := BitVec.ofNat 64 (imgNum img (o + 8 + 8 * l) 8)
def spillAt (img : List Byte) (o : Nat) : Nat := imgNum img (o + 4) 2

/-- The first record of a kind whose operation identifier, at byte `at_`, is `op`. -/
def opRecord (img : List Byte) (kind at_ op : Nat) : Option Nat := (recsOf img kind).find? fun o => imgNum img (o + at_) 4 == op

/-- The TILING record whose values an operation has: the loader gives a recompute operation those of its forward run. -/
def tilingOf (img : List Byte) (op : Nat) : Option Nat := opRecord img 0x05 0 (forwardOf img op)

/-- The words of an operation that play a role. -/
def wordsOf (img : List Byte) (op role : Nat) : List Word :=
  (opMaps img).filterMap fun m => if m.op = op ∧ m.role = role then mapWord img m else none

/-- The MMA words of an operation. -/
def mmasOf (img : List Byte) (op : Nat) : List Word := wordsOf img op 0

/-- The largest K between spills of an INT32 accumulation (spec/05 Table 5.3). -/
def intBound (w : Word) : Nat :=
  if mFmtA w = 8 ∧ mFmtB w = 8 then 131040 else if mFmtA w = 9 ∧ mFmtB w = 9 then 33554400 else 2097120

/-- An MMA accumulates in INT32. -/
def mmaWordInt (w : Word) : Bool := pairInt (mFmtA w) (mSta w) (mFmtB w) (mStb w)

/-- The effect of a word on the K-chunks that operation `op` has accumulated in tile `t` since the last spill (spec/05 R95). -/
def chunkEff (img : List Byte) (prog op t : Nat) (pc : Nat) (w : Word) : PathSum :=
  let mine := (opMaps img).any fun m => m.prog == prog && m.pc == pc && m.op == op
  let here := (mAcc w).toNat == t
  match iClass w, iOp w with
  | 1, 0 => if !mine || !here then .skip else if bit w 27 then .to (mKd w + 1) else .plus (mKd w + 1)
  | 1, 1 => if here then .to 0 else .skip
  | 1, 3 => if here then .to 0 else .skip
  | 6, o => if o ≠ 0 ∧ !dSrc w ∧ dIdx w = t then .to 0 else .skip
  | _, _ => .skip

/-- The most K-chunks that an operation accumulates in a tile before its next spill, on any path of any program. -/
def chunksHeld (img : List Byte) (op : Nat) : Nat :=
  ((progsOf img).zipIdx.flatMap fun (p, i) => (List.range 8).map fun t =>
    pathTop (chunkEff img i op t) p.code (entriesOf img (p.lcl, p.lcore))).foldl max 0

/-- An operation has a word that rounds stochastically (spec/05 Table 4.6): an MMA or a SPILL with sr. -/
def opSr (img : List Byte) (op : Nat) : Bool := (wordsOf img op 0 ++ wordsOf img op 1).any fun w => bit w 24

/-- TILING records. -/
def tilingChecks (img : List Byte) : List Reject := each img 0x05 fun o i =>
  let op := levelAt img o 0
  let cl := levelAt img o 1
  let co := levelAt img o 2
  let id := imgNum img o 4
  let ms := mmasOf img id
  let sp := spillAt img o
  let three := [op, cl, co]
  rj (three.zipIdx.any (fun (x, l) => decide (5 < lvOrder x) || lvLevel x != l || (lvOv x && l != 2)) || imgNum img (o + 6) 2 != 0)
    2 3 i dBadField ++
  rj (three.any (fun x => lvM x == 0 || lvN x == 0 || lvK x == 0) || decide (lvM op < lvM cl ∨ lvN op < lvN cl ∨ lvK op < lvK cl ∨
    lvM cl < lvM co ∨ lvN cl < lvN co ∨ lvK cl < lvK co) || ms.any fun w => lvK co % (mKd w + 1) != 0) 5 3 i dCount ++
  rj (decide (lvM cl % lvM co ≠ 0 ∨ lvN cl % lvN co ≠ 0 ∨ lvK cl % lvK co ≠ 0)) 6 3 i dAlignment ++
  rj (decide (1 < ((tilingOps img ++ layerOps img).filter (· == id)).length) || decide (256 < sp) ||
    (sp == 0 && !(wordsOf img id 1).isEmpty) || (sp != 0 && decide (sp < chunksHeld img id)) ||
    (sp != 0 && ms.any fun w => sp % (mKd w + 1) != 0) ||
    (ms.any fun w => mmaWordInt w && decide (intBound w < 32 * (if sp = 0 then lvK op else sp))) ||
    (ms.any mmaWordInt && ms.any fun w => !mmaWordInt w) ||
    (opSr img id && decide (4096 < lvM op ∨ 4096 < lvN op ∨ 2 ^ 20 < lvK op))) 7 3 i dCount

/-- The tiles of an operation that are in use at once in program `p` (R240): for a dW slice group, whose tiles leave by DRAIN_RED, its
slices (spec/09 R164). -/
def demandTiles (img : List Byte) (o p : Nat) : Nat :=
  let id := imgNum img o 4
  let co := levelAt img ((tilingOf img id).getD o) 2
  if (wordsOf img id 2).any fun w => iOp w == 2 then
    ((opMaps img).filterMap fun m => if m.prog = p ∧ m.op = id ∧ m.role = 0 then (mapWord img m).map fun w => (mAcc w).toNat
      else none).eraseDups.length
  else match lvOrder co with
    | 2 => lvN co
    | 3 => lvM co
    | 4 => lvM co * lvN co
    | 5 => lvM co * lvN co
    | _ => 1

/-- The accumulator tiles, or the spill slots, that an operation demands: ov doubles the tiles. -/
def demandAt (img : List Byte) (o p : Nat) (spills : Bool) : Nat :=
  let t := (tilingOf img (imgNum img o 4)).getD o
  if spills then (if spillAt img t = 0 then 0 else demandTiles img o p)
  else demandTiles img o p * (1 + b2n (lvOv (levelAt img t 2)))

/-- The pcs of an operation's instructions in program `p`, from its first MMA to its last drain. -/
def liveRange (img : List Byte) (p op : Nat) : Option (Nat × Nat) :=
  let pcs := (opMaps img).filterMap fun m => if m.prog = p ∧ m.op = op then some m.pc else none
  match pcs.min?, pcs.max? with
  | some a, some b => some (a, b)
  | _, _ => none

/-- The demands that meet at one instruction of program `p`: accumulator tiles, or spill slots. -/
def demandSum (img : List Byte) (p pc : Nat) (spills : Bool) : Nat :=
  ((recsOf img 0x05).map fun o => match liveRange img p (imgNum img o 4) with
    | some r => if r.1 ≤ pc ∧ pc ≤ r.2 then demandAt img o p spills else 0
    | none => 0).sum

/-- Accumulator tiles and spill slots (R240, spec/03 R46). -/
def demandChecks (img : List Byte) : List Reject := eachWord img fun i p pc _ =>
  rjc (decide (8 < demandSum img i pc false)) 8 1 i dAccTiles p.lcl p.lcore pc ++
  rjc (decide (4 < demandSum img i pc true)) 9 1 i dLsBudget p.lcl p.lcore pc

/-! ### What tiles accumulate (spec/05 R87, R92) -/

/-- A word acts on accumulator tile `t`, or on a spill slot that the tile spills into. -/
def touchesTile (slots : List Nat) (t : Nat) (w : Word) : Bool := match iClass w, iOp w with
  | 1, o => decide (o ≠ 2 ∧ o ≠ 4) && (mAcc w).toNat == t
  | 6, _ => if dSrc w then slots.contains (dIdx w) else dIdx w == t
  | _, _ => false

/-- The slots into which a program spills tile `t`. -/
def tileSlots (code : List Word) (t : Nat) : List Nat :=
  code.filterMap fun w => if iClass w = 1 ∧ iOp w = 1 ∧ (mAcc w).toNat = t then some (bits w 11 2) else none

/-- One thread at most of a program's core acts on tile `t`: what its paths do is what the tile sees. -/
def soleUser (img : List Byte) (p : Prog) (t : Nat) : Bool :=
  let bs := bodiesOf p.code
  let slots := tileSlots p.code t
  decide (((entriesOf img (p.lcl, p.lcore)).filter fun e => (reachOf p.code bs [e]).any fun x => match p.code[x.1]? with
    | some w => touchesTile slots t w
    | none => false).length ≤ 1)

/-- The largest product of an INT32 accumulation (spec/05 Table 5.3). -/
def productMax (w : Word) : Nat := if mFmtA w = 8 ∧ mFmtB w = 8 then 16384 else if mFmtA w = 9 ∧ mFmtB w = 9 then 64 else 1024

/-- The effect of a word on the magnitude that tile `t` may have reached in INT32 since its start, spill or drain. -/
def magnitudeEff (t : Nat) (_pc : Nat) (w : Word) : PathSum :=
  let m := productMax w * (32 * (mKd w + 1))
  match iClass w, iOp w with
  | 1, 0 => if (mAcc w).toNat ≠ t then .skip else if !mmaWordInt w then .to 0 else if bit w 27 then .to m else .plus m
  | 1, 1 => if (mAcc w).toNat = t then .to 0 else .skip
  | 1, 3 => if (mAcc w).toNat = t then .to 0 else .skip
  | 6, _ => if !dSrc w ∧ dIdx w = t then .to 0 else .skip
  | _, _ => .skip

/-- The effect of a word on the reduction of tile `t`: an MMA of the format that `int` names marks it, and a later MMA of the other format
that adds without a start shows more than the mark. -/
def mixEff (int : Bool) (slots : List Nat) (t : Nat) (_pc : Nat) (w : Word) : PathSum := match iClass w, iOp w with
  | 1, 0 => if (mAcc w).toNat ≠ t then .skip else if mmaWordInt w == int then .to (2 ^ 32) else if bit w 27 then .to 0 else .plus 1
  | 1, 3 => if (mAcc w).toNat = t then .to 0 else .skip
  | 6, o => if dSrc w then (if slots.contains (dIdx w) then .to 0 else .skip) else if o ≠ 0 ∧ dIdx w = t then .to 0 else .skip
  | _, _ => .skip

/-- The first MMA into a tile. -/
def firstMma (p : Prog) (t : Nat) : Nat :=
  ((p.code.zipIdx.find? fun (w, _) => iClass w == 1 && iOp w == 0 && (mAcc w).toNat == t).map (·.2)).getD 0

/-- What a tile that one thread uses accumulates on that thread's paths: an INT32 sum that could wrap, and a reduction of two formats.
What threads do to a tile between them follows from no path. -/
def tileChecks (img : List Byte) : List Reject :=
  (progsOf img).zipIdx.flatMap fun (p, i) => (List.range 8).flatMap fun t =>
    let es := entriesOf img (p.lcl, p.lcore)
    let mixed := fun int => decide (2 ^ 32 < pathTop (mixEff int (tileSlots p.code t) t) p.code es)
    rjc (soleUser img p t && (decide (2 ^ 31 - 1 < pathTop (magnitudeEff t) p.code es) || mixed true || mixed false))
      7 1 i dCount p.lcl p.lcore (firstMma p t)

/-- A drain with a derivative form that a path reaches with no WAIT before it (spec/09 R162). -/
def waitChecks (img : List Byte) : List Reject := eachWord img fun i p pc w =>
  let eff := fun (k : Nat) (x : Word) => if iClass x = 5 ∧ iOp x = 1 then PathSum.to 0 else if k = pc then PathSum.plus 1 else .skip
  rjc (iClass w == 6 && fnDeriv (dFn w) && decide (0 < pathHigh eff p.code (entriesOf img (p.lcl, p.lcore))))
    7 1 i dCount p.lcl p.lcore pc

/-! ### Layers (spec/07) -/

/-- A geometry record with a zero, and a reserved bit. -/
def geoZero (g : Geo) : Bool := g.inExt == 0 || g.k == 0 || g.dil == 0 || g.stride == 0

/-- A format that may lie in a tier; a format that may be a matrix operand. -/
def storedFmt' (f : Nat) : Bool := decide (f ≤ 9)
def matrixFmt (f : Nat) : Bool := decide (1 ≤ f ∧ f ≤ 9)

/-- The K of a convolution on the arrays: every tap, padded as R124 gives. -/
def layerK (l : ConvLayer) : Nat :=
  if l.chans < 32 then l.t.k * l.h.k * roundUp (l.w.k * l.chans) 32 else l.t.k * l.h.k * l.w.k * roundUp l.chans 32

/-- The output tiles of 128 pixels of a convolution. -/
def layerRows (l : ConvLayer) : Nat := ceilDiv (l.batch * l.t.out.toNat * l.h.out.toNat * l.w.out.toNat) 128

/-- The counts of a convolution on the arrays (spec/05 R87, spec/02 R38): the K of an INT32 reduction without spills, one format, and the
rounding counter's ranges. The output channels are in no record: tile_col is not judged. -/
def layerCounts (img : List Byte) (l : ConvLayer) (op : Nat) : Bool :=
  let ms := mmasOf img op
  ((wordsOf img op 1).isEmpty && ms.any fun w => mmaWordInt w && decide (intBound w < layerK l)) ||
  (ms.any mmaWordInt && ms.any fun w => !mmaWordInt w) ||
  (opSr img op && decide (4096 < layerRows l ∨ 2 ^ 25 < layerK l))

/-- LAYER records. -/
def layerChecks (img : List Byte) : List Reject := each img 0x06 fun o i =>
  let l := layerAt img o
  let gs := [l.w, l.h, l.t]
  let w := l.word
  let pool := lwPool l
  let lacks := [(2, l.h), (3, l.t)].any fun (d, g) => decide (bits w 44 2 < d) && g != (⟨1, 1, 1, 1, 0, 0⟩ : Geo) && !geoZero g
  let kid := lwEng l == 1
  rj (bits w 32 10 != 0 || lwEng l == 3 || lwMap l == 3 || bits w 44 2 == 0 || lacks || imgNum img (o + 40) 8 != 0 ||
    [8, 16, 24].any (fun k => imgNum img (o + k) 1 % 4 != 0) || decide ((recsOf img 0x0A).length ≤ imgNum img (o + 36) 4) ||
    (pool && (lwFmtW l != 0 || lwPmode l != 0 || gs.any fun g => g.dil != 1 || decide (g.k ≤ g.lo ∨ g.k ≤ g.hi))) ||
    (lwPmode l == 2 && gs.any fun g => decide (g.inExt ≤ g.lo ∨ g.inExt ≤ g.hi))) 2 4 i dBadField ++
  rj (fmtReserved (lwFmtIn l) || fmtReserved (lwFmtW l) || fmtReserved (lwFmtOut l)) 2 4 i dFormat ++
  rj (!storedFmt' (lwFmtOut l) || (if pool then !storedFmt' (lwFmtIn l) else !matrixFmt (lwFmtIn l) || !matrixFmt (lwFmtW l)) ||
    (kid && !(kidFmt (lwFmtIn l) && lwFmtW l == 2 && kidFmt (lwFmtOut l)))) 4 4 i dFormat ++
  rj (gs.any geoZero || (kid && decide (16 < l.chans ∨ 2048 < l.t.k * l.h.k * l.w.k * l.chans))) 5 4 i dCount ++
  rj (gs.any fun g => !geoZero g && decide (g.out ≤ 0)) 5 4 i dOutEmpty ++
  rj (decide (1 < ((tilingOps img ++ layerOps img).filter (· == imgNum img (o + 32) 4)).length) ||
    layerCounts img l (imgNum img (o + 32) 4)) 7 4 i dCount

/-! ### Streams, handles, preloads, buffers (spec/12 R228; spec/09 R165 to R169; spec/03 R46; spec/13 R242) -/

/-- A GATHER descriptor among the STREAM records is one that gives rows: nrow is 0 in any other (DESIGN CHOICE, log entry 132: no field says
what a STREAM record is for). -/
def isGather (d : BitVec 512) : Bool := dNrow d != 0

/-- STREAM records. -/
def streamChecks (img : List Byte) : List Reject := each img 0x04 fun o i =>
  let d := descAt img o
  let c := recCore img o
  let g := isGather d
  let bad := fun (b : Bool) stage detail => rjc b stage 2 i detail c.1 c.2 0
  bad (imgNum img (o + 2) 2 != 0 || imgNum img (o + 8) 8 != 0 || decide (3 < dMode d) || (!g && decide (1 < dStSrc d)) || bits d 0 102 != 0 ||
    (g && dMode d != 0) || (!g && dMode d != 2 && dAux1 d != 0) || (!g && dMode d == 3 && decide (64 ≤ dAux0 d))) 2 dBadField ++
  bad (fmtReserved (dFsrc d) || fmtReserved (dFdst d)) 2 dFormat ++
  bad (dFsrc d == 10 || (!g && ((dStSrc d == 1 && !scalable (dFsrc d)) || (dStSrc d == 0 && narrow (dFsrc d)))) || (if g then dFdst d != dFsrc d else expandBad d)) 4 dFormat ++
  bad (dBase d % 64 != 0 || imgNum img (o + 4) 4 % 64 != 0) 6 dAlignment ++
  bad (!coreExists img c || dRowBytes d == 0 || (if g then decide (64 < dRowBytes d) else
    decide (8192 < dRowBytes d ∨ dRows d = 0 ∨ 4096 < dRows d ∨ dSlot d = 0 ∨ dSlot d < dRows d * dRowBytes d) ||
    (dMode d == 0 && (dNx d == 0 || dNy d == 0)) || expandsOver d)) 7 dCount ++
  bad (!g && ringFaults d != []) 9 dLsBudget

/-- The HANDLE records of a logical core. -/
def handlesOf (img : List Byte) (c : Nat × Nat) : List (BitVec 512) :=
  ((recsOf img 0x08).filter fun o => recCore img o == c).map (descAt img)

/-- The collective that a handle names. -/
def collRec (img : List Byte) (id : Nat) : Option (BitVec 256) := ((recsOf img 0x0B).map (collAt img)).find? fun r => clId r == id

/-- HANDLE records. -/
def handleChecks (img : List Byte) : List Reject := each img 0x08 fun o i =>
  let h := descAt img o
  let c := recCore img o
  let bad := fun (b : Bool) stage detail => rjc b stage 6 i detail c.1 c.2 0
  bad (imgNum img (o + 2) 2 != 0 || imgNum img (o + 8) 8 != 0 || bits h 480 4 != 0 || bits h 0 434 != 0) 2 dBadField ++
  bad (imgNum img (o + 4) 4 % 64 != 0) 6 dAlignment ++
  bad (!coreExists img c) 7 dCount

/-- The registers of the thread of the THREAD record at `o` at its entry: zero but for the presets. -/
def knownAt (img : List Byte) (o : Nat) : Known :=
  (List.range (imgNum img (o + 3) 1)).foldl (fun k i =>
    let c := imgNum img (o + 8 + i) 1
    let v : Word := BitVec.ofNat 64 (imgNum img (o + 16 + 8 * i) 8)
    if c < 0x20 then k.put false c (some v) else if c < 0x30 then k.put true (c - 0x20) (some v) else k)
    { s := List.replicate 32 (some 0), a := List.replicate 16 (some 0) }

/-- The known registers of every thread of a program's core, by index. -/
def knowns (img : List Byte) (p : Prog) : List (List (Nat × Known)) :=
  ((recsOf img 0x01).filter fun o => recCore img o == (p.lcl, p.lcore)).map fun o =>
    knownOf p.code (bodiesOf p.code) (imgNum img (o + 4) 2) (knownAt img o)

/-- What `f` makes of the registers at index `pc`, where every thread that comes there gives one value. -/
def oneValue (ks : List (List (Nat × Known))) (pc : Nat) (f : Known → Option Nat) : Option Nat :=
  match (ks.filterMap fun t => (t.lookup pc).map f).eraseDups with
  | [v] => v
  | _ => none

/-- The local-store offset of the handle that a DRAIN_RED reads, where the program fixes it. -/
def handleAt (ks : List (List (Nat × Known))) (pc : Nat) (w : Word) : Option Nat :=
  oneValue ks pc fun k => (k.get true (dAd w)).map BitVec.toNat

/-- The handle of a logical core's HANDLE record at a local-store offset. -/
def handleNamed (img : List Byte) (c : Nat × Nat) (off : Nat) : Option (BitVec 512) :=
  ((recsOf img 0x08).find? fun o => recCore img o == c && imgNum img (o + 4) 4 == off).map (descAt img)

/-- A DRAIN_RED is not of the wire format of the collective that a handle names. -/
def wireBad (img : List Byte) (w : Word) (h : BitVec 512) : Bool := match collRec img (hColl h) with
  | some r => clWire r != dFmt w
  | none => false

/-- DRAIN_RED: on a core with no handle; or of another wire format than its handle's, which is the one at the offset that the program
fixes, or else any of the core's. -/
def redChecks (img : List Byte) : List Reject :=
  (progsOf img).zipIdx.flatMap fun (p, i) =>
    let hs := handlesOf img (p.lcl, p.lcore)
    let ks := knowns img p
    p.code.zipIdx.flatMap fun (w, pc) =>
      let red := iClass w == 6 && iOp w == 2
      rjc (red && hs.isEmpty) 7 1 i dCount p.lcl p.lcore pc ++
      rjc (red && !hs.isEmpty && (match (handleAt ks pc w).bind (handleNamed img (p.lcl, p.lcore)) with
        | some h => wireBad img w h
        | none => hs.all (wireBad img w))) 4 1 i dFormat p.lcl p.lcore pc

/-- The counter that a SYN instruction names, and its value, where the program fixes them. -/
def synAt (ks : List (List (Nat × Known))) (pc : Nat) (w : Word) : Option Nat :=
  oneValue ks pc fun k => (k.get false (ySx w)).map fun x => (yVid w + x.toNat) % 2 ^ 20
def valueAt (ks : List (List (Nat × Known))) (pc : Nat) (w : Word) : Option Nat :=
  if ySv w = 0 then some 1 else oneValue ks pc fun k => (k.get false (ySv w)).map BitVec.toNat

/-- The slices that a DRAIN_RED's handle names: collective, group, slice. -/
def sliceKey (h : BitVec 512) : Nat × Nat × Nat := (hColl h, hGroup h, hSlice h)

/-- The slice that a word sends, where the program fixes its handle. -/
def sentSlice (img : List Byte) (p : Prog) (ks : List (List (Nat × Known))) (pc : Nat) (w : Word) : Option (Nat × Nat × Nat) :=
  if iClass w = 6 ∧ iOp w = 2 then ((handleAt ks pc w).bind (handleNamed img (p.lcl, p.lcore))).map sliceKey else none

/-- The effect of a word on the times that a slice is sent in a step: a WAIT on the step-start counter begins the next. -/
def sentEff (img : List Byte) (p : Prog) (ks : List (List (Nat × Known))) (key : Nat × Nat × Nat) (pc : Nat) (w : Word) : PathSum :=
  if iClass w = 5 ∧ iOp w = 1 ∧ hdrSteps img ∧ synAt ks pc w = some (hdrStart img) then .to 0
  else if sentSlice img p ks pc w = some key then .plus 1 else .skip

/-- The most times that the threads of a plan send a slice in one step. -/
def sentTimes (img : List Byte) (key : Nat × Nat × Nat) : Nat :=
  ((progsOf img).map fun p =>
    let ks := knowns img p
    ((entriesOf img (p.lcl, p.lcore)).map fun e => pathTop (sentEff img p ks key) p.code [e]).sum).sum

/-- Every DRAIN_RED of the plan reads a handle that the program fixes. -/
def handlesFixed (img : List Byte) : Bool :=
  (progsOf img).all fun p =>
    let ks := knowns img p
    p.code.zipIdx.all fun (w, pc) => !(iClass w == 6 && iOp w == 2) || (sentSlice img p ks pc w).isSome

/-- Slices (spec/09 R169): one that is sent twice in a step, and, where every handle is fixed, one that is never sent. -/
def sliceChecks (img : List Byte) : List Reject := each img 0x08 fun o i =>
  let c := recCore img o
  let n := sentTimes img (sliceKey (descAt img o))
  rjc (decide (1 < n) || (n == 0 && handlesFixed img)) 7 6 i dCount c.1 c.2 0

/-- PRELOAD records. -/
def preloadChecks (img : List Byte) : List Reject := each img 0x03 fun o i =>
  let c := recCore img o
  rjc (imgNum img (o + 2) 2 != 0 || imgNum img (o + 12) 4 != 0) 2 14 i dBadField c.1 c.2 0 ++
  rjc (imgNum img (o + 4) 4 % 64 != 0 || imgNum img (o + 8) 4 % 64 != 0) 6 14 i dAlignment c.1 c.2 0 ++
  rjc (!coreExists img c) 7 14 i dCount c.1 c.2 0

/-- BUFFER records. -/
def bufferChecks (img : List Byte) : List Reject := each img 0x09 fun o i =>
  let c := recCore img o
  rjc (decide (1 < imgNum img (o + 2) 1) || imgNum img (o + 3) 1 != 0 || imgNum img (o + 20) 12 != 0) 2 7 i dBadField c.1 c.2 0 ++
  rjc (imgNum img (o + 4) 4 % 64 != 0) 6 7 i dAlignment c.1 c.2 0 ++
  rjc (!coreExists img c) 7 7 i dCount c.1 c.2 0

/-- A range of the local store that a plan uses: its record's kind and item, its place, the region that it names, if any (0 operand
buffers, 1 line buffers and scratch), and the life, none for the whole plan. -/
structure LsUse where
  kind : Nat
  item : Nat
  at_  : Nat
  len  : Nat
  region : Option Nat
  life : Option (Nat × Nat)
deriving DecidableEq, Repr

/-- The ranges of a logical core (spec/03 R46; spec/13 R247). -/
def lsUses (img : List Byte) (c : Nat × Nat) : List LsUse :=
  let on := fun kind => (recs img kind).filter fun (o, _) => recCore img o == c
  ((on 0x09).map fun (o, i) =>
    { kind := 7, item := i, at_ := imgNum img (o + 4) 4, len := imgNum img (o + 8) 4,
      region := some (imgNum img (o + 2) 1), life := some (imgNum img (o + 12) 4, imgNum img (o + 16) 4) }) ++
  ((on 0x03).map fun (o, i) => { kind := 14, item := i, at_ := imgNum img (o + 4) 4, len := imgNum img (o + 8) 4, region := none, life := none }) ++
  ((on 0x04).map fun (o, i) => { kind := 2, item := i, at_ := imgNum img (o + 4) 4, len := 64, region := none, life := none }) ++
  ((on 0x08).map fun (o, i) => { kind := 6, item := i, at_ := imgNum img (o + 4) 4, len := 64, region := none, life := none }) ++
  ((on 0x04).filterMap fun (o, i) =>
    let d := descAt img o
    if isGather d then none
    else some { kind := 2, item := i, at_ := 64 * dRing d, len := (dA d + 1) * dSlot d * 64, region := none, life := none }) ++
  ((on 0x04).filterMap fun (o, i) =>
    let d := descAt img o
    if isGather d || !hasMask d then none
    else some { kind := 2, item := i, at_ := (maskRing d).1, len := (maskRing d).2, region := none, life := none })

/-- Two uses have lives that share an identifier (R242); a use without a life has none to share. -/
def liveAtOnce (a b : LsUse) : Bool := match a.life, b.life with
  | some x, some y => decide (x.1 ≤ y.2 ∧ y.1 ≤ x.2)
  | _, _ => false

/-- A range lies wholly in the operand buffers, or wholly in the line buffers and scratch region. -/
def inOperand (u : LsUse) : Bool := decide (u.at_ + u.len ≤ 0x100000)
def inLine (u : LsUse) : Bool := decide (0x1E0000 ≤ u.at_ ∧ u.at_ + u.len ≤ 0x200000)

/-- The bytes that some ranges, by rising start, cover beyond `e`. -/
def coveredFrom : Nat → List (Nat × Nat) → Nat
  | _, [] => 0
  | e, (a, len) :: rest => (a + len - max a e) + coveredFrom (max e (a + len)) rest

/-- The bytes that some uses take together: bytes that two of them share count once. -/
def bytesOf (us : List LsUse) : Nat := coveredFrom 0 ((us.map fun u => (u.at_, u.len)).mergeSort fun a b => decide (a.1 ≤ b.1))

/-- The ranges in use at operation `x`: those without a life are in use throughout. -/
def usesAt (us : List LsUse) (x : Nat) : List LsUse := us.filter fun u => match u.life with
  | some l => decide (l.1 ≤ x ∧ x ≤ l.2)
  | none => true

/-- Stage 9 of a logical core: regions, their totals with the rings of all streams (spec/12 R228, spec/07 R123: the image gives a ring no
life, so it counts throughout, DESIGN CHOICE, log entry 140), the loss-scale line, buffers that are live at once and overlap. -/
def lsChecks (img : List Byte) : List Reject :=
  ((List.range 16).flatMap fun a => (List.range 16).map fun b => (a, b)).flatMap fun c =>
    if !coreExists img c then []
    else
      let us := lsUses img c
      us.zipIdx.flatMap fun (u, i) =>
        let inside := match u.region with
          | some 0 => inOperand u
          | some _ => inLine u
          | none => inOperand u || inLine u
        let lap := (us.take i).any fun v => liveAtOnce u v && overlap (u.at_, u.len) (v.at_, v.len)
        let now := usesAt (us.take (i + 1)) ((u.life.map (·.1)).getD 0)
        let full := decide (0x100000 < bytesOf (now.filter inOperand) ∨ 0x20000 < bytesOf (now.filter inLine))
        rjc (!inside || overlap (u.at_, u.len) (0x1FFFC0, 64) || lap || full) 9 u.kind u.item dLsBudget c.1 c.2 0

/-- The operand-buffer bytes of logical core `c` in use at operation `x` (R46, R228, R247). -/
def bufferBytes (img : List Byte) (c : Nat × Nat) (x : Nat) : Nat := bytesOf ((usesAt (lsUses img c) x).filter inOperand)

/-! ### Tensors, policies, segments, fusion groups -/

/-- A tensor's fields. -/
def tnFmt (img : List Byte) (o : Nat) : Nat := imgNum img (o + 10) 1 % 16
def tnSt (img : List Byte) (o : Nat) : Nat := imgNum img (o + 10) 1 / 16 % 4
def tnRole (img : List Byte) (o : Nat) : Nat := imgNum img (o + 11) 1
def tnDims (img : List Byte) (o : Nat) : Nat := imgNum img (o + 16) 2
def tnExt (img : List Byte) (o i : Nat) : Nat := imgNum img (o + 20 + 4 * i) 4
def tnElems (img : List Byte) (o : Nat) : Nat := (List.range (tnDims img o)).foldl (fun a i => a * tnExt img o i) 1

/-- The bytes of a tensor: elements, and scales at the next 256 B boundary. -/
def tnBytes (img : List Byte) (o : Nat) : Nat :=
  let e := elemBytes (tnFmt img o) (tnElems img o)
  if tnSt img o = 1 then roundUp e 256 + tnElems img o / 32 else e

/-- The policy fields of an activation (spec/14 Table 14.1). -/
def poKind (p : BitVec 128) : Nat := bits p 125 3
def poCfg (p : BitVec 128) : Nat := bits p 119 6
def poSeg (p : BitVec 128) : Nat := bits p 104 15
def poObj (p : BitVec 128) : Nat := bits p 64 32
def poOff (p : BitVec 128) : Nat := bits p 16 48

/-- A policy record with a reserved or misplaced value. -/
def policyBad (p : BitVec 128) : Bool :=
  decide (4 < poKind p) || bits p 96 8 != 0 || bits p 0 16 != 0 || (poKind p != 3 && poCfg p != 0) || (poKind p != 4 && poSeg p != 0) ||
  ((poKind p == 0 || poKind p == 4) && poObj p != 0)

/-- TENSOR records. -/
def tensorChecks (img : List Byte) : List Reject := each img 0x0A fun o i =>
  let act := tnRole img o % 2 == 1
  let f := tnFmt img o
  let st := tnSt img o
  let kind := poKind (policyAt img o)
  rj (imgNum img (o + 10) 1 / 64 != 0 || decide (1 < st) || (act && (kind == 0 || kind == 4) && imgNum img o 4 != 0) || tnRole img o / 16 != 0 || imgNum img (o + 18) 2 != 0 ||
    imgNum img (o + 44) 4 != 0 || tnDims img o == 0 || decide (6 < tnDims img o) ||
    ((List.range 6).any fun k => (decide (k < tnDims img o)) == (tnExt img o k == 0)) ||
    (if act then policyBad (policyAt img o) else policyAt img o != 0)) 2 8 i dBadField ++
  rj (fmtReserved f) 2 8 i dFormat ++
  rj (f == 10 || (narrow f && st == 0) || (st == 1 && !scalable f) ||
    (tnRole img o / 2 % 2 == 1 && !((f == 1 || f == 2) && st == 0))) 4 8 i dFormat ++
  rj (st == 1 && tnExt img o 0 % 32 != 0) 6 8 i dAlignment

/-- KV records: their static part (spec/08 R137). -/
def kvChecks (img : List Byte) : List Reject := each img 0x07 fun o i =>
  let k := kvAt img o
  let f := kvFmt k
  rj (bits k 0 64 != 0 || bits k 72 2 == 3 || decide (1 < kvSt k) || decide (2 ^ 20 ≤ imgNum img (o + 32) 4) || imgNum img (o + 36) 4 != 0)
    2 5 i dBadField ++
  rj (fmtReserved f) 2 5 i dFormat ++
  rj (!((f == 2 && kvSt k == 0) || f == 3 || f == 4 || ((f == 7 || f == 8 || f == 9) && kvSt k == 1))) 4 5 i dFormat ++
  rj (kvHeads k == 0 || kvPool k == 0) 12 5 i dCount ++
  rj (decide (kvSlotBytes k < roundUp (kvHeads k * 2 * halfBytes k) 256)) 12 5 i dBadField

/-- COLLECTIVE records: their static part (spec/16 R309). -/
def collChecks (img : List Byte) : List Reject := each img 0x0B fun o i =>
  let r := collAt img o
  rj (bits r 160 32 != 0 || bits r 0 28 != 0 || (clKind r != 2 && clK r != 0) || (clKind r != 3 && clSrc r != 0) ||
    decide (clD r < 10 ∨ 10000000 < clD r)) 2 9 i dBadField ++
  rj (decide (10 < clWire r)) 2 9 i dFormat ++ rj (clWire r != 1 && clWire r != 2) 4 9 i dFormat ++
  rj (clOff r % 256 != 0) 6 9 i dAlignment

/-- REPLICA records: their head and their padding (Table 13.9). -/
def replicaChecks (img : List Byte) : List Reject := each img 0x0C fun o i =>
  let n := imgNum img (o + 4) 4
  rj (decide (15 < imgNum img o 1) || imgNum img (o + 1) 3 != 0 || imgNum img (o + 8) 8 != 0 ||
    imgNum img (o + 16 + 6 * n) (roundUp (6 * n) 16 - 6 * n) != 0) 2 10 i dBadField

/-- The pairs of a SEGMENT record: forward and recompute operations. -/
def segPairs (img : List Byte) (o : Nat) : List (Nat × Nat) :=
  (List.range (imgNum img (o + 4) 4)).map fun k => (imgNum img (o + 16 + 8 * k) 4, imgNum img (o + 20 + 8 * k) 4)

/-- SEGMENT records: the head, and operations that exist. -/
def segmentChecks (img : List Byte) : List Reject := each img 0x0E fun o i =>
  let ops := tilingOps img ++ layerOps img
  rj (decide (32767 < imgNum img o 2) || imgNum img (o + 2) 2 != 0 || imgNum img (o + 8) 8 != 0) 2 11 i dBadField ++
  rj ((segPairs img o).any fun p => !ops.contains p.1 || !ops.contains p.2) 7 11 i dCount

/-- The operations of a FUSION record. -/
def fusionOps (img : List Byte) (o : Nat) : List Nat := (List.range (imgNum img o 1)).map fun k => imgNum img (o + 16 + 4 * k) 4

/-- The drains of an operation. -/
def drainsOf (img : List Byte) (op : Nat) : List Word := wordsOf img op 2

/-- The logical cores that run operation `op`. -/
def opCores (img : List Byte) (op : Nat) : List (Nat × Nat) :=
  ((opMaps img).filterMap fun m => if m.op = op then ((progsOf img)[m.prog]?).map fun p => (p.lcl, p.lcore) else none).eraseDups

/-- Operation `b` may follow operation `a` in a fusion group (R241): `a` is drained to the local store, where `b` runs. -/
def chains (img : List Byte) (a b : Nat) : Bool := match tilingOf img a, tilingOf img b with
  | some x, some y =>
    (drainsOf img a).any (fun w => iOp w != 2) && (opCores img b).all (opCores img a).contains &&
    lvM (levelAt img x 2) == lvM (levelAt img y 2) && lvK (levelAt img y 0) == 4 * lvN (levelAt img x 0) &&
    decide (lvOrder (levelAt img x 2) ≤ 1) && (mmasOf img b).all fun w => !bit w 26
  | _, _ => false

/-- The bytes of the buffer of an intermediate (R242). -/
def fusedBytes (img : List Byte) (a b : Nat) : Nat := match tilingOf img a, tilingOf img b with
  | some x, some y =>
    let rows := 128 * lvM (levelAt img x 2)
    let n := 128 * lvN (levelAt img x 0)
    let d := (drainsOf img a).headD 0
    (elemBytes (dFmt d) (rows * n) + (if dSt d = 1 then rows * n / 32 else 0)) * (if lvOv (levelAt img y 2) then 2 else 1)
  | _, _ => 0

/-- The bytes of the intermediates of logical core `c` that are live at operation `x` (R242). -/
def fusedTotal (img : List Byte) (c : Nat × Nat) (x : Nat) : Nat :=
  (((recsOf img 0x0F).flatMap fun o => (fusionOps img o).zip (fusionOps img o).tail).map fun p =>
    if p.1 ≤ x ∧ x ≤ p.2 ∧ (opCores img p.1).contains c then fusedBytes img p.1 p.2 else 0).sum

/-- The operations of an intermediate's life at which what is live may be the most: its own first, and every one at which a buffer or
another intermediate begins. -/
def lifeStarts (img : List Byte) (p : Nat × Nat) : List Nat :=
  let starts := ((recsOf img 0x09).map fun o => imgNum img (o + 12) 4) ++ (recsOf img 0x0F).flatMap (fusionOps img)
  (p.1 :: starts.filter fun x => decide (p.1 ≤ x ∧ x ≤ p.2)).eraseDups

/-- FUSION records. -/
def fusionChecks (img : List Byte) : List Reject := each img 0x0F fun o i =>
  let ops := fusionOps img o
  let pairs := ops.zip ops.tail
  rj (imgNum img (o + 1) 15 != 0) 2 12 i dBadField ++
  rj (pairs.any fun p => (drainsOf img p.1).any fun w => !(floatOperand (dFmt w) (dSt w) || (isIntFmt (dFmt w) && decide (dSt w ≤ 1))))
    4 12 i dFormat ++
  rj (decide (ops.length < 2 ∨ 16 < ops.length) || pairs.any fun p => !chains img p.1 p.2) 7 12 i dCount ++
  rj (pairs.any fun p => (lifeStarts img p).any fun x => (opCores img p.1).any fun c =>
    decide (0x100000 < bufferBytes img c x + fusedTotal img c x)) 9 12 i dLsBudget

/-- Whether some program of an image holds an instruction of class `cls` whose operation is one of `ops`. -/
def anyInstr (img : List Byte) (cls : Nat) (ops : List Nat) : Bool :=
  (progsOf img).any fun p => p.code.any fun w => iClass w == cls && ops.contains (iOp w)

/-- Whether an image holds anything that a rule's open part speaks of: accumulator tiles that several threads use (R92), KV records
(R151), a block-scaled forward weight with gradients and no transposed copy (R159), a derivative drain (R162), a drain to reduce (R169),
steps (R186), accumulator tiles and slots that the loader derives (R240). -/
def openApplies (img : List Byte) (rule : Nat) : Bool :=
  if rule = 92 then (progsOf img).any fun p => (List.range 8).any fun t => !soleUser img p t
  else if rule = 151 then !(recsOf img 0x07).isEmpty && anyInstr img 5 [0]
  else if rule = 159 then
    ((recsOf img 0x0A).any fun o => tnRole img o / 4 % 2 == 1 && tnSt img o == 1) && (recsOf img 0x0A).any (fun o => tnRole img o / 2 % 2 == 1) &&
    !(recsOf img 0x0A).any fun o => tnRole img o / 8 % 2 == 1
  else if rule = 162 then (progsOf img).any fun p => p.code.any fun w => iClass w == 6 && fnDeriv (dFn w)
  else if rule = 169 then anyInstr img 6 [2] && !handlesFixed img
  else if rule = 240 then anyInstr img 1 [0, 1, 3] || anyInstr img 6 [0, 1, 2]
  else hdrSteps img

/-- The rules whose condition runs, beside what the checks above compute, over values that the programs compute at run time or over a
derivation that the spec does not give, with stage and detail. Tiles and slots have eight and four numbers, so no path occupies more
(R92). -/
def openChecks (img : List Byte) : List Reject :=
  [(92, 7, dCount), (151, 7, dCount), (159, 4, dFormat), (162, 7, dCount), (169, 7, dCount), (186, 7, dCount),
    (240, 7, dCount)].flatMap fun (rule, stage, detail) =>
    match if openApplies img rule then Config.planPath rule stage img else none with
    | some (item, pc) => match (progsOf img)[item]? with
      | some p => rjc true stage 1 item detail p.lcl p.lcore pc
      | none => rjc true stage 1 item detail 0xFF 0xFF pc
    | none => []

/-- Every failure of an image that needs no context. Stage 1 stands alone: a later stage reads the records that it admits. -/
def staticChecks (img : List Byte) (size : Nat) : List Reject := match stage1 img size with
  | [] =>
    threadChecks img ++ programChecks img ++ wordChecks img ++ pathChecks img ++ mapChecks img ++ mapCoverage img ++
    tilingChecks img ++ demandChecks img ++ layerChecks img ++ streamChecks img ++ handleChecks img ++ redChecks img ++ sliceChecks img ++
    tileChecks img ++ waitChecks img ++
    preloadChecks img ++ bufferChecks img ++ lsChecks img ++ tensorChecks img ++ kvChecks img ++ collChecks img ++
    replicaChecks img ++ segmentChecks img ++ fusionChecks img ++ openChecks img
  | l => l

end Sys2Proof.Machine
end

