-- ==== Sys2Proof/Machine/StepCmds.lean ====
section
/-! DEFINITION. STEP_BEGIN, STEP_COMMIT, the reduce units, GATHER, votes, lost members, and the update unit (spec/10; spec/16 R308 to
R315; spec/18 R344 to R347, R356). -/

namespace Sys2Proof.Machine

/-! ### STEP_BEGIN (spec/10 R177 to R179) -/

/-- A failed check: status and detail. -/
abbrev Check := Option (Nat × Nat)

/-- The GROUPS item itself. -/
def groupsCheck (s : State) (n : Nat) : Check :=
  let g := groupsItem s n
  if g.2 = 0 ∨ 4096 < g.2 ∨ !objHolds s n g.1 (128 * g.2) then some (0x0102, 0xFFFF) else none

/-- The group records, in order. -/
def recordsCheck (s : State) (n : Nat) : Check :=
  (List.range (groupsItem s n).2).findSome? fun g =>
    if !objGood s n (groupsItem s n).1 (128 * g) 128 then some (0x0500, g)
    else if recordBad s n (groupRecord s n g) then some (0x0102, g)
    else none

/-- The step-rate entry of group `g`. -/
def rateEntry (s : State) (n obj off g : Nat) : BitVec 64 := BitVec.ofNat 64 (objNum s n obj (off + 8 * g) 8)

/-- The step-rate table (R178). -/
def ratesCheck (s : State) (n obj off : Nat) : Check :=
  if off % 64 ≠ 0 ∨ (objOf s n obj).isNone then some (0x0102, 0xFFFE)
  else (List.range (groupsItem s n).2).findSome? fun g =>
    if !objHolds s n obj (off + 8 * g + 8) then some (0x0102, g)
    else if !objGood s n obj (off + 8 * g) 8 then some (0x0500, g)
    else if rateBad (rateEntry s n obj off g) then some (0x0102, g)
    else none

/-- The records of the group count. -/
def groupRecords (s : State) (n : Nat) : List (BitVec 1024) := (List.range (groupsItem s n).2).map (groupRecord s n)

/-- The checks of R179 in order: plan, open step, drained module, membership, groups, rates, privileged groups. -/
def beginCheck (s : State) (n : Nat) (c : Ctx) (w : BitVec 256) : Check :=
  let obj := bits w 224 32
  let off := bits w 192 32
  if !((c.run.map (·.steps)).getD false) then some (0x0105, 2)
  else if c.stepOpen then some (0x0105, 3)
  else if drainedNow s then some (0x0105, 1)
  else if c.lists.any fun e => e.2.selfLost && e.2.next.isNone then some (0x0402, 0)
  else (groupsCheck s n).orElse fun _ => (recordsCheck s n).orElse fun _ => (ratesCheck s n obj off).orElse fun _ =>
    (privMisfit s n (groupRecords s n)).map fun g => (0x0303, g)

/-- FP32 of S = 2^e. -/
def lossScale (e : Nat) : Nat := f32 (.fin false 1 e)

/-- The overflow-pool counts of a context become 0 (spec/14 R269). -/
def clearPool (s : State) (n : Nat) : State := match ctxOf s n with
  | some c => c.pool.foldl (fun s id => putObj s n id.toNat 0 8 0) s
  | none => s

/-- The step opens: registers, memberships, records, loss scale, satchel, GATHERs, and the step-start signal. -/
def openStep (s : State) (n : Nat) (w : BitVec 256) : State :=
  let recs := groupRecords s n
  let again := (ctxOf s n).any (·.rerun)
  let rates := (List.range recs.length).map (rateEntry s n (bits w 224 32) (bits w 192 32))
  let s1 := modCtx s n fun c =>
    let k : Word := if c.rerun then c.step else c.step + 1
    { c with step := k, stepOpen := true, aborted := none, rerun := false, commit := none, voteSent := false, stepLost := false,
             stepRaw := false, stepEvents := BitVec.ofNat 64 (k.toNat % 2 ^ 32 * 2 ^ 32 + 0xFFF00000), updEvents := [], updSums := [],
             tcdStatus := putBits c.tcdStatus 32 32 0, records := recs, rates := rates, stepDraw := s.fresh,
             lists := c.lists.map (fun e => (e.1, beginList e.2)),
             run := c.run.map fun r => { r with begun := r.begun + 1 } }
  let s2 := match ctxOf s1 n with
    | some c => { s1 with reds := s1.reds.filter fun r => r.slot.toNat != n || (r.step == c.step.setWidth 32 && !(again && (r.own.isSome || r.done))) }
    | none => s1
  let s3 := clearPool s2 n
  let s4 := match ctxOf s3 n with
    | some c => (planCores s3 n).foldl (fun s k => modCore s k fun x => { x with ls := Mem.put x.ls 0x1FFFC0 4 (lossScale (lossExp c)) }) s3
    | none => s3
  let due := satchelDue s4 n
  let s5 := startGathers (takeSatchel s4 n) n due (fun _ => true)
  match ctxOf s5 n with
  | some c => match c.run with
    | some r => signalFw s5 n r.startVid.toNat 1
    | none => s5
  | none => s5

/-- STEP_BEGIN. -/
def execStepBegin (p : Packet) (s : State) : Out := ctxCommand p 0x24 s fun n s =>
  match ctxOf s n with
  | none => s
  | some c =>
    if beginHeld s n then holdRing s p
    else if !zeroBits p 0 192 then answer s p 0x24 0x0102 0
    else match beginCheck s n c p.param with
      | some x => answerD s p 0x24 x.1 x.2
      | none =>
        let s1 := openStep s n p.param
        answer s1 p 0x24 0 (((ctxOf s1 n).map fun c => c.step.toNat % 2 ^ 16).getD 0)

/-! ### STEP_COMMIT (spec/10 R190) -/

/-- STEP_COMMIT. -/
def execStepCommit (p : Packet) (s : State) : Out := ctxCommand p 0x25 s fun n s =>
  match ctxOf s n with
  | none => s
  | some c =>
    if !zeroBits p 0 256 then answer s p 0x25 0x0102 0
    else if !c.stepOpen then answer s p 0x25 0x0105 4
    else if c.commit.isSome then answer s p 0x25 0x0105 5
    else if c.aborted.isNone && groupsFenced s n then holdRing s p
    else match c.aborted with
      | some d => answerCancelled (dropCached s fun l => l.slot.toNat == n) n p d.toNat
      | none => commitAdvance 4 (modCtx (draw s) n fun c => { c with commit := some (p, .waitSend) }) n

/-! ### Flits that units take from a port's receive buffers (spec/16 R295) -/

/-- Takes flit `f` out of port `p`'s receive buffer, whose credit is returned, or out of the router's own answers. -/
def takeRx (s : State) (p : Nat) (f : Flit) : Option State :=
  let v := (vcOf f.txn.op).toNat
  let x := portOf s p
  if x.selfBuf.contains f then some (modPort s p fun x => { x with selfBuf := x.selfBuf.erase f })
  else if (vget x.rxBuf v []).contains f then
    some (respond (modPort s p fun x =>
      { x with rxBuf := vset x.rxBuf v ((vget x.rxBuf v []).erase f), owed := vset x.owed v (vget x.owed v 0 + 1) }) p)
  else none

/-- A flit that is dropped and counted (spec/16 R297). -/
def dropFlit (s : State) : State := { s with fabDrops := s.fabDrops + 1 }

/-! ### RED_PART (spec/16 R310 to R313; spec/18 R346) -/

/-- addr and arg of VC2 flits. -/
def rpColl (h : TxnHdr) : Nat := bits h.addr 48 16
def rpGroup (h : TxnHdr) : Nat := bits h.addr 36 12
def rpSlice (h : TxnHdr) : Nat := bits h.addr 4 32
def rpCount (h : TxnHdr) : Nat := bits h.arg 48 16
def rpStep (h : TxnHdr) : Nat := bits h.arg 32 16
def rpPartial (h : TxnHdr) : Bool := bit h.arg 30
def rpRows (h : TxnHdr) : Nat := bits h.arg 23 7 + 1
def rpCols (h : TxnHdr) : Nat := bits h.arg 16 7 + 1

/-- Flits of one run. -/
def sameRun (a b : Flit) : Bool := a.txn.srcMod == b.txn.srcMod && a.txn.op == b.txn.op && a.txn.sub == b.txn.sub

/-- All flits of a run have arrived. -/
def runWhole (fs : List Flit) : Bool := fs.any fun f => f.txn.last &&
  (List.range (f.txn.fidx.toNat + 1)).all fun i => fs.any fun g => g.txn.fidx.toNat == i

/-- The data of a run. -/
def runData (fs : List Flit) : List Byte :=
  (fs.mergeSort fun a b => decide (a.txn.fidx.toNat ≤ b.txn.fidx.toNat)).flatMap (·.data)

/-- A flit joins its run at a reduction; the data, once the run is whole. -/
def joinRun (r : Reduction) (f : Flit) : Reduction × Option (List Byte) :=
  let fs := ((r.building.flatMap (·.2)).filter fun g => sameRun g f && g.txn.fidx != f.txn.fidx) ++ [f]
  let rest := r.building.filter fun b => !b.2.any (sameRun f)
  if runWhole fs then ({ r with building := rest }, some (runData fs))
  else ({ r with building := rest ++ [(f.txn.srcMod, fs)] }, none)

/-- The position of a module in a list. -/
def posOfMod (m : Members) (x : BitVec 14) : Option Nat := firstBelow m.now.length fun i => m.now[i]? == some x

/-- The flit belongs to a step that has not begun here: it waits in the receive buffer (spec/01 R14). -/
def earlyFlit (s : State) (n : Nat) (h : TxnHdr) : Bool := match ctxOf s n with
  | some c => rpStep h == (c.step.toNat + 1) % 2 ^ 16
  | none => false

/-- The slot of a flit's context. -/
def flitSlot (s : State) (h : TxnHdr) : Option Nat := slotOfIdent s h.ctx

/-- A whole partial or contribution reaches this node. -/
def takePartial (s : State) (n : Nat) (t : RedTree) (h : TxnHdr) (i : Nat) (bs : List Byte) : State :=
  let j := t.index i
  let up := liveParent t.lost 16 j
  let standIn := decide (up = 0) && t.lost 0 && t.acting == some t.me
  let r := findRed s (.fresh n (clId t.coll) (rpGroup h) (rpSlice h) t.step standIn)
  let tile := redTile t (rpRows h) (rpCols h) i (rpPartial h) bs
  if r.done ∨ rpStep h ≠ t.step.toNat % 2 ^ 16 then lateRed s n t r tile h.srcMod.toNat
  else
    let r1 := takePart r j tile (rpCount h)
    advanceRed (putRed s r1) n t r1

/-- A count-0 marker reaches this node. -/
def takeMarker (s : State) (n : Nat) (t : RedTree) (h : TxnHdr) (i : Nat) : State :=
  let j := t.index i
  let standIn := decide (liveParent t.lost 16 j = 0) && t.lost 0 && t.acting == some t.me
  let r := findRed s (.fresh n (clId t.coll) (rpGroup h) (rpSlice h) t.step standIn)
  let r1 := { r with markers := r.markers ++ [j] }
  advanceRed (putRed s r1) n t r1

/-- RED_PART. -/
def execRedPart (port : BitVec 4) (f : Flit) (s : State) : Out :=
  let h := f.txn
  if h.op ≠ 0x80 ∨ !ready s then .next s
  else match flitSlot s h with
    | none => .next ((takeRx s port.toNat f).map dropFlit |>.getD s)
    | some n =>
      if earlyFlit s n h || collFenced s n (rpColl h) then .next s
      else match takeRx s port.toNat f with
        | none => .next s
        | some s1 => match treeOf s1 n (rpColl h) (rpGroup h) (rpSlice h) with
          | none => .next (dropFlit s1)
          | some t => match posOfMod t.mem h.srcMod with
            | none => .next (dropFlit s1)
            | some i =>
              if rpCount h = 0 ∧ h.len = 0 then .next (takeMarker s1 n t h i)
              else
                let r := findRed s1 (.fresh n (rpColl h) (rpGroup h) (rpSlice h) t.step false)
                let x := joinRun r f
                let s2 := putRed s1 x.1
                match x.2 with
                | none => .next s2
                | some bs => .next (takePartial s2 n t h i bs)

/-- REDUCTION_DEADLINE: the node proceeds without the partials that are missing (R311). -/
def execReductionDeadline (slot : BitVec 6) (coll : BitVec 16) (group : BitVec 12) (slice : BitVec 32) (s : State) : Out :=
  let n := slot.toNat
  match ready s && !collFenced s n coll.toNat, treeOf s n coll.toNat group.toNat slice.toNat with
  | true, some t =>
    .next ([false, true].foldl (fun s standIn =>
      let r := findRed s (.fresh n coll.toNat group.toNat slice.toNat t.step standIn)
      if r.started && !r.done then advanceRed (completeRed s n t r true) n t { r with done := true } else s) s)
  | _, _ => .next s

/-! ### GATHER_DATA (spec/16 R315; spec/18 R347, R350) -/

/-- The words of a delivered slot's tile. -/
def slotTile (bs : List Byte) : Tile := (List.range 16384).map fun i => BitVec.ofNat 32 (ofLe ((bs.drop (4 * i)).take 4))

/-- A replica takes a result that the owner delivered (R347). -/
def takeReplica (s : State) (n : Nat) (t : RedTree) (g k : Nat) (bs : List Byte) : State :=
  signalVid (placeResult s n t g k bs (slotTile bs)) (BitVec.ofNat 8 (16 * redPort s g k)) n (clSid t.coll) 1

/-- A whole run of GATHER_DATA reaches this member. -/
def takeGather (s : State) (n : Nat) (h : TxnHdr) (bs : List Byte) : State :=
  let k := rpSlice h
  if h.sub = 1 then match treeOf s n (rpColl h) (rpGroup h) k with
    | some t => takeReplica s n t (rpGroup h) k bs
    | none => dropFlit s
  else match (collOf s n (rpColl h)).bind fun r => gatherTree s n r (if h.sub = 0 then k else 0) with
    | none => dropFlit s
    | some t =>
      if h.sub = 0 then takeSlice s n t k bs
      else match posOfMod t.mem h.srcMod with
        | none => dropFlit s
        | some o => keepBytes s n t.step o h.sub.toNat (rpGroup h) (65536 * k) bs

/-- GATHER_DATA. -/
def execGatherData (port : BitVec 4) (f : Flit) (s : State) : Out :=
  let h := f.txn
  if h.op ≠ 0x81 ∨ !ready s then .next s
  else match flitSlot s h with
    | none => .next ((takeRx s port.toNat f).map dropFlit |>.getD s)
    | some n =>
      if earlyFlit s n h || collFenced s n (rpColl h) then .next s
      else match takeRx s port.toNat f, ctxOf s n with
        | some s1, some c =>
          let r := findRed s1 (.fresh n (rpColl h) (rpGroup h) (rpSlice h) (c.step.setWidth 32) false)
          let x := joinRun r f
          let s2 := putRed s1 x.1
          match x.2 with
          | none => .next s2
          | some bs => .next (takeGather s2 n h bs)
        | _, _ => .next s

/-! ### Votes (spec/16 R313, spec/18 R344) -/

/-- An ABORT from another member: the plan ends and the step is dropped, once. -/
def remoteAbort (s : State) (n : Nat) : State := match ctxOf s n with
  | none => s
  | some c => if c.rerun then s else endPlan (dropStep s n 1) n 0x0400 1 1

/-- VOTE. -/
def execVote (v : VoteMsg) (s : State) : Out :=
  match ready s, slotOfIdent s v.ctx with
  | true, some n => match ctxOf s n with
    | none => .next s
    | some c =>
      let m := tget c.lists v.list.toNat
      let pass := fun (s : State) => match m with
        | some m => if v.down then sendDown s m v else sendUp s m v
        | none => s
      if v.abort then .next (remoteAbort (pass s) n)
      else if v.down then match c.commit with
        | some (_, .waitOutcome) => .next (if faultDue s n then settleFault (pass s) n else stepOutcome (pass s) n v)
        | _ => .next s
      else
        let s1 := modCtx s n fun c =>
          { c with votes := c.votes.filter (fun x => !(x.list == v.list && x.fromPos == v.fromPos)) ++ [v] }
        .next (voteAdvance s1 n)
  | _, _ => .next s

/-! ### Lost and leaving members (spec/18 R345, R346, R356) -/

/-- A slice of the running plan's collectives has no owner and no replica left. -/
def orphaned (s : State) (n : Nat) : Bool := match ctxOf s n with
  | none => false
  | some c => (c.colls.filter fun r => clKind r != 3).any fun r => (collGroups s n (clId r)).any fun g => match recordOf s n g with
    | none => false
    | some gr => (List.range (grSlices gr)).any fun k => match treeOf s n (clId r) g k with
      | some t => t.acting.isNone
      | none => false

/-- This node had sent its partial of a reduction to the lost module: the new parent gets a count-0 marker. -/
def sendMarker (s : State) (n : Nat) (t : RedTree) (r : Reduction) (lost : BitVec 14) : State :=
  let j := t.index t.me
  if r.done && !r.standIn && j != 0 && memberAt t.mem (t.posOf (parentOf j)) == lost then
    match partDest t j with
    | none => s
    | some (q, standIn) =>
      if standIn && q == t.me then
        let x := findRed s { Reduction.fresh n (clId t.coll) r.group.toNat r.slice.toNat t.step true with slot := r.slot }
        putRed s { x with markers := x.markers ++ [j] }
      else vc2Flits s (redPort s r.group.toNat r.slice.toNat) (memberAt t.mem q) 0x80 0 n
        (redAddr (clId t.coll) r.group.toNat r.slice.toNat) (redArg 0 t.step false (sliceRows t.rec_ r.slice.toNat)
          (sliceCols t.rec_ r.slice.toNat)) []
  else s

/-- The reductions of slot `n` re-form without the lost module (R346). -/
def reformReds (s : State) (n : Nat) (lost : BitVec 14) : State :=
  (s.reds.filter fun r => r.slot.toNat == n).foldl (fun s r => match treeOf s n r.coll.toNat r.group.toNat r.slice.toNat with
    | some t => if r.step = t.step then advanceRed (sendMarker s n t r lost) n t r else s
    | none => s) s

/-- Slot `n` has learnt that a module is lost: reductions, GATHERs and the vote re-form, and an orphaned slice aborts the step. -/
def reform (s : State) (n : Nat) (lost : BitVec 14) : State := match ctxOf s n with
  | none => s
  | some c =>
    if !c.stepOpen || c.aborted.isSome then s
    else
      let s1 := reformReds s n lost
      let s2 := startGathers s1 n false fun t => memberAt t.mem t.orig == lost
      if orphaned s2 n then endPlan s2 n 0x0400 2 2
      else
        let resend := match voteListOf c with
          | some (_, m) => match voteIndex s m with
            | some j => j != 0 && memberAt m (voteAt m (parentOf j)) == lost
            | none => false
          | none => false
        voteAdvance (modCtx s2 n fun c => { c with voteSent := c.voteSent && !resend }) n

/-- MEMBER_LOST. A repeated notice has no effect; a notice that names this module ends its plan in the context. -/
def execMemberLost (ctx : BitVec 16) (lost : BitVec 14) (s : State) : Out :=
  match ready s, slotOfIdent s ctx with
  | true, some n =>
    if s.modId = some lost then
      .next (endPlan (modCtx s n fun c =>
        { c with lists := c.lists.map fun e => (e.1, { e.2 with selfLost := e.2.selfLost || e.2.now.contains lost }) }) n 0x0402 0 0)
    else match ctxOf s n with
      | none => .next s
      | some c =>
        let known := c.lists.all fun e => (numsBelow e.2.now.length fun i => e.2.now[i]? == some lost && !e.2.excluded.contains i).isEmpty
        if known then .next s else .next (reform (excludeMember s n lost) n lost)
  | _, _ => .next s

/-- LEAVE: the module is excluded from the next STEP_BEGIN on. -/
def execLeave (ctx : BitVec 16) (leaving : BitVec 14) (s : State) : Out :=
  match slotOfIdent s ctx with
  | none => .next s
  | some n =>
    let at_ := fun (m : Members) => numsBelow m.now.length fun i => m.now[i]? == some leaving && !m.leaving.contains i
    .next (modCtx s n fun c => { c with lists := c.lists.map fun e => (e.1, { e.2 with leaving := e.2.leaving ++ at_ e.2 }) })

/-! ### The update unit (spec/10 R187, R196) -/

/-- UPDATE_UNIT_SLICE: the rule is applied to the oldest slice that has reached the port's update unit; where a hard fault has taken the
unit, the vector engines apply it with identical bits (R187). `ecc` is what the code says of the words that the update reads, and
`hard` lists the elements of the slice that depend on an uncorrectable one. The group's ratio record is written with its last slice
(R195). -/
def execUpdateUnitSlice (port : BitVec 4) (ecc : SliceEcc) (s : State) : Out :=
  match ready s, (portOf s port.toNat).updQ with
  | true, (sl, g, k, tile) :: rest =>
    let n := sl.toNat
    if groupsFenced s n then .next s else
    let s0 := modPort s port.toNat fun p => { p with updQ := rest }
    match ctxOf s0 n, recordOf s0 n g.toNat with
    | some c, some r =>
      if !c.stepOpen || c.aborted.isSome then .next s0
      else
        let const := updConst r (c.rates.getD g.toNat 0) (lossExp c) (groupStep c g.toNat + 1)
        let res := sliceResults s0 n r const (verOf c) k.toNat tile (if ecc.word = .uncorrectable then ecc.hard else [])
        let src := if (portOf s port.toNat).unitsOut then 0xFFF else 0x100 + port.toNat
        let w := putSlice s0 n r (1 - verOf c) k.toNat res.1
        let sums := unitSums s0 n g.toNat r (verOf c) k.toNat res.1
        let s1 := modCtx w.1 n fun c =>
          { c with updEvents := tput c.updEvents g.toNat ((tget c.updEvents g.toNat).getD 0 + w.2),
                   updSums := tput c.updSums g.toNat (((tget c.updSums g.toNat).getD []).filter (fun e => e.1 != k.toNat) ++ [(k.toNat, sums)]) }
        let s2 := if ecc.word = .corrected then risk (logHealth s1 1 src 0 0xFFFF 0) 1 4096 else s1
        let s3 := if unitsDone s2 n g.toNat then ratioRecord s2 n g.toNat else s2
        .next (commitAdvance 4 (if res.2 || ecc.word == .uncorrectable then dataError s3 n src k.toNat else s3) n)
    | _, _ => .next s0
  | _, _ => .next s

end Sys2Proof.Machine
end

