-- ==== Sys2Proof/Machine/LoaderCtx.lean ====
section
/-! DEFINITION. The loader's checks that need the context: placement, window rings, handle extents, objects, working objects, the stash,
collectives and replica maps (spec/13 R249, R251; spec/03 R56; and the rules that Table 13.4 names). -/

namespace Sys2Proof.Machine

/-! ### Placement (spec/03 R56) -/

/-- The cores of cluster `k` that are neither fenced nor gated, ascending. -/
def availCores (s : State) (k : Nat) : List Nat :=
  if (clusterOf s k).gated then []
  else ((List.range 16).map (16 * k + ·)).filter fun c => !(coreOf s c).fenced && !(coreOf s c).gated

/-- The clusters on which running plans of other contexts are placed. -/
def takenClusters (s : State) (n : Nat) : List Nat :=
  ((List.range 64).filter (· != n)).flatMap fun m => (planCores s m).map (· / 16)

/-- Places the logical clusters in ascending order, each on the lowest physical cluster that holds enough available cores. -/
def placePlan (s : State) (img : List Byte) (busy : List Nat) : Except Nat (List Placed) :=
  ((List.range (hdrNlcl img)).foldl (fun acc l => match acc with
    | .error e => .error e
    | .ok (used, ps) =>
      match firstBelow 16 fun k => !used.contains k && !busy.contains k && decide (hdrNcore img l ≤ (availCores s k).length) with
      | none => .error l
      | some k => .ok (k :: used, ps ++ ((availCores s k).take (hdrNcore img l)).zipIdx.map fun (c, j) =>
          { lcl := l, lcore := j, core := BitVec.ofNat 8 c }))
    (.ok ([], []) : Except Nat (List Nat × List Placed))).map (·.2)

/-- Stage 7: placement. -/
def placeChecks (s : State) (img : List Byte) (busy : List Nat) : List Reject := match placePlan s img busy with
  | .error l => [{ stage := 7, kind := 0, item := 0, detail := dCount, lcl := l, lcore := 0xFF, pc := 0 }]
  | .ok _ => []

/-! ### The space that a plan's records use -/

/-- A working object of the plan (R251); a plan in cache mode has none (R243). -/
def isWork (id : Nat) : Bool := decide (0xFFFF0000 ≤ id)
def cacheMode (img : List Byte) : Bool := hdrVer img == 0x0105

/-- The byte after the last one that a descriptor's tiles touch in its object. -/
def descEnd (s : State) (n : Nat) (img : List Byte) (d : BitVec 512) : Nat :=
  if isGather d then dBase d + 64 * ((dNrow d - 1) * dPitch d + dRowBytes d)
  else match dMode d with
    | 0 => dBase d + 64 * ((dNy d - 1) * dYs d + (dNx d - 1) * dXs d + (dRows d - 1) * dPitch d + dRowBytes d)
    | 1 => match (recsOf img 0x06)[dAux0 d]? with
      | some o =>
        let l := layerRun img o
        ((List.range (stripesPerFrame l d * l.t.out.toNat * l.batch)).flatMap fun i =>
          (if dOut d then convOutSegs img l d i else convSegs l d i).map fun r => r.1 + r.2).foldl max 0
      | none => 0
    | 2 => 0
    | _ => match codecCfg s n (dAux0 d % 64) with
      | some c => dBase d + hdrMb img * tcNf c * tcNtr c * tcNtc c * tcSlotBytes c
      | none => 0

/-- The tiles of a tensor whose frames are `nf`: the fastest extent gives the columns, and the others the rows of the frames' planes
(DEDUCED, log entry 141: R255 says the tensor's tile count, and no rule says which of its extents count frames). -/
def tensorTiles (img : List Byte) (o nf : Nat) : Nat :=
  let cols := tnExt img o 0
  nf * ceilDiv (ceilDiv (tnElems img o / cols) nf) 128 * ceilDiv cols 128

/-- The bytes of one stored instance of an activation (spec/14 R255). -/
def instBytes (s : State) (n : Nat) (img : List Byte) (o : Nat) : Nat :=
  let p := policyAt img o
  if poKind p = 3 then match codecCfg s n (poCfg p) with
    | some c => tensorTiles img o (tcNf c) * tcSlotBytes c
    | none => 0
  else match objOf s n (poObj p) with
    | some x => roundUp (tnBytes img o) (granule x.tier)
    | none => roundUp (tnBytes img o) 256

/-- The activations that are stored: KEEP_SS, OFF_RAW, OFF_CODEC. -/
def isStored (img : List Byte) (o : Nat) : Bool := tnRole img o % 2 == 1 && decide (1 ≤ poKind (policyAt img o) ∧ poKind (policyAt img o) ≤ 3)

/-- The range of M instances of a stored activation in its object. -/
def stashRange (s : State) (n : Nat) (img : List Byte) (o : Nat) : Nat × Nat :=
  (poOff (policyAt img o), hdrMb img * instBytes s n img o)

/-- The working objects of a plan, ascending, with the bytes that its tensors, streams and stash use of each. -/
def workObjs (s : State) (n : Nat) (img : List Byte) : List (Nat × Nat) :=
  if cacheMode img then []
  else
    let uses := ((recsOf img 0x0A).map fun o => (imgNum img o 4, imgNum img (o + 4) 6 + tnBytes img o)) ++
      ((recsOf img 0x04).map fun o => (dObj (descAt img o), descEnd s n img (descAt img o))) ++
      (((recsOf img 0x0A).filter (isStored img)).map fun o =>
        (poObj (policyAt img o), (stashRange s n img o).1 + (stashRange s n img o).2))
    let ids := ((uses.map (·.1)).filter isWork).eraseDups
    (ids.mergeSort (· ≤ ·)).map fun id => (id, ((uses.filter fun u => u.1 == id).map (·.2)).foldl max 1)

/-- The SCRATCH partitions of slot `n`, ascending. -/
def scratchParts (s : State) (n : Nat) : List Nat := numsBelow 16 fun p => partMode s p == 1 && partOwner s p == n

/-- A working object takes its home in the first SCRATCH partition that has room. -/
def allocWork (s : State) (n id size : Nat) : Option State :=
  ((scratchParts s n).findSome? fun p => (placeHome s 1 0 0 p size).map fun off => (p, off)).map fun (p, off) =>
    putEntry s n id { isBind := false, homeMod := modIdOf s, tier := 1, off := off, size := size, spread := 0, sgrp := 0,
                      part := BitVec.ofNat 4 p, cache := false, state := .homed, binders := [], fenced := false, mig := none }

/-- Every working object, in ascending identifier; none where one finds no room. -/
def allocWorks (s : State) (n : Nat) (ws : List (Nat × Nat)) : Option State :=
  ws.foldl (fun acc w => acc.bind fun s => allocWork s n w.1 w.2) (some s)

/-- Stage 10. -/
def sharedChecks (s : State) (n : Nat) (img : List Byte) : List Reject :=
  rj ((allocWorks s n (workObjs s n img)).isNone ||
    (cacheMode img && !(List.range 16).any fun p => partMode s p == 2)) 10 0 0 dSsBudget

/-! ### Stage 7: what needs the context's objects -/

/-- The records of a window's ring are refused (spec/08 R146). -/
def windowBad (r : BitVec 512) : Bool :=
  seqWindow r != 0 && decide (seqRing r < ceilDiv (seqWindow r) 128 + 1 ∨ seqMax r < seqRing r)

/-- A word signals the length counter of a sequence by more than 16 tokens, where the program fixes both (spec/08 R151). -/
def overAppends (s : State) (n : Nat) (img : List Byte) (pt : Nat) : Bool :=
  let lens := (List.range (nseqOf s n pt)).map fun q => seqLenSid (seqRecord s n pt q)
  (progsOf img).any fun p =>
    let ks := knowns img p
    p.code.zipIdx.any fun (w, pc) => iClass w == 5 && iOp w == 0 &&
      (match synAt ks pc w, valueAt ks pc w with
        | some sid, some v => decide (16 < v) && lens.contains sid
        | _, _ => false)

/-- A descriptor reaches beyond an object whose size is known (spec/12 R228). -/
def beyondKnown (s : State) (n : Nat) (img : List Byte) (d : BitVec 512) : Bool := match objOf s n (dObj d) with
  | some o => !o.isBind && decide (o.size < descEnd s n img d)
  | none => false

/-- A handle's extents are not those of its slice (spec/09 R167). -/
def handleExtBad (s : State) (n : Nat) (h : BitVec 512) : Bool :=
  let r := groupRecord s n (hGroup h)
  decide ((groupsItem s n).2 ≤ hGroup h) || (objOf s n (groupsItem s n).1).isNone || decide (grSlices r ≤ hSlice h) ||
  hRows h != sliceRows r (hSlice h) || hCols h != sliceCols r (hSlice h)

/-- Segment `a` runs before segment `b`: its last recompute operation has a lower identifier than the first of `b` (spec/13 R242:
identifiers increase in the order in which the operations run). -/
def runsBefore (img : List Byte) (a b : Nat) : Bool := match ((segPairs img a).map (·.2)).max?, ((segPairs img b).map (·.2)).min? with
  | some x, some y => decide (x < y)
  | _, _ => false

/-- An input of the recompute segment at `seg` that it may not have (spec/14 R259): a stored activation in BOUNDED mode, or one that no
segment produces that the plan runs earlier. -/
def segInputBad (s : State) (n : Nat) (img : List Byte) (seg o : Nat) : Bool :=
  let p := policyAt img o
  tnRole img o % 2 == 1 &&
  ((poKind p == 3 && match codecCfg s n (poCfg p) with
    | some c => tcBounded c
    | none => false) ||
   (poKind p == 4 && poSeg p != imgNum img seg 2 && !(recsOf img 0x0E).any fun x => imgNum img x 2 == poSeg p && runsBefore img x seg))

/-- The input tensors of a segment's layers. -/
def segInputs (img : List Byte) (o : Nat) : List Nat :=
  ((recsOf img 0x06).filter fun l => (segPairs img o).any fun p => p.1 == imgNum img (l + 32) 4).filterMap fun l =>
    (recsOf img 0x0A)[imgNum img (l + 36) 4]?

/-- A segment runs the operation of a TILING record, which names no input tensor. -/
def segTiled (img : List Byte) : Bool :=
  (recsOf img 0x0E).any fun o => (segPairs img o).any fun p => (tilingOps img).contains p.1

/-- Stage 7. -/
def countChecks (s : State) (n : Nat) (img : List Byte) : List Reject :=
  (each img 0x07 fun o i =>
    let pt := kvPt (kvAt img o)
    rj ((objOf s n pt).isSome && ((List.range (nseqOf s n pt)).any (fun q => windowBad (seqRecord s n pt q)) || overAppends s n img pt))
      7 5 i dCount) ++
  (each img 0x08 fun o i =>
    rjc (handleExtBad s n (descAt img o)) 7 6 i dCount (recCore img o).1 (recCore img o).2 0) ++
  (each img 0x04 fun o i =>
    rjc (beyondKnown s n img (descAt img o)) 7 2 i dCount (recCore img o).1 (recCore img o).2 0) ++
  (each img 0x0E fun o i => rj ((segInputs img o).any (segInputBad s n img o)) 7 11 i dCount) ++
  match if segTiled img then Config.planPath 259 7 img else none with
  | some (item, _) => rj true 7 11 item dCount
  | none => []

/-! ### Stage 11 (spec/14 R257) -/

/-- The stored activations, by object and then by index. -/
def storedTensors (img : List Byte) : List (Nat × Nat) :=
  ((recs img 0x0A).filter fun x => isStored img x.1).mergeSort fun a b =>
    decide (poObj (policyAt img a.1) < poObj (policyAt img b.1) ∨
      (poObj (policyAt img a.1) = poObj (policyAt img b.1) ∧ a.2 ≤ b.2))

/-- M instances of a stored activation exceed their object. -/
def stashExceeds (s : State) (n : Nat) (img : List Byte) (o : Nat) : Bool := match objOf s n (poObj (policyAt img o)) with
  | some x => !x.isBind && decide (x.size < (stashRange s n img o).1 + (stashRange s n img o).2)
  | none => false

/-- The logical cores of a plan. -/
def logCores (img : List Byte) : List (Nat × Nat) :=
  ((List.range 16).flatMap fun a => (List.range 16).map fun b => (a, b)).filter (coreExists img)

/-- The most bytes of a logical core's local store that stage 9 counted at one operation. -/
def stage9Bytes (img : List Byte) (c : Nat × Nat) : Nat :=
  let us := lsUses img c
  ((0 :: us.filterMap fun u => u.life.map (·.1)).map fun x => bytesOf (usesAt us x)).foldl max 0

/-- The first KEEP_LS tensor, by index, with which M instances of each and the buffers exceed what the cores of the plan hold together:
then some core exceeds its 1,152 KiB, whichever wrote them; none where they fit. -/
def keepExceeds (img : List Byte) : Option Nat :=
  let cs := logCores img
  let room := cs.length * 0x120000 - (cs.map (stage9Bytes img)).sum
  let ts := (recs img 0x0A).filter fun t => tnRole img t.1 % 2 == 1 && poKind (policyAt img t.1) == 0
  (ts.zipIdx.find? fun (_, i) => decide (room < ((ts.take (i + 1)).map fun t => hdrMb img * tnBytes img t.1).sum)).map (·.1.2)

/-- The first failure of stage 11: local-store instances, then object sizes, then overlaps. No record says which of a plan's cores writes
a KEEP_LS tensor: on several cores the distribution of what fits together is the loader's (log entry 65). -/
def stashChecks (s : State) (n : Nat) (img : List Byte) : List Reject :=
  let ts := storedTensors img
  let kept := (recsOf img 0x0A).any fun o => tnRole img o % 2 == 1 && poKind (policyAt img o) == 0
  match (keepExceeds img).or (if kept ∧ 1 < (logCores img).length then (Config.planPath 257 11 img).map (·.1) else none) with
  | some item => rj true 11 8 item dStash
  | none => match ts.find? fun t => stashExceeds s n img t.1 with
    | some t => rj true 11 8 t.2 dStash
    | none => match ts.zipIdx.find? fun (t, i) => (ts.take i).any fun u =>
        poObj (policyAt img u.1) == poObj (policyAt img t.1) && overlap (stashRange s n img u.1) (stashRange s n img t.1) with
      | some (t, _) => rj true 11 8 t.2 dStash
      | none => []

/-! ### Stage 12 -/

/-- An object that the plan may name: one of the context, or a working object. -/
def objNamed (s : State) (n : Nat) (img : List Byte) (id : Nat) : Bool :=
  (objOf s n id).isSome || (isWork id && !cacheMode img)

/-- An object of the context holds `len` bytes; the size of a bind entry's home is not known here. -/
def holdsBytes (s : State) (n id len : Nat) : Bool := match objOf s n id with
  | some o => o.isBind || decide (len ≤ o.size)
  | none => true

/-- A vid without translation. -/
def vidBad (s : State) (n v : Nat) : Bool := translate s n v == .unmapped

/-- The object of a policy does not match its tier, or is not known (spec/14 R256). -/
def stashBad (s : State) (n : Nat) (img : List Byte) (o : Nat) : Bool :=
  let p := policyAt img o
  isStored img o &&
  ((match objOf s n (poObj p) with
    | some x =>
      (if poKind p = 1 then x.isBind || x.tier != 1 else !x.isBind && x.tier == 1) || poOff p % granule x.tier != 0
    | none => !(isWork (poObj p) && !cacheMode img && poKind p == 1)) ||
   (poKind p == 3 && (codecCfg s n (poCfg p)).isNone))

/-- A page table or free list has its home here, in the shared store or LPDDR6 (spec/08 R137, R140). -/
def kvHome (s : State) (n id len : Nat) : Bool := match objOf s n id with
  | some o => !o.isBind && decide (o.tier.toNat ≤ 1 ∧ len ≤ o.size)
  | none => false

/-- The entries of a replica map (spec/13 Table 13.9). -/
def replicaEntries (img : List Byte) (o : Nat) : List (BitVec 16 × BitVec 16 × BitVec 16) :=
  (List.range (imgNum img (o + 4) 4)).map fun i =>
    let e := fun j => BitVec.ofNat 16 (imgNum img (o + 16 + 6 * i + 2 * j) 2)
    (e 0, e 1, e 2)

/-- A map entry at or beyond n, naming its own position, or repeated in it (spec/18 R347). -/
def replicaBad (img : List Byte) (o : Nat) : Bool :=
  let n := imgNum img (o + 4) 4
  (replicaEntries img o).zipIdx.any fun (e, i) =>
    let xs := [e.1, e.2.1, e.2.2].filter (· != 0xFFFF)
    xs.any (fun x => decide (n ≤ x.toNat) || x.toNat == i) || xs.eraseDups.length != xs.length

/-- Stage 12. -/
def contextChecks (s : State) (n : Nat) (img : List Byte) : List Reject :=
  let lists := match ctxOf s n with
    | some c => c.lists
    | none => []
  rj (hdrSteps img && [hdrStart img, hdrSend img, hdrEnd img].any (vidBad s n)) 12 0 0 dBadField ++
  (each img 0x0A fun o i =>
    let id := imgNum img o 4
    rj ((id != 0 && (!objNamed s n img id || !holdsBytes s n id (imgNum img (o + 4) 6 + tnBytes img o))) || stashBad s n img o)
      12 8 i dBadField) ++
  (each img 0x04 fun o i =>
    let d := descAt img o
    rjc (!objNamed s n img (dObj d) || (!isGather d && ([dDone d, dFree d].any (vidBad s n) || (dEnd d != 0 && vidBad s n (dEnd d)) ||
      (dMode d == 3 && (codecCfg s n (dAux0 d)).isNone)))) 12 2 i dBadField (recCore img o).1 (recCore img o).2 0) ++
  (eachWord img fun i p pc w =>
    rjc (iClass w == 7 && (codecCfg s n (xCfg w).toNat).isNone) 12 1 i dBadField p.lcl p.lcore pc) ++
  (each img 0x07 fun o i =>
    let k := kvAt img o
    rj (!kvHome s n (kvPt k) 64 || !kvHome s n (kvFl k) (4 * kvPool k) || !objNamed s n img (kvObj k) ||
      !holdsBytes s n (kvObj k) (kvPool k * kvSlotBytes k) ||
      [kvTake k, kvRet k, imgNum img (o + 32) 4 % 2 ^ 20].any (vidBad s n)) 12 5 i dBadField) ++
  (each img 0x0B fun o i =>
    let r := collAt img o
    let m := tget lists (clList r)
    rj (decide (1 < (((recsOf img 0x0B).map (collAt img)).filter fun x => clId x == clId r).length) || m.isNone ||
      !objNamed s n img (clDst r) || (clKind r == 3 && !objNamed s n img (clSrc r)) || vidBad s n (clSid r)) 12 9 i dBadField ++
    rj (clKind r == 2 && (clK r == 0 || decide (16 < clK r) || match m with
      | some x => decide (512 < x.now.length)
      | none => false)) 12 9 i dCount) ++
  each img 0x0C fun o i => rj (replicaBad img o) 12 10 i dBadField

/-! ### The verdict (R249, R251) -/

/-- The checks of stages 7 to 12 that judge the state. -/
def stateChecks (s : State) (n : Nat) (img : List Byte) (busy : List Nat) : List Reject :=
  placeChecks s img busy ++ countChecks s n img ++ sharedChecks s n img ++ stashChecks s n img ++ contextChecks s n img

/-- The first failure of an image at PLAN_LOAD or PLAN_VERIFY. -/
def verdict (s : State) (n : Nat) (img : List Byte) (size : Nat) : Option Reject :=
  let st := staticChecks img size
  firstReject (if stage1 img size = [] then st ++ stateChecks s n img [] else st)

/-- What the verdict of stages 7 to 12 rests on (R251). -/
def judgedNow (s : State) (n : Nat) : Judged :=
  { cfg := cfgOf s, fences := numsBelow 256 fun c => (coreOf s c).fenced,
    objs := match ctxOf s n with
      | some c => c.objs
      | none => [],
    held := (occupied s 1).filter fun r => (scratchParts s n).any fun p => overlap r (p * (96 * 2 ^ 20), 96 * 2 ^ 20) }

/-- The first failure at PLAN_START: placement always; stages 7 to 12 where what they rest on has changed. -/
def startVerdict (s : State) (n : Nat) (p : Plan) : Option Reject :=
  let busy := takenClusters s n
  if p.judged = judgedNow s n then firstReject (placeChecks s p.image busy)
  else firstReject ((staticChecks p.image p.image.length).filter (fun r => decide (7 ≤ r.stage)) ++ stateChecks s n p.image busy)

/-- The rejection record (spec/13 Table 13.6). -/
def rejectRecord (s : State) (r : Option Reject) : Nat :=
  let x := r.getD { stage := 0, kind := 0, item := 0, detail := 0, lcl := 0xFF, lcore := 0xFF, pc := 0 }
  pack [(355, 0), (13, x.pc), (8, x.lcore), (8, x.lcl), (32, x.item), (4, 0), (4, x.kind), (8, x.stage), (16, x.detail),
    (64, s.postmark.toNat)]

end Sys2Proof.Machine
end

