-- ==== Sys2Proof/Machine/PlanCmds.lean ====
section
/-! DEFINITION. PLAN_LOAD, PLAN_VERIFY, PLAN_START, PLAN_CANCEL and the end of a plan (spec/13 R247 to R254). -/

namespace Sys2Proof.Machine

/-! ### Loading and verifying (R248 to R250) -/

/-- The parameters of Table 13.3. -/
def plObj (w : BitVec 256) : Nat := bits w 224 32
def plOff (w : BitVec 256) : Nat := bits w 176 48
def plSize (w : BitVec 256) : Nat := bits w 144 32
def plNum (w : BitVec 256) : Nat := bits w 140 4
def plRec (w : BitVec 256) : Nat := bits w 64 64

/-- The parameters are refused, or the object does not hold the image. -/
def loadBad (s : State) (n : Nat) (p : Packet) : Bool :=
  let w := p.param
  !zeroBits p 0 64 || !zeroBits p 128 12 || plRec w % 64 != 0 || plOff w % 4096 != 0 || plSize w == 0 ||
  decide (67108864 < plSize w) || (readObjAt s n (plObj w) (plOff w) (plSize w)).isNone

/-- The record of a verdict goes to rec_addr, 0 for none. -/
def putRecord (s : State) (w : BitVec 256) (r : Option Reject) : State :=
  if plRec w = 0 then s else hostRecord s (plRec w) (leBytes 64 (rejectRecord s r))

/-- Verifies the image that a packet names: BAD_FIELD, RESOURCE_BUSY, DATA_ERROR, PLAN_REJECTED, or `ok` on the image. -/
def verifyPlan (p : Packet) (op : Nat) (s : State) (n : Nat) (busy : Bool) (ok : State → List Byte → State) : State :=
  let w := p.param
  if loadBad s n p then answer s p op 0x0102 0
  else if busy then answer s p op 0x0300 0
  else match readObjAt s n (plObj w) (plOff w) (plSize w) with
    | none => answer s p op 0x0102 0
    | some rd =>
      if !rd.bad.isEmpty then answer s p op 0x0500 0
      else
        let v := verdict s n rd.bytes (plSize w)
        let s1 := putRecord s w v
        match v with
        | some r => answer s1 p op 0x0200 r.detail
        | none => ok s1 rd.bytes

/-- The number of the running plan of slot `n`. -/
def runNumber (s : State) (n : Nat) : Option Nat := match ctxOf s n with
  | some c => c.run.map (·.number.toNat)
  | none => none

/-- PLAN_LOAD. -/
def execPlanLoad (p : Packet) (s : State) : Out := ctxCommand p 0x20 s fun n s =>
  verifyPlan p 0x20 s n (runNumber s n == some (plNum p.param)) fun s1 img =>
    answer (modCtx s1 n fun c =>
      { c with plans := tput c.plans (plNum p.param) { image := img, digest := hdrDigest img, judged := judgedNow s n } })
      p 0x20 0 (plNum p.param)

/-- PLAN_VERIFY. -/
def execPlanVerify (p : Packet) (s : State) : Out := ctxCommand p 0x21 s fun n s =>
  verifyPlan p 0x21 s n false fun s1 _ => answer s1 p 0x21 0 0

/-! ### Starting a plan (R247, R252) -/

/-- A preset register of a thread (spec/13 Table 13.10). -/
def presetReg (t : Thread) (code : Nat) (v : Nat) : Thread :=
  if code = 0x30 then { t with rtag := BitVec.ofNat 32 v }
  else if 0x20 ≤ code then { t with a := vset t.a (code - 0x20) (BitVec.ofNat 32 v) }
  else setS t code (BitVec.ofNat 64 v)

/-- The thread of the THREAD record at `o` as it is dispatched: registers zero but for the presets (spec/03 R48). -/
def dispatched (img : List Byte) (o : Nat) : Thread :=
  (List.range (imgNum img (o + 3) 1)).foldl (fun t i => presetReg t (imgNum img (o + 8 + i) 1) (imgNum img (o + 16 + 8 * i) 8))
    { Thread.init with state := .ready, pc := BitVec.ofNat 13 (imgNum img (o + 4) 2) }

/-- The threads of a logical core. -/
def coreThreads (img : List Byte) (c : Nat × Nat) : Vector Thread 32 :=
  ((recsOf img 0x01).filter fun o => recCore img o == c).foldl (fun v o => vset v (imgNum img (o + 2) 1) (dispatched img o))
    (.replicate 32 .init)

/-- The bytes that PRELOAD, STREAM and HANDLE records give a logical core, each with its place. -/
def coreData (img : List Byte) (c : Nat × Nat) : List (Nat × List Byte) :=
  let on := fun kind => (recsOf img kind).filter fun o => recCore img o == c
  ((on 0x03).map fun o => (imgNum img (o + 4) 4, (img.drop (o + 16)).take (imgNum img (o + 8) 4))) ++
  ((on 0x04 ++ on 0x08).map fun o => (imgNum img (o + 4) 4, (img.drop (o + 16)).take 64))

/-- The pcs of the unwatched drains of a logical core (spec/13 R247). -/
def unwatchedPcs (img : List Byte) (c : Nat × Nat) : List (BitVec 13) :=
  (opMaps img).filterMap fun m => match (progsOf img)[m.prog]? with
    | some p => if (p.lcl, p.lcore) = c ∧ m.role = 2 ∧ m.watch % 2 = 0 then some (BitVec.ofNat 13 m.pc) else none
    | none => none

/-- The program of a logical core. -/
def coreProg (img : List Byte) (c : Nat × Nat) : List Word :=
  (((progsOf img).find? fun p => (p.lcl, p.lcore) == c).map (·.code)).getD []

/-- A core as the plan finds it: accumulator tiles and spill slots +0 (spec/05 R93), preloaded data, program, threads. -/
def setupCore (s : State) (n : Nat) (img : List Byte) (p : Placed) : State :=
  let c := (p.lcl, p.lcore)
  modCore s p.core.toNat fun x =>
    { x with ls := (coreData img c).foldl (fun m d => Mem.write m d.1 d.2) (Mem.zero x.ls 0x100000 0xE0000), accInt := 0,
             prog := coreProg img c, threads := coreThreads img c, slot := some (BitVec.ofNat 6 n),
             lastSlot := some (BitVec.ofNat 6 n),
             unwatched := unwatchedPcs img c }

/-- The replica maps of an image, by membership list. -/
def replicaMaps (img : List Byte) : Table (List (BitVec 16 × BitVec 16 × BitVec 16)) :=
  (recsOf img 0x0C).foldl (fun t o => tput t (imgNum img o 1) (replicaEntries img o)) []

/-- The running plan as PLAN_START makes it. -/
def newRun (p : Packet) (img : List Byte) (ps : List Placed) (ws : List (Nat × Nat)) : Running :=
  { number := BitVec.ofNat 4 (bits p.param 252 4), pkt := p,
    seed := if bit p.param 251 then BitVec.ofNat 64 (bits p.param 128 64) else hdrSeed img, steps := hdrSteps img,
    startVid := BitVec.ofNat 20 (hdrStart img), sendVid := BitVec.ofNat 20 (hdrSend img), endVid := BitVec.ofNat 20 (hdrEnd img),
    placed := ps, working := ws.map (·.1), begun := 0, rawFallback := false, tableChanged := false, ending := none, fault := none,
    cancelPkts := [] }

/-- The plan starts: its objects, collectives, replica maps and KV descriptors are registered, and its cores are set up. A plan
without steps takes the group records now (spec/09 R168) and sets the overflow-pool counts (spec/14 R269). -/
def startPlan (s : State) (n : Nat) (p : Packet) (img : List Byte) (ps : List Placed) (ws : List (Nat × Nat)) : State :=
  let recs := if hdrSteps img then none else some (groupRecords s n)
  let s1 := modCtx s n fun c =>
    { c with run := some (newRun p img ps ws), colls := (recsOf img 0x0B).map (collAt img), replicas := replicaMaps img,
             kvDescs := (recsOf img 0x07).map (fun o =>
               (kvAt img o, BitVec.ofNat 20 (imgNum img (o + 32) 4), BitVec.ofNat 64 (imgNum img (o + 40) 8))),
             records := recs.getD c.records }
  let s2 := ps.foldl (fun s x => setupCore s n img x) s1
  wakePower (draw (if hdrSteps img then s2 else clearPool s2 n))

/-- PLAN_START. Its receipt is written when the plan ends. -/
def execPlanStart (p : Packet) (s : State) : Out := ctxCommand p 0x22 s fun n s =>
  let w := p.param
  match ctxOf s n with
  | none => s
  | some c =>
    if stepHeld s n then holdRing s p
    else if !zeroBits p 0 128 || !zeroBits p 192 59 || (!bit w 251 && !zeroBits p 128 64) then answer s p 0x22 0x0102 0
    else match tget c.plans (bits w 252 4) with
      | none => answer s p 0x22 0x0102 0
      | some pl =>
        if c.run.isSome then answer s p 0x22 0x0300 0
        else if drainedNow s then answer s p 0x22 0x0105 1
        else match startVerdict s n pl with
          | some r => answer s p 0x22 0x0200 r.detail
          | none =>
            let ws := workObjs s n pl.image
            let judged := judgedNow s n
            match placePlan s pl.image (takenClusters s n), allocWorks s n ws with
            | .ok ps, some s1 =>
              startPlan (modCtx s1 n fun c => { c with plans := tput c.plans (bits w 252 4) { pl with judged := judged } })
                n p pl.image ps ws
            | .error _, _ => answer s p 0x22 0x0200 dCount
            | _, none => answer s p 0x22 0x0200 dSsBudget

/-! ### Cancelling and ending (R253, R254) -/

/-- PLAN_CANCEL. Its receipt follows that of PLAN_START. -/
def execPlanCancel (p : Packet) (s : State) : Out := ctxCommand p 0x23 s fun n s =>
  match ctxOf s n with
  | none => s
  | some c =>
    if !zeroBits p 0 256 then answer s p 0x23 0x0102 0
    else if c.run.isNone then answer s p 0x23 0 1
    else modCtx (endPlan (draw s) n 0x0400 0 0) n fun c =>
      { c with run := c.run.map fun r => { r with cancelPkts := r.cancelPkts ++ [p] } }

/-- A core has no instruction queued or running, no thread left and no stream that is not FREE. -/
def coreDone (c : Core) : Bool :=
  c.matQ.isEmpty && c.vecQ.isEmpty && c.strQ.isEmpty && c.drnQ.isEmpty && c.synQ.isEmpty && c.tcdQ.isEmpty && c.running.isEmpty &&
  c.threads.toList.all (fun t => t.state == .idle || t.state == .halted) && c.streams.toList.all fun x => x.state == .free

/-- A codec direction holds a job of slot `n`. -/
def laneHas (n : Nat) (l : CodecLane) : Bool := (l.queue ++ l.running.toList).any fun j => j.slot.toNat == n

/-- Every thread, stream, GATHER, Kid job, codec job and outbound transfer of slot `n`'s plan is complete. -/
def planDone (s : State) (n : Nat) (r : Running) : Bool :=
  r.placed.all (fun p => coreDone (coreOf s p.core.toNat)) &&
  s.clusters.toList.all (fun k => !(k.kidQ ++ k.kidRun.toList).any (fun j => j.slot.toNat == n) && !laneHas n k.enc && !laneHas n k.dec) &&
  !(s.txns.any fun t => t.slot.toNat == n) && !s.sendWait.any fun t => t.slot.toNat == n

/-- The firmware reclaims a core: threads IDLE with registers zero, no program (spec/03 R48). -/
def reclaimCore (c : Core) : Core :=
  { c with threads := .replicate 32 .init, prog := [], slot := none, unwatched := [], tags := 0 }

/-- The status and detail of the PLAN_START receipt. -/
def planStatus (r : Running) : Nat × Nat := match r.ending with
  | some e => (e.status.toNat, e.detail.toNat)
  | none => (if !r.steps && r.rawFallback then 2 else 0, if r.tableChanged then 0x0503 else 0)

/-- The waits of core `c`'s threads end: entries, and WAITs still on their way. -/
def dropWaits (s : State) (c : Nat) : State :=
  let s1 := dropThreadWaiters s c
  { s1 with syncQ := s1.syncQ.map fun q => q.filter fun r => match r.src with
      | .thread core _ _ _ _ _ => !(r.op == .wait && core.toNat == c)
      | _ => true }

/-- The plan of slot `n` is over: an open pass ends with it (spec/08 R155), cores are reclaimed, working objects are freed, the receipts are written, and an open step's
STEP_COMMIT goes on without a plan. The KV descriptors stay while pages are still owed (spec/08 R148). -/
def finishPlan (s0 : State) (n : Nat) (r0 : Running) : State :=
  let s := if openPasses s0 n then endPass s0 n else s0
  let r := ((ctxOf s n).bind (·.run)).getD r0
  let s1 := r.placed.foldl (fun s p => dropWaits (modCore s p.core.toNat reclaimCore) p.core.toNat) s
  let s2 := modCtx s1 n fun c =>
    { c with run := none, objs := c.objs.filter (fun e => !r.working.contains e.1),
             kvDescs := if c.retTickets = [] then [] else c.kvDescs }
  let s3 := answer s2 r.pkt 0x22 (planStatus r).1 (planStatus r).2
  commitAdvance 4 (r.cancelPkts.foldl (fun s p => answer s p 0x23 0 0) s3) n

end Sys2Proof.Machine
end

