-- ==== Sys2Proof/Machine/SyncCmds.lean ====
section
/-! DEFINITION. The host's counter commands (spec/17 R335 to R338). -/

namespace Sys2Proof.Machine

/-- The fields of Table 17.5. -/
def saVbase (w : BitVec 256) : Nat := bits w 236 20
def saCount (w : BitVec 256) : Nat := bits w 223 13
def saCluster (w : BitVec 256) : Nat := bits w 218 5
def saRemote (w : BitVec 256) : Bool := bit w 217
def saMod (w : BitVec 256) : BitVec 14 := BitVec.ofNat 14 (bits w 203 14)
def saLeased (w : BitVec 256) : Bool := bit w 202
def saOwner (w : BitVec 256) : Nat := bits w 193 9
def saInit (w : BitVec 256) : Word := BitVec.ofNat 64 (bits w 129 64)

/-- The ranges of slot `n` in a set, and the range of virtual identifiers of an entry. -/
def rangesOf (c : ConfigSet) (n : Nat) : Table (BitVec 64) := vget c.sync n []
def vidRange (e : BitVec 64) : Nat × Nat := (rngBase e, rngCount e)

/-- A sync range entry (spec/17 Table 17.1). -/
def rangeEntry (vbase count : Nat) (remote : Bool) (m : BitVec 14) (pbase : Nat) : BitVec 64 :=
  BitVec.ofNat 64 (pack [(16, pbase), (14, m.toNat), (1, b2n remote), (13, count), (20, vbase)])

/-- The least index that a table does not use. -/
def freeIndex {α : Type} (t : Table α) (n : Nat) : Option Nat := firstBelow n fun i => (tget t i).isNone

/-- A set with a range added for slot `n`. -/
def addRange (c : ConfigSet) (n : Nat) (e : BitVec 64) : ConfigSet :=
  { c with sync := vset c.sync n (tput (rangesOf c n) ((freeIndex (rangesOf c n) 256).getD 0) e) }

/-- A set without the range of slot `n` that starts at `vbase`. -/
def dropRange (c : ConfigSet) (n vbase : Nat) : ConfigSet :=
  { c with sync := vset c.sync n ((rangesOf c n).filter fun e => rngBase e.2 != vbase) }

/-- A run of `count` free counters in cluster `k` (spec/17 R335). -/
def freeRun (s : State) (k count : Nat) : Option Nat :=
  let used := (s.counters.filter fun e => e.1 / 4096 == k).map fun e => e.1 % 4096
  let ok := fun i => decide (i + count ≤ 4096) && !used.any fun u => decide (i ≤ u ∧ u < i + count)
  ([0] ++ used.map (· + 1)).filter ok |>.min?

/-- The cluster and first index of the run that SYNC_ALLOC takes. -/
def chooseRun (s : State) (cluster count : Nat) : Option Nat :=
  if cluster < 16 then (freeRun s cluster count).map (· + 4096 * cluster)
  else (List.range 16).findSome? fun k =>
    if (clusterOf s k).syncFenced || (clusterOf s k).gated then none else (freeRun s k count).map (· + 4096 * k)

/-- The state of a counter that is allocated or revived for slot `n` (spec/17 Table 17.4). -/
def freshState (s : State) (n : Nat) : CounterState := match ctxOf s n with
  | some c => if c.preempted then .frozen else .live
  | none => .live

/-- SYNC_ALLOC. -/
def execSyncAlloc (p : Packet) (s : State) : Out := ctxCommand p 0x40 s fun n s =>
  let w := p.param
  let v := (saVbase w, saCount w)
  let clash := ((rangesOf (cfgOf s) n) ++ (rangesOf (shadowOf s) n)).any fun e => overlap v (vidRange e.2)
  if !zeroBits p 0 129 ∨ 16 < saCluster w ∨ 0x100 < saOwner w ∨ (!saRemote w ∧ saMod w ≠ 0) ∨ saCount w = 0 ∨ 4096 < saCount w ∨
      2 ^ 20 < saVbase w + saCount w ∨ clash ∨ (saRemote w ∧ saMod w = modIdOf s) ∨
      (saOwner w < 0x100 ∧ (coreOf s (saOwner w)).fenced) then answer s p 0x40 0x0102 0
  else if !saRemote w ∧ saCluster w < 16 ∧ (clusterOf s (saCluster w)).syncFenced then answer s p 0x40 0x0105 0
  else if (freeIndex (rangesOf (cfgOf s) n) 256).isNone ∨ (freeIndex (rangesOf (shadowOf s) n) 256).isNone then
    answer s p 0x40 0x0303 0
  else if saRemote w then
    answer (modBothSets s fun c => addRange c n (rangeEntry (saVbase w) (saCount w) true (saMod w) 0)) p 0x40 0 0
  else match chooseRun s (saCluster w) (saCount w) with
    | none => answer s p 0x40 0x0303 0
    | some pid =>
      let k : Counter := { count := saInit w, state := freshState s n, leased := saLeased w, owner := BitVec.ofNat 9 (saOwner w),
                           slot := BitVec.ofNat 6 n, last := s.postmark, added := 0 }
      let s1 := (List.range (saCount w)).foldl (fun s i => setCounter s (pid + i) k) s
      answer (modBothSets s1 fun c => addRange c n (rangeEntry (saVbase w) (saCount w) false 0 pid)) p 0x40 0 pid

/-- SYNC_SET with one of its four ops (spec/17 R336): at once, at the counter's home. -/
def syncSet (p : Packet) (code : Nat) (s : State) (f : State → BitVec 16 → Word → Option State) : Out :=
  ctxCommand p 0x41 s fun n s =>
    if bits p.param 234 2 ≠ code then s
    else if !zeroBits p 0 170 then answer s p 0x41 0x0102 0
    else match translate s n (bits p.param 236 20) with
      | .here pid => match f s pid (BitVec.ofNat 64 (bits p.param 170 64)) with
        | some s1 => answer s1 p 0x41 0 0
        | none => answer s p 0x41 0x0105 0
      | _ => answer s p 0x41 0x0102 0

/-- The operation that the firmware asks of a counter for the context of a packet. -/
def fwReq (p : Packet) (op : SyncOp) (s : State) (pid : BitVec 16) (v : Word) : SyncReq :=
  { pid := pid, slot := BitVec.ofNat 6 ((pktSlot s p).getD 0), op := op, value := v, src := .firmware }

/-- A firmware operation on a counter of the packet's context. -/
def fwSync (p : Packet) (op : SyncOp) (s : State) (pid : BitVec 16) (v : Word) : Option State :=
  applySync (applyWaiting s pid) (fwReq p op s pid v)

/-- SYNC_SET, op SET. -/
def execSyncSetSet (p : Packet) (s : State) : Out := syncSet p 0 s (fwSync p .set)

/-- SYNC_SET, op SIGNAL. -/
def execSyncSetSignal (p : Packet) (s : State) : Out := syncSet p 1 s (fwSync p .signal)

/-- SYNC_SET, op POISON. -/
def execSyncSetPoison (p : Packet) (s : State) : Out := syncSet p 2 s (fwSync p .poison)

/-- SYNC_SET, op REVIVE (spec/17 Table 17.4): NOT_PERMITTED in a fenced cluster (R333). -/
def execSyncSetRevive (p : Packet) (s : State) : Out := syncSet p 3 s fun s0 pid v =>
  let s := applyWaiting s0 pid
  match counterOf s pid.toNat with
  | none => some s
  | some c =>
    if c.state ≠ .poisoned then applySync s (fwReq p .set s pid v)
    else if (clusterOf s (pidCluster pid)).syncFenced then none
    else some (setCounter s pid.toNat { c with count := v, state := freshState s c.slot.toNat, last := s.postmark })

/-- The virtual identifiers that an image names: its step counters, streams, KV records, collectives and SYN instructions. -/
def imageVids (img : List Byte) : List Nat :=
  (if hdrSteps img then [hdrStart img % 2 ^ 20, hdrSend img % 2 ^ 20, hdrEnd img % 2 ^ 20] else []) ++
  ((recsOf img 0x04).flatMap fun o => [dDone (descAt img o), dFree (descAt img o), dEnd (descAt img o)]) ++
  ((recsOf img 0x07).flatMap fun o => [bits (kvAt img o) 172 20, bits (kvAt img o) 152 20, imgNum img (o + 32) 4 % 2 ^ 20]) ++
  ((recsOf img 0x0B).map fun o => bits (collAt img o) 60 20) ++
  ((progsOf img).flatMap fun g => (g.code.filter fun w => bits w 60 4 == 5).map fun w => bits w 27 20)

/-- The counters that a video job signals: done_sid of its packet (spec/15 Tables 15.3 and 15.7), 0 for none. -/
def videoSid (p : Packet) : Nat := bits p.param 12 20

/-- Something names a counter of the range (spec/17 R337). -/
def rangeBusy (s : State) (n vbase count pbase : Nat) : Bool :=
  let inV := fun v => decide (vbase ≤ v ∧ v < vbase + count)
  let inP := fun (q : BitVec 16) => decide (pbase ≤ q.toNat ∧ q.toNat < pbase + count)
  (s.waiters.any fun w => inP w.pid) || (s.leases.toList.any fun l => l.any fun e => inP e.pid && e.holder.isSome) ||
  (s.cores.toList.any fun c => c.slot == some (BitVec.ofNat 6 n) && c.streams.toList.any fun x =>
    x.state != .free && (inV (dDone x.keep) || inV (dFree x.keep) || (dEnd x.keep != 0 && inV (dEnd x.keep)))) ||
  (s.clusters.toList.any fun k => !k.walks.isEmpty && k.walks.any fun w => w.slot.toNat == n &&
    (kvDescsOf s n).any fun d => inV (kvTake d) || inV (kvRet d)) ||
  ((s.pipes.toList.flatMap fun v => v.queue ++ v.running.toList) ++ s.videoAny ++ s.videoStopped.map (·.2)).any
    (fun j => j.slot.toNat == n && videoSid j.pkt != 0 && inV (videoSid j.pkt)) ||
  (match ctxOf s n with
    | some c => c.run.isSome && (imageVids (runImage c)).any inV
    | none => false)

/-- Frees counters `pbase` to `pbase + count − 1` with their leases and returns. -/
def freeCounters (s : State) (own : Nat → Bool) : State :=
  { s with counters := s.counters.filter fun e => !own e.1,
           leases := s.leases.map fun l => l.filter fun e => !own e.pid.toNat }

/-- SYNC_RELEASE. -/
def execSyncRelease (p : Packet) (s : State) : Out := ctxCommand p 0x43 s fun n s =>
  let vbase := bits p.param 236 20
  let count := bits p.param 223 13
  match (rangesOf (cfgOf s) n).find? fun e => rngBase e.2 == vbase && rngCount e.2 == count with
  | none => answer s p 0x43 0x0102 0
  | some e =>
    if !zeroBits p 0 223 then answer s p 0x43 0x0102 0
    else if !rngRemote e.2 ∧ rangeBusy s n vbase count (rngPid e.2) then answer s p 0x43 0x0300 0
    else
      let s1 := if rngRemote e.2 then s else freeCounters s fun q => decide (rngPid e.2 ≤ q ∧ q < rngPid e.2 + count)
      answer (modBothSets s1 fun c => dropRange c n vbase) p 0x43 0 0

/-! ### SYNC_DUMP (spec/17 R338, Tables 17.7 to 17.9) -/

/-- The target of a waiter: a stream waits for its next tile's count (spec/12 R229). -/
def waiterTarget (s : State) (w : Waiter) : Word := match w.kind with
  | .stream core k =>
    let x := streamOf (coreOf s core.toNat) k.toNat
    let a := bits x.keep 180 3 + 1
    x.f0 + BitVec.ofNat 64 (if bit x.keep 179 then x.next + 1 else x.next - a)
  | _ => w.target

/-- The waiter record. -/
def waiterRecord (s : State) (w : Waiter) : Nat :=
  let left := match w.timeout with
    | none => 0xFFFFFFFF
    | some t => ceilDiv (t - (s.postmark - w.since).toNat) 1024
  let k := match w.kind with
    | .thread core t _ _ _ => (0, core.toNat, t.toNat)
    | .stream core x => (1, core.toNat, x.toNat)
    | .walker x => (2, x.core.toNat / 16 * 16, 0)
    | .firmware _ => (3, 0, 0)
  pack [(64, 0), (64, w.since.toNat), (32, left), (64, (waiterTarget s w).toNat), (16, 0), (5, k.2.2), (8, k.2.1), (3, k.1)]

/-- The counter record. -/
def counterRecord (s : State) (vid pid : Nat) (c : Counter) (ws : List Waiter) : Nat :=
  let q : BitVec 16 := BitVec.ofNat 16 pid
  let l := (leasesOf s q).filter fun e => e.pid == q
  pack [(208, 0), (64, c.last.toNat), (64, ((ws.map fun w => (waiterTarget s w).toNat).min?).getD (2 ^ 64 - 1)),
    (16, (l.filter fun e => e.holder.isNone).length), (16, (l.filter fun e => e.holder.isSome).length), (16, ws.length),
    (16, maskOf 16 fun k => ws.any fun w => w.cluster.toNat == k), (9, c.owner.toNat), (1, b2n c.leased),
    (2, match c.state with
      | .live => 0
      | .frozen => 1
      | .poisoned => 2), (16, pid), (20, vid), (64, c.count.toNat)]

/-- What a dump has written so far: bytes, counter and waiter records, and whether it stopped. -/
structure Dump where
  bytes : List Byte
  ncnt  : Nat
  nwait : Nat
  trunc : Bool
deriving DecidableEq, Repr

/-- One more record, if it fits under `cap`. -/
def dumpRecord (cap : Nat) (d : Dump) (bs : List Byte) (isCnt : Bool) : Dump :=
  if d.trunc then d
  else if cap < 64 + d.bytes.length + bs.length then { d with trunc := true }
  else { d with bytes := d.bytes ++ bs, ncnt := d.ncnt + b2n isCnt, nwait := d.nwait + b2n (!isCnt) }

/-- SYNC_DUMP. -/
def execSyncDump (p : Packet) (s : State) : Out := ctxCommand p 0x42 s fun n s =>
  let addr := bits p.param 192 64
  let cap := bits p.param 160 32
  let vbase := bits p.param 140 20
  let count := bits p.param 127 13
  if addr % 64 ≠ 0 ∨ cap < 128 ∨ !zeroBits p 0 127 then answer s p 0x42 0x0102 0
  else
    let local_ := (rangesOf (cfgOf s) n).filter fun e => !rngRemote e.2
    let all := ((local_.flatMap fun e => (List.range (rngCount e.2)).map fun i => (rngBase e.2 + i, rngPid e.2 + i)).filter
      fun e => count == 0 || decide (vbase ≤ e.1 ∧ e.1 < vbase + count)).mergeSort fun a b => decide (a.1 ≤ b.1)
    let d := all.foldl (fun d e => match counterOf s e.2 with
      | some c =>
        if c.slot.toNat = n then
          let ws := s.waiters.filter fun w => w.pid.toNat == e.2
          ws.foldl (fun d w => dumpRecord cap d (leBytes 32 (waiterRecord s w)) false)
            (dumpRecord cap d (leBytes 64 (counterRecord s e.1 e.2 c ws)) true)
        else d
      | none => d) ({ bytes := [], ncnt := 0, nwait := 0, trunc := false } : Dump)
    let head := pack [(367, 0), (1, b2n d.trunc), (32, d.nwait), (32, d.ncnt), (16, (identOf s n).toNat), (64, s.postmark.toNat)]
    answer (hostRecord s addr (leBytes 64 head ++ d.bytes)) p 0x42 0 0

end Sys2Proof.Machine
end

