-- ==== Sys2Proof/Machine/SyncUnit.lean ====
section
/-! DEFINITION. The cluster sync units at work: operations apply, waiters are evaluated, timeouts expire (spec/17 R323 to R327, R334,
R339). -/

namespace Sys2Proof.Machine

/-- The context of slot `n` is PREEMPTED: its waiters are not evaluated (R334). -/
def frozenSlot (s : State) (n : Nat) : Bool := match ctxOf s n with
  | some c => c.preempted
  | none => false

/-- The oldest operation that can apply now, with its effect: a leasing TAKE that finds the table full lets the others pass. -/
def nextSync (s : State) : List SyncReq → Option (SyncReq × State)
  | [] => none
  | r :: rest => match applySync s r with
    | some t => some (r, t)
    | none => nextSync s rest

/-- An uncorrectable counter word (R339): the counter is poisoned and the plan of its context ends with DATA_ERROR. -/
def counterError (s : State) (pid : BitVec 16) : State := match counterOf s pid.toNat with
  | none => s
  | some c =>
    let n := c.slot.toNat
    endPlan (risk (logHealth (poisonCounter s pid) 2 0xFFF 0x0500 (identOf s n).toNat pid.toNat) 5 (48 * 65536)) n 0x0500 0 0

/-- What the code says of the counter word that an operation reads. -/
def syncEcc (s : State) (ecc : Ecc) (pid : BitVec 16) : State := match ecc with
  | .good => s
  | .corrected => risk (logHealth s 1 0xFFF 0 0xFFFF pid.toNat) 1 4096
  | .uncorrectable => counterError s pid

/-- SYNC_OP_APPLY. -/
def execSyncOpApply (cluster : BitVec 4) (ecc : Ecc) (s : State) : Out :=
  let q := vget s.syncQ cluster.toNat []
  match ready s, nextSync s q with
  | true, some (r, _) =>
    let s1 := syncEcc { s with syncQ := vset s.syncQ cluster.toNat (q.erase r) } ecc r.pid
    .next ((applySync s1 r).getD s1)
  | _, _ => .next s

/-- One waiter of a LIVE counter's cluster is evaluated against a new count, or learns that the counter is POISONED. -/
def evaluate (s : State) (count : Option Word) (w : Waiter) : State :=
  if frozenSlot s w.slot.toNat then s
  else
    let without := { s with waiters := s.waiters.erase w }
    match w.kind, count with
    | .stream core k, some v => modStream s core.toNat k.toNat fun x => { x with lastF := if x.lastF < v then v else x.lastF }
    | .stream _ _, none => s
    | .firmware n, some v => if w.target ≤ v then commitAdvance 4 without n.toNat else s
    | .firmware n, none => commitAdvance 4 without n.toNat
    | .walker _, some v => if w.target ≤ v then without else s
    | .walker _, none => without
    | .thread _ _ _ _ _, some v => if w.target ≤ v then endWait without w 0 else s
    | .thread _ _ _ _ _, none => endWait without w 0x0403

/-- WAITER_EVALUATE: the oldest new count that travels to the cluster arrives. -/
def execWaiterEvaluate (cluster : BitVec 4) (s : State) : Out :=
  match ready s, s.counts.find? fun m => m.cluster == cluster with
  | true, some m =>
    let s1 := { s with counts := s.counts.erase m }
    .next ((s1.waiters.filter fun w => w.cluster == cluster && w.pid == m.pid).foldl (fun s w => evaluate s m.count w) s1)
  | _, _ => .next s

/-- A thread's WAIT that still waits at its counter's home. -/
def queuedWait (s : State) (core : BitVec 8) (thread : BitVec 5) : Option SyncReq :=
  (s.syncQ.toList.flatMap id).find? fun r => match r.src with
    | .thread c t _ _ tmo _ => r.op == .wait && c == core && t == thread && tmo != 0
    | _ => false

/-- The waiter entry that a WAIT makes. -/
def waitEntry (s : State) (r : SyncReq) : Option Waiter := match r.src with
  | .thread core t opId sd tmo sig =>
    some { cluster := BitVec.ofNat 4 (core.toNat / 16), kind := .thread core t opId sd sig, pid := r.pid, slot := r.slot, target := r.value,
           timeout := tmoCycles tmo.toNat, since := s.postmark, expired := false }
  | _ => none

/-- A WAIT's timeout expires: the waiter wakes with TIMEOUT, or with 0 where the count has reached its target; a frozen one is told at
CTX_RESUME, unless its counter has been poisoned before. -/
def expireWait (s : State) (w : Waiter) : State :=
  let s1 := { s with waiters := s.waiters.erase w }
  if frozenSlot s w.slot.toNat then
    let told : Bool := match counterOf s w.pid.toNat with
      | some c => c.state == .poisoned
      | none => false
    { s1 with waiters := s1.waiters ++ [if told then { w with timeout := none } else { w with expired := true }] }
  else match counterOf s w.pid.toNat with
    | some c => endWait s1 w (if c.state = .live ∧ w.target ≤ c.count then 0 else 0x0401)
    | none => endWait s1 w 0x0401

/-- WAIT_TIMEOUT. -/
def execWaitTimeout (core : BitVec 8) (thread : BitVec 5) (s : State) : Out :=
  let mine := fun (w : Waiter) => match w.kind with
    | .thread c t _ _ _ => c == core && t == thread && w.timeout.isSome && !w.expired
    | _ => false
  match ready s, s.waiters.find? mine with
  | true, some w => .next (expireWait s w)
  | true, none => match queuedWait s core thread with
    | some r => match waitEntry s r with
      | some w => .next (expireWait { s with syncQ := s.syncQ.map fun q => q.erase r } w)
      | none => .next s
    | none => .next s
  | _, _ => .next s

end Sys2Proof.Machine
end

