-- ==== Sys2Proof/Machine/Tensorise.lean ====
section
/-! DEFINITION. Tensorise and the encoders' input conversion (spec/15 R280, R281, R288): exact rational arithmetic, with one rounding to
FP32 for each step. -/

namespace Sys2Proof.Machine

/-! ### Rationals and FP32 -/

/-- A rational as an exact value, or as one that rounds to FP32 as it does: 64 quotient bits and a sticky bit. -/
def ratVal (x : Rat) : FVal :=
  let a := x.num.natAbs
  if a = 0 then .zero
  else
    let k := 64 + Nat.log2 x.den
    .fin (decide (x.num < 0)) (2 * (a * 2 ^ k / x.den) + b2n (a * 2 ^ k % x.den != 0)) (-(k + 1 : Nat))

/-- A finite value as a rational; 0 for the others. -/
def valRat : FVal → Rat
  | .fin n m e =>
    let a : Rat := if 0 ≤ e then ((m * 2 ^ e.toNat : Nat) : Rat) else (m : Rat) / ((2 ^ (-e).toNat : Nat) : Rat)
    if n then -a else a
  | _ => 0

/-- One step's rounding to FP32. -/
def rat32 (x : Rat) : Rat := valRat (r32 (ratVal x))

/-! ### Weighted sums of columns (R281) -/

/-- The columns that an output position reads along one dimension, with their weights: bilinear between the two nearest, indices
clamped. -/
def bilinearTaps (ext : Nat) (x : Rat) : List (Nat × Rat) :=
  let f := x.floor
  let at_ := fun (i : Int) => (max 0 (min i ((ext : Int) - 1))).toNat
  [(at_ f, 1 - (x - f)), (at_ (f + 1), x - f)]

/-- The overlap of columns with an interval of length `s`. -/
def areaTaps (ext : Nat) (lo s : Rat) : List (Nat × Rat) :=
  (List.range ext).filterMap fun (i : Nat) =>
    let w := min ((i : Rat) + 1) (lo + s) - max (i : Rat) lo
    if 0 < w then some (i, w / s) else none

/-- The taps of output position `j`: resize 0 NONE, 1 BILINEAR, 2 AREA, over `out` positions of a crop that starts at `x0` and is `cw`
wide. -/
def resizeTaps (resize ext out : Nat) (x0 cw : Rat) (j : Nat) : List (Nat × Rat) :=
  let s := cw / out
  if resize = 0 then [(min (ext - 1) (if x0.den = 1 then x0.floor.toNat + j else Config.videoPhase x0 + j), 1)]
  else if resize = 2 ∧ 1 < s then areaTaps ext (x0 + j * s) s
  else bilinearTaps ext (x0 + ((j : Rat) + 1 / 2) * s - 1 / 2)

/-- A weighted sum. -/
def tapSum (taps : List (Nat × Rat)) (f : Nat → Rat) : Rat := (taps.map fun t => t.2 * f t.1).foldl (· + ·) 0

/-! ### Colour (R280 steps 1 to 3) -/

/-- The luma weights of red and blue: 1 BT.601, 2 BT.709, 3 BT.2020. -/
def lumaWeights (matrix : Nat) : Rat × Rat :=
  if matrix = 1 then (299 / 1000, 114 / 1000) else if matrix = 3 then (2627 / 10000, 593 / 10000) else (2126 / 10000, 722 / 10000)

/-- YCbCr to gamma-coded RGB, channel `c`. -/
def toRgb (matrix c : Nat) (y cb cr : Rat) : Rat :=
  let k := lumaWeights matrix
  let kg := 1 - k.1 - k.2
  if c = 0 then y + 2 * (1 - k.1) * cr
  else if c = 2 then y + 2 * (1 - k.2) * cb
  else y - 2 * k.2 * (1 - k.2) / kg * cb - 2 * k.1 * (1 - k.1) / kg * cr

/-- A sample of luma, or of chroma, normalised. -/
def normLuma (full : Bool) (bd : Nat) (y : Rat) : Rat :=
  if full then y / (2 ^ bd - 1 : Nat) else (y - (16 * 2 ^ (bd - 8) : Nat)) / (219 * 2 ^ (bd - 8) : Nat)
def normChroma (full : Bool) (bd : Nat) (c : Rat) : Rat :=
  if full then (c - (2 ^ (bd - 1) : Nat)) / (2 ^ bd - 1 : Nat) else (c - (128 * 2 ^ (bd - 8) : Nat)) / (224 * 2 ^ (bd - 8) : Nat)

/-- A decoded picture as tensorise reads it. -/
structure Picture where
  w : Nat
  h : Nat
  bd : Nat
  mono : Bool
  centreX : Bool
  centreY : Bool
  full : Bool
  matrix : Nat
  sample : Nat → Nat → Nat → Nat

/-- Step 1: chroma plane `p` at luma position (x, y), interpolated at its siting. A monochrome picture has mid-range chroma. -/
def chromaAt (q : Picture) (p x y : Nat) : Rat :=
  if q.mono then (2 ^ (q.bd - 1) : Nat)
  else
    let tx := bilinearTaps ((q.w + 1) / 2) (((x : Rat) - (if q.centreX then 1 / 2 else 0)) / 2)
    let ty := bilinearTaps ((q.h + 1) / 2) (((y : Rat) - (if q.centreY then 1 / 2 else 0)) / 2)
    rat32 (tapSum ty fun j => tapSum tx fun i => (q.sample p i j : Rat))

/-- Steps 1 to 3: channel `c` at (x, y); chans 0 RGB, 1 LUMA, 2 YCBCR. -/
def channelAt (q : Picture) (chans c x y : Nat) : Rat :=
  let luma := rat32 (normLuma q.full q.bd (q.sample 0 x y))
  let chroma := fun p => rat32 (normChroma q.full q.bd (chromaAt q p x y))
  if chans = 1 then luma
  else if chans = 2 then (if c = 0 then luma else chroma c)
  else rat32 (toRgb q.matrix c luma (chroma 1) (chroma 2))

/-! ### The tensorise record (Table 15.4) -/

def tzObj (r : BitVec 1024) : Nat := bits r 992 32
def tzOff (r : BitVec 1024) : Nat := bits r 944 48
def tzF0 (r : BitVec 1024) : Nat := bits r 928 16
def tzNf (r : BitVec 1024) : Nat := bits r 912 16
def tzStride (r : BitVec 1024) : Nat := bits r 904 8
def tzW (r : BitVec 1024) : Nat := bits r 880 16
def tzH (r : BitVec 1024) : Nat := bits r 864 16
def tzMaxW (r : BitVec 1024) : Nat := bits r 848 16
def tzMaxH (r : BitVec 1024) : Nat := bits r 832 16
def tzCropL (r : BitVec 1024) : Nat := bits r 816 16
def tzCropT (r : BitVec 1024) : Nat := bits r 800 16
def tzCropR (r : BitVec 1024) : Nat := bits r 784 16
def tzCropB (r : BitVec 1024) : Nat := bits r 768 16
def tzFmt (r : BitVec 1024) : Nat := bits r 764 4
def tzOvm (r : BitVec 1024) : Bool := bit r 763
def tzChans (r : BitVec 1024) : Nat := bits r 761 2
def tzResize (r : BitVec 1024) : Nat := bits r 759 2
def tzMatrix (r : BitVec 1024) : Nat := bits r 756 3
def tzRange (r : BitVec 1024) : Nat := bits r 754 2
def tzMean (r : BitVec 1024) (c : Nat) : Nat := bits r (704 - 32 * c) 32
def tzIstd (r : BitVec 1024) (c : Nat) : Nat := bits r (608 - 32 * c) 32

/-- Channels of the output, and bytes of an output frame. -/
def tzC (r : BitVec 1024) : Nat := if tzChans r = 1 then 1 else 3
def tzFrameBytes (r : BitVec 1024) : Nat := tzH r * tzW r * tzC r * (fmtBits (tzFmt r) / 8)

/-- The crop along one dimension: its start and its width. -/
def cropOf (ext lo hi : Nat) : Rat × Rat := ((ext * lo : Nat) / (65536 : Rat), (ext * (65536 - lo - hi) : Nat) / (65536 : Rat))

/-- NONE resize with a size that is not the output's (R281). -/
def sizeMismatch (r : BitVec 1024) (w h : Nat) : Bool :=
  tzResize r == 0 && ((cropOf w (tzCropL r) (tzCropR r)).2 != tzW r || (cropOf h (tzCropT r) (tzCropB r)).2 != tzH r)

/-- The elements of an output frame, H, W, C with channels innermost, each with its conversion events. -/
def tensorise (r : BitVec 1024) (q : Picture) : List (Nat × Events) :=
  let cx := cropOf q.w (tzCropL r) (tzCropR r)
  let cy := cropOf q.h (tzCropT r) (tzCropB r)
  (List.range (tzH r)).flatMap fun y => (List.range (tzW r)).flatMap fun x => (List.range (tzC r)).map fun c =>
    let across := fun row => rat32 (tapSum (resizeTaps (tzResize r) q.w (tzW r) cx.1 cx.2 x) fun i => channelAt q (tzChans r) c i row)
    let v := rat32 (tapSum (resizeTaps (tzResize r) q.h (tzH r) cy.1 cy.2 y) across)
    convElem (tzFmt r) (tzOvm r) (r32 (ratVal ((v - valRat (dec32 (tzMean r c))) * valRat (dec32 (tzIstd r c)))))

/-! ### The encode record (Table 15.8) and the input samples (R288) -/

def enNf (r : BitVec 1024) : Nat := bits r 928 16
def enW (r : BitVec 1024) : Nat := bits r 912 16
def enH (r : BitVec 1024) : Nat := bits r 896 16
def enFmt (r : BitVec 1024) : Nat := bits r 892 4
def enBd (r : BitVec 1024) : Nat := if bit r 891 then 10 else 8
def enMatrix (r : BitVec 1024) : Nat := bits r 889 2
def enRange (r : BitVec 1024) : Nat := bits r 887 2
def enPeriod (r : BitVec 1024) : Nat := bits r 880 7
def enQmin (r : BitVec 1024) : Nat := bits r 872 8
def enQmax (r : BitVec 1024) : Nat := bits r 864 8
def enBudget (r : BitVec 1024) : Nat := bits r 832 32
def enMean (r : BitVec 1024) (c : Nat) : Nat := bits r (768 - 32 * c) 32
def enStd (r : BitVec 1024) (c : Nat) : Nat := bits r (672 - 32 * c) 32

/-- An input element: x·std + mean by one FMA, clamped to 0 to 1, a NaN as 0. -/
def encInput (r : BitVec 1024) (c : Nat) (x : FVal) : Rat :=
  match r32 ((x.mul (dec32 (enStd r c))).add (dec32 (enMean r c))) with
  | .nan => 0
  | .inf n => if n then 0 else 1
  | v => max 0 (min 1 (valRat v))

/-- RGB to YCbCr, component `p`. -/
def toYcc (matrix p : Nat) (red g b : Rat) : Rat :=
  let k := lumaWeights matrix
  let y := k.1 * red + (1 - k.1 - k.2) * g + k.2 * b
  if p = 0 then y else if p = 1 then (b - y) / (2 * (1 - k.2)) else (red - y) / (2 * (1 - k.1))

/-- Half to even. -/
def roundHalfEven (x : Rat) : Int :=
  let f := x.floor
  let d := x - f
  if d < 1 / 2 then f else if 1 / 2 < d then f + 1 else if f % 2 = 0 then f else f + 1

/-- A component quantised by range and depth, and clamped. -/
def quantSample (full : Bool) (bd p : Nat) (v : Rat) : Nat :=
  let top : Nat := 2 ^ bd - 1
  let s : Nat := 2 ^ (bd - 8)
  let x := if full then v * top + (if p = 0 then 0 else ((2 ^ (bd - 1) : Nat) : Rat))
    else if p = 0 then v * (219 * s : Nat) + (16 * s : Nat)
    else v * (224 * s : Nat) + (128 * s : Nat)
  (max 0 (min (roundHalfEven x) (top : Int))).toNat

/-- The samples of a picture, luma then Cb then Cr, from its input elements in H, W, C order. -/
def encSamples (r : BitVec 1024) (elem : Nat → FVal) : List Nat :=
  let w := enW r
  let h := enH r
  let rgb := fun x y c => encInput r c (elem ((y * w + x) * 3 + c))
  let ycc := fun p x y => toYcc (enMatrix r) p (rgb x y 0) (rgb x y 1) (rgb x y 2)
  let q := quantSample (enRange r == 2) (enBd r)
  ((List.range h).flatMap fun y => (List.range w).map fun x => q 0 (ycc 0 x y)) ++
  [1, 2].flatMap fun p => (List.range (h / 2)).flatMap fun y => (List.range (w / 2)).map fun x =>
    q p ((ycc p (2 * x) (2 * y) + ycc p (2 * x + 1) (2 * y) + ycc p (2 * x) (2 * y + 1) + ycc p (2 * x + 1) (2 * y + 1)) / 4)

/-! ### Rate control (R289) -/

/-- A picture while its rows are coded: its bytes, what they used, and the rows at q_max. -/
structure RowState where
  bytes : List Byte
  used  : Nat
  qmax  : Nat
deriving DecidableEq, Repr

/-- The finest quantiser whose estimate fits the target, or q_max. -/
def pickQ (hevc : Bool) (r : BitVec 1024) (samples : List Nat) (pic row target : Nat) : Nat :=
  (((List.range (enQmax r + 1 - enQmin r)).map (· + enQmin r)).find? fun q =>
    decide (Config.encEstimate hevc r samples pic row q ≤ target)).getD (enQmax r)

/-- Codes row `row` of `rows` under budget `b`. -/
def encodeRow (hevc : Bool) (r : BitVec 1024) (coded : List Byte) (samples : List Nat) (pic rows b : Nat) (x : RowState) (row : Nat) : RowState :=
  let q := if b ≤ x.used then enQmax r else pickQ hevc r samples pic row ((b - x.used) / (rows - row))
  let bs := Config.encRow hevc r (coded ++ x.bytes) samples pic row q
  { bytes := x.bytes ++ bs, used := x.used + bs.length, qmax := x.qmax + b2n (q == enQmax r) }

/-- The budget of picture `pic` with debt `d`. -/
def picBudget (r : BitVec 1024) (pic d : Nat) : Nat :=
  if pic = 0 then 4 * enBudget r else max (enBudget r - d) (ceilDiv (enBudget r) 8)

/-- Codes picture `pic`: its rows, and the debt that it leaves. -/
def codePicture (hevc : Bool) (r : BitVec 1024) (coded : List Byte) (samples : List Nat) (pic d : Nat) : RowState × Nat :=
  let b := picBudget r pic d
  let rows := ceilDiv (enH r) 64
  let x := (List.range rows).foldl (encodeRow hevc r coded samples pic rows b) { bytes := [], used := 0, qmax := 0 }
  (x, (if pic = 0 then 0 else d - (enBudget r - b)) + (x.used - b))

end Sys2Proof.Machine
end

