-- ==== Sys2Proof/Machine/Video.lean ====
section
/-! DEFINITION. The video engines: accepting, starting, writing and ending decode and encode jobs (spec/15). What the AV1 and HEVC
standards give is in Config. -/

namespace Sys2Proof.Machine

/-! ### Packets (R278, R288) -/

/-- The 128 B record after the header. -/
def videoRec (p : Packet) : BitVec 1024 := BitVec.ofNat 1024 ((p.extra.getD 0 0).toNat + 2 ^ 512 * (p.extra.getD 1 0).toNat)

/-- The fields of Tables 15.3 and 15.7. -/
def vdSrc (w : BitVec 256) : Nat := bits w 224 32
def vdSrcOff (w : BitVec 256) : Nat := bits w 176 48
def vdSrcLen (w : BitVec 256) : Nat := bits w 144 32
def vdOut (w : BitVec 256) : Nat := bits w 112 32
def vdOutOff (w : BitVec 256) : Nat := bits w 64 48
def vdState (w : BitVec 256) : Nat := bits w 32 32
def vdSid (w : BitVec 256) : Nat := bits w 12 20
def vdHevc (w : BitVec 256) : Bool := bits w 10 2 == 1
def vdEngine (w : BitVec 256) : Nat := bits w 7 3
def vdConceal (w : BitVec 256) : Bool := bit w 6
def veOut (w : BitVec 256) : Nat := bits w 144 32
def veOutOff (w : BitVec 256) : Nat := bits w 96 48
def veCap (w : BitVec 256) : Nat := bits w 64 32

/-- An object that a video job may use: known, of one of the tiers, with an offset on its tier's alignment, and large enough. -/
def videoObj (s : State) (n id : Nat) (tiers : List Nat) (off len : Nat) : Bool := match objOf s n id with
  | some o => (o.isBind || tiers.contains o.tier.toNat) && off % granule o.tier == 0 && (o.isBind || decide (off + len ≤ o.size))
  | none => false

/-- A home of this module, in one of the tiers, of at least `len` bytes. -/
def videoHome (s : State) (n id : Nat) (tiers : List Nat) (len : Nat) : Bool := match objOf s n id with
  | some o => !o.isBind && tiers.contains o.tier.toNat && decide (len ≤ o.size)
  | none => false

/-- The status words' object holds them, and their offset is 8 B aligned. -/
def statOk (s : State) (n id off frames : Nat) : Bool := off % 8 == 0 && match objOf s n id with
  | some o => o.isBind || decide (off + 8 * frames ≤ o.size)
  | none => false

/-- done_sid is 0 or has a translation. -/
def sidOk (s : State) (n v : Nat) : Bool := v == 0 || translate s n v != .unmapped

/-- FP32 words that are all finite. -/
def finite32 (xs : List Nat) : Bool := xs.all fun x => !(dec32 x).isNan && !(dec32 x).isInf

/-- VID_DECODE is refused with BAD_FIELD (R278). -/
def decodeBad (s : State) (n : Nat) (p : Packet) : Bool :=
  let w := p.param
  let r := videoRec p
  let size := tzH r == 0 || decide (8192 < tzH r) || tzW r == 0 || decide (8192 < tzW r) || decide (tzMaxW r < 16 ∨ 8192 < tzMaxW r) ||
    decide (tzMaxH r < 16 ∨ 8192 < tzMaxH r)
  bits w 0 6 != 0 || decide (1 < bits w 10 2) || decide (4 < vdEngine w) || vdSrcLen w == 0 || tzNf r == 0 || tzStride r == 0 ||
  bits r 896 8 != 0 || size || !(decide (1 ≤ tzFmt r ∧ tzFmt r ≤ 4)) || tzChans r == 3 || tzResize r == 3 || decide (3 < tzMatrix r) ||
  tzRange r == 3 || bits r 736 18 != 0 || bits r 0 544 != 0 || !videoObj s n (vdSrc w) [0, 1, 2] (vdSrcOff w) 0 ||
  !videoHome s n (vdOut w) [0, 1, 2] (vdOutOff w + tzNf r * tzFrameBytes r) || !videoObj s n (vdOut w) [0, 1, 2] (vdOutOff w) 0 ||
  !statOk s n (tzObj r) (tzOff r) (tzNf r) || !videoHome s n (vdState w) [0, 1] (10 * (3 * tzMaxW r * tzMaxH r + 65536)) ||
  !finite32 ([0, 1, 2].map (tzMean r) ++ [0, 1, 2].map (tzIstd r)) || decide (65536 ≤ tzCropL r + tzCropR r) ||
  decide (65536 ≤ tzCropT r + tzCropB r) || !sidOk s n (vdSid w)

/-- VID_ENCODE is refused with BAD_FIELD (R288). -/
def encodeBad (s : State) (n : Nat) (p : Packet) : Bool :=
  let w := p.param
  let r := videoRec p
  let side := fun x => x % 2 != 0 || decide (x < 16 ∨ 8192 < x)
  let e := vdEngine w
  bits w 0 7 != 0 || decide (1 < bits w 10 2) || (e != 0 && e != 1 && e != 4) || enNf r == 0 || side (enW r) || side (enH r) ||
  decide (2 < enFmt r) || enMatrix r == 0 || enRange r == 0 || enRange r == 3 || decide (enPeriod r < 2 ∨ 64 < enPeriod r) ||
  decide (enQmax r < enQmin r) || (vdHevc w && decide (51 < enQmax r)) || decide (enBudget r < 64) || bits r 0 608 != 0 ||
  !videoObj s n (vdSrc w) [0, 1, 2] (vdSrcOff w) (enNf r * enH r * enW r * 3 * (fmtBits (enFmt r) / 8)) ||
  !videoObj s n (veOut w) [0, 1, 2] (veOutOff w) (veCap w) || !statOk s n (tzObj r) (tzOff r) (enNf r) ||
  !videoHome s n (vdState w) [0, 1] (4 * (3 * enW r * enH r + 65536)) ||
  !finite32 ([0, 1, 2].map (enMean r) ++ [0, 1, 2].map (enStd r)) || !sidOk s n (vdSid w)

/-! ### Choosing a pipeline (R278, R396) -/

/-- The pipelines of a kind: VD0 to VD3, or VE0 and VE1 as 4 and 5. -/
def pipesOf (encode : Bool) : List Nat := if encode then [4, 5] else [0, 1, 2, 3]

/-- A pipeline that can take jobs. -/
def pipeUsable (s : State) (i : Nat) : Bool := !(pipeOf s i).retired && !(pipeOf s i).gated

/-- Idle: nothing runs and nothing waits. -/
def pipeIdle (s : State) (i : Nat) : Bool := (pipeOf s i).running.isNone && (pipeOf s i).queue.isEmpty

/-- The lowest-numbered idle pipeline, else the one with the fewest waiting jobs. -/
def anyPipe (s : State) (encode : Bool) : Option Nat :=
  let us := (pipesOf encode).filter (pipeUsable s)
  match us.find? (pipeIdle s) with
  | some i => some i
  | none => us.foldl (fun best i => match best with
      | none => some i
      | some b => if (pipeOf s i).queue.length < (pipeOf s b).queue.length then some i else best) none

/-- The pipeline that a packet's engine field gives. -/
def pickPipe (s : State) (encode : Bool) (engine : Nat) : Option Nat :=
  if engine = 4 then anyPipe s encode
  else
    let i := if encode then 4 + engine else engine
    if pipeUsable s i then some i else none

/-- A video command: BAD_LENGTH, BAD_FIELD, NOT_PERMITTED, or a job in its pipeline's queue. -/
def videoCommand (p : Packet) (op : Nat) (encode : Bool) (s : State) (bad : Nat → Bool) : Out := ctxCommand p op s fun n s =>
  if p.extra.length ≠ 2 then rejectPkt s p op 0x0101 2
  else if bad n then answer s p op 0x0102 0
  else match pickPipe s encode (vdEngine p.param) with
    | none => answer s p op 0x0105 0
    | some i =>
      let j : VideoJob := { pkt := p, slot := BitVec.ofNat 6 n, encode := encode, anyPipe := vdEngine p.param == 4, frame := 0, coded := [],
                            debt := 0, bad := 0, worst := 0, full := false }
      modPipe (draw s) i fun x => { x with queue := x.queue ++ [j] }

/-- VID_DECODE. -/
def execVidDecode (p : Packet) (s : State) : Out := videoCommand p 0x70 false s fun n => decodeBad s n p

/-- VID_ENCODE. -/
def execVidEncode (p : Packet) (s : State) : Out := videoCommand p 0x71 true s fun n => encodeBad s n p

/-! ### Running a job -/

/-- A job whose context runs. -/
def jobRuns (s : State) (j : VideoJob) : Bool := match ctxOf s j.slot.toNat with
  | some c => !c.preempted
  | none => false

/-- A re-plan waits for its quiescent point: jobs pause at picture boundaries (spec/21 R407, R408). -/
def videoPaused (s : State) : Bool := s.age.clkPend.isSome || s.age.memPend.isSome

/-- VIDEO_JOB_START: a resumed ANY job first, then the oldest job of the queue whose context runs (R275, R287). -/
def execVideoJobStart (pipe : BitVec 3) (s : State) : Out :=
  let i := pipe.toNat
  if 6 ≤ i then .fault .noSuchUnit
  else if !ready s || videoPaused s || (pipeOf s i).running.isSome || !pipeUsable s i then .next s
  else match s.videoAny.find? fun j => j.encode == decide (4 ≤ i) && jobRuns s j with
    | some j => .next (wakePower (modPipe { s with videoAny := s.videoAny.erase j } i fun x => { x with running := some j, stopAt := none }))
    | none => match (pipeOf s i).queue.find? (jobRuns s) with
      | some j => .next (wakePower (modPipe s i fun x => { x with running := some j, queue := x.queue.erase j, stopAt := none }))
      | none => .next s

/-- The job that runs on pipeline `i`. -/
def jobOn (s : State) (i : Nat) : Option VideoJob := if ready s then (pipeOf s i).running else none

/-- The bytes of the decoded-picture or reference object are the pipeline's own (R278, R287). -/
def spoilState (s : State) (j : VideoJob) (len : Nat) : State := match objOf s j.slot.toNat (vdState j.pkt.param) with
  | some o => draw (writeObj s j.slot.toNat o 0 ((List.range len).map fun i => Config.videoState s.fresh i))
  | none => s

/-- A migration fences an object that a frame or picture writes: its writes sleep (spec/11 Table 11.3). -/
def frameHeld (s : State) (j : VideoJob) (out : Nat) : Bool :=
  [out, tzObj (videoRec j.pkt), vdState j.pkt.param].any (isFenced s j.slot.toNat)

/-- A frame's bytes and its status word are written, and done_sid is signalled. -/
def putFrame (s : State) (n outId outOff : Nat) (bs : List Byte) (statId statOff : Nat) (status : Nat) (sid : Nat) : State :=
  let s1 := match objOf s n outId with
    | some o => writeHome s n o outOff bs
    | none => s
  let s2 := match objOf s1 n statId with
    | some o => writeHome s1 n o statOff (leBytes 8 status)
    | none => s1
  if sid = 0 then s2 else signalFw s2 n sid 1

/-- The stream of a decode job as it reads now: at most what the object holds. -/
def jobStream (s : State) (j : VideoJob) : Rd :=
  let w := j.pkt.param
  match objOf s j.slot.toNat (vdSrc w) with
  | some o => readObj s j.slot.toNat o (vdSrcOff w) (if o.isBind then vdSrcLen w else min (vdSrcLen w) (o.size - vdSrcOff w))
  | none => { bytes := [], bad := [] }

/-- The first byte that a job's read found uncorrectable is noted at its home (spec/11 R218). -/
def noteJob (s : State) (n id base : Nat) (bad : List Nat) : State := match bad, objOf s n id with
  | i :: _, some o => if o.isBind || o.state == .lost then s else noteBad s n o (base + i)
  | _, _ => s

/-- The picture at output-order index `i`. -/
def pictureOf (hevc conceal : Bool) (r : BitVec 1024) (rd : Rd) (i : Nat) : Picture :=
  let st := (Config.videoSiting hevc rd.bytes i).getD (false, true)
  { w := (Config.videoSize hevc rd.bytes i).1, h := (Config.videoSize hevc rd.bytes i).2,
    bd := if Config.videoTen hevc rd.bytes i then 10 else 8, mono := Config.videoMono hevc rd.bytes i, centreX := st.1, centreY := st.2,
    full := if tzRange r = 0 then (Config.videoFull hevc rd.bytes i).getD false else tzRange r == 2,
    matrix := if tzMatrix r = 0 then (Config.videoMatrix hevc rd.bytes i).getD 2 else tzMatrix r,
    sample := fun p x y => Config.videoSample hevc conceal rd.bytes rd.bad i p x y }

/-- The code and aux of output picture `i` (Tables 15.5, 15.6, R283): CONCEALED needs conceal. -/
def frameCode (hevc conceal : Bool) (r : BitVec 1024) (rd : Rd) (i : Nat) : Nat × Nat :=
  if Config.videoShown hevc rd.bytes ≤ i then (7, 0)
  else
    let z := Config.videoSize hevc rd.bytes i
    let c := Config.videoCode hevc conceal rd.bytes rd.bad i % 6
    let c' := if c = 3 ∧ !conceal then 2 else c
    let aux := (Config.videoAux hevc conceal rd.bytes rd.bad i).toNat
    if c' = 5 ∨ tzMaxW r < z.1 ∨ tzMaxH r < z.2 then (5, if tzMaxW r < z.1 ∨ tzMaxH r < z.2 then 2 else aux)
    else if (c' = 0 ∨ c' = 3) ∧ sizeMismatch r z.1 z.2 then (6, 0)
    else (c', if c' = 1 ∨ c' = 4 then aux else 0)

/-- The receipt status that a frame's code calls for (R285). -/
def codeStatus (c : Nat) : Nat := if 4 ≤ c then 0x0501 else if c = 0 then 0 else 0x0502

/-- DECODE_FRAME_DONE. -/
def execDecodeFrameDone (pipe : BitVec 3) (s : State) : Out :=
  let k := pipe.toNat
  if 6 ≤ k then .fault .noSuchUnit
  else match jobOn s k with
    | none => .next s
    | some j =>
      let w := j.pkt.param
      let r := videoRec j.pkt
      if j.encode ∨ tzNf r ≤ j.frame ∨ frameHeld s j (vdOut w) then .next s
      else
        let n := j.slot.toNat
        let rd := jobStream s j
        let ix := tzF0 r + j.frame * tzStride r
        let c := frameCode (vdHevc w) (vdConceal w) r rd ix
        let shown := c.1 == 0 || c.1 == 3
        let els := if shown then tensorise r (pictureOf (vdHevc w) (vdConceal w) r rd ix) else []
        let eb := fmtBits (tzFmt r) / 8
        let bs := if shown then els.flatMap fun e => leBytes eb e.1 else List.replicate (tzFrameBytes r) 0
        let cvt := min 255 (els.filter fun e => e.2.any).length
        let pct := if c.1 = 0 ∨ c.1 = 7 then 0 else min 100 (Config.videoBad (vdHevc w) (vdConceal w) rd.bytes rd.bad ix)
        let status := pack [(8, c.1), (8, c.2), (8, pct), (8, cvt), (32, if c.1 = 7 then 0xFFFFFFFF else ix)]
        let s0 := noteJob s n (vdSrc w) (vdSrcOff w) (if j.frame = 0 then rd.bad else [])
        let s1 := spoilState s0 j (10 * (3 * tzMaxW r * tzMaxH r + 65536))
        let s2 := putFrame s1 n (vdOut w) (vdOutOff w + j.frame * tzFrameBytes r) bs (tzObj r) (tzOff r + 8 * j.frame) status (vdSid w)
        let cs := codeStatus c.1
        let worst := if j.worst = 0x0501 ∨ cs = 0x0501 then 0x0501 else if j.worst = 0x0502 ∨ cs = 0x0502 then 0x0502 else 0
        let j' := { j with frame := j.frame + 1, bad := j.bad + b2n (c.1 != 0), worst := worst }
        .next (modPipe s2 k fun x => { x with running := some j' })

/-- The elements of an encode job's input frame: uncorrectable bytes read as a NaN. -/
def encElem (s : State) (j : VideoJob) (e : Nat) : FVal :=
  let w := j.pkt.param
  let r := videoRec j.pkt
  let eb := fmtBits (enFmt r) / 8
  match objOf s j.slot.toNat (vdSrc w) with
  | some o =>
    let rd := readObj s j.slot.toNat o (vdSrcOff w + (j.frame * enH r * enW r * 3 + e) * eb) eb
    if rd.bad.isEmpty then decodeElem (enFmt r) (ofLe rd.bytes) else .nan
  | none => .nan

/-- The bytes of an encode job's input frame that read uncorrectable, from the start of its source. -/
def encBad (s : State) (j : VideoJob) : List Nat :=
  let r := videoRec j.pkt
  let len := enH r * enW r * 3 * (fmtBits (enFmt r) / 8)
  match objOf s j.slot.toNat (vdSrc j.pkt.param) with
  | some o => (readObj s j.slot.toNat o (vdSrcOff j.pkt.param + j.frame * len) len).bad.map (j.frame * len + ·)
  | none => []

/-- ENCODE_PICTURE_DONE (R288 to R290): a picture that would pass out_cap is not written. -/
def execEncodePictureDone (pipe : BitVec 3) (s : State) : Out :=
  let k := pipe.toNat
  if 6 ≤ k then .fault .noSuchUnit
  else match jobOn s k with
    | none => .next s
    | some j =>
      let w := j.pkt.param
      let r := videoRec j.pkt
      if !j.encode ∨ enNf r ≤ j.frame ∨ j.full ∨ frameHeld s j (veOut w) then .next s
      else
        let n := j.slot.toNat
        let x := codePicture (vdHevc w) r j.coded (encSamples r (encElem s j)) j.frame j.debt
        let s0 := noteJob s n (vdSrc w) (vdSrcOff w) (encBad s j)
        if veCap w < j.coded.length + x.1.bytes.length then
          .next (modPipe (spoilState s0 j (4 * (3 * enW r * enH r + 65536))) k fun y => { y with running := some { j with full := true } })
        else
          let nans := ((List.range (enH r * enW r * 3)).filter fun e => (encElem s j e).isNan).length
          let status := pack [(8, min 255 nans), (16, min 65535 (ceilDiv x.2 64)), (8, min 255 x.1.qmax), (32, x.1.bytes.length)]
          let s1 := spoilState s0 j (4 * (3 * enW r * enH r + 65536))
          let s2 := putFrame s1 n (veOut w) (veOutOff w + j.coded.length) x.1.bytes (tzObj r) (tzOff r + 8 * j.frame) status (vdSid w)
          .next (modPipe s2 k fun y =>
            { y with running := some { j with frame := j.frame + 1, coded := j.coded ++ x.1.bytes, debt := x.2 } })

/-! ### How a job ends (R285, R287, R290) -/

/-- A job leaves with its receipt. -/
def endJob (s : State) (j : VideoJob) (status detail : Nat) : State := answerD s j.pkt (if j.encode then 0x71 else 0x70) status detail

/-- VIDEO_JOB_COMPLETE. -/
def execVideoJobComplete (pipe : BitVec 3) (s : State) : Out :=
  let k := pipe.toNat
  if 6 ≤ k then .fault .noSuchUnit
  else match jobOn s k with
    | none => .next s
    | some j =>
      let r := videoRec j.pkt
      let past := if j.encode then j.full || decide (enNf r ≤ j.frame) else decide (tzNf r ≤ j.frame)
      if !past then .next s
      else
        let s1 := modPipe s k fun x => { x with running := none, stopAt := none }
        .next (if j.encode then endJob s1 j (if j.full then 0x0303 else 0) (if j.full then j.frame else 0)
          else endJob s1 j j.worst.toNat (min 0xFFFF j.bad))

/-- The running job stops at this picture boundary: pre-empted, its state is saved and it waits for CTX_RESUME; cancelled, it ends
CANCELLED; paused, it goes back to the head of its queue. -/
def stopJob (s : State) (k : Nat) (j : VideoJob) (why : StopKind) : State :=
  let r := videoRec j.pkt
  let len := if j.encode then 4 * (3 * enW r * enH r + 65536) else 10 * (3 * tzMaxW r * tzMaxH r + 65536)
  let s1 := modPipe (spoilState s j len) k fun x => { x with running := none, stopAt := none }
  match why with
  | .preempt => { s1 with videoStopped := s1.videoStopped ++ [(k, j)] }
  | .cancel => endJob s1 j 0x0400 0
  | .pause => modPipe s1 k fun x => { x with queue := j :: x.queue }

/-- PICTURE_BOUNDARY. -/
def execPictureBoundary (pipe : BitVec 3) (s : State) : Out :=
  let k := pipe.toNat
  if 6 ≤ k then .fault .noSuchUnit
  else match jobOn s k, (pipeOf s k).stopAt with
    | some j, some why => .next (stopJob s k j why)
    | some j, none => .next (if videoPaused s then stopJob s k j .pause else s)
    | _, _ => .next s

/-- Every running job of slot `n` stops at its next picture boundary. -/
def stopVideo (s : State) (n : Nat) (why : StopKind) : State :=
  { s with pipes := s.pipes.map fun x => match x.running with
      | some j => if j.slot.toNat = n then { x with stopAt := some why } else x
      | none => x }

/-- The jobs of slot `n` that do not run end CANCELLED. -/
def dropVideo (s : State) (n : Nat) : State :=
  let mine := fun (j : VideoJob) => j.slot.toNat == n
  let js := (s.pipes.toList.flatMap fun x => x.queue.filter mine) ++ s.videoAny.filter mine ++ ((s.videoStopped.map (·.2)).filter mine)
  js.foldl (fun s j => endJob s j 0x0400 0)
    { s with pipes := s.pipes.map (fun x => { x with queue := x.queue.filter fun j => !mine j }),
             videoAny := s.videoAny.filter (fun j => !mine j), videoStopped := s.videoStopped.filter fun e => !mine e.2 }

/-- The running jobs of slot `n` end CANCELLED at once. -/
def killVideo (s : State) (n : Nat) : State :=
  (List.range 6).foldl (fun s k => match (pipeOf s k).running with
    | some j => if j.slot.toNat = n then stopJob s k j .cancel else s
    | none => s) s

/-- CTX_RESUME: the jobs that a pre-emption stopped go to the head of their queue, ANY jobs to the first decoder to become idle. A job
that has not reached its boundary runs on. -/
def resumeVideo (s : State) (n : Nat) : State :=
  let mine := fun (j : VideoJob) => j.slot.toNat == n
  let back := s.videoStopped.filter fun e => mine e.2
  let s1 : State := { s with videoStopped := s.videoStopped.filter (fun e => !mine e.2), pipes := s.pipes.map fun x => match x.running with
      | some j => if mine j ∧ x.stopAt = some .preempt then { x with stopAt := none } else x
      | none => x }
  back.reverse.foldl (fun s e =>
    if e.2.anyPipe then { s with videoAny := e.2 :: s.videoAny } else modPipe s e.1 fun x => { x with queue := e.2 :: x.queue }) s1

/-- A hard fault retires a pipeline (R287): its running job ends DATA_ERROR, its waiting jobs NOT_PERMITTED. -/
def retirePipe (s : State) (k : Nat) : State :=
  let p := pipeOf s k
  let s1 := modPipe s k fun x => { x with queue := [], running := none, stopAt := none, retired := true }
  let s2 := match p.running with
    | some j => endJob s1 j 0x0500 0
    | none => s1
  p.queue.foldl (fun s j => endJob s j 0x0105 0) s2

end Sys2Proof.Machine
end

