-- ==== Sys2Proof/Machine/CtxCmds.lean ====
section
/-! DEFINITION. Contexts: create, pre-empt, resume, reset, retire (spec/20 R378 to R381), and the end of a plan, which lets a waiting
context command go on. -/

namespace Sys2Proof.Machine

/-! ### CTX_CREATE (R378, R381) -/

/-- A management command: it is accepted on ring 64 only (spec/19 Table 19.19). -/
def mgmtCommand (p : Packet) (op : Nat) (s : State) (f : State → State) : Out :=
  firmware p s fun s => if p.ring.toNat < 64 then rejectPkt s p op 0x0105 6 else f s

/-- The context as CTX_CREATE makes it: step 0, and the loss scale at e_init. -/
def newCtx (s : State) (n : Nat) (ident : BitVec 16) : Ctx :=
  { ident := ident, preempted := false, step := 0, stepOpen := false, aborted := none, rerun := false, commit := none, voteSent := false,
    votes := [], objs := [], incoming := [], releasing := [], bindPkts := [], plans := [], run := none, colls := [], replicas := [],
    lists := [], records := [], rates := [], groupSteps := [], attStatus := 0, attEvents := 0, stepEvents := 0x00000000FFF00000,
    updState := putBits (0 : BitVec 64) 16 8 (bits (lossWord s n) 40 8), updAlarm := 0, updAlarmEvents := 0, tcdStatus := 0, tcdEvents := 0,
    codec := [], pool := [], kvDescs := [], pass := [], seqWaits := [], seqHigh := [], retTickets := [], edits := [], violations := [],
    quarantined := false, secureDue := false, securePkts := [], securing := [], satchels := [], lateBit := false, stepLost := false,
    stepRaw := false, updEvents := [], updSums := [], stepDraw := 0, ctxQ := [] }

/-- The ring pair of a slot is disabled (Table 20.2). -/
def disableRing (s : State) (n : Nat) : State :=
  let r := ringOf s n
  setRing s n (refreshRing { r with ctrl := putBits r.ctrl 31 1 0, pktHeld := false })

/-- The context enters its slot: with the kept key, or with a fresh key and the next generation. -/
def fillSlot (s : State) (n : Nat) (ident : BitVec 16) (keep : Bool) : State :=
  let c := newCtx s n ident
  if keep then modSlot s n fun x => { x with ctx := some c, kept := false }
  else { modSlot s n (fun x => { ctx := some c, key := some s.keyDraws, kept := false, gen := x.gen + 1 }) with keyDraws := s.keyDraws + 1 }

/-- CTX_CREATE. -/
def execCtxCreate (p : Packet) (s : State) : Out := mgmtCommand p 0x58 s fun s =>
  let any := bit p.param 255
  let keep := bit p.param 248
  let slot := if any then firstBelow 64 fun n => (ctxOf s n).isNone else some (bits p.param 249 6)
  if p.ctx = 0xFFFF ∨ (slotOfIdent s p.ctx).isSome then badContext s p 0x58
  else match slot with
    | none => answer s p 0x58 0x0303 0
    | some n =>
      if (ctxOf s n).isSome then answer s p 0x58 0x0300 0
      else if keep ∧ !(slotOf s n).kept then answer s p 0x58 0x0105 0
      else if !zeroBits p 0 248 then answer s p 0x58 0x0102 0
      else answer (disableRing (fillSlot s n p.ctx keep) n) p 0x58 0 n

/-! ### CTX_PREEMPT (Table 20.2) -/

/-- A thread freezes, and thaws into the state it left (spec/03 Table 3.4). -/
def freezeThread (t : Thread) : Thread := match t.state with
  | .ready => { t with state := .frozen false }
  | .sleeping => { t with state := .frozen true }
  | _ => t
def thawThread (t : Thread) : Thread := match t.state with
  | .frozen slept => { t with state := if slept then .sleeping else .ready }
  | _ => t

/-- The cores of slot `n` changed by `f`. -/
def modCoresOf (s : State) (n : Nat) (f : Core → Core) : State :=
  { s with cores := s.cores.map fun c => if c.slot = some (BitVec.ofNat 6 n) then f c else c }

/-- The counters of slot `n` in state `a` go to state `b`. -/
def moveCounters (s : State) (n : Nat) (a b : CounterState) : State :=
  { s with counters := tmap s.counters fun _ c => if c.slot.toNat = n ∧ c.state = a then { c with state := b } else c }

/-- A stream that is not FREE freezes in its state. -/
def freezeStream (x : Stream) : Stream := if x.state = .free then x else { x with frozen := true }

/-- Everything of slot `n` freezes. -/
def preempt (s : State) (n : Nat) : State :=
  let s1 := modCtx s n fun c => { c with preempted := true }
  let s2 := modCoresOf s1 n fun c => { c with threads := c.threads.map freezeThread, streams := c.streams.map freezeStream }
  stopVideo (moveCounters s2 n .live .frozen) n .preempt

/-! ### CTX_RESUME -/

/-- The done signals that waited, and the ends that they bring (spec/12 Table 12.3). -/
def thawStream (s : State) (c n k : Nat) : State :=
  let x := streamOf (coreOf s c) k
  if !x.frozen then s
  else
    let s1 := modStream s c k fun x =>
      { x with frozen := false, held := 0, lastF := if x.state = .active then countOf s n (dFree x.keep) else x.lastF }
    endDesc (times x.held (fun s => signalVid s (BitVec.ofNat 8 c) n (dDone x.keep) 1) s1) c n k

/-- A waiter is evaluated at CTX_RESUME (spec/17 R334): a timeout that expired while it was frozen (spec/03 Table 3.4), POISONED, or its
target. -/
def resumeWaiter (s : State) (w : Waiter) : State :=
  let c := counterOf s w.pid.toNat
  match c with
  | none => s
  | some c =>
    if w.expired then endWait { s with waiters := s.waiters.erase w } w 0x0401
    else if c.state = .poisoned then evaluate s none w
    else evaluate s (some c.count) w

/-- Everything of slot `n` resumes where it stopped. -/
def resume (s : State) (n : Nat) : State :=
  let s1 := modCtx s n fun c => { c with preempted := false }
  let s2 := moveCounters (modCoresOf s1 n fun c => { c with threads := c.threads.map thawThread }) n .frozen .live
  let s3 := (planCores s2 n).foldl (fun s c => (List.range 16).foldl (fun s k => thawStream s c n k) s) s2
  let s4 := (s3.waiters.filter fun w => w.slot.toNat == n).foldl resumeWaiter s3
  resumeVideo (commitAdvance 4 s4 n) n

/-! ### CTX_RESET -/

/-- Every sequence of slot `n` is FREE: its waiting fetches and its walks end, and the tickets that the firmware kept go with the
counters, which CTX_RESET poisons (spec/08 Table 8.5, R143). -/
def freeSeqs (s : State) (n : Nat) : State :=
  let s1 := (tablesOf s n).foldl (fun s pt => (List.range (min (nseqOf s n pt) 32768)).foldl (fun s q => setSeqState s n pt q 0) s)
    (endSeqWaits s n 0)
  let s2 := modCtx s1 n fun c => { c with seqWaits := [], retTickets := [], seqHigh := [] }
  { s2 with clusters := s2.clusters.map fun k =>
      { k with walks := k.walks.filter (fun w => w.slot.toNat != n), genSeen := k.genSeen.filter fun g => g.1.toNat != n } }

/-- Quarantine ends (spec/19 Table 19.24). -/
def endQuarantine (s : State) (n : Nat) : State := match ctxOf s n with
  | none => s
  | some c =>
    if !c.quarantined then s
    else
      let r := ringOf s n
      let s1 := modCtx s n fun c => { c with quarantined := false, violations := [] }
      setRing s1 n (refreshRing { r with head := r.tail, nextSeq := 0, pktHeld := false,
                                         state := if enabled r then .running else r.state })

/-- The loss scale returns to e_init (spec/10 Table 10.6). -/
def resetLoss (s : State) (n : Nat) : State :=
  let e := bits (lossWord s n) 40 8
  modCtx s n fun c => { c with updState := putBits (putBits (putBits c.updState 16 8 e) 24 8 0) 32 32 0 }

/-- The effects of CTX_RESET on everything but the end of the plan, which PLAN_END completes. -/
def resetCtx (s : State) (n : Nat) : State :=
  let s1 := abandonMigrations (modCtx s n fun c => { c with preempted := false }) n
  let s2 := abortStep (endPlan s1 n 0x0400 4 0) n 0
  let s3 := freeSeqs (modCoresOf s2 n fun c => { c with threads := c.threads.map haltThread, streams := c.streams.map endStream }) n
  let s4 := poisonWhere { s3 with reds := s3.reds.filter fun r => r.slot.toNat != n } fun _ c => c.slot.toNat == n
  let s5 := flushLookAside { s4 with waiters := s4.waiters.filter fun w => w.slot.toNat != n } n
  let s6 := dropCached (stopVideo (dropVideo s5 n) n .cancel) fun l => l.slot.toNat == n
  endQuarantine (resetLoss s6 n) n

/-! ### CTX_RETIRE (R380) -/

/-- The packets of slot `n` that wait for something of the context. -/
def waitingPkts (c : Ctx) : List (Packet × Nat) :=
  c.bindPkts.map (·, 0x10) ++ c.edits.map (·, 0x61) ++ (c.securePkts ++ c.securing).map (·, 0x81)

/-- The local stores of the cores whose last thread was of slot `n` are scrubbed. -/
def scrubCores (s : State) (n : Nat) : State :=
  { s with cores := s.cores.map fun c =>
      if c.lastSlot = some (BitVec.ofNat 6 n) then { c with ls := [], accInt := 0, lastSlot := none } else c }

/-- A partition of the shared store is scrubbed to zero. -/
def scrubPart (s : State) (p : Nat) : State :=
  let lo := p * (96 * 2 ^ 20)
  { s with shared := Mem.zero s.shared lo (96 * 2 ^ 20),
           sharedBad := s.sharedBad.filter fun w => !(decide (lo ≤ 8 * w ∧ 8 * w < lo + 96 * 2 ^ 20)) }

/-- What units hold for slot `n` ends with it. -/
def dropUnits (s : State) (n : Nat) : State :=
  { s with reds := s.reds.filter (fun r => r.slot.toNat != n), stales := s.stales.filter (fun r => r.slot.toNat != n),
           sendWait := s.sendWait.filter (fun r => r.slot.toNat != n), txns := s.txns.filter (fun t => t.slot.toNat != n),
           ports := s.ports.map (fun x => { x with updQ := x.updQ.filter fun u => u.1.toNat != n }),
           clusters := s.clusters.map (fun k => { k with walks := k.walks.filter fun w => w.slot.toNat != n }),
           cache := s.cache.filter (fun l => l.slot.toNat != n) }

/-- Steps 2 to 6 of CTX_RETIRE. The local ranges leave both sets with their counters (spec/17 R321, Table 17.4). -/
def retireCtx (s : State) (n : Nat) : State := match ctxOf s n with
  | none => s
  | some c =>
    let s1 := (waitingPkts c).foldl (fun s x => answer s x.1 x.2 0x0400 0) (killVideo s n)
    let s2 := freeCounters s1 fun pid => match tget s1.counters pid with
      | some k => k.slot.toNat == n
      | none => false
    let s2' := modBothSets s2 fun x => { x with sync := vset x.sync n ((rangesOf x n).filter fun e => rngRemote e.2) }
    let r := ringOf s2' n
    let s3 := disableRing (setRing s2' n { r with head := if r.state = .quarantined then r.tail else r.head }) n
    let s4 := (scratchParts s3 n).foldl scrubPart (scrubCores (dropUnits (flushLookAside s3 n) n) n)
    modSlot s4 n fun x => { ctx := none, key := none, kept := false, gen := x.gen + 1 }

/-! ### Context commands in order (R379) -/

/-- The opcode of a context command. -/
def ctxOp : CtxCmd → Nat
  | .retire => 0x59
  | .preempt => 0x5A
  | .resume => 0x5B
  | .reset => 0x5C

/-- The firmware's part of a command once nothing of the plan is left. -/
def endCtxCmd (s : State) (n : Nat) (k : CtxCmd) (p : Packet) : State :=
  answer (if k = .retire then retireCtx s n else s) p (ctxOp k) 0 0

/-- A context command begins: CTX_RESET and CTX_RETIRE of a context whose plan is ending stay until it has ended. -/
def beginCtxCmd (s : State) (n : Nat) (k : CtxCmd) (p : Packet) : State :=
  let held := match ctxOf s n with
    | some c => c.preempted
    | none => false
  match k with
  | .preempt => answer (if held then s else preempt s n) p (ctxOp k) 0 0
  | .resume => answer (if held then resume s n else s) p (ctxOp k) 0 0
  | _ =>
    let s1 := resetCtx s n
    if ((ctxOf s1 n).bind (·.run)).isSome then draw (modCtx s1 n fun c => { c with ctxQ := c.ctxQ ++ [(k, p)] })
    else endCtxCmd s1 n k p

/-- A context command of the management ring: BAD_CONTEXT where the context is not resident, BAD_FIELD where a parameter bit is set;
it waits for the earlier ones of its context. -/
def ctxCmd (p : Packet) (k : CtxCmd) (s : State) : Out := mgmtCommand p (ctxOp k) s fun s =>
  match slotOfIdent s p.ctx with
  | none => badContext s p (ctxOp k)
  | some n =>
    if !zeroBits p 0 256 then answer s p (ctxOp k) 0x0102 0
    else if (match ctxOf s n with
        | some c => !c.ctxQ.isEmpty
        | none => false) then draw (modCtx s n fun c => { c with ctxQ := c.ctxQ ++ [(k, p)] })
    else beginCtxCmd s n k p

/-- CTX_PREEMPT. -/
def execCtxPreempt (p : Packet) (s : State) : Out := ctxCmd p .preempt s

/-- CTX_RESUME. -/
def execCtxResume (p : Packet) (s : State) : Out := ctxCmd p .resume s

/-- CTX_RESET. -/
def execCtxReset (p : Packet) (s : State) : Out := ctxCmd p .reset s

/-- CTX_RETIRE. -/
def execCtxRetire (p : Packet) (s : State) : Out := ctxCmd p .retire s

/-- The waiting context commands go on, up to `f` of them: the first was at work until the plan ended; after a retirement the others
find no context. -/
def runCtxQ : Nat → List (CtxCmd × Packet) → State → Nat → State
  | 0, _, s, _ => s
  | _, [], s, _ => s
  | f + 1, (k, p) :: rest, s, n =>
    if (ctxOf s n).isNone then runCtxQ f rest (badContext s p (ctxOp k)) n else runCtxQ f rest (beginCtxCmd s n k p) n

/-- Once no migration fences the tables any more, the sequences that waited when the plan began to end leave WAITING_PAGES. -/
def lateSeqs (s : State) (n : Nat) : State :=
  if ((ctxOf s n).bind (·.run)).any (·.ending.isSome) then endSeqWaits s n 1 else s

/-- PLAN_END: the plan's receipts, then the context commands that waited for it (R253, R379). -/
def execPlanEnd (slot : BitVec 6) (s0 : State) : Out :=
  let n := slot.toNat
  let s := if ready s0 then lateSeqs (settleFault s0 n) n else s0
  match ready s, (ctxOf s n).bind (·.run) with
  | true, some r =>
    if !planDone s n r || (openPasses s n && tablesFenced s n) then .next s
    else
      let s1 := finishPlan s n r
      match ctxOf s1 n with
      | none => .next s1
      | some c => match c.ctxQ with
        | [] => .next s1
        | (k, p) :: rest =>
          .next (runCtxQ rest.length rest (endCtxCmd (modCtx s1 n fun c => { c with ctxQ := [] }) n k p) n)
  | _, _ => .next s

end Sys2Proof.Machine
end

