-- ==== Sys2Proof/Machine/ConfigCmds.lean ====
section
/-! DEFINITION. The configuration sets: CFG_WRITE_SHADOW, CFG_READ, CFG_SWAP, the swap point and its timeout (spec/20 R382 to R386;
spec/10 R191, R192; spec/11 R213, R215; spec/17 R321; spec/18 R351; spec/21 R403). -/

namespace Sys2Proof.Machine

/-! ### The object that a management command names -/

/-- The resident slots whose context holds object `obj`. -/
def holders (s : State) (obj : Nat) : List Nat := numsBelow 64 fun n => (objOf s n obj).isSome

/-- The slot whose object a management command means: `own` where its context holds the object, else one of those that do. -/
def mgmtHolder (s : State) (own : Option Nat) (obj : Nat) : Option Nat :=
  let h := holders s obj
  match own with
  | some n => if h.contains n then some n else h[Config.mgmtHolder s.fresh obj h.length % h.length]?
  | none => h[Config.mgmtHolder s.fresh obj h.length % h.length]?

/-- The bytes of the object that a management command names. -/
def mgmtRead (s : State) (own : Option Nat) (obj off len : Nat) : Option Rd := match mgmtHolder s own obj with
  | some n => readObjAt s n obj off len
  | none => none

/-! ### Items (Table 20.3) -/

/-- The fields of Table 20.5. -/
def cfItem (w : BitVec 256) : Nat := bits w 248 8
def cfSlot (w : BitVec 256) : Nat := bits w 242 6
def cfIndex (w : BitVec 256) : Nat := bits w 232 10
def cfShadow (w : BitVec 256) : Bool := bit w 224
def cfObj (w : BitVec 256) : Nat := bits w 192 32
def cfOff (w : BitVec 256) : Nat := bits w 144 48
def cfCount (w : BitVec 256) : Nat := bits w 128 16
def cfAddr (w : BitVec 256) : Nat := bits w 64 64
def cfValue (w : BitVec 256) : Nat := bits w 0 64

/-- The entries of an item; 0 for a reserved code. -/
def itemSize (item : Nat) : Nat :=
  if item = 1 then 16 else if item = 2 then 64 else if item = 3 then 256 else if item = 9 then 17
  else if 4 ≤ item ∧ item ≤ 8 then 1 else 0

/-- A slot item. -/
def slotItem (item : Nat) : Bool := decide (3 ≤ item ∧ item ≤ 6)

/-- Entry `i` of an item of a set, other than ROUTE's tables. -/
def itemEntry (c : ConfigSet) (item slot i : Nat) : BitVec 64 :=
  if item = 1 then (vget c.part i 0).setWidth 64
  else if item = 2 then vget c.window i 0
  else if item = 3 then (tget (rangesOf c slot) i).getD 0
  else if item = 4 then vget c.groups slot 0
  else if item = 5 then vget c.loss slot 0
  else if item = 6 then vget c.secured slot 0
  else if item = 7 then c.risk
  else if item = 8 then c.power
  else c.timeout

/-- A set with entry `i` of an item written; an empty sync range is no range. -/
def putItem (c : ConfigSet) (item slot i : Nat) (v : BitVec 64) : ConfigSet :=
  if item = 1 then { c with part := vset c.part i (v.setWidth 8) }
  else if item = 2 then { c with window := vset c.window i v }
  else if item = 3 then { c with sync := vset c.sync slot (if v = 0 then tdel (rangesOf c slot) i else tput (rangesOf c slot) i v) }
  else if item = 4 then { c with groups := vset c.groups slot v }
  else if item = 5 then { c with loss := vset c.loss slot v }
  else if item = 6 then { c with secured := vset c.secured slot v }
  else if item = 7 then { c with risk := v }
  else if item = 8 then { c with power := v }
  else c

/-- The bytes of entry `i` of an item: 8, or a 32 KiB route table. -/
def itemBytes (c : ConfigSet) (item slot i : Nat) : List Byte :=
  if item = 9 ∧ i < 16 then (List.range 16384).flatMap fun m => leBytes 2 ((tget (vget c.routes i []) m).getD 0).toNat
  else leBytes 8 (itemEntry c item slot i).toNat

/-! ### The rules of entries -/

/-- A valid window: at least 2 MiB, inside the tier (Table 20.4); bits [56:40] zero in any case. -/
def windowOk (s : State) (v : BitVec 64) : Bool :=
  bits v 40 17 == 0 && (!bit v 63 || (decide (1 ≤ bits v 0 20) && decide ((windowRange v).1 + (windowRange v).2 ≤ lpCapacity s)))

/-- A sync range (spec/17 Table 17.1, R321): empty, of another module, or of counters that the slot's context holds. -/
def rangeOk (s : State) (slot : Nat) (v : BitVec 64) : Bool :=
  v == 0 ||
  (decide (1 ≤ rngCount v ∧ rngCount v ≤ 4096 ∧ rngBase v + rngCount v ≤ 2 ^ 20) &&
    if rngRemote v then rngPid v == 0 && rngMod v != modIdOf s
    else rngMod v == 0 && decide (rngPid v % 4096 + rngCount v ≤ 4096) &&
      (List.range (rngCount v)).all fun i => match counterOf s (rngPid v + i) with
        | some c => c.slot.toNat == slot
        | none => false)

/-- A loss-scale policy word (spec/10 R191). -/
def lossOk (v : BitVec 64) : Bool :=
  bits v 0 24 == 0 && decide (bits v 32 8 ≤ bits v 40 8 ∧ bits v 40 8 ≤ bits v 24 8 ∧ bits v 24 8 ≤ 32)

/-- A secured-state word (spec/18 R351): while the slot is resident, rst_obj is 0 or an LPDDR6 object of its context. -/
def securedOk (s : State) (slot : Nat) (v : BitVec 64) : Bool :=
  bits v 0 16 == 0 && (bits v 32 32 == 0 || (ctxOf s slot).isNone || match objOf s slot (bits v 32 32) with
    | some o => !o.isBind && o.tier == 0
    | none => false)

/-- The risk word (spec/18 Table 18.6). -/
def riskOk (v : BitVec 64) : Bool :=
  bits v 24 40 == 0 && decide (0 < bits v 16 8 ∧ bits v 16 8 < bits v 8 8 ∧ bits v 8 8 < bits v 0 8)

/-- A POWER entry (spec/21 R403): clk_arith and mem_rate as they run. -/
def powerOk (s : State) (v : BitVec 64) : Bool :=
  bits v 48 16 == 0 && bits v 10 36 == 0 && bit v 47 == s.age.clkSlow && bit v 46 == s.age.memSlow &&
  decide (300 ≤ bits v 0 10 ∧ bits v 0 10 ≤ 750)

/-- An entry keeps its item's rule, apart from the rules over several entries. -/
def entryOk (s : State) (item slot : Nat) (v : BitVec 64) : Bool :=
  if item = 1 then bits v 8 56 == 0
  else if item = 2 then windowOk s v
  else if item = 3 then rangeOk s slot v
  else if item = 4 then v == 0 || (bits v 13 19 == 0 && decide (1 ≤ bits v 0 13 ∧ bits v 0 13 ≤ 4096))
  else if item = 5 then lossOk v
  else if item = 6 then securedOk s slot v
  else if item = 7 then riskOk v
  else if item = 8 then powerOk s v
  else true

/-- Two of the ranges meet. -/
def anyOverlap : List (Nat × Nat) → Bool
  | [] => false
  | r :: rest => rest.any (overlap r) || anyOverlap rest

/-- The rules over several entries of a set: at most one UPDATE partition, no two windows or ranges that meet. -/
def setOk (c : ConfigSet) (item slot : Nat) : Bool :=
  if item = 1 then decide ((c.part.toList.filter fun e => bits e 6 2 == 3).length ≤ 1)
  else if item = 2 then !anyOverlap ((c.window.toList.filter fun w => bit w 63).map windowRange)
  else if item = 3 then !anyOverlap ((rangesOf c slot).map fun e => vidRange e.2)
  else true

/-! ### CFG_WRITE_SHADOW and CFG_READ (R383, R384) -/

/-- A reserved item or bit, a slot with a module item, or an index range beyond the item. -/
def cfgFieldBad (w : BitVec 256) : Bool :=
  itemSize (cfItem w) == 0 || bits w 225 7 != 0 || (!slotItem (cfItem w) && cfSlot w != 0) || cfCount w == 0 ||
  decide (256 < cfCount w ∨ itemSize (cfItem w) < cfIndex w + cfCount w) || cfOff w % 8 != 0

/-- The fields that CFG_WRITE_SHADOW alone fixes. -/
def writeFieldBad (w : BitVec 256) : Bool :=
  cfgFieldBad w || cfShadow w || cfAddr w != 0 || (cfObj w == 0 && cfCount w != 1)

/-- The entries that CFG_WRITE_SHADOW writes. -/
def cfgEntries (w : BitVec 256) (bs : List Byte) : List (BitVec 64) :=
  if cfObj w = 0 then [BitVec.ofNat 64 (cfValue w)]
  else (List.range (cfCount w)).map fun i => BitVec.ofNat 64 (ofLe ((bs.drop (8 * i)).take 8))

/-- The shadow set with the entries written. -/
def writeItems (c : ConfigSet) (w : BitVec 256) (vs : List (BitVec 64)) : ConfigSet :=
  vs.zipIdx.foldl (fun c (v, i) => putItem c (cfItem w) (cfSlot w) (cfIndex w + i) v) c

/-- The source of the entries: no object where they are inline. -/
def cfgSource (s : State) (w : BitVec 256) : Option Rd :=
  if cfObj w = 0 then some { bytes := [], bad := [] }
  else mgmtRead s (if slotItem (cfItem w) then some (cfSlot w) else none) (cfObj w) (cfOff w) (8 * cfCount w)

/-- CFG_WRITE_SHADOW. -/
def execCfgWriteShadow (p : Packet) (s : State) : Out := mgmtCommand p 0x50 s fun s =>
  let w := p.param
  if writeFieldBad w then answer s p 0x50 0x0102 0
  else match cfgSource s w with
    | none => answer s p 0x50 0x0102 0
    | some rd =>
      let vs := cfgEntries w rd.bytes
      let c := writeItems (shadowOf s) w vs
      if !rd.bad.isEmpty then answer s p 0x50 0x0500 0
      else if !vs.all (entryOk s (cfItem w) (cfSlot w)) || !setOk c (cfItem w) (cfSlot w) then answer s p 0x50 0x0102 0
      else if cfItem w = 9 then answer s p 0x50 0x0105 0
      else if s.swap.isSome then answer s p 0x50 0x0300 0
      else answer (modShadow s fun _ => c) p 0x50 0 0

/-- CFG_READ. -/
def execCfgRead (p : Packet) (s : State) : Out := mgmtCommand p 0x52 s fun s =>
  let w := p.param
  if cfgFieldBad w || cfObj w != 0 || cfAddr w % 8 != 0 then answer s p 0x52 0x0102 0
  else
    let c := if cfShadow w then shadowOf s else cfgOf s
    let bs := (List.range (cfCount w)).flatMap fun i => itemBytes c (cfItem w) (cfSlot w) (cfIndex w + i)
    answer (hostRecord s (cfAddr w) bs) p 0x52 0 0

/-! ### CFG_SWAP (R385, R386, Table 20.6) -/

/-- CFG_SWAP. -/
def execCfgSwap (p : Packet) (s : State) : Out := mgmtCommand p 0x51 s fun s =>
  if !zeroBits p 0 224 then answer s p 0x51 0x0102 0
  else if s.swap.isSome then answer s p 0x51 0x0300 0
  else draw { s with swap := some { pkt := p, timeout := BitVec.ofNat 32 (bits p.param 224 32) } }

/-- No context that the swap affects is busy: the swap point. -/
def swapPoint (s : State) : Bool :=
  (List.range 64).all fun n => match ctxOf s n with
    | some c => !swapAffects s n || !busyCtx c
    | none => true

/-- The partitions whose entry the new set changes. -/
def changedParts (s : State) : List Nat :=
  numsBelow 16 fun i => vget (cfgOf s).part i 0 != vget (shadowOf s).part i 0

/-- A partition holds a home. -/
def partHolds (s : State) (p : Nat) : Bool := (occupied s 1).any (overlap (p * (96 * 2 ^ 20), 96 * 2 ^ 20))

/-- A context takes the new set's policy word and group table (spec/10 Table 10.6): e is clamped, and the clean count is 0, where the
policy word is new; the groups' step counts start again where the table is new. -/
def takeWords (s : State) (old new : ConfigSet) (n : Nat) : State :=
  modCtx s n fun c =>
    let w := vget new.loss n 0
    let e := min (max (bits c.updState 16 8) (bits w 32 8)) (bits w 24 8)
    { c with updState := if vget old.loss n 0 = w then c.updState else putBits (putBits c.updState 16 8 e) 32 32 0,
             groupSteps := if vget old.groups n 0 = vget new.groups n 0 then c.groupSteps else [] }

/-- Steps 3 to 6 of the swap. -/
def swapSets (s : State) : State :=
  let old := cfgOf s
  let new := shadowOf s
  let parts := changedParts s
  let s1 := { s with active := !s.active, swaps := s.swaps + 1, setA := new, setB := new, measured := new, cache := [], swap := none,
                     clusters := s.clusters.map fun k => { k with lookAside := [] } }
  parts.foldl scrubPart ((List.range 64).foldl (fun s n => takeWords s old new n) s1)

/-- CFG_SWAP_POINT. -/
def execCfgSwapPoint (s : State) : Out := match ready s, s.swap with
  | true, some x =>
    if !swapPoint s then .next s
    else if (changedParts s).any (partHolds s) then .next (answer { s with swap := none } x.pkt 0x51 0x0300 0)
    else .next (answer (swapSets s) x.pkt 0x51 0 0)
  | _, _ => .next s

/-- CFG_SWAP_TIMEOUT: a timeout of 0 means none. -/
def execCfgSwapTimeout (s : State) : Out := match ready s, s.swap with
  | true, some x => if x.timeout = 0 then .next s else .next (answer { s with swap := none } x.pkt 0x51 0x0401 0)
  | _, _ => .next s

end Sys2Proof.Machine
end

