-- ==== Sys2Proof/Machine/LifeOps.lean ====
section
/-! DEFINITION. What resets keep, the alert register, faults of class MODULE and failed phases (spec/18 R340; spec/21 R404, R411; spec/22
R414, R419, R420; spec/23 R427 to R429). -/

namespace Sys2Proof.Machine

/-! ### The alert register (spec/23 R428, R429) -/

/-- VDD_AON is up: from the rise of MOD_PWR_EN, through a shutdown. -/
def vddAon (s : State) : Bool := s.life.auxGood && s.life.pwrEn

/-- RSK_SCORE.level (spec/18 Table 18.8). -/
def riskLevel (s : State) : Nat := bits s.riskScore 8 2

/-- HST_ALERT_CAUSE (spec/23 Table 23.4): 0 while VDD_AON is down. -/
def alertCause (s : State) : BitVec 8 :=
  if vddAon s then
    BitVec.ofNat 8 (pack [(1, b2n (s.life.phase == .failed)), (1, b2n (riskLevel s == 3)), (5, bits s.mgmt.alertW1c 2 5), (1, 0)])
  else 0

/-- MOD_ALERT_N is asserted. -/
def alertLow (s : State) : Bool := alertCause s != 0

/-- `f` changes causes: where MOD_ALERT_N asserts, the target sends an In-Band Interrupt that carries them. -/
def alerting (s : State) (f : State → State) : State :=
  let s1 := f s
  if !alertLow s && alertLow s1 && s1.mgmt.ibiOn then emit s1 (.ibi (alertCause s1)) else s1

/-- Sets cause bit `i`, 2 to 6, and counts the setting modulo 256. -/
def setAlertBit (s : State) (i : Nat) : State :=
  { s with mgmt := { s.mgmt with alertW1c := s.mgmt.alertW1c ||| BitVec.ofNat 8 (2 ^ i),
                                 alertEvents := vset s.mgmt.alertEvents (i - 2) (vget s.mgmt.alertEvents (i - 2) 0 + 1) } }

/-- Sets cause bit `i`, where the always-on island works. -/
def setAlert (s : State) (i : Nat) : State := if vddAon s then alerting s fun s => setAlertBit s i else s

/-! ### What a reset keeps (spec/22 Table 22.3, R420) -/

/-- The re-plan state and the life counters that the boot flash keeps (spec/21 R405, R412). -/
def flashAge (a : Ageing) : Ageing :=
  { Ageing.init with vddMv := a.vddMv, clkSlow := a.clkSlow, memSlow := a.memSlow, clkAdvised := a.clkAdvised, memAdvised := a.memAdvised,
                     tjSum := a.tjSum, samples := a.samples, hourSum := a.hourSum, ratedUsed := a.ratedUsed, vSteps := a.vSteps }

/-- The bits of the POWER item that show the running clock and memory rate (spec/21 Table 21.6). -/
def powerBits (a : Ageing) (w : BitVec 64) : BitVec 64 := putBits (putBits w 47 1 (b2n a.clkSlow)) 46 1 (b2n a.memSlow)

/-- A configuration set at reset. -/
def freshSet (a : Ageing) : ConfigSet := { ConfigSet.init with power := powerBits a ConfigSet.init.power }

/-- A slot at a reset: empty; with `keep` its key and generation stay (spec/20 R381). -/
def resetSlot (keep : Bool) (x : CtxSlot) : CtxSlot :=
  if keep then { ctx := none, key := x.key, kept := x.key.isSome, gen := x.gen } else CtxSlot.empty

/-- The management side at a reset: the bus state stays, causes and sensors are gone. -/
def resetMgmt (m : Mgmt) : Mgmt := { Mgmt.init with i3cAddr := m.i3cAddr, i3cOffset := m.i3cOffset, ibiOn := m.ibiOn }

/-- All work ends and everything is lost but the fuses, the boot flash, the host and, with `keep`, LPDDR6 and the key slots. -/
def wipe (s : State) (keep : Bool) : State :=
  { State.reset with
    pending := s.pending, fresh := s.fresh, outbox := s.outbox, big := s.big, keyDraws := s.keyDraws, hostMem := s.hostMem,
    hostPoison := s.hostPoison, hostReject := s.hostReject, hostLines := s.hostLines,
    life := { s.life with memInitDone := false, xoStable := false, pllLocked := false, linkUp := false, hdmOn := false, stopped := false,
                          phase := .power, failCode := 0 },
    mgmt := resetMgmt s.mgmt, age := flashAge s.age, fw := { s.fw with major := 0, minor := 0 },
    setA := freshSet s.age, setB := freshSet s.age, measured := freshSet s.age,
    ctxs := s.ctxs.map (resetSlot keep), lpddr := if keep then s.lpddr else [], lines := if keep then s.lines else [] }

/-! ### Stops (spec/18 Table 18.1, class MODULE; spec/22 R414) -/

/-- A fault of class MODULE: logged, and the module stops. -/
def moduleFault (s : State) : State :=
  let s1 := logHealth s 8 0xFFF 0 0xFFFF 0
  setAlert { s1 with life := { s1.life with stopped := true }, timeOn := false } 4

/-- Every rail but VDD_AON is removed: OFF, until a COLD reset (spec/21 Table 21.5, R404). The always-on island keeps the causes. -/
def railsOff (s : State) : State :=
  let w := wipe s false
  { w with mgmt := { w.mgmt with alertW1c := s.mgmt.alertW1c, alertEvents := s.mgmt.alertEvents },
           life := { w.life with power := .off, stopped := true, xoSwing := false, memKept := false, keeping := false,
                                 phase := s.life.phase, failCode := s.life.failCode } }

/-- Start-up ends in phase FAILED with a code. -/
def failStart (s : State) (code : Nat) : State :=
  alerting s fun s => { s with life := { s.life with phase := .failed, failCode := BitVec.ofNat 8 code }, timeOn := false }

/-- The start-up machine runs phase `ph`. -/
def inPhase (s : State) (ph : Phase) : Bool := s.life.power == .start && s.life.phase == ph && !s.life.stopped

/-- A WARM reset begins (spec/22 Table 22.3, R420): LPDDR6 is kept where keep_mem is set and the running start-up, if one runs, has
ended MEM_INIT; in RESET_HOLD nothing changes any more. -/
def warmReset (s : State) : State :=
  if s.life.power = .off ∨ s.life.power = .resetHold then s
  else
    let keep := s.life.keepMem && s.life.memInitDone
    let w := wipe s keep
    { w with life := { w.life with power := .resetHold, memKept := keep, keeping := keep } }

/-- RESET_HOLD ends once both reset inputs are deasserted: start-up begins in phase POWER (spec/22 R413). -/
def releaseReset (s : State) : State :=
  if s.life.power = .resetHold ∧ !s.life.modResetLow ∧ !s.life.perstLow then
    { s with life := { s.life with power := .start, phase := .power, failCode := 0 } }
  else s

/-- A power or ageing event (spec/21 R411): an event receipt on ring 64, and a note in the health log. -/
def powerEvent (s : State) (detail : Nat) : State := eventReceipt (logHealth s 0 0xFFF detail 0xFFFF 0) 64 0 detail 0

end Sys2Proof.Machine
end

