-- ==== Sys2Proof/Machine/PowerCmds.lean ====
section
/-! DEFINITION. Power, thermal limits, clock requests, ageing and re-plan, the clock monitor (spec/21). -/

namespace Sys2Proof.Machine

/-! ### The power limit and idle slots (R401, R402) -/

/-- L in watts. -/
def limitOf (s : State) : Nat := bits (cfgOf s).power 0 10

/-- PWR_LIMIT. -/
def execPwrLimit (p : Packet) (s : State) : Out := mgmtCommand p 0xA0 s fun s =>
  let l := bits p.param 246 10
  if !zeroBits p 0 246 || decide (l < 300 ∨ 750 < l) then answer s p 0xA0 0x0102 0
  else answer (modBothSets s fun c => { c with power := putBits c.power 0 10 l }) p 0xA0 0 0

/-- The idle count that applies: the larger of the power and the thermal count. -/
def idleK (s : State) : Nat := max s.age.kPower s.age.kThermal

/-- The power count of a control period; at k = 63 with the 10 ms average above L it stays, with event LIMIT_UNMET. -/
def controlPower (s : State) (m : PowerSample) : State :=
  let a := s.age
  if a.kPower = 63 ∧ limitOf s < m.watts10ms then
    if a.limitUnmet then s else powerEvent { s with age := { a with limitUnmet := true } } 0x0A05
  else draw { s with age := { a with limitUnmet := false, kPower := Config.idleCount s.fresh m.watts (limitOf s) % 64 } }

/-- POWER_CONTROL_PERIOD. The sensors of the input and the coolant read in every power state. -/
def execPowerControlPeriod (m : PowerSample) (s : State) : Out :=
  if !s.life.auxGood then .next s
  else
    let s1 := { s with mgmt := { s.mgmt with sensors := m } }
    if ready s then .next (controlPower { s1 with age := { s1.age with watts := (m.watts :: s1.age.watts).take 10 } } m) else .next s1

/-- CLK_ARITH's period in cycles of the 4.8 GHz root clock. -/
def arithDiv (s : State) : Nat := if s.age.clkSlow then 9 else 8

/-- IDLE_WINDOW: the first 256·k CLK_ARITH cycles of the window are idle slots. -/
def execIdleWindow (core : BitVec 8) (s : State) : Out :=
  if ready s then .next (modCore s core.toNat fun c =>
    { c with idleUntil := s.postmark + BitVec.ofNat 64 (ceilDiv (256 * idleK s * arithDiv s) 6) })
  else .next s

/-! ### Thermal limits (R404) -/

/-- The hottest junction, in 1/16 degree. -/
def hottest (m : ThermalSample) : Int := m.clusters.foldl max m.base

/-- The thermal count at a sample: raised from 95 degrees, lowered below 92 degrees. -/
def thermalK (k move : Nat) (t : Int) : Nat :=
  if 95 * 16 ≤ t ∧ (95 * 16 < t ∨ k = 0) then (if k < 63 then k + 1 + move % (63 - k) else 63)
  else if t < 92 * 16 then (if k = 0 then 0 else move % k)
  else k

/-- The samples of one hour. -/
def samplesPerHour : Nat := 36000000

/-- What an hour at an average of `t` sixteenths of a degree uses of the rated life, in 2^-32 h: 2^((t − 960) / 160) hours (R412). -/
def hourWeight (t : Int) : Nat :=
  let e := (5120 + (t - 960)).toNat
  (List.range 48).foldl (fun r i => if (r + 2 ^ (47 - i)) ^ 160 ≤ 2 ^ e then r + 2 ^ (47 - i) else r) 0

/-- Power-on hours. -/
def lifeHours (a : Ageing) : Nat := a.samples / samplesPerHour

/-- The life counters at a junction reading. -/
def countLife (a : Ageing) (t : Int) : Ageing :=
  let a1 := { a with samples := a.samples + 1, tjSum := a.tjSum + t, hourSum := a.hourSum + t }
  if a1.samples % samplesPerHour = 0 then
    { a1 with hourSum := 0, ratedUsed := a1.ratedUsed + hourWeight (a1.hourSum / samplesPerHour),
              vSteps := a1.vSteps.filter fun v => decide (lifeHours a1 < v.1 + 1000) }
  else a1

/-- THERMAL_SAMPLE. -/
def execThermalSample (m : ThermalSample) (s : State) : Out :=
  if s.life.power = .off then .next s
  else
    let s1 := { s with mgmt := { s.mgmt with temps := m } }
    if !ready s then .next s1
    else
      let t := hottest m
      let a := s1.age
      let s2 := draw { s1 with age := countLife { a with kThermal := thermalK a.kThermal (Config.thermalMove s.fresh) t,
                                                         throttled := (a.throttled || decide (95 * 16 ≤ t)) && !m.coolFor1s } t }
      if decide (95 * 16 ≤ t) && !a.throttled && !m.coolFor1s then .next (setAlert (powerEvent s2 0x0A06) 3) else .next s2

/-- THERMAL_SHUTDOWN: at 110 degrees every rail but VDD_AON goes, and MOD_THERM_N is asserted. -/
def execThermalShutdown (s : State) : Out :=
  if s.life.power = .off then .next s
  else
    let s1 := railsOff s
    .next (alerting { s1 with life := { s1.life with thermLow := true } } fun s => setAlertBit (setAlertBit s 2) 4)

/-! ### Ageing (R405 to R408) -/

/-- VDD_ARITH after a sample: 5 mV up below 40 ps of slack, 5 mV down from 60 ps, within 550 and 620 mV. -/
def nextVdd (mv : Nat) (slack : Int) : Nat :=
  if slack < 40 ∧ mv < 620 then min 620 (mv + 5) else if 60 ≤ slack then max 550 (mv - 5) else mv

/-- A re-plan is forced: it waits for its quiescent point. -/
def force (r : Option Replan) : Option Replan := some { pkt := r.bind (·.pkt), forced := true }

/-- AGEING_SAMPLE. -/
def execAgeingSample (slacks : List Int) (s : State) : Out :=
  match ready s, slacks.min? with
  | true, some low =>
    let a := s.age
    let mv := nextVdd a.vddMv low
    let advise := decide (low < 40) && a.vddMv == 620 && !a.clkSlow && !a.clkAdvised
    let s1 := { s with age :=
      { a with slackMin := low, slackMon := slacks.findIdx (· == low), vddMv := mv, clkAdvised := a.clkAdvised || advise,
               vSteps := if mv = a.vddMv then a.vSteps else a.vSteps ++ [(lifeHours a, (mv : Int) - (a.vddMv : Int))],
               clkPend := if low < 15 ∧ !a.clkSlow then force a.clkPend else a.clkPend } }
    .next (if advise then powerEvent s1 0x0A01 else s1)
  | _, _ => .next s

/-- MEM_MARGIN_MEASURE. -/
def execMemMarginMeasure (m : MarginSample) (s : State) : Out :=
  if !ready s then .next s
  else
    let a := s.age
    let runs : Table Nat := m.belowAdvised.zipIdx.filterMap fun (b, u) => if b then some (u, (tget a.marginBad u).getD 0 + 1) else none
    let advise := runs.any (fun r => decide (3 ≤ r.2)) && !a.memSlow && !a.memAdvised
    let s1 := { s with age :=
      { a with marginBad := runs, memAdvised := a.memAdvised || advise,
               memPend := if (m.belowForced || m.linkEccHigh) && !a.memSlow then force a.memPend else a.memPend } }
    .next (if advise then powerEvent s1 0x0A02 else s1)

/-- The quiescent point: no resident context has an open step or a running plan without steps (R407). -/
def quiescent (s : State) : Bool := s.ctxs.toList.all fun x => match x.ctx with
  | some c => !busyCtx c
  | none => true

/-- The clock monitor reports a source STOPPED or OFF_FREQ (R398). -/
def sourceBad (s : State) (x : ClkSource) : Bool := s.age.stoppedSrc.contains x || s.age.offFreqSrc.contains x

/-- The CLK_REQUEST of a re-plan is answered, where one asked for it. -/
def answerReplan (s : State) (r : Replan) (status : Nat) : State := match r.pkt with
  | some p => answer s p 0xA1 status 0
  | none => s

/-- The step of CLK_ARITH to 533.3 MHz. -/
def applyClk (s : State) : State :=
  let s1 := { s with age := { s.age with clkSlow := true, clkPend := none } }
  powerEvent (modBothSets s1 fun c => { c with power := powerBits s1.age c.power }) 0x0A03

/-- CLK_REPLAN_APPLY: a switch between sources that the clock monitor reports bad is refused (R398). -/
def execClkReplanApply (s : State) : Out := match ready s, s.age.clkPend with
  | true, some r =>
    if !quiescent s then .next s
    else if sourceBad s .rootPll || sourceBad s (.divider .arith) then
      .next (answerReplan { s with age := { s.age with clkPend := none } } r 0x0700)
    else .next (answerReplan (applyClk s) r 0)
  | _, _ => .next s

/-- The LPDDR6 step to 9,600 MT/s: contents are kept. -/
def applyMem (s : State) : State :=
  let s1 := { s with age := { s.age with memSlow := true, memPend := none } }
  powerEvent (modBothSets s1 fun c => { c with power := powerBits s1.age c.power }) 0x0A04

/-- MEM_STEP_APPLY. -/
def execMemStepApply (s : State) : Out := match ready s, s.age.memPend with
  | true, some r => if !quiescent s then .next s else .next (answerReplan (applyMem s) r 0)
  | _, _ => .next s

/-- Every running plan ends as PLAN_CANCEL does, and open steps abort. -/
def cancelAll (s : State) : State :=
  (List.range 64).foldl (fun s n => abortStep (endPlan s n 0x0400 0 0) n 0) s

/-- REPLAN_QUIESCE_TIMEOUT: no quiescent point within 1 s of a forced decision. -/
def execReplanQuiesceTimeout (s : State) : Out :=
  let forced := fun (r : Option Replan) => (r.map (·.forced)).getD false
  if ready s && (forced s.age.clkPend || forced s.age.memPend) then .next (cancelAll s) else .next s

/-! ### CLK_REQUEST (R395, R396, R410) -/

/-- The fields of Table 21.8. -/
def crOp (w : BitVec 256) : Nat := bits w 253 3
def crCore (w : BitVec 256) : Bool := bit w 252
def crDom (w : BitVec 256) : Nat := bits w 250 2
def crUnit (w : BitVec 256) : Nat := bits w 246 4
def crSub (w : BitVec 256) : Nat := bits w 241 5

/-- The node is one of Table 21.3. -/
def nodeOk (w : BitVec 256) : Bool :=
  if crCore w then crDom w == 0 && decide (crSub w ≤ 17)
  else crSub w == 0 && (decide (crDom w ≤ 1) || (crDom w == 2 && decide (crUnit w ≤ 5)))

/-- A core is in use: a thread is not IDLE, a stream is armed, or a running plan is placed on it. -/
def coreInUse (c : Core) : Bool :=
  c.slot.isSome || c.threads.toList.any (fun t => t.state != .idle) || c.streams.toList.any fun x => x.state != .free

/-- A cluster's Kid engine, and its tile codec unit, are in use. -/
def kidInUse (k : Cluster) : Bool := !k.kidQ.isEmpty || k.kidRun.isSome
def codecInUse (k : Cluster) : Bool :=
  !k.enc.queue.isEmpty || k.enc.running.isSome || !k.dec.queue.isEmpty || k.dec.running.isSome

/-- A node is in use (Table 21.3). -/
def nodeInUse (s : State) (w : BitVec 256) : Bool :=
  let u := crUnit w
  let k := clusterOf s u
  if crCore w then
    if crSub w = 16 then kidInUse k else if crSub w = 17 then codecInUse k else coreInUse (coreOf s (16 * u + crSub w))
  else if crDom w = 0 then
    ((List.range 16).any fun i => coreInUse (coreOf s (16 * u + i))) || kidInUse k || codecInUse k || s.counters.any fun e => e.1 / 4096 == u
  else if crDom w = 1 then (portOf s u).state != .down
  else !pipeIdle s u

/-- The node's gate is set or cleared. -/
def setGate (s : State) (w : BitVec 256) (g : Bool) : State :=
  let u := crUnit w
  if crCore w then
    if crSub w = 16 then modCluster s u fun k => { k with kidGated := g }
    else if crSub w = 17 then modCluster s u fun k => { k with codecGated := g }
    else modCore s (16 * u + crSub w) fun c => { c with gated := g }
  else if crDom w = 0 then modCluster s u fun k => { k with gated := g }
  else if crDom w = 1 then modPort s u fun x => { x with gated := g }
  else modPipe s u fun x => { x with gated := g }

/-- CLK_REQUEST with one of its four ops. -/
def clkRequest (p : Packet) (op : Nat) (s : State) (f : State → State) : Out := mgmtCommand p 0xA1 s fun s =>
  if crOp p.param ≠ op then s
  else if !zeroBits p 0 241 || crDom p.param == 3 || (decide (op < 2) && !nodeOk p.param) then answer s p 0xA1 0x0102 0
  else f s

/-- CLK_REQUEST GATE. -/
def execClkRequestGate (p : Packet) (s : State) : Out := clkRequest p 0 s fun s =>
  if nodeInUse s p.param then answer s p 0xA1 0x0700 0 else answer (setGate s p.param true) p 0xA1 0 0

/-- CLK_REQUEST UNGATE. -/
def execClkRequestUngate (p : Packet) (s : State) : Out := clkRequest p 1 s fun s => answer (setGate s p.param false) p 0xA1 0 0

/-- A request of a re-plan: a second one while one is pending is RESOURCE_BUSY; a forced one takes the packet. -/
def askReplan (r : Option Replan) (p : Packet) : Option Replan := match r with
  | none => some { pkt := some p, forced := false }
  | some x => if x.pkt.isSome then none else some { x with pkt := some p }

/-- CLK_REQUEST ARITH_533: its receipt follows the step. -/
def execClkRequestArith533 (p : Packet) (s : State) : Out := clkRequest p 2 s fun s =>
  if s.age.clkSlow then answer s p 0xA1 0 0
  else match askReplan s.age.clkPend p with
    | none => answer s p 0xA1 0x0300 0
    | some r => draw { s with age := { s.age with clkPend := some r } }

/-- CLK_REQUEST MEM_9600. -/
def execClkRequestMem9600 (p : Packet) (s : State) : Out := clkRequest p 3 s fun s =>
  if s.age.memSlow then answer s p 0xA1 0 0
  else match askReplan s.age.memPend p with
    | none => answer s p 0xA1 0x0300 0
    | some r => draw { s with age := { s.age with memPend := some r } }

/-! ### AGEING_REPORT (R412) -/

/-- Days of rated life left. -/
def ratedDays (a : Ageing) : Nat := (43830 * 2 ^ 32 - a.ratedUsed) / (24 * 2 ^ 32)

/-- Days until 0.62 V by the voltage steps of the last 1,000 h. -/
def slackDays (a : Ageing) : Nat :=
  let net := ((a.vSteps.filter fun v => decide (lifeHours a < v.1 + 1000)).map (·.2)).sum
  if net ≤ 0 then 0xFFFF else min 0xFFFE (((620 - (a.vddMv : Int)) * 1000) / (net * 24)).toNat

/-- The lifetime average junction, and the 1 ms average of the input power. -/
def tjAverage (a : Ageing) : Int := if a.samples = 0 then 0 else a.tjSum / (a.samples : Int)
def wattsAverage (a : Ageing) : Nat := if a.watts = [] then 0 else a.watts.sum / a.watts.length

/-- The record of Table 21.9. -/
def ageingRecord (s : State) : Nat :=
  let a := s.age
  let margin := (List.range 16).map fun i =>
    (8, if (portOf s i).state = .down then 0 else (Config.laneMargin s.fresh i).toNat)
  let src := if idleK s = 0 then 0 else if a.kThermal ≤ a.kPower then 1 else 2
  pack ([(640, 0), (32, lifeHours a)] ++ margin ++
    [(7, 0), (1, b2n a.limitUnmet), (2, src), (6, idleK s), (16, limitOf s), (16, wattsAverage a), (16, toSigned 16 (tjAverage a)),
     (16, toSigned 16 (hottest s.mgmt.temps)), (16, slackDays a), (16, ratedDays a), (5, 0), (1, b2n a.clkAdvised), (1, b2n a.memAdvised),
     (1, b2n a.memSlow), (1, b2n a.clkSlow), (7, a.slackMon), (16, toSigned 16 a.slackMin), (16, a.vddMv), (64, s.postmark.toNat)])

/-- AGEING_REPORT. -/
def execAgeingReport (p : Packet) (s : State) : Out := firmware p s fun s =>
  let addr := bits p.param 192 64
  if addr % 64 ≠ 0 ∨ !zeroBits p 0 192 then answer s p 0xA2 0x0102 0
  else answer (hostRecord s addr (leBytes 128 (ageingRecord s))) p 0xA2 0 0

/-! ### The clock monitor, and faults of the clocks and the supply (R393, R394, R398, R406; spec/18 R340) -/

/-- CLOCK_MONITOR_WINDOW: no edge is STOPPED, more than 2 % from nominal is OFF_FREQ. -/
def execClockMonitorWindow (counts : List EdgeCount) (s : State) : Out :=
  if !vddAon s then .next s
  else
    let far := fun (c : EdgeCount) => decide (2 * c.nominal < 100 * (max c.edges c.nominal - min c.edges c.nominal))
    .next { s with age :=
      { s.age with stoppedSrc := (counts.filter fun c => c.edges == 0).map (·.source),
                   offFreqSrc := (counts.filter fun c => c.edges != 0 && far c).map (·.source) } }

/-- ROOT_PLL_LOCK_LOSS, after start-up. -/
def execRootPllLockLoss (s : State) : Out := .next (if ready s then moduleFault { s with life := { s.life with pllLocked := false } } else s)

/-- PHY_PLL_LOCK_LOSS. -/
def execPhyPllLockLoss (s : State) : Out := .next (if ready s then moduleFault s else s)

/-- CONTROL_WATCHDOG. -/
def execControlWatchdog (s : State) : Out := .next (if ready s then moduleFault s else s)

/-- RAIL_TRIP: wherever the rail is up. -/
def execRailTrip (s : State) : Out :=
  .next (if s.life.power = .off ∨ s.life.stopped then s else moduleFault s)

end Sys2Proof.Machine
end

