-- ==== Sys2Proof/Machine/Trust.lean ====
section
/-! DEFINITION. Firmware images and franked reports: FW_STAGE, FW_ACTIVATE, ATTEST (spec/20 R387 to R391). -/

namespace Sys2Proof.Machine

/-! ### FW_STAGE and FW_ACTIVATE (R388, R389) -/

/-- The security version of an image, 0 to 64. -/
def svnOf (img : List Byte) : Nat := min 64 (Config.imageSvn img)

/-- The image that a bank holds. -/
def bankImage (s : State) (b : Bool) : List Byte := (if b then s.fw.imageB else s.fw.imageA).getD (Config.factoryImage b)

/-- The security version of the running image. -/
def runningSvn (s : State) : BitVec 8 := if s.fw.running then s.fw.svnB else s.fw.svnA

/-- The image is written into the bank that is not running, and a pending SELECT of that bank is cancelled. -/
def stageImage (s : State) (img : List Byte) : State :=
  let v : BitVec 8 := BitVec.ofNat 8 (svnOf img)
  let f := { s.fw with staged := some v, selected := s.fw.running }
  { s with fw := if s.fw.running then { f with imageA := some img, svnA := v } else { f with imageB := some img, svnB := v } }

/-- FW_STAGE: the checks of R387, in order. -/
def execFwStage (p : Packet) (s : State) : Out := mgmtCommand p 0x91 s fun s =>
  let w := p.param
  let size := bits w 144 32
  if !zeroBits p 0 144 || bits w 176 48 % 4096 != 0 || size == 0 || decide (16777216 < size) then answer s p 0x91 0x0102 0
  else match mgmtRead s none (bits w 224 32) (bits w 176 48) size with
    | none => answer s p 0x91 0x0102 0
    | some rd =>
      if !rd.bad.isEmpty then answer s p 0x91 0x0500 0
      else if !Config.keyDigestMatches rd.bytes || !Config.signatureVerifies rd.bytes then answer s p 0x91 0x0600 0
      else if svnOf rd.bytes < s.fw.floor.toNat then answer s p 0x91 0x0601 0
      else answer (stageImage s rd.bytes) p 0x91 0 0

/-- FW_ACTIVATE with one of its three ops. -/
def fwActivate (p : Packet) (op : Nat) (s : State) (f : State → State) : Out := mgmtCommand p 0x92 s fun s =>
  if bits p.param 254 2 ≠ op then s
  else if !zeroBits p 0 254 then answer s p 0x92 0x0102 0
  else f s

/-- FW_ACTIVATE SELECT. -/
def execFwActivateSelect (p : Packet) (s : State) : Out := fwActivate p 0 s fun s =>
  if s.fw.staged.isNone then answer s p 0x92 0x0105 0
  else answer { s with fw := { s.fw with selected := !s.fw.running } } p 0x92 0 0

/-- FW_ACTIVATE RAISE_FLOOR. -/
def execFwActivateRaiseFloor (p : Packet) (s : State) : Out := fwActivate p 1 s fun s =>
  answer { s with fw := { s.fw with floor := if s.fw.floor < runningSvn s then runningSvn s else s.fw.floor } } p 0x92 0 0

/-- FW_ACTIVATE KEEP. -/
def execFwActivateKeep (p : Packet) (s : State) : Out := fwActivate p 2 s fun s =>
  answer { s with fw := { s.fw with selected := s.fw.running } } p 0x92 0 0

/-! ### ATTEST (R390, R391) -/

/-- The items that m_cfg covers: the module's and the slot's, as the last CFG_SWAP found them. -/
def measuredItems (s : State) (n : Nat) : List (BitVec 64) :=
  let c := s.measured
  c.part.toList.map (·.setWidth 64) ++ c.window.toList ++ [c.risk, c.power] ++
  (c.routes.toList.flatMap fun t => t.map fun e => BitVec.ofNat 64 (e.1 * 65536 + e.2.toNat)) ++ [c.timeout] ++
  (rangesOf c n).map (·.2) ++ [vget c.groups n 0, vget c.loss n 0, vget c.secured n 0]

/-- `len` bytes of a value that the security engine gives. -/
def engineBytes (len : Nat) (f : Nat → Byte) : List Byte := (List.range len).map f

/-- The ident field of a report. -/
def reportIdent (s : State) (n : Nat) : Nat :=
  pack [(16, 0x0001), (16, (identOf s n).toNat), (16, (modIdOf s).toNat), (8, 0xB0), (8, s.fw.major.toNat), (8, s.fw.minor.toNat),
    (8, (runningSvn s).toNat), (8, s.fw.floor.toNat)]

/-- Bytes 0 to 30,239 of the franked report (Table 20.7). -/
def reportBody (s : State) (n : Nat) (nonce : Nat) : List Byte :=
  let plans := match ctxOf s n with
    | some c => c.plans.flatMap (·.2.digest)
    | none => []
  leBytes 16 (reportIdent s n) ++ leBytes 8 s.postmark.toNat ++ leBytes 16 nonce ++ List.replicate 24 0 ++
  shake256 (bankImage s s.fw.running) 64 ++ engineBytes 64 Config.fuseDigest ++
  engineBytes 64 (Config.cfgDigest (measuredItems s n)) ++ shake256 plans 64 ++ engineBytes 64 Config.identityKey ++
  engineBytes 64 Config.rootKey ++ engineBytes 29792 Config.certificate

/-- ATTEST. -/
def execAttest (p : Packet) (s : State) : Out := ctxCommand p 0x90 s fun n s =>
  let addr := bits p.param 192 64
  if addr % 64 ≠ 0 ∨ !zeroBits p 0 64 then answer s p 0x90 0x0102 0
  else
    let body := reportBody s n (bits p.param 64 128)
    answer (hostRecord s addr (body ++ engineBytes 49856 (Config.identitySignature body))) p 0x90 0 0

end Sys2Proof.Machine
end

