-- ==== Sys2Proof/Machine/Link.lean ====
section
/-! DEFINITION. The receiving side of the link layer, ports that train and go down, FAB_ROUTE_LOAD and FAB_MEMBERSHIP (spec/16 R292 to
R302, R308, R316). -/

namespace Sys2Proof.Machine

/-! ### A port that goes down (R316, Table 16.11) -/

/-- The transaction that a flit of the retry buffer belongs to: its source, number, epoch, context and address; none for VC2, VC3. -/
def lostTxnOf (f : Flit) : Option (BitVec 14 × BitVec 16 × BitVec 8 × BitVec 16 × BitVec 64) :=
  let h := f.txn
  if vcOf h.op = 0 then some (h.srcMod, h.txn, h.epoch, h.ctx, h.addr)
  else if vcOf h.op = 1 then some (h.dstMod, h.txn, h.epoch, h.ctx, h.addr)
  else none

/-- PATH_DOWN goes to the source of a transaction; it names the transaction by its number, epoch and address. -/
def sendPathDown (s : State) (n : Nat) (x : BitVec 14 × BitVec 16 × BitVec 8 × BitVec 16 × BitVec 64) : State :=
  let f : Flit := { link := LinkHdr.zero, data := [], crc := 0,
                    txn := { TxnHdr.zero with op := 0xC0, srcMod := x.1, dstMod := x.1, txn := x.2.1, epoch := x.2.2.1, ctx := x.2.2.2.1,
                                              last := true, hops := 63, addr := x.2.2.2.2 } }
  if s.modId = some x.1 then modPort s n fun p => { p with selfBuf := p.selfBuf ++ [f] } else sendFlit s n f

/-- Port `n` is declared down. -/
def downPort (s : State) (n : Nat) (cause : PortCause) : State :=
  let p := portOf s n
  let s1 := modPort s n fun x =>
    { x with state := .down, cause := cause, retry := [], txQ := .replicate 4 [], credits := .replicate 4 0, owed := .replicate 4 0 }
  let s2 := (p.txQ.toList.flatMap id).foldl (fun s x => routeOut s x.1.toNat x.2) s1
  let s3 := (((p.retry.filterMap lostTxnOf).eraseDups).take 256).foldl (fun s x => sendPathDown s n x) s2
  let s4 := logHealth s3 (if cause = .unitFault then 5 else 6) (0x100 + n) (portCauseCode cause) 0xFFFF n
  eventReceipt (risk s4 4 (32 * 65536)) 64 (Config.eventStatus 2).toNat (Config.eventDetail 2).toNat 0

/-- Port `n` comes up: sequence numbers from 0, and credits for the partner's buffers (R295). -/
def upPort (s : State) (n : Nat) : State :=
  modPort s n fun x =>
    { x with state := .up, cause := .none, lanes := 0xF, txSeq := 0, rxSeq := 0, rxGood := false, discarding := false, retry := [],
             credits := Port.init.credits, owed := .replicate 4 0, uncorrAt := [] }

/-- LANE_LOCK_LOSS. -/
def execLaneLockLoss (port : BitVec 4) (lane : BitVec 2) (s : State) : Out :=
  let n := port.toNat
  let s1 := modPort s n fun x => { x with lanes := putBits x.lanes lane.toNat 1 0 }
  .next (if (portOf s n).state = .down then s1 else downPort s1 n .laneLock)

/-- PORT_TRAIN: a port that trains comes up. -/
def execPortTrain (port : BitVec 4) (s : State) : Out :=
  .next (if (portOf s port.toNat).state = .training then upPort s port.toNat else s)

/-- TRAIN_TIMEOUT. -/
def execTrainTimeout (port : BitVec 4) (s : State) : Out :=
  .next (if (portOf s port.toNat).state = .training then downPort s port.toNat .trainFail else s)

/-- LINK_DOWN_TIMEOUT: no good flit for 6 µs, or a flit unacknowledged for 6 µs (R294). -/
def execLinkDownTimeout (port : BitVec 4) (silence : Bool) (s : State) : Out :=
  let p := portOf s port.toNat
  .next (if p.state = .up ∧ (silence ∨ p.retry ≠ []) then downPort s port.toNat (if silence then .silence else .retryBound) else s)

/-! ### Acknowledgements, credits, replays (R294, R295) -/

/-- A good flit's acknowledgement and credit returns. -/
def takeLink (p : Port) (l : LinkHdr) : Port :=
  let retry := if l.ackV ∧ p.retry.any (fun f => f.link.seq == l.ack) then (p.retry.dropWhile fun f => f.link.seq != l.ack).drop 1
    else p.retry
  { p with retry := retry, credits := #v[vget p.credits 0 0 + l.cr0.toNat, vget p.credits 1 0 + l.cr1.toNat,
                                         vget p.credits 2 0 + l.cr2.toNat, vget p.credits 3 0 + l.cr3.toNat] }

/-- Sends a flit of the retry buffer again. -/
def resendFlit (s : State) (n : Nat) (f : Flit) : State :=
  let (p, g) := stamp (portOf s n) f
  emit (modPort s n fun _ => p) (.flit (BitVec.ofNat 4 n) g)

/-- Every unacknowledged flit is replayed, in order; a replay is counted (spec/18 Table 18.7). -/
def replay (s : State) (n : Nat) : State :=
  match (portOf s n).retry with
  | [] => s
  | fs =>
    let s1 := risk (logHealth (modPort s n fun x => { x with replays := x.replays + 1 }) 1 (0x100 + n) 0 0xFFFF n) 3 256
    fs.foldl (fun s f => resendFlit s n f) s1

/-- REPLAY_REQ. -/
def execReplayReq (port : BitVec 4) (link : LinkHdr) (s : State) : Out :=
  let n := port.toNat
  .next (if (portOf s n).state = .up then pump (replay (modPort s n fun p => takeLink p link) n) n else s)

/-- REPLAY_TIMEOUT. -/
def execReplayTimeout (port : BitVec 4) (s : State) : Out :=
  .next (if (portOf s port.toNat).state = .up then replay s port.toNat else s)

/-! ### FLIT_RECEIVE (R292 to R300) -/

/-- Codewords: corrected ones are counted, and uncorrectable ones of the last 1 ms are kept (R316). -/
def countFec (s : State) (n : Nat) (fec : Fec) : State :=
  let s1 := modPort s n fun p =>
    { p with fecCorr := p.fecCorr + BitVec.ofNat 16 fec.corrected,
             uncorrAt := p.uncorrAt.filter (fun t => (s.postmark - t).toNat < 800000) ++ List.replicate fec.uncorrectable s.postmark }
  if fec.corrected = 0 then s1 else risk (logHealth s1 1 (0x100 + n) 0 0xFFFF n) 2 fec.corrected

/-- A TXN flit is discarded: the first after an accepted one sends REPLAY_REQ. -/
def discardFlit (s : State) (n : Nat) : State :=
  if (portOf s n).discarding then s else emit (modPort s n fun p => { p with discarding := true }) (.replayReq (BitVec.ofNat 4 n))

/-- A reserved op or field (R297). -/
def reservedFlit (f : Flit) : Bool :=
  let h := f.txn
  !([0x01, 0x02, 0x03, 0x04, 0x40, 0x41, 0x42, 0x80, 0x81, 0xC0, 0xC1, 0xC2] : List (BitVec 8)).contains h.op || h.rsv != 0 ||
  decide (464 < h.len.toNat) || (h.op == 0x03 && decide (7 ≤ h.sub.toNat)) || f.link.rsv != 0

/-- A buffer entry of channel `v` is free, and its credit is owed. -/
def freeEntry (s : State) (n v : Nat) : State := modPort s n fun p => { p with owed := vset p.owed v (vget p.owed v 0 + 1) }

/-- An accepted TXN flit: dropped while the module has no identifier, kept for the unit here that takes it, or forwarded. -/
def deliverFlit (s : State) (n : Nat) (f : Flit) : State :=
  let v := (vcOf f.txn.op).toNat
  let s1 := freeEntry s n v
  if s.modId.isNone then dropFlit s1
  else if s.modId = some f.txn.dstMod then
    if reservedFlit f then dropFlit s1
    else if f.txn.op = 0xC1 ∨ f.txn.op = 0xC2 then s1
    else modPort s n fun p => { p with rxBuf := vset p.rxBuf v (vget p.rxBuf v [] ++ [f]) }
  else if f.txn.hops = 0 then bounce (logHealth s1 0 (0x100 + n) 0x05 f.txn.ctx.toNat f.txn.dstMod.toNat) n f 5
  else match routePort s1 n f.txn.dstMod with
    | some m => enqueue s1 m n (hop f)
    | none => bounce s1 n f 4

/-- A flit with a good CRC. -/
def takeFlit (s : State) (n : Nat) (f : Flit) : State :=
  let s1 := modPort s n fun p => takeLink p f.link
  let p := portOf s1 n
  if f.link.kind = 0 then
    if f.link.seq = p.rxSeq then
      respond (deliverFlit (modPort s1 n fun p => { p with rxSeq := p.rxSeq + 1, rxGood := true, discarding := false }) n f) n
    else discardFlit s1 n
  else if f.link.kind = 2 then pump (replay s1 n) n
  else if f.link.kind = 1 then pump s1 n
  else dropFlit s1

/-- FLIT_RECEIVE. -/
def execFlitReceive (port : BitVec 4) (f : Flit) (fec : Fec) (s : State) : Out :=
  let n := port.toNat
  if (portOf s n).state ≠ .up then .next s
  else
    let s1 := countFec s n fec
    if 16 < (portOf s1 n).uncorrAt.length then .next (downPort s1 n .fecRate)
    else if fec.uncorrectable ≠ 0 ∨ f.crc ≠ crc32c (flitBytes f) then
      .next (discardFlit (modPort s1 n fun p => { p with crcFail := p.crcFail + 1 }) n)
    else .next (takeFlit s1 n f)

/-! ### FAB_ROUTE_LOAD (R298, R302) -/

/-- The fields of Table 16.8. -/
def frObj (w : BitVec 256) : Nat := bits w 224 32
def frOff (w : BitVec 256) : Nat := bits w 176 48
def frPorts (w : BitVec 256) : List Nat := numsBelow 16 fun p => bit w (160 + p)
def frSelf (w : BitVec 256) : BitVec 14 := BitVec.ofNat 14 (bits w 146 14)
def frTmo (w : BitVec 256) : Nat := bits w 137 9
def frRetrain (w : BitVec 256) : List Nat := numsBelow 16 fun p => bit w (120 + p)

/-- An offset on the granule of the object's tier (spec/11 Table 11.1). -/
def onGranule (s : State) (n id off : Nat) : Bool := match objOf s n id with
  | some o => off % granule o.tier == 0
  | none => false

/-- A field of FAB_ROUTE_LOAD is refused. -/
def routeBad (s : State) (p : Packet) : Bool :=
  let w := p.param
  !zeroBits p 0 120 || bit w 136 || (s.modId.isSome && s.modId != some (frSelf w)) || decide (frTmo w < 20 ∨ 500 < frTmo w) ||
  (frRetrain w).any (fun p => (portOf s p).state == .up) ||
  match mgmtHolder s none (frObj w) with
  | some n => !onGranule s n (frObj w) (frOff w)
  | none => true

/-- A route table from its 32 KiB; the reserved bit of an entry stays 0. -/
def routeTable (bs : List Byte) : Table (BitVec 16) :=
  (List.range 16384).filterMap fun m =>
    let e : BitVec 16 := putBits (BitVec.ofNat 16 (ofLe ((bs.drop (2 * m)).take 2))) 12 1 0
    if e = 0 then none else some (m, e)

/-- A retrain: a gated port stays down (spec/21 R396). -/
def retrainPort (s : State) (n : Nat) : State :=
  let p := portOf s n
  if p.state ≠ .down then s
  else if p.gated then modPort s n fun x => { x with cause := .trainFail }
  else modPort s n fun x => { x with state := .training, lanes := 0 }

/-- The shadow set with the tables and the timeout. -/
def loadRoutes (c : ConfigSet) (w : BitVec 256) (bs : List Byte) : ConfigSet :=
  { c with timeout := BitVec.ofNat 64 (frTmo w),
           routes := (frPorts w).zipIdx.foldl (fun r (p, i) => vset r p (routeTable ((bs.drop (32768 * i)).take 32768))) c.routes }

/-- FAB_ROUTE_LOAD. -/
def execFabRouteLoad (p : Packet) (s : State) : Out := mgmtCommand p 0x88 s fun s =>
  let w := p.param
  if routeBad s p then answer s p 0x88 0x0102 0
  else match mgmtRead s none (frObj w) (frOff w) (32768 * (frPorts w).length) with
    | none => answer s p 0x88 0x0102 0
    | some rd =>
      if s.swap.isSome then answer s p 0x88 0x0300 0
      else if !rd.bad.isEmpty then answer s p 0x88 0x0500 0
      else
        let s1 := modShadow { s with modId := some (frSelf w) } fun c => loadRoutes c w rd.bytes
        answer ((frRetrain w).foldl retrainPort s1) p 0x88 0 0

/-! ### FAB_MEMBERSHIP (R308) -/

/-- The list as it lies in memory; none where an entry's reserved bits are set, a member repeats, or this module is absent. -/
def memberList (s : State) (n : Nat) (bs : List Byte) : Option (List (BitVec 14)) :=
  let es := (List.range n).map fun i => ofLe ((bs.drop (2 * i)).take 2)
  let ms : List (BitVec 14) := es.map (BitVec.ofNat 14)
  if es.any (fun e => decide (16384 ≤ e)) || !decide ms.Nodup || !(match s.modId with
      | some m => ms.contains m
      | none => false) then none
  else some ms

/-- The list is written: it takes effect at the next STEP_BEGIN, and its members are lost no more (spec/18 R345). -/
def writeList (s : State) (n l : Nat) (ms : List (BitVec 14)) : State :=
  let s1 := modCtx s n fun c =>
    let m := (tget c.lists l).getD { now := [], next := none, excluded := [], leaving := [], base := [], selfLost := false }
    { c with lists := tput c.lists l { m with next := some ms, selfLost := false } }
  { s1 with lostMods := s1.lostMods.filter fun x => !ms.contains x }

/-- FAB_MEMBERSHIP. -/
def execFabMembership (p : Packet) (s : State) : Out := ctxCommand p 0x89 s fun n s =>
  let w := p.param
  let k := bits w 157 15
  let id := bits w 224 32
  let off := bits w 176 48
  if !zeroBits p 0 157 || k == 0 || decide (16384 < k) || !onGranule s n id off then answer s p 0x89 0x0102 0
  else match readObjAt s n id off (2 * k) with
    | none => answer s p 0x89 0x0102 0
    | some rd =>
      if !rd.bad.isEmpty then answer s p 0x89 0x0500 0
      else match memberList s k rd.bytes with
        | none => answer s p 0x89 0x0102 0
        | some ms => answer (writeList s n (bits w 172 4) ms) p 0x89 0 0

end Sys2Proof.Machine
end

