-- ==== Sys2Proof/Machine/HardFault.lean ====
section
/-! DEFINITION. Units with a hard fault, and clock multiplexers that hang (spec/03 R54; spec/11 R222; spec/15 R287; spec/16 R316; spec/18
Table 18.1; spec/21 R397). -/

namespace Sys2Proof.Machine

/-- A hard fault of a port's router slice, reduce unit or update unit: the port is down, and the running steps do not commit (R316). -/
def portUnitFault (s : State) (p : Nat) : State :=
  let s1 := downPort (modPort s p fun x => { x with unitsOut := true }) p .unitFault
  (List.range 64).foldl (fun s n => abortStep s n 0) s1

/-- A video pipeline retires. -/
def videoFault (s : State) (k : Nat) : State := retirePipe (logHealth s 5 (0x400 + k) 0 0xFFFF 0) k

/-- UNIT_HARD_FAULT. -/
def execUnitHardFault (u : HardUnit) (s : State) : Out :=
  if !ready s then .next s
  else match u with
    | .kid k | .walker k | .codec k | .sync k | .storePort k =>
      .next (if (clusterOf s k.toNat).syncFenced then s else fenceCluster s k.toNat)
    | .bank b => .next (retireBank s b.toNat)
    | .video p => if 6 ≤ p.toNat then .fault .noSuchUnit else .next (if (pipeOf s p.toNat).retired then s else videoFault s p.toNat)
    | .router p | .reduce p | .update p => .next (if (portOf s p.toNat).unitsOut then s else portUnitFault s p.toNat)

/-- The code of a clock domain (spec/21 Table 21.1, in table order). -/
def domainCode : ClkDomain → Nat
  | .arith => 0
  | .fab => 1
  | .ctrl => 2
  | .io => 3

/-- The switch of CLK_ARITH that hung: a CLK_REQUEST is answered MUX_HUNG; a switch of the firmware's own writes an event receipt. -/
def arithHung (s : State) : State :=
  let s1 := cancelAll { s with age := { s.age with clkPend := none } }
  match s.age.clkPend with
  | some { pkt := some p, .. } => answer s1 p 0xA1 0x0701 0
  | _ => eventReceipt s1 64 0x0701 (domainCode .arith) 0

/-- The jobs of a pipeline end as at a hard fault; the pipeline stays in service. -/
def endVideoJobs (s : State) (k : Nat) : State :=
  modPipe (retirePipe s k) k fun x => { x with retired := (pipeOf s k).retired }

/-- The reset of a domain that runs (R397). -/
def domainReset (s : State) (d : ClkDomain) : State := match d with
  | .arith => arithHung s
  | .fab =>
    eventReceipt ((List.range 16).foldl (fun s p => if (portOf s p).state = .down then s else downPort s p .unitFault) s) 64 0x0701
      (domainCode .fab) 0
  | .io => eventReceipt (setErr ((List.range 6).foldl endVideoJobs s) 3) 64 0x0701 (domainCode .io) 0
  | .ctrl => releaseReset (warmReset s)

/-- MUX_HUNG: in phase CLOCKS start-up fails. -/
def execMuxHung (d : ClkDomain) (s : State) : Out :=
  .next (if inPhase s .clocks then failStart s 0x13 else if ready s then domainReset s d else s)

end Sys2Proof.Machine
end

