-- ==== Sys2Proof/Machine/Kid.lean ====
section
/-! DEFINITION. The Kid engine: its job descriptor, its checks, its arithmetic (spec/07 R129 to R135). -/

namespace Sys2Proof.Machine

/-! ### The job descriptor (Table 7.4) -/

def kW (d : BitVec 512) : Geo := geoOf (bits d 448 64)
def kH (d : BitVec 512) : Geo := geoOf (bits d 384 64)
def kT (d : BitVec 512) : Geo := geoOf (bits d 320 64)
def kPadC (d : BitVec 512) : Nat := bits d 288 32
def kWaddr (d : BitVec 512) : Nat := bits d 256 32
def kOaddr (d : BitVec 512) : Nat := bits d 224 32
def kPpitch (d : BitVec 512) : Nat := 64 * bits d 208 16
def kRpitch (d : BitVec 512) : Nat := 64 * bits d 192 16
def kOh0 (d : BitVec 512) : Nat := bits d 176 16
def kOt0 (d : BitVec 512) : Nat := bits d 160 16
def kOhn (d : BitVec 512) : Nat := bits d 152 8
def kItn (d : BitVec 512) : Nat := bits d 144 8
def kIh0 (d : BitVec 512) : Nat := bits d 128 16
def kIt0 (d : BitVec 512) : Nat := bits d 112 16
def kIhn (d : BitVec 512) : Nat := bits d 104 8
def kLsIn (d : BitVec 512) : Nat := 64 * bits d 93 11
def kLsRow (d : BitVec 512) : Nat := 64 * bits d 82 11
def kLsFrame (d : BitVec 512) : Nat := 64 * bits d 71 11
def kCin (d : BitVec 512) : Nat := bits d 66 5
def kOn (d : BitVec 512) : Nat := bits d 59 7
def kFin (d : BitVec 512) : Nat := bits d 55 4
def kFout (d : BitVec 512) : Nat := bits d 51 4
def kPmode (d : BitVec 512) : Nat := bits d 49 2
def kOvm (d : BitVec 512) : Bool := bit d 48
def kBias (d : BitVec 512) : Bool := bit d 47

/-- The taps of a job, and the weights it names. -/
def kTaps (d : BitVec 512) : Nat := (kT d).k * (kH d).k * (kW d).k * kCin d
def kWeights (d : BitVec 512) : Nat := kOn d * kTaps d

/-- The bytes of weights and bias from w_addr (R130). -/
def kLoad (d : BitVec 512) : Nat := if kBias d then roundUp (2 * kWeights d) 256 + 4 * kOn d else 2 * kWeights d

/-- Output pixels of a row. -/
def kOw (d : BitVec 512) : Nat := (kW d).out.toNat

/-- The bytes of the shared store (spec/11 R197). -/
def sharedBytes : Nat := 1536 * 2 ^ 20

/-! ### The checks (R133) -/

/-- A geometry record with a zero extent or a reserved bit. -/
def geoBad (d : BitVec 512) (at_ : Nat) : Bool :=
  let g := geoOf (bits d at_ 64)
  g.inExt == 0 || g.k == 0 || g.dil == 0 || g.stride == 0 || bits d at_ 2 != 0

/-- A reserved value, or a field outside its range or beyond the engine's limits. -/
def kidFieldBad (d : BitVec 512) : Bool :=
  geoBad d 448 || geoBad d 384 || geoBad d 320 || bits d 0 47 != 0 || kCin d == 0 || decide (16 < kCin d) || kOn d == 0 ||
  decide (64 < kOn d) || kOhn d == 0 || kItn d == 0 || kIhn d == 0 || !kidFmt (kFin d) || !kidFmt (kFout d) ||
  kWaddr d % 256 != 0 || kOaddr d % 64 != 0 || decide (2048 < kTaps d) || decide (sharedBytes < kWaddr d + kLoad d) ||
  decide (sharedBytes < kOaddr d + (kOhn d - 1) * kRpitch d + (kOw d - 1) * kPpitch d + kOn d * elemBytes (kFout d) 1)

/-- Where tap (kt, kh) of output row `oh` reads: the frame and the row, none in substituted padding. -/
def kFrame (d : BitVec 512) (kt : Nat) : Option Nat :=
  padPos (kPmode d) (kT d).inExt (((kOt0 d * (kT d).stride + (kT d).dil * kt : Nat) : Int) - (kT d).lo)
def kRow (d : BitVec 512) (oh kh : Nat) : Option Nat :=
  padPos (kPmode d) (kH d).inExt (((oh * (kH d).stride + (kH d).dil * kh : Nat) : Int) - (kH d).lo)
def kCol (d : BitVec 512) (ow kw : Nat) : Option Nat :=
  padPos (kPmode d) (kW d).inExt (((ow * (kW d).stride + (kW d).dil * kw : Nat) : Int) - (kW d).lo)

/-- Some output pixel reads a real element of the rows, at some tap along W. -/
def kSomeCol (d : BitVec 512) : Bool :=
  (List.range (kOw d)).any fun ow => (List.range (kW d).k).any fun kw => (kCol d ow kw).isSome

/-- A position is held: inside the tensor and inside the ring. -/
def kHeld (ext lo n p : Nat) : Bool := decide (p < ext ∧ lo ≤ p ∧ p < lo + n)

/-- A ring beyond the line buffers, or a row, frame or column that a tap needs and the ring does not hold. -/
def kidRingBad (d : BitVec 512) : Bool :=
  let row := roundUp (elemBytes (kFin d) ((kW d).inExt * kCin d)) 64
  decide (0x20000 < kLsIn d + (kItn d - 1) * kLsFrame d + (kIhn d - 1) * kLsRow d + row) ||
  (kSomeCol d && (List.range (kT d).k).any fun kt => match kFrame d kt with
    | none => false
    | some f => (List.range (kOhn d)).any fun r => (List.range (kH d).k).any fun kh => match kRow d (kOh0 d + r) kh with
      | none => false
      | some h => !kHeld (kT d).inExt (kIt0 d) (kItn d) f || !kHeld (kH d).inExt (kIh0 d) (kIhn d) h) ||
  ((List.range (kOw d)).any fun ow => (List.range (kW d).k).any fun kw => match kCol d ow kw with
    | some p => decide ((kW d).inExt ≤ p)
    | none => false)

/-- The fault of a descriptor, if any: RSV_ENC first, then LS_RANGE. -/
def kidFault (d : BitVec 512) : Option Nat :=
  if kidFieldBad d then some 1 else if kidRingBad d then some 2 else none

/-! ### Weights (R130, R135) -/

/-- The weights and bias as the shared store holds them; what reads as uncorrectable enters the buffer as NaNs. -/
def kidLoad (s : State) (d : BitVec 512) : List Byte × Bool :=
  let r := readPlace s 0 (.shared (kWaddr d)) 0 (kLoad d)
  let cutAt := min (roundUp (2 * kWeights d) 256) r.bytes.length
  let w := nanElems 2 (r.bytes.take cutAt) (r.bad.filter (· < cutAt))
  let b := nanElems 0 (r.bytes.drop cutAt) (r.bad.filterMap fun x => if cutAt ≤ x then some (x - cutAt) else none)
  (w ++ b, !r.bad.isEmpty)

/-- Byte `i` of the weight buffer. -/
def weightByte (s : State) (k : Nat) (i : Nat) : Byte :=
  ((clusterOf s k).kidWeights[i]?).getD (Config.staleWeight s.fresh i)

/-- The word of the weight buffer that holds byte `i` is uncorrectable (R135). -/
def weightBad (wbuf : List LsError) (i : Nat) : Bool := wbuf.any fun e => e.hard && e.addr / 8 == i / 8

/-- Weight (o, kt, kh, kw, c), and the bias of channel o; a NaN where the buffer's word is uncorrectable. -/
def kidWeight (d : BitVec 512) (wb : Nat → Byte) (wbuf : List LsError) (o kt kh kw c : Nat) : FVal :=
  let e := (((o * (kT d).k + kt) * (kH d).k + kh) * (kW d).k + kw) * kCin d + c
  if weightBad wbuf (2 * e) then .nan else decodeElem 2 (elemAt wb 2 e)
def kidBias (d : BitVec 512) (wb : Nat → Byte) (wbuf : List LsError) (o : Nat) : FVal :=
  let base := roundUp (2 * kWeights d) 256
  if weightBad wbuf (base + 4 * o) then .nan else decodeElem 0 (elemAt (fun i => wb (base + i)) 0 o)

/-! ### The arithmetic (R119, R120, R131) -/

/-- The input that tap (kt, kh, kw) of pixel (oh, ow) reads in channel `c`: none in substituted padding. -/
def kidInput (d : BitVec 512) (ls : Mem) (errs : List LsError) (oh ow kt kh kw c : Nat) : Option FVal :=
  match kFrame d kt, kRow d oh kh, kCol d ow kw with
  | some f, some h, some w =>
    let base := 0x1E0000 + kLsIn d + (f - kIt0 d) * kLsFrame d + (h - kIh0 d) * kLsRow d
    let e := w * kCin d + c
    let sp := elemSpan (kFin d) e
    if errs.any fun x => x.hard && decide (x.addr / 8 * 8 ≤ base + sp.2 ∧ base + sp.1 < x.addr / 8 * 8 + 8) then some .nan
    else some (decodeElem (kFin d) (elemAt (fun i => Mem.byte ls (base + i)) (kFin d) e))
  | _, _, _ => none

/-- The tap is wholly in padding for the 128 pixels that the engine takes together. -/
def kidSkips (d : BitVec 512) (oh ow kt kh kw : Nat) : Bool :=
  kPmode d == 0 && ((kFrame d kt).isNone || (kRow d oh kh).isNone ||
    (List.range (min 128 (kOw d - ow / 128 * 128))).all fun i => (kCol d (ow / 128 * 128 + i) kw).isNone)

/-- The value that padding substitutes. -/
def kidPad (d : BitVec 512) : FVal :=
  if kPmode d = 1 then decodeElem (kFin d) (convElem (kFin d) false (dec32 (kPadC d))).1 else .zero

/-- The taps in the order of R131. -/
def kidOrder (d : BitVec 512) : List (Nat × Nat × Nat × Nat) :=
  (List.range (kT d).k).flatMap fun kt => (List.range (kH d).k).flatMap fun kh =>
    (List.range (kW d).k).flatMap fun kw => (List.range (kCin d)).map fun c => (kt, kh, kw, c)

/-- Output element (oh, ow, o) with its conversion events. -/
def kidElem (d : BitVec 512) (ls : Mem) (errs wbuf : List LsError) (wb : Nat → Byte) (oh ow o : Nat) : Nat × Events :=
  let sum := (kidOrder d).foldl (fun acc (kt, kh, kw, c) =>
    if kidSkips d oh ow kt kh kw then acc
    else
      let v := (kidInput d ls errs oh ow kt kh kw c).getD (kidPad d)
      r32 (acc.add (v.mul (kidWeight d wb wbuf o kt kh kw c)))) FVal.zero
  convElem (kFout d) (kOvm d) (if kBias d then r32 (sum.add (kidBias d wb wbuf o)) else sum)

/-- One output pixel: its channels' bytes and the events. -/
def kidPixel (d : BitVec 512) (ls : Mem) (errs wbuf : List LsError) (wb : Nat → Byte) (oh ow : Nat) : List Byte × Events :=
  let es := (List.range (kOn d)).map fun o => kidElem d ls errs wbuf wb oh ow o
  (elemsToBytes (kFout d) (es.map (·.1)) 0, es.foldl (fun a e => a.or e.2) .none)

/-- The job's output, pixel by pixel, in the shared store. -/
def runKid (s : State) (k : Nat) (j : KidJob) (errs wbuf : List LsError) : State × Events :=
  let d := j.desc
  let ls := (coreOf s j.core.toNat).ls
  let wb := weightByte s k
  (List.range (kOhn d)).foldl (fun acc r => (List.range (kOw d)).foldl (fun (acc : State × Events) ow =>
    let px := kidPixel d ls errs wbuf wb (kOh0 d + r) ow
    (writePlace acc.1 j.slot.toNat (.shared (kOaddr d)) (r * kRpitch d + ow * kPpitch d) px.1, acc.2.or px.2)) acc) (s, .none)

/-! ### The commands -/

/-- An entry of the Kid engine of cluster `k` is free: the threads that wait for one issue again. -/
def freeKid (s : State) (k : Nat) : State := (clusterCores k).foldl (fun s c => modCore s c (wakeHeld .kidEntry)) s

/-- The engine of cluster `k` takes job `j`: it keeps its weights where w_addr is that of the job before, and loads them else. -/
def acceptKid (s : State) (k : Nat) (j : KidJob) (soft : List Nat) : State :=
  let a : BitVec 32 := BitVec.ofNat 32 (kWaddr j.desc)
  if (clusterOf s k).kidWaddr = some a then modCluster s k fun x => { x with kidRun := some j }
  else
    let r := kidLoad s j.desc
    let s0 := modCluster s k fun x => { x with kidRun := some j, kidWaddr := some a, kidWeights := r.1 }
    let s1 := soft.foldl (fun s i =>
      risk (logHealth s 1 (0x300 + sharedBank s (kWaddr j.desc + i)) 0 (identOf s j.slot.toNat).toNat (kWaddr j.desc + i)) 1 4096) s0
    if r.2 then
      let at_ := ((List.range (kLoad j.desc)).find? fun i => sharedBadAt s (kWaddr j.desc + i)).getD 0 + kWaddr j.desc
      hitShared (dataError s1 j.slot.toNat (0x300 + sharedBank s1 at_) at_) at_
    else s1

/-- What the weight buffer's code reports (R135): a corrected word is counted, an uncorrectable one ends the job's plan with
DATA_ERROR. DESIGN CHOICE (log 148): the log names the issuing core, with bit 47 set and the byte offset in the buffer where a local-store
address would stand. -/
def bufferErrors (s : State) (j : KidJob) (wbuf : List LsError) : State :=
  wbuf.foldl (fun s e =>
    let at_ := 2 ^ 47 + e.addr / 8 * 8
    if e.hard then dataError s j.slot.toNat j.core.toNat (at_ + 2 ^ 21 * instOf j.op) else softLsError s j.core.toNat at_) s

/-- KID_JOB_START. A job that fails its checks was accepted all the same, so the job after it keeps the buffer where the three
name one address (R130; log 52). -/
def execKidJobStart (start : KidStart) (s : State) : Out :=
  let k := start.cluster.toNat
  let x := clusterOf s k
  match ready s && !x.syncFenced, x.kidRun, x.kidQ with
  | true, none, j :: rest =>
    let s1 := modCluster s k fun x => { x with kidQ := rest }
    match kidFault j.desc with
    | some code =>
      .next (instrFault (freeKid (modCluster s1 k fun x => { x with kidWaddr := x.kidWaddr.filter (· == BitVec.ofNat 32 (kWaddr j.desc)) }) k)
        { core := j.core, thread := j.op.thread } j.op.pc.toNat code)
    | none => .next (acceptKid s1 k j start.soft)
  | _, _, _ => .next s

/-- KID_JOB_COMPLETE. -/
def execKidJobComplete (cluster : BitVec 4) (errs : KidErrors) (s : State) : Out :=
  let k := cluster.toNat
  match ready s, (clusterOf s k).kidRun with
  | true, some j =>
    let r := runKid s k j errs.ring errs.wbuf
    let s1 := freeKid (modCluster (draw r.1) k fun x => { x with kidRun := none }) k
    let s2 := signalSig (flagEvents s1 j.slot.toNat j.core.toNat r.2) j.core j.slot.toNat j.op.sig
    .next (bufferErrors (lsErrors s2 j.core.toNat (instOf j.op) errs.ring) j errs.wbuf)
  | _, _ => .next s

end Sys2Proof.Machine
end

