-- ==== Sys2Proof/Machine/RingCmds.lean ====
section
/-! DEFINITION. Post rings and doorbells: how the firmware takes and checks packets (spec/19 R362 to R371, R377), and the rings'
registers. -/

namespace Sys2Proof.Machine

/-! ### Opcodes (spec/19 Table 19.19) -/

/-- The opcodes of the table. -/
def opcodes : List Nat :=
  [0x00, 0x01, 0x02, 0x10, 0x11, 0x12, 0x13, 0x20, 0x21, 0x22, 0x23, 0x24, 0x25, 0x30, 0x31, 0x32, 0x40, 0x41, 0x42, 0x43] ++
  [0x50, 0x51, 0x52, 0x58, 0x59, 0x5A, 0x5B, 0x5C, 0x60, 0x61, 0x62, 0x70, 0x71, 0x78, 0x80, 0x81, 0x82, 0x88, 0x89, 0x90] ++
  [0x91, 0x92, 0xA0, 0xA1, 0xA2]

/-- Accepted on ring 64 only. -/
def opMgmt (op : Nat) : Bool :=
  ([0x50, 0x51, 0x52, 0x58, 0x59, 0x5A, 0x5B, 0x5C, 0x88, 0x91, 0x92, 0xA0, 0xA1] : List Nat).contains op

/-- SECURE_NOW with op DRAIN or UNDRAIN. -/
def isDrainCmd (op : Nat) (w : BitVec 256) : Bool := op == 0x81 && (bits w 254 2 == 1 || bits w 254 2 == 2)

/-- The context commands, which name a resident context on ring 64. -/
def opCtx (op : Nat) : Bool := ([0x59, 0x5A, 0x5B, 0x5C] : List Nat).contains op

/-- Commands that may act for the module on ring 64. -/
def opEither (op : Nat) : Bool := ([0x00, 0x01, 0x02, 0x80, 0xA2] : List Nat).contains op

/-- The length of a command in units. -/
def opUnits (op : Nat) (w : BitVec 256) : Nat :=
  if op = 0x61 then 1 + ceilDiv (bits w 216 8) 4 else if op = 0x70 ∨ op = 0x71 then 3 else 1

/-- An op field with a reserved value: such a packet is no command of the table. -/
def opReserved (op : Nat) (w : BitVec 256) : Bool :=
  (op == 0x78 && decide (3 ≤ tcOp w)) || ((op == 0x81 || op == 0x92) && bits w 254 2 == 3)

/-! ### Reading a packet (spec/19 R365, R366) -/

/-- A unit of a post ring, and whether the read of it was poisoned by the host; none where it cannot be read. -/
def unitAt (s : State) (n : Nat) (r : Ring) (u : Nat) : Option (BitVec 512) × Bool :=
  let a := bits r.postBase 12 36 * 4096 + 64 * (u % postUnits r)
  if bit r.postBase 63 then
    if windowFor s a 64 = some n ∧ lpOk s n a then
      (some (BitVec.ofNat 512 (ofLe ((List.range 64).map fun i => lpByte s n (a + i)))), false)
    else (none, false)
  else if s.hostPoison.contains (a / 64) then (none, true)
  else (some (BitVec.ofNat 512 (ofLe ((List.range 64).map fun i => hostRaw s (a + i)))), false)

/-- The units of a packet of `len` units at the head. -/
def unitsAt (s : State) (n : Nat) (r : Ring) (len : Nat) : List (Option (BitVec 512) × Bool) :=
  (List.range len).map fun i => unitAt s n r (r.head.toNat + i)

/-- The packet that a header and its units make (spec/19 Table 19.17). -/
def packetOf (n : Nat) (h : BitVec 512) (extra : List (BitVec 512)) : Packet :=
  { ring := BitVec.ofNat 7 n, tag := BitVec.ofNat 64 (bits h 128 64), ctx := BitVec.ofNat 16 (bits h 64 16),
    seq := BitVec.ofNat 32 (bits h 32 32), notify := bit h 8, fence := bit h 9, param := BitVec.ofNat 256 (bits h 256 256), extra := extra }

/-- The packet leaves the ring: `len` units, next_seq, a command slot. -/
def takePkt (s : State) (n : Nat) (p : Packet) (op len : Nat) : State :=
  let r := ringOf s n
  let s1 := setRing s n (refreshRing { r with head := r.head + BitVec.ofNat 32 len, nextSeq := p.seq + 1, taken := r.taken + 1,
                                              pktHeld := false })
  { s1 with slots := s1.slots ++ [{ opcode := BitVec.ofNat 8 op, pkt := p }] }

/-! ### The checks of a packet (spec/19 R367) -/

/-- Step 6: the context field. -/
def contextOk (s : State) (n op : Nat) (p : Packet) : Bool :=
  if n < 64 then (ctxOf s n).isSome && identOf s n == p.ctx
  else if op = 0x58 then true
  else if opMgmt op && !opCtx op || isDrainCmd op p.param then p.ctx == 0xFFFF
  else if opEither op then p.ctx == 0xFFFF || (slotOfIdent s p.ctx).isSome
  else (slotOfIdent s p.ctx).isSome

/-- Step 7: the context is quarantined, on ring 64. -/
def quarantinedFor (s : State) (n op : Nat) (p : Packet) : Bool :=
  n == 64 && op != 0x5C && op != 0x59 && match (slotOfIdent s p.ctx).bind (ctxOf s) with
    | some c => c.quarantined
    | none => false

/-- Steps 3 to 9: the status and the violation kind of the first that fails; kind 0 for none. -/
def headerFault (s : State) (n : Nat) (h : BitVec 512) (p : Packet) (len : Nat) : Option (Nat × Nat) :=
  let op := bits h 0 8
  if p.seq ≠ (ringOf s n).nextSeq then some (0x0103, 4)
  else if 0xF0 ≤ op then some (0x0105, 6)
  else if !opcodes.contains op then some (0x0100, 1)
  else if n < 64 ∧ (opMgmt op ∨ isDrainCmd op p.param) then some (0x0105, 6)
  else if !contextOk s n op p then some (0x0104, 5)
  else if quarantinedFor s n op p then some (0x0106, 0)
  else if len ≠ opUnits op p.param then some (0x0101, 2)
  else if bits h 10 6 ≠ 0 ∨ bits h 80 48 ≠ 0 ∨ bits h 192 64 ≠ 0 ∨ opReserved op p.param then some (0x0102, 3)
  else none

/-- A rule holds the packet in its ring: a fence, STEP_BEGIN (spec/01 R14, spec/10 R179), PLAN_START (spec/13 R252). -/
def packetWaits (s : State) (n op : Nat) (p : Packet) : Bool :=
  (p.fence && decide (0 < (ringOf s n).taken)) || match pktSlot s p with
    | some k => (op == 0x24 && beginHeld s k) || (op == 0x22 && stepHeld s k)
    | none => false

/-- A taken packet that fails a check is answered. -/
def refusePkt (s : State) (p : Packet) (op : Nat) (why : Nat × Nat) : State :=
  if why.2 = 0 then answer s p op why.1 0 else rejectPkt s p op why.1 why.2

/-- Poisoned reads of a packet are noted in HST_ERR (spec/19 Table 19.5). -/
def notePoison (s : State) (us : List (Option (BitVec 512) × Bool)) : State := if us.any (·.2) then setErr s 2 else s

/-- Ring `n` may take a packet now: it runs, has one, and a command slot is free (spec/19 R359, R365). -/
def ringOffers (s : State) (n : Nat) : Bool :=
  let r := refreshRing { ringOf s n with pktHeld := false }
  enabled r && r.state == .running && r.tail != r.head && decide (s.slots.length < 1024) && (bit r.postBase 63 || s.life.linkUp)

/-- The firmware offers ring `n`: the state after it, and whether it took a packet. -/
def offerRing (s : State) (n : Nat) : State × Bool :=
  let r := ringOf s n
  if !ringOffers s n then (s, false)
  else match unitAt s n r r.head.toNat with
    | (none, poison) =>
      let p : Packet := { packetOf n 0 [] with seq := r.nextSeq, ctx := ringCtx s n }
      (rejectPkt (notePoison (takePkt s n p 0 1) [(none, poison)]) p 0 0x0500 8, true)
    | (some h, _) =>
      let op := bits h 0 8
      let len := bits h 16 16
      if len = 0 ∨ 64 < len then
        let p := packetOf n h []
        (rejectPkt (takePkt s n p op 1) p op 0x0101 2, true)
      else if (r.tail - r.head).toNat < len then (s, false)
      else
        let us := unitsAt s n r len
        let p := packetOf n h ((us.drop 1).map fun u => u.1.getD 0)
        if us.any (·.1.isNone) then (rejectPkt (notePoison (takePkt s n p op len) us) p op 0x0500 8, true)
        else match headerFault s n h p len with
          | some why => (refusePkt (takePkt s n p op len) p op why, true)
          | none =>
            if packetWaits s n op p then (setRing s n (refreshRing { r with pktHeld := true }), false)
            else (takePkt s n p op len, true)

/-- The rings from a place of the turn on, until one gives a packet; `ks` are places: 0 is ring 64, place k + 1 ring k. -/
def offerRings (s : State) : List Nat → State
  | [] => { s with turn := 0 }
  | k :: rest =>
    let x := offerRing s (if k = 0 then 64 else k - 1)
    if x.2 then { x.1 with turn := (k + 1) % 65 } else offerRings x.1 rest

/-- RING_TURN: ring 64 first, then rings 0 to 63, one packet from each. -/
def execRingTurn (s : State) : Out :=
  .next (if ready s then offerRings s ((List.range 65).map fun i => (s.turn + i) % 65) else s)

/-! ### Doorbells and the receipt head (spec/19 R364, R370) -/

/-- A BAR0 access that is refused (spec/19 Table 19.22, MMIO). -/
def mmioViolation (s : State) (off : Nat) : State := unboundViolation s 0x0A 255 (BitVec.ofNat 64 off)

/-- A violation of the doorbell of ring `n`. -/
def doorbellViolation (s : State) (n kind status : Nat) (value : BitVec 64) (slot : Option Nat) (reply : State → State) : State :=
  hostViolation s { kind := kind, ring := n, opcode := 0, info := value, pktSeq := (ringOf s n).nextSeq, status := status, slot := slot } reply

/-- A doorbell write of ring `n`. -/
def ringDoorbell (s : State) (n : Nat) (value : BitVec 64) : State :=
  let r := ringOf s n
  let t : BitVec 32 := BitVec.ofNat 32 (bits value 0 32)
  let good := decide ((t - r.head).toNat ≤ postUnits r ∧ (t - r.tail).toNat ≤ postUnits r)
  if !ready s || !enabled r || (decide (n < 64) && (ctxOf s n).isNone) then doorbellViolation s n 0x0D 0 value none id
  else if good then setRing s n { r with tail := t }
  else if r.state = .quarantined then s
  else doorbellViolation s n 7 0x0102 value (ringSlot n) fun s => eventReceipt s n 0x0102 7 0

/-- HST_DOORBELL. -/
def execHstDoorbell (ring : BitVec 7) (value : BitVec 64) (s : State) : Out :=
  if 64 < ring.toNat then .fault .noSuchUnit else .next (if s.life.linkUp then ringDoorbell s ring.toNat value else s)

/-- The receipts that wait for room are written, in order. -/
def flushRing : Nat → State → Nat → State
  | 0, s, _ => s
  | k + 1, s, n =>
    let r := ringOf s n
    match r.waiting with
    | [] => s
    | (raw, notify) :: rest =>
      if rcptFull r || !s.life.linkUp then s
      else flushRing k (writeReceipt (setRing s n (refreshRing { r with waiting := rest })) n raw notify) n

/-- Every receipt of ring `n` that can be written is written. -/
def releaseReceipts (s : State) (n : Nat) : State := flushRing (ringOf s n).waiting.length s n

/-- A write of CMD_RCPT_HEAD_n. -/
def setRcptHead (s : State) (n : Nat) (value : BitVec 64) : State :=
  releaseReceipts (setRing s n (refreshRing { ringOf s n with consumed := BitVec.ofNat 32 (bits value 0 32) })) n

/-- The host reaches the registers of a ring that need READY (spec/22 R415). -/
def ringReg? (s : State) : Bool := s.life.linkUp && ready s

/-- CMD_RCPT_HEAD_WRITE. -/
def execCmdRcptHeadWrite (ring : BitVec 7) (value : BitVec 64) (s : State) : Out :=
  if 64 < ring.toNat then .fault .noSuchUnit else .next (if ringReg? s then setRcptHead s ring.toNat value else s)

/-! ### Enabling and disabling (spec/19 R363) -/

/-- The fields of CMD_RING_CTRL_n that hold while the ring pair is in service: vector, rsize, psize. -/
def ctrlFixed (w : BitVec 64) : Nat × Nat × Nat := (bits w 16 6, bits w 8 3, bits w 0 3)

/-- The register with its reserved bits zero. -/
def ctrlValue (w : BitVec 64) : BitVec 64 := w &&& 0x803F8707

/-- A ring pair enters service. -/
def startRing (s : State) (n : Nat) (w : BitVec 64) : State :=
  setRing s n { ringOf s n with ctrl := ctrlValue w, head := 0, tail := 0, nextSeq := 0, consumed := 0, comp := 0, state := .running,
                                pktHeld := false }

/-- A write of CMD_RING_CTRL_n. -/
def writeCtrl (s : State) (n : Nat) (w : BitVec 64) : State :=
  let r := ringOf s n
  let off := 0x2010 + 0x40 * n
  if bits w 8 3 = 7 ∨ bits w 0 3 = 7 then mmioViolation s off
  else if enabled r then
    if ctrlFixed w ≠ ctrlFixed r.ctrl then mmioViolation s off
    else setRing s n (refreshRing { r with ctrl := ctrlValue w, pktHeld := r.pktHeld && bit w 31 })
  else if bit w 31 then startRing s n w
  else setRing s n { r with ctrl := ctrlValue w }

/-- RING_ENABLE: a write of CMD_RING_CTRL_n with enable set. -/
def execRingEnable (ring : BitVec 7) (value : BitVec 64) (s : State) : Out :=
  if 64 < ring.toNat then .fault .noSuchUnit else .next (if ringReg? s && bit value 31 then writeCtrl s ring.toNat value else s)

/-- RING_DISABLE: a write of CMD_RING_CTRL_n with enable clear. -/
def execRingDisable (ring : BitVec 7) (value : BitVec 64) (s : State) : Out :=
  if 64 < ring.toNat then .fault .noSuchUnit else .next (if ringReg? s && !bit value 31 then writeCtrl s ring.toNat value else s)

end Sys2Proof.Machine
end

