-- ==== Sys2Proof/Machine/Mmio.lean ====
section
/-! DEFINITION. Writes to BAR0 and accesses to BAR2 (spec/00 R7; spec/11 R220; spec/19 R358, R360, R363, R374). -/

namespace Sys2Proof.Machine

/-! ### Write-one-to-clear registers (spec/00 R7) -/

/-- The bits below 5 that a mask picks. -/
def bitsOf (w : BitVec 64) : List Nat := (List.range 5).filter fun i => bit w i

/-- A write of ones to ATT_STATUS, CTX_UPD_ALARM or TCD_STATUS of slot `n`; `hw` are bits that the hardware sets in the same cycle: they
stay set, and their counters count. -/
def clearCtxBits (s : State) (n off : Nat) (mask hw : BitVec 64) : State :=
  if off = 0x00 then
    (bitsOf (hw &&& 0x1B)).foldl (fun s b => attSet s n b none)
      (modCtx s n fun c => { c with attStatus := c.attStatus &&& ~~~(mask &&& 0x1B) })
  else if off = 0x20 then
    let s1 := modCtx s n fun c => { c with updAlarm := c.updAlarm &&& ~~~(mask &&& 3) }
    match ctxOf s1 n with
    | some c => updAlarmSet s1 n (bits c.updAlarm 52 12) (bit hw 1) (bit hw 0)
    | none => s1
  else if off = 0x30 then
    let s1 := modCtx s n fun c => { c with tcdStatus := c.tcdStatus &&& ~~~(mask &&& 0xF) }
    match ctxOf s1 n with
    | some c => (bitsOf (hw &&& 0xF)).foldl (fun s b => tcdSet s n b (bits c.tcdStatus 16 16)) s1
    | none => s1
  else s

/-- A write of ones to HST_ERR. -/
def clearErr (s : State) (mask hw : BitVec 64) : State :=
  (bitsOf (hw &&& 0xF)).foldl setErr { s with hstErr := s.hstErr &&& ~~~(BitVec.ofNat 4 (bits mask 0 4)) }

/-- A write of ones to the register at a BAR0 offset. -/
def clearBits (s : State) (off : Nat) (mask hw : BitVec 64) : State :=
  if off = 0x0018 then clearErr s mask hw
  else if 0x4000 ≤ off ∧ off < 0x8000 ∧ ready s then clearCtxBits s ((off - 0x4000) / 0x100) ((off - 0x4000) % 0x100) mask hw
  else s

/-- W1C_CLEAR. -/
def execW1cClear (offset : BitVec 16) (mask hw : BitVec 64) (s : State) : Out :=
  .next (if s.life.linkUp then clearBits s offset.toNat mask hw else s)

/-! ### Registers that the host writes (spec/19 R360, R363, R374) -/

/-- A write of CMD_POST_BASE_n or CMD_RCPT_BASE_n. -/
def writeBase (s : State) (n off : Nat) (post : Bool) (w : BitVec 64) : State :=
  let r := ringOf s n
  let v := w &&& 0x8000FFFFFFFFF000
  if enabled r then (if v = (if post then r.postBase else r.rcptBase) then s else mmioViolation s off)
  else setRing s n (if post then { r with postBase := v } else { r with rcptBase := v })

/-- A vector that became due while it was masked is sent when it is unmasked. -/
def sendPending (s : State) (v : Nat) (e : MsixEntry) : State :=
  if bit s.msixPend v ∧ !bit e.ctrl 0 then
    emit { s with msixPend := putBits s.msixPend v 1 0 } (.msix (BitVec.ofNat 6 v) e.addr e.data)
  else s

/-- A write of half an MSI-X table entry: the address, or data and vector control. -/
def writeMsix (s : State) (off : Nat) (w : BitVec 64) : State :=
  let v := (off - 0x3800) / 16
  let e := vget s.msix v { addr := 0, data := 0, ctrl := 1 }
  let e' := if off % 16 = 0 then { e with addr := w &&& 0xFFFFFFFFFFFFFFFC }
    else { e with data := BitVec.ofNat 32 (bits w 0 32), ctrl := BitVec.ofNat 32 (bits w 32 1) }
  sendPending { s with msix := vset s.msix v e' } v e'

/-- A write of a whole register of ring block `n`. -/
def writeRingReg (s : State) (n off : Nat) (w : BitVec 64) : State :=
  let at_ := 0x2000 + 0x40 * n + off
  if off = 0x00 then writeBase s n at_ true w
  else if off = 0x08 then writeBase s n at_ false w
  else if off = 0x10 then writeCtrl s n w
  else if off = 0x20 then setRcptHead s n w
  else s

/-- A write of the whole register at an 8-byte aligned offset. -/
def writeReg (s : State) (off : Nat) (w : BitVec 64) : State :=
  if !ready s then s
  else if 0x2000 ≤ off ∧ off < 0x3040 then writeRingReg s ((off - 0x2000) / 0x40) ((off - 0x2000) % 0x40) w
  else if 0x3800 ≤ off ∧ off < 0x3C00 then writeMsix s off w
  else s

/-- An access that BAR0 accepts, in size and alignment. -/
def accessOk (off size : Nat) : Bool := (size == 4 || size == 8) && off % size == 0

/-- A 4 B write reaches one half of its register; the other keeps `old`. -/
def mergeHalf (off size : Nat) (old value : BitVec 64) : BitVec 64 :=
  if size = 8 then value else putBits old (8 * (off % 8)) 32 (bits value 0 32)

/-- REGISTER_WRITE. A doorbell's lower half acts as the whole doorbell. -/
def execRegisterWrite (offset : BitVec 16) (size : Nat) (value : BitVec 64) (poisoned : Bool) (s : State) : Out :=
  let off := offset.toNat
  let reg := off / 8 * 8
  if !s.life.linkUp then .next s
  else if poisoned then .next (mmioViolation (setErr s 2) off)
  else if !accessOk off size || !regNamed reg then .next (mmioViolation s off)
  else if 0x1000 ≤ reg ∧ reg < 0x1208 then
    .next (if off % 8 = 0 then ringDoorbell s ((reg - 0x1000) / 8) (mergeHalf off size 0 value) else s)
  else if reg = 0x0018 ∨ (0x4000 ≤ reg ∧ reg < 0x8000) then .next (clearBits s reg (mergeHalf off size 0 value) 0)
  else .next (writeReg s reg (mergeHalf off size (regRead s reg) value))

/-! ### BAR2 (spec/11 R220; spec/19 R358) -/

/-- A line that the host reads as uncorrectable is logged; no plan ends. -/
def noteHostRead (s : State) (n a : Nat) : State :=
  let pg := tierPage s a
  risk (logHealth s 2 (0x200 + pg.1) 0x0500 (identOf s n).toNat pg.2) 5 (48 * 65536)

/-- A line that the host reads with a corrected error is counted (R218). -/
def softHostRead (s : State) (n a : Nat) : State :=
  risk (logHealth s 1 (0x200 + (tierPage s a).1) 0 (identOf s n).toNat (tierPage s a).2) 0 1024

/-- BAR2_ACCESS: through a window under its context's key, or poisoned. A read counts the words that it reads as corrected. -/
def execBar2Access (write : Bool) (offset : BitVec 48) (size : Nat) (data : HostData) (s : State) : Out :=
  let a := offset.toNat
  if !s.life.linkUp || !s.life.hdmOn || !ready s || size == 0 then .next s
  else match windowFor s a size with
    | none => .next (emit (unboundViolation s 0x0B 255 (BitVec.ofNat 64 a)) (.bar2Done offset [] true))
    | some n =>
      if write then .next (dropFreed (lpWrite s n a (data.bytes.take size)) n)
      else
        let bad := (linesOf 256 a size).filter fun l => !lpOk s n (256 * l)
        let bs := (List.range size).map fun i => lpByte s n (a + i)
        let s1 := data.soft.foldl (fun s x => softHostRead s n x) s
        .next (emit (bad.foldl (fun s l => noteHostRead s n (256 * l)) s1) (.bar2Done offset bs (!bad.isEmpty)))

end Sys2Proof.Machine
end

