-- ==== Sys2Proof/Machine/LifeCmds.lean ====
section
/-! DEFINITION. Power, resets, start-up phases, the CXL link, and management over I3C and JTAG (spec/19 R357, R359; spec/21 R392, R393,
R400; spec/22; spec/23). -/

namespace Sys2Proof.Machine

/-! ### Power (spec/21 Table 21.5; spec/23 R424, R425, R431) -/

/-- AUX_POWER_GOOD: management starts, and MOD_SLOT_ID is sampled. -/
def execAuxPowerGood (slotId : BitVec 6) (s : State) : Out :=
  .next (if s.life.auxGood then s else { s with life := { s.life with auxGood := true, slotId := slotId } })

/-- The module without its rails: OFF. Nothing but fuses and boot flash is kept. -/
def powerDown (s : State) : State :=
  let w := wipe s false
  { w with life := { w.life with power := .off, pwrEn := false, keepMem := false, memKept := false, keeping := false, xoSwing := false,
                                 thermLow := false } }

/-- AUX_POWER_LOSS: the module acts as unpowered, and I3C is silent. -/
def execAuxPowerLoss (s : State) : Out :=
  if !s.life.auxGood then .next s
  else
    let w := powerDown s
    .next { w with mgmt := .init, life := { w.life with auxGood := false } }

/-- POWER_ON: a COLD reset; a reset input that is low holds the module. -/
def execPowerOn (slotId : BitVec 6) (s : State) : Out :=
  if !s.life.auxGood || s.life.pwrEn then .next s
  else
    let w := powerDown s
    .next (releaseReset { w with life := { w.life with power := .resetHold, pwrEn := true, slotId := slotId } })

/-- POWER_OFF. -/
def execPowerOff (s : State) : Out := .next (if s.life.auxGood then powerDown s else s)

/-! ### Resets (spec/22 R413, R419, R420) -/

/-- The level of a reset input. -/
def setPin (s : State) (pin : ResetPin) (low : Bool) : State := match pin with
  | .modResetN => { s with life := { s.life with modResetLow := low } }
  | .perstN => { s with life := { s.life with perstLow := low } }

/-- WARM_RESET_ASSERT. -/
def execWarmResetAssert (pin : ResetPin) (s : State) : Out := .next (warmReset (setPin s pin true))

/-- WARM_RESET_RELEASE. -/
def execWarmResetRelease (pin : ResetPin) (s : State) : Out := .next (releaseReset (setPin s pin false))

/-! ### Clocks at start-up (spec/21 R392, R393) -/

/-- Start-up has not ended phase CLOCKS. -/
def clocksStart (s : State) : Bool := inPhase s .power || inPhase s .clocks

/-- XO_AMPLITUDE_DETECT. -/
def execXoAmplitudeDetect (swing : Bool) (s : State) : Out :=
  .next (if clocksStart s then { s with life := { s.life with xoSwing := swing } } else s)

/-- XO_STABLE. -/
def execXoStable (s : State) : Out :=
  .next (if clocksStart s && s.life.xoSwing then { s with life := { s.life with xoStable := true } } else s)

/-- XO_TIMEOUT. -/
def execXoTimeout (s : State) : Out := .next (if clocksStart s && !s.life.xoStable then failStart s 0x11 else s)

/-- PLL_LOCK. -/
def execPllLock (s : State) : Out :=
  .next (if clocksStart s && s.life.xoStable then { s with life := { s.life with pllLocked := true } } else s)

/-- PLL_LOCK_TIMEOUT. -/
def execPllLockTimeout (s : State) : Out :=
  .next (if clocksStart s && s.life.xoStable && !s.life.pllLocked then failStart s 0x12 else s)

/-! ### Phases (spec/22 R413 to R418) -/

/-- The next phase begins. -/
def toPhase (s : State) (ph : Phase) : State := { s with life := { s.life with phase := ph } }

/-- What a bank's check gives: its image's numbers, or the cause of Table 22.2; svn below the floor is ROLLBACK. An image's svn is
at most 64 (spec/20 R387). -/
def bankVerdict (s : State) : BankCheck → Except Nat (BitVec 8 × Byte × Byte)
  | .pass svn major minor =>
    let v := if 64 < svn then 64 else svn
    if v < s.fw.floor then .error 3 else .ok (v, major, minor)
  | .keyDigest => .error 1
  | .signature => .error 2
  | .rollback => .error 3
  | .flashRead => .error 4

/-- Bank `b` boots. -/
def bootBank (s : State) (b : Bool) (x : BitVec 8 × Byte × Byte) : State :=
  let f := { s.fw with running := b, major := x.2.1, minor := x.2.2, staged := if b = s.fw.running then s.fw.staged else none }
  { s with fw := if b then { f with svnB := x.1 } else { f with svnA := x.1 }, life := { s.life with linkUp := true, phase := .sramInit } }

/-- Phase FW_AUTH ends (R387, R415, R416). -/
def endFwAuth (s : State) (r : PhaseResult) : State :=
  let check := fun (b : Bool) => bankVerdict s (if b then r.bankB else r.bankA)
  let sel := s.fw.selected
  let first := if s.life.forceRecoveryLow then !sel else sel
  match check first, check (!first), check sel with
  | .ok x, _, _ => bootBank s first x
  | .error _, .ok x, _ => bootBank s (!first) x
  | .error _, .error _, .error c => failStart { s with life := { s.life with linkUp := true } } (0x20 + c)
  | .error _, .error _, .ok _ => s

/-- Phase MEM_INIT ends: LPDDR6 is zero with the check code of no key slot; where memory is kept, the filters' region alone. -/
def endMemInit (s : State) : State :=
  let r := filterRange s
  let kept := s.life.keeping
  { s with lpddr := if kept then Mem.zero s.lpddr r.1 r.2 else [],
           lines := if kept then s.lines.filter fun e => !overlap (256 * e.1, 256) r else [],
           life := { s.life with phase := .linkCal, memInitDone := true, keeping := false } }

/-- Phase LINK_CAL ends: a port whose partner did not train stays down. -/
def endLinkCal (s : State) (up : BitVec 16) : State :=
  toPhase ((List.range 16).foldl (fun s p =>
    if bit up p then upPort s p
    else logHealth (modPort s p fun x => { x with state := .down, cause := .trainFail }) 6 (0x100 + p) 6 0xFFFF p) s) .selfTest

/-- What self-test takes out of service (R417). -/
def selfTestFaults (s : State) (r : PhaseResult) : State :=
  let s1 := r.coreFaults.foldl (fun s c =>
    logHealth (modCore s c.toNat fun x => { x with fenced := true }) 4 c.toNat 0 0xFFFF 0) s
  let s2 := r.clusterFaults.foldl (fun s k =>
    (List.range 16).foldl (fun s i => let c := 16 * k.toNat + i
        logHealth (modCore s c fun x => { x with fenced := true }) 4 c 0 0xFFFF 0)
      (modCluster s k.toNat fun x => { x with syncFenced := true })) s1
  let s3 := r.bankFaults.foldl (fun s b =>
    logHealth { s with retiredBanks := (s.retiredBanks ++ [b]).eraseDups } 5 (0x300 + b.toNat) 0 0xFFFF 0) s2
  let s4 := (r.videoFaults.filter fun p => decide (p.toNat < 6)).foldl (fun s p =>
    logHealth (modPipe s p.toNat fun x => { x with retired := true }) 5 (0x400 + p.toNat) 0 0xFFFF 0) s3
  r.unitFaults.foldl (fun s p =>
    logHealth (modPort s p.toNat fun x => { x with state := .down, cause := .unitFault, unitsOut := true }) 5 (0x100 + p.toNat) 5 0xFFFF
      p.toNat) s4

/-- Phase SELF_TEST ends: READY, in power state IDLE (R418). -/
def endSelfTest (s : State) (r : PhaseResult) : State :=
  let s1 := selfTestFaults s r
  if s1.cores.toList.all (·.fenced) then failStart s1 0x71
  else { s1 with life := { s1.life with phase := .ready, power := .idle } }

/-- The running phase ends with a cause of Table 22.2; 0 for none. -/
def endPhase (s : State) (r : PhaseResult) : State :=
  let bad := r.cause.toNat
  match s.life.phase with
  | .power => if bad = 0 then toPhase s .clocks else if bad = 1 then failStart s 0x01 else s
  | .clocks => if bad = 0 ∧ s.life.pllLocked then { toPhase s .fwAuth with postmark := 0, timeOn := true } else s
  | .fwAuth => endFwAuth s r
  | .sramInit => if bad = 0 then toPhase s .memTrain else if bad = 1 then failStart s 0x31 else s
  | .memTrain => if bad = 0 then toPhase s .memInit else if bad = 1 then failStart s 0x41 else s
  | .memInit => if bad = 0 then endMemInit s else if bad = 1 then failStart s 0x51 else s
  | .linkCal => endLinkCal s r.portsUp
  | .selfTest => if bad = 2 then failStart s 0x72 else endSelfTest s r
  | .ready => s
  | .failed => s

/-- The module starts up. -/
def starting (s : State) : Bool := s.life.power == .start && !s.life.stopped && s.life.phase != .failed

/-- START_PHASE_COMPLETE. -/
def execStartPhaseComplete (r : PhaseResult) (s : State) : Out := .next (if starting s then endPhase s r else s)

/-- PHASE_TIMEOUT. -/
def execPhaseTimeout (s : State) : Out := .next (if starting s then failStart s (16 * phaseCode s.life.phase + 15) else s)

/-! ### The CXL link (spec/19 R357, R359; spec/22 R415) -/

/-- The CXL link can be up: from the start of FW_AUTH on. -/
def linkWorks (s : State) : Bool :=
  s.life.power != .off && s.life.power != .resetHold && match s.life.phase with
    | .power => false
    | .clocks => false
    | .failed => decide (0x20 ≤ s.life.failCode.toNat)
    | _ => true

/-- LINK_RETRAIN. -/
def execLinkRetrain (s : State) : Out := .next (if s.life.linkUp then setErr s 3 else s)

/-- LINK_LOSS. -/
def execLinkLoss (s : State) : Out := .next (if s.life.linkUp then setErr { s with life := { s.life with linkUp := false } } 3 else s)

/-- LINK_RETURN: the receipts that the rings held are written, in order. -/
def execLinkReturn (s : State) : Out :=
  .next (if !s.life.linkUp && linkWorks s then
    (List.range 65).foldl (fun s n => setRing (releaseReceipts s n) n (refreshRing (ringOf (releaseReceipts s n) n)))
      { s with life := { s.life with linkUp := true } }
  else s)

/-- HDM_DECODER_COMMIT. -/
def execHdmDecoderCommit (s : State) : Out := .next (if s.life.linkUp then { s with life := { s.life with hdmOn := true } } else s)

/-! ### Management (spec/23 R426 to R431) -/

/-- ENEC. -/
def execEnec (s : State) : Out := .next (if s.life.auxGood then { s with mgmt := { s.mgmt with ibiOn := true } } else s)

/-- The 48-bit provisional identifier. -/
def provisionalId (s : State) : BitVec 48 := BitVec.ofNat 48 (pack [(6, s.life.slotId.toNat), (10, 0), (16, 0x0007), (1, 0), (15, 0x0A5C)])

/-- ENTDAA: a target without an address offers its provisional identifier and takes one. -/
def execEntdaa (address : BitVec 7) (s : State) : Out :=
  .next (if s.life.auxGood && s.mgmt.i3cAddr.isNone then
    emit { s with mgmt := { s.mgmt with i3cAddr := some address } } (.dynamicAddress (provisionalId s) address)
  else s)

/-- A byte written at an I3C offset: PWR_WARM_CTRL.keep_mem, and HST_ALERT_CAUSE, where `hw` are bits set in the same cycle. -/
def i3cPut (s : State) (off : Nat) (v hw : BitVec 8) : State :=
  if !vddAon s then s
  else if off = 0x09 then { s with life := { s.life with keepMem := bit v 0 } }
  else if off = 0x10 then alerting s fun s =>
    ([2, 3, 4, 5, 6].filter fun i => bit hw i).foldl setAlertBit
      { s with mgmt := { s.mgmt with alertW1c := s.mgmt.alertW1c &&& ~~~v } }
  else s

/-- I3C_PRIVATE_WRITE. -/
def execI3cPrivateWrite (offset : BitVec 8) (data : List Byte) (hw : BitVec 8) (s : State) : Out :=
  if !s.life.auxGood || s.mgmt.i3cAddr.isNone then .next s
  else
    .next (data.zipIdx.foldl (fun s (v, i) => i3cPut s (offset.toNat + i) v hw) { s with mgmt := { s.mgmt with i3cOffset := offset } })

/-- A temperature, or 0x8000 where the power state is OFF (R427). -/
def tempWord (s : State) (t : Int) : Nat := if s.life.power = .off then 0x8000 else toSigned 16 t

/-- The I3C register at an even offset of Table 23.3, 2 bytes. -/
def i3cWord (s : State) (off : Nat) : Nat :=
  let m := s.mgmt
  if off = 0x0A then (if vddAon s then (hstStatus s).toNat % 2 ^ 16 else 0)
  else if off = 0x20 then m.sensors.vin.toNat
  else if off = 0x22 then m.sensors.iin.toNat
  else if off = 0x24 then m.sensors.watts
  else if off = 0x26 then m.sensors.vaux.toNat
  else if off = 0x28 then m.sensors.inlet.toNat
  else if off = 0x2A then m.sensors.outlet.toNat
  else if off = 0x2C then tempWord s (hottest m.temps)
  else if off = 0x2E then tempWord s m.temps.base
  else if 0x30 ≤ off ∧ off < 0x50 then tempWord s (m.temps.clusters.getD ((off - 0x30) / 2) (-32768))
  else if off = 0x50 then bits (cfgOf s).power 0 10
  else 0

/-- The byte that a private read gives at an offset (Table 23.3). -/
def i3cByte (s : State) (off : Nat) : Byte :=
  if off < 0x08 then BitVec.ofNat 8 (bits (hstId s) (8 * off) 8)
  else if off = 0x08 then s.life.slotId.setWidth 8
  else if off = 0x09 then BitVec.ofNat 8 (if vddAon s then b2n s.life.keepMem + 2 * b2n s.life.memKept else 0)
  else if off = 0x10 then alertCause s
  else if 0x11 ≤ off ∧ off < 0x19 then (if vddAon s then vget s.mgmt.alertEvents (off - 0x11) 0 else 0)
  else BitVec.ofNat 8 (i3cWord s (off / 2 * 2) / 2 ^ (8 * (off % 2)))

/-- What the TAP's instruction selects (R430). -/
def jtagSelects (s : State) : JtagCode := match s.mgmt.jtag with
  | .idcode => .idcode
  | .samplePreload => if s.life.phase = .ready then .bypass else .samplePreload
  | .extest => if s.life.phase = .ready then .bypass else .extest
  | _ => .bypass

/-- The IDCODE register (R430). -/
def idcodeReg : BitVec 32 := 0xB00075AB

/-- JTAG_INSTRUCTION: the TAP works while VDD_IO is up. -/
def execJtagInstruction (code : JtagCode) (s : State) : Out :=
  .next (if s.life.power = .off then s else { s with mgmt := { s.mgmt with jtag := code } })

/-- COOLANT_ALERT. -/
def execCoolantAlert (s : State) : Out := .next (setAlert s 6)

/-- INPUT_OUT_OF_RANGE. -/
def execInputOutOfRange (s : State) : Out :=
  .next (if s.life.power = .off then s else alerting s fun s => setAlertBit (setAlertBit (railsOff s) 5) 4)

end Sys2Proof.Machine
end

