-- ==== Sys2Proof/Machine/Remote.lean ====
section
/-! DEFINITION. One-sided operations over the fabric: what a destination does with a request, the duplicate filter, and what a source does
with a response, a PATH_DOWN notice and a timeout (spec/16 R297, R303 to R307; spec/18 R345, R348). -/

namespace Sys2Proof.Machine

/-! ### The duplicate filter (R307) -/

/-- How far transaction value `b` lies behind `a`, modulo 2^16; 0 where it is ahead. -/
def behind (a b : BitVec 16) : Nat := let d := (a - b).toNat
  if d < 2 ^ 15 then d else 0

/-- The newest transaction value recorded from a source. -/
def newestOf (s : State) (src : BitVec 14) : Option (BitVec 16) :=
  (s.dups.filter fun e => e.src == src).foldl (fun best e => match best with
    | none => some e.txn
    | some b => if (e.txn - b).toNat < 2 ^ 15 then some e.txn else some b) none

/-- The record of a transaction value. -/
def dupOf (s : State) (src : BitVec 14) (txn : BitVec 16) : Option DupEntry := s.dups.find? fun e => e.src == src && e.txn == txn

/-- What the filter says of a request. -/
inductive DupCase where
  | new | stale | tooOld | again (e : DupEntry)
deriving DecidableEq, Repr

/-- The case of R307 that an arriving request falls under. -/
def dupCase (s : State) (h : TxnHdr) : DupCase :=
  match newestOf s h.srcMod with
  | none => .new
  | some w =>
    if 4096 < behind w h.txn then .tooOld
    else match dupOf s h.srcMod h.txn with
      | none => .new
      | some e => if h.epoch < e.epoch then .stale else .again e

/-- A source's records: the last 4,096 transaction values, and the old values of its last 256 atomics. -/
def trimDups (ds : List DupEntry) (src : BitVec 14) (newest : BitVec 16) : List DupEntry :=
  let kept := ds.filter fun e => e.src != src || decide (behind newest e.txn < 4096)
  let olds := (kept.filter fun e => e.src == src && e.old.isSome).map (·.txn)
  let gone := olds.take (olds.length - 256)
  kept.map fun e => if e.src == src && gone.contains e.txn then { e with old := none } else e

/-- Records a request. -/
def recordDup (s : State) (e : DupEntry) : State :=
  let s1 := { s with dups := (s.dups.filter fun (x : DupEntry) => !(x.src == e.src && x.txn == e.txn)) ++ [e] }
  { s1 with dups := trimDups s1.dups e.src ((newestOf s1 e.src).getD e.txn) }

/-- The record of an executed request with nothing more to keep. -/
def DupEntry.of (h : TxnHdr) (old : Option Word) : DupEntry :=
  { src := h.srcMod, txn := h.txn, epoch := h.epoch, old := old, got := [], last := none }

/-! ### What a request may reach (R297, R299) -/

/-- The fields of a global address. -/
def gaMod (a : BitVec 64) : BitVec 14 := BitVec.ofNat 14 (bits a 50 14)
def gaSpace (a : BitVec 64) : Nat := bits a 48 2
def gaOff (a : BitVec 64) : Nat := bits a 0 48

/-- The home of slot `n` that holds the whole range: for a write also one that a migration fills here, for a read also an old home
that waits for its release (spec/11 R209, R210). -/
def homeAt (s : State) (n tier off len : Nat) (write : Bool) : Option Obj := match ctxOf s n with
  | none => none
  | some c =>
    ((c.objs.map (·.2)) ++ (if write then c.incoming.map (·.2.2) else c.releasing.map (·.2))).find? fun o =>
      !o.isBind && o.tier.toNat == tier && decide (o.off ≤ off ∧ off + len ≤ o.off + o.size)

/-- No write reaches an object whose copy is being made (spec/11 R210). DESIGN CHOICE (log 152): one that comes all the same, from a module
that did not acknowledge the fence, is dropped without an answer, and its source sends it again. -/
def held (o : Obj) : Bool := o.state == .copying || o.state == .committing

/-- The counter that an address of sync space names. -/
def syncTarget (s : State) (n : Nat) (a : BitVec 64) : Option (BitVec 16) :=
  if gaSpace a ≠ 3 ∨ bits a 20 28 ≠ 0 then none
  else match translate s n (bits a 0 20) with
    | .here pid => some pid
    | _ => none

/-- The answer ERROR. -/
def errorReply (s : State) (p : Nat) (f : Flit) (code : Nat) : State := reply s p f 0x42 code 0 []

/-- A request that a destination serves: taken from the receive buffer, or nothing happens. -/
def serve (port : BitVec 4) (f : Flit) (op : BitVec 8) (s : State) (k : State → State) : Out :=
  if f.txn.op ≠ op ∨ !ready s then .next s
  else match takeRx s port.toNat f with
    | none => .next s
    | some s1 => .next (k s1)

/-- A request of a resident context to this module's address space; NO_CONTEXT and ACCESS answer the others. -/
def onTarget (s : State) (p : Nat) (f : Flit) (k : Nat → State) : State :=
  match flitSlot s f.txn with
  | none => errorReply s p f 1
  | some n => if s.modId = some (gaMod f.txn.addr) then k n else errorReply s p f 2

/-! ### The destination (R303) -/

/-- The read of a home for a request: the bytes, or the answer DATA. -/
def readHome (s : State) (p n : Nat) (f : Flit) (o : Obj) (off len : Nat) (k : List Byte → State) : State :=
  if o.state = .lost then errorReply s p f 3
  else
    let r := readObj s n o off len
    match r.bad with
    | [] => k r.bytes
    | i :: _ => errorReply (noteBad s n o (off + i)) p f 3

/-- FABRIC_READ. -/
def execFabricRead (port : BitVec 4) (r : ReadFlit) (s : State) : Out := serve port r.flit 0x01 s fun s =>
  let f := r.flit
  let p := port.toNat
  let a := f.txn.addr
  let len := f.txn.arg.toNat
  onTarget s p f fun n =>
    if gaSpace a = 3 then match syncTarget s n a with
      | none => errorReply s p f 2
      | some pid => match counterOf s pid.toNat with
        | none => errorReply s p f 2
        | some c => reply (setCounter s pid.toNat { c with last := s.postmark }) p f 0x40 0 0 (leBytes 8 c.count.toNat)
    else if len = 0 ∨ 65536 < len then errorReply s p f 2
    else match homeAt s n (gaSpace a) (gaOff a) len false with
      | none => errorReply s p f 2
      | some o => readHome (noteSofts s n o r.soft) p n f o (gaOff a - o.off) len fun bs => reply s p f 0x40 0 0 bs

/-- One flit of a WRITE is applied; COMPLETE follows once every flit of the transaction has come at this epoch. -/
def applyWrite (s : State) (p n : Nat) (f : Flit) (o : Obj) (off : Nat) : State :=
  let h := f.txn
  let old := (dupOf s h.srcMod h.txn).getD (.of h none)
  let e0 : DupEntry := if old.epoch = h.epoch then old else .of h none
  let e : DupEntry := { e0 with got := h.fidx :: e0.got.filter (· != h.fidx), last := if h.last then some h.fidx else e0.last }
  let s1 := recordDup (writeObj s n o off (f.data.take h.len.toNat)) e
  match e.last with
  | some l => if (List.range (l.toNat + 1)).all fun i => e.got.any fun g => g.toNat == i then reply s1 p f 0x41 0 0 [] else s1
  | none => s1

/-- FABRIC_WRITE. -/
def execFabricWrite (port : BitVec 4) (f : Flit) (s : State) : Out := serve port f 0x02 s fun s =>
  let p := port.toNat
  let a := f.txn.addr + BitVec.ofNat 64 (464 * f.txn.fidx.toNat)
  match dupCase s f.txn with
  | .stale => s
  | .tooOld => dropFlit s
  | _ => onTarget s p f fun n => match homeAt s n (gaSpace a) (gaOff a) f.txn.len.toNat true with
    | none => errorReply s p f 2
    | some o => if o.state = .lost then errorReply s p f 3 else if held o then s else dropFreed (applyWrite s p n f o (gaOff a - o.off)) n

/-- What an atomic writes (Table 16.4). -/
def atomicNew (sub : Nat) (old arg cmp : Word) : Word :=
  if sub = 0 then old + arg
  else if sub = 1 then arg
  else if sub = 2 then (if old = cmp then arg else old)
  else if sub = 3 then old &&& arg
  else if sub = 4 then old ||| arg
  else if sub = 5 then (if arg.slt old then old else arg)
  else (if old.slt arg then old else arg)

/-- A request that is not executed again is answered COMPLETE at its own epoch with the recorded old value (R307). -/
def answerAgain (s : State) (p : Nat) (f : Flit) (e : DupEntry) : State :=
  let s1 := recordDup s { e with epoch := f.txn.epoch }
  if f.txn.op = 0x03 then match e.old with
    | some v => reply s1 p f 0x41 0 v []
    | none => reply (draw s1) p f 0x41 0 (Config.lostOld s.fresh) []
  else reply s1 p f 0x41 0 0 []

/-- An atomic or a signal under the duplicate filter. -/
def once (s : State) (p : Nat) (f : Flit) (k : State) : State := match dupCase s f.txn with
  | .stale => s
  | .tooOld => dropFlit s
  | .again e => answerAgain s p f e
  | .new => k

/-- FABRIC_ATOMIC. -/
def execFabricAtomic (port : BitVec 4) (f : Flit) (s : State) : Out := serve port f 0x03 s fun s =>
  let p := port.toNat
  let a := f.txn.addr
  once s p f (onTarget s p f fun n =>
    if 2 ≤ gaSpace a ∨ gaOff a % 8 ≠ 0 then errorReply s p f 2
    else match homeAt s n (gaSpace a) (gaOff a) 8 true with
      | none => errorReply s p f 2
      | some o => if held o then s else readHome s p n f o (gaOff a - o.off) 8 fun bs =>
        let old : Word := BitVec.ofNat 64 (ofLe bs)
        let v := atomicNew f.txn.sub.toNat old f.txn.arg (BitVec.ofNat 64 (ofLe (f.data.take 8)))
        reply (recordDup (dropFreed (writeObj s n o (gaOff a - o.off) (leBytes 8 v.toNat)) n) (.of f.txn (some old))) p f 0x41 0 old [])

/-- FABRIC_SIGNAL: the operation goes to the counter's home, which answers it (spec/17 R320, R323). -/
def execFabricSignal (port : BitVec 4) (f : Flit) (s : State) : Out := serve port f 0x04 s fun s =>
  let p := port.toNat
  once s p f (onTarget s p f fun n => match syncTarget s n f.txn.addr with
    | none => errorReply s p f 2
    | some pid => arrive (recordDup s (.of f.txn none))
        { pid := pid, slot := BitVec.ofNat 6 n, op := .signal, value := f.txn.arg, src := .fabric port f })

/-! ### The source: transactions that end (R296, R305) -/

/-- The transaction that a response belongs to, at its current epoch. -/
def txnFor (s : State) (h : TxnHdr) : Option Txn :=
  s.txns.find? fun t => t.dst == h.srcMod && t.txn == h.txn && t.epoch == h.epoch

/-- The operation of a transaction. -/
def txnOp (t : Txn) : BitVec 8 := ((t.flits.head?).map (·.txn.op)).getD 0

/-- Tracking of a transaction ends; transactions that waited may go. -/
def dropTxn (s : State) (t : Txn) : State := flushSends { s with txns := s.txns.erase t }

/-- A running operation of core `c` that waited for the fabric ends: its sig is signalled where it completed. -/
def endRemoteOp (s : State) (c id n : Nat) (done : Bool) : State :=
  match (coreOf s c).running.find? fun o => o.id == id with
  | none => s
  | some op =>
    let s1 := modCore s c fun x => { x with running := x.running.filter fun o => o.id != id }
    if done then signalSig s1 (BitVec.ofNat 8 c) n op.sig else s1

/-- A READ's data reaches what asked for it. -/
def takeData (s : State) (t : Txn) (bs : List Byte) : State := match t.use with
  | .tile c k tile off => modStream s c.toNat k.toNat fun x =>
      { x with tiles := x.tiles.map fun e => if e.n = tile then { e with got := e.got ++ [(off, bs)] } else e }
  | .gather c id row => releaseTag (landRow s c.toNat id row bs false) c.toNat
  | .readCount c th id sd =>
    endRemoteOp (modThread s c.toNat th.toNat fun x => deliver x id sd.toNat (BitVec.ofNat 64 (ofLe bs))) c.toNat id t.slot.toNat true
  | .signal _ _ => s

/-- READ_DATA. -/
def execReadData (port : BitVec 4) (f : Flit) (s : State) : Out := serve port f 0x40 s fun s =>
  match txnFor s f.txn with
  | none => s
  | some t =>
    if txnOp t ≠ 0x01 then s
    else
      let fs := (t.reply.filter fun g => g.txn.fidx != f.txn.fidx) ++ [f]
      if runWhole fs then takeData (dropTxn s t) t (runData fs)
      else { s with txns := s.txns.map fun x => if x = t then { x with reply := fs } else x }

/-- COMPLETE. -/
def execComplete (port : BitVec 4) (f : Flit) (s : State) : Out := serve port f 0x41 s fun s =>
  match txnFor s f.txn with
  | none => s
  | some t =>
    if txnOp t = 0x01 then s
    else match t.use with
      | .signal c (some id) => endRemoteOp (dropTxn s t) c.toNat id t.slot.toNat true
      | _ => dropTxn s t

/-! ### Transactions that fail (R297, R305; spec/18 R345, R348) -/

/-- A failed transaction is tracked no more; a gather's row lands as NaNs, and a tile stays without the part. -/
def failTxn (s : State) (t : Txn) : State :=
  let s1 := dropTxn s t
  match t.use with
  | .tile _ _ _ _ => s1
  | .gather c id row => match gatherOp (coreOf s1 c.toNat) id with
    | some g =>
      let len := dRowBytes g.desc * 64
      releaseTag (landRow s1 c.toNat id row (nanElems (dFsrc g.desc) (List.replicate len 0) (List.range len)) false) c.toNat
    | none => releaseTag s1 c.toNat
  | .signal c (some id) => endRemoteOp s1 c.toNat id t.slot.toNat false
  | .signal _ none => s1
  | .readCount c _ id _ => endRemoteOp s1 c.toNat id t.slot.toNat false

/-- A module is lost to this one: it is declared, and every context re-forms. -/
def loseModule (s : State) (m : BitVec 14) : State :=
  if s.lostMods.contains m then s else (List.range 64).foldl (fun s n => reform s n m) (declareLost s m)

/-- A transaction whose destination is lost: the plan that issued it ends PEER_LOST. -/
def loseTxn (s : State) (t : Txn) : State := homeLost (loseModule (failTxn s t) t.dst) t.slot.toNat

/-- The router could not deliver a flit of a collective: its partial is addressed again once the member is lost (spec/18 R346). -/
def loseVc2 (s : State) (h : TxnHdr) : State := match flitSlot s h with
  | none => s
  | some n =>
    if h.txn = 0 ∧ (collOf s n (rpColl h)).isSome then
      loseModule { s with reds := s.reds.map fun r =>
        if r.slot.toNat = n ∧ r.coll.toNat = rpColl h ∧ r.group.toNat = rpGroup h ∧ r.slice.toNat = rpSlice h ∧ !r.standIn
        then { r with done := false } else r } h.srcMod
    else s

/-- FABRIC_ERROR (Table 16.6). -/
def execFabricError (port : BitVec 4) (f : Flit) (s : State) : Out := serve port f 0x42 s fun s =>
  let far := f.txn.status = 4 ∨ f.txn.status = 5
  match txnFor s f.txn with
  | some t => if far then loseTxn s t else endPlan (failTxn s t) t.slot.toNat 0x0500 0 0
  | none => if far then loseVc2 s f.txn else s

/-! ### Re-issue (R305) -/

/-- A transaction goes out again with the next epoch; after two re-issues its destination is lost. -/
def reissue (s : State) (t : Txn) : State :=
  if 2 ≤ t.reissues then loseTxn s t
  else
    let t' := { t with epoch := t.epoch + 1, reissues := t.reissues + 1, reply := [] }
    t.flits.foldl (fun s f => sendFlit s t.port.toNat { f with txn := { f.txn with epoch := t'.epoch } })
      { s with txns := s.txns.map fun x => if x = t then t' else x }

/-- PATH_DOWN: the notice names the transaction by its number and epoch, and its destination by its address. -/
def execPathDown (port : BitVec 4) (f : Flit) (s : State) : Out := serve port f 0xC0 s fun s =>
  match s.txns.find? fun t => t.dst == gaMod f.txn.addr && t.txn == f.txn.txn && t.epoch == f.txn.epoch with
  | some t => reissue s t
  | none => s

/-- TXN_TIMEOUT. -/
def execTxnTimeout (dst : BitVec 14) (txn : BitVec 16) (s : State) : Out :=
  match ready s, s.txns.find? fun t => t.dst == dst && t.txn == txn with
  | true, some t => .next (reissue s t)
  | _, _ => .next s

end Sys2Proof.Machine
end

