-- ==== Sys2Proof/Machine/Risk.lean ====
section
/-! DEFINITION. The risk monitor, SECURE_NOW, draining, and RESTANTE_COLLECT (spec/18 R349, R353 to R356). -/

namespace Sys2Proof.Machine

/-! ### The score (R353, R354) -/

/-- What an event still weighs, in 1/65,536 points: half after every 60 s. -/
def weightNow (s : State) (e : RiskEvent) : Nat := e.weight / 2 ^ ((s.postmark - e.at_).toNat / 48000000000)

/-- The terms of Table 18.7, row by row, in 1/65,536 points: the events, the hottest junction, VDD_ARITH. -/
def riskTerms (s : State) : List Nat :=
  let ev := (List.range 11).map fun r => ((s.riskEvents.filter fun e => e.row == r).map (weightNow s)).sum
  let t := hottest s.mgmt.temps
  ev ++ [(t - 85 * 16).toNat * 32768, 64 * (s.age.vddMv - 550) / 130 * 65536]

/-- The score, rounded down and saturated. -/
def riskSum (s : State) : Nat := min 255 ((riskTerms s).sum / 65536)

/-- The row with the largest term. -/
def riskTop (s : State) : Nat :=
  (riskTerms s).zipIdx.foldl (fun (best : Nat × Nat) x => if best.1 < x.1 then x else best) ((riskTerms s).headD 0, 0) |>.2

/-- The level that a computation leaves (Table 18.9). -/
def nextLevel (level score elev secure drain : Nat) : Nat :=
  if drain ≤ score then 3
  else if level = 3 then (if score + 16 < drain then 2 else 3)
  else if secure ≤ score then 2
  else if level = 2 then (if score + 16 < elev then 0 else if score + 16 < secure then 1 else 2)
  else if elev ≤ score then 1
  else if level = 1 then (if score + 16 < elev then 0 else 1)
  else 0

/-- The effects of a level that rises (Table 18.9): a satchel for every resident context and an event receipt; draining. -/
def levelEffects (s : State) (old new : Nat) : State :=
  let s1 := if old < 2 ∧ 2 ≤ new then
      eventReceipt ((List.range 64).foldl (fun s n => modCtx s n fun c => { c with secureDue := true }) s) 64
        (Config.eventStatus 0).toNat (Config.eventDetail 0).toNat 0
    else s
  if old < 3 ∧ new = 3 then { s1 with draining := true } else s1

/-- RISK_COMPUTE. -/
def execRiskCompute (s : State) : Out :=
  if !ready s then .next s
  else
    let w := (cfgOf s).risk
    let score := riskSum s
    let level := nextLevel (riskLevel s) score (bits w 16 8) (bits w 8 8) (bits w 0 8)
    .next (levelEffects (alerting s fun s =>
      { s with riskEvents := s.riskEvents.filter (fun e => 0 < weightNow s e),
               riskScore := BitVec.ofNat 64 (pack [(8, score), (2, level), (1, b2n (drainedNow s)), (5, 0), (8, riskTop s)]) })
      (riskLevel s) level)

/-! ### SECURE_NOW (R355) -/

/-- A SECURE_NOW of operation `op` with its reserved bits zero. -/
def secureOp (p : Packet) (op : Nat) (s : State) (f : State → State) : State :=
  if bits p.param 254 2 ≠ op then s else if !zeroBits p 0 254 then answer s p 0x81 0x0102 0 else f s

/-- SECURE_NOW TAKE: the receipt follows when the slot is complete or invalid. -/
def execSecureNowTake (p : Packet) (s : State) : Out := ctxCommand p 0x81 s fun n s =>
  secureOp p 0 s fun s => match ctxOf s n with
    | none => s
    | some c =>
      if gathersOf c = [] ∨ securedObj s n = 0 then answer s p 0x81 0x0105 0
      else modCtx (draw s) n fun c => { c with securePkts := c.securePkts ++ [p] }

/-- SECURE_NOW DRAIN. -/
def execSecureNowDrain (p : Packet) (s : State) : Out := mgmtCommand p 0x81 s fun s =>
  secureOp p 1 s fun s => answer { s with draining := true } p 0x81 0 0

/-- SECURE_NOW UNDRAIN. -/
def execSecureNowUndrain (p : Packet) (s : State) : Out := mgmtCommand p 0x81 s fun s =>
  secureOp p 2 s fun s =>
    if riskElev s ≤ riskNow s then answer s p 0x81 0x0300 0
    else answer { s with draining := false, riskScore := putBits s.riskScore 10 1 0 } p 0x81 0 0

/-! ### Draining (R356) -/

/-- LEAVE goes to the other surviving members of each list that holds this module. -/
def sendLeaves (s : State) : State :=
  (List.range 64).foldl (fun s n => match ctxOf s n with
    | none => s
    | some c =>
      let told := (c.lists.filter fun e => (ownPos s e.2).isSome).flatMap fun e => (surviving e.2).map (memberAt e.2)
      ((told.filter fun m => some m != s.modId).eraseDups).foldl (fun s m => emit s (.leave m c.ident)) s) s

/-- DRAIN_COMPLETE. -/
def execDrainComplete (s : State) : Out :=
  let open_ := (numsBelow 64 fun n => match ctxOf s n with
    | some c => c.stepOpen
    | none => false)
  if !ready s || !s.draining || drainedNow s || !open_.isEmpty then .next s
  else
    let s1 := sendLeaves s
    .next (eventReceipt { s1 with riskScore := putBits s1.riskScore 10 1 1 } 64 (Config.eventStatus 1).toNat (Config.eventDetail 1).toNat 0)

/-! ### RESTANTE_COLLECT (R349) -/

/-- The fields of Table 18.4. -/
def rcDst (w : BitVec 256) : Nat := bits w 224 32
def rcSrc (w : BitVec 256) : BitVec 14 := BitVec.ofNat 14 (bits w 210 14)
def rcOwner (w : BitVec 256) : BitVec 14 := BitVec.ofNat 14 (bits w 196 14)
def rcSatchel (w : BitVec 256) : Bool := bits w 194 2 == 1
def rcPart (w : BitVec 256) : Nat := bits w 192 2
def rcGroup (w : BitVec 256) : Nat := bits w 180 12

/-- The committed object of a part of a group. -/
def partObj (c : Ctx) (r : BitVec 1024) (part : Nat) : Nat := grObj r (2 * part + if grSparse r then 0 else verOf c)

/-- A field of RESTANTE_COLLECT is refused. -/
def collectBad (s : State) (n : Nat) (c : Ctx) (p : Packet) : Bool :=
  let w := p.param
  let r := groupRecord s n (rcGroup w)
  decide (2 ≤ bits w 194 2) || !zeroBits p 0 180 || (!rcSatchel w && rcOwner w != 0) ||
  decide ((groupsItem s n).2 ≤ rcGroup w) || (rcPart w == 1 && grObj r 2 == 0) || (rcPart w == 2 && grMode r == 0) ||
  match objOf s n (rcDst w) with
  | some o => !o.isBind && decide (o.size < objSize s n (partObj c r (rcPart w)))
  | none => true

/-- The step whose state is committed. -/
def committedStep (c : Ctx) : Nat := c.step.toNat - if c.stepOpen || c.rerun then 1 else 0

/-- The latest complete satchel of this module, where it keeps a group of position `o`. -/
def satchelFor (s : State) (c : Ctx) (g : Nat) (owner : BitVec 14) : Option (Satchel × Nat) := do
  let x ← (c.satchels.filter fun x => x.valid && x.complete).getLast?
  let r ← (gathersOf c).find? fun r => forwardGroup c (clSrc r) == some g
  let m ← tget c.lists (clList r)
  let o ← posOfMod m owner
  if keeperOf m o = (← ownPos s m) then pure (x, o) else none

/-- The copy from this module: the state after it with its status and detail. -/
def collectHere (s : State) (n : Nat) (c : Ctx) (w : BitVec 256) (dst : Obj) : State × Nat × Nat :=
  let id := partObj c (groupRecord s n (rcGroup w)) (rcPart w)
  if rcSatchel w then match satchelFor s c (rcGroup w) (rcOwner w), rcPart w == 1 with
    | some (x, o), false =>
      (writeObj s n dst 0 (Mem.read x.bytes (satchelBase o (rcPart w) (rcGroup w)) (objSize s n id)), 0, (x.step.toNat + 2 ^ 16 - 1) % 2 ^ 16)
    | _, _ => (s, 0x0105, 0)
  else match readObjAt s n id 0 (objSize s n id) with
    | none => (s, 0x0102, 0)
    | some rd =>
      if rd.bad.isEmpty then (writeObj s n dst 0 rd.bytes, 0, committedStep c % 2 ^ 16)
      else ((objOf s n id).elim s fun o => noteBad s n o (rd.bad.headD 0), 0x0500, 0)

/-- The copy from another module: what it holds, and how the copy ends, is its own. -/
def collectAway (s : State) (n : Nat) (c : Ctx) (p : Packet) (dst : Obj) : State × Nat × Nat :=
  let w := p.param
  let id := partObj c (groupRecord s n (rcGroup w)) (rcPart w)
  let len := if objSize s n id = 0 then dst.size else objSize s n id
  let s1 := emit (draw s) (.collect (rcSrc w) p)
  let fill := writeObj s1 n dst 0 ((List.range len).map fun i => Config.remoteByte s.fresh (globalAddr (rcSrc w) 0 0).toNat i)
  let e := Config.collectEnd s.fresh % 4
  if s.lostMods.contains (rcSrc w) ∨ e = 3 then (fill, 0x0402, 0)
  else if e = 1 then (fill, 0x0300, 0)
  else if e = 2 ∧ rcSatchel w then (s1, 0x0105, 0)
  else (fill, 0, Config.collectStep s.fresh % 2 ^ 16)

/-- RESTANTE_COLLECT. -/
def execRestanteCollect (p : Packet) (s : State) : Out := ctxCommand p 0x82 s fun n s =>
  match ctxOf s n, objOf s n (rcDst p.param) with
  | some c, some dst =>
    if collectBad s n c p then answer s p 0x82 0x0102 0
    else if planNames s n (rcDst p.param) then answer s p 0x82 0x0300 0
    else if isFenced s n (rcDst p.param) then holdRing s p
    else
      let r := if s.modId = some (rcSrc p.param) then collectHere s n c p.param dst else collectAway s n c p dst
      answer r.1 p 0x82 r.2.1 r.2.2
  | _, _ => answer s p 0x82 0x0102 0

end Sys2Proof.Machine
end

