-- ==== Sys2Proof/Machine/Dispatch.lean ====
section
/-! DEFINITION. One arm per command: a direct call of its meaning. -/

namespace Sys2Proof.Machine

open Sys2Proof

/-- The effect of a command on everything but the queue. -/
def exec (i : Instr) (s : State) : Host.Outcome State Fault Refusal :=
  match i with
  | .nop p => Sys2Proof.Machine.execNop p s
  | .echo p => Sys2Proof.Machine.execEcho p s
  | .readInfo p => Sys2Proof.Machine.execReadInfo p s
  | .objAlloc p => Sys2Proof.Machine.execObjAlloc p s
  | .objFree p => Sys2Proof.Machine.execObjFree p s
  | .objMigrate p => Sys2Proof.Machine.execObjMigrate p s
  | .objQuery p => Sys2Proof.Machine.execObjQuery p s
  | .planLoad p => Sys2Proof.Machine.execPlanLoad p s
  | .planVerify p => Sys2Proof.Machine.execPlanVerify p s
  | .planStart p => Sys2Proof.Machine.execPlanStart p s
  | .planCancel p => Sys2Proof.Machine.execPlanCancel p s
  | .stepBegin p => Sys2Proof.Machine.execStepBegin p s
  | .stepCommit p => Sys2Proof.Machine.execStepCommit p s
  | .streamArm p => Sys2Proof.Machine.execStreamArm p s
  | .streamRearm p => Sys2Proof.Machine.execStreamRearm p s
  | .streamCancel p => Sys2Proof.Machine.execStreamCancel p s
  | .syncAlloc p => Sys2Proof.Machine.execSyncAlloc p s
  | .syncSetSet p => Sys2Proof.Machine.execSyncSetSet p s
  | .syncSetSignal p => Sys2Proof.Machine.execSyncSetSignal p s
  | .syncSetPoison p => Sys2Proof.Machine.execSyncSetPoison p s
  | .syncSetRevive p => Sys2Proof.Machine.execSyncSetRevive p s
  | .syncDump p => Sys2Proof.Machine.execSyncDump p s
  | .syncRelease p => Sys2Proof.Machine.execSyncRelease p s
  | .cfgWriteShadow p => Sys2Proof.Machine.execCfgWriteShadow p s
  | .cfgSwap p => Sys2Proof.Machine.execCfgSwap p s
  | .cfgRead p => Sys2Proof.Machine.execCfgRead p s
  | .ctxCreate p => Sys2Proof.Machine.execCtxCreate p s
  | .ctxRetire p => Sys2Proof.Machine.execCtxRetire p s
  | .ctxPreempt p => Sys2Proof.Machine.execCtxPreempt p s
  | .ctxResume p => Sys2Proof.Machine.execCtxResume p s
  | .ctxReset p => Sys2Proof.Machine.execCtxReset p s
  | .kvPoolGrant p => Sys2Proof.Machine.execKvPoolGrant p s
  | .kvPageEdit p => Sys2Proof.Machine.execKvPageEdit p s
  | .kvSeqAbort p => Sys2Proof.Machine.execKvSeqAbort p s
  | .vidDecode p => Sys2Proof.Machine.execVidDecode p s
  | .vidEncode p => Sys2Proof.Machine.execVidEncode p s
  | .tcdConfigSet p => Sys2Proof.Machine.execTcdConfigSet p s
  | .tcdConfigClear p => Sys2Proof.Machine.execTcdConfigClear p s
  | .tcdConfigPoolAdd p => Sys2Proof.Machine.execTcdConfigPoolAdd p s
  | .healthRead p => Sys2Proof.Machine.execHealthRead p s
  | .secureNowTake p => Sys2Proof.Machine.execSecureNowTake p s
  | .secureNowDrain p => Sys2Proof.Machine.execSecureNowDrain p s
  | .secureNowUndrain p => Sys2Proof.Machine.execSecureNowUndrain p s
  | .restanteCollect p => Sys2Proof.Machine.execRestanteCollect p s
  | .fabRouteLoad p => Sys2Proof.Machine.execFabRouteLoad p s
  | .fabMembership p => Sys2Proof.Machine.execFabMembership p s
  | .attest p => Sys2Proof.Machine.execAttest p s
  | .fwStage p => Sys2Proof.Machine.execFwStage p s
  | .fwActivateSelect p => Sys2Proof.Machine.execFwActivateSelect p s
  | .fwActivateRaiseFloor p => Sys2Proof.Machine.execFwActivateRaiseFloor p s
  | .fwActivateKeep p => Sys2Proof.Machine.execFwActivateKeep p s
  | .pwrLimit p => Sys2Proof.Machine.execPwrLimit p s
  | .clkRequestGate p => Sys2Proof.Machine.execClkRequestGate p s
  | .clkRequestUngate p => Sys2Proof.Machine.execClkRequestUngate p s
  | .clkRequestArith533 p => Sys2Proof.Machine.execClkRequestArith533 p s
  | .clkRequestMem9600 p => Sys2Proof.Machine.execClkRequestMem9600 p s
  | .ageingReport p => Sys2Proof.Machine.execAgeingReport p s
  | .ringTurn => Sys2Proof.Machine.execRingTurn s
  | .hstDoorbell ring value => Sys2Proof.Machine.execHstDoorbell ring value s
  | .cmdRcptHeadWrite ring value => Sys2Proof.Machine.execCmdRcptHeadWrite ring value s
  | .ringEnable ring value => Sys2Proof.Machine.execRingEnable ring value s
  | .ringDisable ring value => Sys2Proof.Machine.execRingDisable ring value s
  | .w1cClear offset mask hw => Sys2Proof.Machine.execW1cClear offset mask hw s
  | .registerWrite offset size value poisoned => Sys2Proof.Machine.execRegisterWrite offset size value poisoned s
  | .bar2Access write offset size data => Sys2Proof.Machine.execBar2Access write offset size data s
  | .i3cPrivateWrite offset data hw => Sys2Proof.Machine.execI3cPrivateWrite offset data hw s
  | .entdaa address => Sys2Proof.Machine.execEntdaa address s
  | .jtagInstruction code => Sys2Proof.Machine.execJtagInstruction code s
  | .ctlNop u => Sys2Proof.Machine.execCtlNop u s
  | .endThread u => Sys2Proof.Machine.execEndThread u s
  | .alu u => Sys2Proof.Machine.execAlu u s
  | .alui u => Sys2Proof.Machine.execAlui u s
  | .cmp u => Sys2Proof.Machine.execCmp u s
  | .loopOpen u => Sys2Proof.Machine.execLoopOpen u s
  | .endloop u => Sys2Proof.Machine.execEndloop u s
  | .branch u => Sys2Proof.Machine.execBranch u s
  | .tag u => Sys2Proof.Machine.execTag u s
  | .mma u => Sys2Proof.Machine.execMma u s
  | .spill u => Sys2Proof.Machine.execSpill u s
  | .topk u => Sys2Proof.Machine.execTopk u s
  | .accz u => Sys2Proof.Machine.execAccz u s
  | .kid u => Sys2Proof.Machine.execKid u s
  | .vadd u => Sys2Proof.Machine.execVadd u s
  | .vsub u => Sys2Proof.Machine.execVsub u s
  | .vmul u => Sys2Proof.Machine.execVmul u s
  | .vfma u => Sys2Proof.Machine.execVfma u s
  | .vmax u => Sys2Proof.Machine.execVmax u s
  | .vmin u => Sys2Proof.Machine.execVmin u s
  | .cvt u => Sys2Proof.Machine.execCvt u s
  | .scl u => Sys2Proof.Machine.execScl u s
  | .rsum u => Sys2Proof.Machine.execRsum u s
  | .rmax u => Sys2Proof.Machine.execRmax u s
  | .ssq u => Sys2Proof.Machine.execSsq u s
  | .lds u => Sys2Proof.Machine.execLds u s
  | .sts u => Sys2Proof.Machine.execSts u s
  | .fnExp u => Sys2Proof.Machine.execFnExp u s
  | .fnLog u => Sys2Proof.Machine.execFnLog u s
  | .fnRcp u => Sys2Proof.Machine.execFnRcp u s
  | .fnRsq u => Sys2Proof.Machine.execFnRsq u s
  | .fnSqrt u => Sys2Proof.Machine.execFnSqrt u s
  | .fnTanh u => Sys2Proof.Machine.execFnTanh u s
  | .fnSigm u => Sys2Proof.Machine.execFnSigm u s
  | .fnGelu u => Sys2Proof.Machine.execFnGelu u s
  | .fnSilu u => Sys2Proof.Machine.execFnSilu u s
  | .fnSin u => Sys2Proof.Machine.execFnSin u s
  | .arm u => Sys2Proof.Machine.execArm u s
  | .rearm u => Sys2Proof.Machine.execRearm u s
  | .cancel u => Sys2Proof.Machine.execCancel u s
  | .gather u => Sys2Proof.Machine.execGather u s
  | .signalCount u => Sys2Proof.Machine.execSignalCount u s
  | .waitCount u => Sys2Proof.Machine.execWaitCount u s
  | .takeCount u => Sys2Proof.Machine.execTakeCount u s
  | .setCount u => Sys2Proof.Machine.execSetCount u s
  | .poisonCount u => Sys2Proof.Machine.execPoisonCount u s
  | .readCount u => Sys2Proof.Machine.execReadCount u s
  | .drain u => Sys2Proof.Machine.execDrain u s
  | .drainClr u => Sys2Proof.Machine.execDrainClr u s
  | .drainRed u => Sys2Proof.Machine.execDrainRed u s
  | .enc u => Sys2Proof.Machine.execEnc u s
  | .dec u => Sys2Proof.Machine.execDec u s
  | .engineOpStart core q => Sys2Proof.Machine.execEngineOpStart core q s
  | .engineOpComplete core id errs => Sys2Proof.Machine.execEngineOpComplete core id errs s
  | .unitHardFault u => Sys2Proof.Machine.execUnitHardFault u s
  | .syncOpApply cluster ecc => Sys2Proof.Machine.execSyncOpApply cluster ecc s
  | .waiterEvaluate cluster => Sys2Proof.Machine.execWaiterEvaluate cluster s
  | .waitTimeout core thread => Sys2Proof.Machine.execWaitTimeout core thread s
  | .streamTileStart core stream => Sys2Proof.Machine.execStreamTileStart core stream s
  | .streamTileDone core stream tile ecc => Sys2Proof.Machine.execStreamTileDone core stream tile ecc s
  | .streamCancelDone core stream => Sys2Proof.Machine.execStreamCancelDone core stream s
  | .gatherIndexIssue core ecc => Sys2Proof.Machine.execGatherIndexIssue core ecc s
  | .pageWalk cluster ecc => Sys2Proof.Machine.execPageWalk cluster ecc s
  | .pageWaitResume slot seq => Sys2Proof.Machine.execPageWaitResume slot seq s
  | .pageWaitTimeout slot seq => Sys2Proof.Machine.execPageWaitTimeout slot seq s
  | .passBoundary slot => Sys2Proof.Machine.execPassBoundary slot s
  | .kidJobStart start => Sys2Proof.Machine.execKidJobStart start s
  | .kidJobComplete cluster errs => Sys2Proof.Machine.execKidJobComplete cluster errs s
  | .codecJobStart cluster expand => Sys2Proof.Machine.execCodecJobStart cluster expand s
  | .codecJobComplete cluster expand ecc => Sys2Proof.Machine.execCodecJobComplete cluster expand ecc s
  | .planEnd slot => Sys2Proof.Machine.execPlanEnd slot s
  | .updateUnitSlice port ecc => Sys2Proof.Machine.execUpdateUnitSlice port ecc s
  | .flitReceive port f fec => Sys2Proof.Machine.execFlitReceive port f fec s
  | .replayReq port link => Sys2Proof.Machine.execReplayReq port link s
  | .replayTimeout port => Sys2Proof.Machine.execReplayTimeout port s
  | .linkDownTimeout port silence => Sys2Proof.Machine.execLinkDownTimeout port silence s
  | .laneLockLoss port lane => Sys2Proof.Machine.execLaneLockLoss port lane s
  | .portTrain port => Sys2Proof.Machine.execPortTrain port s
  | .trainTimeout port => Sys2Proof.Machine.execTrainTimeout port s
  | .fabricRead port r => Sys2Proof.Machine.execFabricRead port r s
  | .fabricWrite port f => Sys2Proof.Machine.execFabricWrite port f s
  | .fabricAtomic port f => Sys2Proof.Machine.execFabricAtomic port f s
  | .fabricSignal port f => Sys2Proof.Machine.execFabricSignal port f s
  | .readData port f => Sys2Proof.Machine.execReadData port f s
  | .complete port f => Sys2Proof.Machine.execComplete port f s
  | .fabricError port f => Sys2Proof.Machine.execFabricError port f s
  | .pathDown port f => Sys2Proof.Machine.execPathDown port f s
  | .txnTimeout dst txn => Sys2Proof.Machine.execTxnTimeout dst txn s
  | .redPart port f => Sys2Proof.Machine.execRedPart port f s
  | .reductionDeadline slot coll group slice => Sys2Proof.Machine.execReductionDeadline slot coll group slice s
  | .gatherData port f => Sys2Proof.Machine.execGatherData port f s
  | .vote v => Sys2Proof.Machine.execVote v s
  | .memberLost ctx lost => Sys2Proof.Machine.execMemberLost ctx lost s
  | .leave ctx leaving => Sys2Proof.Machine.execLeave ctx leaving s
  | .migrationFenceNotice ctx home => Sys2Proof.Machine.execMigrationFenceNotice ctx home s
  | .migrationCommitNotice ctx oldHome newHome => Sys2Proof.Machine.execMigrationCommitNotice ctx oldHome newHome s
  | .bindQuery asker ctx objId => Sys2Proof.Machine.execBindQuery asker ctx objId s
  | .migrationCopyStart slot objId => Sys2Proof.Machine.execMigrationCopyStart slot objId s
  | .migrationAckTimeout slot objId binder => Sys2Proof.Machine.execMigrationAckTimeout slot objId binder s
  | .migrationCommit slot objId ecc => Sys2Proof.Machine.execMigrationCommit slot objId ecc s
  | .migrationRelease slot objId => Sys2Proof.Machine.execMigrationRelease slot objId s
  | .cfgSwapPoint => Sys2Proof.Machine.execCfgSwapPoint s
  | .cfgSwapTimeout => Sys2Proof.Machine.execCfgSwapTimeout s
  | .videoJobStart pipe => Sys2Proof.Machine.execVideoJobStart pipe s
  | .decodeFrameDone pipe => Sys2Proof.Machine.execDecodeFrameDone pipe s
  | .encodePictureDone pipe => Sys2Proof.Machine.execEncodePictureDone pipe s
  | .videoJobComplete pipe => Sys2Proof.Machine.execVideoJobComplete pipe s
  | .riskCompute => Sys2Proof.Machine.execRiskCompute s
  | .drainComplete => Sys2Proof.Machine.execDrainComplete s
  | .powerControlPeriod m => Sys2Proof.Machine.execPowerControlPeriod m s
  | .idleWindow core => Sys2Proof.Machine.execIdleWindow core s
  | .thermalSample m => Sys2Proof.Machine.execThermalSample m s
  | .thermalShutdown => Sys2Proof.Machine.execThermalShutdown s
  | .ageingSample slacks => Sys2Proof.Machine.execAgeingSample slacks s
  | .clkReplanApply => Sys2Proof.Machine.execClkReplanApply s
  | .replanQuiesceTimeout => Sys2Proof.Machine.execReplanQuiesceTimeout s
  | .memMarginMeasure m => Sys2Proof.Machine.execMemMarginMeasure m s
  | .memStepApply => Sys2Proof.Machine.execMemStepApply s
  | .muxHung dom => Sys2Proof.Machine.execMuxHung dom s
  | .clockMonitorWindow counts => Sys2Proof.Machine.execClockMonitorWindow counts s
  | .rootPllLockLoss => Sys2Proof.Machine.execRootPllLockLoss s
  | .phyPllLockLoss => Sys2Proof.Machine.execPhyPllLockLoss s
  | .controlWatchdog => Sys2Proof.Machine.execControlWatchdog s
  | .railTrip => Sys2Proof.Machine.execRailTrip s
  | .inputOutOfRange => Sys2Proof.Machine.execInputOutOfRange s
  | .coolantAlert => Sys2Proof.Machine.execCoolantAlert s
  | .auxPowerGood slotId => Sys2Proof.Machine.execAuxPowerGood slotId s
  | .powerOn slotId => Sys2Proof.Machine.execPowerOn slotId s
  | .powerOff => Sys2Proof.Machine.execPowerOff s
  | .warmResetAssert pin => Sys2Proof.Machine.execWarmResetAssert pin s
  | .warmResetRelease pin => Sys2Proof.Machine.execWarmResetRelease pin s
  | .xoStable => Sys2Proof.Machine.execXoStable s
  | .xoTimeout => Sys2Proof.Machine.execXoTimeout s
  | .pllLock => Sys2Proof.Machine.execPllLock s
  | .pllLockTimeout => Sys2Proof.Machine.execPllLockTimeout s
  | .startPhaseComplete r => Sys2Proof.Machine.execStartPhaseComplete r s
  | .phaseTimeout => Sys2Proof.Machine.execPhaseTimeout s
  | .linkRetrain => Sys2Proof.Machine.execLinkRetrain s
  | .linkLoss => Sys2Proof.Machine.execLinkLoss s
  | .linkReturn => Sys2Proof.Machine.execLinkReturn s
  | .bindAnswer ctx objId reply => Sys2Proof.Machine.execBindAnswer ctx objId reply s
  | .migrationPlaceQuery asker ctx req => Sys2Proof.Machine.execMigrationPlaceQuery asker ctx req s
  | .migrationPlaceAnswer slot objId reply => Sys2Proof.Machine.execMigrationPlaceAnswer slot objId reply s
  | .pictureBoundary pipe => Sys2Proof.Machine.execPictureBoundary pipe s
  | .auxPowerLoss => Sys2Proof.Machine.execAuxPowerLoss s
  | .enec => Sys2Proof.Machine.execEnec s
  | .xoAmplitudeDetect swing => Sys2Proof.Machine.execXoAmplitudeDetect swing s
  | .hdmDecoderCommit => Sys2Proof.Machine.execHdmDecoderCommit s

end Sys2Proof.Machine
end

