-- ==== Sys2Proof/Machine/Tick.lean ====
section
/-! DEFINITION. What a tick does where no command waits. -/

namespace Sys2Proof.Machine

/-- A core that the gate tree gates (spec/17 R326): no thread runs and its engine queues are empty. -/
def coreIdle (c : Core) : Bool :=
  c.threads.toList.all (fun t => t.state == .idle || t.state == .sleeping || t.state == .halted) && c.matQ.isEmpty && c.vecQ.isEmpty && c.strQ.isEmpty && c.drnQ.isEmpty &&
  c.synQ.isEmpty && c.tcdQ.isEmpty && c.running.isEmpty

/-- A migration runs. -/
def migrates (s : State) : Bool := s.ctxs.toList.any fun x => match x.ctx with
  | some c => c.objs.any fun e => e.2.mig.isSome
  | none => false

/-- ACTIVE turns to IDLE once nothing works (spec/21 Table 21.5). -/
def settlePower (s : State) : State :=
  if s.life.power = .active ∧ s.cores.toList.all coreIdle ∧ s.pipes.toList.all (fun p => p.running.isNone) ∧ !migrates s then
    { s with life := { s.life with power := .idle } }
  else s

/-- The firmware ends every plan of which a thread has faulted (spec/04 R77). -/
def settleFaults (s : State) : State := (List.range 64).foldl settleFault s

/-- One CLK_CTRL cycle (spec/21 R399): the postmark counter counts once it has started. -/
def tick (s : State) : State :=
  { settlePower (settleFaults s) with postmark := if s.timeOn then s.postmark + 1 else s.postmark }

end Sys2Proof.Machine
end

