-- ==== Sys2Proof/Safety.lean ====
section
/-! DEFINITION. What a safe state is, and the conditions on state and operands that the statements share. -/

namespace Sys2Proof.Machine

/-! ### Safe states -/

/-- Every memory of the module and of the host it reaches is in canonical form. -/
def State.memWf (s : State) : Prop :=
  Mem.wf s.hostMem = true ∧ Mem.wf s.shared = true ∧ Mem.wf s.lpddr = true ∧
  ∀ c : Fin 256, Mem.wf (s.cores[c]).ls = true

/-- The logs hold at most their entries (spec/18 R341, spec/19 R376). -/
def State.logsBounded (s : State) : Prop := s.health.length ≤ 4096 ∧ s.dead.length ≤ 1024

/-- The floor and the security versions of the two banks are from 0 to 64 (spec/20 R387, R388). -/
def State.fwWf (s : State) : Prop := s.fw.floor ≤ 64 ∧ s.fw.svnA ≤ 64 ∧ s.fw.svnB ≤ 64

/-! ### Conditions of the statements -/

/-- The firmware takes the packet of a command: it comes through a ring of the module, in phase READY. -/
def Accepts (p : Packet) (s : State) : Prop := p.ring.toNat ≤ 64 ∧ ready s = true

/-- Thread `u` issues instruction `i`, whose class and operation are `cls` and `op`. -/
def Issues (u : Issuer) (s : State) (i : Iss) (cls op : Nat) : Prop :=
  ready s = true ∧ issuing u s = some (i, none) ∧ iClass i.w = cls ∧ iOp i.w = op

/-- The CTL instructions, with class and operation. -/
def ctlRows (u : Issuer) : List (Nat × Nat × Instr) :=
  [(0, 0, .ctlNop u), (0, 1, .endThread u), (0, 2, .alu u), (0, 3, .alui u), (0, 4, .cmp u), (0, 5, .loopOpen u), (0, 6, .endloop u),
   (0, 7, .branch u), (0, 8, .tag u)]

/-- The engine instructions, with queue, class and operation (spec/04 Table 4.4, spec/03 Table 3.5). -/
def engineRows (u : Issuer) : List (EngineQ × Nat × Nat × Instr) :=
  [(.mat, 1, 0, .mma u), (.mat, 1, 1, .spill u), (.mat, 1, 2, .topk u), (.mat, 1, 3, .accz u), (.mat, 1, 4, .kid u),
   (.vec, 2, 0, .vadd u), (.vec, 2, 1, .vsub u), (.vec, 2, 2, .vmul u), (.vec, 2, 3, .vfma u), (.vec, 2, 4, .vmax u),
   (.vec, 2, 5, .vmin u), (.vec, 2, 6, .cvt u), (.vec, 2, 7, .scl u), (.vec, 2, 8, .rsum u), (.vec, 2, 9, .rmax u),
   (.vec, 2, 10, .ssq u), (.vec, 2, 11, .lds u), (.vec, 2, 12, .sts u),
   (.vec, 3, 0, .fnExp u), (.vec, 3, 1, .fnLog u), (.vec, 3, 2, .fnRcp u), (.vec, 3, 3, .fnRsq u), (.vec, 3, 4, .fnSqrt u),
   (.vec, 3, 5, .fnTanh u), (.vec, 3, 6, .fnSigm u), (.vec, 3, 7, .fnGelu u), (.vec, 3, 8, .fnSilu u), (.vec, 3, 9, .fnSin u),
   (.str, 4, 0, .arm u), (.str, 4, 1, .rearm u), (.str, 4, 2, .cancel u), (.str, 4, 3, .gather u),
   (.syn, 5, 0, .signalCount u), (.syn, 5, 1, .waitCount u), (.syn, 5, 2, .takeCount u), (.syn, 5, 3, .setCount u),
   (.syn, 5, 4, .poisonCount u), (.syn, 5, 5, .readCount u),
   (.drn, 6, 0, .drain u), (.drn, 6, 1, .drainClr u), (.drn, 6, 2, .drainRed u),
   (.tcd, 7, 0, .enc u), (.tcd, 7, 1, .dec u)]

end Sys2Proof.Machine
end

