-- ==== Sys2Proof/Certificates/Slice0/Obligations.lean ====
section
/-! DEFINITION. The statements about the model that the provers prove. -/

open Sys2Proof Sys2Proof.Machine

/-! ### The queue, the tick and reset -/

/-- The queue: a step runs the command at its front on the state with the queue's rest. The queue is the model's own (log entries
1 and 8). -/
def Obligations.StepRunsFront : Prop :=
  ∀ (c : Instr) (s : State), step { s with pending := c :: s.pending } = exec c s

/-- The tick: where no command waits, a step is one cycle of the control domain, in which a running postmark counts 1, wrapping at
2^64. Where no plan has a thread that faulted (R77), no ring, context, core, counter, memory, port or health-log entry changes; where
one has, that plan ends. That an empty queue means one cycle, and that the plan ends there, are the model's choices (log entries 2 and
135). -/
def Obligations.IdleStepTicks : Prop :=
  ∀ s : State, s.pending = [] → ∃ t, step s = .next t ∧
    t.postmark = (if s.timeOn then s.postmark + 1 else s.postmark) ∧
    ((∀ n, faultDue s n = false) →
      t.rings = s.rings ∧ t.ctxs = s.ctxs ∧ t.cores = s.cores ∧ t.counters = s.counters ∧ t.hostMem = s.hostMem ∧
      t.shared = s.shared ∧ t.lpddr = s.lpddr ∧ t.health = s.health ∧ t.ports = s.ports) ∧
    (∀ m, faultDue s m = true → (∀ n, n ≠ m → ∀ u, u = s ∨ u = endPlan s m 0x0400 0 0 → faultDue u n = false) → m < 64 →
      t.ctxs = (endPlan s m 0x0400 0 0).ctxs ∧ t.cores = (endPlan s m 0x0400 0 0).cores)

/-! ### Basic commands (spec/19) -/

/-- NOP, ECHO, READ_INFO and HEALTH_READ complete with OK; ECHO's detail is param [15:0], READ_INFO writes its record, and
HEALTH_READ the log's entries from a sequence number on. -/
def Obligations.BasicCommandsAnswer : Prop :=
  ∀ (p : Packet) (s : State), Accepts p s →
    exec (.nop p) s = .next (answer s p 0x00 0 0) ∧
    exec (.echo p) s = .next (answer s p 0x01 0 (bits p.param 0 16)) ∧
    (bits p.param 192 64 % 64 = 0 → bits p.param 0 192 = 0 →
      exec (.readInfo p) s =
        .next (answer (hostRecord s (bits p.param 192 64) (leBytes 128 (infoRecord s))) p 0x02 0 0)) ∧
    (bits p.param 192 64 % 64 = 0 → bits p.param 176 16 ≠ 0 → bits p.param 0 144 = 0 → p.ring.toNat = 64 →
      ∃ d, exec (.healthRead p) s = .next (answer (hostRecord s (bits p.param 192 64)
        (((s.health.filter fun e => decide (bits p.param 144 32 ≤ e.seq.toNat)).take (bits p.param 176 16)).flatMap healthBytes))
        p 0x80 0 d))

/-! ### Objects (spec/11) -/

/-- OBJ_ALLOC of a home, of a bind entry and of a page to retire, OBJ_FREE and OBJ_QUERY: what each answers, and the entry or the page
that it makes, asks for, takes away or reports. Which place a new home takes is free (log entry 41). -/
def Obligations.ObjectCommandsAnswer : Prop :=
  ∀ (p : Packet) (s : State) (n : Nat), Accepts p s → pktSlot s p = some n →
    (allocReserved p.param = false → allocAtBad s p.param = false → idTaken s n (paObj p.param) = false →
      (∀ off, paKind p.param = 0 → paSize p.param ≠ 0 → paMod p.param = modIdOf s →
        (paTier p.param = 2 → paAddr p.param % 4096 = 0 ∧ paAddr p.param < 2 ^ 48) →
        (paTier p.param = 1 → partAllowed s n (paPart p.param) = true) → tablesFull s n = false →
        choosePlace s p.param (paSize p.param) = some off →
        let o := newHome p.param (modIdOf s) off (paSize p.param) (paCache p.param)
        exec (.objAlloc p) s = .next (answer (if paZero p.param || mustFill s p.param then zeroHome (putEntry s n (paObj p.param) o) n o
          else putEntry s n (paObj p.param) o) p 0x10 0 0)) ∧
      (paKind p.param = 1 → paSize p.param = 0 → paMod p.param ≠ modIdOf s → tablesFull s n = false →
        exec (.objAlloc p) s = .next (emit (modCtx s n fun c => { c with bindPkts := c.bindPkts ++ [p] })
          (.bindQuery (paMod p.param) (identOf s n) (BitVec.ofNat 32 (paAddr p.param))))) ∧
      (paKind p.param = 2 → paSize p.param = 0 → exec (.objAlloc p) s = .next (retirePage s p) ∧
        (bits p.param 85 8 ≤ 191 → bits p.param 64 21 < lpCapacity s / 192 / 4096 →
          (allHomes s).any (fun o => o.tier == 0 && usesPage o.spread o.sgrp o.off o.size (bits p.param 85 8) (bits p.param 64 21)) = false →
          s.retiredPages.length < 4096 → s.retiredPages.contains (bits p.param 85 8, bits p.param 64 21) = false →
          retirePage s p = answer { s with retiredPages := s.retiredPages ++ [(bits p.param 85 8, bits p.param 64 21)] } p 0x10 0 0))) ∧
    (∀ o, objOf s n (bits p.param 224 32) = some o → bits p.param 0 224 = 0 → o.mig = none → o.fenced = false →
      planNames s n (bits p.param 224 32) = false → groupsName s n (bits p.param 224 32) = false →
      exec (.objFree p) s = .next (answer (delEntry s n (bits p.param 224 32)) p 0x11 0 0)) ∧
    (∀ o, objOf s n (bits p.param 224 32) = some o → bits p.param 128 64 % 64 = 0 → bits p.param 0 128 = 0 →
      bits p.param 192 32 = 0 →
      exec (.objQuery p) s = .next (answer (hostRecord s (bits p.param 128 64)
        (leBytes 64 (objRecord (bits p.param 224 32) o))) p 0x13 0 0))

/-- Binding: the home module answers a query with the home's global address and keeps the binder, which a home that a migration has
fenced tells of the fence at once; it answers a query for what it does not hold, or with no room for a binder, with that status. The
answer makes the entry, or ends the command with the answer's status. -/
def Obligations.BindsComplete : Prop :=
  ∀ (asker : BitVec 14) (ctx : BitVec 16) (id : BitVec 32) (reply : MgtReply) (s : State) (n : Nat), slotOfIdent s ctx = some n →
    (∀ o, objOf s n id.toNat = some o → o.isBind = false → o.binders.length < 256 →
      let m := if o.state = .fencing then o.mig.map fun m => { m with unacked := (m.unacked ++ [asker]).eraseDups } else o.mig
      let t := emit (putEntry s n id.toNat { o with binders := o.binders ++ [asker], mig := m })
        (.bindAnswer asker ctx id { status := 0, home := homeAddr o })
      exec (.bindQuery asker ctx id) s = .next (if o.fenced then emit t (.fenceNotice asker ctx (homeAddr o)) else t)) ∧
    ((objOf s n id.toNat = none ∨ ∃ o, objOf s n id.toNat = some o ∧ o.isBind = true) →
      exec (.bindQuery asker ctx id) s = .next (emit s (.bindAnswer asker ctx id { status := 0x0102, home := 0 }))) ∧
    (∀ o, objOf s n id.toNat = some o → o.isBind = false → 256 ≤ o.binders.length →
      exec (.bindQuery asker ctx id) s = .next (emit s (.bindAnswer asker ctx id { status := 0x0303, home := 0 }))) ∧
    (∀ c p, ctxOf s n = some c → (c.bindPkts.find? fun p => paAddr p.param % 2 ^ 32 == id.toNat) = some p →
      let s1 := modCtx s n fun c => { c with bindPkts := c.bindPkts.erase p }
      (reply.status ≠ 0 → exec (.bindAnswer ctx id reply) s = .next (answer s1 p 0x10 reply.status.toNat 0)) ∧
      (reply.status = 0 → idTaken s1 n (paObj p.param) = false → tablesFull s1 n = false →
        ∃ o : Obj, o.isBind = true ∧ homeAddr o = reply.home ∧
          exec (.bindAnswer ctx id reply) s = .next (answer (putEntry s1 n (paObj p.param) o) p 0x10 0 0)))

/-- A migration on one module, or to another, from FENCING to its commit: each event leaves the object in the state that Table 11.3
gives, and OBJ_MIGRATE is answered OK where no byte of the copy was bad and no binder was lost. Migration between modules: the
messages of other modules are acknowledged and applied. That a migration acts by these separate events, and when the spaces are freed,
is the model's reading (log entry 44). -/
def Obligations.MigrationsRun : Prop :=
  (∀ (p : Packet) (s : State) (slot : BitVec 6) (id : BitVec 32) (o : Obj), objOf s slot.toNat id.toNat = some o →
     (Accepts p s → pktSlot s p = some slot.toNat → paObj p.param = id.toNat → o.isBind = false → o.mig = none → o.state ≠ .lost →
       allocReserved p.param = false → paKind p.param = 0 → paSize p.param = 0 →
       paZero p.param = false → paCache p.param = false →
       (paTier p.param = 2 → paAddr p.param % 4096 = 0 ∧ paAddr p.param < 2 ^ 48) → inWindow s o = false →
       (paMod p.param = modIdOf s → allocAtBad s p.param = false → (paTier p.param = 2 → heldByKv s slot.toNat id.toNat = false) →
         (paTier p.param = 1 → partAllowed s slot.toNat (paPart p.param) = true) →
         (choosePlace s p.param o.size).isSome →
         ∃ t o' m, exec (.objMigrate p) s = .next t ∧ objOf t slot.toNat id.toNat = some o' ∧ o'.state = .fencing ∧
           o'.fenced = true ∧ o'.mig = some m ∧ m.pkt = p ∧ m.placed = true ∧ m.unacked = o.binders.eraseDups) ∧
       (paMod p.param ≠ modIdOf s → atBad p.param = false → heldByKv s slot.toNat id.toNat = false →
         ∃ t o' m, exec (.objMigrate p) s = .next t ∧ objOf t slot.toNat id.toNat = some o' ∧ o'.state = .fencing ∧
           o'.fenced = true ∧ o'.mig = some m ∧ m.pkt = p ∧ m.placed = false ∧ m.unacked = o.binders.eraseDups ∧
           t.outbox.getLast? = some (.placeQuery (paMod p.param) (identOf s slot.toNat)
             { param := p.param, size := o.size, cache := o.cache, home := homeAddr o, binders := o.binders }))) ∧
     (∀ m, o.mig = some m → o.state = .fencing → m.placed = true → writesInFlight s slot id.toNat = false →
       exec (.migrationCopyStart slot id) s =
         .next (putEntry s slot.toNat id.toNat { o with state := .copying, mig := some { m with unacked := [] } })) ∧
     (∀ m, o.mig = some m → o.state = .fencing → m.placed = false → ∀ reply : MgtReply,
       (reply.status = 0 → ∃ m', exec (.migrationPlaceAnswer slot id reply) s =
         .next (putEntry s slot.toNat id.toNat { o with mig := some m' }) ∧ m'.placed = true ∧
           m'.newOff = bits reply.home 0 48 ∧ m'.newTier = BitVec.ofNat 2 (bits reply.home 48 2)) ∧
       (reply.status ≠ 0 →
         exec (.migrationPlaceAnswer slot id reply) s =
           .next (migrationBack s slot.toNat id.toNat o m reply.status.toNat))) ∧
     (∀ m b, o.mig = some m → o.state = .fencing → b ∈ m.unacked →
       exec (.migrationAckTimeout slot id b) s = .next (putEntry s slot.toNat id.toNat
         { o with binders := o.binders.filter (· != b), mig := some { m with unacked := m.unacked.erase b, lostBind := true } })) ∧
     (∀ m bad soft, o.mig = some m → o.state = .copying →
       let all := (readObj s slot.toNat { o with state := .homed } 0 o.size).bad ++ bad
       ∃ u, exec (.migrationCommit slot id ⟨bad, soft⟩) s =
           .next (answer u m.pkt 0x12 (if all ≠ [] then 0x0500 else if m.lostBind then 0x0402 else 0) 0) ∧
         (all = [] → soft = [] → ∃ o', objOf u slot.toNat id.toNat = some o' ∧ o'.state = .homed ∧ o'.fenced = false ∧ o'.mig = none ∧
           homeAddr o' = globalAddr m.newMod m.newTier m.newOff ∧ (o'.isBind = true ↔ m.newMod ≠ modIdOf s))) ∧
     ((∃ c, ctxOf s slot.toNat = some c) → ∃ t, exec (.migrationRelease slot id) s = .next t ∧
       ∀ c, ctxOf t slot.toNat = some c → ∀ e ∈ c.releasing, e.1 ≠ id.toNat)) ∧
  (∀ (s : State) (ctx : BitVec 16) (home new : BitVec 64) (asker : BitVec 14) (req : PlaceReq) (n off : Nat),
     exec (.migrationFenceNotice ctx home) s =
       .next (emit (onBind s ctx home fun o => { o with fenced := true }) (.fenceAck (BitVec.ofNat 14 (bits home 50 14)) ctx home)) ∧
     (∀ c id o, slotOfIdent s ctx = some n → ctxOf s n = some c →
       (c.incoming = [] → tget c.objs id = some o → o.isBind = true → homeAddr o = home →
         ∃ t o', exec (.migrationCommitNotice ctx home new) s = .next t ∧ objOf t n id = some o' ∧ o'.fenced = false ∧
           homeAddr o' = new) ∧
       (c.incoming = [(id, home, o)] → homeAddr o = new →
         ∃ t, exec (.migrationCommitNotice ctx home new) s = .next t ∧ objOf t n id = some o ∧
           (ctxOf t n).map (·.incoming) = some [])) ∧
     (slotOfIdent s ctx = some n → allocReserved req.param = false → allocAtBad s req.param = false →
       paMod req.param = modIdOf s → (paTier req.param = 1 → partAllowed s n (paPart req.param) = true) →
       (bindFor s n req.home = none → idTaken s n (paObj req.param) = false ∧ tablesFull s n = false) →
       choosePlace s req.param req.size = some off →
       let o := { newHome req.param (modIdOf s) off req.size req.cache with
         binders := req.binders.erase (modIdOf s) ++ [BitVec.ofNat 14 (bits req.home 50 14)] }
       exec (.migrationPlaceQuery asker ctx req) s =
         .next (emit (draw (modCtx s n fun c =>
             { c with incoming := tput c.incoming ((bindFor s n req.home).getD (paObj req.param)) (req.home, o) }))
           (.placeAnswer asker ctx { status := 0, home := homeAddr o }))))

/-! ### Counters (spec/17) -/

/-- Counter operations at their home (Table 17.2): SYNC_OP_APPLY takes the oldest operation of the cluster that can proceed, the counter
becomes what the table gives for its state, and every other counter stays as it was; a TAKE of a leased range takes its value through
the lease table, and waits while that is full; an operation on a counter that is gone, or another context's, has no effect on it. That
an operation waits for this row is the model's reading (log entry 30). -/
def Obligations.SyncOpApplies : Prop :=
  ∀ (k : BitVec 4) (s : State) (r : SyncReq), ready s = true → vget s.syncQ k.toNat [] = [r] →
    let s1 := { s with syncQ := vset s.syncQ k.toNat [] }
    (applySync s r = none → ∀ ecc, exec (.syncOpApply k ecc) s = .next s) ∧
    (∀ u, (counterOf s r.pid.toNat = none ∨ ∃ c, counterOf s r.pid.toNat = some c ∧ c.slot ≠ r.slot) →
      syncStale s1 r = u → exec (.syncOpApply k .good) s = .next u) ∧
    (∀ c, counterOf s r.pid.toNat = some c → c.slot = r.slot → r.op ≠ .revive →
      ((r.op = .take → c.leased = false ∨ r.value ≠ 1) → ∃ t, exec (.syncOpApply k .good) s = .next t ∧
        counterOf t r.pid.toNat = some (match r.op with
          | .signal => if c.state = .poisoned then c else { c with count := c.count + r.value, added := r.value, last := s.postmark }
          | .take => if c.state = .poisoned then c else { c with count := c.count + r.value, last := s.postmark }
          | .set => if c.state = .poisoned then c else { c with count := r.value, last := s.postmark }
          | .poison => if c.state = .poisoned then c else { c with state := .poisoned, last := s.postmark }
          | _ => { c with last := s.postmark }) ∧
        ∀ q, q ≠ r.pid.toNat → counterOf t q = counterOf s q) ∧
      (∀ core th op sd tmo sig u v, r.op = .take → c.leased = true → r.value = 1 → c.state ≠ .poisoned →
        r.src = .thread core th op sd tmo sig → (applySync s r).isSome → leaseTake s1 r.pid c { core := core, thread := th } = some (u, v) →
        exec (.syncOpApply k .good) s = .next (syncDone u r v)))

/-- TAKE, READ and WAIT deliver to the thread that waits for the result: TAKE and READ the count before the operation, TAKE all
ones on a POISONED counter, WAIT 0 where the count has reached the target and 0x0403 on a POISONED counter. -/
def Obligations.SyncResultsReachThread : Prop :=
  ∀ (k : BitVec 4) (s : State) (r : SyncReq) (c : Counter) (core : BitVec 8) (th : BitVec 5) (op : Nat) (sd : BitVec 5) (tmo : BitVec 4),
    ready s = true → vget s.syncQ k.toNat [] = [r] → counterOf s r.pid.toNat = some c → c.slot = r.slot → c.leased = false →
    r.src = .thread core th op sd tmo none → sd ≠ 0 → (threadOf (coreOf s core.toNat) th.toNat).hold = .result op →
    (∀ v, (r.op = .take ∧ v = (if c.state = .poisoned then BitVec.allOnes 64 else c.count)) ∨ (r.op = .read ∧ v = c.count) ∨
        (r.op = .wait ∧ c.state = .live ∧ r.value ≤ c.count ∧ v = 0) ∨ (r.op = .wait ∧ c.state = .poisoned ∧ v = 0x0403) →
      ∃ t, exec (.syncOpApply k .good) s = .next t ∧
        vget (threadOf (coreOf t core.toNat) th.toNat).s sd.toNat 0 = v ∧
        (threadOf (coreOf t core.toNat) th.toNat).hold = .none)

/-- A new count reaches a cluster: a thread whose target it meets wakes with 0 and its entry goes; one whose target it does not
meet keeps its entry; POISONED wakes it with 0x0403. A walker's and the firmware's entries go likewise, and nothing happens to the
entries of a preempted context. A WAIT's timeout: the thread's entry goes and it wakes with TIMEOUT, 0x0401, or with 0 where the count
has reached the target; of a preempted context the entry stays and keeps that its time has run out. That a count travels as a message
is the model's reading (log entries 31 and 32). -/
def Obligations.WaitersWake : Prop :=
  (∀ (k : BitVec 4) (s : State), ready s = true →
     ((s.counts.find? fun m => m.cluster == k) = none → exec (.waiterEvaluate k) s = .next s) ∧
     (∀ m, (s.counts.find? fun m => m.cluster == k) = some m →
       let s1 := { s with counts := s.counts.erase m }
       exec (.waiterEvaluate k) s =
         .next ((s.waiters.filter fun w => w.cluster == k && w.pid == m.pid).foldl (fun t w => evaluate t m.count w) s1)) ∧
     (∀ (w : Waiter) (v : Option Word),
       let gone := { s with waiters := s.waiters.erase w }
       let met := v.all fun v => decide (w.target ≤ v)
       (frozenSlot s w.slot.toNat = true → evaluate s v w = s) ∧
       (frozenSlot s w.slot.toNat = false →
         (∀ core th op sd sig, w.kind = .thread core th op sd sig →
           evaluate s v w = if met then endWait gone w (if v.isSome then 0 else 0x0403) else s) ∧
         (∀ x, w.kind = .walker x → evaluate s v w = if met then gone else s) ∧
         (∀ n, w.kind = .firmware n → evaluate s v w = if met then commitAdvance 4 gone n.toNat else s) ∧
         (∀ core st, w.kind = .stream core st → v = none → evaluate s v w = s)))) ∧
  (∀ (k : BitVec 4) (s : State) (m : CountMsg) (w : Waiter) (core : BitVec 8) (th : BitVec 5) (op : Nat) (sd : BitVec 5),
     ready s = true → s.counts = [m] → m.cluster = k → s.waiters = [w] → w.cluster = k → w.pid = m.pid →
     frozenSlot s w.slot.toNat = false → w.kind = .thread core th op sd none → sd ≠ 0 →
     (threadOf (coreOf s core.toNat) th.toNat).hold = .result op →
     ∃ t, exec (.waiterEvaluate k) s = .next t ∧ t.counts = [] ∧
       (∀ v, m.count = some v → v < w.target → t.waiters = [w] ∧ t.cores = s.cores) ∧
       (∀ r, (m.count = none ∧ r = 0x0403) ∨ (∃ v, m.count = some v ∧ w.target ≤ v ∧ r = 0) →
         t.waiters = [] ∧ vget (threadOf (coreOf t core.toNat) th.toNat).s sd.toNat 0 = r)) ∧
  (∀ (s : State) (w : Waiter) (core : BitVec 8) (th : BitVec 5) (op : Nat) (sd : BitVec 5) (c : Counter),
     ready s = true → s.waiters = [w] → w.kind = .thread core th op sd none → w.timeout.isSome → w.expired = false →
     counterOf s w.pid.toNat = some c →
     (frozenSlot s w.slot.toNat = false → sd ≠ 0 → (threadOf (coreOf s core.toNat) th.toNat).hold = .result op →
       ∃ t, exec (.waitTimeout core th) s = .next t ∧ t.waiters = [] ∧ vget (threadOf (coreOf t core.toNat) th.toNat).s sd.toNat 0 =
         (if c.state = .live ∧ w.target ≤ c.count then 0 else 0x0401)) ∧
     (frozenSlot s w.slot.toNat = true →
       ∃ t w', exec (.waitTimeout core th) s = .next t ∧ t.waiters = [w'] ∧ t.cores = s.cores ∧ w'.kind = w.kind ∧
         (c.state ≠ .poisoned → w'.expired = true) ∧ (c.state = .poisoned → w'.timeout = none)))

/-- SYNC_SET with its four operations: after the operations that wait for the counter, it takes its new count or state, and the
receipt follows with OK. SYNC_ALLOC of a
local range, SYNC_RELEASE of an idle one and SYNC_DUMP. Which run of counters an allocation takes is the model's choice (log entry
35). -/
def Obligations.CounterCommandsAnswer : Prop :=
  (∀ (p : Packet) (s : State) (n : Nat) (pid : BitVec 16) (c : Counter), Accepts p s → pktSlot s p = some n → n < 64 →
     bits p.param 0 170 = 0 → translate s n (bits p.param 236 20) = .here pid →
     let s1 := applyWaiting s pid
     counterOf s1 pid.toNat = some c → c.slot = BitVec.ofNat 6 n →
     let v : Word := BitVec.ofNat 64 (bits p.param 170 64)
     let op := bits p.param 234 2
     ∃ t u, (op = 0 → exec (.syncSetSet p) s = .next t) ∧ (op = 1 → exec (.syncSetSignal p) s = .next t) ∧
       (op = 2 → exec (.syncSetPoison p) s = .next t) ∧
       (op = 3 → (clusterOf s1 (pidCluster pid)).syncFenced = false → exec (.syncSetRevive p) s = .next t) ∧
       t = answer u p 0x41 0 0 ∧
       counterOf u pid.toNat = some (
         if c.state = .poisoned then
           (if op = 3 then { c with count := v, state := freshState s1 n, last := s1.postmark } else c)
         else if op = 1 then { c with count := c.count + v, added := v, last := s1.postmark }
         else if op = 2 then { c with state := .poisoned, last := s1.postmark }
         else { c with count := v, last := s1.postmark })) ∧
  (∀ (p : Packet) (s : State) (n : Nat), Accepts p s → pktSlot s p = some n →
     (∀ pid, bits p.param 0 129 = 0 → saCluster p.param < 16 → saOwner p.param = 0x100 → saRemote p.param = false →
       saMod p.param = 0 → 0 < saCount p.param → saCount p.param ≤ 4096 → saVbase p.param + saCount p.param ≤ 2 ^ 20 →
       rangesOf (cfgOf s) n = [] → rangesOf (shadowOf s) n = [] → (clusterOf s (saCluster p.param)).syncFenced = false →
       chooseRun s (saCluster p.param) (saCount p.param) = some pid →
       ∃ u, exec (.syncAlloc p) s = .next (answer u p 0x40 0 pid) ∧
         ∀ i, i < saCount p.param → ∃ c, counterOf u (pid + i) = some c ∧ c.count = saInit p.param ∧
           c.state = freshState s n ∧ c.slot = BitVec.ofNat 6 n) ∧
     (∀ e, rangesOf (cfgOf s) n = [e] → rngBase e.2 = bits p.param 236 20 → rngCount e.2 = bits p.param 223 13 →
       bits p.param 0 223 = 0 → rngRemote e.2 = false → rangeBusy s n (rngBase e.2) (rngCount e.2) (rngPid e.2) = false →
       ∃ u, exec (.syncRelease p) s = .next (answer u p 0x43 0 0) ∧ rangesOf (cfgOf u) n = [] ∧
         ∀ q, rngPid e.2 ≤ q → q < rngPid e.2 + rngCount e.2 → counterOf u q = none) ∧
     (bits p.param 192 64 % 64 = 0 → 128 ≤ bits p.param 160 32 → bits p.param 0 127 = 0 →
       ∃ u, exec (.syncDump p) s = .next (answer u p 0x42 0 0) ∧ u.counters = s.counters ∧ u.waiters = s.waiters))

/-! ### Plans (spec/13) -/

/-- PLAN_LOAD and PLAN_VERIFY of an image that the loader accepts: VERIFY writes the record of its verdict, LOAD enters the image
under its number, and the receipt is OK. Some checks of the verdict are free functions of the image (log entry 65). -/
def Obligations.PlanLoadsAndVerifies : Prop :=
  ∀ (p : Packet) (s : State) (n : Nat) (rd : Rd), Accepts p s → pktSlot s p = some n → n < 64 → loadBad s n p = false →
    readObjAt s n (plObj p.param) (plOff p.param) (plSize p.param) = some rd → rd.bad = [] →
    verdict s n rd.bytes (plSize p.param) = none →
    exec (.planVerify p) s = .next (answer (putRecord s p.param none) p 0x21 0 0) ∧
    (runNumber s n ≠ some (plNum p.param) → ∃ u, exec (.planLoad p) s = .next (answer u p 0x20 0 (plNum p.param)) ∧
      ∃ c pl, ctxOf u n = some c ∧ tget c.plans (plNum p.param) = some pl ∧ pl.image = rd.bytes ∧ pl.digest = hdrDigest rd.bytes)

/-- PLAN_START, PLAN_CANCEL and the end of a plan: a start makes the plan run on the cores that it was placed on, with their
threads as the image's records give them; a cancel ends the running plan with CANCELLED, or answers detail 1 where none runs;
PLAN_END ends a plan of which a thread has faulted, finishes a plan whose work has ended, and runs the context commands that waited
for that. When a plan ends, and what it allocates, rests on log entries 68 to 70. -/
def Obligations.PlanStartsAndEnds : Prop :=
  ∀ (p : Packet) (s : State) (n : Nat) (c : Ctx), n < 64 → ctxOf s n = some c →
    (∀ pl ps s1, Accepts p s → pktSlot s p = some n → stepHeld s n = false → bits p.param 0 128 = 0 → bits p.param 192 59 = 0 →
      (bit p.param 251 = true ∨ bits p.param 128 64 = 0) → tget c.plans (bits p.param 252 4) = some pl → c.run = none → drainedNow s = false →
      startVerdict s n pl = none → placePlan s pl.image (takenClusters s n) = .ok ps →
      allocWorks s n (workObjs s n pl.image) = some s1 →
      ∃ t, exec (.planStart p) s = .next t ∧
        ((ctxOf s1 n).isSome → ∃ c' r, ctxOf t n = some c' ∧ c'.run = some r ∧ r.number.toNat = bits p.param 252 4 ∧ r.placed = ps ∧
          r.ending = none ∧ r.fault = none ∧
          r.seed = if bit p.param 251 then BitVec.ofNat 64 (bits p.param 128 64) else hdrSeed pl.image) ∧
        (∀ x, ps = [x] → (coreOf t x.core.toNat).threads = coreThreads pl.image (x.lcl, x.lcore) ∧
          (coreOf t x.core.toNat).slot = some (BitVec.ofNat 6 n))) ∧
    (Accepts p s → pktSlot s p = some n → bits p.param 0 256 = 0 →
      (c.run = none → exec (.planCancel p) s = .next (answer s p 0x23 0 1)) ∧
      (c.run.isSome → exec (.planCancel p) s = .next (modCtx (endPlan (draw s) n 0x0400 0 0) n fun c =>
        { c with run := c.run.map fun r => { r with cancelPkts := r.cancelPkts ++ [p] } }))) ∧
    (∀ (slot : BitVec 6) r, slot.toNat = n → ready s = true →
      let u := lateSeqs (settleFault s n) n
      (ctxOf u n).bind (·.run) = some r →
      (planDone u n r = false ∨ openPasses u n && tablesFenced u n → exec (.planEnd slot) s = .next u) ∧
      (∀ c', planDone u n r = true → (openPasses u n && tablesFenced u n) = false → ctxOf (finishPlan u n r) n = some c' →
        (c'.ctxQ = [] → exec (.planEnd slot) s = .next (finishPlan u n r)) ∧
        (∀ k q rest, c'.ctxQ = (k, q) :: rest → exec (.planEnd slot) s = .next (runCtxQ rest.length rest
          (endCtxCmd (modCtx (finishPlan u n r) n fun c => { c with ctxQ := [] }) n k q) n)))) ∧
    (∀ slot : BitVec 6, slot.toNat = n → ready s = true → c.run = none → exec (.planEnd slot) s = .next s)

/-! ### Contexts (spec/20) -/

/-- CTX_CREATE in an empty slot without keep: the context enters the slot with step 0, RESIDENT, under a key that no draw gave
before, and the generation goes up by 1; the slot's ring pair is disabled. That a key is the number of its draw is the model's own
(log entry 75). -/
def Obligations.ContextIsCreated : Prop :=
  ∀ (p : Packet) (s : State) (n : Nat), p.ring = 64 → ready s = true → n < 64 → p.ctx ≠ 0xFFFF → slotOfIdent s p.ctx = none →
    bit p.param 255 = false → bits p.param 249 6 = n → bits p.param 0 249 = 0 → ctxOf s n = none →
    ∃ u c, exec (.ctxCreate p) s = .next (answer u p 0x58 0 n) ∧ ctxOf u n = some c ∧ c.ident = p.ctx ∧ c.preempted = false ∧
      c.step = 0 ∧ c.objs = [] ∧ c.run = none ∧ (slotOf u n).key = some s.keyDraws ∧ u.keyDraws = s.keyDraws + 1 ∧
      (slotOf u n).gen = (slotOf s n).gen + 1 ∧ enabled (ringOf u n) = false ∧ ∀ m, m ≠ n → slotOf u m = slotOf s m

/-- CTX_PREEMPT and CTX_RESUME: a preemption freezes every thread of the context's cores and its LIVE counters and no other core,
a resumption brings the context back, and each is answered OK. -/
def Obligations.ContextFreezesAndThaws : Prop :=
  ∀ (p : Packet) (s : State) (n : Nat) (c : Ctx), p.ring = 64 → ready s = true → slotOfIdent s p.ctx = some n → ctxOf s n = some c →
    c.ctxQ = [] → bits p.param 0 256 = 0 →
    (c.preempted = false → exec (.ctxPreempt p) s = .next (answer (preempt s n) p 0x5A 0 0) ∧
      (∀ k t, k < 256 → t < 32 → (coreOf s k).slot = some (BitVec.ofNat 6 n) →
        threadOf (coreOf (preempt s n) k) t = freezeThread (threadOf (coreOf s k) t)) ∧
      (∀ k, k < 256 → (coreOf s k).slot ≠ some (BitVec.ofNat 6 n) → coreOf (preempt s n) k = coreOf s k) ∧
      (∀ q k, counterOf s q = some k → k.slot.toNat = n → k.state = .live →
        counterOf (preempt s n) q = some { k with state := .frozen })) ∧
    (c.preempted = true → exec (.ctxResume p) s = .next (answer (resume s n) p 0x5B 0 0))

/-- CTX_RESET and CTX_RETIRE of a context whose plan does not hold them: the reset's effects, and the slot that a retirement
leaves, without context and key and with its generation advanced. -/
def Obligations.ContextResetsAndRetires : Prop :=
  ∀ (p : Packet) (s : State) (n : Nat) (c : Ctx), p.ring = 64 → ready s = true → slotOfIdent s p.ctx = some n → ctxOf s n = some c →
    c.ctxQ = [] → bits p.param 0 256 = 0 → ((ctxOf (resetCtx s n) n).bind (·.run)) = none →
    exec (.ctxReset p) s = .next (answer (resetCtx s n) p 0x5C 0 0) ∧
    exec (.ctxRetire p) s = .next (answer (retireCtx (resetCtx s n) n) p 0x59 0 0) ∧
    (∀ u, (ctxOf u n).isSome → n < 64 → ctxOf (retireCtx u n) n = none ∧ (slotOf (retireCtx u n) n).key = none ∧
      (slotOf (retireCtx u n) n).gen = (slotOf u n).gen + 1)

/-! ### Configuration sets (spec/20) -/

/-- CFG_WRITE_SHADOW of one inline entry and CFG_READ: the shadow set takes the entry and the active set stays as it was; a read
copies the set's entries. CFG_SWAP waits; at the swap point the shadow set becomes active and both sets hold it, the count goes up
by 1 and the swap is answered OK; at its timeout it is answered TIMEOUT and the active set stays. The order of the checks rests on
log entry 73. -/
def Obligations.ConfigurationSetsAct : Prop :=
  (∀ (p : Packet) (s : State), p.ring = 64 → ready s = true →
     (writeFieldBad p.param = false → cfObj p.param = 0 → cfItem p.param ≠ 9 → s.swap = none →
       let v : BitVec 64 := BitVec.ofNat 64 (cfValue p.param)
       let c := putItem (shadowOf s) (cfItem p.param) (cfSlot p.param) (cfIndex p.param) v
       entryOk s (cfItem p.param) (cfSlot p.param) v = true → setOk c (cfItem p.param) (cfSlot p.param) = true →
       ∃ u, exec (.cfgWriteShadow p) s = .next (answer u p 0x50 0 0) ∧ shadowOf u = c ∧ cfgOf u = cfgOf s) ∧
     (cfgFieldBad p.param = false → cfObj p.param = 0 → cfAddr p.param % 8 = 0 →
       exec (.cfgRead p) s = .next (answer (hostRecord s (cfAddr p.param)
         ((List.range (cfCount p.param)).flatMap fun i =>
           itemBytes (if cfShadow p.param then shadowOf s else cfgOf s) (cfItem p.param) (cfSlot p.param) (cfIndex p.param + i)))
         p 0x52 0 0))) ∧
  (∀ (p : Packet) (s : State) (x : Swap),
     (p.ring = 64 → ready s = true → bits p.param 0 224 = 0 → s.swap = none →
       ∃ t, exec (.cfgSwap p) s = .next t ∧ (∃ y, t.swap = some y ∧ y.pkt = p ∧ y.timeout.toNat = bits p.param 224 32) ∧
         t.active = s.active ∧ t.rings = s.rings) ∧
     (ready s = true → s.swap = some x → swapPoint s = true → changedParts s = [] →
       ∃ u, exec .cfgSwapPoint s = .next (answer u x.pkt 0x51 0 0) ∧ u.active = !s.active ∧ u.swaps = s.swaps + 1 ∧
         cfgOf u = shadowOf s ∧ shadowOf u = shadowOf s ∧ u.cache = [] ∧ u.swap = none) ∧
     (ready s = true → s.swap = some x → x.timeout ≠ 0 →
       exec .cfgSwapTimeout s = .next (answer { s with swap := none } x.pkt 0x51 0x0401 0)))

/-! ### Firmware and attestation (spec/20) -/

/-- The firmware commands: FW_STAGE judges an image that reads well by its key, its signature and its version, and stages it in
the bank that does not run; FW_ACTIVATE selects, raises the floor or keeps; ATTEST writes a report that begins with the identity,
the postmark and the nonce. Signatures, digests and versions of an image are free functions (log entries 76 and 78). -/
def Obligations.FirmwareCommandsAnswer : Prop :=
  ∀ (p : Packet) (s : State),
    (∀ rd, p.ring = 64 → ready s = true → bits p.param 0 144 = 0 → bits p.param 176 48 % 4096 = 0 → bits p.param 144 32 ≠ 0 →
      bits p.param 144 32 ≤ 16777216 →
      mgmtRead s none (bits p.param 224 32) (bits p.param 176 48) (bits p.param 144 32) = some rd → rd.bad = [] →
      exec (.fwStage p) s = .next (
        if Config.keyDigestMatches rd.bytes = false ∨ Config.signatureVerifies rd.bytes = false then answer s p 0x91 0x0600 0
        else if svnOf rd.bytes < s.fw.floor.toNat then answer s p 0x91 0x0601 0
        else answer (stageImage s rd.bytes) p 0x91 0 0)) ∧
    (p.ring = 64 → ready s = true → bits p.param 0 254 = 0 →
      (bits p.param 254 2 = 0 → s.fw.staged.isSome →
        exec (.fwActivateSelect p) s = .next (answer { s with fw := { s.fw with selected := !s.fw.running } } p 0x92 0 0)) ∧
      (bits p.param 254 2 = 1 → ∃ f : BitVec 8, f.toNat = max s.fw.floor.toNat (runningSvn s).toNat ∧
        exec (.fwActivateRaiseFloor p) s = .next (answer { s with fw := { s.fw with floor := f } } p 0x92 0 0)) ∧
      (bits p.param 254 2 = 2 →
        exec (.fwActivateKeep p) s = .next (answer { s with fw := { s.fw with selected := s.fw.running } } p 0x92 0 0))) ∧
    (∀ n, Accepts p s → pktSlot s p = some n → bits p.param 192 64 % 64 = 0 → bits p.param 0 64 = 0 →
      ∃ bs, exec (.attest p) s = .next (answer (hostRecord s (bits p.param 192 64) bs) p 0x90 0 0) ∧
        bs.take 16 = leBytes 16 (reportIdent s n) ∧ (bs.drop 16).take 8 = leBytes 8 s.postmark.toNat ∧
        (bs.drop 24).take 16 = leBytes 16 (bits p.param 64 128) ∧ (bs.drop 40).take 24 = List.replicate 24 0)

/-! ### Power, clocks and ageing (spec/21) -/

/-- PWR_LIMIT sets L in both sets; at each control period the power count is below 64 and LIMIT_UNMET is clear, but for a count of
63 with the average above L, which stays at 63 and sets LIMIT_UNMET; an idle window gives the core its idle slots. Thermal limits:
a sample below 92 degrees lowers the count, one above 95 degrees raises it until 63, and between the two the count stays; at 110
degrees the rails go and MOD_THERM_N is asserted. The control law of the counts is free (log entry 100). -/
def Obligations.PowerAndThermalLimitsAct : Prop :=
  (∀ (p : Packet) (s : State) (m : PowerSample) (core : BitVec 8),
     (p.ring = 64 → ready s = true → bits p.param 0 246 = 0 → 300 ≤ bits p.param 246 10 → bits p.param 246 10 ≤ 750 →
       ∃ u, exec (.pwrLimit p) s = .next (answer u p 0xA0 0 0) ∧ limitOf u = bits p.param 246 10 ∧
         bits (shadowOf u).power 0 10 = bits p.param 246 10 ∧ u.active = s.active) ∧
     (s.life.auxGood = true → ready s = true → ¬(s.age.kPower = 63 ∧ limitOf s < m.watts10ms) →
       ∃ t, exec (.powerControlPeriod m) s = .next t ∧ t.mgmt.sensors = m ∧ t.age.limitUnmet = false ∧ t.age.kPower < 64) ∧
     (s.life.auxGood = true → ready s = true → s.age.kPower = 63 → limitOf s < m.watts10ms →
       ∃ t, exec (.powerControlPeriod m) s = .next t ∧ t.mgmt.sensors = m ∧ t.age.limitUnmet = true ∧ t.age.kPower = 63) ∧
     (ready s = true → core.toNat < 256 → ∃ t, exec (.idleWindow core) s = .next t ∧
       (coreOf t core.toNat).idleUntil = s.postmark + BitVec.ofNat 64 (ceilDiv (256 * idleK s * arithDiv s) 6) ∧
       (coreOf t core.toNat).threads = (coreOf s core.toNat).threads)) ∧
  (∀ (m : ThermalSample) (s : State),
     (ready s = true → s.life.power ≠ .off → ∃ t, exec (.thermalSample m) s = .next t ∧ t.mgmt.temps = m ∧
       (92 * 16 ≤ hottest m → hottest m < 95 * 16 → t.age.kThermal = s.age.kThermal) ∧
       (hottest m < 92 * 16 → 0 < s.age.kThermal → t.age.kThermal < s.age.kThermal) ∧
       (95 * 16 < hottest m → s.age.kThermal < 63 → s.age.kThermal < t.age.kThermal ∧ t.age.kThermal ≤ 63)) ∧
     (s.life.power ≠ .off → ∃ t, exec .thermalShutdown s = .next t ∧ t.life.power = .off ∧ t.life.thermLow = true ∧
       t.life.linkUp = false ∧ bit t.mgmt.alertW1c 2 = true ∧ bit t.mgmt.alertW1c 4 = true))

/-- CLK_REQUEST: GATE and UNGATE of an idle node, and a re-plan of clock or memory, which waits for its quiescent point. -/
def Obligations.ClockRequestsAnswer : Prop :=
  ∀ (p : Packet) (s : State), p.ring = 64 → ready s = true → bits p.param 0 241 = 0 →
    (crOp p.param = 0 → nodeOk p.param = true → nodeInUse s p.param = false →
      exec (.clkRequestGate p) s = .next (answer (setGate s p.param true) p 0xA1 0 0)) ∧
    (crOp p.param = 1 → nodeOk p.param = true →
      exec (.clkRequestUngate p) s = .next (answer (setGate s p.param false) p 0xA1 0 0)) ∧
    (crOp p.param = 2 → s.age.clkSlow = false → s.age.clkPend = none →
      exec (.clkRequestArith533 p) s = .next (draw { s with age := { s.age with clkPend := some { pkt := some p, forced := false } } })) ∧
    (crOp p.param = 3 → s.age.memSlow = false → s.age.memPend = none →
      exec (.clkRequestMem9600 p) s = .next (draw { s with age := { s.age with memPend := some { pkt := some p, forced := false } } }))

/-- The quiescent point: CLK_ARITH steps to 533.3 MHz, LPDDR6 to 9,600 MT/s; both sets show it, an event receipt tells the host,
and the request is answered; where no quiescent point comes in 1 s, every plan is cancelled. Ageing: a sample moves VDD_ARITH by
its slack within 550 and 620 mV; slack below 15 ps forces the step of the clock and a margin below the forced bound that of the
memory; AGEING_REPORT writes its record, and the clock monitor lists the sources that have stopped. The check of the sources at
the quiescent point is the model's reading (log entry 103). -/
def Obligations.ReplansAndAgeingAct : Prop :=
  (∀ (s : State) (r : Replan), ready s = true →
     (s.age.clkPend = some r → quiescent s = true → sourceBad s .rootPll = false → sourceBad s (.divider .arith) = false →
       ∃ u, exec .clkReplanApply s = .next (answerReplan (powerEvent u 0x0A03) r 0) ∧ u.age.clkSlow = true ∧ u.age.clkPend = none ∧
         bit (cfgOf u).power 47 = true ∧ bit (shadowOf u).power 47 = true) ∧
     (s.age.memPend = some r → quiescent s = true →
       ∃ u, exec .memStepApply s = .next (answerReplan (powerEvent u 0x0A04) r 0) ∧ u.age.memSlow = true ∧ u.age.memPend = none ∧
         bit (cfgOf u).power 46 = true ∧ bit (shadowOf u).power 46 = true ∧ u.lpddr = s.lpddr) ∧
     (s.age.clkPend = some r → r.forced = true → exec .replanQuiesceTimeout s = .next (cancelAll s))) ∧
  (∀ (s : State) (l : List Int) (low : Int) (m : MarginSample) (p : Packet) (cs : List EdgeCount), ready s = true →
     (l.min? = some low → ∃ t, exec (.ageingSample l) s = .next t ∧ t.age.slackMin = low ∧
       (550 ≤ s.age.vddMv → s.age.vddMv ≤ 620 → 550 ≤ t.age.vddMv ∧ t.age.vddMv ≤ 620 ∧
         (low < 40 → t.age.vddMv = min 620 (s.age.vddMv + 5)) ∧ (40 ≤ low → low < 60 → t.age.vddMv = s.age.vddMv) ∧
         (60 ≤ low → t.age.vddMv = max 550 (s.age.vddMv - 5))) ∧
       (low < 15 → s.age.clkSlow = false → ∃ r, t.age.clkPend = some r ∧ r.forced = true)) ∧
     (∃ t, exec (.memMarginMeasure m) s = .next t ∧
       (m.belowForced = true → s.age.memSlow = false → ∃ r, t.age.memPend = some r ∧ r.forced = true)) ∧
     (p.ring.toNat ≤ 64 → bits p.param 192 64 % 64 = 0 → bits p.param 0 192 = 0 →
       exec (.ageingReport p) s = .next (answer (hostRecord s (bits p.param 192 64) (leBytes 128 (ageingRecord s))) p 0xA2 0 0)) ∧
     (vddAon s = true → ∃ t, exec (.clockMonitorWindow cs) s = .next t ∧
       t.age.stoppedSrc = (cs.filter fun c => c.edges == 0).map (·.source)))

/-- Faults of class MODULE: the fault is logged, HST_ALERT_CAUSE bit 4 is set where the always-on island works, and no firmware
command runs any more. Hard faults: each unit that fails leaves service, and a clock multiplexer that hangs in phase CLOCKS fails
start-up with 0x13. What a MODULE fault stops rests on log entries 6 and 104. -/
def Obligations.FaultsStopUnits : Prop :=
  (∀ s : State, ready s = true → vddAon s = true → s.life.power ≠ .off →
     ∀ i, i = Instr.rootPllLockLoss ∨ i = .phyPllLockLoss ∨ i = .controlWatchdog ∨ i = .railTrip →
       ∃ t, exec i s = .next t ∧ ready t = false ∧ bit t.mgmt.alertW1c 4 = true ∧ t.healthSeq = s.healthSeq + 1 ∧
         ∀ p, p.ring.toNat ≤ 64 → exec (.nop p) t = .next t) ∧
  (∀ (s : State) (k : BitVec 4) (b : BitVec 6) (v : BitVec 3),
     (ready s = true →
       ((clusterOf s k.toNat).syncFenced = false → ∀ u, u = HardUnit.kid k ∨ u = .walker k ∨ u = .codec k ∨ u = .sync k ∨
         u = .storePort k → exec (.unitHardFault u) s = .next (fenceCluster s k.toNat)) ∧
       (∃ t, exec (.unitHardFault (.bank b)) s = .next t ∧ b ∈ t.retiredBanks) ∧
       (v.toNat < 6 → ∃ t, exec (.unitHardFault (.video v)) s = .next t ∧ (pipeOf t v.toNat).retired = true) ∧
       ((portOf s k.toNat).unitsOut = false → ∀ u, u = HardUnit.router k ∨ u = .reduce k ∨ u = .update k →
         exec (.unitHardFault u) s = .next (portUnitFault s k.toNat))) ∧
     (∀ d, inPhase s .clocks = true → ∃ t, exec (.muxHung d) s = .next t ∧ t.life.phase = .failed ∧ t.life.failCode = 0x13))

/-! ### Start-up, resets and management (spec/22, spec/23) -/

/-- Power and resets: power-on starts phase POWER with contexts, rings, counters, logs and LPDDR6 at their reset values and the
floor kept; power-off and loss of auxiliary power leave OFF; a warm reset keeps LPDDR6 and the keys only where keep_mem is set
after MEM_INIT, and its release starts phase POWER. What the reset events keep and ignore rests in part on log entries 9, 104 and
106. -/
def Obligations.PowerAndResetsAct : Prop :=
  ∀ (s : State) (id : BitVec 6) (pin : ResetPin),
    (s.life.auxGood = false → ∃ t, exec (.auxPowerGood id) s = .next t ∧ t.life.auxGood = true ∧ t.life.slotId = id) ∧
    (s.life.auxGood = true → ∃ t, exec .auxPowerLoss s = .next t ∧ t.life.auxGood = false ∧ t.life.power = .off ∧ t.mgmt = .init ∧
      t.lpddr = [] ∧ t.shared = []) ∧
    (s.life.auxGood = true → s.life.pwrEn = false → s.life.modResetLow = false → s.life.perstLow = false →
      ∃ t, exec (.powerOn id) s = .next t ∧ t.life.power = .start ∧ t.life.phase = .power ∧ t.life.slotId = id ∧ t.lpddr = [] ∧
        t.counters = [] ∧ t.hstErr = 0 ∧ t.deadCount = 0 ∧ t.healthSeq = 0 ∧ t.fw.floor = s.fw.floor ∧
        (∀ n, n < 64 → ctxOf t n = none) ∧ (∀ n, n < 65 → ringOf t n = Ring.init n)) ∧
    (s.life.auxGood = true → ∃ t, exec .powerOff s = .next t ∧ t.life.power = .off ∧ t.life.pwrEn = false ∧ t.lpddr = []) ∧
    (s.life.power ≠ .off → s.life.power ≠ .resetHold → ∃ t, exec (.warmResetAssert pin) s = .next t ∧ t.life.power = .resetHold ∧
      (∀ n, n < 64 → ctxOf t n = none) ∧
      t.lpddr = (if s.life.keepMem && s.life.memInitDone then s.lpddr else []) ∧
      t.life.memKept = (s.life.keepMem && s.life.memInitDone)) ∧
    (s.life.power = .resetHold → (s.life.modResetLow = false ∨ pin = .modResetN) → (s.life.perstLow = false ∨ pin = .perstN) →
      ∃ t, exec (.warmResetRelease pin) s = .next t ∧ t.life.power = .start ∧ t.life.phase = .power)

/-- Clocks at start-up: the oscillator's swing, its stability and the lock of the PLLs are taken in order, and a missed bound
fails start-up with code 0x11 or 0x12. Start-up phases in order: POWER, CLOCKS, SRAM_INIT, MEM_TRAIN, MEM_INIT and SELF_TEST that
end well give the next, the postmark starts with CLOCKS' end, READY ends the start-up in IDLE, and a phase that runs out of time
fails with 0xpF. The phase in which the oscillator is judged rests on log entry 106. -/
def Obligations.StartUpRuns : Prop :=
  (∀ (s : State) (b : Bool), clocksStart s = true →
     (exec (.xoAmplitudeDetect b) s = .next { s with life := { s.life with xoSwing := b } }) ∧
     (s.life.xoSwing = true → exec .xoStable s = .next { s with life := { s.life with xoStable := true } }) ∧
     (s.life.xoStable = false → ∃ t, exec .xoTimeout s = .next t ∧ t.life.phase = .failed ∧ t.life.failCode = 0x11) ∧
     (s.life.xoStable = true → exec .pllLock s = .next { s with life := { s.life with pllLocked := true } }) ∧
     (s.life.xoStable = true → s.life.pllLocked = false →
       ∃ t, exec .pllLockTimeout s = .next t ∧ t.life.phase = .failed ∧ t.life.failCode = 0x12)) ∧
  (∀ (s : State) (r : PhaseResult), starting s = true → r.cause = 0 →
     (s.life.phase = .power → ∃ t, exec (.startPhaseComplete r) s = .next t ∧ t.life.phase = .clocks) ∧
     (s.life.phase = .clocks → s.life.pllLocked = true →
       ∃ t, exec (.startPhaseComplete r) s = .next t ∧ t.life.phase = .fwAuth ∧ t.postmark = 0 ∧ t.timeOn = true) ∧
     (s.life.phase = .sramInit → ∃ t, exec (.startPhaseComplete r) s = .next t ∧ t.life.phase = .memTrain) ∧
     (s.life.phase = .memTrain → ∃ t, exec (.startPhaseComplete r) s = .next t ∧ t.life.phase = .memInit) ∧
     (s.life.phase = .memInit → s.life.keeping = false →
       ∃ t, exec (.startPhaseComplete r) s = .next t ∧ t.life.phase = .linkCal ∧ t.lpddr = [] ∧ t.lines = []) ∧
     (s.life.phase = .selfTest → r.coreFaults = [] → r.clusterFaults = [] → r.bankFaults = [] → r.videoFaults = [] →
       r.unitFaults = [] → (coreOf s 0).fenced = false →
       ∃ t, exec (.startPhaseComplete r) s = .next t ∧ t.life.phase = .ready ∧ t.life.power = .idle ∧ ready t = true) ∧
     (∃ t, exec .phaseTimeout s = .next t ∧ t.life.phase = .failed ∧
       t.life.failCode = BitVec.ofNat 8 (16 * phaseCode s.life.phase + 15) ∧ t.timeOn = false))

/-- The CXL link: a re-train sets HST_ERR bit 3 and keeps the link up, a loss takes it down, its return brings it up again, and
the HDM decoder commits while it is up. Management: ENEC, ENTDAA, a private write, the JTAG instruction, and the causes that pins
and sensors raise. The read pointer rests on log entry 109. -/
def Obligations.LinkAndManagementAct : Prop :=
  (∀ s : State,
     (s.life.linkUp = true →
       exec .linkRetrain s = .next (setErr s 3) ∧
       (∃ t, exec .linkLoss s = .next t ∧ t.life.linkUp = false ∧ bit t.hstErr 3 = true) ∧
       exec .hdmDecoderCommit s = .next { s with life := { s.life with hdmOn := true } }) ∧
     (s.life.linkUp = false → linkWorks s = true → ∃ t, exec .linkReturn s = .next t ∧ t.life.linkUp = true)) ∧
  (∀ (s : State) (a : BitVec 7) (code : JtagCode) (v : Byte), s.life.auxGood = true →
     (exec .enec s = .next { s with mgmt := { s.mgmt with ibiOn := true } }) ∧
     (s.mgmt.i3cAddr = none → exec (.entdaa a) s =
       .next (emit { s with mgmt := { s.mgmt with i3cAddr := some a } } (.dynamicAddress (provisionalId s) a))) ∧
     (s.mgmt.i3cAddr.isSome → vddAon s = true → ∃ t, exec (.i3cPrivateWrite 0x09 [v] 0) s = .next t ∧
       t.life.keepMem = bit v 0 ∧ t.mgmt.i3cOffset = 0x09) ∧
     (s.mgmt.i3cAddr.isSome → vddAon s = true → ∃ t, exec (.i3cPrivateWrite 0x10 [v] 0) s = .next t ∧
       t.mgmt.alertW1c = s.mgmt.alertW1c &&& ~~~v) ∧
     (s.life.power ≠ .off → exec (.jtagInstruction code) s = .next { s with mgmt := { s.mgmt with jtag := code } }) ∧
     (vddAon s = true → ∃ t, exec .coolantAlert s = .next t ∧ bit t.mgmt.alertW1c 6 = true ∧
       vget t.mgmt.alertEvents 4 0 = vget s.mgmt.alertEvents 4 0 + 1) ∧
     (s.life.power ≠ .off → ∃ t, exec .inputOutOfRange s = .next t ∧ t.life.power = .off ∧ bit t.mgmt.alertW1c 5 = true ∧
       bit t.mgmt.alertW1c 4 = true))

/-! ### Rings, doorbells and registers (spec/19) -/

/-- A doorbell that moves the tail forward within the ring moves it; a tail beyond the ring is violation DOORBELL, which moves
nothing. RING_ENABLE puts an idle ring pair into service with its counts at 0, RING_DISABLE takes an idle one out, and a write of
the receipt head with nothing waiting is taken as it is. -/
def Obligations.RingPairsAct : Prop :=
  (∀ (n : BitVec 7) (v : BitVec 64) (s : State), n.toNat ≤ 64 → s.life.linkUp = true → ready s = true →
     enabled (ringOf s n.toNat) = true → (n.toNat < 64 → (ctxOf s n.toNat).isSome) →
     let r := ringOf s n.toNat
     let t : BitVec 32 := BitVec.ofNat 32 (bits v 0 32)
     ((t - r.head).toNat ≤ postUnits r → (t - r.tail).toNat ≤ postUnits r →
       exec (.hstDoorbell n v) s = .next (setRing s n.toNat { r with tail := t })) ∧
     (postUnits r < (t - r.head).toNat → r.state ≠ .quarantined →
       ∃ u, exec (.hstDoorbell n v) s = .next u ∧ (ringOf u n.toNat).tail = r.tail ∧ bit u.hstErr 0 = true ∧
         ∃ e ∈ u.dead, e.kind = 7 ∧ e.info = v ∧ e.logSeq = s.deadCount)) ∧
  (∀ (n : BitVec 7) (v : BitVec 64) (s : State), n.toNat ≤ 64 → s.life.linkUp = true → ready s = true →
     let r := ringOf s n.toNat
     (enabled r = false → bit v 31 = true → bits v 8 3 ≠ 7 → bits v 0 3 ≠ 7 →
       ∃ t r', exec (.ringEnable n v) s = .next t ∧ ringOf t n.toNat = r' ∧ enabled r' = true ∧ r'.state = .running ∧
         r'.head = 0 ∧ r'.tail = 0 ∧ r'.nextSeq = 0 ∧ r'.comp = 0 ∧ r'.consumed = 0 ∧ r'.postBase = r.postBase) ∧
     (enabled r = true → bit v 31 = false → bits v 8 3 ≠ 7 → bits v 0 3 ≠ 7 → ctrlFixed v = ctrlFixed r.ctrl → r.taken = 0 →
       r.waiting = [] → ∃ t, exec (.ringDisable n v) s = .next t ∧ enabled (ringOf t n.toNat) = false ∧
         (ringOf t n.toNat).state = .disabled ∧ (ringOf t n.toNat).head = r.head) ∧
     (r.waiting = [] → ∃ t, exec (.cmdRcptHeadWrite n v) s = .next t ∧
       (ringOf t n.toNat).consumed = BitVec.ofNat 32 (bits v 0 32) ∧ (ringOf t n.toNat).comp = r.comp))

/-- RING_TURN takes the packet of one unit at the head of the ring whose turn it is, where nothing holds it: the head moves past
it, next_seq follows it, it takes a command slot, and the turn goes to the next ring. The round and the two commands for one
packet rest on log entries 13 and 14. -/
def Obligations.RingTurnTakesPacket : Prop :=
  ∀ (s : State) (k n : Nat) (h : BitVec 512), ready s = true → s.turn = k → k < 65 → n = (if k = 0 then 64 else k - 1) →
    ringOffers s n = true → (unitAt s n (ringOf s n) (ringOf s n).head.toNat).1 = some h → bits h 16 16 = 1 →
    headerFault s n h (packetOf n h []) 1 = none → packetWaits s n (bits h 0 8) (packetOf n h []) = false →
    ∃ t, exec .ringTurn s = .next t ∧ t = { takePkt s n (packetOf n h []) (bits h 0 8) 1 with turn := (k + 1) % 65 } ∧
      (ringOf t n).head = (ringOf s n).head + 1 ∧ (ringOf t n).nextSeq = (packetOf n h []).seq + 1 ∧
      t.slots = s.slots ++ [{ opcode := BitVec.ofNat 8 (bits h 0 8), pkt := packetOf n h [] }]

/-- The answer to a command (R368 to R370): with the link up, room in the ring and none waiting, the ring's comp counts 1, and the
32 bytes at its place hold the tag, the packet's seq, the status, the detail, comp and the phase. No other ring, memory, register,
context, core, cluster, port or log changes. -/
def Obligations.AnswersWriteReceipts : Prop :=
  ∀ (s : State) (p : Packet) (op status detail : Nat), p.ring.toNat ≤ 64 → s.life.linkUp = true → status ≠ 0x0102 →
    status < 2 ^ 16 → detail < 2 ^ 16 → op < 2 ^ 8 →
    let r := ringOf s p.ring.toNat
    rcptFull r = false → r.waiting = [] → bit r.rcptBase 63 = false →
    let a := bits r.rcptBase 12 36 * 4096 + 32 * (r.comp.toNat % rcptEntries r)
    s.hostReject.contains (a / 64) = false → r.comp.toNat + 1 < 2 ^ 64 →
    let t := answer s p op status detail
    (ringOf t p.ring.toNat).comp = r.comp + 1 ∧ Mem.num t.hostMem a 8 = p.tag.toNat ∧ Mem.num t.hostMem (a + 8) 4 = p.seq.toNat ∧
      Mem.num t.hostMem (a + 12) 2 = status ∧ Mem.num t.hostMem (a + 14) 2 = detail ∧
      Mem.num t.hostMem (a + 16) 8 = r.comp.toNat + 1 ∧
      Mem.num t.hostMem (a + 24) 1 = (r.comp.toNat / rcptEntries r + 1) % 2 ∧ Mem.num t.hostMem (a + 25) 1 = op ∧
      (∀ x, x < a ∨ a + 32 ≤ x → Mem.byte t.hostMem x = Mem.byte s.hostMem x) ∧
      (∀ q, q ≠ p.ring.toNat → ringOf t q = ringOf s q) ∧ t.life = s.life ∧ t.fw = s.fw ∧ t.ctxs = s.ctxs ∧ t.cores = s.cores ∧
      t.clusters = s.clusters ∧ t.counters = s.counters ∧ t.ports = s.ports ∧ t.shared = s.shared ∧ t.lpddr = s.lpddr ∧
      t.dead = s.dead ∧ t.health = s.health ∧ t.hstErr = s.hstErr

/-- Writes of ones clear the bits that they name in HST_ERR and in a context's ATT_STATUS, and no others; a bit that the hardware
sets in the same cycle stays set. BAR0 and BAR2: a write of a ring base of a disabled ring pair takes its legal bits; an access
that BAR0 does not name is logged as violation MMIO; a BAR2 write in a window writes LPDDR6 under the window's context, and a read
gives its bytes. Entries 16, 19 and 115 of the log give the readings that it rests on. -/
def Obligations.HostAccessesAct : Prop :=
  (∀ (s : State) (mask : BitVec 64) (n : Nat) (c : Ctx), s.life.linkUp = true → n < 64 →
     (∃ t, exec (.w1cClear 0x0018 mask 0) s = .next t ∧ t.hstErr = s.hstErr &&& ~~~(mask.setWidth 4) ∧
       t.hstErrEvents = s.hstErrEvents) ∧
     (∃ t, exec (.w1cClear 0x0018 mask 1) s = .next t ∧ bit t.hstErr 0 = true) ∧
     (ready s = true → ctxOf s n = some c → ∃ t c', exec (.w1cClear (BitVec.ofNat 16 (0x4000 + 0x100 * n)) mask 0) s = .next t ∧
       ctxOf t n = some c' ∧ c'.attStatus = c.attStatus &&& ~~~(mask &&& 0x1B) ∧ c'.attEvents = c.attEvents)) ∧
  (∀ (s : State) (v : BitVec 64) (n : Nat), s.life.linkUp = true → ready s = true → n < 65 →
     (enabled (ringOf s n) = false → ∃ t, exec (.registerWrite (BitVec.ofNat 16 (0x2000 + 0x40 * n)) 8 v false) s = .next t ∧
       (ringOf t n).postBase = v &&& 0x8000FFFFFFFFF000 ∧ (ringOf t n).head = (ringOf s n).head) ∧
     (∀ off size, accessOk off.toNat size = false →
       exec (.registerWrite off size v false) s = .next (mmioViolation s off.toNat)) ∧
     (∀ (off : BitVec 48) (size m : Nat) (data bs : List Byte) (soft : List Nat), s.life.hdmOn = true → size ≠ 0 → data.length = size →
       windowFor s off.toNat size = some m →
       exec (.bar2Access true off size ⟨data, soft⟩) s = .next (dropFreed (lpWrite s m off.toNat data) m) ∧
       (∃ t, exec (.bar2Access false off size ⟨bs, soft⟩) s = .next t) ∧
       ∃ t bad, exec (.bar2Access false off size ⟨bs, []⟩) s = .next t ∧
         t.outbox = s.outbox ++ [.bar2Done off ((List.range size).map fun i => lpByte s m (off.toNat + i)) bad] ∧ t.lpddr = s.lpddr))

/-! ### Risk, draining and collection (spec/18) -/

/-- RISK_COMPUTE writes the score, at most 255, with its greatest term, and its level: from the drain threshold on the level is 3,
and where it was below 2 the module drains and every context is due to be secured. The halving of event terms rests on log entry
86. -/
def Obligations.RiskIsComputed : Prop :=
  ∀ s : State, ready s = true → ∃ t, exec .riskCompute s = .next t ∧ bits t.riskScore 0 8 = riskSum s ∧
    bits t.riskScore 16 8 = riskTop s ∧ (bits (cfgOf s).risk 0 8 ≤ riskSum s → riskLevel t = 3 ∧
      (riskLevel s < 2 → t.draining = true ∧ ∀ n c, ctxOf t n = some c → c.secureDue = true))

/-- SECURE_NOW and RESTANTE_COLLECT: TAKE waits with its packet, DRAIN and UNDRAIN answer at once, the end of a drain sets
RSK_SCORE.drained, and a collection of this module's committed state writes it into the destination with the step in the detail.
The collection of a local part rests on log entry 85. -/
def Obligations.SecuredStateCommandsAnswer : Prop :=
  ∀ (p : Packet) (s : State) (n : Nat) (c : Ctx),
    (Accepts p s → pktSlot s p = some n → ctxOf s n = some c → bits p.param 0 254 = 0 → bits p.param 254 2 = 0 →
      gathersOf c ≠ [] → securedObj s n ≠ 0 →
      exec (.secureNowTake p) s = .next (modCtx (draw s) n fun c => { c with securePkts := c.securePkts ++ [p] })) ∧
    (p.ring = 64 → ready s = true → bits p.param 0 254 = 0 →
      (bits p.param 254 2 = 1 → exec (.secureNowDrain p) s = .next (answer { s with draining := true } p 0x81 0 0)) ∧
      (bits p.param 254 2 = 2 → riskNow s < riskElev s →
        ∃ u, exec (.secureNowUndrain p) s = .next (answer u p 0x81 0 0) ∧ u.draining = false ∧ bit u.riskScore 10 = false)) ∧
    (ready s = true → s.draining = true → drainedNow s = false →
      (∀ m c, m < 64 → ctxOf s m = some c → c.stepOpen = false) →
      ∃ t, exec .drainComplete s = .next t ∧ bit t.riskScore 10 = true) ∧
    (∀ dst rd, Accepts p s → pktSlot s p = some n → ctxOf s n = some c → objOf s n (rcDst p.param) = some dst →
      collectBad s n c p = false → planNames s n (rcDst p.param) = false → isFenced s n (rcDst p.param) = false →
      s.modId = some (rcSrc p.param) →
      rcSatchel p.param = false →
      let id := partObj c (groupRecord s n (rcGroup p.param)) (rcPart p.param)
      readObjAt s n id 0 (objSize s n id) = some rd → rd.bad = [] →
      exec (.restanteCollect p) s = .next (answer (writeObj s n dst 0 rd.bytes) p 0x82 0 (committedStep c % 2 ^ 16)))

/-! ### Steps, reductions and votes (spec/10, spec/16, spec/18) -/

/-- STEP_BEGIN whose checks pass opens the step and is answered with the step number; STEP_COMMIT of an open step stays with its
packet until the outcome, or is answered CANCELLED at once where the step has aborted. The outcome of a step without a vote list
(Table 1.4): OVERFLOW_SKIPPED comes before PEER_LOST, and PEER_LOST before OK_PARTIAL. -/
def Obligations.StepsCommit : Prop :=
  (∀ (p : Packet) (s : State) (n : Nat) (c : Ctx), Accepts p s → pktSlot s p = some n → ctxOf s n = some c →
     (bits p.param 0 192 = 0 → beginHeld s n = false → beginCheck s n c p.param = none →
       exec (.stepBegin p) s = .next (answer (openStep s n p.param) p 0x24 0
         (((ctxOf (openStep s n p.param) n).map fun c => c.step.toNat % 2 ^ 16).getD 0))) ∧
     (bits p.param 0 256 = 0 → c.stepOpen = true → c.commit = none →
       (c.aborted = none → groupsFenced s n = false → exec (.stepCommit p) s =
         .next (commitAdvance 4 (modCtx (draw s) n fun c => { c with commit := some (p, .waitSend) }) n)) ∧
       (∀ d, c.aborted = some d → exec (.stepCommit p) s =
         .next (closeStep (dropCached s fun l => l.slot.toNat == n) n p 0x0400 d.toNat)))) ∧
  (∀ (s : State) (n : Nat) (v : VoteMsg) (c : Ctx) (p : Packet) (st : CommitStage), ctxOf s n = some c → c.commit = some (p, st) →
     ∃ u d, stepOutcome s n v = closeStep u n p (outcomeStatus c v) d ∧
       (v.flagged ≠ 0 → outcomeStatus c v = 0x0404) ∧
       (v.flagged = 0 → (v.lost || c.stepLost) = true → outcomeStatus c v = 0x0402) ∧
       (v.flagged = 0 → (v.lost || c.stepLost) = false → v.part = true → outcomeStatus c v = 0x0001))

/-- VOTE: an ABORT goes on through the tree and aborts here; a vote from below is kept and the joined vote advances; an outcome
from above closes the step. Lost and leaving members: a module that learns of its own loss ends its plan PEER_LOST, one that
learns of another's excludes it and re-forms its trees; a LEAVE is kept for the next STEP_BEGIN. Which list the vote uses rests on
log entry 81. -/
def Obligations.VotesAndMembersAct : Prop :=
  (∀ (s : State) (v : VoteMsg) (n : Nat) (c : Ctx) (m : Members), ready s = true → slotOfIdent s v.ctx = some n → ctxOf s n = some c →
     tget c.lists v.list.toNat = some m →
     (v.abort = true → exec (.vote v) s = .next (remoteAbort (if v.down then sendDown s m v else sendUp s m v) n)) ∧
     (v.abort = false → v.down = false → exec (.vote v) s = .next (voteAdvance (modCtx s n fun c =>
       { c with votes := c.votes.filter (fun x => !(x.list == v.list && x.fromPos == v.fromPos)) ++ [v] }) n)) ∧
     (∀ p, v.abort = false → v.down = true → c.commit = some (p, .waitOutcome) →
       exec (.vote v) s = .next (if faultDue s n then settleFault (sendDown s m v) n else stepOutcome (sendDown s m v) n v))) ∧
  (∀ (s : State) (ctx : BitVec 16) (x : BitVec 14) (n : Nat) (c : Ctx), slotOfIdent s ctx = some n → ctxOf s n = some c →
     (ready s = true → s.modId = some x → exec (.memberLost ctx x) s = .next (endPlan (modCtx s n fun c =>
       { c with lists := c.lists.map fun e => (e.1, { e.2 with selfLost := e.2.selfLost || e.2.now.contains x }) }) n 0x0402 0 0)) ∧
     (ready s = true → s.modId ≠ some x →
       ((∃ e ∈ c.lists, ∃ i, e.2.now[i]? = some x ∧ i ∉ e.2.excluded) →
         exec (.memberLost ctx x) s = .next (reform (excludeMember s n x) n x)) ∧
       ((∀ e ∈ c.lists, ∀ i, e.2.now[i]? = some x → i ∈ e.2.excluded) → exec (.memberLost ctx x) s = .next s)) ∧
     (∃ (t : State) (c' : Ctx), exec (.leave ctx x) s = .next t ∧ ctxOf t n = some c' ∧ c'.lists.length = c.lists.length ∧
       ∀ (j : Nat) (e : Nat × Members), c.lists[j]? = some e → ∃ m' : Members, c'.lists[j]? = some (e.1, m') ∧ m'.now = e.2.now ∧ m'.excluded = e.2.excluded ∧
         ∀ i, e.2.now[i]? = some x → i ∈ m'.leaving))

/-- RED_PART and GATHER_DATA in one flit each: the run is whole, and the partial joins its reduction, or the slice lands; a RED_PART
with neither data nor count is a marker. How a
run of flits is joined rests on log entry 79. -/
def Obligations.CollectiveFlitsLand : Prop :=
  ∀ (port : BitVec 4) (f : Flit) (s s1 : State) (n : Nat), ready s = true → flitSlot s f.txn = some n →
    earlyFlit s n f.txn = false → collFenced s n (rpColl f.txn) = false → takeRx s port.toNat f = some s1 → f.txn.last = true →
    f.txn.fidx = 0 →
    (∀ t i, f.txn.op = 0x80 → treeOf s1 n (rpColl f.txn) (rpGroup f.txn) (rpSlice f.txn) = some t →
      posOfMod t.mem f.txn.srcMod = some i →
      (rpCount f.txn = 0 → f.txn.len = 0 → exec (.redPart port f) s = .next (takeMarker s1 n t f.txn i)) ∧
      let r := findRed s1 (.fresh n (rpColl f.txn) (rpGroup f.txn) (rpSlice f.txn) t.step false)
      rpCount f.txn ≠ 0 → r.building = [] →
        exec (.redPart port f) s = .next (takePartial (putRed s1 { r with building := [] }) n t f.txn i f.data)) ∧
    (∀ c, f.txn.op = 0x81 → ctxOf s n = some c →
      let r := findRed s1 (.fresh n (rpColl f.txn) (rpGroup f.txn) (rpSlice f.txn) (c.step.setWidth 32) false)
      r.building = [] → exec (.gatherData port f) s = .next (takeGather (putRed s1 { r with building := [] }) n f.txn f.data))

/-- The update unit takes the oldest slice of its port: the rule's results enter the version that is not committed, their events and
their sums of squares are kept, and the group's record follows with its last slice; words that read as uncorrectable end the plan
besides. A reduction's deadline completes what had started at this node. Conversion events of update stores are free (log entry 83). -/
def Obligations.UpdatesAndDeadlinesAct : Prop :=
  ∀ (port : BitVec 4) (s : State) (sl : BitVec 6) (g : BitVec 12) (k : BitVec 32) (tile : Tile)
    (rest : List (BitVec 6 × BitVec 12 × BitVec 32 × Tile)), ready s = true → port.toNat < 16 →
    ((portOf s port.toNat).updQ = (sl, g, k, tile) :: rest → groupsFenced s sl.toNat = false →
      let s0 := modPort s port.toNat fun p => { p with updQ := rest }
      (∀ c r ecc hard, ctxOf s sl.toNat = some c → recordOf s0 sl.toNat g.toNat = some r → c.stepOpen = true → c.aborted = none →
        ecc ≠ Ecc.corrected →
        let res := sliceResults s0 sl.toNat r (updConst r (c.rates.getD g.toNat 0) (lossExp c) (groupStep c g.toNat + 1)) (verOf c)
          k.toNat tile (if ecc = .uncorrectable then hard else [])
        let w := putSlice s0 sl.toNat r (1 - verOf c) k.toNat res.1
        let sums := unitSums s0 sl.toNat g.toNat r (verOf c) k.toNat res.1
        let s1 := modCtx w.1 sl.toNat fun c =>
          { c with updEvents := tput c.updEvents g.toNat ((tget c.updEvents g.toNat).getD 0 + w.2),
                   updSums := tput c.updSums g.toNat (((tget c.updSums g.toNat).getD []).filter (fun e => e.1 != k.toNat) ++ [(k.toNat, sums)]) }
        let s2 := if unitsDone s1 sl.toNat g.toNat then ratioRecord s1 sl.toNat g.toNat else s1
        (ecc = .good → res.2 = false → exec (.updateUnitSlice port ⟨ecc, hard⟩) s = .next (commitAdvance 4 s2 sl.toNat)) ∧
        (ecc = .uncorrectable → ∃ src, exec (.updateUnitSlice port ⟨ecc, hard⟩) s =
          .next (commitAdvance 4 (dataError s2 sl.toNat src k.toNat) sl.toNat))) ∧
      (∀ c ecc hard, ctxOf s sl.toNat = some c → c.aborted.isSome → exec (.updateUnitSlice port ⟨ecc, hard⟩) s = .next s0)) ∧
    (∀ (coll : BitVec 16) t, treeOf s sl.toNat coll.toNat g.toNat k.toNat = some t → collFenced s sl.toNat coll.toNat = false →
      let r := findRed s (.fresh sl.toNat coll.toNat g.toNat k.toNat t.step false)
      let u := advanceRed (completeRed s sl.toNat t r true) sl.toNat t { r with done := true }
      r.started = true → r.done = false →
      (findRed u (.fresh sl.toNat coll.toNat g.toNat k.toNat t.step true)).started = false →
      exec (.reductionDeadline sl coll g k) s = .next u)

/-! ### The fabric (spec/16) -/

/-- Ports: training brings a port up with fresh sequence numbers and the partner's credits; a bound that runs out, a lane that
loses its lock and a training that fails take it down with their causes. A port with nothing to send that goes down shows its
cause, has no credit left, and leaves every other port as it was. -/
def Obligations.PortsGoUpAndDown : Prop :=
  (∀ (s : State) (k : BitVec 4) (lane : BitVec 2), let p := portOf s k.toNat
     (p.state = .training → (∃ t, exec (.portTrain k) s = .next t ∧ (portOf t k.toNat).state = .up ∧ (portOf t k.toNat).txSeq = 0 ∧
         (portOf t k.toNat).rxSeq = 0 ∧ (portOf t k.toNat).credits = #v[64, 64, 96, 32]) ∧
       exec (.trainTimeout k) s = .next (downPort s k.toNat .trainFail)) ∧
     (p.state = .up → exec (.linkDownTimeout k true) s = .next (downPort s k.toNat .silence) ∧
       (p.retry ≠ [] → exec (.linkDownTimeout k false) s = .next (downPort s k.toNat .retryBound)) ∧
       exec (.laneLockLoss k lane) s = .next (downPort (modPort s k.toNat fun x => { x with lanes := putBits x.lanes lane.toNat 1 0 })
         k.toNat .laneLock) ∧
       exec (.replayTimeout k) s = .next (replay s k.toNat) ∧
       ∀ l, exec (.replayReq k l) s = .next (pump (replay (modPort s k.toNat fun x => takeLink x l) k.toNat) k.toNat))) ∧
  (∀ (s : State) (k : BitVec 4) (cause : PortCause), (portOf s k.toNat).txQ = .replicate 4 [] → (portOf s k.toNat).retry = [] →
     let t := downPort s k.toNat cause
     (portOf t k.toNat).state = .down ∧ (portOf t k.toNat).cause = cause ∧ (portOf t k.toNat).retry = [] ∧
       (portOf t k.toNat).txQ = .replicate 4 [] ∧ (portOf t k.toNat).credits = .replicate 4 0 ∧
       ∀ q, q ≠ k.toNat → portOf t q = portOf s q)

/-- FLIT_RECEIVE: a good flit with the next sequence number is taken; one with a bad CRC is counted and discarded. The CRC's
parameters are presumed (log entry 88). -/
def Obligations.FlitsAreReceived : Prop :=
  ∀ (s : State) (k : BitVec 4) (f : Flit), (portOf s k.toNat).state = .up → (portOf s k.toNat).uncorrAt = [] →
    let s1 := countFec s k.toNat { corrected := 0, uncorrectable := 0 }
    (f.crc = crc32c (flitBytes f) →
      exec (.flitReceive k f { corrected := 0, uncorrectable := 0 }) s = .next (takeFlit s1 k.toNat f) ∧
      (f.link.kind = 0 → f.link.seq = (portOf s k.toNat).rxSeq → s.modId = some f.txn.dstMod → reservedFlit f = false →
        vcOf f.txn.op ≠ 3 → ∃ u, takeFlit s1 k.toNat f = respond u k.toNat ∧
          vget (portOf u k.toNat).rxBuf (vcOf f.txn.op).toNat [] = vget (portOf s k.toNat).rxBuf (vcOf f.txn.op).toNat [] ++ [f] ∧
          (portOf u k.toNat).rxSeq = (portOf s k.toNat).rxSeq + 1)) ∧
    (f.crc ≠ crc32c (flitBytes f) → ∃ t, exec (.flitReceive k f { corrected := 0, uncorrectable := 0 }) s = .next t ∧
      (portOf t k.toNat).crcFail = (portOf s k.toNat).crcFail + 1 ∧ (portOf t k.toNat).discarding = true ∧
      (portOf t k.toNat).rxBuf = (portOf s k.toNat).rxBuf)

/-- What a destination does with a request that it may serve (Table 16.4): a READ is answered with the bytes or the count, a WRITE of one flit
is written and answered COMPLETE, an atomic answers the old value and writes the new one, a SIGNAL goes to its counter's home. A
request that a source re-issues is not executed again (R307): an atomic whose record stands is answered with the old value that
was recorded, and no home changes. The order of the duplicate filter and the other checks rests on log entry 93. -/
def Obligations.RequestsAreServed : Prop :=
  (∀ (port : BitVec 4) (f : Flit) (s s1 : State) (n : Nat), ready s = true → takeRx s port.toNat f = some s1 →
     flitSlot s1 f.txn = some n → s1.modId = some (gaMod f.txn.addr) →
     let off := gaOff f.txn.addr
     (∀ o rd soft, f.txn.op = 0x01 → gaSpace f.txn.addr ≠ 3 → f.txn.arg ≠ 0 → f.txn.arg.toNat ≤ 65536 →
       homeAt s1 n (gaSpace f.txn.addr) off f.txn.arg.toNat false = some o → o.state ≠ .lost →
       readObj (noteSofts s1 n o soft) n o (off - o.off) f.txn.arg.toNat = rd → rd.bad = [] →
       exec (.fabricRead port ⟨f, soft⟩) s = .next (reply (noteSofts s1 n o soft) port.toNat f 0x40 0 0 rd.bytes)) ∧
     (∀ pid c soft, f.txn.op = 0x01 → gaSpace f.txn.addr = 3 → syncTarget s1 n f.txn.addr = some pid → counterOf s1 pid.toNat = some c →
       exec (.fabricRead port ⟨f, soft⟩) s =
         .next (reply (setCounter s1 pid.toNat { c with last := s1.postmark }) port.toNat f 0x40 0 0 (leBytes 8 c.count.toNat))) ∧
     (∀ o, f.txn.op = 0x02 → dupCase s1 f.txn = .new → dupOf s1 f.txn.srcMod f.txn.txn = none → f.txn.fidx = 0 → f.txn.last = true →
       homeAt s1 n (gaSpace f.txn.addr) off f.txn.len.toNat true = some o → o.state ≠ .lost → held o = false →
       ∃ e, e.src = f.txn.srcMod ∧ e.txn = f.txn.txn ∧ exec (.fabricWrite port f) s = .next (dropFreed (reply
         (recordDup (writeObj s1 n o (off - o.off) (f.data.take f.txn.len.toNat)) e) port.toNat f 0x41 0 0 []) n)) ∧
     (∀ o rd, f.txn.op = 0x03 → dupCase s1 f.txn = .new → gaSpace f.txn.addr < 2 → off % 8 = 0 →
       homeAt s1 n (gaSpace f.txn.addr) off 8 true = some o → o.state ≠ .lost → held o = false →
       readObj s1 n o (off - o.off) 8 = rd → rd.bad = [] →
       let old : Word := BitVec.ofNat 64 (ofLe rd.bytes)
       exec (.fabricAtomic port f) s = .next (reply (recordDup (dropFreed (writeObj s1 n o (off - o.off)
         (leBytes 8 (atomicNew f.txn.sub.toNat old f.txn.arg (BitVec.ofNat 64 (ofLe (f.data.take 8)))).toNat)) n)
         (.of f.txn (some old))) port.toNat f 0x41 0 old [])) ∧
     (∀ pid, f.txn.op = 0x04 → dupCase s1 f.txn = .new → syncTarget s1 n f.txn.addr = some pid →
       exec (.fabricSignal port f) s = .next (arrive (recordDup s1 (.of f.txn none))
         { pid := pid, slot := BitVec.ofNat 6 n, op := .signal, value := f.txn.arg, src := .fabric port f }))) ∧
  (∀ (port : BitVec 4) (f : Flit) (s s1 : State) (e : DupEntry) (v : Word), ready s = true → f.txn.op = 0x03 →
     takeRx s port.toNat f = some s1 → dupCase s1 f.txn = .again e → e.old = some v →
     ∃ t, exec (.fabricAtomic port f) s = .next t ∧ t = reply (recordDup s1 { e with epoch := f.txn.epoch }) port.toNat f 0x41 0 v [] ∧
       t.lpddr = s.lpddr ∧ t.shared = s.shared ∧ t.hostMem = s.hostMem)

/-- Responses end their transactions: READ_DATA of one flit delivers its bytes, and of several is kept until they are whole, COMPLETE
ends a transaction and lets a signal's instruction complete, an ERROR ends the plan with DATA_ERROR, or tells of a loss. Re-issue: a
timeout or a PATH_DOWN sends the transaction again with the next epoch, at most twice; after that the module is lost. That a failed remote read is not logged here rests on log entry 96. -/
def Obligations.TransactionsEndOrRepeat : Prop :=
  (∀ (port : BitVec 4) (f : Flit) (s s1 : State) (t : Txn), ready s = true → takeRx s port.toNat f = some s1 →
     txnFor s1 f.txn = some t →
     (f.txn.op = 0x40 → txnOp t = 0x01 → f.txn.last = true → f.txn.fidx = 0 → t.reply = [] →
       exec (.readData port f) s = .next (takeData (dropTxn s1 t) t f.data)) ∧
     (f.txn.op = 0x40 → txnOp t = 0x01 → runWhole ((t.reply.filter fun g => g.txn.fidx != f.txn.fidx) ++ [f]) = false →
       exec (.readData port f) s = .next { s1 with txns := s1.txns.map fun x =>
         if x = t then { x with reply := (t.reply.filter fun g => g.txn.fidx != f.txn.fidx) ++ [f] } else x }) ∧
     (f.txn.op = 0x41 → txnOp t ≠ 0x01 →
       ((∀ c id, t.use ≠ .signal c (some id)) → exec (.complete port f) s = .next (dropTxn s1 t)) ∧
       (∀ c id, t.use = .signal c (some id) →
         exec (.complete port f) s = .next (endRemoteOp (dropTxn s1 t) c.toNat id t.slot.toNat true))) ∧
     (f.txn.op = 0x42 →
       (f.txn.status ≠ 4 → f.txn.status ≠ 5 →
         exec (.fabricError port f) s = .next (endPlan (failTxn s1 t) t.slot.toNat 0x0500 0 0)) ∧
       (f.txn.status = 4 ∨ f.txn.status = 5 → exec (.fabricError port f) s = .next (loseTxn s1 t)))) ∧
  (∀ (s : State) (t : Txn), ready s = true → 2 ≤ t.reissues → s.txns = [t] → exec (.txnTimeout t.dst t.txn) s = .next (loseTxn s t)) ∧
  (∀ (s : State) (t : Txn), ready s = true → t.reissues < 2 →
     let t' := { t with epoch := t.epoch + 1, reissues := t.reissues + 1, reply := [] }
     let again := fun (s : State) => t.flits.foldl (fun s f => sendFlit s t.port.toNat { f with txn := { f.txn with epoch := t'.epoch } })
       { s with txns := [t'] }
     (s.txns = [t] → exec (.txnTimeout t.dst t.txn) s = .next (again s)) ∧
     (∀ port f s1, f.txn.op = 0xC0 → takeRx s port.toNat f = some s1 → s1.txns = [t] → gaMod f.txn.addr = t.dst → f.txn.txn = t.txn →
       f.txn.epoch = t.epoch → exec (.pathDown port f) s = .next (again s1)))

/-- FAB_ROUTE_LOAD and FAB_MEMBERSHIP: tables and timeout enter the shadow set and the module takes its identifier; a list waits
for the next STEP_BEGIN. -/
def Obligations.FabricTablesLoad : Prop :=
  ∀ (p : Packet) (s : State) (n : Nat) (rd : Rd),
    (p.ring = 64 → ready s = true → routeBad s p = false →
      mgmtRead s none (frObj p.param) (frOff p.param) (32768 * (frPorts p.param).length) = some rd → s.swap = none → rd.bad = [] →
      frRetrain p.param = [] → ∃ u, exec (.fabRouteLoad p) s = .next (answer u p 0x88 0 0) ∧ u.modId = some (frSelf p.param) ∧
        shadowOf u = loadRoutes (shadowOf s) p.param rd.bytes ∧ cfgOf u = cfgOf s) ∧
    (∀ ms, Accepts p s → pktSlot s p = some n → bits p.param 0 157 = 0 → bits p.param 157 15 ≠ 0 → bits p.param 157 15 ≤ 16384 →
      onGranule s n (bits p.param 224 32) (bits p.param 176 48) = true →
      readObjAt s n (bits p.param 224 32) (bits p.param 176 48) (2 * bits p.param 157 15) = some rd → rd.bad = [] →
      memberList s (bits p.param 157 15) rd.bytes = some ms →
      exec (.fabMembership p) s = .next (answer (writeList s n (bits p.param 172 4) ms) p 0x89 0 0))

/-! ### Tile programs (spec/03, spec/04) -/

/-- Control instructions that pass their predicate: what the thread becomes. NOP goes to the next instruction, ALU and ALUI write
the result of Table 4.5, CMP writes its predicate bit from a register or an immediate, LOOP opens its body, skips it for a count of 0,
or faults at a fifth nested loop, ENDLOOP goes back or on, or faults outside a loop, BR goes forward, TAG writes the tag register from
a register or an immediate. END: the thread halts, its leases end, and with the plan's last thread the streams that are still active
are cancelled. No other thread, core, memory, counter or context changes. What a LOOP with a count of 0 leaves in its index register is
the model's choice (log entry 130). -/
def Obligations.ControlInstructionsIssue : Prop :=
  (∀ (u : Issuer) (s : State) (i : Iss), passes i.t i.w = true → ctlReserved i.w = false →
     (Issues u s i 0 0 → exec (.ctlNop u) s = .next (retire s i (stepPc i.t))) ∧
     (Issues u s i 0 2 → exec (.alu u) s = .next (retire s i (aluWith i.t i.w (sreg i.t (cImm i.w % 32))))) ∧
     (Issues u s i 0 3 → exec (.alui u) s = .next (retire s i (aluWith i.t i.w (cSext i.w)))) ∧
     (Issues u s i 0 4 →
       let y := if cIsImm i.w then cSext i.w else sreg i.t (cImm i.w % 32)
       exec (.cmp u) s = .next (retire s i (stepPc (setP i.t (cPd i.w) (cmpCond (cCond i.w) (sreg i.t (cRs1 i.w)) y))))) ∧
     (Issues u s i 0 5 →
       let n := if cRcnt i.w = 0 then cCnt i.w else sreg32 i.t (cRcnt i.w)
       (n = 0 → exec (.loopOpen u) s = .next (retire s i { i.t with pc := i.t.pc + BitVec.ofNat 13 (cEndoff i.w + 1) })) ∧
       (n ≠ 0 → i.t.loops.length < 4 →
         exec (.loopOpen u) s = .next (retire s i (stepPc (setS { i.t with loops :=
           { startPc := i.t.pc + 1, endPc := i.t.pc + BitVec.ofNat 13 (cEndoff i.w), count := BitVec.ofNat 32 n, index := 0 }
             :: i.t.loops } (cRix i.w) 0)))) ∧
       (n ≠ 0 → 4 ≤ i.t.loops.length → exec (.loopOpen u) s = .next (issueFault s i 6))) ∧
     (Issues u s i 0 6 →
       (i.t.loops = [] → exec (.endloop u) s = .next (issueFault s i 7)) ∧
       (∀ e rest, i.t.loops = e :: rest →
         let rix := cRix ((i.core.prog[(e.startPc - 1).toNat]?).getD 0)
         (e.index + 1 < e.count → exec (.endloop u) s = .next (retire s i
           { setS { i.t with loops := { e with index := e.index + 1 } :: rest } rix ((e.index + 1).setWidth 64) with pc := e.startPc })) ∧
         (e.count ≤ e.index + 1 → exec (.endloop u) s = .next (retire s i (stepPc { i.t with loops := rest }))))) ∧
     (Issues u s i 0 7 → exec (.branch u) s = .next (retire s i { i.t with pc := i.t.pc + BitVec.ofNat 13 (cOff i.w) })) ∧
     (Issues u s i 0 8 →
       let v : BitVec 32 := if cRix i.w = 0 then BitVec.ofNat 32 (cImm i.w) else BitVec.ofNat 32 (sreg32 i.t (cRix i.w))
       exec (.tag u) s = .next (retire s i (stepPc { i.t with rtag := v })))) ∧
  (∀ (u : Issuer) (s : State) (i : Iss), Issues u s i 0 1 → passes i.t i.w = true → ctlReserved i.w = false →
     let s1 := endLeases (retire s i (haltThread i.t)) u
     (allHalted s1 i.slot = false → exec (.endThread u) s = .next s1) ∧
     (allHalted s1 i.slot = true → exec (.endThread u) s = .next (cancelLeftover s1 i.slot)) ∧
       (threadOf (coreOf s1 u.core.toNat) u.thread.toNat).state = .halted ∧
       ∀ k, ∀ e ∈ vget s1.leases k [], e.holder ≠ some u) ∧
  (∀ (u : Issuer) (s : State) (i : Iss) (t : Thread), i.u = u →
     threadOf (coreOf (retire s i t) u.core.toNat) u.thread.toNat = t ∧
     (∀ x, x ≠ u.thread.toNat → threadOf (coreOf (retire s i t) u.core.toNat) x = threadOf (coreOf s u.core.toNat) x) ∧
     (∀ x, x ≠ u.core.toNat → coreOf (retire s i t) x = coreOf s x) ∧
     (coreOf (retire s i t) u.core.toNat).ls = (coreOf s u.core.toNat).ls ∧ (retire s i t).counters = s.counters ∧
     (retire s i t).ctxs = s.ctxs ∧ (retire s i t).hostMem = s.hostMem ∧ (retire s i t).shared = s.shared ∧ (retire s i t).lpddr = s.lpddr)

/-- The ALU (Table 4.5): the register that the instruction names takes the result, every other register of the thread stays, s0
reads as 0, and the pc goes up by 1. -/
def Obligations.AluWritesOneRegister : Prop :=
  ∀ (t : Thread) (w y : Word), let t' := aluWith t w y
    t'.pc = t.pc + 1 ∧ t'.p = t.p ∧ t'.loops = t.loops ∧ t'.rtag = t.rtag ∧ t'.state = t.state ∧
    (cF w = false → t'.a = t.a ∧ (∀ i, i ≠ cRd w → vget t'.s i 0 = vget t.s i 0) ∧
      (cRd w ≠ 0 → cRd w < 32 → vget t'.s (cRd w) 0 = aluOp (cSub w) (sreg t (cRs1 w)) y) ∧ (cRd w = 0 → t'.s = t.s)) ∧
    (cF w = true → t'.s = t.s ∧ ∀ i, i ≠ cRd w → vget t'.a i 0 = vget t.a i 0)

/-- Engine instructions that pass their predicate, fault nowhere and find room enter their engine's queue with the operands that
they read at issue, and the thread goes to its next instruction; with a full queue nothing changes, and at the bound of Kid jobs the
thread sleeps. The element operations of the vector engine and the function unit
enter the vector queue with the operation that their opcode names. -/
def Obligations.EngineInstructionsEnterQueues : Prop :=
  (∀ (u : Issuer) (s : State) (i : Iss), passes i.t i.w = true → sigUnmapped s i = false →
     (i.core.matQ.length < 4 →
       (Issues u s i 1 0 → mmaFaults i.t i.w = [] → ∃ o, exec (.mma u) s = .next (enqueueOp s i .mat (.mma o) false) ∧
         o.aAddr = areg i.t (mAa i.w) ∧ o.bAddr = areg i.t (mAb i.w) ∧ o.acc = mAcc i.w) ∧
       (Issues u s i 1 1 → lowZero i.w 6 = true → ∃ o, exec (.spill u) s = .next (enqueueOp s i .mat (.spill o) false) ∧
         o.acc = mAcc i.w) ∧
       (Issues u s i 1 2 → lowZero i.w 6 = true → lsCheck (areg i.t (mAa i.w)) 16384 = [] → 1 ≤ mK i.w → mK i.w ≤ 16 →
         exec (.topk u) s = .next (enqueueOp s i .mat (.topk (mAcc i.w) (mK i.w) (areg i.t (mAa i.w))) false)) ∧
       (Issues u s i 1 3 → lowZero i.w 6 = true → exec (.accz u) s = .next (enqueueOp s i .mat (.accz (mAcc i.w)) false)) ∧
       (Issues u s i 1 4 → lowZero i.w 6 = true → lsCheckScratch (areg i.t (mAa i.w)) 64 = [] → kidJobs s (u.core.toNat / 16) < 16 →
         exec (.kid u) s = .next (enqueueOp s i .mat (.kid (areg i.t (mAa i.w))) false))) ∧
     (i.core.vecQ.length < 8 →
       (Issues u s i 2 11 → lineFaults i.w (areg i.t (vA1 i.w)) = [] → exec (.lds u) s = .next (enqueueOp s i .vec
         (.lds (areg i.t (vA1 i.w) + 8 * vWsel i.w) (BitVec.ofNat 5 (vSl i.w))) false)) ∧
       (Issues u s i 2 12 → lineFaults i.w (areg i.t (vAd i.w)) = [] → exec (.sts u) s = .next (enqueueOp s i .vec
         (.sts (areg i.t (vAd i.w) + 8 * vWsel i.w) (sreg i.t (vSl i.w))) false))) ∧
     (i.core.drnQ.length < 4 → ∀ x, x ∈ [(0, Instr.drain u), (1, .drainClr u), (2, .drainRed u)] → Issues u s i 6 x.1 →
       drainFaults i.t i.w (x.1 == 2) = [] → exec x.2 s = .next (enqueueOp s i .drn (.drain (drainOp i)) false)) ∧
     (i.core.matQ.length < 4 → Issues u s i 1 4 → lowZero i.w 6 = true → lsCheckScratch (areg i.t (mAa i.w)) 64 = [] →
       16 ≤ kidJobs s (u.core.toNat / 16) → exec (.kid u) s = .next (sleepAt s i .kidEntry))) ∧
  (∀ (u : Issuer) (s : State) (i : Iss), passes i.t i.w = true → ∀ x ∈ engineRows u, Issues u s i x.2.1 x.2.2.1 →
     queueSize x.1 ≤ queueUsed s u.core.toNat x.1 → exec x.2.2.2 s = .next s) ∧
  (∀ (u : Issuer) (s : State) (i : Iss), passes i.t i.w = true → sigUnmapped s i = false → i.core.vecQ.length < 8 →
     vecFaults i.t i.w = [] →
     (∀ x, x ∈ [(0, Instr.vadd u), (1, .vsub u), (2, .vmul u), (3, .vfma u), (4, .vmax u), (5, .vmin u), (6, .cvt u), (7, .scl u),
         (8, .rsum u), (9, .rmax u), (10, .ssq u)] →
       Issues u s i 2 x.1 → exec x.2 s = .next (enqueueOp s i .vec (.vec (vecOp i)) false) ∧ (vecOp i).op.toNat = x.1 ∧
         (vecOp i).isFn = false) ∧
     (∀ x, x ∈ [(0, Instr.fnExp u), (1, .fnLog u), (2, .fnRcp u), (3, .fnRsq u), (4, .fnSqrt u), (5, .fnTanh u), (6, .fnSigm u),
         (7, .fnGelu u), (8, .fnSilu u), (9, .fnSin u)] →
       Issues u s i 3 x.1 → exec x.2 s = .next (enqueueOp s i .vec (.vec (vecOp i)) false) ∧ (vecOp i).op.toNat = x.1 ∧
         (vecOp i).isFn = true))

/-- Stream, counter and codec instructions enter their queues; a thread that awaits a status or a result is held until it comes, and
one that finds no fetch tag or no codec job free sleeps. -/
def Obligations.FetchSyncCodecEnterQueues : Prop :=
  ∀ (u : Issuer) (s : State) (i : Iss), passes i.t i.w = true → sigUnmapped s i = false →
    (queueUsed s u.core.toNat .str < 8 → lowZero i.w 25 = true →
      (Issues u s i 4 0 → descFaults i (armFaults s i.slot) = [] →
        exec (.arm u) s = .next (enqueueOp s i .str (.arm (issDesc i) (tSst i.w)) (sstHeld i))) ∧
      (Issues u s i 4 1 → descFaults i (armFaults s i.slot) = [] → streamNo i ≤ 15 → exec (.rearm u) s =
        .next (enqueueOp s i .str (.rearm (issDesc i) (BitVec.ofNat 4 (streamNo i)) (tSst i.w)) (sstHeld i))) ∧
      (Issues u s i 4 2 → streamNo i ≤ 15 → exec (.cancel u) s =
        .next (enqueueOp s i .str (.cancel (BitVec.ofNat 4 (streamNo i)) (tSst i.w)) (sstHeld i))) ∧
      (Issues u s i 4 3 → descFaults i gatherFaults = [] → gatherRegs i = [] →
        (tagFree i.core = true ∨ gatherN i = 0 →
          ∃ g, exec (.gather u) s = .next (enqueueOp s i .str (.gather g) false) ∧ g.n = gatherN i ∧ g.next = 0 ∧ g.desc = issDesc i ∧
            g.list = areg i.t (tAz i.w) ∧ g.dst = areg i.t (tAy i.w)) ∧
        (tagFree i.core = false → gatherN i ≠ 0 → exec (.gather u) s = .next (sleepAt s i .fetchTag)))) ∧
    (queueUsed s u.core.toNat .syn < 8 → lowZero i.w 8 = true → translate s i.slot (synVid i.t i.w).toNat ≠ .unmapped →
      ∀ x, x ∈ [(0, SyncOp.signal, false, Instr.signalCount u), (1, .wait, true, .waitCount u), (2, .take, true, .takeCount u),
          (3, .set, false, .setCount u), (4, .poison, false, .poisonCount u), (5, .read, true, .readCount u)] →
        Issues u s i 5 x.1 → (yTmo i.w = 0 ∨ x.1 = 1) →
        ((∃ m, translate s i.slot (synVid i.t i.w).toNat = .remote m) → x.1 = 0 ∨ x.1 = 5) → exec x.2.2.2 s = .next (enqueueOp s i .syn
          (.syn { op := x.2.1, vid := synVid i.t i.w, value := synValue i.t i.w, sd := ySd i.w, tmo := yTmo i.w }) x.2.2.1)) ∧
    (∀ c, i.core.tcdQ.length < 2 → lowZero i.w 28 = true → codecCfg s i.slot (xCfg i.w).toNat = some c →
      let t := fun b => if 16 ≤ codecJobs s (u.core.toNat / 16) then sleepAt s i .codecEntry else
        enqueueOp s i .tcd (.tcd b (areg i.t (xAs i.w)) (areg i.t (xAd i.w)) (xCfg i.w) (sreg i.t (xSc i.w))) false
      (Issues u s i 7 0 → lsCheckOperand (areg i.t (xAs i.w)) (tcRaw c) = [] → lsCheckOperand (areg i.t (xAd i.w)) (tcSlotBytes c) = [] →
        exec (.enc u) s = .next (t false)) ∧
      (Issues u s i 7 1 → lsCheckOperand (areg i.t (xAs i.w)) (tcSlotBytes c) = [] →
        lsCheckOperand (areg i.t (xAd i.w)) (tcRaw c + 64) = [] →
        exec (.dec u) s = .next (t true)))

/-- An operation that enters a queue is the last of it, the thread's pc goes up by 1, and no other core changes. -/
def Obligations.EnqueueFrame : Prop :=
  ∀ (s : State) (i : Iss) (q : EngineQ) (k : EngKind) (held : Bool), i.u.core.toNat < 256 →
    let c := coreOf s i.u.core.toNat
    let t := enqueueOp s i q k held
    let c' := coreOf t i.u.core.toNat
    queueOf c' q = queueOf c q ++ [{ id := c.nextOp, thread := i.u.thread, pc := i.t.pc, kind := k, sig := sigOf i.t i.w }] ∧
      (∀ r, r ≠ q → queueOf c' r = queueOf c r) ∧ c'.ls = c.ls ∧ c'.streams = c.streams ∧
      (threadOf c' i.u.thread.toNat).pc = i.t.pc + 1 ∧ (threadOf c' i.u.thread.toNat).s = i.t.s ∧
      (∀ x, x ≠ i.u.thread.toNat → threadOf c' x = threadOf c x) ∧
      (∀ x, x ≠ i.u.core.toNat → coreOf t x = coreOf s x) ∧ t.hostMem = s.hostMem ∧ t.shared = s.shared ∧ t.lpddr = s.lpddr ∧
      t.counters = s.counters ∧ t.ctxs = s.ctxs ∧ t.rings = s.rings

/-- The engines: the head of a queue starts where its unit, its tiles and its slots are free; a KID, a counter and a codec operation go
to the units of the cluster, and a DRAIN_RED with a refused handle faults. An operation that completes has its effect, leaves its
engine, signals, and reports the errors that it met: STS writes its word and LDS delivers one, a tile that is zeroed reads as 0, a
DRAIN_RED is contributed unless its network has no room, ARM, REARM and CANCEL deliver their status, a gather writes its rows.
GATHER_INDEX_ISSUE: an index past the row count, or one that cannot be read, lands a row of zeros, any other fetches its row, and the
last index starts the gather; with no fetch tag the thread sleeps. That an operation acts whole at its completion rests on log entry
23. -/
def Obligations.EngineOpsRun : Prop :=
  (∀ (core : BitVec 8) (q : EngineQ) (s : State) (n : BitVec 6) (op : EngOp) (rest : List EngOp), ready s = true →
     (coreOf s core.toNat).slot = some n → queueOf (coreOf s core.toNat) q = op :: rest →
     let c := core.toNat
     ((∀ a, op.kind ≠ .kid a) → (∀ o, op.kind ≠ .syn o) → (∀ x a b y z, op.kind ≠ .tcd x a b y z) → (∀ g, op.kind ≠ .gather g) →
       (∀ o, op.kind = .drain o → o.op = 2 → handleBad s n.toNat (handleOf (coreOf s c) o) o.fmtD.toNat = false) →
       exec (.engineOpStart core q) s = .next (if canStart (coreOf s c) op.kind then beginOp s c q op else s)) ∧
     (∀ o, op.kind = .drain o → o.op = 2 → canStart (coreOf s c) op.kind = true →
       handleBad s n.toNat (handleOf (coreOf s c) o) o.fmtD.toNat = true →
       exec (.engineOpStart core q) s = .next (instrFault (popQueue s c q) { core := core, thread := op.thread } op.pc.toNat 1)) ∧
     (∀ g, op.kind = .gather g → exec (.engineOpStart core q) s = .next (if g.n = 0 then beginOp s c q op else s)) ∧
     (∀ a, op.kind = .kid a → exec (.engineOpStart core q) s = .next (modCluster (popQueue s c q) (c / 16) fun k => { k with kidQ := k.kidQ ++
       [{ core := core, op := op, slot := n, desc := BitVec.ofNat 512 (ofLe (Mem.read (coreOf s c).ls a 64)) }] })) ∧
     (∀ o, op.kind = .syn o → exec (.engineOpStart core q) s = .next (startSyn s c n.toNat op o) ∧
       ∀ pid, translate s n.toNat o.vid.toNat = .here pid →
         startSyn s c n.toNat op o = arrive (popQueue s c .syn) (synReq c n.toNat op o pid)) ∧
     (∀ x src dst cfg coord, op.kind = .tcd x src dst cfg coord → ∃ j, exec (.engineOpStart core q) s = .next (pushCodec (popQueue s c q) c j) ∧
       j.core = core ∧ j.for_ = .instr op ∧ j.slot = n ∧ j.expand = x ∧ j.cfg = cfg ∧ j.coord = coord ∧ j.lsAddr = src ∧ j.tierOff = dst) ∧
     queueOf (coreOf (beginOp s c q op) c) q = rest ∧ (coreOf (beginOp s c q op) c).running = (coreOf s c).running ++ [op]) ∧
  (∀ (core : BitVec 8) (s : State) (n : BitVec 6) (op : EngOp) (errs : List LsError), ready s = true →
     (coreOf s core.toNat).slot = some n → (coreOf s core.toNat).running.find? (fun o => o.id == op.id) = some op →
     let c := core.toNat
     let x := coreOf s c
     let done := fun (t : State) => exec (.engineOpComplete core op.id errs) s = .next (lsErrors (signalSig
       (modCore t c fun x => { x with running := x.running.filter fun o => o.id != op.id }) core n.toNat op.sig) c (instOf op) errs)
     (∀ o, op.kind = .mma o → done (setCore s c (runMma x errs o (seedOf s n.toNat) (stepOf s n.toNat)))) ∧
     (∀ o, op.kind = .spill o → done (setCore s c (runSpill x errs o (seedOf s n.toNat) (stepOf s n.toNat)))) ∧
     (∀ a k addr, op.kind = .topk a k addr → done (setCore s c (runTopk x errs a.toNat k addr))) ∧
     (∀ a, op.kind = .accz a → done (setCore s c (runAccz x a.toNat))) ∧
     (∀ o, op.kind = .vec o → done (setCore s c { x with ls := runVec x.ls errs o })) ∧
     (∀ a rd, op.kind = .lds a rd →
       done (setCore s c (setThread x op.thread.toNat (setS (threadOf x op.thread.toNat) rd.toNat (ldsWord x.ls errs a))))) ∧
     (∀ a v, op.kind = .sts a v → done (setCore s c { x with ls := Mem.put x.ls a 8 v.toNat })) ∧
     (∀ o, op.kind = .drain o → o.op ≠ 2 →
       done (drainFlag (setCore s c (runDrain x errs o).1) n.toNat c op o (runDrain x errs o).2)) ∧
     (∀ o, op.kind = .drain o → o.op = 2 →
       let h := handleOf x o
       let r := redDrain x errs o (hRows h) (hCols h)
       ((redWaits s n.toNat h && !planEnding s n.toNat) = true → exec (.engineOpComplete core op.id errs) s = .next s) ∧
       ((redWaits s n.toNat h && !planEnding s n.toNat) = false → done (acceptOwn
         (drainFlag (setCore s c (clearSource x o)) n.toNat c op o r.2) n.toNat (hColl h) (hGroup h) (hSlice h) r.1 c))) ∧
     (x.running = [op] →
       let told := fun (r : State × Nat × Nat) (sst : BitVec 5) =>
         done (modThread r.1 c op.thread.toNat fun t => deliver t op.id sst.toNat (statusWord r.2.1 r.2.2))
       (∀ d sst, op.kind = .arm d sst → told (armStream s c n.toNat d) sst) ∧
       (∀ d k sst, op.kind = .rearm d k sst → told (rearmStream s c n.toNat k.toNat d) sst) ∧
       (∀ k sst, op.kind = .cancel k sst → told (cancelOne s c k.toNat) sst)) ∧
     (∀ g, op.kind = .gather g → (threadOf x op.thread.toNat).state ≠ .halted →
       let len := dRowBytes g.desc * 64
       let t := setCore s c { x with ls := g.got.foldl (fun ls r => Mem.write ls (g.dst + r.1 * len) r.2) x.ls }
       (g.got.length < g.n → exec (.engineOpComplete core op.id errs) s = .next s) ∧
       (g.n ≤ g.got.length → done (if g.bad then endPlan t n.toNat 0x0500 0 0 else t)))) ∧
  (∀ (core : BitVec 8) (s : State) (n : BitVec 6) (op : EngOp), ready s = true → (coreOf s core.toNat).slot = some n →
     (coreOf s core.toNat).running = [op] → op.sig = none →
     (∀ a v, op.kind = .sts a v → ∃ t, exec (.engineOpComplete core op.id []) s = .next t ∧
       Mem.num (coreOf t core.toNat).ls a 8 = v.toNat ∧ (coreOf t core.toNat).running = [] ∧
       ∀ x, x < a ∨ a + 8 ≤ x → Mem.byte (coreOf t core.toNat).ls x = Mem.byte (coreOf s core.toNat).ls x) ∧
     (∀ a rd, op.kind = .lds a rd → rd ≠ 0 → ∃ t, exec (.engineOpComplete core op.id []) s = .next t ∧
       vget (threadOf (coreOf t core.toNat) op.thread.toNat).s rd.toNat 0 = BitVec.ofNat 64 (Mem.num (coreOf s core.toNat).ls a 8) ∧
       (coreOf t core.toNat).ls = (coreOf s core.toNat).ls) ∧
     (∀ acc, op.kind = .accz acc → ∃ t, exec (.engineOpComplete core op.id []) s = .next t ∧
       ∀ e, e < 16384 → tileWord (coreOf t core.toNat) acc.toNat e = 0)) ∧
  (∀ (core : BitVec 8) (s : State) (n : BitVec 6) (op : EngOp) (rest : List EngOp) (g : GatherOp) (soft : List Nat), ready s = true →
     (coreOf s core.toNat).slot = some n → (coreOf s core.toNat).strQ = op :: rest → op.kind = .gather g → g.next < g.n →
     let k := core.toNat
     let c := coreOf s k
     (tagFree c = false → (threadOf c op.thread.toNat).hold = .none → (threadOf c op.thread.toNat).state = .ready → ∀ ecc,
       exec (.gatherIndexIssue core ⟨ecc, soft⟩) s = .next (modThread s k op.thread.toNat fun t =>
         if t.hold = .none ∧ t.state = .ready then { sleep t with hold := .fetchTag } else t)) ∧
     (tagFree c = true →
       let ix := Mem.num c.ls (g.list + 4 * g.next) 4
       let s1 := modCore s k fun x => modGather x op.id fun g => { g with next := g.next + 1 }
       let zero := landRow s1 k op.id g.next (List.replicate (dRowBytes g.desc * 64) 0)
       let last := fun (s : State) => if g.next + 1 = g.n then (match (coreOf s k).strQ with
           | o :: _ => if o.id = op.id then beginOp s k .str o else s
           | [] => s) else s
       (dNrow g.desc ≤ ix → exec (.gatherIndexIssue core ⟨.good, soft⟩) s = .next (last (zero false))) ∧
       (ix < dNrow g.desc → exec (.gatherIndexIssue core ⟨.good, soft⟩) s = .next (last (fetchRow
         ((objOf s1 n.toNat (dHome s1 n.toNat g.desc)).elim s1 fun o => noteSofts s1 n.toNat o soft) k n.toNat op.id g.next ix g))) ∧
       exec (.gatherIndexIssue core ⟨.uncorrectable, soft⟩) s =
         .next (last (noteHardLs (zero true) k ((g.list + 4 * g.next) / 8 * 8) (instOf op)))))

/-! ### Streams (spec/12) -/

/-- The host's stream commands on a core of the running plan: ARM takes the lowest-numbered free stream and answers its number, or
finds none free; REARM arms a FREE stream, keeps the descriptor pending behind an active one, or is answered PENDING_FULL; CANCEL begins
the cancel. A stream armed in a mode other than PAGED is ACTIVE with the descriptor, with D0 and F0 as the counters stand, and with no
tile taken. -/
def Obligations.StreamCommandsAnswer : Prop :=
  ∀ (p : Packet) (s : State) (n c k : Nat), Accepts p s → pktSlot s p = some n →
    placedCore s n (bits p.param 172 4) (bits p.param 168 4) = some c → bits p.param 0 164 = 0 →
    (∀ d, hostDesc s n p.param = some d → armFaults s n d = [] → planEnding s n = false →
      (bits p.param 164 4 = 0 → freeStream s c = none → exec (.streamArm p) s = .next (answer s p 0x30 0x0300 0)) ∧
      (bits p.param 164 4 = 0 → freeStream s c = some k →
        exec (.streamArm p) s = .next (answer (endDesc (armNow s c n k d) c n k) p 0x30 0 k)) ∧
      (bits p.param 164 4 = k →
        ((streamOf (coreOf s c) k).state = .free →
          exec (.streamRearm p) s = .next (answer (endDesc (armNow s c n k d) c n k) p 0x31 0 k)) ∧
        ((streamOf (coreOf s c) k).state ≠ .free → (streamOf (coreOf s c) k).pending = none →
          exec (.streamRearm p) s = .next (answer (modStream s c k fun x => { x with pending := some d }) p 0x31 0 k)) ∧
        ((streamOf (coreOf s c) k).state ≠ .free → (streamOf (coreOf s c) k).pending.isSome →
          exec (.streamRearm p) s = .next (answer s p 0x31 0x0301 k))) ∧
      (c < 256 → k < 16 → dMode d ≠ 2 → let x := streamOf (coreOf (armNow s c n k d) c) k
        x.state = .active ∧ x.desc = d ∧ x.d0 = countOf s n (dDone d) ∧ x.f0 = countOf s n (dFree d) ∧ x.next = 0 ∧ x.tiles = [])) ∧
    (bits p.param 224 32 = 0 → bits p.param 176 48 = 0 → bits p.param 164 4 = k →
      exec (.streamCancel p) s = .next (answer (modStream s c k cancelStream) p 0x32 0 k))

/-- Tiles of a stream: a tile starts where its counter, the fetch tags and its home allow it, takes a tag and asks for what it needs.
A tile that ends: an IN tile lands in its slot, a LINEAR one from a home on this module as the object's bytes, an OUT tile is written
at its home or sent to it, a tile beyond its object, of a lost object or of one that is not there ends the plan, and it gives its tag
back and is signalled. A cancelled stream whose last transfer has ended signals what it still must and becomes FREE. That tiles may
complete in any order rests on log entry 48. -/
def Obligations.StreamTilesMove : Prop :=
  ∀ (core : BitVec 8) (k : BitVec 4) (s : State) (n : BitVec 6), ready s = true → (coreOf s core.toNat).slot = some n →
    let c := core.toNat
    let x := streamOf (coreOf s c) k.toNat
    let home := objOf s n.toNat (dHome s n.toNat x.desc)
    (x.state = .active → x.frozen = false → tagFree (coreOf s c) = true → mayStart x = true → aheadOk s n.toNat x = true →
      x.next < x.first + streamTiles s n.toNat x → (isOut x = true → isFenced s n.toNat (dHome s n.toNat x.desc) = false) →
      let t : StreamTile := { n := x.next, landed := false, walk := false, page := none, got := [], sent := false }
      let s1 := modCore s c fun y => { setStream y k.toNat { x with next := x.next + 1, tiles := x.tiles ++ [t] } with tags := y.tags + 1 }
      let s2 := launchTile s1 c n.toNat k.toNat x x.next
      exec (.streamTileStart core k) s =
        .next (if dMode x.desc = 2 ∨ dMode x.desc = 3 then s2 else askRemote s2 c n.toNat k.toNat x t) ∧
      (dMode x.desc < 2 → s2 = s1)) ∧
    (∀ t bad soft, (x.tiles.find? fun e => e.n == t.n) = some t → t.landed = false → t.walk = false → dMode x.desc ≠ 3 →
      tileBusy s c k.toNat t.n = false →
      let exec' := exec (.streamTileDone core k t.n ⟨bad, soft⟩) s
      let segs := tileSegs s n.toNat x t
      (home = none → exec' = .next (completeTile (dataError s n.toNat c 0) c n.toNat k.toNat t.n)) ∧
      (∀ o, home = some o →
        (beyond o segs = true → exec' = .next (completeTile (dataError s n.toNat c (segs.headD (0, 0)).1) c n.toNat k.toNat t.n)) ∧
        (beyond o segs = false → isOut x = true → (dMode x.desc = 2 → tablesFenced s n.toNat = false) →
          (o.state = .lost → exec' = .next (completeTile (homeError s n.toNat o 0) c n.toNat k.toNat t.n)) ∧
          (o.state ≠ .lost → o.isBind = true →
            exec' = .next (if t.sent then completeTile (noteWritten s n.toNat x t) c n.toNat k.toNat t.n
              else slotErrors (sendTile s c n.toNat k.toNat x t o) c x t bad soft)) ∧
          (o.state ≠ .lost → o.isBind = false → exec' = .next (completeTile (slotErrors (noteWritten (dropFreed
            (storeTile s c n.toNat x t o bad) n.toNat) n.toNat x t) c x t bad soft) c n.toNat k.toNat t.n))) ∧
        (beyond o segs = false → isOut x = false →
          (o.isBind = false ∨ dMode x.desc ≠ 2 ∨ t.page = none ∨ t.sent = true →
            let r := landTile (segs.foldl (fun s g => touchCache s n.toNat o g.1 g.2) (noteSofts s n.toNat o soft)) c n.toNat x t o bad
            let v := completeTile r.1 c n.toNat k.toNat t.n
            exec' = .next (if r.2 then homeError v n.toNat o (firstBad s n.toNat o t segs bad) else v)) ∧
          (o.isBind = true → dMode x.desc = 2 → t.page ≠ none → t.sent = false → exec' = .next (askRemote (modStream s c k.toNat fun x =>
            { x with tiles := x.tiles.map fun e => if e.n = t.n then { e with sent := true } else e }) c n.toNat k.toNat x t))))) ∧
    (∀ t o, x.tiles = [t] → t.landed = false → t.walk = false → tileBusy s c k.toNat t.n = false → home = some o → o.isBind = false →
      beyond o (tileSegs s n.toNat x t) = false → isOut x = false → x.state = .active → x.frozen = false → dMode x.desc = 0 →
      dExpands x.desc = false → t.n = x.signalled →
      let g := gatherSegs s n.toNat o t (tileSegs s n.toNat x t) []
      g.2 = [] → ∃ v, exec (.streamTileDone core k t.n ⟨[], []⟩) s = .next v ∧
        Mem.read (coreOf v c).ls (slotAddr x t.n) g.1.length = g.1 ∧ (coreOf v c).tags = (coreOf s c).tags - 1) ∧
    (x.state = .cancelling → x.tiles.all (·.landed) = true → x.frozen = false →
      let s1 := signalTiles x.tiles.length s c n.toNat k.toNat
      exec (.streamCancelDone core k) s = .next (modCore (cancelDone s1 c n.toNat k.toNat x.quiet) c gateFenced) ∧
      (x.quiet = true ∨ x.pending = none → x.tiles = [] → (streamOf (coreOf (cancelDone s c n.toNat k.toNat x.quiet) c) k.toNat).state = .free))

/-! ### The paged cache (spec/08) -/

/-- KV_POOL_GRANT enters its pages into the free list, KV_PAGE_EDIT applies its edits between passes and keeps them during one,
and KV_SEQ_ABORT ends a sequence and leaves one that has ended. -/
def Obligations.PagedCacheCommandsAnswer : Prop :=
  ∀ (p : Packet) (s : State) (n : Nat), Accepts p s → pktSlot s p = some n →
    (∀ d rd, poolOf s n (bits p.param 224 32) = some d → bits p.param 0 136 = 0 → bits p.param 160 32 % 4 = 0 →
      bits p.param 136 24 ≠ 0 → grantList s n (bits p.param 192 32) (bits p.param 160 32) (bits p.param 136 24) = some rd → rd.bad = [] →
      let pages := (List.range (bits p.param 136 24)).map fun i => ofLe ((rd.bytes.drop (4 * i)).take 4)
      (∀ x ∈ pages, x < kvPool d) →
      (countOf s n (kvRet d)).toNat + bits p.param 136 24 ≤ kvPool d + (countOf s n (kvTake d)).toNat →
      kvFenced s n d = false →
      exec (.kvPoolGrant p) s =
        .next (answer (settleTickets (grantPages s n d (countOf s n (kvRet d)).toNat pages) n) p 0x60 0 0)) ∧
    (bits p.param 0 216 = 0 → bits p.param 216 8 ≠ 0 → bits p.param 216 8 ≤ 252 →
      p.extra.length = ceilDiv (bits p.param 216 8) 4 → tableHere s n (bits p.param 224 32) = true →
      (∀ e ∈ editsOf p, badEdit s n (bits p.param 224 32) e = false) →
      (openPasses s n = false → isFenced s n (bits p.param 224 32) = false → exec (.kvPageEdit p) s = .next (applyEdits s n p)) ∧
      (openPasses s n = true → exec (.kvPageEdit p) s = .next (modCtx s n fun c => { c with edits := c.edits ++ [p] }))) ∧
    (bits p.param 0 208 = 0 → bit p.param 223 = false → tableHere s n (bits p.param 224 32) = true →
      bits p.param 208 15 < nseqOf s n (bits p.param 224 32) →
      let st := seqState (seqRecord s n (bits p.param 224 32) (bits p.param 208 15))
      (st = 3 → exec (.kvSeqAbort p) s = .next (answer s p 0x62 0 0)) ∧
      (st ≠ 0 → st ≠ 3 → isFenced s n (bits p.param 224 32) = false → tablesFenced s n = false →
        exec (.kvSeqAbort p) s = .next (answer (endSeq s n (bits p.param 224 32) (bits p.param 208 15)) p 0x62 0 0)))

/-- Page walks: a walk that finds a valid entry gives its tile the page, and one whose record or entry cannot be read ends the plan; a
wait whose ticket is granted resumes, one whose timeout comes first ends its sequence; a pass that is over ends. The order of walks and
tickets rests on log entries 55 and 57. -/
def Obligations.PageWalksResolve : Prop :=
  ∀ (k : BitVec 4) (slot : BitVec 6) (seq : BitVec 15) (s : State) (d : BitVec 256), ready s = true →
    (∀ w, (clusterOf s k.toNat).walks.find? (walkable s) = some w →
      let s1 := modCluster s k.toNat fun x => { x with walks := x.walks.erase w }
      (∀ ecc, walkKv s w = none → exec (.pageWalk k ecc) s = .next (resumeTile s1 w none)) ∧
      (walkKv s w = some d →
        (walkReads s w.slot.toNat (kvPt d) w = true → exec (.pageWalk k .good) s = .next (walkEntry s1 w.slot.toNat d w)) ∧
        (∀ ecc, ecc = .uncorrectable ∨ walkReads s w.slot.toNat (kvPt d) w = false →
          let at_ := walkLoc s w.slot.toNat (kvPt d) w
          exec (.pageWalk k ecc) s = .next (resumeTile (dataError s1 w.slot.toNat at_.1 at_.2) w none)) ∧
        (seqState (seqRecord s1 w.slot.toNat (kvPt d) w.seq.toNat) ≠ 3 →
          bit (entryOf s1 w.slot.toNat (kvPt d) w.seq.toNat w.page) 31 = true →
          walkEntry s1 w.slot.toNat d w =
            walkFound s1 w (BitVec.ofNat 24 (bits (entryOf s1 w.slot.toNat (kvPt d) w.seq.toNat w.page) 0 24))))) ∧
    ((clusterOf s k.toNat).walks.find? (walkable s) = none → ∀ ecc, exec (.pageWalk k ecc) s = .next s) ∧
    (∀ w, waitDesc s slot.toNat = some d → seqWaitOf s slot.toNat seq.toNat = some w → tablesFenced s slot.toNat = false →
      (running s slot.toNat = true → ticketDue s slot.toNat d w.ticket = true →
        exec (.pageWaitResume slot seq) s = .next (resumeSeq s slot.toNat d w)) ∧
      (seqTmo (seqRecord s slot.toNat (kvPt d) seq.toNat) ≠ 0 →
        (ticketDue s slot.toNat d w.ticket = false →
          exec (.pageWaitTimeout slot seq) s = .next (endSeq s slot.toNat (kvPt d) seq.toNat)) ∧
        (ticketDue s slot.toNat d w.ticket = true → running s slot.toNat = true →
          exec (.pageWaitTimeout slot seq) s = .next (resumeSeq s slot.toNat d w)))) ∧
    (passOver s slot.toNat = true → tablesFenced s slot.toNat = false → exec (.passBoundary slot) s = .next (endPass s slot.toNat))

/-! ### The Kid engine, the tile codec and video (spec/07, spec/14, spec/15) -/

/-- Kid jobs: a descriptor that passes the checks occupies the engine, with the weights that the engine holds where they stand at its
address, or with new ones; one that fails faults its thread and leaves the engine free; a job that completes has written its output,
leaves the engine free, signals, and reports the errors that it met. When a job reads its inputs rests on log entry 52. -/
def Obligations.KidJobsRun : Prop :=
  ∀ (k : BitVec 4) (s : State) (j : KidJob) (rest : List KidJob), ready s = true →
    ((clusterOf s k.toNat).syncFenced = false → (clusterOf s k.toNat).kidRun = none → (clusterOf s k.toNat).kidQ = j :: rest →
      let s1 := modCluster s k.toNat fun x => { x with kidQ := rest }
      let a : BitVec 32 := BitVec.ofNat 32 (kWaddr j.desc)
      (∀ soft, kidFault j.desc = none → exec (.kidJobStart ⟨k, soft⟩) s = .next (acceptKid s1 k.toNat j soft)) ∧
      ((clusterOf s k.toNat).kidWaddr = some a →
        ∀ soft, acceptKid s1 k.toNat j soft = modCluster s1 k.toNat fun x => { x with kidRun := some j }) ∧
      ((clusterOf s k.toNat).kidWaddr ≠ some a → (kidLoad s1 j.desc).2 = false →
        acceptKid s1 k.toNat j [] = modCluster s1 k.toNat fun x =>
          { x with kidRun := some j, kidWaddr := some a, kidWeights := (kidLoad s1 j.desc).1 }) ∧
      (∀ code soft, kidFault j.desc = some code → exec (.kidJobStart ⟨k, soft⟩) s = .next (instrFault
        (freeKid (modCluster s1 k.toNat fun x => { x with kidWaddr := x.kidWaddr.filter (· == a) }) k.toNat)
        { core := j.core, thread := j.op.thread } j.op.pc.toNat code))) ∧
    ((clusterOf s k.toNat).kidRun = some j → ∀ errs wbuf,
      let r := runKid s k.toNat j errs wbuf
      let s2 := signalSig
        (flagEvents (freeKid (modCluster (draw r.1) k.toNat fun x => { x with kidRun := none }) k.toNat) j.slot.toNat j.core.toNat r.2)
        j.core j.slot.toNat j.op.sig
      exec (.kidJobComplete k ⟨errs, wbuf⟩) s = .next (bufferErrors (lsErrors s2 j.core.toNat (instOf j.op) errs) j wbuf))

/-- TCD_CONFIG: a SET of good fields fills its slot, CLEAR empties it, POOL_ADD adds an extent, up to four. -/
def Obligations.TileCodecConfigured : Prop :=
  ∀ (p : Packet) (s : State) (n : Nat) (c : Ctx), Accepts p s → pktSlot s p = some n → ctxOf s n = some c →
    (tcOp p.param = 0 → codecNamed s n (tcSlot p.param) = false → badConfig s n p.param = false →
      exec (.tcdConfigSet p) s = .next (answer (modCtx s n fun c => { c with codec := tput c.codec (tcSlot p.param) p.param }) p 0x78 0 0)) ∧
    (tcOp p.param = 1 → codecNamed s n (tcSlot p.param) = false → bits p.param 240 6 = 0 → bits p.param 0 72 = 0 →
      exec (.tcdConfigClear p) s = .next (answer (modCtx s n fun c => { c with codec := tdel c.codec (tcSlot p.param) }) p 0x78 0 0)) ∧
    (tcOp p.param = 2 → tcSlot p.param = 0 → bits p.param 240 6 = 0 → bits p.param 0 72 = 0 →
      (objOf s n (tcObj p.param)).isSome → c.pool.length < 4 →
      exec (.tcdConfigPoolAdd p) s =
        .next (answer (modCtx s n fun c => { c with pool := c.pool ++ [BitVec.ofNat 32 (tcObj p.param)] }) p 0x78 0 0))

/-- Codec jobs: the head of a direction starts in its turn with what it reads, takes a pool slot where it needs one, waits where a
migration fences what it uses, and fails where its configuration or its coordinate is refused; a job that completes leaves the
direction free, with the output of its compression or expansion, and is signalled. The bytes after an error are free (log entry 58). -/
def Obligations.CodecJobsRun : Prop :=
  ∀ (k : BitVec 4) (x : Bool) (s : State) (j : CodecJob), ready s = true →
    (∀ rest, (clusterOf s k.toNat).syncFenced = false → (laneOf s k.toNat x).running = none → (laneOf s k.toNat x).queue = j :: rest →
      (laneOf s k.toNat x).stalled = false →
      let drop := freeCodec (modLane s k.toNat x fun l => { l with queue := rest, stalled := false }) k.toNat
      (codecTurn s k.toNat x j = false → exec (.codecJobStart k x) s = .next s) ∧
      (codecTurn s k.toNat x j = true →
        (codecCfg s j.slot.toNat j.cfg.toNat = none → exec (.codecJobStart k x) s = .next (failJob drop j 0x0B)) ∧
        (∀ cfg, codecCfg s j.slot.toNat j.cfg.toNat = some cfg →
          (coordBad cfg j.coord = true → exec (.codecJobStart k x) s = .next (failJob drop j 1)) ∧
          (coordBad cfg j.coord = false → jobFenced s j cfg = true → exec (.codecJobStart k x) s = .next s) ∧
          (coordBad cfg j.coord = false → jobFenced s j cfg = false →
            exec (.codecJobStart k x) s = .next (startJob s k.toNat (readJob s j cfg) cfg) ∧
            (poolRows cfg (readJob s j cfg) = 0 → j.expand = x →
              ∃ t, startJob s k.toNat (readJob s j cfg) cfg = t ∧ (laneOf t k.toNat x).running = some (readJob s j cfg) ∧
                (laneOf t k.toNat x).queue = rest ∧ laneOf t k.toNat (!x) = laneOf s k.toNat (!x)))))) ∧
    (∀ cfg ecc, (laneOf s k.toNat x).running = some j → codecCfg s j.slot.toNat j.cfg.toNat = some cfg → ecc ≠ Ecc.corrected →
      let hard := j.bad || ecc == .uncorrectable
      let s0 := freeCodec (modLane s k.toNat x fun l => { l with running := none }) k.toNat
      let s2 := if x then finishDec s0 j cfg hard else finishEnc s0 j cfg hard
      (∀ op, j.for_ = .instr op → exec (.codecJobComplete k x ecc) s = .next (signalSig s2 j.core j.slot.toNat op.sig)) ∧
      (∀ e t, j.for_ = .stream e t →
        exec (.codecJobComplete k x ecc) s = .next (completeTile s2 j.core.toNat j.slot.toNat e.toNat t)))

/-- Video jobs: a packet that passes the checks enters its pipeline's queue, the oldest job whose context runs starts, each frame
and each picture counts 1, a job that has written all of them is answered and leaves its pipeline, and a job that must stop does
so at a picture boundary. What the codecs' standards give is free (log entries 60 to 63). -/
def Obligations.VideoJobsRun : Prop :=
  ∀ (p : Packet) (pipe : BitVec 3) (s : State) (n i : Nat) (j : VideoJob),
    (Accepts p s → pktSlot s p = some n → p.extra.length = 2 →
      (decodeBad s n p = false → pickPipe s false (vdEngine p.param) = some i → ∃ e, exec (.vidDecode p) s =
        .next (modPipe (draw s) i fun x => { x with queue := x.queue ++ [e] }) ∧ e.pkt = p ∧ e.encode = false ∧ e.frame = 0) ∧
      (encodeBad s n p = false → pickPipe s true (vdEngine p.param) = some i → ∃ e, exec (.vidEncode p) s =
        .next (modPipe (draw s) i fun x => { x with queue := x.queue ++ [e] }) ∧ e.pkt = p ∧ e.encode = true ∧ e.frame = 0)) ∧
    (ready s = true → pipe.toNat < 6 →
      (∀ rest, videoPaused s = false → (pipeOf s pipe.toNat).running = none → pipeUsable s pipe.toNat = true →
        ((s.videoAny.find? fun j => j.encode == decide (4 ≤ pipe.toNat) && jobRuns s j) = some j →
          ∃ t, exec (.videoJobStart pipe) s = .next t ∧ (pipeOf t pipe.toNat).running = some j ∧ t.videoAny = s.videoAny.erase j) ∧
        ((s.videoAny.find? fun j => j.encode == decide (4 ≤ pipe.toNat) && jobRuns s j) = none →
          (pipeOf s pipe.toNat).queue = j :: rest → jobRuns s j = true →
          ∃ t, exec (.videoJobStart pipe) s = .next t ∧ (pipeOf t pipe.toNat).running = some j ∧ (pipeOf t pipe.toNat).queue = rest)) ∧
      ((pipeOf s pipe.toNat).running = some j →
        (j.encode = false → j.frame < tzNf (videoRec j.pkt) → frameHeld s j (vdOut j.pkt.param) = false →
          ∃ t e, exec (.decodeFrameDone pipe) s = .next t ∧
          (pipeOf t pipe.toNat).running = some e ∧ e.frame = j.frame + 1 ∧ e.pkt = j.pkt) ∧
        (j.encode = true → j.frame < enNf (videoRec j.pkt) → j.full = false → frameHeld s j (veOut j.pkt.param) = false →
          ∃ t e, exec (.encodePictureDone pipe) s = .next t ∧
          (pipeOf t pipe.toNat).running = some e ∧ e.pkt = j.pkt ∧ ((e.full = true ∧ e.coded = j.coded) ∨ e.frame = j.frame + 1)) ∧
        (j.encode = false → tzNf (videoRec j.pkt) ≤ j.frame → exec (.videoJobComplete pipe) s = .next (answerD
          (modPipe s pipe.toNat fun x => { x with running := none, stopAt := none }) j.pkt 0x70 j.worst.toNat (min 0xFFFF j.bad))) ∧
        (j.encode = true → j.full = false → enNf (videoRec j.pkt) ≤ j.frame → exec (.videoJobComplete pipe) s = .next (answerD
          (modPipe s pipe.toNat fun x => { x with running := none, stopAt := none }) j.pkt 0x71 0 0)) ∧
        (j.encode = true → j.full = true → exec (.videoJobComplete pipe) s = .next (answerD
          (modPipe s pipe.toNat fun x => { x with running := none, stopAt := none }) j.pkt 0x71 0x0303 j.frame)) ∧
        (∀ why, (pipeOf s pipe.toNat).stopAt = some why → exec (.pictureBoundary pipe) s = .next (stopJob s pipe.toNat j why))))

/-! ### Reset, and what every step keeps -/

/-- The machine right after reset: nothing waits, start-up runs phase POWER, the postmark at 0 and not running, every memory
empty, every ring pair at its reset values, every context slot empty, no counter, no log entry, no transaction, and the
configuration sets equal with set A active. The reset values that the spec does not give are the model's (log entries 9 to 11). -/
def Obligations.ResetState : Prop :=
  State.reset.pending = [] ∧ State.reset.life.power = .start ∧ State.reset.life.phase = .power ∧ State.reset.postmark = 0 ∧ State.reset.timeOn = false ∧
  State.reset.hostMem = [] ∧ State.reset.shared = [] ∧ State.reset.lpddr = [] ∧ State.reset.hstErr = 0 ∧ State.reset.deadCount = 0 ∧
  State.reset.health = [] ∧ State.reset.healthSeq = 0 ∧ State.reset.counters = [] ∧ State.reset.txns = [] ∧ State.reset.modId = none ∧
  State.reset.setA = State.reset.setB ∧ State.reset.active = false ∧ State.reset.fw.floor = 0 ∧
  (∀ n, n < 65 → ringOf State.reset n = Ring.init n) ∧ (∀ n, n < 64 → ctxOf State.reset n = none) ∧
  (∀ p, p < 16 → (portOf State.reset p).state = .down) ∧ State.reset.memWf ∧ State.reset.logsBounded ∧ State.reset.fwWf

/-- Every memory keeps its canonical form over every step, whatever the command. -/
def Obligations.StepKeepsMemories : Prop :=
  ∀ s t : State, step s = .next t → s.memWf → t.memWf

/-- Over every step the health log holds at most 4,096 entries and the dead-letter log at most 1,024, the module's capacity stays
what it is, and the queue loses the command that ran and nothing else. The queue is the model's own (log entry 8). -/
def Obligations.StepKeepsLogsAndQueue : Prop :=
  ∀ s t : State, step s = .next t → (s.logsBounded → t.logsBounded) ∧ t.big = s.big ∧ t.pending = s.pending.tail

/-- R388: over every step the floor stays from 0 to 64 and never falls, and it rises only in a step that runs FW_ACTIVATE
RAISE_FLOOR. -/
def Obligations.FloorOnlyRises : Prop :=
  ∀ s t : State, step s = .next t → (s.fwWf → t.fwWf ∧ t.fw.floor.toNat ≤ 64) ∧ s.fw.floor ≤ t.fw.floor ∧
    (t.fw.floor ≠ s.fw.floor → ∃ p, s.pending.head? = some (.fwActivateRaiseFloor p))

/-- R61: an instruction whose predicate test fails goes to the next instruction, enters no queue, and signals its sig counter by 1 where
its sig field is not 0: here through the counter's home, or over the fabric. A CTL instruction has no sig field. That such an
instruction needs no room in its queue is the model's reading (log entry 22). -/
def Obligations.SkippedInstructionsSignal : Prop :=
  ∀ (u : Issuer) (s : State) (i : Iss) (x : Nat × Nat × Instr), Issues u s i x.1 x.2.1 → passes i.t i.w = false →
    (x ∈ ctlRows u → ctlReserved i.w = false → exec x.2.2 s = .next (retire s i (stepPc i.t))) ∧
    (∀ q, (q, x) ∈ engineRows u → staticFaults i.w = [] → sigUnmapped s i = false →
      let s1 := retire s i (stepPc i.t)
      (∀ r, queueOf (coreOf s1 u.core.toNat) r = queueOf i.core r) ∧ threadOf (coreOf s1 u.core.toNat) u.thread.toNat = stepPc i.t ∧
      (sigOf i.t i.w = none → exec x.2.2 s = .next s1) ∧
      (∀ v, sigOf i.t i.w = some v →
        (∀ pid, translate s i.slot v.toNat = .here pid → exec x.2.2 s = .next (arrive s1
          { pid := pid, slot := BitVec.ofNat 6 i.slot, op := .signal, value := 1, src := .engine u.core })) ∧
        (∀ m, translate s i.slot v.toNat = .remote m → exec x.2.2 s = .next (remoteSignal s1 u.core i.slot v.toNat m 1 none))))

/-- R428: while VDD_AON is down, PWR_WARM_CTRL, HST_MOD_PHASE, HST_ALERT_CAUSE and HST_ALERT_EVENTS read as 0, and a private write
changes none of them. -/
def Obligations.IslandRegistersHold : Prop :=
  ∀ (s : State) (offset : BitVec 8) (data : List Byte) (hw : BitVec 8), vddAon s = false →
    (i3cByte s 0x09 = 0 ∧ i3cByte s 0x0A = 0 ∧ i3cByte s 0x0B = 0 ∧ i3cByte s 0x10 = 0 ∧ ∀ i, i < 8 → i3cByte s (0x11 + i) = 0) ∧
    (s.life.auxGood = true → s.mgmt.i3cAddr.isSome → exec (.i3cPrivateWrite offset data hw) s =
      .next { s with mgmt := { s.mgmt with i3cOffset := offset } })
end

