-- ==== Sys2Proof/Laws/State.lean ====
section
/-! SUPPORT. What each update of the state leaves unchanged, field by field, and what a part reads as after an update. -/

namespace Sys2Proof.Machine

variable (s : State)

/-! ### setRing -/

@[simp] theorem setRing_pending (n : Nat) (r : Ring) : (setRing s n r).pending = s.pending := rfl
@[simp] theorem setRing_fresh (n : Nat) (r : Ring) : (setRing s n r).fresh = s.fresh := rfl
@[simp] theorem setRing_outbox (n : Nat) (r : Ring) : (setRing s n r).outbox = s.outbox := rfl
@[simp] theorem setRing_life (n : Nat) (r : Ring) : (setRing s n r).life = s.life := rfl
@[simp] theorem setRing_mgmt (n : Nat) (r : Ring) : (setRing s n r).mgmt = s.mgmt := rfl
@[simp] theorem setRing_age (n : Nat) (r : Ring) : (setRing s n r).age = s.age := rfl
@[simp] theorem setRing_fw (n : Nat) (r : Ring) : (setRing s n r).fw = s.fw := rfl
@[simp] theorem setRing_postmark (n : Nat) (r : Ring) : (setRing s n r).postmark = s.postmark := rfl
@[simp] theorem setRing_timeOn (n : Nat) (r : Ring) : (setRing s n r).timeOn = s.timeOn := rfl
@[simp] theorem setRing_big (n : Nat) (r : Ring) : (setRing s n r).big = s.big := rfl
@[simp] theorem setRing_hstErr (n : Nat) (r : Ring) : (setRing s n r).hstErr = s.hstErr := rfl
@[simp] theorem setRing_hstErrEvents (n : Nat) (r : Ring) : (setRing s n r).hstErrEvents = s.hstErrEvents := rfl
@[simp] theorem setRing_turn (n : Nat) (r : Ring) : (setRing s n r).turn = s.turn := rfl
@[simp] theorem setRing_slots (n : Nat) (r : Ring) : (setRing s n r).slots = s.slots := rfl
@[simp] theorem setRing_msix (n : Nat) (r : Ring) : (setRing s n r).msix = s.msix := rfl
@[simp] theorem setRing_msixPend (n : Nat) (r : Ring) : (setRing s n r).msixPend = s.msixPend := rfl
@[simp] theorem setRing_dead (n : Nat) (r : Ring) : (setRing s n r).dead = s.dead := rfl
@[simp] theorem setRing_deadCount (n : Nat) (r : Ring) : (setRing s n r).deadCount = s.deadCount := rfl
@[simp] theorem setRing_health (n : Nat) (r : Ring) : (setRing s n r).health = s.health := rfl
@[simp] theorem setRing_healthSeq (n : Nat) (r : Ring) : (setRing s n r).healthSeq = s.healthSeq := rfl
@[simp] theorem setRing_active (n : Nat) (r : Ring) : (setRing s n r).active = s.active := rfl
@[simp] theorem setRing_swaps (n : Nat) (r : Ring) : (setRing s n r).swaps = s.swaps := rfl
@[simp] theorem setRing_setA (n : Nat) (r : Ring) : (setRing s n r).setA = s.setA := rfl
@[simp] theorem setRing_setB (n : Nat) (r : Ring) : (setRing s n r).setB = s.setB := rfl
@[simp] theorem setRing_swap (n : Nat) (r : Ring) : (setRing s n r).swap = s.swap := rfl
@[simp] theorem setRing_measured (n : Nat) (r : Ring) : (setRing s n r).measured = s.measured := rfl
@[simp] theorem setRing_ctxs (n : Nat) (r : Ring) : (setRing s n r).ctxs = s.ctxs := rfl
@[simp] theorem setRing_keyDraws (n : Nat) (r : Ring) : (setRing s n r).keyDraws = s.keyDraws := rfl
@[simp] theorem setRing_hostMem (n : Nat) (r : Ring) : (setRing s n r).hostMem = s.hostMem := rfl
@[simp] theorem setRing_hostPoison (n : Nat) (r : Ring) : (setRing s n r).hostPoison = s.hostPoison := rfl
@[simp] theorem setRing_hostReject (n : Nat) (r : Ring) : (setRing s n r).hostReject = s.hostReject := rfl
@[simp] theorem setRing_hostLines (n : Nat) (r : Ring) : (setRing s n r).hostLines = s.hostLines := rfl
@[simp] theorem setRing_shared (n : Nat) (r : Ring) : (setRing s n r).shared = s.shared := rfl
@[simp] theorem setRing_sharedBad (n : Nat) (r : Ring) : (setRing s n r).sharedBad = s.sharedBad := rfl
@[simp] theorem setRing_bankHits (n : Nat) (r : Ring) : (setRing s n r).bankHits = s.bankHits := rfl
@[simp] theorem setRing_lpddr (n : Nat) (r : Ring) : (setRing s n r).lpddr = s.lpddr := rfl
@[simp] theorem setRing_lines (n : Nat) (r : Ring) : (setRing s n r).lines = s.lines := rfl
@[simp] theorem setRing_retiredPages (n : Nat) (r : Ring) : (setRing s n r).retiredPages = s.retiredPages := rfl
@[simp] theorem setRing_retiredBanks (n : Nat) (r : Ring) : (setRing s n r).retiredBanks = s.retiredBanks := rfl
@[simp] theorem setRing_cache (n : Nat) (r : Ring) : (setRing s n r).cache = s.cache := rfl
@[simp] theorem setRing_cores (n : Nat) (r : Ring) : (setRing s n r).cores = s.cores := rfl
@[simp] theorem setRing_clusters (n : Nat) (r : Ring) : (setRing s n r).clusters = s.clusters := rfl
@[simp] theorem setRing_counters (n : Nat) (r : Ring) : (setRing s n r).counters = s.counters := rfl
@[simp] theorem setRing_syncQ (n : Nat) (r : Ring) : (setRing s n r).syncQ = s.syncQ := rfl
@[simp] theorem setRing_waiters (n : Nat) (r : Ring) : (setRing s n r).waiters = s.waiters := rfl
@[simp] theorem setRing_counts (n : Nat) (r : Ring) : (setRing s n r).counts = s.counts := rfl
@[simp] theorem setRing_leases (n : Nat) (r : Ring) : (setRing s n r).leases = s.leases := rfl
@[simp] theorem setRing_modId (n : Nat) (r : Ring) : (setRing s n r).modId = s.modId := rfl
@[simp] theorem setRing_ports (n : Nat) (r : Ring) : (setRing s n r).ports = s.ports := rfl
@[simp] theorem setRing_txns (n : Nat) (r : Ring) : (setRing s n r).txns = s.txns := rfl
@[simp] theorem setRing_nextTxn (n : Nat) (r : Ring) : (setRing s n r).nextTxn = s.nextTxn := rfl
@[simp] theorem setRing_sendWait (n : Nat) (r : Ring) : (setRing s n r).sendWait = s.sendWait := rfl
@[simp] theorem setRing_dups (n : Nat) (r : Ring) : (setRing s n r).dups = s.dups := rfl
@[simp] theorem setRing_fabDrops (n : Nat) (r : Ring) : (setRing s n r).fabDrops = s.fabDrops := rfl
@[simp] theorem setRing_lostMods (n : Nat) (r : Ring) : (setRing s n r).lostMods = s.lostMods := rfl
@[simp] theorem setRing_reds (n : Nat) (r : Ring) : (setRing s n r).reds = s.reds := rfl
@[simp] theorem setRing_stales (n : Nat) (r : Ring) : (setRing s n r).stales = s.stales := rfl
@[simp] theorem setRing_pipes (n : Nat) (r : Ring) : (setRing s n r).pipes = s.pipes := rfl
@[simp] theorem setRing_videoAny (n : Nat) (r : Ring) : (setRing s n r).videoAny = s.videoAny := rfl
@[simp] theorem setRing_videoStopped (n : Nat) (r : Ring) : (setRing s n r).videoStopped = s.videoStopped := rfl
@[simp] theorem setRing_riskEvents (n : Nat) (r : Ring) : (setRing s n r).riskEvents = s.riskEvents := rfl
@[simp] theorem setRing_riskScore (n : Nat) (r : Ring) : (setRing s n r).riskScore = s.riskScore := rfl
@[simp] theorem setRing_draining (n : Nat) (r : Ring) : (setRing s n r).draining = s.draining := rfl

/-! ### setCore -/

@[simp] theorem setCore_pending (c : Nat) (x : Core) : (setCore s c x).pending = s.pending := rfl
@[simp] theorem setCore_fresh (c : Nat) (x : Core) : (setCore s c x).fresh = s.fresh := rfl
@[simp] theorem setCore_outbox (c : Nat) (x : Core) : (setCore s c x).outbox = s.outbox := rfl
@[simp] theorem setCore_life (c : Nat) (x : Core) : (setCore s c x).life = s.life := rfl
@[simp] theorem setCore_mgmt (c : Nat) (x : Core) : (setCore s c x).mgmt = s.mgmt := rfl
@[simp] theorem setCore_age (c : Nat) (x : Core) : (setCore s c x).age = s.age := rfl
@[simp] theorem setCore_fw (c : Nat) (x : Core) : (setCore s c x).fw = s.fw := rfl
@[simp] theorem setCore_postmark (c : Nat) (x : Core) : (setCore s c x).postmark = s.postmark := rfl
@[simp] theorem setCore_timeOn (c : Nat) (x : Core) : (setCore s c x).timeOn = s.timeOn := rfl
@[simp] theorem setCore_big (c : Nat) (x : Core) : (setCore s c x).big = s.big := rfl
@[simp] theorem setCore_hstErr (c : Nat) (x : Core) : (setCore s c x).hstErr = s.hstErr := rfl
@[simp] theorem setCore_hstErrEvents (c : Nat) (x : Core) : (setCore s c x).hstErrEvents = s.hstErrEvents := rfl
@[simp] theorem setCore_rings (c : Nat) (x : Core) : (setCore s c x).rings = s.rings := rfl
@[simp] theorem setCore_turn (c : Nat) (x : Core) : (setCore s c x).turn = s.turn := rfl
@[simp] theorem setCore_slots (c : Nat) (x : Core) : (setCore s c x).slots = s.slots := rfl
@[simp] theorem setCore_msix (c : Nat) (x : Core) : (setCore s c x).msix = s.msix := rfl
@[simp] theorem setCore_msixPend (c : Nat) (x : Core) : (setCore s c x).msixPend = s.msixPend := rfl
@[simp] theorem setCore_dead (c : Nat) (x : Core) : (setCore s c x).dead = s.dead := rfl
@[simp] theorem setCore_deadCount (c : Nat) (x : Core) : (setCore s c x).deadCount = s.deadCount := rfl
@[simp] theorem setCore_health (c : Nat) (x : Core) : (setCore s c x).health = s.health := rfl
@[simp] theorem setCore_healthSeq (c : Nat) (x : Core) : (setCore s c x).healthSeq = s.healthSeq := rfl
@[simp] theorem setCore_active (c : Nat) (x : Core) : (setCore s c x).active = s.active := rfl
@[simp] theorem setCore_swaps (c : Nat) (x : Core) : (setCore s c x).swaps = s.swaps := rfl
@[simp] theorem setCore_setA (c : Nat) (x : Core) : (setCore s c x).setA = s.setA := rfl
@[simp] theorem setCore_setB (c : Nat) (x : Core) : (setCore s c x).setB = s.setB := rfl
@[simp] theorem setCore_swap (c : Nat) (x : Core) : (setCore s c x).swap = s.swap := rfl
@[simp] theorem setCore_measured (c : Nat) (x : Core) : (setCore s c x).measured = s.measured := rfl
@[simp] theorem setCore_ctxs (c : Nat) (x : Core) : (setCore s c x).ctxs = s.ctxs := rfl
@[simp] theorem setCore_keyDraws (c : Nat) (x : Core) : (setCore s c x).keyDraws = s.keyDraws := rfl
@[simp] theorem setCore_hostMem (c : Nat) (x : Core) : (setCore s c x).hostMem = s.hostMem := rfl
@[simp] theorem setCore_hostPoison (c : Nat) (x : Core) : (setCore s c x).hostPoison = s.hostPoison := rfl
@[simp] theorem setCore_hostReject (c : Nat) (x : Core) : (setCore s c x).hostReject = s.hostReject := rfl
@[simp] theorem setCore_hostLines (c : Nat) (x : Core) : (setCore s c x).hostLines = s.hostLines := rfl
@[simp] theorem setCore_shared (c : Nat) (x : Core) : (setCore s c x).shared = s.shared := rfl
@[simp] theorem setCore_sharedBad (c : Nat) (x : Core) : (setCore s c x).sharedBad = s.sharedBad := rfl
@[simp] theorem setCore_bankHits (c : Nat) (x : Core) : (setCore s c x).bankHits = s.bankHits := rfl
@[simp] theorem setCore_lpddr (c : Nat) (x : Core) : (setCore s c x).lpddr = s.lpddr := rfl
@[simp] theorem setCore_lines (c : Nat) (x : Core) : (setCore s c x).lines = s.lines := rfl
@[simp] theorem setCore_retiredPages (c : Nat) (x : Core) : (setCore s c x).retiredPages = s.retiredPages := rfl
@[simp] theorem setCore_retiredBanks (c : Nat) (x : Core) : (setCore s c x).retiredBanks = s.retiredBanks := rfl
@[simp] theorem setCore_cache (c : Nat) (x : Core) : (setCore s c x).cache = s.cache := rfl
@[simp] theorem setCore_clusters (c : Nat) (x : Core) : (setCore s c x).clusters = s.clusters := rfl
@[simp] theorem setCore_counters (c : Nat) (x : Core) : (setCore s c x).counters = s.counters := rfl
@[simp] theorem setCore_syncQ (c : Nat) (x : Core) : (setCore s c x).syncQ = s.syncQ := rfl
@[simp] theorem setCore_waiters (c : Nat) (x : Core) : (setCore s c x).waiters = s.waiters := rfl
@[simp] theorem setCore_counts (c : Nat) (x : Core) : (setCore s c x).counts = s.counts := rfl
@[simp] theorem setCore_leases (c : Nat) (x : Core) : (setCore s c x).leases = s.leases := rfl
@[simp] theorem setCore_modId (c : Nat) (x : Core) : (setCore s c x).modId = s.modId := rfl
@[simp] theorem setCore_ports (c : Nat) (x : Core) : (setCore s c x).ports = s.ports := rfl
@[simp] theorem setCore_txns (c : Nat) (x : Core) : (setCore s c x).txns = s.txns := rfl
@[simp] theorem setCore_nextTxn (c : Nat) (x : Core) : (setCore s c x).nextTxn = s.nextTxn := rfl
@[simp] theorem setCore_sendWait (c : Nat) (x : Core) : (setCore s c x).sendWait = s.sendWait := rfl
@[simp] theorem setCore_dups (c : Nat) (x : Core) : (setCore s c x).dups = s.dups := rfl
@[simp] theorem setCore_fabDrops (c : Nat) (x : Core) : (setCore s c x).fabDrops = s.fabDrops := rfl
@[simp] theorem setCore_lostMods (c : Nat) (x : Core) : (setCore s c x).lostMods = s.lostMods := rfl
@[simp] theorem setCore_reds (c : Nat) (x : Core) : (setCore s c x).reds = s.reds := rfl
@[simp] theorem setCore_stales (c : Nat) (x : Core) : (setCore s c x).stales = s.stales := rfl
@[simp] theorem setCore_pipes (c : Nat) (x : Core) : (setCore s c x).pipes = s.pipes := rfl
@[simp] theorem setCore_videoAny (c : Nat) (x : Core) : (setCore s c x).videoAny = s.videoAny := rfl
@[simp] theorem setCore_videoStopped (c : Nat) (x : Core) : (setCore s c x).videoStopped = s.videoStopped := rfl
@[simp] theorem setCore_riskEvents (c : Nat) (x : Core) : (setCore s c x).riskEvents = s.riskEvents := rfl
@[simp] theorem setCore_riskScore (c : Nat) (x : Core) : (setCore s c x).riskScore = s.riskScore := rfl
@[simp] theorem setCore_draining (c : Nat) (x : Core) : (setCore s c x).draining = s.draining := rfl

/-! ### modCore -/

@[simp] theorem modCore_pending (c : Nat) (f : Core → Core) : (modCore s c f).pending = s.pending := rfl
@[simp] theorem modCore_fresh (c : Nat) (f : Core → Core) : (modCore s c f).fresh = s.fresh := rfl
@[simp] theorem modCore_outbox (c : Nat) (f : Core → Core) : (modCore s c f).outbox = s.outbox := rfl
@[simp] theorem modCore_life (c : Nat) (f : Core → Core) : (modCore s c f).life = s.life := rfl
@[simp] theorem modCore_mgmt (c : Nat) (f : Core → Core) : (modCore s c f).mgmt = s.mgmt := rfl
@[simp] theorem modCore_age (c : Nat) (f : Core → Core) : (modCore s c f).age = s.age := rfl
@[simp] theorem modCore_fw (c : Nat) (f : Core → Core) : (modCore s c f).fw = s.fw := rfl
@[simp] theorem modCore_postmark (c : Nat) (f : Core → Core) : (modCore s c f).postmark = s.postmark := rfl
@[simp] theorem modCore_timeOn (c : Nat) (f : Core → Core) : (modCore s c f).timeOn = s.timeOn := rfl
@[simp] theorem modCore_big (c : Nat) (f : Core → Core) : (modCore s c f).big = s.big := rfl
@[simp] theorem modCore_hstErr (c : Nat) (f : Core → Core) : (modCore s c f).hstErr = s.hstErr := rfl
@[simp] theorem modCore_hstErrEvents (c : Nat) (f : Core → Core) : (modCore s c f).hstErrEvents = s.hstErrEvents := rfl
@[simp] theorem modCore_rings (c : Nat) (f : Core → Core) : (modCore s c f).rings = s.rings := rfl
@[simp] theorem modCore_turn (c : Nat) (f : Core → Core) : (modCore s c f).turn = s.turn := rfl
@[simp] theorem modCore_slots (c : Nat) (f : Core → Core) : (modCore s c f).slots = s.slots := rfl
@[simp] theorem modCore_msix (c : Nat) (f : Core → Core) : (modCore s c f).msix = s.msix := rfl
@[simp] theorem modCore_msixPend (c : Nat) (f : Core → Core) : (modCore s c f).msixPend = s.msixPend := rfl
@[simp] theorem modCore_dead (c : Nat) (f : Core → Core) : (modCore s c f).dead = s.dead := rfl
@[simp] theorem modCore_deadCount (c : Nat) (f : Core → Core) : (modCore s c f).deadCount = s.deadCount := rfl
@[simp] theorem modCore_health (c : Nat) (f : Core → Core) : (modCore s c f).health = s.health := rfl
@[simp] theorem modCore_healthSeq (c : Nat) (f : Core → Core) : (modCore s c f).healthSeq = s.healthSeq := rfl
@[simp] theorem modCore_active (c : Nat) (f : Core → Core) : (modCore s c f).active = s.active := rfl
@[simp] theorem modCore_swaps (c : Nat) (f : Core → Core) : (modCore s c f).swaps = s.swaps := rfl
@[simp] theorem modCore_setA (c : Nat) (f : Core → Core) : (modCore s c f).setA = s.setA := rfl
@[simp] theorem modCore_setB (c : Nat) (f : Core → Core) : (modCore s c f).setB = s.setB := rfl
@[simp] theorem modCore_swap (c : Nat) (f : Core → Core) : (modCore s c f).swap = s.swap := rfl
@[simp] theorem modCore_measured (c : Nat) (f : Core → Core) : (modCore s c f).measured = s.measured := rfl
@[simp] theorem modCore_ctxs (c : Nat) (f : Core → Core) : (modCore s c f).ctxs = s.ctxs := rfl
@[simp] theorem modCore_keyDraws (c : Nat) (f : Core → Core) : (modCore s c f).keyDraws = s.keyDraws := rfl
@[simp] theorem modCore_hostMem (c : Nat) (f : Core → Core) : (modCore s c f).hostMem = s.hostMem := rfl
@[simp] theorem modCore_hostPoison (c : Nat) (f : Core → Core) : (modCore s c f).hostPoison = s.hostPoison := rfl
@[simp] theorem modCore_hostReject (c : Nat) (f : Core → Core) : (modCore s c f).hostReject = s.hostReject := rfl
@[simp] theorem modCore_hostLines (c : Nat) (f : Core → Core) : (modCore s c f).hostLines = s.hostLines := rfl
@[simp] theorem modCore_shared (c : Nat) (f : Core → Core) : (modCore s c f).shared = s.shared := rfl
@[simp] theorem modCore_sharedBad (c : Nat) (f : Core → Core) : (modCore s c f).sharedBad = s.sharedBad := rfl
@[simp] theorem modCore_bankHits (c : Nat) (f : Core → Core) : (modCore s c f).bankHits = s.bankHits := rfl
@[simp] theorem modCore_lpddr (c : Nat) (f : Core → Core) : (modCore s c f).lpddr = s.lpddr := rfl
@[simp] theorem modCore_lines (c : Nat) (f : Core → Core) : (modCore s c f).lines = s.lines := rfl
@[simp] theorem modCore_retiredPages (c : Nat) (f : Core → Core) : (modCore s c f).retiredPages = s.retiredPages := rfl
@[simp] theorem modCore_retiredBanks (c : Nat) (f : Core → Core) : (modCore s c f).retiredBanks = s.retiredBanks := rfl
@[simp] theorem modCore_cache (c : Nat) (f : Core → Core) : (modCore s c f).cache = s.cache := rfl
@[simp] theorem modCore_clusters (c : Nat) (f : Core → Core) : (modCore s c f).clusters = s.clusters := rfl
@[simp] theorem modCore_counters (c : Nat) (f : Core → Core) : (modCore s c f).counters = s.counters := rfl
@[simp] theorem modCore_syncQ (c : Nat) (f : Core → Core) : (modCore s c f).syncQ = s.syncQ := rfl
@[simp] theorem modCore_waiters (c : Nat) (f : Core → Core) : (modCore s c f).waiters = s.waiters := rfl
@[simp] theorem modCore_counts (c : Nat) (f : Core → Core) : (modCore s c f).counts = s.counts := rfl
@[simp] theorem modCore_leases (c : Nat) (f : Core → Core) : (modCore s c f).leases = s.leases := rfl
@[simp] theorem modCore_modId (c : Nat) (f : Core → Core) : (modCore s c f).modId = s.modId := rfl
@[simp] theorem modCore_ports (c : Nat) (f : Core → Core) : (modCore s c f).ports = s.ports := rfl
@[simp] theorem modCore_txns (c : Nat) (f : Core → Core) : (modCore s c f).txns = s.txns := rfl
@[simp] theorem modCore_nextTxn (c : Nat) (f : Core → Core) : (modCore s c f).nextTxn = s.nextTxn := rfl
@[simp] theorem modCore_sendWait (c : Nat) (f : Core → Core) : (modCore s c f).sendWait = s.sendWait := rfl
@[simp] theorem modCore_dups (c : Nat) (f : Core → Core) : (modCore s c f).dups = s.dups := rfl
@[simp] theorem modCore_fabDrops (c : Nat) (f : Core → Core) : (modCore s c f).fabDrops = s.fabDrops := rfl
@[simp] theorem modCore_lostMods (c : Nat) (f : Core → Core) : (modCore s c f).lostMods = s.lostMods := rfl
@[simp] theorem modCore_reds (c : Nat) (f : Core → Core) : (modCore s c f).reds = s.reds := rfl
@[simp] theorem modCore_stales (c : Nat) (f : Core → Core) : (modCore s c f).stales = s.stales := rfl
@[simp] theorem modCore_pipes (c : Nat) (f : Core → Core) : (modCore s c f).pipes = s.pipes := rfl
@[simp] theorem modCore_videoAny (c : Nat) (f : Core → Core) : (modCore s c f).videoAny = s.videoAny := rfl
@[simp] theorem modCore_videoStopped (c : Nat) (f : Core → Core) : (modCore s c f).videoStopped = s.videoStopped := rfl
@[simp] theorem modCore_riskEvents (c : Nat) (f : Core → Core) : (modCore s c f).riskEvents = s.riskEvents := rfl
@[simp] theorem modCore_riskScore (c : Nat) (f : Core → Core) : (modCore s c f).riskScore = s.riskScore := rfl
@[simp] theorem modCore_draining (c : Nat) (f : Core → Core) : (modCore s c f).draining = s.draining := rfl

/-! ### modThread -/

@[simp] theorem modThread_pending (c t : Nat) (f : Thread → Thread) : (modThread s c t f).pending = s.pending := rfl
@[simp] theorem modThread_fresh (c t : Nat) (f : Thread → Thread) : (modThread s c t f).fresh = s.fresh := rfl
@[simp] theorem modThread_outbox (c t : Nat) (f : Thread → Thread) : (modThread s c t f).outbox = s.outbox := rfl
@[simp] theorem modThread_life (c t : Nat) (f : Thread → Thread) : (modThread s c t f).life = s.life := rfl
@[simp] theorem modThread_mgmt (c t : Nat) (f : Thread → Thread) : (modThread s c t f).mgmt = s.mgmt := rfl
@[simp] theorem modThread_age (c t : Nat) (f : Thread → Thread) : (modThread s c t f).age = s.age := rfl
@[simp] theorem modThread_fw (c t : Nat) (f : Thread → Thread) : (modThread s c t f).fw = s.fw := rfl
@[simp] theorem modThread_postmark (c t : Nat) (f : Thread → Thread) : (modThread s c t f).postmark = s.postmark := rfl
@[simp] theorem modThread_timeOn (c t : Nat) (f : Thread → Thread) : (modThread s c t f).timeOn = s.timeOn := rfl
@[simp] theorem modThread_big (c t : Nat) (f : Thread → Thread) : (modThread s c t f).big = s.big := rfl
@[simp] theorem modThread_hstErr (c t : Nat) (f : Thread → Thread) : (modThread s c t f).hstErr = s.hstErr := rfl
@[simp] theorem modThread_hstErrEvents (c t : Nat) (f : Thread → Thread) : (modThread s c t f).hstErrEvents = s.hstErrEvents := rfl
@[simp] theorem modThread_rings (c t : Nat) (f : Thread → Thread) : (modThread s c t f).rings = s.rings := rfl
@[simp] theorem modThread_turn (c t : Nat) (f : Thread → Thread) : (modThread s c t f).turn = s.turn := rfl
@[simp] theorem modThread_slots (c t : Nat) (f : Thread → Thread) : (modThread s c t f).slots = s.slots := rfl
@[simp] theorem modThread_msix (c t : Nat) (f : Thread → Thread) : (modThread s c t f).msix = s.msix := rfl
@[simp] theorem modThread_msixPend (c t : Nat) (f : Thread → Thread) : (modThread s c t f).msixPend = s.msixPend := rfl
@[simp] theorem modThread_dead (c t : Nat) (f : Thread → Thread) : (modThread s c t f).dead = s.dead := rfl
@[simp] theorem modThread_deadCount (c t : Nat) (f : Thread → Thread) : (modThread s c t f).deadCount = s.deadCount := rfl
@[simp] theorem modThread_health (c t : Nat) (f : Thread → Thread) : (modThread s c t f).health = s.health := rfl
@[simp] theorem modThread_healthSeq (c t : Nat) (f : Thread → Thread) : (modThread s c t f).healthSeq = s.healthSeq := rfl
@[simp] theorem modThread_active (c t : Nat) (f : Thread → Thread) : (modThread s c t f).active = s.active := rfl
@[simp] theorem modThread_swaps (c t : Nat) (f : Thread → Thread) : (modThread s c t f).swaps = s.swaps := rfl
@[simp] theorem modThread_setA (c t : Nat) (f : Thread → Thread) : (modThread s c t f).setA = s.setA := rfl
@[simp] theorem modThread_setB (c t : Nat) (f : Thread → Thread) : (modThread s c t f).setB = s.setB := rfl
@[simp] theorem modThread_swap (c t : Nat) (f : Thread → Thread) : (modThread s c t f).swap = s.swap := rfl
@[simp] theorem modThread_measured (c t : Nat) (f : Thread → Thread) : (modThread s c t f).measured = s.measured := rfl
@[simp] theorem modThread_ctxs (c t : Nat) (f : Thread → Thread) : (modThread s c t f).ctxs = s.ctxs := rfl
@[simp] theorem modThread_keyDraws (c t : Nat) (f : Thread → Thread) : (modThread s c t f).keyDraws = s.keyDraws := rfl
@[simp] theorem modThread_hostMem (c t : Nat) (f : Thread → Thread) : (modThread s c t f).hostMem = s.hostMem := rfl
@[simp] theorem modThread_hostPoison (c t : Nat) (f : Thread → Thread) : (modThread s c t f).hostPoison = s.hostPoison := rfl
@[simp] theorem modThread_hostReject (c t : Nat) (f : Thread → Thread) : (modThread s c t f).hostReject = s.hostReject := rfl
@[simp] theorem modThread_hostLines (c t : Nat) (f : Thread → Thread) : (modThread s c t f).hostLines = s.hostLines := rfl
@[simp] theorem modThread_shared (c t : Nat) (f : Thread → Thread) : (modThread s c t f).shared = s.shared := rfl
@[simp] theorem modThread_sharedBad (c t : Nat) (f : Thread → Thread) : (modThread s c t f).sharedBad = s.sharedBad := rfl
@[simp] theorem modThread_bankHits (c t : Nat) (f : Thread → Thread) : (modThread s c t f).bankHits = s.bankHits := rfl
@[simp] theorem modThread_lpddr (c t : Nat) (f : Thread → Thread) : (modThread s c t f).lpddr = s.lpddr := rfl
@[simp] theorem modThread_lines (c t : Nat) (f : Thread → Thread) : (modThread s c t f).lines = s.lines := rfl
@[simp] theorem modThread_retiredPages (c t : Nat) (f : Thread → Thread) : (modThread s c t f).retiredPages = s.retiredPages := rfl
@[simp] theorem modThread_retiredBanks (c t : Nat) (f : Thread → Thread) : (modThread s c t f).retiredBanks = s.retiredBanks := rfl
@[simp] theorem modThread_cache (c t : Nat) (f : Thread → Thread) : (modThread s c t f).cache = s.cache := rfl
@[simp] theorem modThread_clusters (c t : Nat) (f : Thread → Thread) : (modThread s c t f).clusters = s.clusters := rfl
@[simp] theorem modThread_counters (c t : Nat) (f : Thread → Thread) : (modThread s c t f).counters = s.counters := rfl
@[simp] theorem modThread_syncQ (c t : Nat) (f : Thread → Thread) : (modThread s c t f).syncQ = s.syncQ := rfl
@[simp] theorem modThread_waiters (c t : Nat) (f : Thread → Thread) : (modThread s c t f).waiters = s.waiters := rfl
@[simp] theorem modThread_counts (c t : Nat) (f : Thread → Thread) : (modThread s c t f).counts = s.counts := rfl
@[simp] theorem modThread_leases (c t : Nat) (f : Thread → Thread) : (modThread s c t f).leases = s.leases := rfl
@[simp] theorem modThread_modId (c t : Nat) (f : Thread → Thread) : (modThread s c t f).modId = s.modId := rfl
@[simp] theorem modThread_ports (c t : Nat) (f : Thread → Thread) : (modThread s c t f).ports = s.ports := rfl
@[simp] theorem modThread_txns (c t : Nat) (f : Thread → Thread) : (modThread s c t f).txns = s.txns := rfl
@[simp] theorem modThread_nextTxn (c t : Nat) (f : Thread → Thread) : (modThread s c t f).nextTxn = s.nextTxn := rfl
@[simp] theorem modThread_sendWait (c t : Nat) (f : Thread → Thread) : (modThread s c t f).sendWait = s.sendWait := rfl
@[simp] theorem modThread_dups (c t : Nat) (f : Thread → Thread) : (modThread s c t f).dups = s.dups := rfl
@[simp] theorem modThread_fabDrops (c t : Nat) (f : Thread → Thread) : (modThread s c t f).fabDrops = s.fabDrops := rfl
@[simp] theorem modThread_lostMods (c t : Nat) (f : Thread → Thread) : (modThread s c t f).lostMods = s.lostMods := rfl
@[simp] theorem modThread_reds (c t : Nat) (f : Thread → Thread) : (modThread s c t f).reds = s.reds := rfl
@[simp] theorem modThread_stales (c t : Nat) (f : Thread → Thread) : (modThread s c t f).stales = s.stales := rfl
@[simp] theorem modThread_pipes (c t : Nat) (f : Thread → Thread) : (modThread s c t f).pipes = s.pipes := rfl
@[simp] theorem modThread_videoAny (c t : Nat) (f : Thread → Thread) : (modThread s c t f).videoAny = s.videoAny := rfl
@[simp] theorem modThread_videoStopped (c t : Nat) (f : Thread → Thread) : (modThread s c t f).videoStopped = s.videoStopped := rfl
@[simp] theorem modThread_riskEvents (c t : Nat) (f : Thread → Thread) : (modThread s c t f).riskEvents = s.riskEvents := rfl
@[simp] theorem modThread_riskScore (c t : Nat) (f : Thread → Thread) : (modThread s c t f).riskScore = s.riskScore := rfl
@[simp] theorem modThread_draining (c t : Nat) (f : Thread → Thread) : (modThread s c t f).draining = s.draining := rfl

/-! ### modStream -/

@[simp] theorem modStream_pending (c k : Nat) (f : Stream → Stream) : (modStream s c k f).pending = s.pending := rfl
@[simp] theorem modStream_fresh (c k : Nat) (f : Stream → Stream) : (modStream s c k f).fresh = s.fresh := rfl
@[simp] theorem modStream_outbox (c k : Nat) (f : Stream → Stream) : (modStream s c k f).outbox = s.outbox := rfl
@[simp] theorem modStream_life (c k : Nat) (f : Stream → Stream) : (modStream s c k f).life = s.life := rfl
@[simp] theorem modStream_mgmt (c k : Nat) (f : Stream → Stream) : (modStream s c k f).mgmt = s.mgmt := rfl
@[simp] theorem modStream_age (c k : Nat) (f : Stream → Stream) : (modStream s c k f).age = s.age := rfl
@[simp] theorem modStream_fw (c k : Nat) (f : Stream → Stream) : (modStream s c k f).fw = s.fw := rfl
@[simp] theorem modStream_postmark (c k : Nat) (f : Stream → Stream) : (modStream s c k f).postmark = s.postmark := rfl
@[simp] theorem modStream_timeOn (c k : Nat) (f : Stream → Stream) : (modStream s c k f).timeOn = s.timeOn := rfl
@[simp] theorem modStream_big (c k : Nat) (f : Stream → Stream) : (modStream s c k f).big = s.big := rfl
@[simp] theorem modStream_hstErr (c k : Nat) (f : Stream → Stream) : (modStream s c k f).hstErr = s.hstErr := rfl
@[simp] theorem modStream_hstErrEvents (c k : Nat) (f : Stream → Stream) : (modStream s c k f).hstErrEvents = s.hstErrEvents := rfl
@[simp] theorem modStream_rings (c k : Nat) (f : Stream → Stream) : (modStream s c k f).rings = s.rings := rfl
@[simp] theorem modStream_turn (c k : Nat) (f : Stream → Stream) : (modStream s c k f).turn = s.turn := rfl
@[simp] theorem modStream_slots (c k : Nat) (f : Stream → Stream) : (modStream s c k f).slots = s.slots := rfl
@[simp] theorem modStream_msix (c k : Nat) (f : Stream → Stream) : (modStream s c k f).msix = s.msix := rfl
@[simp] theorem modStream_msixPend (c k : Nat) (f : Stream → Stream) : (modStream s c k f).msixPend = s.msixPend := rfl
@[simp] theorem modStream_dead (c k : Nat) (f : Stream → Stream) : (modStream s c k f).dead = s.dead := rfl
@[simp] theorem modStream_deadCount (c k : Nat) (f : Stream → Stream) : (modStream s c k f).deadCount = s.deadCount := rfl
@[simp] theorem modStream_health (c k : Nat) (f : Stream → Stream) : (modStream s c k f).health = s.health := rfl
@[simp] theorem modStream_healthSeq (c k : Nat) (f : Stream → Stream) : (modStream s c k f).healthSeq = s.healthSeq := rfl
@[simp] theorem modStream_active (c k : Nat) (f : Stream → Stream) : (modStream s c k f).active = s.active := rfl
@[simp] theorem modStream_swaps (c k : Nat) (f : Stream → Stream) : (modStream s c k f).swaps = s.swaps := rfl
@[simp] theorem modStream_setA (c k : Nat) (f : Stream → Stream) : (modStream s c k f).setA = s.setA := rfl
@[simp] theorem modStream_setB (c k : Nat) (f : Stream → Stream) : (modStream s c k f).setB = s.setB := rfl
@[simp] theorem modStream_swap (c k : Nat) (f : Stream → Stream) : (modStream s c k f).swap = s.swap := rfl
@[simp] theorem modStream_measured (c k : Nat) (f : Stream → Stream) : (modStream s c k f).measured = s.measured := rfl
@[simp] theorem modStream_ctxs (c k : Nat) (f : Stream → Stream) : (modStream s c k f).ctxs = s.ctxs := rfl
@[simp] theorem modStream_keyDraws (c k : Nat) (f : Stream → Stream) : (modStream s c k f).keyDraws = s.keyDraws := rfl
@[simp] theorem modStream_hostMem (c k : Nat) (f : Stream → Stream) : (modStream s c k f).hostMem = s.hostMem := rfl
@[simp] theorem modStream_hostPoison (c k : Nat) (f : Stream → Stream) : (modStream s c k f).hostPoison = s.hostPoison := rfl
@[simp] theorem modStream_hostReject (c k : Nat) (f : Stream → Stream) : (modStream s c k f).hostReject = s.hostReject := rfl
@[simp] theorem modStream_hostLines (c k : Nat) (f : Stream → Stream) : (modStream s c k f).hostLines = s.hostLines := rfl
@[simp] theorem modStream_shared (c k : Nat) (f : Stream → Stream) : (modStream s c k f).shared = s.shared := rfl
@[simp] theorem modStream_sharedBad (c k : Nat) (f : Stream → Stream) : (modStream s c k f).sharedBad = s.sharedBad := rfl
@[simp] theorem modStream_bankHits (c k : Nat) (f : Stream → Stream) : (modStream s c k f).bankHits = s.bankHits := rfl
@[simp] theorem modStream_lpddr (c k : Nat) (f : Stream → Stream) : (modStream s c k f).lpddr = s.lpddr := rfl
@[simp] theorem modStream_lines (c k : Nat) (f : Stream → Stream) : (modStream s c k f).lines = s.lines := rfl
@[simp] theorem modStream_retiredPages (c k : Nat) (f : Stream → Stream) : (modStream s c k f).retiredPages = s.retiredPages := rfl
@[simp] theorem modStream_retiredBanks (c k : Nat) (f : Stream → Stream) : (modStream s c k f).retiredBanks = s.retiredBanks := rfl
@[simp] theorem modStream_cache (c k : Nat) (f : Stream → Stream) : (modStream s c k f).cache = s.cache := rfl
@[simp] theorem modStream_clusters (c k : Nat) (f : Stream → Stream) : (modStream s c k f).clusters = s.clusters := rfl
@[simp] theorem modStream_counters (c k : Nat) (f : Stream → Stream) : (modStream s c k f).counters = s.counters := rfl
@[simp] theorem modStream_syncQ (c k : Nat) (f : Stream → Stream) : (modStream s c k f).syncQ = s.syncQ := rfl
@[simp] theorem modStream_waiters (c k : Nat) (f : Stream → Stream) : (modStream s c k f).waiters = s.waiters := rfl
@[simp] theorem modStream_counts (c k : Nat) (f : Stream → Stream) : (modStream s c k f).counts = s.counts := rfl
@[simp] theorem modStream_leases (c k : Nat) (f : Stream → Stream) : (modStream s c k f).leases = s.leases := rfl
@[simp] theorem modStream_modId (c k : Nat) (f : Stream → Stream) : (modStream s c k f).modId = s.modId := rfl
@[simp] theorem modStream_ports (c k : Nat) (f : Stream → Stream) : (modStream s c k f).ports = s.ports := rfl
@[simp] theorem modStream_txns (c k : Nat) (f : Stream → Stream) : (modStream s c k f).txns = s.txns := rfl
@[simp] theorem modStream_nextTxn (c k : Nat) (f : Stream → Stream) : (modStream s c k f).nextTxn = s.nextTxn := rfl
@[simp] theorem modStream_sendWait (c k : Nat) (f : Stream → Stream) : (modStream s c k f).sendWait = s.sendWait := rfl
@[simp] theorem modStream_dups (c k : Nat) (f : Stream → Stream) : (modStream s c k f).dups = s.dups := rfl
@[simp] theorem modStream_fabDrops (c k : Nat) (f : Stream → Stream) : (modStream s c k f).fabDrops = s.fabDrops := rfl
@[simp] theorem modStream_lostMods (c k : Nat) (f : Stream → Stream) : (modStream s c k f).lostMods = s.lostMods := rfl
@[simp] theorem modStream_reds (c k : Nat) (f : Stream → Stream) : (modStream s c k f).reds = s.reds := rfl
@[simp] theorem modStream_stales (c k : Nat) (f : Stream → Stream) : (modStream s c k f).stales = s.stales := rfl
@[simp] theorem modStream_pipes (c k : Nat) (f : Stream → Stream) : (modStream s c k f).pipes = s.pipes := rfl
@[simp] theorem modStream_videoAny (c k : Nat) (f : Stream → Stream) : (modStream s c k f).videoAny = s.videoAny := rfl
@[simp] theorem modStream_videoStopped (c k : Nat) (f : Stream → Stream) : (modStream s c k f).videoStopped = s.videoStopped := rfl
@[simp] theorem modStream_riskEvents (c k : Nat) (f : Stream → Stream) : (modStream s c k f).riskEvents = s.riskEvents := rfl
@[simp] theorem modStream_riskScore (c k : Nat) (f : Stream → Stream) : (modStream s c k f).riskScore = s.riskScore := rfl
@[simp] theorem modStream_draining (c k : Nat) (f : Stream → Stream) : (modStream s c k f).draining = s.draining := rfl

/-! ### modCluster -/

@[simp] theorem modCluster_pending (c : Nat) (f : Cluster → Cluster) : (modCluster s c f).pending = s.pending := rfl
@[simp] theorem modCluster_fresh (c : Nat) (f : Cluster → Cluster) : (modCluster s c f).fresh = s.fresh := rfl
@[simp] theorem modCluster_outbox (c : Nat) (f : Cluster → Cluster) : (modCluster s c f).outbox = s.outbox := rfl
@[simp] theorem modCluster_life (c : Nat) (f : Cluster → Cluster) : (modCluster s c f).life = s.life := rfl
@[simp] theorem modCluster_mgmt (c : Nat) (f : Cluster → Cluster) : (modCluster s c f).mgmt = s.mgmt := rfl
@[simp] theorem modCluster_age (c : Nat) (f : Cluster → Cluster) : (modCluster s c f).age = s.age := rfl
@[simp] theorem modCluster_fw (c : Nat) (f : Cluster → Cluster) : (modCluster s c f).fw = s.fw := rfl
@[simp] theorem modCluster_postmark (c : Nat) (f : Cluster → Cluster) : (modCluster s c f).postmark = s.postmark := rfl
@[simp] theorem modCluster_timeOn (c : Nat) (f : Cluster → Cluster) : (modCluster s c f).timeOn = s.timeOn := rfl
@[simp] theorem modCluster_big (c : Nat) (f : Cluster → Cluster) : (modCluster s c f).big = s.big := rfl
@[simp] theorem modCluster_hstErr (c : Nat) (f : Cluster → Cluster) : (modCluster s c f).hstErr = s.hstErr := rfl
@[simp] theorem modCluster_hstErrEvents (c : Nat) (f : Cluster → Cluster) : (modCluster s c f).hstErrEvents = s.hstErrEvents := rfl
@[simp] theorem modCluster_rings (c : Nat) (f : Cluster → Cluster) : (modCluster s c f).rings = s.rings := rfl
@[simp] theorem modCluster_turn (c : Nat) (f : Cluster → Cluster) : (modCluster s c f).turn = s.turn := rfl
@[simp] theorem modCluster_slots (c : Nat) (f : Cluster → Cluster) : (modCluster s c f).slots = s.slots := rfl
@[simp] theorem modCluster_msix (c : Nat) (f : Cluster → Cluster) : (modCluster s c f).msix = s.msix := rfl
@[simp] theorem modCluster_msixPend (c : Nat) (f : Cluster → Cluster) : (modCluster s c f).msixPend = s.msixPend := rfl
@[simp] theorem modCluster_dead (c : Nat) (f : Cluster → Cluster) : (modCluster s c f).dead = s.dead := rfl
@[simp] theorem modCluster_deadCount (c : Nat) (f : Cluster → Cluster) : (modCluster s c f).deadCount = s.deadCount := rfl
@[simp] theorem modCluster_health (c : Nat) (f : Cluster → Cluster) : (modCluster s c f).health = s.health := rfl
@[simp] theorem modCluster_healthSeq (c : Nat) (f : Cluster → Cluster) : (modCluster s c f).healthSeq = s.healthSeq := rfl
@[simp] theorem modCluster_active (c : Nat) (f : Cluster → Cluster) : (modCluster s c f).active = s.active := rfl
@[simp] theorem modCluster_swaps (c : Nat) (f : Cluster → Cluster) : (modCluster s c f).swaps = s.swaps := rfl
@[simp] theorem modCluster_setA (c : Nat) (f : Cluster → Cluster) : (modCluster s c f).setA = s.setA := rfl
@[simp] theorem modCluster_setB (c : Nat) (f : Cluster → Cluster) : (modCluster s c f).setB = s.setB := rfl
@[simp] theorem modCluster_swap (c : Nat) (f : Cluster → Cluster) : (modCluster s c f).swap = s.swap := rfl
@[simp] theorem modCluster_measured (c : Nat) (f : Cluster → Cluster) : (modCluster s c f).measured = s.measured := rfl
@[simp] theorem modCluster_ctxs (c : Nat) (f : Cluster → Cluster) : (modCluster s c f).ctxs = s.ctxs := rfl
@[simp] theorem modCluster_keyDraws (c : Nat) (f : Cluster → Cluster) : (modCluster s c f).keyDraws = s.keyDraws := rfl
@[simp] theorem modCluster_hostMem (c : Nat) (f : Cluster → Cluster) : (modCluster s c f).hostMem = s.hostMem := rfl
@[simp] theorem modCluster_hostPoison (c : Nat) (f : Cluster → Cluster) : (modCluster s c f).hostPoison = s.hostPoison := rfl
@[simp] theorem modCluster_hostReject (c : Nat) (f : Cluster → Cluster) : (modCluster s c f).hostReject = s.hostReject := rfl
@[simp] theorem modCluster_hostLines (c : Nat) (f : Cluster → Cluster) : (modCluster s c f).hostLines = s.hostLines := rfl
@[simp] theorem modCluster_shared (c : Nat) (f : Cluster → Cluster) : (modCluster s c f).shared = s.shared := rfl
@[simp] theorem modCluster_sharedBad (c : Nat) (f : Cluster → Cluster) : (modCluster s c f).sharedBad = s.sharedBad := rfl
@[simp] theorem modCluster_bankHits (c : Nat) (f : Cluster → Cluster) : (modCluster s c f).bankHits = s.bankHits := rfl
@[simp] theorem modCluster_lpddr (c : Nat) (f : Cluster → Cluster) : (modCluster s c f).lpddr = s.lpddr := rfl
@[simp] theorem modCluster_lines (c : Nat) (f : Cluster → Cluster) : (modCluster s c f).lines = s.lines := rfl
@[simp] theorem modCluster_retiredPages (c : Nat) (f : Cluster → Cluster) : (modCluster s c f).retiredPages = s.retiredPages := rfl
@[simp] theorem modCluster_retiredBanks (c : Nat) (f : Cluster → Cluster) : (modCluster s c f).retiredBanks = s.retiredBanks := rfl
@[simp] theorem modCluster_cache (c : Nat) (f : Cluster → Cluster) : (modCluster s c f).cache = s.cache := rfl
@[simp] theorem modCluster_cores (c : Nat) (f : Cluster → Cluster) : (modCluster s c f).cores = s.cores := rfl
@[simp] theorem modCluster_counters (c : Nat) (f : Cluster → Cluster) : (modCluster s c f).counters = s.counters := rfl
@[simp] theorem modCluster_syncQ (c : Nat) (f : Cluster → Cluster) : (modCluster s c f).syncQ = s.syncQ := rfl
@[simp] theorem modCluster_waiters (c : Nat) (f : Cluster → Cluster) : (modCluster s c f).waiters = s.waiters := rfl
@[simp] theorem modCluster_counts (c : Nat) (f : Cluster → Cluster) : (modCluster s c f).counts = s.counts := rfl
@[simp] theorem modCluster_leases (c : Nat) (f : Cluster → Cluster) : (modCluster s c f).leases = s.leases := rfl
@[simp] theorem modCluster_modId (c : Nat) (f : Cluster → Cluster) : (modCluster s c f).modId = s.modId := rfl
@[simp] theorem modCluster_ports (c : Nat) (f : Cluster → Cluster) : (modCluster s c f).ports = s.ports := rfl
@[simp] theorem modCluster_txns (c : Nat) (f : Cluster → Cluster) : (modCluster s c f).txns = s.txns := rfl
@[simp] theorem modCluster_nextTxn (c : Nat) (f : Cluster → Cluster) : (modCluster s c f).nextTxn = s.nextTxn := rfl
@[simp] theorem modCluster_sendWait (c : Nat) (f : Cluster → Cluster) : (modCluster s c f).sendWait = s.sendWait := rfl
@[simp] theorem modCluster_dups (c : Nat) (f : Cluster → Cluster) : (modCluster s c f).dups = s.dups := rfl
@[simp] theorem modCluster_fabDrops (c : Nat) (f : Cluster → Cluster) : (modCluster s c f).fabDrops = s.fabDrops := rfl
@[simp] theorem modCluster_lostMods (c : Nat) (f : Cluster → Cluster) : (modCluster s c f).lostMods = s.lostMods := rfl
@[simp] theorem modCluster_reds (c : Nat) (f : Cluster → Cluster) : (modCluster s c f).reds = s.reds := rfl
@[simp] theorem modCluster_stales (c : Nat) (f : Cluster → Cluster) : (modCluster s c f).stales = s.stales := rfl
@[simp] theorem modCluster_pipes (c : Nat) (f : Cluster → Cluster) : (modCluster s c f).pipes = s.pipes := rfl
@[simp] theorem modCluster_videoAny (c : Nat) (f : Cluster → Cluster) : (modCluster s c f).videoAny = s.videoAny := rfl
@[simp] theorem modCluster_videoStopped (c : Nat) (f : Cluster → Cluster) : (modCluster s c f).videoStopped = s.videoStopped := rfl
@[simp] theorem modCluster_riskEvents (c : Nat) (f : Cluster → Cluster) : (modCluster s c f).riskEvents = s.riskEvents := rfl
@[simp] theorem modCluster_riskScore (c : Nat) (f : Cluster → Cluster) : (modCluster s c f).riskScore = s.riskScore := rfl
@[simp] theorem modCluster_draining (c : Nat) (f : Cluster → Cluster) : (modCluster s c f).draining = s.draining := rfl

/-! ### modPort -/

@[simp] theorem modPort_pending (p : Nat) (f : Port → Port) : (modPort s p f).pending = s.pending := rfl
@[simp] theorem modPort_fresh (p : Nat) (f : Port → Port) : (modPort s p f).fresh = s.fresh := rfl
@[simp] theorem modPort_outbox (p : Nat) (f : Port → Port) : (modPort s p f).outbox = s.outbox := rfl
@[simp] theorem modPort_life (p : Nat) (f : Port → Port) : (modPort s p f).life = s.life := rfl
@[simp] theorem modPort_mgmt (p : Nat) (f : Port → Port) : (modPort s p f).mgmt = s.mgmt := rfl
@[simp] theorem modPort_age (p : Nat) (f : Port → Port) : (modPort s p f).age = s.age := rfl
@[simp] theorem modPort_fw (p : Nat) (f : Port → Port) : (modPort s p f).fw = s.fw := rfl
@[simp] theorem modPort_postmark (p : Nat) (f : Port → Port) : (modPort s p f).postmark = s.postmark := rfl
@[simp] theorem modPort_timeOn (p : Nat) (f : Port → Port) : (modPort s p f).timeOn = s.timeOn := rfl
@[simp] theorem modPort_big (p : Nat) (f : Port → Port) : (modPort s p f).big = s.big := rfl
@[simp] theorem modPort_hstErr (p : Nat) (f : Port → Port) : (modPort s p f).hstErr = s.hstErr := rfl
@[simp] theorem modPort_hstErrEvents (p : Nat) (f : Port → Port) : (modPort s p f).hstErrEvents = s.hstErrEvents := rfl
@[simp] theorem modPort_rings (p : Nat) (f : Port → Port) : (modPort s p f).rings = s.rings := rfl
@[simp] theorem modPort_turn (p : Nat) (f : Port → Port) : (modPort s p f).turn = s.turn := rfl
@[simp] theorem modPort_slots (p : Nat) (f : Port → Port) : (modPort s p f).slots = s.slots := rfl
@[simp] theorem modPort_msix (p : Nat) (f : Port → Port) : (modPort s p f).msix = s.msix := rfl
@[simp] theorem modPort_msixPend (p : Nat) (f : Port → Port) : (modPort s p f).msixPend = s.msixPend := rfl
@[simp] theorem modPort_dead (p : Nat) (f : Port → Port) : (modPort s p f).dead = s.dead := rfl
@[simp] theorem modPort_deadCount (p : Nat) (f : Port → Port) : (modPort s p f).deadCount = s.deadCount := rfl
@[simp] theorem modPort_health (p : Nat) (f : Port → Port) : (modPort s p f).health = s.health := rfl
@[simp] theorem modPort_healthSeq (p : Nat) (f : Port → Port) : (modPort s p f).healthSeq = s.healthSeq := rfl
@[simp] theorem modPort_active (p : Nat) (f : Port → Port) : (modPort s p f).active = s.active := rfl
@[simp] theorem modPort_swaps (p : Nat) (f : Port → Port) : (modPort s p f).swaps = s.swaps := rfl
@[simp] theorem modPort_setA (p : Nat) (f : Port → Port) : (modPort s p f).setA = s.setA := rfl
@[simp] theorem modPort_setB (p : Nat) (f : Port → Port) : (modPort s p f).setB = s.setB := rfl
@[simp] theorem modPort_swap (p : Nat) (f : Port → Port) : (modPort s p f).swap = s.swap := rfl
@[simp] theorem modPort_measured (p : Nat) (f : Port → Port) : (modPort s p f).measured = s.measured := rfl
@[simp] theorem modPort_ctxs (p : Nat) (f : Port → Port) : (modPort s p f).ctxs = s.ctxs := rfl
@[simp] theorem modPort_keyDraws (p : Nat) (f : Port → Port) : (modPort s p f).keyDraws = s.keyDraws := rfl
@[simp] theorem modPort_hostMem (p : Nat) (f : Port → Port) : (modPort s p f).hostMem = s.hostMem := rfl
@[simp] theorem modPort_hostPoison (p : Nat) (f : Port → Port) : (modPort s p f).hostPoison = s.hostPoison := rfl
@[simp] theorem modPort_hostReject (p : Nat) (f : Port → Port) : (modPort s p f).hostReject = s.hostReject := rfl
@[simp] theorem modPort_hostLines (p : Nat) (f : Port → Port) : (modPort s p f).hostLines = s.hostLines := rfl
@[simp] theorem modPort_shared (p : Nat) (f : Port → Port) : (modPort s p f).shared = s.shared := rfl
@[simp] theorem modPort_sharedBad (p : Nat) (f : Port → Port) : (modPort s p f).sharedBad = s.sharedBad := rfl
@[simp] theorem modPort_bankHits (p : Nat) (f : Port → Port) : (modPort s p f).bankHits = s.bankHits := rfl
@[simp] theorem modPort_lpddr (p : Nat) (f : Port → Port) : (modPort s p f).lpddr = s.lpddr := rfl
@[simp] theorem modPort_lines (p : Nat) (f : Port → Port) : (modPort s p f).lines = s.lines := rfl
@[simp] theorem modPort_retiredPages (p : Nat) (f : Port → Port) : (modPort s p f).retiredPages = s.retiredPages := rfl
@[simp] theorem modPort_retiredBanks (p : Nat) (f : Port → Port) : (modPort s p f).retiredBanks = s.retiredBanks := rfl
@[simp] theorem modPort_cache (p : Nat) (f : Port → Port) : (modPort s p f).cache = s.cache := rfl
@[simp] theorem modPort_cores (p : Nat) (f : Port → Port) : (modPort s p f).cores = s.cores := rfl
@[simp] theorem modPort_clusters (p : Nat) (f : Port → Port) : (modPort s p f).clusters = s.clusters := rfl
@[simp] theorem modPort_counters (p : Nat) (f : Port → Port) : (modPort s p f).counters = s.counters := rfl
@[simp] theorem modPort_syncQ (p : Nat) (f : Port → Port) : (modPort s p f).syncQ = s.syncQ := rfl
@[simp] theorem modPort_waiters (p : Nat) (f : Port → Port) : (modPort s p f).waiters = s.waiters := rfl
@[simp] theorem modPort_counts (p : Nat) (f : Port → Port) : (modPort s p f).counts = s.counts := rfl
@[simp] theorem modPort_leases (p : Nat) (f : Port → Port) : (modPort s p f).leases = s.leases := rfl
@[simp] theorem modPort_modId (p : Nat) (f : Port → Port) : (modPort s p f).modId = s.modId := rfl
@[simp] theorem modPort_txns (p : Nat) (f : Port → Port) : (modPort s p f).txns = s.txns := rfl
@[simp] theorem modPort_nextTxn (p : Nat) (f : Port → Port) : (modPort s p f).nextTxn = s.nextTxn := rfl
@[simp] theorem modPort_sendWait (p : Nat) (f : Port → Port) : (modPort s p f).sendWait = s.sendWait := rfl
@[simp] theorem modPort_dups (p : Nat) (f : Port → Port) : (modPort s p f).dups = s.dups := rfl
@[simp] theorem modPort_fabDrops (p : Nat) (f : Port → Port) : (modPort s p f).fabDrops = s.fabDrops := rfl
@[simp] theorem modPort_lostMods (p : Nat) (f : Port → Port) : (modPort s p f).lostMods = s.lostMods := rfl
@[simp] theorem modPort_reds (p : Nat) (f : Port → Port) : (modPort s p f).reds = s.reds := rfl
@[simp] theorem modPort_stales (p : Nat) (f : Port → Port) : (modPort s p f).stales = s.stales := rfl
@[simp] theorem modPort_pipes (p : Nat) (f : Port → Port) : (modPort s p f).pipes = s.pipes := rfl
@[simp] theorem modPort_videoAny (p : Nat) (f : Port → Port) : (modPort s p f).videoAny = s.videoAny := rfl
@[simp] theorem modPort_videoStopped (p : Nat) (f : Port → Port) : (modPort s p f).videoStopped = s.videoStopped := rfl
@[simp] theorem modPort_riskEvents (p : Nat) (f : Port → Port) : (modPort s p f).riskEvents = s.riskEvents := rfl
@[simp] theorem modPort_riskScore (p : Nat) (f : Port → Port) : (modPort s p f).riskScore = s.riskScore := rfl
@[simp] theorem modPort_draining (p : Nat) (f : Port → Port) : (modPort s p f).draining = s.draining := rfl

/-! ### modPipe -/

@[simp] theorem modPipe_pending (i : Nat) (f : VideoPipe → VideoPipe) : (modPipe s i f).pending = s.pending := rfl
@[simp] theorem modPipe_fresh (i : Nat) (f : VideoPipe → VideoPipe) : (modPipe s i f).fresh = s.fresh := rfl
@[simp] theorem modPipe_outbox (i : Nat) (f : VideoPipe → VideoPipe) : (modPipe s i f).outbox = s.outbox := rfl
@[simp] theorem modPipe_life (i : Nat) (f : VideoPipe → VideoPipe) : (modPipe s i f).life = s.life := rfl
@[simp] theorem modPipe_mgmt (i : Nat) (f : VideoPipe → VideoPipe) : (modPipe s i f).mgmt = s.mgmt := rfl
@[simp] theorem modPipe_age (i : Nat) (f : VideoPipe → VideoPipe) : (modPipe s i f).age = s.age := rfl
@[simp] theorem modPipe_fw (i : Nat) (f : VideoPipe → VideoPipe) : (modPipe s i f).fw = s.fw := rfl
@[simp] theorem modPipe_postmark (i : Nat) (f : VideoPipe → VideoPipe) : (modPipe s i f).postmark = s.postmark := rfl
@[simp] theorem modPipe_timeOn (i : Nat) (f : VideoPipe → VideoPipe) : (modPipe s i f).timeOn = s.timeOn := rfl
@[simp] theorem modPipe_big (i : Nat) (f : VideoPipe → VideoPipe) : (modPipe s i f).big = s.big := rfl
@[simp] theorem modPipe_hstErr (i : Nat) (f : VideoPipe → VideoPipe) : (modPipe s i f).hstErr = s.hstErr := rfl
@[simp] theorem modPipe_hstErrEvents (i : Nat) (f : VideoPipe → VideoPipe) : (modPipe s i f).hstErrEvents = s.hstErrEvents := rfl
@[simp] theorem modPipe_rings (i : Nat) (f : VideoPipe → VideoPipe) : (modPipe s i f).rings = s.rings := rfl
@[simp] theorem modPipe_turn (i : Nat) (f : VideoPipe → VideoPipe) : (modPipe s i f).turn = s.turn := rfl
@[simp] theorem modPipe_slots (i : Nat) (f : VideoPipe → VideoPipe) : (modPipe s i f).slots = s.slots := rfl
@[simp] theorem modPipe_msix (i : Nat) (f : VideoPipe → VideoPipe) : (modPipe s i f).msix = s.msix := rfl
@[simp] theorem modPipe_msixPend (i : Nat) (f : VideoPipe → VideoPipe) : (modPipe s i f).msixPend = s.msixPend := rfl
@[simp] theorem modPipe_dead (i : Nat) (f : VideoPipe → VideoPipe) : (modPipe s i f).dead = s.dead := rfl
@[simp] theorem modPipe_deadCount (i : Nat) (f : VideoPipe → VideoPipe) : (modPipe s i f).deadCount = s.deadCount := rfl
@[simp] theorem modPipe_health (i : Nat) (f : VideoPipe → VideoPipe) : (modPipe s i f).health = s.health := rfl
@[simp] theorem modPipe_healthSeq (i : Nat) (f : VideoPipe → VideoPipe) : (modPipe s i f).healthSeq = s.healthSeq := rfl
@[simp] theorem modPipe_active (i : Nat) (f : VideoPipe → VideoPipe) : (modPipe s i f).active = s.active := rfl
@[simp] theorem modPipe_swaps (i : Nat) (f : VideoPipe → VideoPipe) : (modPipe s i f).swaps = s.swaps := rfl
@[simp] theorem modPipe_setA (i : Nat) (f : VideoPipe → VideoPipe) : (modPipe s i f).setA = s.setA := rfl
@[simp] theorem modPipe_setB (i : Nat) (f : VideoPipe → VideoPipe) : (modPipe s i f).setB = s.setB := rfl
@[simp] theorem modPipe_swap (i : Nat) (f : VideoPipe → VideoPipe) : (modPipe s i f).swap = s.swap := rfl
@[simp] theorem modPipe_measured (i : Nat) (f : VideoPipe → VideoPipe) : (modPipe s i f).measured = s.measured := rfl
@[simp] theorem modPipe_ctxs (i : Nat) (f : VideoPipe → VideoPipe) : (modPipe s i f).ctxs = s.ctxs := rfl
@[simp] theorem modPipe_keyDraws (i : Nat) (f : VideoPipe → VideoPipe) : (modPipe s i f).keyDraws = s.keyDraws := rfl
@[simp] theorem modPipe_hostMem (i : Nat) (f : VideoPipe → VideoPipe) : (modPipe s i f).hostMem = s.hostMem := rfl
@[simp] theorem modPipe_hostPoison (i : Nat) (f : VideoPipe → VideoPipe) : (modPipe s i f).hostPoison = s.hostPoison := rfl
@[simp] theorem modPipe_hostReject (i : Nat) (f : VideoPipe → VideoPipe) : (modPipe s i f).hostReject = s.hostReject := rfl
@[simp] theorem modPipe_hostLines (i : Nat) (f : VideoPipe → VideoPipe) : (modPipe s i f).hostLines = s.hostLines := rfl
@[simp] theorem modPipe_shared (i : Nat) (f : VideoPipe → VideoPipe) : (modPipe s i f).shared = s.shared := rfl
@[simp] theorem modPipe_sharedBad (i : Nat) (f : VideoPipe → VideoPipe) : (modPipe s i f).sharedBad = s.sharedBad := rfl
@[simp] theorem modPipe_bankHits (i : Nat) (f : VideoPipe → VideoPipe) : (modPipe s i f).bankHits = s.bankHits := rfl
@[simp] theorem modPipe_lpddr (i : Nat) (f : VideoPipe → VideoPipe) : (modPipe s i f).lpddr = s.lpddr := rfl
@[simp] theorem modPipe_lines (i : Nat) (f : VideoPipe → VideoPipe) : (modPipe s i f).lines = s.lines := rfl
@[simp] theorem modPipe_retiredPages (i : Nat) (f : VideoPipe → VideoPipe) : (modPipe s i f).retiredPages = s.retiredPages := rfl
@[simp] theorem modPipe_retiredBanks (i : Nat) (f : VideoPipe → VideoPipe) : (modPipe s i f).retiredBanks = s.retiredBanks := rfl
@[simp] theorem modPipe_cache (i : Nat) (f : VideoPipe → VideoPipe) : (modPipe s i f).cache = s.cache := rfl
@[simp] theorem modPipe_cores (i : Nat) (f : VideoPipe → VideoPipe) : (modPipe s i f).cores = s.cores := rfl
@[simp] theorem modPipe_clusters (i : Nat) (f : VideoPipe → VideoPipe) : (modPipe s i f).clusters = s.clusters := rfl
@[simp] theorem modPipe_counters (i : Nat) (f : VideoPipe → VideoPipe) : (modPipe s i f).counters = s.counters := rfl
@[simp] theorem modPipe_syncQ (i : Nat) (f : VideoPipe → VideoPipe) : (modPipe s i f).syncQ = s.syncQ := rfl
@[simp] theorem modPipe_waiters (i : Nat) (f : VideoPipe → VideoPipe) : (modPipe s i f).waiters = s.waiters := rfl
@[simp] theorem modPipe_counts (i : Nat) (f : VideoPipe → VideoPipe) : (modPipe s i f).counts = s.counts := rfl
@[simp] theorem modPipe_leases (i : Nat) (f : VideoPipe → VideoPipe) : (modPipe s i f).leases = s.leases := rfl
@[simp] theorem modPipe_modId (i : Nat) (f : VideoPipe → VideoPipe) : (modPipe s i f).modId = s.modId := rfl
@[simp] theorem modPipe_ports (i : Nat) (f : VideoPipe → VideoPipe) : (modPipe s i f).ports = s.ports := rfl
@[simp] theorem modPipe_txns (i : Nat) (f : VideoPipe → VideoPipe) : (modPipe s i f).txns = s.txns := rfl
@[simp] theorem modPipe_nextTxn (i : Nat) (f : VideoPipe → VideoPipe) : (modPipe s i f).nextTxn = s.nextTxn := rfl
@[simp] theorem modPipe_sendWait (i : Nat) (f : VideoPipe → VideoPipe) : (modPipe s i f).sendWait = s.sendWait := rfl
@[simp] theorem modPipe_dups (i : Nat) (f : VideoPipe → VideoPipe) : (modPipe s i f).dups = s.dups := rfl
@[simp] theorem modPipe_fabDrops (i : Nat) (f : VideoPipe → VideoPipe) : (modPipe s i f).fabDrops = s.fabDrops := rfl
@[simp] theorem modPipe_lostMods (i : Nat) (f : VideoPipe → VideoPipe) : (modPipe s i f).lostMods = s.lostMods := rfl
@[simp] theorem modPipe_reds (i : Nat) (f : VideoPipe → VideoPipe) : (modPipe s i f).reds = s.reds := rfl
@[simp] theorem modPipe_stales (i : Nat) (f : VideoPipe → VideoPipe) : (modPipe s i f).stales = s.stales := rfl
@[simp] theorem modPipe_videoAny (i : Nat) (f : VideoPipe → VideoPipe) : (modPipe s i f).videoAny = s.videoAny := rfl
@[simp] theorem modPipe_videoStopped (i : Nat) (f : VideoPipe → VideoPipe) : (modPipe s i f).videoStopped = s.videoStopped := rfl
@[simp] theorem modPipe_riskEvents (i : Nat) (f : VideoPipe → VideoPipe) : (modPipe s i f).riskEvents = s.riskEvents := rfl
@[simp] theorem modPipe_riskScore (i : Nat) (f : VideoPipe → VideoPipe) : (modPipe s i f).riskScore = s.riskScore := rfl
@[simp] theorem modPipe_draining (i : Nat) (f : VideoPipe → VideoPipe) : (modPipe s i f).draining = s.draining := rfl

/-! ### modSlot -/

@[simp] theorem modSlot_pending (n : Nat) (f : CtxSlot → CtxSlot) : (modSlot s n f).pending = s.pending := rfl
@[simp] theorem modSlot_fresh (n : Nat) (f : CtxSlot → CtxSlot) : (modSlot s n f).fresh = s.fresh := rfl
@[simp] theorem modSlot_outbox (n : Nat) (f : CtxSlot → CtxSlot) : (modSlot s n f).outbox = s.outbox := rfl
@[simp] theorem modSlot_life (n : Nat) (f : CtxSlot → CtxSlot) : (modSlot s n f).life = s.life := rfl
@[simp] theorem modSlot_mgmt (n : Nat) (f : CtxSlot → CtxSlot) : (modSlot s n f).mgmt = s.mgmt := rfl
@[simp] theorem modSlot_age (n : Nat) (f : CtxSlot → CtxSlot) : (modSlot s n f).age = s.age := rfl
@[simp] theorem modSlot_fw (n : Nat) (f : CtxSlot → CtxSlot) : (modSlot s n f).fw = s.fw := rfl
@[simp] theorem modSlot_postmark (n : Nat) (f : CtxSlot → CtxSlot) : (modSlot s n f).postmark = s.postmark := rfl
@[simp] theorem modSlot_timeOn (n : Nat) (f : CtxSlot → CtxSlot) : (modSlot s n f).timeOn = s.timeOn := rfl
@[simp] theorem modSlot_big (n : Nat) (f : CtxSlot → CtxSlot) : (modSlot s n f).big = s.big := rfl
@[simp] theorem modSlot_hstErr (n : Nat) (f : CtxSlot → CtxSlot) : (modSlot s n f).hstErr = s.hstErr := rfl
@[simp] theorem modSlot_hstErrEvents (n : Nat) (f : CtxSlot → CtxSlot) : (modSlot s n f).hstErrEvents = s.hstErrEvents := rfl
@[simp] theorem modSlot_rings (n : Nat) (f : CtxSlot → CtxSlot) : (modSlot s n f).rings = s.rings := rfl
@[simp] theorem modSlot_turn (n : Nat) (f : CtxSlot → CtxSlot) : (modSlot s n f).turn = s.turn := rfl
@[simp] theorem modSlot_slots (n : Nat) (f : CtxSlot → CtxSlot) : (modSlot s n f).slots = s.slots := rfl
@[simp] theorem modSlot_msix (n : Nat) (f : CtxSlot → CtxSlot) : (modSlot s n f).msix = s.msix := rfl
@[simp] theorem modSlot_msixPend (n : Nat) (f : CtxSlot → CtxSlot) : (modSlot s n f).msixPend = s.msixPend := rfl
@[simp] theorem modSlot_dead (n : Nat) (f : CtxSlot → CtxSlot) : (modSlot s n f).dead = s.dead := rfl
@[simp] theorem modSlot_deadCount (n : Nat) (f : CtxSlot → CtxSlot) : (modSlot s n f).deadCount = s.deadCount := rfl
@[simp] theorem modSlot_health (n : Nat) (f : CtxSlot → CtxSlot) : (modSlot s n f).health = s.health := rfl
@[simp] theorem modSlot_healthSeq (n : Nat) (f : CtxSlot → CtxSlot) : (modSlot s n f).healthSeq = s.healthSeq := rfl
@[simp] theorem modSlot_active (n : Nat) (f : CtxSlot → CtxSlot) : (modSlot s n f).active = s.active := rfl
@[simp] theorem modSlot_swaps (n : Nat) (f : CtxSlot → CtxSlot) : (modSlot s n f).swaps = s.swaps := rfl
@[simp] theorem modSlot_setA (n : Nat) (f : CtxSlot → CtxSlot) : (modSlot s n f).setA = s.setA := rfl
@[simp] theorem modSlot_setB (n : Nat) (f : CtxSlot → CtxSlot) : (modSlot s n f).setB = s.setB := rfl
@[simp] theorem modSlot_swap (n : Nat) (f : CtxSlot → CtxSlot) : (modSlot s n f).swap = s.swap := rfl
@[simp] theorem modSlot_measured (n : Nat) (f : CtxSlot → CtxSlot) : (modSlot s n f).measured = s.measured := rfl
@[simp] theorem modSlot_keyDraws (n : Nat) (f : CtxSlot → CtxSlot) : (modSlot s n f).keyDraws = s.keyDraws := rfl
@[simp] theorem modSlot_hostMem (n : Nat) (f : CtxSlot → CtxSlot) : (modSlot s n f).hostMem = s.hostMem := rfl
@[simp] theorem modSlot_hostPoison (n : Nat) (f : CtxSlot → CtxSlot) : (modSlot s n f).hostPoison = s.hostPoison := rfl
@[simp] theorem modSlot_hostReject (n : Nat) (f : CtxSlot → CtxSlot) : (modSlot s n f).hostReject = s.hostReject := rfl
@[simp] theorem modSlot_hostLines (n : Nat) (f : CtxSlot → CtxSlot) : (modSlot s n f).hostLines = s.hostLines := rfl
@[simp] theorem modSlot_shared (n : Nat) (f : CtxSlot → CtxSlot) : (modSlot s n f).shared = s.shared := rfl
@[simp] theorem modSlot_sharedBad (n : Nat) (f : CtxSlot → CtxSlot) : (modSlot s n f).sharedBad = s.sharedBad := rfl
@[simp] theorem modSlot_bankHits (n : Nat) (f : CtxSlot → CtxSlot) : (modSlot s n f).bankHits = s.bankHits := rfl
@[simp] theorem modSlot_lpddr (n : Nat) (f : CtxSlot → CtxSlot) : (modSlot s n f).lpddr = s.lpddr := rfl
@[simp] theorem modSlot_lines (n : Nat) (f : CtxSlot → CtxSlot) : (modSlot s n f).lines = s.lines := rfl
@[simp] theorem modSlot_retiredPages (n : Nat) (f : CtxSlot → CtxSlot) : (modSlot s n f).retiredPages = s.retiredPages := rfl
@[simp] theorem modSlot_retiredBanks (n : Nat) (f : CtxSlot → CtxSlot) : (modSlot s n f).retiredBanks = s.retiredBanks := rfl
@[simp] theorem modSlot_cache (n : Nat) (f : CtxSlot → CtxSlot) : (modSlot s n f).cache = s.cache := rfl
@[simp] theorem modSlot_cores (n : Nat) (f : CtxSlot → CtxSlot) : (modSlot s n f).cores = s.cores := rfl
@[simp] theorem modSlot_clusters (n : Nat) (f : CtxSlot → CtxSlot) : (modSlot s n f).clusters = s.clusters := rfl
@[simp] theorem modSlot_counters (n : Nat) (f : CtxSlot → CtxSlot) : (modSlot s n f).counters = s.counters := rfl
@[simp] theorem modSlot_syncQ (n : Nat) (f : CtxSlot → CtxSlot) : (modSlot s n f).syncQ = s.syncQ := rfl
@[simp] theorem modSlot_waiters (n : Nat) (f : CtxSlot → CtxSlot) : (modSlot s n f).waiters = s.waiters := rfl
@[simp] theorem modSlot_counts (n : Nat) (f : CtxSlot → CtxSlot) : (modSlot s n f).counts = s.counts := rfl
@[simp] theorem modSlot_leases (n : Nat) (f : CtxSlot → CtxSlot) : (modSlot s n f).leases = s.leases := rfl
@[simp] theorem modSlot_modId (n : Nat) (f : CtxSlot → CtxSlot) : (modSlot s n f).modId = s.modId := rfl
@[simp] theorem modSlot_ports (n : Nat) (f : CtxSlot → CtxSlot) : (modSlot s n f).ports = s.ports := rfl
@[simp] theorem modSlot_txns (n : Nat) (f : CtxSlot → CtxSlot) : (modSlot s n f).txns = s.txns := rfl
@[simp] theorem modSlot_nextTxn (n : Nat) (f : CtxSlot → CtxSlot) : (modSlot s n f).nextTxn = s.nextTxn := rfl
@[simp] theorem modSlot_sendWait (n : Nat) (f : CtxSlot → CtxSlot) : (modSlot s n f).sendWait = s.sendWait := rfl
@[simp] theorem modSlot_dups (n : Nat) (f : CtxSlot → CtxSlot) : (modSlot s n f).dups = s.dups := rfl
@[simp] theorem modSlot_fabDrops (n : Nat) (f : CtxSlot → CtxSlot) : (modSlot s n f).fabDrops = s.fabDrops := rfl
@[simp] theorem modSlot_lostMods (n : Nat) (f : CtxSlot → CtxSlot) : (modSlot s n f).lostMods = s.lostMods := rfl
@[simp] theorem modSlot_reds (n : Nat) (f : CtxSlot → CtxSlot) : (modSlot s n f).reds = s.reds := rfl
@[simp] theorem modSlot_stales (n : Nat) (f : CtxSlot → CtxSlot) : (modSlot s n f).stales = s.stales := rfl
@[simp] theorem modSlot_pipes (n : Nat) (f : CtxSlot → CtxSlot) : (modSlot s n f).pipes = s.pipes := rfl
@[simp] theorem modSlot_videoAny (n : Nat) (f : CtxSlot → CtxSlot) : (modSlot s n f).videoAny = s.videoAny := rfl
@[simp] theorem modSlot_videoStopped (n : Nat) (f : CtxSlot → CtxSlot) : (modSlot s n f).videoStopped = s.videoStopped := rfl
@[simp] theorem modSlot_riskEvents (n : Nat) (f : CtxSlot → CtxSlot) : (modSlot s n f).riskEvents = s.riskEvents := rfl
@[simp] theorem modSlot_riskScore (n : Nat) (f : CtxSlot → CtxSlot) : (modSlot s n f).riskScore = s.riskScore := rfl
@[simp] theorem modSlot_draining (n : Nat) (f : CtxSlot → CtxSlot) : (modSlot s n f).draining = s.draining := rfl

/-! ### modCtx -/

@[simp] theorem modCtx_pending (n : Nat) (f : Ctx → Ctx) : (modCtx s n f).pending = s.pending := rfl
@[simp] theorem modCtx_fresh (n : Nat) (f : Ctx → Ctx) : (modCtx s n f).fresh = s.fresh := rfl
@[simp] theorem modCtx_outbox (n : Nat) (f : Ctx → Ctx) : (modCtx s n f).outbox = s.outbox := rfl
@[simp] theorem modCtx_life (n : Nat) (f : Ctx → Ctx) : (modCtx s n f).life = s.life := rfl
@[simp] theorem modCtx_mgmt (n : Nat) (f : Ctx → Ctx) : (modCtx s n f).mgmt = s.mgmt := rfl
@[simp] theorem modCtx_age (n : Nat) (f : Ctx → Ctx) : (modCtx s n f).age = s.age := rfl
@[simp] theorem modCtx_fw (n : Nat) (f : Ctx → Ctx) : (modCtx s n f).fw = s.fw := rfl
@[simp] theorem modCtx_postmark (n : Nat) (f : Ctx → Ctx) : (modCtx s n f).postmark = s.postmark := rfl
@[simp] theorem modCtx_timeOn (n : Nat) (f : Ctx → Ctx) : (modCtx s n f).timeOn = s.timeOn := rfl
@[simp] theorem modCtx_big (n : Nat) (f : Ctx → Ctx) : (modCtx s n f).big = s.big := rfl
@[simp] theorem modCtx_hstErr (n : Nat) (f : Ctx → Ctx) : (modCtx s n f).hstErr = s.hstErr := rfl
@[simp] theorem modCtx_hstErrEvents (n : Nat) (f : Ctx → Ctx) : (modCtx s n f).hstErrEvents = s.hstErrEvents := rfl
@[simp] theorem modCtx_rings (n : Nat) (f : Ctx → Ctx) : (modCtx s n f).rings = s.rings := rfl
@[simp] theorem modCtx_turn (n : Nat) (f : Ctx → Ctx) : (modCtx s n f).turn = s.turn := rfl
@[simp] theorem modCtx_slots (n : Nat) (f : Ctx → Ctx) : (modCtx s n f).slots = s.slots := rfl
@[simp] theorem modCtx_msix (n : Nat) (f : Ctx → Ctx) : (modCtx s n f).msix = s.msix := rfl
@[simp] theorem modCtx_msixPend (n : Nat) (f : Ctx → Ctx) : (modCtx s n f).msixPend = s.msixPend := rfl
@[simp] theorem modCtx_dead (n : Nat) (f : Ctx → Ctx) : (modCtx s n f).dead = s.dead := rfl
@[simp] theorem modCtx_deadCount (n : Nat) (f : Ctx → Ctx) : (modCtx s n f).deadCount = s.deadCount := rfl
@[simp] theorem modCtx_health (n : Nat) (f : Ctx → Ctx) : (modCtx s n f).health = s.health := rfl
@[simp] theorem modCtx_healthSeq (n : Nat) (f : Ctx → Ctx) : (modCtx s n f).healthSeq = s.healthSeq := rfl
@[simp] theorem modCtx_active (n : Nat) (f : Ctx → Ctx) : (modCtx s n f).active = s.active := rfl
@[simp] theorem modCtx_swaps (n : Nat) (f : Ctx → Ctx) : (modCtx s n f).swaps = s.swaps := rfl
@[simp] theorem modCtx_setA (n : Nat) (f : Ctx → Ctx) : (modCtx s n f).setA = s.setA := rfl
@[simp] theorem modCtx_setB (n : Nat) (f : Ctx → Ctx) : (modCtx s n f).setB = s.setB := rfl
@[simp] theorem modCtx_swap (n : Nat) (f : Ctx → Ctx) : (modCtx s n f).swap = s.swap := rfl
@[simp] theorem modCtx_measured (n : Nat) (f : Ctx → Ctx) : (modCtx s n f).measured = s.measured := rfl
@[simp] theorem modCtx_keyDraws (n : Nat) (f : Ctx → Ctx) : (modCtx s n f).keyDraws = s.keyDraws := rfl
@[simp] theorem modCtx_hostMem (n : Nat) (f : Ctx → Ctx) : (modCtx s n f).hostMem = s.hostMem := rfl
@[simp] theorem modCtx_hostPoison (n : Nat) (f : Ctx → Ctx) : (modCtx s n f).hostPoison = s.hostPoison := rfl
@[simp] theorem modCtx_hostReject (n : Nat) (f : Ctx → Ctx) : (modCtx s n f).hostReject = s.hostReject := rfl
@[simp] theorem modCtx_hostLines (n : Nat) (f : Ctx → Ctx) : (modCtx s n f).hostLines = s.hostLines := rfl
@[simp] theorem modCtx_shared (n : Nat) (f : Ctx → Ctx) : (modCtx s n f).shared = s.shared := rfl
@[simp] theorem modCtx_sharedBad (n : Nat) (f : Ctx → Ctx) : (modCtx s n f).sharedBad = s.sharedBad := rfl
@[simp] theorem modCtx_bankHits (n : Nat) (f : Ctx → Ctx) : (modCtx s n f).bankHits = s.bankHits := rfl
@[simp] theorem modCtx_lpddr (n : Nat) (f : Ctx → Ctx) : (modCtx s n f).lpddr = s.lpddr := rfl
@[simp] theorem modCtx_lines (n : Nat) (f : Ctx → Ctx) : (modCtx s n f).lines = s.lines := rfl
@[simp] theorem modCtx_retiredPages (n : Nat) (f : Ctx → Ctx) : (modCtx s n f).retiredPages = s.retiredPages := rfl
@[simp] theorem modCtx_retiredBanks (n : Nat) (f : Ctx → Ctx) : (modCtx s n f).retiredBanks = s.retiredBanks := rfl
@[simp] theorem modCtx_cache (n : Nat) (f : Ctx → Ctx) : (modCtx s n f).cache = s.cache := rfl
@[simp] theorem modCtx_cores (n : Nat) (f : Ctx → Ctx) : (modCtx s n f).cores = s.cores := rfl
@[simp] theorem modCtx_clusters (n : Nat) (f : Ctx → Ctx) : (modCtx s n f).clusters = s.clusters := rfl
@[simp] theorem modCtx_counters (n : Nat) (f : Ctx → Ctx) : (modCtx s n f).counters = s.counters := rfl
@[simp] theorem modCtx_syncQ (n : Nat) (f : Ctx → Ctx) : (modCtx s n f).syncQ = s.syncQ := rfl
@[simp] theorem modCtx_waiters (n : Nat) (f : Ctx → Ctx) : (modCtx s n f).waiters = s.waiters := rfl
@[simp] theorem modCtx_counts (n : Nat) (f : Ctx → Ctx) : (modCtx s n f).counts = s.counts := rfl
@[simp] theorem modCtx_leases (n : Nat) (f : Ctx → Ctx) : (modCtx s n f).leases = s.leases := rfl
@[simp] theorem modCtx_modId (n : Nat) (f : Ctx → Ctx) : (modCtx s n f).modId = s.modId := rfl
@[simp] theorem modCtx_ports (n : Nat) (f : Ctx → Ctx) : (modCtx s n f).ports = s.ports := rfl
@[simp] theorem modCtx_txns (n : Nat) (f : Ctx → Ctx) : (modCtx s n f).txns = s.txns := rfl
@[simp] theorem modCtx_nextTxn (n : Nat) (f : Ctx → Ctx) : (modCtx s n f).nextTxn = s.nextTxn := rfl
@[simp] theorem modCtx_sendWait (n : Nat) (f : Ctx → Ctx) : (modCtx s n f).sendWait = s.sendWait := rfl
@[simp] theorem modCtx_dups (n : Nat) (f : Ctx → Ctx) : (modCtx s n f).dups = s.dups := rfl
@[simp] theorem modCtx_fabDrops (n : Nat) (f : Ctx → Ctx) : (modCtx s n f).fabDrops = s.fabDrops := rfl
@[simp] theorem modCtx_lostMods (n : Nat) (f : Ctx → Ctx) : (modCtx s n f).lostMods = s.lostMods := rfl
@[simp] theorem modCtx_reds (n : Nat) (f : Ctx → Ctx) : (modCtx s n f).reds = s.reds := rfl
@[simp] theorem modCtx_stales (n : Nat) (f : Ctx → Ctx) : (modCtx s n f).stales = s.stales := rfl
@[simp] theorem modCtx_pipes (n : Nat) (f : Ctx → Ctx) : (modCtx s n f).pipes = s.pipes := rfl
@[simp] theorem modCtx_videoAny (n : Nat) (f : Ctx → Ctx) : (modCtx s n f).videoAny = s.videoAny := rfl
@[simp] theorem modCtx_videoStopped (n : Nat) (f : Ctx → Ctx) : (modCtx s n f).videoStopped = s.videoStopped := rfl
@[simp] theorem modCtx_riskEvents (n : Nat) (f : Ctx → Ctx) : (modCtx s n f).riskEvents = s.riskEvents := rfl
@[simp] theorem modCtx_riskScore (n : Nat) (f : Ctx → Ctx) : (modCtx s n f).riskScore = s.riskScore := rfl
@[simp] theorem modCtx_draining (n : Nat) (f : Ctx → Ctx) : (modCtx s n f).draining = s.draining := rfl

/-! ### emit -/

@[simp] theorem emit_pending (o : Output) : (emit s o).pending = s.pending := rfl
@[simp] theorem emit_fresh (o : Output) : (emit s o).fresh = s.fresh := rfl
@[simp] theorem emit_life (o : Output) : (emit s o).life = s.life := rfl
@[simp] theorem emit_mgmt (o : Output) : (emit s o).mgmt = s.mgmt := rfl
@[simp] theorem emit_age (o : Output) : (emit s o).age = s.age := rfl
@[simp] theorem emit_fw (o : Output) : (emit s o).fw = s.fw := rfl
@[simp] theorem emit_postmark (o : Output) : (emit s o).postmark = s.postmark := rfl
@[simp] theorem emit_timeOn (o : Output) : (emit s o).timeOn = s.timeOn := rfl
@[simp] theorem emit_big (o : Output) : (emit s o).big = s.big := rfl
@[simp] theorem emit_hstErr (o : Output) : (emit s o).hstErr = s.hstErr := rfl
@[simp] theorem emit_hstErrEvents (o : Output) : (emit s o).hstErrEvents = s.hstErrEvents := rfl
@[simp] theorem emit_rings (o : Output) : (emit s o).rings = s.rings := rfl
@[simp] theorem emit_turn (o : Output) : (emit s o).turn = s.turn := rfl
@[simp] theorem emit_slots (o : Output) : (emit s o).slots = s.slots := rfl
@[simp] theorem emit_msix (o : Output) : (emit s o).msix = s.msix := rfl
@[simp] theorem emit_msixPend (o : Output) : (emit s o).msixPend = s.msixPend := rfl
@[simp] theorem emit_dead (o : Output) : (emit s o).dead = s.dead := rfl
@[simp] theorem emit_deadCount (o : Output) : (emit s o).deadCount = s.deadCount := rfl
@[simp] theorem emit_health (o : Output) : (emit s o).health = s.health := rfl
@[simp] theorem emit_healthSeq (o : Output) : (emit s o).healthSeq = s.healthSeq := rfl
@[simp] theorem emit_active (o : Output) : (emit s o).active = s.active := rfl
@[simp] theorem emit_swaps (o : Output) : (emit s o).swaps = s.swaps := rfl
@[simp] theorem emit_setA (o : Output) : (emit s o).setA = s.setA := rfl
@[simp] theorem emit_setB (o : Output) : (emit s o).setB = s.setB := rfl
@[simp] theorem emit_swap (o : Output) : (emit s o).swap = s.swap := rfl
@[simp] theorem emit_measured (o : Output) : (emit s o).measured = s.measured := rfl
@[simp] theorem emit_ctxs (o : Output) : (emit s o).ctxs = s.ctxs := rfl
@[simp] theorem emit_keyDraws (o : Output) : (emit s o).keyDraws = s.keyDraws := rfl
@[simp] theorem emit_hostMem (o : Output) : (emit s o).hostMem = s.hostMem := rfl
@[simp] theorem emit_hostPoison (o : Output) : (emit s o).hostPoison = s.hostPoison := rfl
@[simp] theorem emit_hostReject (o : Output) : (emit s o).hostReject = s.hostReject := rfl
@[simp] theorem emit_hostLines (o : Output) : (emit s o).hostLines = s.hostLines := rfl
@[simp] theorem emit_shared (o : Output) : (emit s o).shared = s.shared := rfl
@[simp] theorem emit_sharedBad (o : Output) : (emit s o).sharedBad = s.sharedBad := rfl
@[simp] theorem emit_bankHits (o : Output) : (emit s o).bankHits = s.bankHits := rfl
@[simp] theorem emit_lpddr (o : Output) : (emit s o).lpddr = s.lpddr := rfl
@[simp] theorem emit_lines (o : Output) : (emit s o).lines = s.lines := rfl
@[simp] theorem emit_retiredPages (o : Output) : (emit s o).retiredPages = s.retiredPages := rfl
@[simp] theorem emit_retiredBanks (o : Output) : (emit s o).retiredBanks = s.retiredBanks := rfl
@[simp] theorem emit_cache (o : Output) : (emit s o).cache = s.cache := rfl
@[simp] theorem emit_cores (o : Output) : (emit s o).cores = s.cores := rfl
@[simp] theorem emit_clusters (o : Output) : (emit s o).clusters = s.clusters := rfl
@[simp] theorem emit_counters (o : Output) : (emit s o).counters = s.counters := rfl
@[simp] theorem emit_syncQ (o : Output) : (emit s o).syncQ = s.syncQ := rfl
@[simp] theorem emit_waiters (o : Output) : (emit s o).waiters = s.waiters := rfl
@[simp] theorem emit_counts (o : Output) : (emit s o).counts = s.counts := rfl
@[simp] theorem emit_leases (o : Output) : (emit s o).leases = s.leases := rfl
@[simp] theorem emit_modId (o : Output) : (emit s o).modId = s.modId := rfl
@[simp] theorem emit_ports (o : Output) : (emit s o).ports = s.ports := rfl
@[simp] theorem emit_txns (o : Output) : (emit s o).txns = s.txns := rfl
@[simp] theorem emit_nextTxn (o : Output) : (emit s o).nextTxn = s.nextTxn := rfl
@[simp] theorem emit_sendWait (o : Output) : (emit s o).sendWait = s.sendWait := rfl
@[simp] theorem emit_dups (o : Output) : (emit s o).dups = s.dups := rfl
@[simp] theorem emit_fabDrops (o : Output) : (emit s o).fabDrops = s.fabDrops := rfl
@[simp] theorem emit_lostMods (o : Output) : (emit s o).lostMods = s.lostMods := rfl
@[simp] theorem emit_reds (o : Output) : (emit s o).reds = s.reds := rfl
@[simp] theorem emit_stales (o : Output) : (emit s o).stales = s.stales := rfl
@[simp] theorem emit_pipes (o : Output) : (emit s o).pipes = s.pipes := rfl
@[simp] theorem emit_videoAny (o : Output) : (emit s o).videoAny = s.videoAny := rfl
@[simp] theorem emit_videoStopped (o : Output) : (emit s o).videoStopped = s.videoStopped := rfl
@[simp] theorem emit_riskEvents (o : Output) : (emit s o).riskEvents = s.riskEvents := rfl
@[simp] theorem emit_riskScore (o : Output) : (emit s o).riskScore = s.riskScore := rfl
@[simp] theorem emit_draining (o : Output) : (emit s o).draining = s.draining := rfl

/-! ### draw -/

@[simp] theorem draw_pending : (draw s).pending = s.pending := rfl
@[simp] theorem draw_outbox : (draw s).outbox = s.outbox := rfl
@[simp] theorem draw_life : (draw s).life = s.life := rfl
@[simp] theorem draw_mgmt : (draw s).mgmt = s.mgmt := rfl
@[simp] theorem draw_age : (draw s).age = s.age := rfl
@[simp] theorem draw_fw : (draw s).fw = s.fw := rfl
@[simp] theorem draw_postmark : (draw s).postmark = s.postmark := rfl
@[simp] theorem draw_timeOn : (draw s).timeOn = s.timeOn := rfl
@[simp] theorem draw_big : (draw s).big = s.big := rfl
@[simp] theorem draw_hstErr : (draw s).hstErr = s.hstErr := rfl
@[simp] theorem draw_hstErrEvents : (draw s).hstErrEvents = s.hstErrEvents := rfl
@[simp] theorem draw_rings : (draw s).rings = s.rings := rfl
@[simp] theorem draw_turn : (draw s).turn = s.turn := rfl
@[simp] theorem draw_slots : (draw s).slots = s.slots := rfl
@[simp] theorem draw_msix : (draw s).msix = s.msix := rfl
@[simp] theorem draw_msixPend : (draw s).msixPend = s.msixPend := rfl
@[simp] theorem draw_dead : (draw s).dead = s.dead := rfl
@[simp] theorem draw_deadCount : (draw s).deadCount = s.deadCount := rfl
@[simp] theorem draw_health : (draw s).health = s.health := rfl
@[simp] theorem draw_healthSeq : (draw s).healthSeq = s.healthSeq := rfl
@[simp] theorem draw_active : (draw s).active = s.active := rfl
@[simp] theorem draw_swaps : (draw s).swaps = s.swaps := rfl
@[simp] theorem draw_setA : (draw s).setA = s.setA := rfl
@[simp] theorem draw_setB : (draw s).setB = s.setB := rfl
@[simp] theorem draw_swap : (draw s).swap = s.swap := rfl
@[simp] theorem draw_measured : (draw s).measured = s.measured := rfl
@[simp] theorem draw_ctxs : (draw s).ctxs = s.ctxs := rfl
@[simp] theorem draw_keyDraws : (draw s).keyDraws = s.keyDraws := rfl
@[simp] theorem draw_hostMem : (draw s).hostMem = s.hostMem := rfl
@[simp] theorem draw_hostPoison : (draw s).hostPoison = s.hostPoison := rfl
@[simp] theorem draw_hostReject : (draw s).hostReject = s.hostReject := rfl
@[simp] theorem draw_hostLines : (draw s).hostLines = s.hostLines := rfl
@[simp] theorem draw_shared : (draw s).shared = s.shared := rfl
@[simp] theorem draw_sharedBad : (draw s).sharedBad = s.sharedBad := rfl
@[simp] theorem draw_bankHits : (draw s).bankHits = s.bankHits := rfl
@[simp] theorem draw_lpddr : (draw s).lpddr = s.lpddr := rfl
@[simp] theorem draw_lines : (draw s).lines = s.lines := rfl
@[simp] theorem draw_retiredPages : (draw s).retiredPages = s.retiredPages := rfl
@[simp] theorem draw_retiredBanks : (draw s).retiredBanks = s.retiredBanks := rfl
@[simp] theorem draw_cache : (draw s).cache = s.cache := rfl
@[simp] theorem draw_cores : (draw s).cores = s.cores := rfl
@[simp] theorem draw_clusters : (draw s).clusters = s.clusters := rfl
@[simp] theorem draw_counters : (draw s).counters = s.counters := rfl
@[simp] theorem draw_syncQ : (draw s).syncQ = s.syncQ := rfl
@[simp] theorem draw_waiters : (draw s).waiters = s.waiters := rfl
@[simp] theorem draw_counts : (draw s).counts = s.counts := rfl
@[simp] theorem draw_leases : (draw s).leases = s.leases := rfl
@[simp] theorem draw_modId : (draw s).modId = s.modId := rfl
@[simp] theorem draw_ports : (draw s).ports = s.ports := rfl
@[simp] theorem draw_txns : (draw s).txns = s.txns := rfl
@[simp] theorem draw_nextTxn : (draw s).nextTxn = s.nextTxn := rfl
@[simp] theorem draw_sendWait : (draw s).sendWait = s.sendWait := rfl
@[simp] theorem draw_dups : (draw s).dups = s.dups := rfl
@[simp] theorem draw_fabDrops : (draw s).fabDrops = s.fabDrops := rfl
@[simp] theorem draw_lostMods : (draw s).lostMods = s.lostMods := rfl
@[simp] theorem draw_reds : (draw s).reds = s.reds := rfl
@[simp] theorem draw_stales : (draw s).stales = s.stales := rfl
@[simp] theorem draw_pipes : (draw s).pipes = s.pipes := rfl
@[simp] theorem draw_videoAny : (draw s).videoAny = s.videoAny := rfl
@[simp] theorem draw_videoStopped : (draw s).videoStopped = s.videoStopped := rfl
@[simp] theorem draw_riskEvents : (draw s).riskEvents = s.riskEvents := rfl
@[simp] theorem draw_riskScore : (draw s).riskScore = s.riskScore := rfl
@[simp] theorem draw_draining : (draw s).draining = s.draining := rfl

/-! ### risk -/

@[simp] theorem risk_pending (row weight : Nat) : (risk s row weight).pending = s.pending := rfl
@[simp] theorem risk_fresh (row weight : Nat) : (risk s row weight).fresh = s.fresh := rfl
@[simp] theorem risk_outbox (row weight : Nat) : (risk s row weight).outbox = s.outbox := rfl
@[simp] theorem risk_life (row weight : Nat) : (risk s row weight).life = s.life := rfl
@[simp] theorem risk_mgmt (row weight : Nat) : (risk s row weight).mgmt = s.mgmt := rfl
@[simp] theorem risk_age (row weight : Nat) : (risk s row weight).age = s.age := rfl
@[simp] theorem risk_fw (row weight : Nat) : (risk s row weight).fw = s.fw := rfl
@[simp] theorem risk_postmark (row weight : Nat) : (risk s row weight).postmark = s.postmark := rfl
@[simp] theorem risk_timeOn (row weight : Nat) : (risk s row weight).timeOn = s.timeOn := rfl
@[simp] theorem risk_big (row weight : Nat) : (risk s row weight).big = s.big := rfl
@[simp] theorem risk_hstErr (row weight : Nat) : (risk s row weight).hstErr = s.hstErr := rfl
@[simp] theorem risk_hstErrEvents (row weight : Nat) : (risk s row weight).hstErrEvents = s.hstErrEvents := rfl
@[simp] theorem risk_rings (row weight : Nat) : (risk s row weight).rings = s.rings := rfl
@[simp] theorem risk_turn (row weight : Nat) : (risk s row weight).turn = s.turn := rfl
@[simp] theorem risk_slots (row weight : Nat) : (risk s row weight).slots = s.slots := rfl
@[simp] theorem risk_msix (row weight : Nat) : (risk s row weight).msix = s.msix := rfl
@[simp] theorem risk_msixPend (row weight : Nat) : (risk s row weight).msixPend = s.msixPend := rfl
@[simp] theorem risk_dead (row weight : Nat) : (risk s row weight).dead = s.dead := rfl
@[simp] theorem risk_deadCount (row weight : Nat) : (risk s row weight).deadCount = s.deadCount := rfl
@[simp] theorem risk_health (row weight : Nat) : (risk s row weight).health = s.health := rfl
@[simp] theorem risk_healthSeq (row weight : Nat) : (risk s row weight).healthSeq = s.healthSeq := rfl
@[simp] theorem risk_active (row weight : Nat) : (risk s row weight).active = s.active := rfl
@[simp] theorem risk_swaps (row weight : Nat) : (risk s row weight).swaps = s.swaps := rfl
@[simp] theorem risk_setA (row weight : Nat) : (risk s row weight).setA = s.setA := rfl
@[simp] theorem risk_setB (row weight : Nat) : (risk s row weight).setB = s.setB := rfl
@[simp] theorem risk_swap (row weight : Nat) : (risk s row weight).swap = s.swap := rfl
@[simp] theorem risk_measured (row weight : Nat) : (risk s row weight).measured = s.measured := rfl
@[simp] theorem risk_ctxs (row weight : Nat) : (risk s row weight).ctxs = s.ctxs := rfl
@[simp] theorem risk_keyDraws (row weight : Nat) : (risk s row weight).keyDraws = s.keyDraws := rfl
@[simp] theorem risk_hostMem (row weight : Nat) : (risk s row weight).hostMem = s.hostMem := rfl
@[simp] theorem risk_hostPoison (row weight : Nat) : (risk s row weight).hostPoison = s.hostPoison := rfl
@[simp] theorem risk_hostReject (row weight : Nat) : (risk s row weight).hostReject = s.hostReject := rfl
@[simp] theorem risk_hostLines (row weight : Nat) : (risk s row weight).hostLines = s.hostLines := rfl
@[simp] theorem risk_shared (row weight : Nat) : (risk s row weight).shared = s.shared := rfl
@[simp] theorem risk_sharedBad (row weight : Nat) : (risk s row weight).sharedBad = s.sharedBad := rfl
@[simp] theorem risk_bankHits (row weight : Nat) : (risk s row weight).bankHits = s.bankHits := rfl
@[simp] theorem risk_lpddr (row weight : Nat) : (risk s row weight).lpddr = s.lpddr := rfl
@[simp] theorem risk_lines (row weight : Nat) : (risk s row weight).lines = s.lines := rfl
@[simp] theorem risk_retiredPages (row weight : Nat) : (risk s row weight).retiredPages = s.retiredPages := rfl
@[simp] theorem risk_retiredBanks (row weight : Nat) : (risk s row weight).retiredBanks = s.retiredBanks := rfl
@[simp] theorem risk_cache (row weight : Nat) : (risk s row weight).cache = s.cache := rfl
@[simp] theorem risk_cores (row weight : Nat) : (risk s row weight).cores = s.cores := rfl
@[simp] theorem risk_clusters (row weight : Nat) : (risk s row weight).clusters = s.clusters := rfl
@[simp] theorem risk_counters (row weight : Nat) : (risk s row weight).counters = s.counters := rfl
@[simp] theorem risk_syncQ (row weight : Nat) : (risk s row weight).syncQ = s.syncQ := rfl
@[simp] theorem risk_waiters (row weight : Nat) : (risk s row weight).waiters = s.waiters := rfl
@[simp] theorem risk_counts (row weight : Nat) : (risk s row weight).counts = s.counts := rfl
@[simp] theorem risk_leases (row weight : Nat) : (risk s row weight).leases = s.leases := rfl
@[simp] theorem risk_modId (row weight : Nat) : (risk s row weight).modId = s.modId := rfl
@[simp] theorem risk_ports (row weight : Nat) : (risk s row weight).ports = s.ports := rfl
@[simp] theorem risk_txns (row weight : Nat) : (risk s row weight).txns = s.txns := rfl
@[simp] theorem risk_nextTxn (row weight : Nat) : (risk s row weight).nextTxn = s.nextTxn := rfl
@[simp] theorem risk_sendWait (row weight : Nat) : (risk s row weight).sendWait = s.sendWait := rfl
@[simp] theorem risk_dups (row weight : Nat) : (risk s row weight).dups = s.dups := rfl
@[simp] theorem risk_fabDrops (row weight : Nat) : (risk s row weight).fabDrops = s.fabDrops := rfl
@[simp] theorem risk_lostMods (row weight : Nat) : (risk s row weight).lostMods = s.lostMods := rfl
@[simp] theorem risk_reds (row weight : Nat) : (risk s row weight).reds = s.reds := rfl
@[simp] theorem risk_stales (row weight : Nat) : (risk s row weight).stales = s.stales := rfl
@[simp] theorem risk_pipes (row weight : Nat) : (risk s row weight).pipes = s.pipes := rfl
@[simp] theorem risk_videoAny (row weight : Nat) : (risk s row weight).videoAny = s.videoAny := rfl
@[simp] theorem risk_videoStopped (row weight : Nat) : (risk s row weight).videoStopped = s.videoStopped := rfl
@[simp] theorem risk_riskScore (row weight : Nat) : (risk s row weight).riskScore = s.riskScore := rfl
@[simp] theorem risk_draining (row weight : Nat) : (risk s row weight).draining = s.draining := rfl

/-! ### Vectors -/

theorem vget_vset_eq {α : Type} {n : Nat} (v : Vector α n) (i : Nat) (x d : α) (h : i < n) : vget (vset v i x) i d = x := by
  simp [vget, vset, h]

theorem vget_vset_ne {α : Type} {n : Nat} (v : Vector α n) (i j : Nat) (x d : α) (h : j ≠ i) : vget (vset v i x) j d = vget v j d := by
  simp [vget, vset, Ne.symm h]

theorem vset_past {α : Type} {n : Nat} (v : Vector α n) (i : Nat) (x : α) (h : n ≤ i) : vset v i x = v := by
  ext j hj
  simp [vset, Vector.getElem_setIfInBounds]
  omega

/-! ### Parts -/

theorem ringOf_setRing (n : Nat) (r : Ring) (h : n < 65) : ringOf (setRing s n r) n = r := vget_vset_eq _ _ _ _ h
theorem ringOf_setRing_ne (n m : Nat) (r : Ring) (h : m ≠ n) : ringOf (setRing s n r) m = ringOf s m := by
  simp [ringOf, setRing, vget, vset, Ne.symm h]
theorem coreOf_setCore (c : Nat) (x : Core) (h : c < 256) : coreOf (setCore s c x) c = x := vget_vset_eq _ _ _ _ h
theorem coreOf_setCore_ne (c d : Nat) (x : Core) (h : d ≠ c) : coreOf (setCore s c x) d = coreOf s d := vget_vset_ne _ _ _ _ _ h
theorem coreOf_modCore (c : Nat) (f : Core → Core) (h : c < 256) : coreOf (modCore s c f) c = f (coreOf s c) := coreOf_setCore _ _ _ h
theorem coreOf_modCore_ne (c d : Nat) (f : Core → Core) (h : d ≠ c) : coreOf (modCore s c f) d = coreOf s d :=
  coreOf_setCore_ne _ _ _ _ h
theorem threadOf_setThread (c : Core) (t : Nat) (x : Thread) (h : t < 32) : threadOf (setThread c t x) t = x := vget_vset_eq _ _ _ _ h
theorem threadOf_setThread_ne (c : Core) (t u : Nat) (x : Thread) (h : u ≠ t) : threadOf (setThread c t x) u = threadOf c u :=
  vget_vset_ne _ _ _ _ _ h
theorem streamOf_setStream (c : Core) (k : Nat) (x : Stream) (h : k < 16) : streamOf (setStream c k x) k = x := vget_vset_eq _ _ _ _ h
theorem streamOf_setStream_ne (c : Core) (k j : Nat) (x : Stream) (h : j ≠ k) : streamOf (setStream c k x) j = streamOf c j :=
  vget_vset_ne _ _ _ _ _ h
theorem clusterOf_modCluster (c : Nat) (f : Cluster → Cluster) (h : c < 16) : clusterOf (modCluster s c f) c = f (clusterOf s c) :=
  vget_vset_eq _ _ _ _ h
theorem clusterOf_modCluster_ne (c d : Nat) (f : Cluster → Cluster) (h : d ≠ c) :
    clusterOf (modCluster s c f) d = clusterOf s d := vget_vset_ne _ _ _ _ _ h
theorem portOf_modPort (p : Nat) (f : Port → Port) (h : p < 16) : portOf (modPort s p f) p = f (portOf s p) := vget_vset_eq _ _ _ _ h
theorem portOf_modPort_ne (p q : Nat) (f : Port → Port) (h : q ≠ p) : portOf (modPort s p f) q = portOf s q :=
  vget_vset_ne _ _ _ _ _ h
theorem pipeOf_modPipe (i : Nat) (f : VideoPipe → VideoPipe) (h : i < 6) : pipeOf (modPipe s i f) i = f (pipeOf s i) :=
  vget_vset_eq _ _ _ _ h
theorem slotOf_modSlot (n : Nat) (f : CtxSlot → CtxSlot) (h : n < 64) : slotOf (modSlot s n f) n = f (slotOf s n) :=
  vget_vset_eq _ _ _ _ h
theorem slotOf_modSlot_ne (n m : Nat) (f : CtxSlot → CtxSlot) (h : m ≠ n) : slotOf (modSlot s n f) m = slotOf s m :=
  vget_vset_ne _ _ _ _ _ h

/-- A slot that holds a context is one of the 64. -/
theorem lt_of_ctxOf {n : Nat} {c : Ctx} (h : ctxOf s n = some c) : n < 64 := by
  refine Decidable.byContradiction fun hn => ?_
  simp [ctxOf, slotOf, vget, Vector.getElem?_eq_none (Nat.le_of_not_lt hn), CtxSlot.empty] at h

theorem ctxOf_modCtx (n : Nat) (f : Ctx → Ctx) : ctxOf (modCtx s n f) n = (ctxOf s n).map f := by
  by_cases h : n < 64
  · simp [ctxOf, modCtx, slotOf_modSlot _ _ _ h]
  · have hn : 64 ≤ n := Nat.le_of_not_lt h
    simp [ctxOf, slotOf, modCtx, modSlot, vset_past _ _ _ hn, vget, Vector.getElem?_eq_none hn, CtxSlot.empty]
theorem ctxOf_modCtx_ne (n m : Nat) (f : Ctx → Ctx) (h : m ≠ n) : ctxOf (modCtx s n f) m = ctxOf s m := by
  simp [ctxOf, modCtx, slotOf_modSlot_ne _ _ _ _ h]

end Sys2Proof.Machine
end

