-- ==== Sys2Proof/Laws/Commands.lean ====
section
/-! SUPPORT. What the shared shells of the commands answer where their conditions hold. -/

namespace Sys2Proof.Machine

/-! ### Packets of the command processor -/

theorem firmware_next {p : Packet} {s : State} (f : State → State) (h : Accepts p s) : firmware p s f = .next (f s) := by
  have hr : ¬ 64 < p.ring.toNat := Nat.not_lt.mpr h.1
  simp [firmware, hr, h.2]

theorem ctxCommand_next {p : Packet} {s : State} {n op : Nat} (f : Nat → State → State) (h : Accepts p s)
    (hn : pktSlot s p = some n) : ctxCommand p op s f = .next (f n s) := by
  simp [ctxCommand, firmware_next _ h, hn]

theorem mgmtCommand_next {p : Packet} {s : State} {op : Nat} (f : State → State) (h : p.ring = 64) (hr : ready s = true) :
    mgmtCommand p op s f = .next (f s) := by
  have ha : Accepts p s := ⟨by rw [h]; decide, hr⟩
  have h64 : ¬ p.ring.toNat < 64 := by rw [h]; decide
  simp [mgmtCommand, firmware_next _ ha, h64]

theorem zeroBits_of {p : Packet} {lo len : Nat} (h : bits p.param lo len = 0) : zeroBits p lo len = true := by
  simp [zeroBits, h]

theorem pktSlot_lt {s : State} {p : Packet} {n : Nat} (h : pktSlot s p = some n) : n < 64 ∧ (ctxOf s n).isSome = true := by
  have key : (ctxOf s n).isSome = true := by
    unfold pktSlot at h
    split at h
    · split at h
      · cases h; assumption
      · cases h
    · unfold slotOfIdent firstBelow at h
      have := List.find?_some h
      revert this
      cases ctxOf s n <;> simp
  refine ⟨?_, key⟩
  obtain ⟨c, hc⟩ := Option.isSome_iff_exists.mp key
  exact lt_of_ctxOf s hc

/-! ### Flits of the fabric -/

theorem serve_next {port : BitVec 4} {f : Flit} {op : BitVec 8} {s s1 : State} (k : State → State) (ho : f.txn.op = op)
    (hr : ready s = true) (ht : takeRx s port.toNat f = some s1) : serve port f op s k = .next (k s1) := by
  simp [serve, ho, hr, ht]

theorem once_new {s k : State} {p : Nat} {f : Flit} (h : dupCase s f.txn = .new) : once s p f k = k := by
  simp [once, h]

theorem onTarget_next {s : State} {p n : Nat} {f : Flit} (k : Nat → State) (h : flitSlot s f.txn = some n)
    (hm : s.modId = some (gaMod f.txn.addr)) : onTarget s p f k = k n := by
  simp [onTarget, h, hm]

/-! ### Instructions -/

theorem issuing_iss {u : Issuer} {s : State} {i : Iss} {x : Option Nat} (h : issuing u s = some (i, x)) :
    i.u = u ∧ i.core = coreOf s u.core.toNat ∧ i.t = threadOf (coreOf s u.core.toNat) u.thread.toNat := by
  unfold issuing at h
  dsimp only at h
  split at h
  · cases h
  · split at h
    · cases h
    · split at h
      · simp only [Option.some.injEq, Prod.mk.injEq] at h
        rw [← h.1]
        exact ⟨rfl, rfl, rfl⟩
      · split at h
        · simp only [Option.some.injEq, Prod.mk.injEq] at h
          rw [← h.1]
          exact ⟨rfl, rfl, rfl⟩
        · cases h

theorem issue_next {u : Issuer} {s : State} {i : Iss} {cls op : Nat} (f : Iss → State → State) (h : Issues u s i cls op) :
    issue u cls op s f = .next (f i s) := by
  obtain ⟨h1, h2, h3, h4⟩ := h
  simp [issue, h1, h2, h3, h4]

/-- An engine instruction that passes, faults nowhere, and finds its queue and its bound free. -/
theorem engineIssue_next {u : Issuer} {s : State} {i : Iss} {cls op : Nat} {q : EngineQ} {faults : Iss → State → List Nat}
    {bound : Iss → State → Option Hold} {kind : Iss → State → EngKind} {held : Iss → Bool} (h : Issues u s i cls op)
    (hq : queueUsed s i.u.core.toNat q < queueSize q) (hp : passes i.t i.w = true) (hs : sigUnmapped s i = false)
    (hf : faults i s = []) (hb : bound i s = none) :
    engineIssue u cls op q s faults bound kind held = .next (enqueueOp s i q (kind i s) (held i)) := by
  have hq' : ¬ queueSize q ≤ queueUsed s i.u.core.toNat q := Nat.not_le.mpr hq
  simp [engineIssue, issue_next _ h, hq', hp, hs, hf, hb, chk]

/-- An engine instruction that passes and finds its queue full waits. -/
theorem engineIssue_full {u : Issuer} {s : State} {i : Iss} {cls op : Nat} {q : EngineQ} {faults : Iss → State → List Nat}
    {bound : Iss → State → Option Hold} {kind : Iss → State → EngKind} {held : Iss → Bool} (h : Issues u s i cls op)
    (hq : queueSize q ≤ queueUsed s i.u.core.toNat q) (hp : passes i.t i.w = true) :
    engineIssue u cls op q s faults bound kind held = .next s := by
  simp [engineIssue, issue_next _ h, hq, hp]

/-- An engine instruction that passes and finds the bound of what it needs reached sleeps. -/
theorem engineIssue_bound {u : Issuer} {s : State} {i : Iss} {cls op : Nat} {q : EngineQ} {faults : Iss → State → List Nat}
    {bound : Iss → State → Option Hold} {kind : Iss → State → EngKind} {held : Iss → Bool} {x : Hold} (h : Issues u s i cls op)
    (hq : queueUsed s i.u.core.toNat q < queueSize q) (hp : passes i.t i.w = true) (hs : sigUnmapped s i = false)
    (hf : faults i s = []) (hb : bound i s = some x) :
    engineIssue u cls op q s faults bound kind held = .next (sleepAt s i x) := by
  have hq' : ¬ queueSize q ≤ queueUsed s i.u.core.toNat q := Nat.not_le.mpr hq
  simp [engineIssue, issue_next _ h, hq', hp, hs, hf, hb, chk]

/-- An engine instruction whose predicate fails. -/
theorem engineIssue_skip {u : Issuer} {s : State} {i : Iss} {cls op : Nat} {q : EngineQ} {faults : Iss → State → List Nat}
    {bound : Iss → State → Option Hold} {kind : Iss → State → EngKind} {held : Iss → Bool} (h : Issues u s i cls op)
    (hp : passes i.t i.w = false) (hf : staticFaults i.w = []) (hs : sigUnmapped s i = false) :
    engineIssue u cls op q s faults bound kind held =
      .next (signalSig (retire s i (stepPc i.t)) i.u.core i.slot (sigOf i.t i.w)) := by
  simp [engineIssue, issue_next _ h, hp, hs, hf, chk]

end Sys2Proof.Machine
end

