-- ==== Sys2Proof/Laws/Memory.lean ====
section
/-! SUPPORT. Laws of memories and tables: reads after writes, and that every write keeps the canonical form. -/

namespace Sys2Proof.Machine

/-! ### Tables -/

theorem tget_tput_eq {α : Type} (t : Table α) (k : Nat) (v : α) : tget (tput t k v) k = some v := by
  have h : List.lookup k (t.filter fun e => decide (e.1 < k)) = none := by
    rw [List.lookup_eq_none_iff]
    intro p hp
    simp only [List.mem_filter, decide_eq_true_eq] at hp
    simp; omega
  simp [tget, tput, List.lookup_append, h]

theorem lookup_filter_keep {α : Type} (t : Table α) (j : Nat) (p : Nat × α → Bool) (h : ∀ v, p (j, v) = true) :
    List.lookup j (t.filter p) = List.lookup j t := by
  induction t with
  | nil => rfl
  | cons e t ih =>
    obtain ⟨a, v⟩ := e
    by_cases hj : j = a
    · subst hj; simp [h]
    · have hb : (j == a) = false := by simpa using hj
      by_cases hp : p (a, v) = true
      · simp [hp, List.lookup_cons, hb, ih]
      · simp [hp, List.lookup_cons, hb, ih]

theorem lookup_filter_drop {α : Type} (t : Table α) (j : Nat) (p : Nat × α → Bool) (h : ∀ v, p (j, v) = false) :
    List.lookup j (t.filter p) = none := by
  rw [List.lookup_eq_none_iff]
  intro q hq
  simp only [List.mem_filter] at hq
  obtain ⟨a, v⟩ := q
  by_cases hj : j = a
  · subst hj; simp [h] at hq
  · simpa using hj

theorem tget_tput_ne {α : Type} (t : Table α) (k j : Nat) (v : α) (h : j ≠ k) : tget (tput t k v) j = tget t j := by
  have hb : (j == k) = false := by simpa using h
  by_cases hlt : j < k
  · have h2 : List.lookup j (t.filter fun e => decide (k < e.1)) = none :=
      lookup_filter_drop t j _ fun _ => by simp; omega
    simp [tget, tput, List.lookup_append, List.lookup_cons, hb, h2, lookup_filter_keep t j (fun e => decide (e.1 < k)) fun _ => by simpa using hlt]
  · have h1 : List.lookup j (t.filter fun e => decide (e.1 < k)) = none :=
      lookup_filter_drop t j _ fun _ => by simp; omega
    simp [tget, tput, List.lookup_append, List.lookup_cons, hb, h1, lookup_filter_keep t j (fun e => decide (k < e.1)) fun _ => by simp; omega]

theorem tget_tdel_eq {α : Type} (t : Table α) (k : Nat) : tget (tdel t k) k = none :=
  lookup_filter_drop t k _ fun _ => by simp

theorem tget_tdel_ne {α : Type} (t : Table α) (k j : Nat) (h : j ≠ k) : tget (tdel t k) j = tget t j :=
  lookup_filter_keep t j _ fun _ => by simpa using h

/-! ### Bytes read after a write -/

theorem lookup_cellsFrom (a : Nat) (bs : List Byte) (x : Nat) :
    (List.lookup x (cellsFrom a bs)).getD 0 = if a ≤ x ∧ x < a + bs.length then bs.getD (x - a) 0 else 0 := by
  induction bs generalizing a with
  | nil => simp [cellsFrom]
  | cons b bs ih =>
    by_cases hx : x = a
    · subst hx
      by_cases hb : b = 0
      · have hn : ¬(x + 1 ≤ x ∧ x < x + 1 + bs.length) := by omega
        rw [cellsFrom, if_pos hb, ih, if_neg hn]; simp [hb]
      · rw [cellsFrom, if_neg hb]; simp
    · have hne : (x == a) = false := by simpa using hx
      have key : (if a + 1 ≤ x ∧ x < a + 1 + bs.length then bs.getD (x - (a + 1)) 0 else 0) =
          if a ≤ x ∧ x < a + (b :: bs).length then (b :: bs).getD (x - a) 0 else 0 := by
        by_cases hr : a + 1 ≤ x ∧ x < a + 1 + bs.length
        · have h2 : a ≤ x ∧ x < a + (b :: bs).length := by simp; omega
          obtain ⟨k, hk⟩ : ∃ k, x - a = k + 1 := ⟨x - a - 1, by omega⟩
          have hk' : x - (a + 1) = k := by omega
          rw [if_pos hr, if_pos h2, hk, hk', List.getD_cons_succ]
        · have h2 : ¬(a ≤ x ∧ x < a + (b :: bs).length) := by simp; omega
          rw [if_neg hr, if_neg h2]
      by_cases hb : b = 0
      · simp only [cellsFrom, hb, if_true]; rw [ih, key, hb]
      · simp only [cellsFrom, hb, if_false, List.lookup_cons, hne]; rw [ih, key]

/-- A byte read after a write: what was written, or what stood there. -/
theorem Mem.byte_write (m : Mem) (a : Nat) (bs : List Byte) (x : Nat) :
    Mem.byte (Mem.write m a bs) x = if a ≤ x ∧ x < a + bs.length then bs.getD (x - a) 0 else Mem.byte m x := by
  have hc := lookup_cellsFrom a bs x
  unfold Mem.byte Mem.write
  rw [List.lookup_append, List.lookup_append]
  by_cases hlt : x < a
  · have h3 : List.lookup x (m.filter fun c => decide (a + bs.length ≤ c.1)) = none :=
      lookup_filter_drop m x _ fun _ => by simp; omega
    have h2 : ¬(a ≤ x ∧ x < a + bs.length) := by omega
    rw [if_neg h2] at hc
    rw [lookup_filter_keep m x (fun c => decide (c.1 < a)) (fun _ => by simpa using hlt), h3, if_neg h2]
    cases hm : List.lookup x m
    · simpa using hc
    · simp
  · have h1 : List.lookup x (m.filter fun c => decide (c.1 < a)) = none :=
      lookup_filter_drop m x _ fun _ => by simp; omega
    by_cases hin : x < a + bs.length
    · have h3 : List.lookup x (m.filter fun c => decide (a + bs.length ≤ c.1)) = none :=
        lookup_filter_drop m x _ fun _ => by simp; omega
      have h2 : a ≤ x ∧ x < a + bs.length := by omega
      rw [h1, h3, if_pos h2]; rw [if_pos h2] at hc
      simpa using hc
    · have h2 : ¬(a ≤ x ∧ x < a + bs.length) := by omega
      have hn : List.lookup x (cellsFrom a bs) = none := by
        clear hc h1 h2 hlt
        induction bs generalizing a with
        | nil => rfl
        | cons b bs ih =>
          have hne : (x == a) = false := by simp at hin ⊢; omega
          have := ih (a + 1) (by simp at hin ⊢; omega)
          by_cases hb : b = 0
          · rw [cellsFrom, if_pos hb]; exact this
          · rw [cellsFrom, if_neg hb, List.lookup_cons, hne]; exact this
      rw [h1, hn, if_neg h2, lookup_filter_keep m x (fun c => decide (a + bs.length ≤ c.1)) (fun _ => by simp; omega)]
      simp

/-- What has been written reads back. -/
theorem Mem.read_write (m : Mem) (a : Nat) (bs : List Byte) : Mem.read (Mem.write m a bs) a bs.length = bs := by
  apply List.ext_getElem
  · simp [Mem.read]
  · intro i h1 h2
    simp only [Mem.read, List.getElem_map, List.getElem_range, Mem.byte_write]
    have hc : a ≤ a + i ∧ a + i < a + bs.length := by omega
    rw [if_pos hc, Nat.add_sub_cancel_left, List.getD_eq_getElem?_getD, List.getElem?_eq_getElem h2, Option.getD_some]

/-- A byte read after a range is zeroed. -/
theorem Mem.byte_zero (m : Mem) (a n x : Nat) : Mem.byte (Mem.zero m a n) x = if a ≤ x ∧ x < a + n then 0 else Mem.byte m x := by
  unfold Mem.byte Mem.zero
  by_cases h : a ≤ x ∧ x < a + n
  · rw [lookup_filter_drop m x _ (fun _ => by simp; omega), if_pos h]; rfl
  · rw [lookup_filter_keep m x _ (fun _ => by simp; omega), if_neg h]

@[simp] theorem leBytes_length (k v : Nat) : (leBytes k v).length = k := by
  induction k generalizing v with
  | zero => rfl
  | succ k ih => simp [leBytes, ih]

theorem ofLe_leBytes (k v : Nat) : ofLe (leBytes k v) = v % 256 ^ k := by
  induction k generalizing v with
  | zero => simp [leBytes, ofLe, Nat.mod_one]
  | succ k ih =>
    rw [leBytes, ofLe, ih, BitVec.toNat_ofNat, show (256 : Nat) ^ (k + 1) = 256 * 256 ^ k by rw [Nat.pow_succ, Nat.mul_comm],
      Nat.mod_mul]

/-- A number written reads back. -/
theorem Mem.num_put (m : Mem) (a k v : Nat) : Mem.num (Mem.put m a k v) a k = v % 256 ^ k := by
  have h := Mem.read_write m a (leBytes k v)
  rw [leBytes_length] at h
  rw [Mem.num, Mem.put, h, ofLe_leBytes]

/-! ### The canonical form -/

/-- The canonical form, as a property of the list. -/
def Mem.Canon (m : Mem) : Prop := m.Pairwise (fun c d => c.1 < d.1) ∧ ∀ c ∈ m, c.2 ≠ 0

theorem Mem.wf_iff (m : Mem) : Mem.wf m = true ↔ Mem.Canon m := by
  induction m with
  | nil => simp [Mem.wf, Mem.Canon]
  | cons c rest ih =>
    cases rest with
    | nil => simp [Mem.wf, Mem.Canon]
    | cons d rest =>
      simp only [Mem.wf, Bool.and_eq_true, decide_eq_true_eq, ih, Mem.Canon]
      constructor
      · rintro ⟨h0, h1, hp, hz⟩
        refine ⟨List.pairwise_cons.2 ⟨fun e he => ?_, hp⟩, fun e he => ?_⟩
        · rcases List.mem_cons.1 he with rfl | he
          · exact h1
          · exact Nat.lt_trans h1 ((List.pairwise_cons.1 hp).1 e he)
        · rcases List.mem_cons.1 he with rfl | he
          · simpa using h0
          · exact hz e he
      · rintro ⟨hp, hz⟩
        obtain ⟨h1, h2⟩ := List.pairwise_cons.1 hp
        exact ⟨by simpa using hz c List.mem_cons_self, h1 d List.mem_cons_self, h2, fun e he => hz e (List.mem_cons_of_mem _ he)⟩

theorem Mem.canon_filter {m : Mem} (p : Host.Cell → Bool) (h : Mem.Canon m) : Mem.Canon (m.filter p) :=
  ⟨h.1.filter p, fun c hc => h.2 c (List.mem_filter.1 hc).1⟩

theorem cellsFrom_canon (a : Nat) (bs : List Byte) :
    Mem.Canon (cellsFrom a bs) ∧ ∀ c ∈ cellsFrom a bs, a ≤ c.1 ∧ c.1 < a + bs.length := by
  induction bs generalizing a with
  | nil => simp [cellsFrom, Mem.Canon]
  | cons b bs ih =>
    obtain ⟨⟨hp, hz⟩, hr⟩ := ih (a + 1)
    by_cases hb : b = 0
    · rw [cellsFrom, if_pos hb]
      refine ⟨⟨hp, hz⟩, fun c hc => ?_⟩
      have := hr c hc
      simp only [List.length_cons]; omega
    · rw [cellsFrom, if_neg hb]
      refine ⟨⟨List.pairwise_cons.2 ⟨fun c hc => ?_, hp⟩, fun c hc => ?_⟩, fun c hc => ?_⟩
      · have := hr c hc; simp only; omega
      · rcases List.mem_cons.1 hc with rfl | hc
        · exact hb
        · exact hz c hc
      · rcases List.mem_cons.1 hc with rfl | hc
        · simp
        · have := hr c hc; simp only [List.length_cons]; omega

theorem Mem.canon_write {m : Mem} (a : Nat) (bs : List Byte) (h : Mem.Canon m) : Mem.Canon (Mem.write m a bs) := by
  obtain ⟨hc, hr⟩ := cellsFrom_canon a bs
  have h1 := Mem.canon_filter (fun c => decide (c.1 < a)) h
  have h3 := Mem.canon_filter (fun c => decide (a + bs.length ≤ c.1)) h
  have m1 : ∀ c ∈ m.filter (fun c => decide (c.1 < a)), c.1 < a := fun c hc => by simpa using (List.mem_filter.1 hc).2
  have m3 : ∀ c ∈ m.filter (fun c => decide (a + bs.length ≤ c.1)), a + bs.length ≤ c.1 := fun c hc => by
    simpa using (List.mem_filter.1 hc).2
  refine ⟨?_, fun c hcm => ?_⟩
  · rw [Mem.write, List.pairwise_append, List.pairwise_append]
    refine ⟨⟨h1.1, hc.1, fun x hx y hy => ?_⟩, h3.1, fun x hx y hy => ?_⟩
    · have := m1 x hx; have := hr y hy; omega
    · have := m3 y hy
      rcases List.mem_append.1 hx with hx | hx
      · have := m1 x hx; omega
      · have := hr x hx; omega
  · rcases List.mem_append.1 hcm with hcm | hcm
    · rcases List.mem_append.1 hcm with hcm | hcm
      · exact h1.2 c hcm
      · exact hc.2 c hcm
    · exact h3.2 c hcm

/-- A write keeps the canonical form. -/
theorem Mem.wf_write {m : Mem} (a : Nat) (bs : List Byte) (h : Mem.wf m = true) : Mem.wf (Mem.write m a bs) = true :=
  (Mem.wf_iff _).2 (Mem.canon_write a bs ((Mem.wf_iff _).1 h))

theorem Mem.wf_put {m : Mem} (a k v : Nat) (h : Mem.wf m = true) : Mem.wf (Mem.put m a k v) = true := Mem.wf_write _ _ h

theorem Mem.wf_zero {m : Mem} (a n : Nat) (h : Mem.wf m = true) : Mem.wf (Mem.zero m a n) = true :=
  (Mem.wf_iff _).2 (Mem.canon_filter _ ((Mem.wf_iff _).1 h))

theorem Mem.wf_filter {m : Mem} (p : Host.Cell → Bool) (h : Mem.wf m = true) : Mem.wf (m.filter p) = true :=
  (Mem.wf_iff _).2 (Mem.canon_filter p ((Mem.wf_iff _).1 h))

/-- Memories in canonical form that read alike are equal. -/
theorem Mem.ext_byte {m k : Mem} (hm : Mem.wf m = true) (hk : Mem.wf k = true) (h : ∀ a, Mem.byte m a = Mem.byte k a) : m = k := by
  rw [Mem.wf_iff] at hm hk
  have mem_iff : ∀ (m : Mem), Mem.Canon m → ∀ a b, (a, b) ∈ m ↔ Mem.byte m a = b ∧ b ≠ 0 := by
    intro m hm a b
    constructor
    · intro hab
      have hl : List.lookup a m = some b := by
        clear h hk
        induction m with
        | nil => simp at hab
        | cons c rest ih =>
          obtain ⟨hp, hz⟩ := hm
          obtain ⟨h1, h2⟩ := List.pairwise_cons.1 hp
          rcases List.mem_cons.1 hab with rfl | hr
          · simp
          · have hlt := h1 _ hr
            have hne : (a == c.1) = false := by simp; omega
            rw [List.lookup_cons, hne]
            exact ih ⟨h2, fun e he => hz e (List.mem_cons_of_mem _ he)⟩ hr
      exact ⟨by simp [Mem.byte, hl], hm.2 _ hab⟩
    · rintro ⟨hb, hne⟩
      unfold Mem.byte at hb
      cases hl : List.lookup a m with
      | none => simp [hl] at hb; exact absurd hb.symm hne
      | some v =>
        simp [hl] at hb; subst hb
        obtain ⟨l1, l2, rfl, _⟩ := List.lookup_eq_some_iff.1 hl
        simp
  have hsub : ∀ c, c ∈ m ↔ c ∈ k := fun ⟨a, b⟩ => by rw [mem_iff m hm, mem_iff k hk, h]
  have hnd : ∀ (m : Mem), Mem.Canon m → m.Nodup := fun m hm => hm.1.imp fun hlt heq => by simp [heq] at hlt
  have hperm : m.Perm k := (List.perm_ext_iff_of_nodup (hnd m hm) (hnd k hk)).2 hsub
  exact hperm.eq_of_pairwise (le := fun c d => c.1 < d.1) (fun a b _ _ h1 h2 => absurd h2 (Nat.lt_asymm h1)) hm.1 hk.1

end Sys2Proof.Machine
end

