-- ==== Sys2Proof/Laws/Kept.lean ====
section
/-! SUPPORT. What every operation of the model keeps: the queue, the capacity, the floor, the bounds of the logs, and the canonical form
of the memories. One lemma per operation stands in the files KeptOps to KeptExec; here are the relation and its rules. -/

namespace Sys2Proof.Machine

/-- `s` has kept what `z` had. -/
structure Kept (z s : State) : Prop where
  pending : s.pending = z.pending
  big     : s.big = z.big
  floor   : s.fw.floor = z.fw.floor
  fw      : z.fwWf → s.fwWf
  health  : z.health.length ≤ 4096 → s.health.length ≤ 4096
  dead    : z.dead.length ≤ 1024 → s.dead.length ≤ 1024
  mem     : z.memWf → s.memWf

theorem Kept.refl (s : State) : Kept s s := ⟨rfl, rfl, rfl, id, id, id, id⟩

/-- An update of other fields. -/
theorem Kept.upd {z s t : State} (h : Kept z s) (e1 : t.pending = s.pending) (e2 : t.big = s.big) (e3 : t.fw = s.fw)
    (e4 : t.health = s.health) (e5 : t.dead = s.dead) (e6 : t.hostMem = s.hostMem) (e7 : t.shared = s.shared)
    (e8 : t.lpddr = s.lpddr) (e9 : t.cores = s.cores) : Kept z t where
  pending := e1.trans h.pending
  big := e2.trans h.big
  floor := (congrArg Firmware.floor e3).trans h.floor
  fw := fun w => by unfold State.fwWf; rw [e3]; exact h.fw w
  health := fun w => by rw [e4]; exact h.health w
  dead := fun w => by rw [e5]; exact h.dead w
  mem := fun w => by unfold State.memWf; rw [e6, e7, e8, e9]; exact h.mem w

/-- An update of memories that are in canonical form where they were before. -/
theorem Kept.updMem {z s t : State} (h : Kept z s) (e1 : t.pending = s.pending) (e2 : t.big = s.big) (e3 : t.fw = s.fw)
    (e4 : t.health = s.health) (e5 : t.dead = s.dead) (e6 : s.memWf → t.memWf) : Kept z t where
  pending := e1.trans h.pending
  big := e2.trans h.big
  floor := (congrArg Firmware.floor e3).trans h.floor
  fw := fun w => by unfold State.fwWf; rw [e3]; exact h.fw w
  health := fun w => by rw [e4]; exact h.health w
  dead := fun w => by rw [e5]; exact h.dead w
  mem := fun w => e6 (h.mem w)

/-- An update of the logs. -/
theorem Kept.updLogs {z s t : State} (h : Kept z s) (e1 : t.pending = s.pending) (e2 : t.big = s.big) (e3 : t.fw = s.fw)
    (e4 : s.health.length ≤ 4096 → t.health.length ≤ 4096) (e5 : s.dead.length ≤ 1024 → t.dead.length ≤ 1024)
    (e6 : t.hostMem = s.hostMem) (e7 : t.shared = s.shared) (e8 : t.lpddr = s.lpddr) (e9 : t.cores = s.cores) : Kept z t where
  pending := e1.trans h.pending
  big := e2.trans h.big
  floor := (congrArg Firmware.floor e3).trans h.floor
  fw := fun w => by unfold State.fwWf; rw [e3]; exact h.fw w
  health := fun w => e4 (h.health w)
  dead := fun w => e5 (h.dead w)
  mem := fun w => by unfold State.memWf; rw [e6, e7, e8, e9]; exact h.mem w

/-- An update of the boot flash that leaves the floor. -/
theorem Kept.updFw {z s t : State} (h : Kept z s) (e1 : t.pending = s.pending) (e2 : t.big = s.big) (e3 : t.fw.floor = s.fw.floor)
    (e10 : s.fwWf → t.fwWf) (e4 : t.health = s.health) (e5 : t.dead = s.dead) (e6 : t.hostMem = s.hostMem)
    (e7 : t.shared = s.shared) (e8 : t.lpddr = s.lpddr) (e9 : t.cores = s.cores) : Kept z t where
  pending := e1.trans h.pending
  big := e2.trans h.big
  floor := e3.trans h.floor
  fw := fun w => e10 (h.fw w)
  health := fun w => by rw [e4]; exact h.health w
  dead := fun w => by rw [e5]; exact h.dead w
  mem := fun w => by unfold State.memWf; rw [e6, e7, e8, e9]; exact h.mem w

/-- An update of other fields, as it unfolds. -/
theorem Kept.mk_upd {z s : State}
    {fresh_ : Nat} {outbox_ : List Output} {life_ : Life} {mgmt_ : Mgmt} {age_ : Ageing} {postmark_ : Word} {timeOn_ : Bool}
    {hstErr_ : BitVec 4} {hstErrEvents_ : BitVec 64} {rings_ : Vector Ring 65} {turn_ : Nat} {slots_ : List Taken} {msix_ : Vector
    MsixEntry 64} {msixPend_ : BitVec 64} {deadCount_ : BitVec 32} {healthSeq_ : BitVec 32} {active_ : Bool} {swaps_ : BitVec 32}
    {setA_ : ConfigSet} {setB_ : ConfigSet} {swap_ : Option Swap} {measured_ : ConfigSet} {ctxs_ : Vector CtxSlot 64} {keyDraws_ : Nat}
    {hostPoison_ : List Nat} {hostReject_ : List Nat} {hostLines_ : Table LineTag} {sharedBad_ : List Nat} {bankHits_ : List Nat}
    {lines_ : Table LineTag} {retiredPages_ : List (Nat × Nat)} {retiredBanks_ : List (BitVec 6)} {cache_ : List CacheLine}
    {clusters_ : Vector Cluster 16} {counters_ : Table Counter} {syncQ_ : Vector (List SyncReq) 16} {waiters_ : List Waiter}
    {counts_ : List CountMsg} {leases_ : Vector (List Lease) 16} {modId_ : Option (BitVec 14)} {ports_ : Vector Port 16} {txns_ : List
    Txn} {nextTxn_ : Table (BitVec 16)} {sendWait_ : List TxnReq} {dups_ : List DupEntry} {fabDrops_ : Nat} {lostMods_ : List
    (BitVec 14)} {reds_ : List Reduction} {stales_ : List Stale} {pipes_ : Vector VideoPipe 6} {videoAny_ : List VideoJob}
    {videoStopped_ : List (Nat × VideoJob)} {riskEvents_ : List RiskEvent} {riskScore_ : BitVec 64} {draining_ : Bool}
    (h : Kept z s) : Kept z (State.mk
      s.pending fresh_ outbox_ life_ mgmt_ age_ s.fw postmark_ timeOn_ s.big hstErr_ hstErrEvents_ rings_ turn_ slots_ msix_ msixPend_
      s.dead deadCount_ s.health healthSeq_ active_ swaps_ setA_ setB_ swap_ measured_ ctxs_ keyDraws_ s.hostMem hostPoison_ hostReject_
      hostLines_ s.shared sharedBad_ bankHits_ s.lpddr lines_ retiredPages_ retiredBanks_ cache_ s.cores clusters_ counters_ syncQ_
      waiters_ counts_ leases_ modId_ ports_ txns_ nextTxn_ sendWait_ dups_ fabDrops_ lostMods_ reds_ stales_ pipes_ videoAny_
      videoStopped_ riskEvents_ riskScore_ draining_) :=
  h.upd rfl rfl rfl rfl rfl rfl rfl rfl rfl

theorem Kept.ite {z a b : State} {c : Prop} [Decidable c] (h1 : Kept z a) (h2 : Kept z b) : Kept z (if c then a else b) := by
  split
  · exact h1
  · exact h2

theorem Kept.foldl {z s : State} {α : Type} {f : State → α → State} (l : List α) (hf : ∀ s a, Kept z s → Kept z (f s a))
    (h : Kept z s) : Kept z (l.foldl f s) := by
  induction l generalizing s with
  | nil => exact h
  | cons a l ih => exact ih (hf s a h)

theorem times_kept {z s : State} {k : Nat} {f : State → State} (hf : ∀ s, Kept z s → Kept z (f s)) (h : Kept z s) :
    Kept z (times k f s) := by
  induction k generalizing s with
  | zero => exact h
  | succ k ih => exact ih (hf s h)

theorem Kept.foldlFst {z : State} {α β : Type} {f : State × β → α → State × β} {x : State × β} (l : List α)
    (hf : ∀ x a, Kept z x.1 → Kept z (f x a).1) (h : Kept z x.1) : Kept z (l.foldl f x).1 := by
  induction l generalizing x with
  | nil => exact h
  | cons a l ih => exact ih (hf x a h)

theorem Kept.iteFst {z : State} {β : Type} {a b : State × β} {c : Prop} [Decidable c] (h1 : Kept z a.1) (h2 : Kept z b.1) :
    Kept z (if c then a else b).1 := by
  split
  · exact h1
  · exact h2

theorem Kept.getD {z s : State} {o : Option State} (ho : ∀ t, o = some t → Kept z t) (h : Kept z s) : Kept z (o.getD s) := by
  cases o with
  | none => exact h
  | some t => exact ho t rfl

theorem Kept.elim {z s : State} {α : Type} {o : Option α} {f : α → State} (hf : ∀ a, Kept z (f a)) (h : Kept z s) : Kept z (o.elim s f) := by
  cases o with
  | none => exact h
  | some a => exact hf a

/-- The local store of a core that changes from `x` to `y` keeps its canonical form. -/
structure LsKept (x y : Core) : Prop where
  out : Mem.wf x.ls = true → Mem.wf y.ls = true

theorem LsKept.same {x y : Core} (h : y.ls = x.ls) : LsKept x y := ⟨fun w => h ▸ w⟩
theorem LsKept.ite {x a b : Core} {c : Prop} [Decidable c] (h1 : LsKept x a) (h2 : LsKept x b) : LsKept x (if c then a else b) := by
  split
  · exact h1
  · exact h2
theorem LsKept.trans {x y z : Core} (h1 : LsKept x y) (h2 : LsKept y z) : LsKept x z := ⟨fun w => h2.out (h1.out w)⟩

theorem coreOf_wf {s : State} (h : s.memWf) (c : Nat) : Mem.wf (coreOf s c).ls = true := by
  by_cases hc : c < 256
  · have := h.2.2.2 ⟨c, hc⟩
    simpa [coreOf, vget, hc] using this
  · rw [coreOf, vget, Vector.getElem?_eq_none (Nat.le_of_not_lt hc)]; rfl

theorem Kept.setCore {z s : State} (h : Kept z s) (c : Nat) (x : Core) (hx : LsKept (coreOf s c) x) : Kept z (setCore s c x) :=
  h.updMem rfl rfl rfl rfl rfl fun w => by
    refine ⟨w.1, w.2.1, w.2.2.1, fun d => ?_⟩
    show Mem.wf ((vset s.cores c x)[d]).ls = true
    by_cases hd : c = d.val
    · have h1 : (vset s.cores c x)[d] = x := by simp [vset, hd]
      rw [h1]; exact hx.out (coreOf_wf w c)
    · have h1 : (vset s.cores c x)[d] = s.cores[d] := by simp [vset, hd]
      rw [h1]; exact w.2.2.2 d

theorem Kept.mapCores {z s : State} {f : Core → Core} (h : Kept z s) (hf : ∀ x, LsKept x (f x)) :
    Kept z { s with cores := s.cores.map f } :=
  h.updMem rfl rfl rfl rfl rfl fun w => ⟨w.1, w.2.1, w.2.2.1, fun d => by
    have h1 : (s.cores.map f)[d] = f s.cores[d] := by simp
    rw [h1]; exact (hf _).out (w.2.2.2 d)⟩

/-- An update of other fields and of every core, as it unfolds. -/
theorem Kept.mk_map {z s : State} {f : Core → Core}
    {fresh_ : Nat} {outbox_ : List Output} {life_ : Life} {mgmt_ : Mgmt} {age_ : Ageing} {postmark_ : Word} {timeOn_ : Bool}
    {hstErr_ : BitVec 4} {hstErrEvents_ : BitVec 64} {rings_ : Vector Ring 65} {turn_ : Nat} {slots_ : List Taken} {msix_ : Vector
    MsixEntry 64} {msixPend_ : BitVec 64} {deadCount_ : BitVec 32} {healthSeq_ : BitVec 32} {active_ : Bool} {swaps_ : BitVec 32}
    {setA_ : ConfigSet} {setB_ : ConfigSet} {swap_ : Option Swap} {measured_ : ConfigSet} {ctxs_ : Vector CtxSlot 64} {keyDraws_ : Nat}
    {hostPoison_ : List Nat} {hostReject_ : List Nat} {hostLines_ : Table LineTag} {sharedBad_ : List Nat} {bankHits_ : List Nat}
    {lines_ : Table LineTag} {retiredPages_ : List (Nat × Nat)} {retiredBanks_ : List (BitVec 6)} {cache_ : List CacheLine}
    {clusters_ : Vector Cluster 16} {counters_ : Table Counter} {syncQ_ : Vector (List SyncReq) 16} {waiters_ : List Waiter}
    {counts_ : List CountMsg} {leases_ : Vector (List Lease) 16} {modId_ : Option (BitVec 14)} {ports_ : Vector Port 16} {txns_ : List
    Txn} {nextTxn_ : Table (BitVec 16)} {sendWait_ : List TxnReq} {dups_ : List DupEntry} {fabDrops_ : Nat} {lostMods_ : List
    (BitVec 14)} {reds_ : List Reduction} {stales_ : List Stale} {pipes_ : Vector VideoPipe 6} {videoAny_ : List VideoJob}
    {videoStopped_ : List (Nat × VideoJob)} {riskEvents_ : List RiskEvent} {riskScore_ : BitVec 64} {draining_ : Bool}
    (hf : ∀ x, LsKept x (f x)) (h : Kept z s) : Kept z (State.mk
      s.pending fresh_ outbox_ life_ mgmt_ age_ s.fw postmark_ timeOn_ s.big hstErr_ hstErrEvents_ rings_ turn_ slots_ msix_ msixPend_
      s.dead deadCount_ s.health healthSeq_ active_ swaps_ setA_ setB_ swap_ measured_ ctxs_ keyDraws_ s.hostMem hostPoison_ hostReject_
      hostLines_ s.shared sharedBad_ bankHits_ s.lpddr lines_ retiredPages_ retiredBanks_ cache_ (s.cores.map f) clusters_ counters_ syncQ_
      waiters_ counts_ leases_ modId_ ports_ txns_ nextTxn_ sendWait_ dups_ fabDrops_ lostMods_ reds_ stales_ pipes_ videoAny_
      videoStopped_ riskEvents_ riskScore_ draining_) :=
  (h.mapCores hf).upd rfl rfl rfl rfl rfl rfl rfl rfl rfl

theorem Kept.modCore {z s : State} (h : Kept z s) (c : Nat) {f : Core → Core} (hf : ∀ x, LsKept x (f x)) : Kept z (modCore s c f) :=
  h.setCore c _ (hf _)

/-- What a command answers has kept what `z` had. -/
structure KeptOut (z : State) (o : Out) : Prop where
  out : ∀ t, o = .next t → Kept z t

theorem KeptOut.next {z s : State} (h : Kept z s) : KeptOut z (.next s) := ⟨fun t e => by cases e; exact h⟩
theorem KeptOut.fault {z : State} (r : Fault) : KeptOut z (.fault r) := ⟨fun t e => by cases e⟩
theorem KeptOut.refused {z : State} (r : Refusal) : KeptOut z (.refused r) := ⟨fun t e => by cases e⟩
theorem KeptOut.ite {z : State} {a b : Out} {c : Prop} [Decidable c] (h1 : KeptOut z a) (h2 : KeptOut z b) :
    KeptOut z (if c then a else b) := by
  split
  · exact h1
  · exact h2

end Sys2Proof.Machine
end

