-- ==== Sys2Proof/Laws/KeptOps.lean ====
section
/-! SUPPORT. What each operation keeps, part 1 of 4: from `firmware` to `copyRow`. -/

namespace Sys2Proof.Machine

theorem firmware_kept {z s : State} {p : Packet} {f : State → State} (hf : ∀ a0, Kept z a0 → Kept z (f a0)) (hK : Kept z s) :
    KeptOut z (firmware p s f) := by
  unfold firmware
  repeat' first
    | with_reducible assumption | with_reducible apply hf | with_reducible apply KeptOut.ite | with_reducible apply KeptOut.next
    | with_reducible apply KeptOut.fault

theorem draw_kept {z s : State}  (hK : Kept z s) : Kept z (draw s) := by
  unfold draw
  repeat' first
    | with_reducible assumption | fail_if_no_progress (with_reducible apply Kept.mk_upd)

theorem emit_kept {z s : State} {o : Output} (hK : Kept z s) : Kept z (emit s o) := by
  unfold emit
  repeat' first
    | with_reducible assumption | fail_if_no_progress (with_reducible apply Kept.mk_upd)

theorem sendVector_kept {z s : State} {v : Nat} (hK : Kept z s) : Kept z (sendVector s v) := by
  unfold sendVector
  repeat' first
    | with_reducible assumption | with_reducible apply emit_kept | with_reducible apply Kept.ite
    | fail_if_no_progress (with_reducible apply Kept.mk_upd)

theorem setErr_kept {z s : State} {b : Nat} (hK : Kept z s) : Kept z (setErr s b) := by
  unfold setErr
  repeat' first
    | with_reducible assumption | with_reducible apply sendVector_kept | fail_if_no_progress (with_reducible apply Kept.mk_upd)

theorem deadLetter_kept {z s : State} {v : Violation} (h : Kept z s) : Kept z (deadLetter s v) := by
  unfold deadLetter
  apply setErr_kept
  exact h.updLogs rfl rfl rfl id (fun w => by simp only [List.length_drop, List.length_append, List.length_singleton]; omega)
    rfl rfl rfl rfl

theorem modSlot_kept {z s : State} {n : Nat} {f : CtxSlot → CtxSlot} (hK : Kept z s) : Kept z (modSlot s n f) := by
  unfold modSlot
  repeat' first
    | with_reducible assumption | fail_if_no_progress (with_reducible apply Kept.mk_upd)

theorem modCtx_kept {z s : State} {n : Nat} {f : Ctx → Ctx} (hK : Kept z s) : Kept z (modCtx s n f) := by
  unfold modCtx
  repeat' first
    | with_reducible assumption | with_reducible apply modSlot_kept

theorem setRing_kept {z s : State} {n : Nat} {r : Ring} (hK : Kept z s) : Kept z (setRing s n r) := by
  unfold setRing
  repeat' first
    | with_reducible assumption | fail_if_no_progress (with_reducible apply Kept.mk_upd)

theorem logHealth_kept {z s : State} {cls source code ctx loc : Nat} (h : Kept z s) : Kept z (logHealth s cls source code ctx loc) := by
  unfold logHealth
  split
  · exact h.updLogs rfl rfl rfl (fun w => by simpa using w) id rfl rfl rfl rfl
  · exact h.updLogs rfl rfl rfl (fun w => by simp only [List.length_drop, List.length_append, List.length_singleton]; omega) id
      rfl rfl rfl rfl

theorem lpWriteLine_kept {z s : State} {n line a : Nat} {bs : List Byte} (h : Kept z s) : Kept z (lpWriteLine s n line a bs) := by
  unfold lpWriteLine
  dsimp only
  apply Kept.ite
  · apply logHealth_kept
    exact h.updMem rfl rfl rfl rfl rfl fun w => ⟨w.1, w.2.1, Mem.wf_write _ _ w.2.2.1, w.2.2.2⟩
  · exact h.updMem rfl rfl rfl rfl rfl fun w => ⟨w.1, w.2.1, Mem.wf_write _ _ w.2.2.1, w.2.2.2⟩

theorem lpWrite_kept {z s : State} {n : Nat} {a : Nat} {bs : List Byte} (hK : Kept z s) : Kept z (lpWrite s n a bs) := by
  unfold lpWrite
  repeat' first
    | with_reducible assumption | intro _ | with_reducible apply lpWriteLine_kept | with_reducible apply Kept.foldl
    | fail_if_no_progress (with_reducible apply Kept.mk_upd)

theorem bareLine_kept {z s : State} {l : Nat} (h : Kept z s) : Kept z (bareLine s l) := by
  unfold bareLine
  apply Kept.ite h
  exact h.updMem rfl rfl rfl rfl rfl fun w => ⟨Mem.wf_write _ _ w.1, w.2⟩

theorem hostWrite_kept {z s : State} {a : Nat} {bs : List Byte} (h : Kept z s) : Kept z (hostWrite s a bs) :=
  (Kept.foldl _ (fun _ _ hs => bareLine_kept hs) h).updMem rfl rfl rfl rfl rfl fun w => ⟨Mem.wf_write _ _ w.1, w.2⟩

theorem ringWrite_kept {z s : State} {n : Nat} {base : BitVec 64} {off : Nat} {bs : List Byte} {res : State} (hK : Kept z s) :
    ringWrite s n base off bs = some res → Kept z res := by
  unfold ringWrite
  repeat' first
    | with_reducible assumption | with_reducible apply lpWrite_kept | with_reducible apply hostWrite_kept | (with_reducible rintro ⟨⟩)
    | split | dsimp only

theorem countViolation_kept {z s : State} {n : Nat} (hK : Kept z s) : Kept z (countViolation s n) := by
  unfold countViolation
  repeat' first
    | with_reducible assumption | with_reducible apply modCtx_kept

theorem writeReceipt_kept {z s : State} {n : Nat} {raw : BitVec 256} {notify : Bool} (hK : Kept z s) : Kept z (writeReceipt s n raw
    notify) := by
  unfold writeReceipt
  repeat' first
    | with_reducible assumption | with_reducible apply setRing_kept | with_reducible refine ringWrite_kept ?_ (by assumption)
    | with_reducible apply sendVector_kept | with_reducible apply deadLetter_kept | with_reducible apply countViolation_kept
    | fail_if_no_progress (with_reducible apply Kept.mk_upd) | split | dsimp only

theorem pushReceipt_kept {z s : State} {n : Nat} {raw : BitVec 256} {notify : Bool} (hK : Kept z s) : Kept z (pushReceipt s n raw
    notify) := by
  unfold pushReceipt
  repeat' first
    | with_reducible assumption | with_reducible apply setRing_kept | with_reducible apply writeReceipt_kept
    | with_reducible apply Kept.ite

theorem eventReceipt_kept {z s : State} {n : Nat} {status : Nat} {detail : Nat} {tag : Word} (hK : Kept z s) : Kept z (eventReceipt
    s n status detail tag) := by
  unfold eventReceipt
  repeat' first
    | with_reducible assumption | with_reducible apply pushReceipt_kept | with_reducible apply Kept.ite

theorem quarantine_kept {z s : State} {n : Nat} (hK : Kept z s) : Kept z (quarantine s n) := by
  unfold quarantine
  repeat' first
    | with_reducible assumption | with_reducible apply modCtx_kept | with_reducible apply setRing_kept
    | with_reducible apply eventReceipt_kept | with_reducible apply setErr_kept | with_reducible apply Kept.ite

theorem modPort_kept {z s : State} {p : Nat} {f : Port → Port} (hK : Kept z s) : Kept z (modPort s p f) := by
  unfold modPort
  repeat' first
    | with_reducible assumption | fail_if_no_progress (with_reducible apply Kept.mk_upd)

theorem sendOne_kept {z s : State} {n : Nat} (hK : Kept z s) : Kept z (sendOne s n) := by
  unfold sendOne
  repeat' first
    | with_reducible assumption | with_reducible apply emit_kept | with_reducible apply modPort_kept | split | dsimp only

theorem pump_kept {z s : State} {n : Nat} (hK : Kept z s) : Kept z (pump s n) := by
  unfold pump
  repeat' first
    | with_reducible assumption | intro _ | with_reducible apply sendOne_kept | with_reducible apply times_kept

theorem enqueue_kept {z s : State} {n : Nat} {t : Nat} {f : Flit} (hK : Kept z s) : Kept z (enqueue s n t f) := by
  unfold enqueue
  repeat' first
    | with_reducible assumption | with_reducible apply pump_kept | with_reducible apply modPort_kept

theorem bounce_kept {z s : State} {t : Nat} {f : Flit} {code : Nat} (hK : Kept z s) : Kept z (bounce s t f code) := by
  unfold bounce
  repeat' first
    | with_reducible assumption | with_reducible apply modPort_kept | with_reducible apply enqueue_kept | with_reducible apply Kept.ite
    | split

theorem routeOut_kept {z s : State} {t : Nat} {f : Flit} (hK : Kept z s) : Kept z (routeOut s t f) := by
  unfold routeOut
  repeat' first
    | with_reducible assumption | with_reducible apply enqueue_kept | with_reducible apply bounce_kept | split

theorem sendFlit_kept {z s : State} {t : Nat} {f : Flit} (hK : Kept z s) : Kept z (sendFlit s t f) := by
  unfold sendFlit
  repeat' first
    | with_reducible assumption | with_reducible apply routeOut_kept

theorem reply_kept {z s : State} {t : Nat} {f : Flit} {op : Nat} {status : Nat} {arg : BitVec 64} {data : List Byte} (hK : Kept z s)
    : Kept z (reply s t f op status arg data) := by
  unfold reply
  repeat' first
    | with_reducible assumption | intro _ | with_reducible apply sendFlit_kept | with_reducible apply Kept.foldl

theorem hostViolation_kept {z s : State} {v : Violation} {reply : State → State} (hreply : ∀ a0, Kept z a0 → Kept z (reply a0)) (hK
    : Kept z s) : Kept z (hostViolation s v reply) := by
  unfold hostViolation
  repeat' first
    | with_reducible assumption | with_reducible apply deadLetter_kept | with_reducible apply quarantine_kept
    | with_reducible apply countViolation_kept | with_reducible apply hreply | split

theorem badContext_kept {z s : State} {p : Packet} {opcode : Nat} (hK : Kept z s) : Kept z (badContext s p opcode) := by
  unfold badContext
  repeat' first
    | with_reducible assumption | intro _ | with_reducible apply draw_kept | with_reducible apply hostViolation_kept
    | with_reducible apply pushReceipt_kept

theorem ctxCommand_kept {z s : State} {p : Packet} {op : Nat} {f : Nat → State → State} (hf : ∀ a0 a1, Kept z a1 → Kept z (f a0 a1))
    (hK : Kept z s) : KeptOut z (ctxCommand p op s f) := by
  unfold ctxCommand
  repeat' first
    | with_reducible assumption | intro _ | with_reducible apply firmware_kept | with_reducible apply badContext_kept
    | with_reducible apply hf | split

theorem tcdCommand_kept {z s : State} {p : Packet} {sub : Nat} {f : Nat → State → State} (hf : ∀ a0 a1, Kept z a1 → Kept z (f a0
    a1)) (hK : Kept z s) : KeptOut z (tcdCommand p sub s f) := by
  unfold tcdCommand
  repeat' first
    | with_reducible assumption | with_reducible apply ctxCommand_kept | with_reducible apply KeptOut.ite
    | with_reducible apply KeptOut.next

theorem answerD_kept {z s : State} {p : Packet} {opcode : Nat} {status : Nat} {detail : Nat} (hK : Kept z s) : Kept z (answerD s p
    opcode status detail) := by
  unfold answerD
  repeat' first
    | with_reducible assumption | intro _ | with_reducible apply pushReceipt_kept | with_reducible apply draw_kept
    | with_reducible apply hostViolation_kept | with_reducible apply Kept.ite

theorem answer_kept {z s : State} {p : Packet} {opcode : Nat} {status : Nat} {detail : Nat} (hK : Kept z s) : Kept z (answer s p
    opcode status detail) := by
  unfold answer
  repeat' first
    | with_reducible assumption | with_reducible apply answerD_kept

theorem execTcdConfigSet_kept {z s : State} {p : Packet} (hK : Kept z s) : KeptOut z (execTcdConfigSet p s) := by
  unfold execTcdConfigSet
  repeat' first
    | with_reducible assumption | intro _ | with_reducible apply tcdCommand_kept | with_reducible apply answer_kept
    | with_reducible apply modCtx_kept | with_reducible apply Kept.ite

theorem execTcdConfigClear_kept {z s : State} {p : Packet} (hK : Kept z s) : KeptOut z (execTcdConfigClear p s) := by
  unfold execTcdConfigClear
  repeat' first
    | with_reducible assumption | intro _ | with_reducible apply tcdCommand_kept | with_reducible apply answer_kept
    | with_reducible apply modCtx_kept | with_reducible apply Kept.ite

theorem execTcdConfigPoolAdd_kept {z s : State} {p : Packet} (hK : Kept z s) : KeptOut z (execTcdConfigPoolAdd p s) := by
  unfold execTcdConfigPoolAdd
  repeat' first
    | with_reducible assumption | intro _ | with_reducible apply tcdCommand_kept | with_reducible apply answer_kept
    | with_reducible apply modCtx_kept | with_reducible apply Kept.ite

theorem hostHomeWrite_kept {z s : State} {n a : Nat} {bs : List Byte} (h : Kept z s) : Kept z (hostHomeWrite s n a bs) := by
  unfold hostHomeWrite
  exact Kept.foldl _ (fun s line hs => hs.updMem rfl rfl rfl rfl rfl fun w => ⟨Mem.wf_write _ _ w.1, w.2⟩) h

theorem writePlace_kept {z s : State} {n : Nat} {pl : Place} {off : Nat} {bs : List Byte} (h : Kept z s) :
    Kept z (writePlace s n pl off bs) := by
  unfold writePlace
  cases pl with
  | lpddr a => exact lpWrite_kept (Kept.ite (Kept.foldl _ (fun _ _ hs => emit_kept hs) h) h)
  | shared a => exact h.updMem rfl rfl rfl rfl rfl fun w => ⟨w.1, Mem.wf_write _ _ w.2.1, w.2.2⟩
  | host a => exact Kept.ite h (hostHomeWrite_kept h)
  | remote a => exact emit_kept h

theorem writeObj_kept {z s : State} {n : Nat} {o : Obj} {off : Nat} {bs : List Byte} (hK : Kept z s) : Kept z (writeObj s n o off
    bs) := by
  unfold writeObj
  repeat' first
    | with_reducible assumption | with_reducible apply writePlace_kept | with_reducible apply Kept.ite

theorem putObj_kept {z s : State} {n : Nat} {id : Nat} {off : Nat} {len : Nat} {v : Nat} (hK : Kept z s) : Kept z (putObj s n id off
    len v) := by
  unfold putObj
  repeat' first
    | with_reducible assumption | with_reducible apply writeObj_kept | split

theorem reservePool_kept {z s : State} {n rows base : Nat} {l : List (BitVec 32)} {res : State × Nat} (hK : Kept z s) :
    reservePool s n rows base l = some res → Kept z res.1 := by
  induction l generalizing base with
  | nil => unfold reservePool; rintro ⟨⟩
  | cons a l ih =>
    unfold reservePool
    dsimp only
    split
    · rintro ⟨⟩; exact putObj_kept hK
    · exact ih

theorem tcdSet_kept {z s : State} {n : Nat} {b : Nat} {cfg : Nat} (hK : Kept z s) : Kept z (tcdSet s n b cfg) := by
  unfold tcdSet
  repeat' first
    | with_reducible assumption | with_reducible apply modCtx_kept

theorem noteRaw_kept {z s : State} {n : Nat} {cfg : Nat} {rows : Nat} (hK : Kept z s) : Kept z (noteRaw s n cfg rows) := by
  unfold noteRaw
  repeat' first
    | with_reducible assumption | with_reducible apply modCtx_kept | with_reducible apply tcdSet_kept

theorem modCluster_kept {z s : State} {c : Nat} {f : Cluster → Cluster} (hK : Kept z s) : Kept z (modCluster s c f) := by
  unfold modCluster
  repeat' first
    | with_reducible assumption | fail_if_no_progress (with_reducible apply Kept.mk_upd)

theorem modLane_kept {z s : State} {k : Nat} {expand : Bool} {f : CodecLane → CodecLane} (hK : Kept z s) : Kept z (modLane s k
    expand f) := by
  unfold modLane
  repeat' first
    | with_reducible assumption | with_reducible apply modCluster_kept

theorem setCore_kept {z s : State} {c : Nat} {x : Core} (hx : LsKept (coreOf s c) x) (h : Kept z s) :
    Kept z (setCore s c x) :=
  h.setCore c x hx

theorem modCore_kept {z s : State} {c : Nat} {f : Core → Core} (hf : ∀ x, LsKept x (f x)) (h : Kept z s) : Kept z (modCore s c f) :=
  h.modCore c hf

theorem wakeHeld_kept (h : Hold) (c : Core) : LsKept c (wakeHeld h c) := by
  unfold wakeHeld
  repeat' first
    | with_reducible exact LsKept.same rfl

theorem freeCodec_kept {z s : State} {k : Nat} (hK : Kept z s) : Kept z (freeCodec s k) := by
  unfold freeCodec
  repeat' first
    | with_reducible assumption | intro _ | with_reducible apply modCore_kept | with_reducible apply wakeHeld_kept
    | with_reducible apply Kept.foldl

theorem setThread_kept (c : Core) (t : Nat) (x : Thread) : LsKept c (setThread c t x) := by
  unfold setThread
  repeat' first
    | with_reducible exact LsKept.same rfl

theorem modThread_kept {z s : State} {c : Nat} {t : Nat} {f : Thread → Thread} (hK : Kept z s) : Kept z (modThread s c t f) := by
  unfold modThread
  repeat' first
    | with_reducible assumption | intro _ | with_reducible apply modCore_kept | with_reducible apply setThread_kept

theorem instrFault_kept {z s : State} {u : Issuer} {pc : Nat} {code : Nat} (hK : Kept z s) : Kept z (instrFault s u pc code) := by
  unfold instrFault
  repeat' first
    | with_reducible assumption | with_reducible apply logHealth_kept | with_reducible apply modCtx_kept
    | with_reducible apply modThread_kept | split

theorem releaseTag_kept {z s : State} {c : Nat} (hK : Kept z s) : Kept z (releaseTag s c) := by
  unfold releaseTag
  repeat' first
    | with_reducible assumption | intro _ | with_reducible apply modCore_kept | with_reducible exact LsKept.same rfl

theorem setStream_kept (c : Core) (k : Nat) (x : Stream) : LsKept c (setStream c k x) := by
  unfold setStream
  repeat' first
    | with_reducible exact LsKept.same rfl

theorem modStream_kept {z s : State} {c : Nat} {k : Nat} {f : Stream → Stream} (hK : Kept z s) : Kept z (modStream s c k f) := by
  unfold modStream
  repeat' first
    | with_reducible assumption | intro _ | with_reducible apply modCore_kept | with_reducible apply setStream_kept

theorem arrive_kept {z s : State} {r : SyncReq} (hK : Kept z s) : Kept z (arrive s r) := by
  unfold arrive
  repeat' first
    | with_reducible assumption | fail_if_no_progress (with_reducible apply Kept.mk_upd)

theorem sendTxn_kept {z s : State} {r : TxnReq} (hK : Kept z s) : Kept z (sendTxn s r) := by
  unfold sendTxn
  repeat' first
    | with_reducible assumption | intro _ | with_reducible apply sendFlit_kept | with_reducible apply Kept.foldl
    | fail_if_no_progress (with_reducible apply Kept.mk_upd)

theorem flushSends_kept {z s : State}  (hK : Kept z s) : Kept z (flushSends s) := by
  unfold flushSends
  repeat' first
    | with_reducible assumption | intro _ | with_reducible apply sendTxn_kept | with_reducible apply Kept.ite
    | with_reducible apply Kept.foldl | fail_if_no_progress (with_reducible apply Kept.mk_upd)

theorem request_kept {z s : State} {r : TxnReq} (hK : Kept z s) : Kept z (request s r) := by
  unfold request
  repeat' first
    | with_reducible assumption | with_reducible apply flushSends_kept | fail_if_no_progress (with_reducible apply Kept.mk_upd)

theorem remoteSignal_kept {z s : State} {core : BitVec 8} {slot : Nat} {vid : Nat} {m : BitVec 14} {value : Word} {opId : Option
    Nat} (hK : Kept z s) : Kept z (remoteSignal s core slot vid m value opId) := by
  unfold remoteSignal
  repeat' first
    | with_reducible assumption | with_reducible apply request_kept

theorem signalVid_kept {z s : State} {core : BitVec 8} {slot : Nat} {vid : Nat} {v : Word} (hK : Kept z s) : Kept z (signalVid s
    core slot vid v) := by
  unfold signalVid
  repeat' first
    | with_reducible assumption | with_reducible apply arrive_kept | with_reducible apply remoteSignal_kept
    | with_reducible apply logHealth_kept | split

theorem signalEnd_kept {z s : State} {core : Nat} {n : Nat} {d : BitVec 512} (hK : Kept z s) : Kept z (signalEnd s core n d) := by
  unfold signalEnd
  repeat' first
    | with_reducible assumption | with_reducible apply signalVid_kept | with_reducible apply Kept.ite

theorem sendVoteTo_kept {z s : State} {m : Members} {i : Nat} {v : VoteMsg} (hK : Kept z s) : Kept z (sendVoteTo s m i v) := by
  unfold sendVoteTo
  repeat' first
    | with_reducible assumption | with_reducible apply emit_kept | split

theorem sendDown_kept {z s : State} {m : Members} {v : VoteMsg} (hK : Kept z s) : Kept z (sendDown s m v) := by
  unfold sendDown
  repeat' first
    | with_reducible assumption | intro _ | with_reducible apply sendVoteTo_kept | with_reducible apply Kept.foldl | split

theorem sendUp_kept {z s : State} {m : Members} {v : VoteMsg} (hK : Kept z s) : Kept z (sendUp s m v) := by
  unfold sendUp
  repeat' first
    | with_reducible assumption | with_reducible apply sendVoteTo_kept | with_reducible apply sendDown_kept | split

theorem settleSatchels_kept {z s : State} {n : Nat} (hK : Kept z s) : Kept z (settleSatchels s n) := by
  unfold settleSatchels
  repeat' first
    | with_reducible assumption | intro _ | with_reducible apply modCtx_kept | with_reducible apply answer_kept
    | with_reducible apply Kept.foldl | split

theorem dropFirmwareWaiter_kept {z s : State} {n : Nat} (hK : Kept z s) : Kept z (dropFirmwareWaiter s n) := by
  unfold dropFirmwareWaiter
  repeat' first
    | with_reducible assumption | fail_if_no_progress (with_reducible apply Kept.mk_upd)

theorem closeStep_kept {z s : State} {n : Nat} {p : Packet} {status : Nat} {detail : Nat} (hK : Kept z s) : Kept z (closeStep s n p
    status detail) := by
  unfold closeStep
  repeat' first
    | with_reducible assumption | with_reducible apply modCtx_kept | with_reducible apply settleSatchels_kept
    | with_reducible apply dropFirmwareWaiter_kept | with_reducible apply answer_kept

theorem answerCancelled_kept {z s : State} {n : Nat} {p : Packet} {detail : Nat} (hK : Kept z s) : Kept z (answerCancelled s n p
    detail) := by
  unfold answerCancelled
  repeat' first
    | with_reducible assumption | with_reducible apply closeStep_kept

theorem dropStep_kept {z s : State} {n : Nat} {detail : Nat} (hK : Kept z s) : Kept z (dropStep s n detail) := by
  unfold dropStep
  repeat' first
    | with_reducible assumption | with_reducible apply modCtx_kept | with_reducible apply answerCancelled_kept
    | fail_if_no_progress (with_reducible apply Kept.mk_upd) | split

theorem abortStep_kept {z s : State} {n : Nat} {detail : Nat} (hK : Kept z s) : Kept z (abortStep s n detail) := by
  unfold abortStep
  repeat' first
    | with_reducible assumption | with_reducible apply sendUp_kept | with_reducible apply dropStep_kept | split

theorem cancelCore_kept {z s : State} {c : Nat} (hK : Kept z s) : Kept z (cancelCore s c) := by
  unfold cancelCore
  repeat' first
    | with_reducible assumption | intro _ | with_reducible apply modCore_kept | with_reducible exact LsKept.same rfl

theorem dropThreadWaiters_kept {z s : State} {c : Nat} (hK : Kept z s) : Kept z (dropThreadWaiters s c) := by
  unfold dropThreadWaiters
  repeat' first
    | with_reducible assumption | fail_if_no_progress (with_reducible apply Kept.mk_upd)

theorem haltCore_kept {z s : State} {c : Nat} (hK : Kept z s) : Kept z (haltCore s c) := by
  unfold haltCore
  repeat' first
    | with_reducible assumption | intro _ | with_reducible apply dropThreadWaiters_kept | with_reducible apply modCore_kept
    | with_reducible exact LsKept.same rfl

theorem setSeqState_kept {z s : State} {n : Nat} {pt : Nat} {q : Nat} {st : Nat} (hK : Kept z s) : Kept z (setSeqState s n pt q st) := by
  unfold setSeqState
  repeat' first
    | with_reducible assumption | with_reducible apply putObj_kept

theorem syncStale_kept {z s : State} {r : SyncReq} (hK : Kept z s) : Kept z (syncStale s r) := by
  unfold syncStale
  repeat' first
    | with_reducible assumption | with_reducible apply logHealth_kept | with_reducible apply reply_kept | split

theorem signalSig_kept {z s : State} {core : BitVec 8} {slot : Nat} {sig : Option (BitVec 20)} (hK : Kept z s) : Kept z (signalSig s
    core slot sig) := by
  unfold signalSig
  repeat' first
    | with_reducible assumption | with_reducible apply signalVid_kept | split

theorem syncDone_kept {z s : State} {r : SyncReq} {v : Word} (hK : Kept z s) : Kept z (syncDone s r v) := by
  unfold syncDone
  repeat' first
    | with_reducible assumption | with_reducible apply signalSig_kept | with_reducible apply reply_kept
    | with_reducible apply modThread_kept | split

theorem setCounter_kept {z s : State} {pid : Nat} {c : Counter} (hK : Kept z s) : Kept z (setCounter s pid c) := by
  unfold setCounter
  repeat' first
    | with_reducible assumption | fail_if_no_progress (with_reducible apply Kept.mk_upd)

theorem publish_kept {z s : State} {pid : BitVec 16} {count : Option Word} (hK : Kept z s) : Kept z (publish s pid count) := by
  unfold publish
  repeat' first
    | with_reducible assumption | fail_if_no_progress (with_reducible apply Kept.mk_upd)

theorem setCount_kept {z s : State} {pid : BitVec 16} {c : Counter} {v : Word} (hK : Kept z s) : Kept z (setCount s pid c v) := by
  unfold setCount
  repeat' first
    | with_reducible assumption | with_reducible apply setCounter_kept | with_reducible apply publish_kept | with_reducible apply Kept.ite

theorem cancelStreamsOn_kept {z s : State} {slot : Nat} {pid : BitVec 16} (hK : Kept z s) : Kept z (cancelStreamsOn s slot pid) :=
  hK.mapCores fun _ => LsKept.ite (LsKept.same rfl) (LsKept.same rfl)

theorem poisonCounter_kept {z s : State} {pid : BitVec 16} (hK : Kept z s) : Kept z (poisonCounter s pid) := by
  unfold poisonCounter
  repeat' first
    | with_reducible assumption | with_reducible apply cancelStreamsOn_kept | with_reducible apply publish_kept
    | with_reducible apply setCounter_kept | split

theorem setLeases_kept {z s : State} {pid : BitVec 16} {l : List Lease} (hK : Kept z s) : Kept z (setLeases s pid l) := by
  unfold setLeases
  repeat' first
    | with_reducible assumption | fail_if_no_progress (with_reducible apply Kept.mk_upd)

theorem leaseTake_kept {z s : State} {pid : BitVec 16} {c : Counter} {who : Issuer} {res : _} (hK : Kept z s) : leaseTake s pid c
    who = some res → Kept z res.1 := by
  unfold leaseTake
  repeat' first
    | with_reducible assumption | with_reducible apply setLeases_kept | with_reducible apply setCounter_kept
    | with_reducible apply setCount_kept | (with_reducible rintro ⟨⟩) | split | dsimp only

theorem enterWaiter_kept {z s : State} {r : SyncReq} (hK : Kept z s) : Kept z (enterWaiter s r) := by
  unfold enterWaiter
  repeat' first
    | with_reducible assumption | with_reducible apply modThread_kept | fail_if_no_progress (with_reducible apply Kept.mk_upd) | split

theorem applySync_kept {z s : State} {r : SyncReq} {res : State} (hK : Kept z s) : applySync s r = some res → Kept z res := by
  unfold applySync
  repeat' first
    | with_reducible assumption | with_reducible apply syncStale_kept | with_reducible apply logHealth_kept
    | with_reducible apply syncDone_kept | with_reducible apply setCount_kept | with_reducible apply poisonCounter_kept
    | with_reducible apply setCounter_kept | with_reducible refine leaseTake_kept ?_ (by assumption)
    | with_reducible apply enterWaiter_kept | (with_reducible rintro ⟨⟩) | split

theorem applyWaiting_kept {z s : State} {pid : BitVec 16} (hK : Kept z s) : Kept z (applyWaiting s pid) := by
  unfold applyWaiting
  repeat' first
    | with_reducible assumption | intro _ | with_reducible refine applySync_kept ?_ (by assumption) | with_reducible apply Kept.foldl
    | fail_if_no_progress (with_reducible apply Kept.mk_upd) | with_reducible apply Kept.getD

theorem signalFw_kept {z s : State} {slot : Nat} {vid : Nat} {v : Word} (hK : Kept z s) : Kept z (signalFw s slot vid v) := by
  unfold signalFw
  repeat' first
    | with_reducible assumption | intro _ | with_reducible apply applyWaiting_kept
    | with_reducible refine applySync_kept ?_ (by assumption) | with_reducible apply remoteSignal_kept
    | with_reducible apply logHealth_kept | with_reducible apply Kept.getD | split

theorem returnPage_kept {z s : State} {n : Nat} {d : BitVec 256} {ppn : Nat} (hK : Kept z s) : Kept z (returnPage s n d ppn) := by
  unfold returnPage
  repeat' first
    | with_reducible assumption | with_reducible apply signalFw_kept | with_reducible apply putObj_kept

theorem settleTickets_kept {z s : State} {n : Nat} (hK : Kept z s) : Kept z (settleTickets s n) := by
  unfold settleTickets
  repeat' first
    | with_reducible assumption | intro _ | with_reducible apply returnPage_kept | with_reducible apply modCtx_kept
    | with_reducible apply times_kept | split

theorem attWaiting_kept {z s : State} {n : Nat} (hK : Kept z s) : Kept z (attWaiting s n) := by
  unfold attWaiting
  repeat' first
    | with_reducible assumption | with_reducible apply modCtx_kept

theorem resumeTile_kept {z s : State} {w : Walk} {ppn : Option (BitVec 24)} (hK : Kept z s) : Kept z (resumeTile s w ppn) := by
  unfold resumeTile
  repeat' first
    | with_reducible assumption | with_reducible apply modStream_kept

theorem dropWalkWaiter_kept {z s : State} {w : Walk} (hK : Kept z s) : Kept z (dropWalkWaiter s w) := by
  unfold dropWalkWaiter
  repeat' first
    | with_reducible assumption | fail_if_no_progress (with_reducible apply Kept.mk_upd)

theorem endSeqWait_kept {z s : State} {n : Nat} {pt : Nat} {w : SeqWait} {st : Nat} (hK : Kept z s) : Kept z (endSeqWait s n pt w
    st) := by
  unfold endSeqWait
  repeat' first
    | with_reducible assumption | with_reducible apply setSeqState_kept | with_reducible apply modCtx_kept
    | with_reducible apply settleTickets_kept | with_reducible apply attWaiting_kept | with_reducible apply resumeTile_kept
    | with_reducible apply dropWalkWaiter_kept

theorem endSeqWaits_kept {z s : State} {n : Nat} {st : Nat} (hK : Kept z s) : Kept z (endSeqWaits s n st) := by
  unfold endSeqWaits
  repeat' first
    | with_reducible assumption | intro _ | with_reducible apply endSeqWait_kept | with_reducible apply Kept.foldl | split

theorem dropCodecTile_kept {z s : State} {j : CodecJob} (hK : Kept z s) : Kept z (dropCodecTile s j) := by
  unfold dropCodecTile
  repeat' first
    | with_reducible assumption | intro _ | with_reducible apply modCore_kept | with_reducible exact LsKept.same rfl
    | with_reducible apply modStream_kept | split

theorem dropStalledJobs_kept {z s : State} {n : Nat} (hK : Kept z s) : Kept z (dropStalledJobs s n) := by
  unfold dropStalledJobs
  repeat' first
    | with_reducible assumption | with_reducible apply dropCodecTile_kept | with_reducible apply Kept.foldl
    | fail_if_no_progress (with_reducible apply Kept.mk_upd)

theorem cancelPlanWork_kept {z s : State} {n : Nat} (hK : Kept z s) : Kept z (cancelPlanWork s n) := by
  unfold cancelPlanWork
  repeat' first
    | with_reducible assumption | intro _ | with_reducible apply cancelCore_kept | with_reducible apply haltCore_kept
    | with_reducible apply endSeqWaits_kept | with_reducible apply dropStalledJobs_kept | with_reducible apply Kept.foldl

theorem endPlan_kept {z s : State} {n : Nat} {status : Nat} {detail : Nat} {stepDetail : Nat} (hK : Kept z s) : Kept z (endPlan s n
    status detail stepDetail) := by
  unfold endPlan
  repeat' first
    | with_reducible assumption | with_reducible apply modCtx_kept | with_reducible apply abortStep_kept
    | with_reducible apply cancelPlanWork_kept | split

theorem risk_kept {z s : State} {row : Nat} {weight : Nat} (hK : Kept z s) : Kept z (risk s row weight) := by
  unfold risk
  repeat' first
    | with_reducible assumption | fail_if_no_progress (with_reducible apply Kept.mk_upd)

theorem putEntry_kept {z s : State} {n : Nat} {id : Nat} {o : Obj} (hK : Kept z s) : Kept z (putEntry s n id o) := by
  unfold putEntry
  repeat' first
    | with_reducible assumption | with_reducible apply modCtx_kept

theorem tellBinders_kept {z s : State} {o : Obj} {msg : BitVec 14 → Output} (hK : Kept z s) : Kept z (tellBinders s o msg) := by
  unfold tellBinders
  repeat' first
    | with_reducible assumption | intro _ | with_reducible apply emit_kept | with_reducible apply Kept.foldl

theorem migrationBack_kept {z s : State} {n : Nat} {id : Nat} {o : Obj} {m : Migration} {status : Nat} (hK : Kept z s) : Kept z
    (migrationBack s n id o m status) := by
  unfold migrationBack
  repeat' first
    | with_reducible assumption | with_reducible apply putEntry_kept | with_reducible apply answer_kept
    | with_reducible apply tellBinders_kept

theorem retireBank_kept {z s : State} {b : Nat} (hK : Kept z s) : Kept z (retireBank s b) := by
  unfold retireBank
  repeat' first
    | with_reducible assumption | intro _ | with_reducible apply logHealth_kept | with_reducible apply migrationBack_kept
    | with_reducible apply putEntry_kept | with_reducible apply Kept.foldl | fail_if_no_progress (with_reducible apply Kept.mk_upd)
    | split

theorem hitShared_kept {z s : State} {a : Nat} (hK : Kept z s) : Kept z (hitShared s a) := by
  unfold hitShared
  repeat' first
    | with_reducible assumption | with_reducible apply retireBank_kept | with_reducible apply Kept.ite
    | fail_if_no_progress (with_reducible apply Kept.mk_upd)

theorem poisonData_kept {z s : State} {n addr : Nat} (h : Kept z s) : Kept z (poisonData s n addr) :=
  hostViolation_kept (fun _ h => h) (setErr_kept h)

theorem noteBad_kept {z s : State} {n : Nat} {o : Obj} {off : Nat} (hK : Kept z s) : Kept z (noteBad s n o off) := by
  unfold noteBad
  repeat' first
    | with_reducible assumption | with_reducible apply risk_kept | with_reducible apply logHealth_kept
    | with_reducible apply hitShared_kept | with_reducible apply poisonData_kept | split

theorem homeError_kept {z s : State} {n : Nat} {o : Obj} {off : Nat} (hK : Kept z s) : Kept z (homeError s n o off) := by
  unfold homeError
  repeat' first
    | with_reducible assumption | with_reducible apply endPlan_kept | with_reducible apply noteBad_kept | with_reducible apply Kept.ite

theorem attSet_kept {z s : State} {n : Nat} {b : Nat} {q : Option Nat} (hK : Kept z s) : Kept z (attSet s n b q) := by
  unfold attSet
  repeat' first
    | with_reducible assumption | with_reducible apply modCtx_kept

theorem seqEnded_kept {z s : State} {n : Nat} {q : Nat} {status : Nat} (hK : Kept z s) : Kept z (seqEnded s n q status) := by
  unfold seqEnded
  repeat' first
    | with_reducible assumption | with_reducible apply eventReceipt_kept | with_reducible apply attSet_kept

theorem armSeq_kept {z s : State} {n : Nat} {d : BitVec 512} (hK : Kept z s) : Kept z (armSeq s n d) := by
  unfold armSeq
  repeat' first
    | with_reducible assumption | intro _ | with_reducible apply homeError_kept | with_reducible apply seqEnded_kept
    | with_reducible apply setSeqState_kept | with_reducible apply Kept.ite | with_reducible apply Kept.elim | split

theorem dropStreamWaiter_kept {z s : State} {core : Nat} {k : Nat} (hK : Kept z s) : Kept z (dropStreamWaiter s core k) := by
  unfold dropStreamWaiter
  repeat' first
    | with_reducible assumption | fail_if_no_progress (with_reducible apply Kept.mk_upd)

theorem freeDone_kept {z s : State} {core : Nat} {n : Nat} {k : Nat} (hK : Kept z s) : Kept z (freeDone s core n k) := by
  unfold freeDone
  repeat' first
    | with_reducible assumption | with_reducible apply signalEnd_kept | with_reducible apply dropStreamWaiter_kept
    | with_reducible apply modStream_kept

theorem endDesc_kept {z s : State} {core : Nat} {n : Nat} {k : Nat} (hK : Kept z s) : Kept z (endDesc s core n k) := by
  unfold endDesc
  repeat' first
    | with_reducible assumption | with_reducible apply signalEnd_kept | with_reducible apply armSeq_kept
    | with_reducible apply freeDone_kept | with_reducible apply modStream_kept | with_reducible apply Kept.ite | split

theorem signalTiles_kept {z : State} (k : Nat) : ∀ (s : State) (c n j : Nat), Kept z s → Kept z (signalTiles k s c n j) := by
  induction k with
  | zero => intro s c n j h; exact h
  | succ f ih =>
    intro s c n j h
    unfold signalTiles
    dsimp only
    repeat' first
      | with_reducible apply ih | with_reducible assumption | with_reducible apply signalVid_kept | with_reducible apply endDesc_kept
      | with_reducible apply modStream_kept | with_reducible apply Kept.ite | split

theorem completeTile_kept {z s : State} {c : Nat} {n : Nat} {k : Nat} {t : Nat} (hK : Kept z s) : Kept z (completeTile s c n k t) := by
  unfold completeTile
  repeat' first
    | with_reducible assumption | with_reducible apply releaseTag_kept | with_reducible apply signalVid_kept
    | with_reducible apply signalTiles_kept | with_reducible apply modStream_kept | with_reducible apply Kept.ite

theorem failJob_kept {z s : State} {j : CodecJob} {code : Nat} (hK : Kept z s) : Kept z (failJob s j code) := by
  unfold failJob
  repeat' first
    | with_reducible assumption | with_reducible apply instrFault_kept | with_reducible apply completeTile_kept
    | with_reducible apply endPlan_kept | split

theorem runJob_kept {z s : State} {k : Nat} {j : CodecJob} (hK : Kept z s) : Kept z (runJob s k j) := by
  unfold runJob
  repeat' first
    | with_reducible assumption | with_reducible apply modLane_kept

theorem startJob_kept {z s : State} {k : Nat} {j : CodecJob} {p : BitVec 256} (hK : Kept z s) : Kept z (startJob s k j p) := by
  unfold startJob
  repeat' first
    | with_reducible assumption | with_reducible apply runJob_kept | with_reducible refine reservePool_kept ?_ (by assumption)
    | with_reducible apply tcdSet_kept | with_reducible apply modLane_kept | with_reducible apply dropStalledJobs_kept
    | with_reducible apply eventReceipt_kept | with_reducible apply Kept.ite | split

theorem execCodecJobStart_kept {z s : State} {cluster : BitVec 4} {expand : Bool} (hK : Kept z s) : KeptOut z (execCodecJobStart
    cluster expand s) := by
  unfold execCodecJobStart
  repeat' first
    | with_reducible assumption | with_reducible apply freeCodec_kept | with_reducible apply modLane_kept
    | with_reducible apply failJob_kept | with_reducible apply startJob_kept | with_reducible apply KeptOut.next | split | dsimp only

theorem lsPut_kept {z s : State} {c : Nat} {a : Nat} {bs : List Byte} (hK : Kept z s) : Kept z (lsPut s c a bs) := by
  unfold lsPut
  repeat' first
    | with_reducible assumption | intro _ | with_reducible apply modCore_kept | exact ⟨fun w => Mem.wf_write _ _ w⟩

theorem dataError_kept {z s : State} {n : Nat} {source : Nat} {loc : Nat} (hK : Kept z s) : Kept z (dataError s n source loc) := by
  unfold dataError
  repeat' first
    | with_reducible assumption | with_reducible apply endPlan_kept | with_reducible apply risk_kept | with_reducible apply logHealth_kept

theorem writeHome_kept {z s : State} {n : Nat} {o : Obj} {off : Nat} {bs : List Byte} (hK : Kept z s) : Kept z (writeHome s n o off
    bs) := by
  unfold writeHome
  repeat' first
    | with_reducible assumption | with_reducible apply homeError_kept | with_reducible apply writeObj_kept | with_reducible apply Kept.ite

theorem putOutput_kept {z s : State} {j : CodecJob} {bs : List Byte} (hK : Kept z s) : Kept z (putOutput s j bs) := by
  unfold putOutput
  repeat' first
    | with_reducible assumption | with_reducible apply lsPut_kept | with_reducible apply dataError_kept
    | with_reducible apply writeHome_kept | split | dsimp only

theorem putRef_kept {z s : State} {j : CodecJob} {p : BitVec 256} {entry : List Byte} (hK : Kept z s) : Kept z (putRef s j p entry) := by
  unfold putRef
  repeat' first
    | with_reducible assumption | with_reducible apply writeHome_kept | split

theorem putPool_kept {z s : State} {j : CodecJob} {p : BitVec 256} (hK : Kept z s) : Kept z (putPool s j p) := by
  unfold putPool
  repeat' first
    | with_reducible assumption | intro _ | with_reducible apply writeHome_kept | with_reducible apply Kept.foldl | split

theorem jobError_kept {z s : State} {j : CodecJob} {p : BitVec 256} {at_ : Option (BitVec 32 × Nat)} (hK : Kept z s) : Kept z
    (jobError s j p at_) := by
  unfold jobError
  repeat' first
    | with_reducible assumption | with_reducible apply homeError_kept | with_reducible apply dataError_kept | split | dsimp only

theorem finishEnc_kept {z s : State} {j : CodecJob} {p : BitVec 256} {hard : Bool} (hK : Kept z s) : Kept z (finishEnc s j p hard) := by
  unfold finishEnc
  repeat' first
    | with_reducible assumption | with_reducible apply jobError_kept | with_reducible apply putRef_kept
    | with_reducible apply putOutput_kept | with_reducible apply draw_kept | with_reducible apply putPool_kept
    | with_reducible apply noteRaw_kept | with_reducible apply Kept.ite

theorem putExpanded_kept {z s : State} {j : CodecJob} {p : BitVec 256} {tile : List Byte} {notExact : Nat} {first : Nat} (hK : Kept
    z s) : Kept z (putExpanded s j p tile notExact first) := by
  unfold putExpanded
  repeat' first
    | with_reducible assumption | with_reducible apply putOutput_kept | with_reducible apply lsPut_kept | with_reducible apply tcdSet_kept
    | with_reducible apply putRef_kept | split

theorem finishDec_kept {z s : State} {j : CodecJob} {p : BitVec 256} {hard : Bool} (hK : Kept z s) : Kept z (finishDec s j p hard) := by
  unfold finishDec
  repeat' first
    | with_reducible assumption | with_reducible apply putExpanded_kept | with_reducible apply draw_kept
    | with_reducible apply jobError_kept | with_reducible apply endPlan_kept | with_reducible apply tcdSet_kept
    | with_reducible apply Kept.ite

theorem noteSoft_kept {z s : State} {n : Nat} {o : Obj} {off : Nat} (hK : Kept z s) : Kept z (noteSoft s n o off) := by
  unfold noteSoft
  repeat' first
    | with_reducible assumption | with_reducible apply risk_kept | with_reducible apply logHealth_kept

theorem noteSofts_kept {z s : State} {n : Nat} {o : Obj} {soft : List Nat} (hK : Kept z s) : Kept z (noteSofts s n o soft) := by
  unfold noteSofts
  repeat' first
    | with_reducible assumption | intro _ | with_reducible apply noteSoft_kept | with_reducible apply Kept.ite
    | with_reducible apply Kept.foldl

theorem execCodecJobComplete_kept {z s : State} {cluster : BitVec 4} {expand : Bool} {ecc : Ecc} (hK : Kept z s) : KeptOut z
    (execCodecJobComplete cluster expand ecc s) := by
  unfold execCodecJobComplete
  repeat' first
    | with_reducible assumption | intro _ | with_reducible apply failJob_kept | with_reducible apply freeCodec_kept
    | with_reducible apply modLane_kept | with_reducible apply noteSofts_kept | with_reducible apply finishDec_kept
    | with_reducible apply finishEnc_kept | with_reducible apply signalSig_kept | with_reducible apply completeTile_kept
    | with_reducible apply Kept.elim | with_reducible apply KeptOut.next | split | dsimp only

theorem flagEvents_kept {z s : State} {n : Nat} {src : Nat} {e : Events} (hK : Kept z s) : Kept z (flagEvents s n src e) := by
  unfold flagEvents
  repeat' first
    | with_reducible assumption | with_reducible apply modCtx_kept | with_reducible apply Kept.ite

theorem placeResult_kept {z s : State} {n : Nat} {t : RedTree} {g : Nat} {k : Nat} {bs : List Byte} {tile : Tile} (hK : Kept z s) :
    Kept z (placeResult s n t g k bs tile) := by
  unfold placeResult
  repeat' first
    | with_reducible assumption | with_reducible apply modPort_kept | with_reducible apply writeHome_kept | split

theorem vc2Flits_kept {z s : State} {p : Nat} {dst : BitVec 14} {op : Nat} {sub : Nat} {n : Nat} {addr : BitVec 64} {arg : BitVec
    64} {data : List Byte} (hK : Kept z s) : Kept z (vc2Flits s p dst op sub n addr arg data) := by
  unfold vc2Flits
  repeat' first
    | with_reducible assumption | intro _ | with_reducible apply sendFlit_kept | with_reducible apply Kept.foldl

theorem setPartial_kept {z s : State} {n : Nat} (hK : Kept z s) : Kept z (setPartial s n) := by
  unfold setPartial
  repeat' first
    | with_reducible assumption | with_reducible apply modCtx_kept

theorem deliverSlice_kept {z s : State} {n : Nat} {t : RedTree} {g : Nat} {k : Nat} {sum : Tile} {count : Nat} (hK : Kept z s) :
    Kept z (deliverSlice s n t g k sum count) := by
  unfold deliverSlice
  repeat' first
    | with_reducible assumption | intro _ | with_reducible apply flagEvents_kept | with_reducible apply placeResult_kept
    | with_reducible apply signalVid_kept | with_reducible apply vc2Flits_kept | with_reducible apply Kept.ite
    | with_reducible apply Kept.foldl

theorem putRed_kept {z s : State} {r : Reduction} (hK : Kept z s) : Kept z (putRed s r) := by
  unfold putRed
  repeat' first
    | with_reducible assumption | fail_if_no_progress (with_reducible apply Kept.mk_upd)

theorem sendPart_kept {z s : State} {n : Nat} {t : RedTree} {r : Reduction} {tile : Tile} {count : Nat} {leaf : Bool} (hK : Kept z
    s) : Kept z (sendPart s n t r tile count leaf) := by
  unfold sendPart
  repeat' first
    | with_reducible assumption | with_reducible apply putRed_kept | with_reducible apply vc2Flits_kept | split | dsimp only

theorem completeRed_kept {z s : State} {n : Nat} {t : RedTree} {r : Reduction} {short : Bool} (hK : Kept z s) : Kept z (completeRed
    s n t r short) := by
  unfold completeRed
  repeat' first
    | with_reducible assumption | with_reducible apply putRed_kept | with_reducible apply setPartial_kept
    | with_reducible apply deliverSlice_kept | with_reducible apply sendPart_kept | with_reducible apply Kept.ite
    | fail_if_no_progress (with_reducible apply Kept.mk_upd)

theorem advanceRed_kept {z s : State} {n : Nat} {t : RedTree} {r : Reduction} (hK : Kept z s) : Kept z (advanceRed s n t r) := by
  unfold advanceRed
  repeat' first
    | with_reducible assumption | with_reducible apply completeRed_kept | with_reducible apply Kept.ite

theorem lateRed_kept {z s : State} {n : Nat} {t : RedTree} {r : Reduction} {tile : Tile} {src : Nat} (hK : Kept z s) : Kept z
    (lateRed s n t r tile src) := by
  unfold lateRed
  repeat' first
    | with_reducible assumption | with_reducible apply risk_kept | with_reducible apply setPartial_kept
    | with_reducible apply logHealth_kept | with_reducible apply Kept.ite | fail_if_no_progress (with_reducible apply Kept.mk_upd)

theorem acceptOwn_kept {z s : State} {n : Nat} {coll : Nat} {g : Nat} {k : Nat} {tile : Tile} {core : Nat} (hK : Kept z s) : Kept z
    (acceptOwn s n coll g k tile core) := by
  unfold acceptOwn
  repeat' first
    | with_reducible assumption | with_reducible apply logHealth_kept | with_reducible apply lateRed_kept
    | with_reducible apply putRed_kept | with_reducible apply advanceRed_kept | with_reducible apply Kept.ite | split

theorem finishOwned_kept {z s : State} {n : Nat} (hK : Kept z s) : Kept z (finishOwned s n) := by
  unfold finishOwned
  repeat' first
    | with_reducible assumption | intro _ | with_reducible apply completeRed_kept | with_reducible apply Kept.ite
    | with_reducible apply Kept.foldl | split

theorem rejectPkt_kept {z s : State} {p : Packet} {op : Nat} {status : Nat} {kind : Nat} (hK : Kept z s) : Kept z (rejectPkt s p op
    status kind) := by
  unfold rejectPkt
  repeat' first
    | with_reducible assumption | intro _ | with_reducible apply draw_kept | with_reducible apply hostViolation_kept
    | with_reducible apply pushReceipt_kept

theorem mgmtCommand_kept {z s : State} {p : Packet} {op : Nat} {f : State → State} (hf : ∀ a0, Kept z a0 → Kept z (f a0)) (hK : Kept
    z s) : KeptOut z (mgmtCommand p op s f) := by
  unfold mgmtCommand
  repeat' first
    | with_reducible assumption | intro _ | with_reducible apply firmware_kept | with_reducible apply rejectPkt_kept
    | with_reducible apply hf | with_reducible apply Kept.ite

theorem modShadow_kept {z s : State} {f : ConfigSet → ConfigSet} (hK : Kept z s) : Kept z (modShadow s f) := by
  unfold modShadow
  repeat' first
    | with_reducible assumption | with_reducible apply Kept.ite | fail_if_no_progress (with_reducible apply Kept.mk_upd)

theorem execCfgWriteShadow_kept {z s : State} {p : Packet} (hK : Kept z s) : KeptOut z (execCfgWriteShadow p s) := by
  unfold execCfgWriteShadow
  repeat' first
    | with_reducible assumption | intro _ | with_reducible apply mgmtCommand_kept | with_reducible apply answer_kept
    | with_reducible apply modShadow_kept | with_reducible apply Kept.ite | split

theorem hostRecord_kept {z s : State} {a : Nat} {bs : List Byte} (hK : Kept z s) : Kept z (hostRecord s a bs) := by
  unfold hostRecord
  repeat' first
    | with_reducible assumption | with_reducible apply hostWrite_kept | with_reducible apply Kept.ite

theorem execCfgRead_kept {z s : State} {p : Packet} (hK : Kept z s) : KeptOut z (execCfgRead p s) := by
  unfold execCfgRead
  repeat' first
    | with_reducible assumption | intro _ | with_reducible apply mgmtCommand_kept | with_reducible apply answer_kept
    | with_reducible apply hostRecord_kept | with_reducible apply Kept.ite

theorem execCfgSwap_kept {z s : State} {p : Packet} (hK : Kept z s) : KeptOut z (execCfgSwap p s) := by
  unfold execCfgSwap
  repeat' first
    | with_reducible assumption | intro _ | with_reducible apply mgmtCommand_kept | with_reducible apply answer_kept
    | with_reducible apply draw_kept | with_reducible apply Kept.ite | fail_if_no_progress (with_reducible apply Kept.mk_upd)

theorem takeWords_kept {z s : State} {old : ConfigSet} {new : ConfigSet} {n : Nat} (hK : Kept z s) : Kept z (takeWords s old new n) := by
  unfold takeWords
  repeat' first
    | with_reducible assumption | with_reducible apply modCtx_kept

theorem scrubPart_kept {z s : State} {p : Nat} (hK : Kept z s) : Kept z (scrubPart s p) :=
  hK.updMem rfl rfl rfl rfl rfl fun w => ⟨w.1, Mem.wf_zero _ _ w.2.1, w.2.2⟩

theorem swapSets_kept {z s : State}  (hK : Kept z s) : Kept z (swapSets s) := by
  unfold swapSets
  repeat' first
    | with_reducible assumption | intro _ | with_reducible apply scrubPart_kept | with_reducible apply takeWords_kept
    | with_reducible apply Kept.foldl | fail_if_no_progress (with_reducible apply Kept.mk_upd)

theorem execCfgSwapPoint_kept {z s : State}  (hK : Kept z s) : KeptOut z (execCfgSwapPoint s) := by
  unfold execCfgSwapPoint
  repeat' first
    | with_reducible assumption | with_reducible apply answer_kept | with_reducible apply swapSets_kept
    | fail_if_no_progress (with_reducible apply Kept.mk_upd) | with_reducible apply KeptOut.next | split

theorem execCfgSwapTimeout_kept {z s : State}  (hK : Kept z s) : KeptOut z (execCfgSwapTimeout s) := by
  unfold execCfgSwapTimeout
  repeat' first
    | with_reducible assumption | with_reducible apply answer_kept | fail_if_no_progress (with_reducible apply Kept.mk_upd)
    | with_reducible apply KeptOut.next | split

theorem disableRing_kept {z s : State} {n : Nat} (hK : Kept z s) : Kept z (disableRing s n) := by
  unfold disableRing
  repeat' first
    | with_reducible assumption | with_reducible apply setRing_kept

theorem fillSlot_kept {z s : State} {n : Nat} {ident : BitVec 16} {keep : Bool} (hK : Kept z s) : Kept z (fillSlot s n ident keep) := by
  unfold fillSlot
  repeat' first
    | with_reducible assumption | with_reducible apply modSlot_kept | with_reducible apply Kept.ite
    | fail_if_no_progress (with_reducible apply Kept.mk_upd)

theorem execCtxCreate_kept {z s : State} {p : Packet} (hK : Kept z s) : KeptOut z (execCtxCreate p s) := by
  unfold execCtxCreate
  repeat' first
    | with_reducible assumption | intro _ | with_reducible apply mgmtCommand_kept | with_reducible apply badContext_kept
    | with_reducible apply answer_kept | with_reducible apply disableRing_kept | with_reducible apply fillSlot_kept
    | with_reducible apply Kept.ite | split

theorem modCoresOf_kept {z s : State} {n : Nat} {f : Core → Core} (hf : ∀ x, LsKept x (f x)) (hK : Kept z s) :
    Kept z (modCoresOf s n f) :=
  hK.mapCores fun x => LsKept.ite (hf x) (LsKept.same rfl)

theorem moveCounters_kept {z s : State} {n : Nat} {a : CounterState} {b : CounterState} (hK : Kept z s) : Kept z (moveCounters s n a
    b) := by
  unfold moveCounters
  repeat' first
    | with_reducible assumption | fail_if_no_progress (with_reducible apply Kept.mk_upd)

theorem stopVideo_kept {z s : State} {n : Nat} {why : StopKind} (hK : Kept z s) : Kept z (stopVideo s n why) := by
  unfold stopVideo
  repeat' first
    | with_reducible assumption | fail_if_no_progress (with_reducible apply Kept.mk_upd)

theorem preempt_kept {z s : State} {n : Nat} (hK : Kept z s) : Kept z (preempt s n) := by
  unfold preempt
  repeat' first
    | with_reducible assumption | intro _ | with_reducible apply modCtx_kept | with_reducible apply modCoresOf_kept
    | with_reducible apply stopVideo_kept | with_reducible apply moveCounters_kept | with_reducible exact LsKept.same rfl

theorem thawStream_kept {z s : State} {c : Nat} {n : Nat} {k : Nat} (hK : Kept z s) : Kept z (thawStream s c n k) := by
  unfold thawStream
  repeat' first
    | with_reducible assumption | intro _ | with_reducible apply endDesc_kept | with_reducible apply signalVid_kept
    | with_reducible apply times_kept | with_reducible apply modStream_kept | with_reducible apply Kept.ite

theorem endWait_kept {z s : State} {w : Waiter} {status : Word} (hK : Kept z s) : Kept z (endWait s w status) := by
  unfold endWait
  repeat' first
    | with_reducible assumption | with_reducible apply signalSig_kept | with_reducible apply modThread_kept | split

theorem settleFault_kept {z s : State} {n : Nat} (hK : Kept z s) : Kept z (settleFault s n) := by
  unfold settleFault
  repeat' first
    | with_reducible assumption | with_reducible apply endPlan_kept | with_reducible apply Kept.ite

theorem updAlarmSet_kept {z s : State} {n : Nat} {g : Nat} {hi : Bool} {lo : Bool} (hK : Kept z s) : Kept z (updAlarmSet s n g hi
    lo) := by
  unfold updAlarmSet
  repeat' first
    | with_reducible assumption | with_reducible apply risk_kept | with_reducible apply modCtx_kept | with_reducible apply Kept.ite

theorem ratioRecord_kept {z s : State} {n : Nat} {g : Nat} (hK : Kept z s) : Kept z (ratioRecord s n g) := by
  unfold ratioRecord
  repeat' first
    | with_reducible assumption | with_reducible apply updAlarmSet_kept | with_reducible apply putObj_kept | split

theorem commitWait_kept {z s : State} {n : Nat} {vid : Nat} {target : Nat} (hK : Kept z s) : Kept z (commitWait s n vid target) := by
  unfold commitWait
  repeat' first
    | with_reducible assumption | with_reducible apply dropFirmwareWaiter_kept | fail_if_no_progress (with_reducible apply Kept.mk_upd)
    | split

theorem lossSkip_kept {z s : State} {n : Nat} (hK : Kept z s) : Kept z (lossSkip s n) := by
  unfold lossSkip
  repeat' first
    | with_reducible assumption | with_reducible apply modCtx_kept | with_reducible apply risk_kept | split

theorem lossClean_kept {z s : State} {n : Nat} (hK : Kept z s) : Kept z (lossClean s n) := by
  unfold lossClean
  repeat' first
    | with_reducible assumption | with_reducible apply modCtx_kept

theorem putObjElem_kept {z s : State} {n : Nat} {id : Nat} {code : Nat} {at_ : Nat} {i : Nat} {x : Nat} (hK : Kept z s) : Kept z
    (putObjElem s n id code at_ i x) := by
  unfold putObjElem
  repeat' first
    | with_reducible assumption | with_reducible apply putObj_kept

theorem copyRow_kept {z s : State} {n : Nat} {src : Nat} {dst : Nat} {code : Nat} {st : Nat} {cols : Nat} {at1 : Nat} {plane1 : Nat}
    {at0 : Nat} {plane0 : Nat} {j : Nat} {row : Nat} (hK : Kept z s) : Kept z (copyRow s n src dst code st cols at1 plane1 at0 plane0 j
    row) := by
  unfold copyRow
  repeat' first
    | with_reducible assumption | intro _ | with_reducible apply putObjElem_kept | with_reducible apply putObj_kept
    | with_reducible apply Kept.ite | with_reducible apply Kept.foldl

end Sys2Proof.Machine
end

