-- ==== Sys2Proof/Laws/KeptUnits.lean ====
section
/-! SUPPORT. What each operation keeps, part 2 of 4: from `commitRow` to `execPllLockTimeout`. -/

namespace Sys2Proof.Machine

theorem commitRow_kept {z s : State} {n : Nat} {r : BitVec 1024} {j : Nat} {row : Nat} (hK : Kept z s) : Kept z (commitRow s n r j
    row) := by
  unfold commitRow
  repeat' first
    | with_reducible assumption | with_reducible apply copyRow_kept | with_reducible apply putObj_kept | with_reducible apply Kept.ite

theorem commitSparse_kept {z s : State} {n : Nat} {g : Nat} {r : BitVec 1024} (hK : Kept z s) : Kept z (commitSparse s n g r) := by
  unfold commitSparse
  repeat' first
    | with_reducible assumption | intro _ | with_reducible apply commitRow_kept | with_reducible apply logHealth_kept
    | with_reducible apply Kept.ite | with_reducible apply Kept.foldl

theorem commitVersions_kept {z s : State} {n : Nat} (hK : Kept z s) : Kept z (commitVersions s n) := by
  unfold commitVersions
  repeat' first
    | with_reducible assumption | intro _ | with_reducible apply putObj_kept | with_reducible apply commitSparse_kept
    | with_reducible apply modCtx_kept | with_reducible apply Kept.foldl | split

theorem dropCached_kept {z s : State} {stale : CacheLine → Bool} (hK : Kept z s) : Kept z (dropCached s stale) := by
  unfold dropCached
  repeat' first
    | with_reducible assumption | fail_if_no_progress (with_reducible apply Kept.mk_upd)

theorem stepOutcome_kept {z s : State} {n : Nat} {v : VoteMsg} (hK : Kept z s) : Kept z (stepOutcome s n v) := by
  unfold stepOutcome
  repeat' first
    | with_reducible assumption | with_reducible apply modCtx_kept | with_reducible apply lossSkip_kept
    | with_reducible apply lossClean_kept | with_reducible apply commitVersions_kept | with_reducible apply closeStep_kept
    | with_reducible apply dropCached_kept | split

theorem voteAdvance_kept {z s : State} {n : Nat} (hK : Kept z s) : Kept z (voteAdvance s n) := by
  unfold voteAdvance
  repeat' first
    | with_reducible assumption | with_reducible apply settleFault_kept | with_reducible apply stepOutcome_kept
    | with_reducible apply sendDown_kept | with_reducible apply modCtx_kept | with_reducible apply sendVoteTo_kept
    | with_reducible apply Kept.ite | split

theorem setStage_kept {z s : State} {n : Nat} {st : CommitStage} (hK : Kept z s) : Kept z (setStage s n st) := by
  unfold setStage
  repeat' first
    | with_reducible assumption | with_reducible apply modCtx_kept

theorem commitAdvance_kept {z : State} (k : Nat) : ∀ (s : State) (n : Nat), Kept z s → Kept z (commitAdvance k s n) := by
  induction k with
  | zero => intro s n h; exact h
  | succ f ih =>
    intro s n h
    unfold commitAdvance
    dsimp only
    repeat' first
      | with_reducible apply ih | with_reducible assumption | with_reducible apply finishOwned_kept
      | with_reducible apply voteAdvance_kept | with_reducible apply abortStep_kept
      | with_reducible apply ratioRecord_kept | with_reducible apply endPlan_kept | with_reducible apply setStage_kept
      | with_reducible apply commitWait_kept | with_reducible apply settleFault_kept
      | with_reducible apply dropFirmwareWaiter_kept | with_reducible apply Kept.ite | with_reducible apply Kept.foldl | split | intro _

theorem evaluate_kept {z s : State} {count : Option Word} {w : Waiter} (hK : Kept z s) : Kept z (evaluate s count w) := by
  unfold evaluate
  repeat' first
    | with_reducible assumption | with_reducible apply commitAdvance_kept | with_reducible apply endWait_kept
    | with_reducible apply modStream_kept | fail_if_no_progress (with_reducible apply Kept.mk_upd) | split

theorem resumeWaiter_kept {z s : State} {w : Waiter} (hK : Kept z s) : Kept z (resumeWaiter s w) := by
  unfold resumeWaiter
  repeat' first
    | with_reducible assumption | with_reducible apply evaluate_kept | with_reducible apply endWait_kept
    | fail_if_no_progress (with_reducible apply Kept.mk_upd) | split | dsimp only

theorem modPipe_kept {z s : State} {i : Nat} {f : VideoPipe → VideoPipe} (hK : Kept z s) : Kept z (modPipe s i f) := by
  unfold modPipe
  repeat' first
    | with_reducible assumption | fail_if_no_progress (with_reducible apply Kept.mk_upd)

theorem resumeVideo_kept {z s : State} {n : Nat} (hK : Kept z s) : Kept z (resumeVideo s n) := by
  unfold resumeVideo
  repeat' first
    | with_reducible assumption | intro _ | with_reducible apply modPipe_kept | with_reducible apply Kept.ite
    | with_reducible apply Kept.foldl | fail_if_no_progress (with_reducible apply Kept.mk_upd)

theorem resume_kept {z s : State} {n : Nat} (hK : Kept z s) : Kept z (resume s n) := by
  unfold resume
  repeat' first
    | with_reducible assumption | intro _ | with_reducible apply modCtx_kept | with_reducible apply moveCounters_kept
    | with_reducible apply modCoresOf_kept | with_reducible apply thawStream_kept | with_reducible apply resumeWaiter_kept
    | with_reducible apply resumeVideo_kept | with_reducible apply commitAdvance_kept | with_reducible exact LsKept.same rfl
    | with_reducible apply Kept.foldl

theorem freeSeqs_kept {z s : State} {n : Nat} (hK : Kept z s) : Kept z (freeSeqs s n) := by
  unfold freeSeqs
  repeat' first
    | with_reducible assumption | intro _ | with_reducible apply setSeqState_kept | with_reducible apply endSeqWaits_kept
    | with_reducible apply modCtx_kept | with_reducible apply Kept.foldl | fail_if_no_progress (with_reducible apply Kept.mk_upd)

theorem endQuarantine_kept {z s : State} {n : Nat} (hK : Kept z s) : Kept z (endQuarantine s n) := by
  unfold endQuarantine
  repeat' first
    | with_reducible assumption | with_reducible apply modCtx_kept | with_reducible apply setRing_kept | split

theorem resetLoss_kept {z s : State} {n : Nat} (hK : Kept z s) : Kept z (resetLoss s n) := by
  unfold resetLoss
  repeat' first
    | with_reducible assumption | with_reducible apply modCtx_kept

theorem abandonMigrations_kept {z s : State} {n : Nat} (hK : Kept z s) : Kept z (abandonMigrations s n) := by
  unfold abandonMigrations
  repeat' first
    | with_reducible assumption | intro _ | with_reducible apply migrationBack_kept | with_reducible apply modCtx_kept
    | with_reducible apply Kept.foldl | split

theorem poisonWhere_kept {z s : State} {own : Nat → Counter → Bool} (hK : Kept z s) : Kept z (poisonWhere s own) := by
  unfold poisonWhere
  repeat' first
    | with_reducible assumption | intro _ | with_reducible apply poisonCounter_kept | with_reducible apply Kept.foldl

theorem flushLookAside_kept {z s : State} {n : Nat} (hK : Kept z s) : Kept z (flushLookAside s n) := by
  unfold flushLookAside
  repeat' first
    | with_reducible assumption | fail_if_no_progress (with_reducible apply Kept.mk_upd)

theorem endJob_kept {z s : State} {j : VideoJob} {status : Nat} {detail : Nat} (hK : Kept z s) : Kept z (endJob s j status detail) := by
  unfold endJob
  repeat' first
    | with_reducible assumption | with_reducible apply answerD_kept

theorem dropVideo_kept {z s : State} {n : Nat} (hK : Kept z s) : Kept z (dropVideo s n) := by
  unfold dropVideo
  repeat' first
    | with_reducible assumption | intro _ | with_reducible apply endJob_kept | with_reducible apply Kept.foldl
    | fail_if_no_progress (with_reducible apply Kept.mk_upd)

theorem resetCtx_kept {z s : State} {n : Nat} (hK : Kept z s) : Kept z (resetCtx s n) := by
  unfold resetCtx
  repeat' first
    | with_reducible assumption | intro _ | with_reducible apply modCtx_kept | with_reducible apply abortStep_kept
    | with_reducible apply endPlan_kept | with_reducible apply freeSeqs_kept | with_reducible apply modCoresOf_kept
    | with_reducible apply poisonWhere_kept | with_reducible apply flushLookAside_kept | with_reducible apply abandonMigrations_kept
    | with_reducible apply dropCached_kept | with_reducible apply stopVideo_kept | with_reducible apply dropVideo_kept
    | with_reducible apply endQuarantine_kept | with_reducible apply resetLoss_kept | with_reducible exact LsKept.same rfl
    | fail_if_no_progress (with_reducible apply Kept.mk_upd)

theorem scrubCores_kept {z s : State} {n : Nat} (hK : Kept z s) : Kept z (scrubCores s n) :=
  hK.mapCores fun _ => LsKept.ite ⟨fun _ => rfl⟩ (LsKept.same rfl)

theorem dropUnits_kept {z s : State} {n : Nat} (hK : Kept z s) : Kept z (dropUnits s n) := by
  unfold dropUnits
  repeat' first
    | with_reducible assumption | fail_if_no_progress (with_reducible apply Kept.mk_upd)

theorem spoilState_kept {z s : State} {j : VideoJob} {len : Nat} (hK : Kept z s) : Kept z (spoilState s j len) := by
  unfold spoilState
  repeat' first
    | with_reducible assumption | with_reducible apply draw_kept | with_reducible apply writeObj_kept | split

theorem stopJob_kept {z s : State} {k : Nat} {j : VideoJob} {why : StopKind} (hK : Kept z s) : Kept z (stopJob s k j why) := by
  unfold stopJob
  repeat' first
    | with_reducible assumption | with_reducible apply modPipe_kept | with_reducible apply spoilState_kept
    | with_reducible apply endJob_kept | fail_if_no_progress (with_reducible apply Kept.mk_upd) | split

theorem killVideo_kept {z s : State} {n : Nat} (hK : Kept z s) : Kept z (killVideo s n) := by
  unfold killVideo
  repeat' first
    | with_reducible assumption | intro _ | with_reducible apply stopJob_kept | with_reducible apply Kept.foldl | split

theorem freeCounters_kept {z s : State} {own : Nat → Bool} (hK : Kept z s) : Kept z (freeCounters s own) := by
  unfold freeCounters
  repeat' first
    | with_reducible assumption | fail_if_no_progress (with_reducible apply Kept.mk_upd)

theorem modBothSets_kept {z s : State} {f : ConfigSet → ConfigSet} (hK : Kept z s) : Kept z (modBothSets s f) := by
  unfold modBothSets
  repeat' first
    | with_reducible assumption | fail_if_no_progress (with_reducible apply Kept.mk_upd)

theorem retireCtx_kept {z s : State} {n : Nat} (hK : Kept z s) : Kept z (retireCtx s n) := by
  unfold retireCtx
  repeat' first
    | with_reducible assumption | intro _ | with_reducible apply answer_kept | with_reducible apply killVideo_kept
    | with_reducible apply freeCounters_kept | with_reducible apply modBothSets_kept | with_reducible apply disableRing_kept
    | with_reducible apply setRing_kept | with_reducible apply scrubPart_kept | with_reducible apply scrubCores_kept
    | with_reducible apply dropUnits_kept | with_reducible apply flushLookAside_kept | with_reducible apply modSlot_kept
    | with_reducible apply Kept.foldl | split

theorem noteIssue_kept (u : BitVec 5) (q : Option EngineQ) (c : Core) : LsKept c (noteIssue u q c) := by
  unfold noteIssue
  repeat' first
    | with_reducible exact LsKept.same rfl

theorem retire_kept {z s : State} {i : Iss} {t : Thread} (hK : Kept z s) : Kept z (retire s i t) := by
  unfold retire
  repeat' first
    | with_reducible assumption | intro _ | with_reducible apply modCore_kept | with_reducible exact LsKept.same rfl

theorem endCtxCmd_kept {z s : State} {n : Nat} {k : CtxCmd} {p : Packet} (hK : Kept z s) : Kept z (endCtxCmd s n k p) := by
  unfold endCtxCmd
  repeat' first
    | with_reducible assumption | with_reducible apply answer_kept | with_reducible apply retireCtx_kept | with_reducible apply Kept.ite

theorem beginCtxCmd_kept {z s : State} {n : Nat} {k : CtxCmd} {p : Packet} (hK : Kept z s) : Kept z (beginCtxCmd s n k p) := by
  unfold beginCtxCmd
  repeat' first
    | with_reducible assumption | with_reducible apply answer_kept | with_reducible apply preempt_kept | with_reducible apply resume_kept
    | with_reducible apply resetCtx_kept | with_reducible apply draw_kept | with_reducible apply modCtx_kept
    | with_reducible apply endCtxCmd_kept | with_reducible apply Kept.ite | split

theorem ctxCmd_kept {z s : State} {p : Packet} {k : CtxCmd} (hK : Kept z s) : KeptOut z (ctxCmd p k s) := by
  unfold ctxCmd
  repeat' first
    | with_reducible assumption | intro _ | with_reducible apply mgmtCommand_kept | with_reducible apply badContext_kept
    | with_reducible apply answer_kept | with_reducible apply draw_kept | with_reducible apply modCtx_kept
    | with_reducible apply beginCtxCmd_kept | split

theorem execCtxPreempt_kept {z s : State} {p : Packet} (hK : Kept z s) : KeptOut z (execCtxPreempt p s) := by
  unfold execCtxPreempt
  repeat' first
    | with_reducible assumption | with_reducible apply ctxCmd_kept

theorem execCtxResume_kept {z s : State} {p : Packet} (hK : Kept z s) : KeptOut z (execCtxResume p s) := by
  unfold execCtxResume
  repeat' first
    | with_reducible assumption | with_reducible apply ctxCmd_kept

theorem execCtxReset_kept {z s : State} {p : Packet} (hK : Kept z s) : KeptOut z (execCtxReset p s) := by
  unfold execCtxReset
  repeat' first
    | with_reducible assumption | with_reducible apply ctxCmd_kept

theorem execCtxRetire_kept {z s : State} {p : Packet} (hK : Kept z s) : KeptOut z (execCtxRetire p s) := by
  unfold execCtxRetire
  repeat' first
    | with_reducible assumption | with_reducible apply ctxCmd_kept

theorem runCtxQ_kept {z : State} {n : Nat} (k : Nat) : ∀ (l : List (CtxCmd × Packet)) (s : State), Kept z s → Kept z (runCtxQ k l s
    n) := by
  induction k with
  | zero => intro l s h; exact h
  | succ k ih =>
    intro l s h
    cases l with
    | nil => exact h
    | cons x l =>
      unfold runCtxQ
      exact Kept.ite (ih _ _ (badContext_kept h)) (ih _ _ (beginCtxCmd_kept h))

theorem lateSeqs_kept {z s : State} {n : Nat} (hK : Kept z s) : Kept z (lateSeqs s n) := by
  unfold lateSeqs
  repeat' first
    | with_reducible assumption | with_reducible apply endSeqWaits_kept | with_reducible apply Kept.ite

theorem applyEdit_kept {z s : State} {n : Nat} {pt : Nat} {e : BitVec 128} (hK : Kept z s) : Kept z (applyEdit s n pt e) := by
  unfold applyEdit
  repeat' first
    | with_reducible assumption | with_reducible apply putObj_kept

theorem applyEdits_kept {z s : State} {n : Nat} {p : Packet} (hK : Kept z s) : Kept z (applyEdits s n p) := by
  unfold applyEdits
  repeat' first
    | with_reducible assumption | intro _ | with_reducible apply applyEdit_kept | with_reducible apply answer_kept
    | with_reducible apply flushLookAside_kept | with_reducible apply putObj_kept | with_reducible apply Kept.foldl

theorem applyPending_kept {z s : State} {n : Nat} (hK : Kept z s) : Kept z (applyPending s n) := by
  unfold applyPending
  repeat' first
    | with_reducible assumption | intro _ | with_reducible apply applyEdits_kept | with_reducible apply modCtx_kept
    | with_reducible apply Kept.foldl | split

theorem setEntry_kept {z s : State} {n : Nat} {pt : Nat} {q : Nat} {page : Nat} {e : BitVec 32} (hK : Kept z s) : Kept z (setEntry s
    n pt q page e) := by
  unfold setEntry
  repeat' first
    | with_reducible assumption | with_reducible apply putObj_kept

theorem rollBack_kept {z s : State} {n : Nat} {d : BitVec 256} {q : Nat} {page : Nat} (hK : Kept z s) : Kept z (rollBack s n d q
    page) := by
  unfold rollBack
  repeat' first
    | with_reducible assumption | with_reducible apply setEntry_kept | with_reducible apply returnPage_kept
    | with_reducible apply Kept.ite | fail_if_no_progress (with_reducible apply Kept.mk_upd)

theorem rollBackAll_kept {z s : State} {n : Nat} {d : BitVec 256} (hK : Kept z s) : Kept z (rollBackAll s n d) := by
  unfold rollBackAll
  repeat' first
    | with_reducible assumption | intro _ | with_reducible apply rollBack_kept | with_reducible apply Kept.ite
    | with_reducible apply Kept.foldl | split

theorem dropStale_kept {z s : State} {n : Nat} {pt : Nat} (hK : Kept z s) : Kept z (dropStale s n pt) := by
  unfold dropStale
  repeat' first
    | with_reducible assumption | fail_if_no_progress (with_reducible apply Kept.mk_upd)

theorem checkGeneration_kept {z s : State} {n : Nat} {pt : Nat} (hK : Kept z s) : Kept z (checkGeneration s n pt) := by
  unfold checkGeneration
  repeat' first
    | with_reducible assumption | intro _ | with_reducible apply modCluster_kept | with_reducible apply modCtx_kept
    | with_reducible apply attSet_kept | with_reducible apply Kept.foldl | split

theorem endPass_kept {z s : State} {n : Nat} (hK : Kept z s) : Kept z (endPass s n) := by
  unfold endPass
  repeat' first
    | with_reducible assumption | with_reducible apply modCtx_kept | with_reducible apply applyPending_kept
    | with_reducible apply settleTickets_kept | with_reducible apply rollBackAll_kept | with_reducible apply dropStale_kept
    | with_reducible apply checkGeneration_kept | split

theorem dropWaits_kept {z s : State} {c : Nat} (hK : Kept z s) : Kept z (dropWaits s c) := by
  unfold dropWaits
  repeat' first
    | with_reducible assumption | with_reducible apply dropThreadWaiters_kept | fail_if_no_progress (with_reducible apply Kept.mk_upd)

theorem reclaimCore_kept (c : Core) : LsKept c (reclaimCore c) := by
  unfold reclaimCore
  repeat' first
    | with_reducible exact LsKept.same rfl

theorem finishPlan_kept {z s0 : State} {n : Nat} {r0 : Running} (hK : Kept z s0) : Kept z (finishPlan s0 n r0) := by
  unfold finishPlan
  repeat' first
    | with_reducible assumption | intro _ | with_reducible apply endPass_kept | with_reducible apply dropWaits_kept
    | with_reducible apply modCore_kept | with_reducible apply reclaimCore_kept | with_reducible apply modCtx_kept
    | with_reducible apply answer_kept | with_reducible apply commitAdvance_kept | with_reducible apply Kept.ite
    | with_reducible apply Kept.foldl

theorem execPlanEnd_kept {z s0 : State} {slot : BitVec 6} (hK : Kept z s0) : KeptOut z (execPlanEnd slot s0) := by
  unfold execPlanEnd
  repeat' first
    | with_reducible assumption | with_reducible apply lateSeqs_kept | with_reducible apply settleFault_kept
    | with_reducible apply finishPlan_kept | with_reducible apply runCtxQ_kept | with_reducible apply endCtxCmd_kept
    | with_reducible apply modCtx_kept | with_reducible apply KeptOut.next | split | dsimp only

theorem zeroSlot_kept (c : Core) (m : Nat) : LsKept c (zeroSlot c m) := ⟨fun w => Mem.wf_zero _ _ w⟩

theorem zeroTile_kept (c : Core) (n : Nat) : LsKept c (zeroTile c n) := ⟨fun w => Mem.wf_zero _ _ w⟩

theorem clearSource_kept (c : Core) (o : DrainOp) : LsKept c (clearSource c o) := by
  unfold clearSource
  repeat' first
    | with_reducible apply zeroSlot_kept | with_reducible apply zeroTile_kept | with_reducible apply LsKept.ite

theorem setQueue_kept (c : Core) (q : EngineQ) (l : List EngOp) : LsKept c (setQueue c q l) := by
  unfold setQueue
  repeat' first
    | with_reducible exact LsKept.same rfl | split

theorem popQueue_kept {z s : State} {c : Nat} {q : EngineQ} (hK : Kept z s) : Kept z (popQueue s c q) := by
  unfold popQueue
  repeat' first
    | with_reducible assumption | intro _ | with_reducible apply modCore_kept | with_reducible apply setQueue_kept

theorem beginOp_kept {z s : State} {c : Nat} {q : EngineQ} {op : EngOp} (hK : Kept z s) : Kept z (beginOp s c q op) := by
  unfold beginOp
  repeat' first
    | with_reducible assumption | intro _ | with_reducible apply modCore_kept | with_reducible apply popQueue_kept
    | with_reducible exact LsKept.same rfl

theorem startSyn_kept {z s : State} {c : Nat} {n : Nat} {op : EngOp} {o : SynOp} (hK : Kept z s) : Kept z (startSyn s c n op o) := by
  unfold startSyn
  repeat' first
    | with_reducible assumption | with_reducible apply arrive_kept | with_reducible apply popQueue_kept
    | with_reducible apply remoteSignal_kept | with_reducible apply beginOp_kept | with_reducible apply request_kept
    | with_reducible apply logHealth_kept | split

theorem pushCodec_kept {z s : State} {c : Nat} {j0 : CodecJob} (hK : Kept z s) : Kept z (pushCodec s c j0) := by
  unfold pushCodec
  repeat' first
    | with_reducible assumption | with_reducible apply modCluster_kept

theorem startHead_kept {z s : State} {c : Nat} {q : EngineQ} {n : Nat} {op : EngOp} (hK : Kept z s) : Kept z (startHead s c q n op) := by
  unfold startHead
  repeat' first
    | with_reducible assumption | with_reducible apply modCluster_kept | with_reducible apply popQueue_kept
    | with_reducible apply startSyn_kept | with_reducible apply pushCodec_kept | with_reducible apply beginOp_kept
    | with_reducible apply instrFault_kept | split

theorem execEngineOpStart_kept {z s : State} {core : BitVec 8} {q : EngineQ} (hK : Kept z s) : KeptOut z (execEngineOpStart core q
    s) := by
  unfold execEngineOpStart
  repeat' first
    | with_reducible assumption | with_reducible apply startHead_kept | with_reducible apply KeptOut.next | split | dsimp only

theorem modGather_kept (c : Core) (id : Nat) (f : GatherOp → GatherOp) : LsKept c (modGather c id f) := by
  unfold modGather
  repeat' first
    | with_reducible exact LsKept.same rfl

theorem landRow_kept {z s : State} {c : Nat} {id : Nat} {row : Nat} {bs : List Byte} {bad : Bool} (hK : Kept z s) : Kept z (landRow
    s c id row bs bad) := by
  unfold landRow
  repeat' first
    | with_reducible assumption | intro _ | with_reducible apply modCore_kept | with_reducible apply modGather_kept

theorem fetchRow_kept {z s : State} {c : Nat} {n : Nat} {id : Nat} {row : Nat} {ix : Nat} {g : GatherOp} (hK : Kept z s) : Kept z
    (fetchRow s c n id row ix g) := by
  unfold fetchRow
  repeat' first
    | with_reducible assumption | intro _ | with_reducible apply landRow_kept | with_reducible apply request_kept
    | with_reducible apply modCore_kept | with_reducible apply noteBad_kept | with_reducible exact LsKept.same rfl | split | dsimp only

theorem softLsError_kept {z s : State} {c : Nat} {addr : Nat} (hK : Kept z s) : Kept z (softLsError s c addr) := by
  unfold softLsError
  repeat' first
    | with_reducible assumption | with_reducible apply risk_kept | with_reducible apply logHealth_kept

theorem returnLeases_kept {z s : State} {core : BitVec 8} (hK : Kept z s) : Kept z (returnLeases s core) := by
  unfold returnLeases
  repeat' first
    | with_reducible assumption | fail_if_no_progress (with_reducible apply Kept.mk_upd)

theorem endStreams_kept {z s : State} {c : Nat} (hK : Kept z s) : Kept z (endStreams s c) := by
  unfold endStreams
  repeat' first
    | with_reducible assumption | intro _ | with_reducible apply modCore_kept | with_reducible exact LsKept.same rfl

theorem gateFenced_kept (c : Core) : LsKept c (gateFenced c) := by
  unfold gateFenced
  repeat' first
    | with_reducible exact LsKept.same rfl | with_reducible apply LsKept.ite

theorem fenceOne_kept {z s : State} {c : Nat} (hK : Kept z s) : Kept z (fenceOne s c) := by
  unfold fenceOne
  repeat' first
    | with_reducible assumption | intro _ | with_reducible apply modCore_kept | with_reducible apply haltCore_kept
    | with_reducible apply poisonWhere_kept | with_reducible apply returnLeases_kept | with_reducible apply endStreams_kept
    | with_reducible apply gateFenced_kept | with_reducible apply endPlan_kept | with_reducible exact LsKept.same rfl | split

theorem fenceCore_kept {z s : State} {c : Nat} (hK : Kept z s) : Kept z (fenceCore s c) := by
  unfold fenceCore
  repeat' first
    | with_reducible assumption | with_reducible apply risk_kept | with_reducible apply logHealth_kept
    | with_reducible apply fenceOne_kept | with_reducible apply eventReceipt_kept | with_reducible apply Kept.ite

theorem noteHardLs_kept {z s : State} {c : Nat} {addr : Nat} {inst : Nat} (hK : Kept z s) : Kept z (noteHardLs s c addr inst) := by
  unfold noteHardLs
  repeat' first
    | with_reducible assumption | intro _ | with_reducible apply risk_kept | with_reducible apply logHealth_kept
    | with_reducible apply modCore_kept | with_reducible apply fenceCore_kept | with_reducible exact LsKept.same rfl
    | with_reducible apply Kept.ite

theorem execGatherIndexIssue_kept {z s : State} {core : BitVec 8} {ecc : IndexEcc} (hK : Kept z s) : KeptOut z (execGatherIndexIssue
    core ecc s) := by
  unfold execGatherIndexIssue
  repeat' first
    | with_reducible assumption | intro _ | with_reducible apply modCore_kept | with_reducible apply modGather_kept
    | with_reducible apply landRow_kept | with_reducible apply fetchRow_kept | with_reducible apply noteSofts_kept
    | with_reducible apply softLsError_kept | with_reducible apply noteHardLs_kept | with_reducible apply beginOp_kept
    | with_reducible apply modThread_kept | with_reducible apply Kept.elim | with_reducible apply KeptOut.next | split | dsimp only

theorem drainFlag_kept {z s : State} {n : Nat} {core : Nat} {op : EngOp} {o : DrainOp} {e : Events} (hK : Kept z s) : Kept z
    (drainFlag s n core op o e) := by
  unfold drainFlag
  repeat' first
    | with_reducible assumption | with_reducible apply flagEvents_kept | with_reducible apply logHealth_kept
    | with_reducible apply Kept.ite

theorem putTile_kept (c : Core) (n : Nat) (f : Nat → Nat) : LsKept c (putTile c n f) := ⟨fun w => Mem.wf_write _ _ w⟩

theorem runMma_kept (c : Core) (errs : List LsError) (o : MmaOp) (seed : Word) (step : Nat) : LsKept c (runMma c errs o seed step) := by
  unfold runMma
  repeat' first
    | exact ⟨fun w => Mem.wf_write _ _ w⟩

theorem runSpill_kept (c : Core) (errs : List LsError) (o : SpillOp) (seed : Word) (step : Nat) :
    LsKept c (runSpill c errs o seed step) :=
  ⟨fun w => Mem.wf_zero _ _ (Mem.wf_write _ _ w)⟩

theorem runTopk_kept (c : Core) (errs : List LsError) (n k addr : Nat) : LsKept c (runTopk c errs n k addr) :=
  ⟨fun w => Mem.wf_write _ _ w⟩

theorem runAccz_kept (c : Core) (n : Nat) : LsKept c (runAccz c n) := by
  unfold runAccz
  repeat' first
    | with_reducible apply zeroTile_kept

theorem armNow_kept {z s : State} {core : Nat} {n : Nat} {k : Nat} {d : BitVec 512} (hK : Kept z s) : Kept z (armNow s core n k d) := by
  unfold armNow
  repeat' first
    | with_reducible assumption | with_reducible apply dropStreamWaiter_kept | with_reducible apply armSeq_kept
    | with_reducible apply modStream_kept | fail_if_no_progress (with_reducible apply Kept.mk_upd) | split

theorem armStream_kept {z s : State} {core : Nat} {n : Nat} {d : BitVec 512} (hK : Kept z s) : Kept z (armStream s core n d).1 := by
  unfold armStream
  repeat' first
    | with_reducible assumption | with_reducible apply endDesc_kept | with_reducible apply armNow_kept | split

theorem rearmStream_kept {z s : State} {core : Nat} {n : Nat} {k : Nat} {d : BitVec 512} (hK : Kept z s) : Kept z (rearmStream s
    core n k d).1 := by
  unfold rearmStream
  repeat' first
    | with_reducible assumption | with_reducible apply endDesc_kept | with_reducible apply armNow_kept
    | with_reducible apply modStream_kept | with_reducible apply Kept.iteFst

theorem cancelOne_kept {z s : State} {core : Nat} {k : Nat} (hK : Kept z s) : Kept z (cancelOne s core k).1 := by
  unfold cancelOne
  repeat' first
    | with_reducible assumption | with_reducible apply modStream_kept

theorem vecBlocks_wf (errs : List LsError) (o : VecOp) (k : Nat) : ∀ (lo : Nat) (ls : Mem), Mem.wf ls = true →
    Mem.wf (vecBlocks errs o k lo ls) = true := by
  induction k with
  | zero => intro lo ls h; exact h
  | succ k ih =>
    intro lo ls h
    unfold vecBlocks
    dsimp only
    split
    · exact h
    · exact ih _ _ (Mem.wf_write _ _ h)

theorem sclBlocks_wf (errs : List LsError) (o : VecOp) (k : Nat) : ∀ (lo : Nat) (ls : Mem), Mem.wf ls = true →
    Mem.wf (sclBlocks errs o k lo ls) = true := by
  induction k with
  | zero => intro lo ls h; exact h
  | succ k ih =>
    intro lo ls h
    unfold sclBlocks
    dsimp only
    split
    · exact h
    · exact ih _ _ (Mem.wf_write _ _ (Mem.wf_write _ _ h))

theorem runVec_wf (ls : Mem) (errs : List LsError) (o : VecOp) (h : Mem.wf ls = true) : Mem.wf (runVec ls errs o) = true := by
  unfold runVec
  dsimp only
  split
  · exact h
  · split
    · exact Mem.wf_put _ _ _ h
    · split
      · exact sclBlocks_wf _ _ _ _ _ h
      · exact vecBlocks_wf _ _ _ _ _ h

theorem drainRows_wf (c : Core) (errs : List LsError) (o : DrainOp) (k : Nat) : ∀ (m : Nat) (ls : Mem) (ev : Events),
    Mem.wf ls = true → Mem.wf (drainRows c errs o k m ls ev).1 = true := by
  induction k with
  | zero => intro m ls ev h; exact h
  | succ k ih =>
    intro m ls ev h
    unfold drainRows
    dsimp only
    apply ih
    split
    · exact Mem.wf_write _ _ (Mem.wf_write _ _ h)
    · exact Mem.wf_write _ _ h

theorem runDrain_kept (c : Core) (errs : List LsError) (o : DrainOp) : LsKept c (runDrain c errs o).1 := by
  unfold runDrain
  dsimp only
  have h : LsKept c { c with ls := (drainRows c errs o 128 0 c.ls .none).1 } := ⟨fun w => drainRows_wf _ _ _ _ _ _ _ w⟩
  split
  · exact h.trans (clearSource_kept _ _)
  · exact h

theorem writeRows_wf (base len : Nat) (l : List (Nat × List Byte)) : ∀ ls : Mem, Mem.wf ls = true →
    Mem.wf (l.foldl (fun ls r => Mem.write ls (base + r.1 * len) r.2) ls) = true := by
  induction l with
  | nil => intro ls h; exact h
  | cons x l ih => intro ls h; exact ih _ (Mem.wf_write _ _ h)

theorem finishOp_kept {z s : State} {c n : Nat} {op : EngOp} {errs : List LsError} {res : State} (hK : Kept z s) :
    finishOp s c n op errs = some res → Kept z res := by
  unfold finishOp
  dsimp only
  have hDone : ∀ (r : State) (t : Nat) (f : Thread → Thread), Kept z r → Kept z (modThread r c t f) := fun r t f h => modThread_kept h
  split
  · rintro ⟨⟩; exact setCore_kept (runMma_kept _ _ _ _ _) hK
  · rintro ⟨⟩; exact setCore_kept (runSpill_kept _ _ _ _ _) hK
  · rintro ⟨⟩; exact setCore_kept (runTopk_kept _ _ _ _ _) hK
  · rintro ⟨⟩; exact setCore_kept (runAccz_kept _ _) hK
  · rintro ⟨⟩; exact setCore_kept ⟨fun w => runVec_wf _ _ _ w⟩ hK
  · rintro ⟨⟩; exact setCore_kept (LsKept.same rfl) hK
  · rintro ⟨⟩; exact setCore_kept ⟨fun w => Mem.wf_put _ _ _ w⟩ hK
  · split
    · split
      · rintro ⟨⟩
      · rintro ⟨⟩; exact acceptOwn_kept (drainFlag_kept (setCore_kept (clearSource_kept _ _) hK))
    · rintro ⟨⟩; exact drainFlag_kept (setCore_kept (runDrain_kept _ _ _) hK)
  · split
    · rintro ⟨⟩; exact hDone _ _ _ (armStream_kept hK)
    · rintro ⟨⟩
  · split
    · rintro ⟨⟩; exact hDone _ _ _ (rearmStream_kept hK)
    · rintro ⟨⟩
  · split
    · rintro ⟨⟩; exact hDone _ _ _ (cancelOne_kept hK)
    · rintro ⟨⟩
  · split
    · rintro ⟨⟩
    · have h1 := setCore_kept (z := z) (s := s) (c := c) (x := coreOf s c) (LsKept.same rfl) hK
      rintro ⟨⟩
      apply Kept.ite
      · apply endPlan_kept
        apply Kept.ite hK
        exact setCore_kept ⟨fun w => writeRows_wf _ _ _ _ w⟩ hK
      · apply Kept.ite hK
        exact setCore_kept ⟨fun w => writeRows_wf _ _ _ _ w⟩ hK
  · rintro ⟨⟩
  · rintro ⟨⟩
  · rintro ⟨⟩

theorem lsPlanEnd_kept {z s : State} {c : Nat} (hK : Kept z s) : Kept z (lsPlanEnd s c) := by
  unfold lsPlanEnd
  repeat' first
    | with_reducible assumption | with_reducible apply endPlan_kept | split

theorem hardLsError_kept {z s : State} {c : Nat} {addr : Nat} {inst : Nat} (hK : Kept z s) : Kept z (hardLsError s c addr inst) := by
  unfold hardLsError
  repeat' first
    | with_reducible assumption | with_reducible apply noteHardLs_kept | with_reducible apply lsPlanEnd_kept

theorem lsErrors_kept {z s : State} {c : Nat} {inst : Nat} {errs : List LsError} (hK : Kept z s) : Kept z (lsErrors s c inst errs) := by
  unfold lsErrors
  repeat' first
    | with_reducible assumption | intro _ | with_reducible apply hardLsError_kept | with_reducible apply softLsError_kept
    | with_reducible apply Kept.ite | with_reducible apply Kept.foldl

theorem execEngineOpComplete_kept {z s : State} {core : BitVec 8} {id : Nat} {errs : List LsError} (hK : Kept z s) : KeptOut z
    (execEngineOpComplete core id errs s) := by
  unfold execEngineOpComplete
  repeat' first
    | with_reducible assumption | intro _ | with_reducible refine finishOp_kept ?_ (by assumption) | with_reducible apply modCore_kept
    | with_reducible apply lsErrors_kept | with_reducible apply signalSig_kept | with_reducible exact LsKept.same rfl
    | with_reducible apply KeptOut.next | split | dsimp only

theorem sendIdle_kept {z s : State} {n : Nat} (hK : Kept z s) : Kept z (sendIdle s n) := by
  unfold sendIdle
  repeat' first
    | with_reducible assumption | with_reducible apply emit_kept | with_reducible apply modPort_kept | with_reducible apply Kept.ite

theorem respond_kept {z s : State} {n : Nat} (hK : Kept z s) : Kept z (respond s n) := by
  unfold respond
  repeat' first
    | with_reducible assumption | with_reducible apply pump_kept | with_reducible apply sendIdle_kept | with_reducible apply Kept.ite

theorem putRun_kept {z s : State} {n : Nat} {id : Nat} {code : Nat} {st : Nat} {at_ : Nat} {plane : Nat} {e : Nat} {vs : List FVal}
    (hK : Kept z s) : Kept z (putRun s n id code st at_ plane e vs).1 := by
  unfold putRun
  repeat' first
    | with_reducible assumption | intro _ | with_reducible apply putObjElem_kept | with_reducible apply putObj_kept
    | with_reducible apply Kept.foldl | with_reducible apply Kept.foldlFst | with_reducible apply Kept.iteFst

theorem putSlice_kept {z s : State} {n : Nat} {r : BitVec 1024} {next : Nat} {sl : Nat} {res : List (List (FVal × FVal × FVal))} (hK
    : Kept z s) : Kept z (putSlice s n r next sl res).1 := by
  unfold putSlice
  repeat' first
    | with_reducible assumption | intro _ | with_reducible apply putRun_kept | with_reducible apply putObjElem_kept
    | with_reducible apply Kept.foldl | with_reducible apply Kept.foldlFst | with_reducible apply Kept.iteFst

theorem sendPathDown_kept {z s : State} {n : Nat} {x : BitVec 14 × BitVec 16 × BitVec 8 × BitVec 16 × BitVec 64} (hK : Kept z s) :
    Kept z (sendPathDown s n x) := by
  unfold sendPathDown
  repeat' first
    | with_reducible assumption | with_reducible apply modPort_kept | with_reducible apply sendFlit_kept | with_reducible apply Kept.ite

theorem downPort_kept {z s : State} {n : Nat} {cause : PortCause} (hK : Kept z s) : Kept z (downPort s n cause) := by
  unfold downPort
  repeat' first
    | with_reducible assumption | intro _ | with_reducible apply modPort_kept | with_reducible apply routeOut_kept
    | with_reducible apply sendPathDown_kept | with_reducible apply logHealth_kept | with_reducible apply eventReceipt_kept
    | with_reducible apply risk_kept | with_reducible apply Kept.foldl

theorem portUnitFault_kept {z s : State} {p : Nat} (hK : Kept z s) : Kept z (portUnitFault s p) := by
  unfold portUnitFault
  repeat' first
    | with_reducible assumption | intro _ | with_reducible apply downPort_kept | with_reducible apply modPort_kept
    | with_reducible apply abortStep_kept | with_reducible apply Kept.foldl

theorem retirePipe_kept {z s : State} {k : Nat} (hK : Kept z s) : Kept z (retirePipe s k) := by
  unfold retirePipe
  repeat' first
    | with_reducible assumption | intro _ | with_reducible apply modPipe_kept | with_reducible apply endJob_kept
    | with_reducible apply Kept.foldl | split

theorem videoFault_kept {z s : State} {k : Nat} (hK : Kept z s) : Kept z (videoFault s k) := by
  unfold videoFault
  repeat' first
    | with_reducible assumption | with_reducible apply retirePipe_kept | with_reducible apply logHealth_kept

theorem fenceCluster_kept {z s : State} {k : Nat} (hK : Kept z s) : Kept z (fenceCluster s k) := by
  unfold fenceCluster
  repeat' first
    | with_reducible assumption | intro _ | with_reducible apply fenceOne_kept | with_reducible apply poisonWhere_kept
    | with_reducible apply modCluster_kept | with_reducible apply eventReceipt_kept | with_reducible apply risk_kept
    | with_reducible apply logHealth_kept | with_reducible apply Kept.ite | with_reducible apply Kept.foldl

theorem execUnitHardFault_kept {z s : State} {u : HardUnit} (hK : Kept z s) : KeptOut z (execUnitHardFault u s) := by
  unfold execUnitHardFault
  repeat' first
    | with_reducible assumption | with_reducible apply fenceCluster_kept | with_reducible apply retireBank_kept
    | with_reducible apply videoFault_kept | with_reducible apply portUnitFault_kept | with_reducible apply KeptOut.next
    | with_reducible apply KeptOut.fault | split

theorem cancelAll_kept {z s : State}  (hK : Kept z s) : Kept z (cancelAll s) := by
  unfold cancelAll
  repeat' first
    | with_reducible assumption | intro _ | with_reducible apply abortStep_kept | with_reducible apply endPlan_kept
    | with_reducible apply Kept.foldl

theorem arithHung_kept {z s : State}  (hK : Kept z s) : Kept z (arithHung s) := by
  unfold arithHung
  repeat' first
    | with_reducible assumption | with_reducible apply cancelAll_kept | with_reducible apply answer_kept
    | with_reducible apply eventReceipt_kept | fail_if_no_progress (with_reducible apply Kept.mk_upd) | split

theorem endVideoJobs_kept {z s : State} {k : Nat} (hK : Kept z s) : Kept z (endVideoJobs s k) := by
  unfold endVideoJobs
  repeat' first
    | with_reducible assumption | with_reducible apply modPipe_kept | with_reducible apply retirePipe_kept

theorem releaseReset_kept {z s : State}  (hK : Kept z s) : Kept z (releaseReset s) := by
  unfold releaseReset
  repeat' first
    | with_reducible assumption | with_reducible apply Kept.ite | fail_if_no_progress (with_reducible apply Kept.mk_upd)

theorem wipe_kept {z s : State} {keep : Bool} (hK : Kept z s) : Kept z (wipe s keep) where
  pending := hK.pending
  big := hK.big
  floor := hK.floor
  fw := hK.fw
  health := fun _ => Nat.zero_le _
  dead := fun _ => Nat.zero_le _
  mem := fun w => by
    have h := hK.mem w
    refine ⟨h.1, rfl, ?_, fun c => ?_⟩
    · cases keep
      · rfl
      · exact h.2.2.1
    · show Mem.wf ((Vector.replicate 256 Core.init)[c]).ls = true
      simp; rfl

theorem warmReset_kept {z s : State}  (hK : Kept z s) : Kept z (warmReset s) := by
  unfold warmReset
  repeat' first
    | with_reducible assumption | with_reducible apply wipe_kept | with_reducible apply Kept.ite
    | fail_if_no_progress (with_reducible apply Kept.mk_upd)

theorem domainReset_kept {z s : State} {d : ClkDomain} (hK : Kept z s) : Kept z (domainReset s d) := by
  unfold domainReset
  repeat' first
    | with_reducible assumption | intro _ | with_reducible apply arithHung_kept | with_reducible apply eventReceipt_kept
    | with_reducible apply downPort_kept | with_reducible apply setErr_kept | with_reducible apply endVideoJobs_kept
    | with_reducible apply releaseReset_kept | with_reducible apply warmReset_kept | with_reducible apply Kept.foldl | split

theorem alerting_kept {z s : State} {f : State → State} (hf : ∀ a0, Kept z a0 → Kept z (f a0)) (hK : Kept z s) : Kept z (alerting s
    f) := by
  unfold alerting
  repeat' first
    | with_reducible assumption | with_reducible apply emit_kept | with_reducible apply hf | with_reducible apply Kept.ite

theorem failStart_kept {z s : State} {code : Nat} (hK : Kept z s) : Kept z (failStart s code) := by
  unfold failStart
  repeat' first
    | with_reducible assumption | intro _ | with_reducible apply alerting_kept | fail_if_no_progress (with_reducible apply Kept.mk_upd)

theorem execMuxHung_kept {z s : State} {d : ClkDomain} (hK : Kept z s) : KeptOut z (execMuxHung d s) := by
  unfold execMuxHung
  repeat' first
    | with_reducible assumption | with_reducible apply failStart_kept | with_reducible apply domainReset_kept
    | with_reducible apply Kept.ite | with_reducible apply KeptOut.next

theorem execNop_kept {z s : State} {p : Packet} (hK : Kept z s) : KeptOut z (execNop p s) := by
  unfold execNop
  repeat' first
    | with_reducible assumption | intro _ | with_reducible apply firmware_kept | with_reducible apply answer_kept

theorem execEcho_kept {z s : State} {p : Packet} (hK : Kept z s) : KeptOut z (execEcho p s) := by
  unfold execEcho
  repeat' first
    | with_reducible assumption | intro _ | with_reducible apply firmware_kept | with_reducible apply answer_kept

theorem execReadInfo_kept {z s : State} {p : Packet} (hK : Kept z s) : KeptOut z (execReadInfo p s) := by
  unfold execReadInfo
  repeat' first
    | with_reducible assumption | intro _ | with_reducible apply firmware_kept | with_reducible apply answer_kept
    | with_reducible apply hostRecord_kept | with_reducible apply Kept.ite

theorem execHealthRead_kept {z s : State} {p : Packet} (hK : Kept z s) : KeptOut z (execHealthRead p s) := by
  unfold execHealthRead
  repeat' first
    | with_reducible assumption | intro _ | with_reducible apply firmware_kept | with_reducible apply answer_kept
    | with_reducible apply hostRecord_kept | with_reducible apply Kept.ite

theorem runKid_kept {z s : State} {k : Nat} {j : KidJob} {errs : List LsError} {wbuf : List LsError} (hK : Kept z s) : Kept z
    (runKid s k j errs wbuf).1 := by
  unfold runKid
  repeat' first
    | with_reducible assumption | intro _ | with_reducible apply writePlace_kept | with_reducible apply Kept.foldlFst

theorem freeKid_kept {z s : State} {k : Nat} (hK : Kept z s) : Kept z (freeKid s k) := by
  unfold freeKid
  repeat' first
    | with_reducible assumption | intro _ | with_reducible apply modCore_kept | with_reducible apply wakeHeld_kept
    | with_reducible apply Kept.foldl

theorem acceptKid_kept {z s : State} {k : Nat} {j : KidJob} {soft : List Nat} (hK : Kept z s) : Kept z (acceptKid s k j soft) := by
  unfold acceptKid
  repeat' first
    | with_reducible assumption | intro _ | with_reducible apply modCluster_kept | with_reducible apply risk_kept
    | with_reducible apply logHealth_kept | with_reducible apply hitShared_kept | with_reducible apply dataError_kept
    | with_reducible apply Kept.ite | with_reducible apply Kept.foldl

theorem bufferErrors_kept {z s : State} {j : KidJob} {wbuf : List LsError} (hK : Kept z s) : Kept z (bufferErrors s j wbuf) := by
  unfold bufferErrors
  repeat' first
    | with_reducible assumption | intro _ | with_reducible apply dataError_kept | with_reducible apply softLsError_kept
    | with_reducible apply Kept.ite | with_reducible apply Kept.foldl

theorem execKidJobStart_kept {z s : State} {start : KidStart} (hK : Kept z s) : KeptOut z (execKidJobStart start s) := by
  unfold execKidJobStart
  repeat' first
    | with_reducible assumption | with_reducible apply modCluster_kept | with_reducible apply instrFault_kept
    | with_reducible apply freeKid_kept | with_reducible apply acceptKid_kept | with_reducible apply KeptOut.next | split | dsimp only

theorem execKidJobComplete_kept {z s : State} {cluster : BitVec 4} {errs : KidErrors} (hK : Kept z s) : KeptOut z
    (execKidJobComplete cluster errs s) := by
  unfold execKidJobComplete
  repeat' first
    | with_reducible assumption | with_reducible apply runKid_kept | with_reducible apply freeKid_kept
    | with_reducible apply modCluster_kept | with_reducible apply draw_kept | with_reducible apply signalSig_kept
    | with_reducible apply flagEvents_kept | with_reducible apply bufferErrors_kept | with_reducible apply lsErrors_kept
    | with_reducible apply KeptOut.next | split | dsimp only

theorem grantPages_kept {z s : State} {n : Nat} {d : BitVec 256} {r : Nat} {pages : List Nat} (hK : Kept z s) : Kept z (grantPages s
    n d r pages) := by
  unfold grantPages
  repeat' first
    | with_reducible assumption | intro _ | with_reducible apply signalFw_kept | with_reducible apply putObj_kept
    | with_reducible apply Kept.foldl

theorem holdRing_kept {z s : State} {p : Packet} (hK : Kept z s) : Kept z (holdRing s p) := by
  unfold holdRing
  repeat' first
    | with_reducible assumption | with_reducible apply setRing_kept

theorem execKvPoolGrant_kept {z s : State} {p : Packet} (hK : Kept z s) : KeptOut z (execKvPoolGrant p s) := by
  unfold execKvPoolGrant
  repeat' first
    | with_reducible assumption | intro _ | with_reducible apply ctxCommand_kept | with_reducible apply answer_kept
    | with_reducible apply holdRing_kept | with_reducible apply settleTickets_kept | with_reducible apply grantPages_kept | split
    | dsimp only

theorem execKvPageEdit_kept {z s : State} {p : Packet} (hK : Kept z s) : KeptOut z (execKvPageEdit p s) := by
  unfold execKvPageEdit
  repeat' first
    | with_reducible assumption | intro _ | with_reducible apply ctxCommand_kept | with_reducible apply answer_kept
    | with_reducible apply modCtx_kept | with_reducible apply holdRing_kept | with_reducible apply applyEdits_kept
    | with_reducible apply Kept.ite

theorem endSeq_kept {z s : State} {n : Nat} {pt : Nat} {q : Nat} (hK : Kept z s) : Kept z (endSeq s n pt q) := by
  unfold endSeq
  repeat' first
    | with_reducible assumption | with_reducible apply seqEnded_kept | with_reducible apply endSeqWait_kept
    | with_reducible apply setSeqState_kept | split

theorem execKvSeqAbort_kept {z s : State} {p : Packet} (hK : Kept z s) : KeptOut z (execKvSeqAbort p s) := by
  unfold execKvSeqAbort
  repeat' first
    | with_reducible assumption | intro _ | with_reducible apply ctxCommand_kept | with_reducible apply answer_kept
    | with_reducible apply holdRing_kept | with_reducible apply endSeq_kept | with_reducible apply Kept.ite

theorem learnPage_kept {z s : State} {k : Nat} {w : Walk} {ppn : BitVec 24} (hK : Kept z s) : Kept z (learnPage s k w ppn) := by
  unfold learnPage
  repeat' first
    | with_reducible assumption | with_reducible apply modCluster_kept

theorem walkFound_kept {z s : State} {w : Walk} {ppn : BitVec 24} (hK : Kept z s) : Kept z (walkFound s w ppn) := by
  unfold walkFound
  repeat' first
    | with_reducible assumption | with_reducible apply resumeTile_kept | with_reducible apply learnPage_kept

theorem tableError_kept {z s : State} {n : Nat} {pt : Nat} {off : Nat} (hK : Kept z s) : Kept z (tableError s n pt off) := by
  unfold tableError
  repeat' first
    | with_reducible assumption | intro _ | with_reducible apply homeError_kept | with_reducible apply Kept.elim

theorem takePage_kept {z s : State} {n : Nat} {d : BitVec 256} {w : Walk} {k : Word} (hK : Kept z s) : Kept z (takePage s n d w k) := by
  unfold takePage
  repeat' first
    | with_reducible assumption | with_reducible apply resumeTile_kept | with_reducible apply tableError_kept
    | with_reducible apply walkFound_kept | with_reducible apply returnPage_kept | with_reducible apply setEntry_kept
    | with_reducible apply Kept.ite

theorem waitPage_kept {z s : State} {n : Nat} {d : BitVec 256} {w : Walk} {k : Word} (hK : Kept z s) : Kept z (waitPage s n d w k) := by
  unfold waitPage
  repeat' first
    | with_reducible assumption | with_reducible apply putObj_kept | with_reducible apply modCtx_kept
    | with_reducible apply enterWaiter_kept | with_reducible apply eventReceipt_kept | with_reducible apply attWaiting_kept
    | with_reducible apply attSet_kept | split

theorem walkTake_kept {z s : State} {n : Nat} {d : BitVec 256} {w : Walk} (hK : Kept z s) : Kept z (walkTake s n d w) := by
  unfold walkTake
  repeat' first
    | with_reducible assumption | intro _ | with_reducible apply resumeTile_kept | with_reducible apply logHealth_kept
    | with_reducible refine applySync_kept ?_ (by assumption) | with_reducible apply takePage_kept | with_reducible apply waitPage_kept
    | with_reducible apply Kept.ite | with_reducible apply Kept.getD | split

theorem walkEntry_kept {z s : State} {n : Nat} {d : BitVec 256} {w : Walk} (hK : Kept z s) : Kept z (walkEntry s n d w) := by
  unfold walkEntry
  repeat' first
    | with_reducible assumption | with_reducible apply resumeTile_kept | with_reducible apply walkFound_kept
    | with_reducible apply walkTake_kept | with_reducible apply attSet_kept | with_reducible apply Kept.ite

theorem execPageWalk_kept {z s : State} {cluster : BitVec 4} {ecc : Ecc} (hK : Kept z s) : KeptOut z (execPageWalk cluster ecc s) := by
  unfold execPageWalk
  repeat' first
    | with_reducible assumption | with_reducible apply modCluster_kept | with_reducible apply resumeTile_kept
    | with_reducible apply dataError_kept | with_reducible apply risk_kept | with_reducible apply logHealth_kept
    | with_reducible apply walkEntry_kept | with_reducible apply KeptOut.next | split | dsimp only

theorem resumeSeq_kept {z s : State} {n : Nat} {d : BitVec 256} {w : SeqWait} (hK : Kept z s) : Kept z (resumeSeq s n d w) := by
  unfold resumeSeq
  repeat' first
    | with_reducible assumption | with_reducible apply setSeqState_kept | with_reducible apply dropWalkWaiter_kept
    | with_reducible apply attWaiting_kept | with_reducible apply modCtx_kept | with_reducible apply takePage_kept

theorem execPageWaitResume_kept {z s : State} {slot : BitVec 6} {seq : BitVec 15} (hK : Kept z s) : KeptOut z (execPageWaitResume
    slot seq s) := by
  unfold execPageWaitResume
  repeat' first
    | with_reducible assumption | with_reducible apply resumeSeq_kept | with_reducible apply KeptOut.next | split | dsimp only

theorem execPageWaitTimeout_kept {z s : State} {slot : BitVec 6} {seq : BitVec 15} (hK : Kept z s) : KeptOut z (execPageWaitTimeout
    slot seq s) := by
  unfold execPageWaitTimeout
  repeat' first
    | with_reducible assumption | with_reducible apply resumeSeq_kept | with_reducible apply endSeq_kept
    | with_reducible apply KeptOut.next | split | dsimp only

theorem execPassBoundary_kept {z s : State} {slot : BitVec 6} (hK : Kept z s) : KeptOut z (execPassBoundary slot s) := by
  unfold execPassBoundary
  repeat' first
    | with_reducible assumption | with_reducible apply endPass_kept | with_reducible apply Kept.ite | with_reducible apply KeptOut.next

theorem dropFreed_kept {z s : State} {n : Nat} (hK : Kept z s) : Kept z (dropFreed s n) := by
  unfold dropFreed
  repeat' first
    | with_reducible assumption | intro _ | with_reducible apply modCtx_kept | with_reducible apply Kept.ite
    | with_reducible apply Kept.foldl

theorem execAuxPowerGood_kept {z s : State} {slotId : BitVec 6} (hK : Kept z s) : KeptOut z (execAuxPowerGood slotId s) := by
  unfold execAuxPowerGood
  repeat' first
    | with_reducible assumption | with_reducible apply Kept.ite | fail_if_no_progress (with_reducible apply Kept.mk_upd)
    | with_reducible apply KeptOut.next

theorem powerDown_kept {z s : State}  (hK : Kept z s) : Kept z (powerDown s) := by
  unfold powerDown
  repeat' first
    | with_reducible assumption | with_reducible apply wipe_kept | fail_if_no_progress (with_reducible apply Kept.mk_upd)

theorem execAuxPowerLoss_kept {z s : State}  (hK : Kept z s) : KeptOut z (execAuxPowerLoss s) := by
  unfold execAuxPowerLoss
  repeat' first
    | with_reducible assumption | with_reducible apply powerDown_kept | fail_if_no_progress (with_reducible apply Kept.mk_upd)
    | with_reducible apply KeptOut.ite | with_reducible apply KeptOut.next

theorem execPowerOn_kept {z s : State} {slotId : BitVec 6} (hK : Kept z s) : KeptOut z (execPowerOn slotId s) := by
  unfold execPowerOn
  repeat' first
    | with_reducible assumption | with_reducible apply powerDown_kept | with_reducible apply releaseReset_kept
    | fail_if_no_progress (with_reducible apply Kept.mk_upd) | with_reducible apply KeptOut.ite | with_reducible apply KeptOut.next

theorem execPowerOff_kept {z s : State}  (hK : Kept z s) : KeptOut z (execPowerOff s) := by
  unfold execPowerOff
  repeat' first
    | with_reducible assumption | with_reducible apply powerDown_kept | with_reducible apply Kept.ite | with_reducible apply KeptOut.next

theorem setPin_kept {z s : State} {pin : ResetPin} {low : Bool} (hK : Kept z s) : Kept z (setPin s pin low) := by
  unfold setPin
  repeat' first
    | with_reducible assumption | fail_if_no_progress (with_reducible apply Kept.mk_upd) | split

theorem execWarmResetAssert_kept {z s : State} {pin : ResetPin} (hK : Kept z s) : KeptOut z (execWarmResetAssert pin s) := by
  unfold execWarmResetAssert
  repeat' first
    | with_reducible assumption | with_reducible apply warmReset_kept | with_reducible apply setPin_kept
    | with_reducible apply KeptOut.next

theorem execWarmResetRelease_kept {z s : State} {pin : ResetPin} (hK : Kept z s) : KeptOut z (execWarmResetRelease pin s) := by
  unfold execWarmResetRelease
  repeat' first
    | with_reducible assumption | with_reducible apply releaseReset_kept | with_reducible apply setPin_kept
    | with_reducible apply KeptOut.next

theorem execXoAmplitudeDetect_kept {z s : State} {swing : Bool} (hK : Kept z s) : KeptOut z (execXoAmplitudeDetect swing s) := by
  unfold execXoAmplitudeDetect
  repeat' first
    | with_reducible assumption | with_reducible apply Kept.ite | fail_if_no_progress (with_reducible apply Kept.mk_upd)
    | with_reducible apply KeptOut.next

theorem execXoStable_kept {z s : State}  (hK : Kept z s) : KeptOut z (execXoStable s) := by
  unfold execXoStable
  repeat' first
    | with_reducible assumption | with_reducible apply Kept.ite | fail_if_no_progress (with_reducible apply Kept.mk_upd)
    | with_reducible apply KeptOut.next

theorem execXoTimeout_kept {z s : State}  (hK : Kept z s) : KeptOut z (execXoTimeout s) := by
  unfold execXoTimeout
  repeat' first
    | with_reducible assumption | with_reducible apply failStart_kept | with_reducible apply Kept.ite | with_reducible apply KeptOut.next

theorem execPllLock_kept {z s : State}  (hK : Kept z s) : KeptOut z (execPllLock s) := by
  unfold execPllLock
  repeat' first
    | with_reducible assumption | with_reducible apply Kept.ite | fail_if_no_progress (with_reducible apply Kept.mk_upd)
    | with_reducible apply KeptOut.next

theorem execPllLockTimeout_kept {z s : State}  (hK : Kept z s) : KeptOut z (execPllLockTimeout s) := by
  unfold execPllLockTimeout
  repeat' first
    | with_reducible assumption | with_reducible apply failStart_kept | with_reducible apply Kept.ite | with_reducible apply KeptOut.next

end Sys2Proof.Machine
end

