-- ==== Sys2Proof/Laws/KeptCmds.lean ====
section
/-! SUPPORT. What each operation keeps, part 3 of 4: from `toPhase` to `landSlice`. -/

namespace Sys2Proof.Machine

theorem toPhase_kept {z s : State} {ph : Phase} (hK : Kept z s) : Kept z (toPhase s ph) := by
  unfold toPhase
  repeat' first
    | with_reducible assumption | fail_if_no_progress (with_reducible apply Kept.mk_upd)

theorem bootBank_kept {z s : State} {b : Bool} {x : BitVec 8 × Byte × Byte} (hx : x.1 ≤ 64) (hK : Kept z s) :
    Kept z (bootBank s b x) := by
  refine Kept.updFw hK rfl rfl ?_ ?_ rfl rfl rfl rfl rfl rfl
  · cases b <;> rfl
  · rintro ⟨h1, h2, h3⟩
    cases b
    · exact ⟨h1, hx, h3⟩
    · exact ⟨h1, h2, hx⟩

theorem bankVerdict_le {s : State} {b : BankCheck} {x : BitVec 8 × Byte × Byte} (h : bankVerdict s b = .ok x) : x.1 ≤ 64 := by
  cases b with
  | pass svn major minor =>
    have hv : (if (64 : BitVec 8) < svn then 64 else svn) ≤ 64 := by
      split
      · exact BitVec.le_refl _
      · exact BitVec.not_lt.mp ‹_›
    unfold bankVerdict at h
    dsimp only at h hv
    generalize (if (64 : BitVec 8) < svn then 64 else svn) = v at h hv
    split at h
    · cases h
    · cases h; exact hv
  | keyDigest => cases h
  | signature => cases h
  | rollback => cases h
  | flashRead => cases h

theorem endFwAuth_kept {z s : State} {r : PhaseResult} (hK : Kept z s) : Kept z (endFwAuth s r) := by
  unfold endFwAuth
  dsimp only
  split
  · exact bootBank_kept (bankVerdict_le ‹_›) hK
  · exact bootBank_kept (bankVerdict_le ‹_›) hK
  · exact failStart_kept (hK.upd rfl rfl rfl rfl rfl rfl rfl rfl rfl)
  · exact hK

theorem endMemInit_kept {z s : State} (hK : Kept z s) : Kept z (endMemInit s) := by
  unfold endMemInit
  refine hK.updMem rfl rfl rfl rfl rfl fun w => ⟨w.1, w.2.1, ?_, w.2.2.2⟩
  dsimp only
  split
  · exact Mem.wf_zero _ _ w.2.2.1
  · rfl

theorem upPort_kept {z s : State} {n : Nat} (hK : Kept z s) : Kept z (upPort s n) := by
  unfold upPort
  repeat' first
    | with_reducible assumption | with_reducible apply modPort_kept

theorem endLinkCal_kept {z s : State} {up : BitVec 16} (hK : Kept z s) : Kept z (endLinkCal s up) := by
  unfold endLinkCal
  repeat' first
    | with_reducible assumption | intro _ | with_reducible apply toPhase_kept | with_reducible apply upPort_kept
    | with_reducible apply logHealth_kept | with_reducible apply modPort_kept | with_reducible apply Kept.ite
    | with_reducible apply Kept.foldl

theorem selfTestFaults_kept {z s : State} {r : PhaseResult} (hK : Kept z s) : Kept z (selfTestFaults s r) := by
  unfold selfTestFaults
  repeat' first
    | with_reducible assumption | intro _ | with_reducible apply logHealth_kept | with_reducible apply modCore_kept
    | with_reducible apply modCluster_kept | with_reducible apply modPipe_kept | with_reducible apply modPort_kept
    | with_reducible exact LsKept.same rfl | with_reducible apply Kept.foldl | fail_if_no_progress (with_reducible apply Kept.mk_upd)

theorem endSelfTest_kept {z s : State} {r : PhaseResult} (hK : Kept z s) : Kept z (endSelfTest s r) := by
  unfold endSelfTest
  repeat' first
    | with_reducible assumption | with_reducible apply selfTestFaults_kept | with_reducible apply failStart_kept
    | with_reducible apply Kept.ite | fail_if_no_progress (with_reducible apply Kept.mk_upd)

theorem endPhase_kept {z s : State} {r : PhaseResult} (hK : Kept z s) : Kept z (endPhase s r) := by
  unfold endPhase
  repeat' first
    | with_reducible assumption | with_reducible apply toPhase_kept | with_reducible apply failStart_kept
    | with_reducible apply endFwAuth_kept | with_reducible apply endMemInit_kept | with_reducible apply endLinkCal_kept
    | with_reducible apply endSelfTest_kept | with_reducible apply Kept.ite | fail_if_no_progress (with_reducible apply Kept.mk_upd)
    | split

theorem execStartPhaseComplete_kept {z s : State} {r : PhaseResult} (hK : Kept z s) : KeptOut z (execStartPhaseComplete r s) := by
  unfold execStartPhaseComplete
  repeat' first
    | with_reducible assumption | with_reducible apply endPhase_kept | with_reducible apply Kept.ite | with_reducible apply KeptOut.next

theorem execPhaseTimeout_kept {z s : State}  (hK : Kept z s) : KeptOut z (execPhaseTimeout s) := by
  unfold execPhaseTimeout
  repeat' first
    | with_reducible assumption | with_reducible apply failStart_kept | with_reducible apply Kept.ite | with_reducible apply KeptOut.next

theorem execLinkRetrain_kept {z s : State}  (hK : Kept z s) : KeptOut z (execLinkRetrain s) := by
  unfold execLinkRetrain
  repeat' first
    | with_reducible assumption | with_reducible apply setErr_kept | with_reducible apply Kept.ite | with_reducible apply KeptOut.next

theorem execLinkLoss_kept {z s : State}  (hK : Kept z s) : KeptOut z (execLinkLoss s) := by
  unfold execLinkLoss
  repeat' first
    | with_reducible assumption | with_reducible apply setErr_kept | with_reducible apply Kept.ite
    | fail_if_no_progress (with_reducible apply Kept.mk_upd) | with_reducible apply KeptOut.next

theorem flushRing_kept {z : State} (k : Nat) : ∀ (s : State) (n : Nat), Kept z s → Kept z (flushRing k s n) := by
  induction k with
  | zero => intro s n h; exact h
  | succ f ih =>
    intro s n h
    unfold flushRing
    dsimp only
    repeat' first
      | with_reducible apply ih | with_reducible assumption | with_reducible apply writeReceipt_kept
      | with_reducible apply setRing_kept | with_reducible apply Kept.ite | split

theorem releaseReceipts_kept {z s : State} {n : Nat} (hK : Kept z s) : Kept z (releaseReceipts s n) := by
  unfold releaseReceipts
  repeat' first
    | with_reducible assumption | with_reducible apply flushRing_kept

theorem execLinkReturn_kept {z s : State}  (hK : Kept z s) : KeptOut z (execLinkReturn s) := by
  unfold execLinkReturn
  repeat' first
    | with_reducible assumption | intro _ | with_reducible apply setRing_kept | with_reducible apply releaseReceipts_kept
    | with_reducible apply Kept.ite | with_reducible apply Kept.foldl | fail_if_no_progress (with_reducible apply Kept.mk_upd)
    | with_reducible apply KeptOut.next

theorem execHdmDecoderCommit_kept {z s : State}  (hK : Kept z s) : KeptOut z (execHdmDecoderCommit s) := by
  unfold execHdmDecoderCommit
  repeat' first
    | with_reducible assumption | with_reducible apply Kept.ite | fail_if_no_progress (with_reducible apply Kept.mk_upd)
    | with_reducible apply KeptOut.next

theorem execEnec_kept {z s : State}  (hK : Kept z s) : KeptOut z (execEnec s) := by
  unfold execEnec
  repeat' first
    | with_reducible assumption | with_reducible apply Kept.ite | fail_if_no_progress (with_reducible apply Kept.mk_upd)
    | with_reducible apply KeptOut.next

theorem execEntdaa_kept {z s : State} {address : BitVec 7} (hK : Kept z s) : KeptOut z (execEntdaa address s) := by
  unfold execEntdaa
  repeat' first
    | with_reducible assumption | with_reducible apply emit_kept | with_reducible apply Kept.ite
    | fail_if_no_progress (with_reducible apply Kept.mk_upd) | with_reducible apply KeptOut.next

theorem setAlertBit_kept {z s : State} {i : Nat} (hK : Kept z s) : Kept z (setAlertBit s i) := by
  unfold setAlertBit
  repeat' first
    | with_reducible assumption | fail_if_no_progress (with_reducible apply Kept.mk_upd)

theorem i3cPut_kept {z s : State} {off : Nat} {v : BitVec 8} {hw : BitVec 8} (hK : Kept z s) : Kept z (i3cPut s off v hw) := by
  unfold i3cPut
  repeat' first
    | with_reducible assumption | intro _ | with_reducible apply alerting_kept | with_reducible apply setAlertBit_kept
    | with_reducible apply Kept.ite | with_reducible apply Kept.foldl | fail_if_no_progress (with_reducible apply Kept.mk_upd)

theorem execI3cPrivateWrite_kept {z s : State} {offset : BitVec 8} {data : List Byte} {hw : BitVec 8} (hK : Kept z s) : KeptOut z
    (execI3cPrivateWrite offset data hw s) := by
  unfold execI3cPrivateWrite
  repeat' first
    | with_reducible assumption | intro _ | with_reducible apply i3cPut_kept | with_reducible apply Kept.foldl
    | fail_if_no_progress (with_reducible apply Kept.mk_upd) | with_reducible apply KeptOut.ite | with_reducible apply KeptOut.next

theorem execJtagInstruction_kept {z s : State} {code : JtagCode} (hK : Kept z s) : KeptOut z (execJtagInstruction code s) := by
  unfold execJtagInstruction
  repeat' first
    | with_reducible assumption | with_reducible apply Kept.ite | fail_if_no_progress (with_reducible apply Kept.mk_upd)
    | with_reducible apply KeptOut.next

theorem setAlert_kept {z s : State} {i : Nat} (hK : Kept z s) : Kept z (setAlert s i) := by
  unfold setAlert
  repeat' first
    | with_reducible assumption | intro _ | with_reducible apply alerting_kept | with_reducible apply setAlertBit_kept
    | with_reducible apply Kept.ite

theorem execCoolantAlert_kept {z s : State}  (hK : Kept z s) : KeptOut z (execCoolantAlert s) := by
  unfold execCoolantAlert
  repeat' first
    | with_reducible assumption | with_reducible apply setAlert_kept | with_reducible apply KeptOut.next

theorem railsOff_kept {z s : State}  (hK : Kept z s) : Kept z (railsOff s) := by
  unfold railsOff
  repeat' first
    | with_reducible assumption | with_reducible apply wipe_kept | fail_if_no_progress (with_reducible apply Kept.mk_upd)

theorem execInputOutOfRange_kept {z s : State}  (hK : Kept z s) : KeptOut z (execInputOutOfRange s) := by
  unfold execInputOutOfRange
  repeat' first
    | with_reducible assumption | intro _ | with_reducible apply alerting_kept | with_reducible apply setAlertBit_kept
    | with_reducible apply railsOff_kept | with_reducible apply Kept.ite | with_reducible apply KeptOut.next

theorem moduleFault_kept {z s : State}  (hK : Kept z s) : Kept z (moduleFault s) := by
  unfold moduleFault
  repeat' first
    | with_reducible assumption | with_reducible apply logHealth_kept | with_reducible apply setAlert_kept
    | fail_if_no_progress (with_reducible apply Kept.mk_upd)

theorem powerEvent_kept {z s : State} {detail : Nat} (hK : Kept z s) : Kept z (powerEvent s detail) := by
  unfold powerEvent
  repeat' first
    | with_reducible assumption | with_reducible apply eventReceipt_kept | with_reducible apply logHealth_kept

theorem execLaneLockLoss_kept {z s : State} {port : BitVec 4} {lane : BitVec 2} (hK : Kept z s) : KeptOut z (execLaneLockLoss port
    lane s) := by
  unfold execLaneLockLoss
  repeat' first
    | with_reducible assumption | with_reducible apply modPort_kept | with_reducible apply downPort_kept | with_reducible apply Kept.ite
    | with_reducible apply KeptOut.next

theorem execPortTrain_kept {z s : State} {port : BitVec 4} (hK : Kept z s) : KeptOut z (execPortTrain port s) := by
  unfold execPortTrain
  repeat' first
    | with_reducible assumption | with_reducible apply upPort_kept | with_reducible apply Kept.ite | with_reducible apply KeptOut.next

theorem execTrainTimeout_kept {z s : State} {port : BitVec 4} (hK : Kept z s) : KeptOut z (execTrainTimeout port s) := by
  unfold execTrainTimeout
  repeat' first
    | with_reducible assumption | with_reducible apply downPort_kept | with_reducible apply Kept.ite | with_reducible apply KeptOut.next

theorem execLinkDownTimeout_kept {z s : State} {port : BitVec 4} {silence : Bool} (hK : Kept z s) : KeptOut z (execLinkDownTimeout
    port silence s) := by
  unfold execLinkDownTimeout
  repeat' first
    | with_reducible assumption | with_reducible apply downPort_kept | with_reducible apply Kept.ite | with_reducible apply KeptOut.next

theorem resendFlit_kept {z s : State} {n : Nat} {f : Flit} (hK : Kept z s) : Kept z (resendFlit s n f) := by
  unfold resendFlit
  repeat' first
    | with_reducible assumption | with_reducible apply emit_kept | with_reducible apply modPort_kept

theorem replay_kept {z s : State} {n : Nat} (hK : Kept z s) : Kept z (replay s n) := by
  unfold replay
  repeat' first
    | with_reducible assumption | intro _ | with_reducible apply risk_kept | with_reducible apply logHealth_kept
    | with_reducible apply modPort_kept | with_reducible apply resendFlit_kept | with_reducible apply Kept.foldl | split

theorem execReplayReq_kept {z s : State} {port : BitVec 4} {link : LinkHdr} (hK : Kept z s) : KeptOut z (execReplayReq port link s) := by
  unfold execReplayReq
  repeat' first
    | with_reducible assumption | with_reducible apply pump_kept | with_reducible apply replay_kept | with_reducible apply modPort_kept
    | with_reducible apply Kept.ite | with_reducible apply KeptOut.next

theorem execReplayTimeout_kept {z s : State} {port : BitVec 4} (hK : Kept z s) : KeptOut z (execReplayTimeout port s) := by
  unfold execReplayTimeout
  repeat' first
    | with_reducible assumption | with_reducible apply replay_kept | with_reducible apply Kept.ite | with_reducible apply KeptOut.next

theorem countFec_kept {z s : State} {n : Nat} {fec : Fec} (hK : Kept z s) : Kept z (countFec s n fec) := by
  unfold countFec
  repeat' first
    | with_reducible assumption | with_reducible apply modPort_kept | with_reducible apply risk_kept | with_reducible apply logHealth_kept
    | with_reducible apply Kept.ite

theorem discardFlit_kept {z s : State} {n : Nat} (hK : Kept z s) : Kept z (discardFlit s n) := by
  unfold discardFlit
  repeat' first
    | with_reducible assumption | with_reducible apply emit_kept | with_reducible apply modPort_kept | with_reducible apply Kept.ite

theorem freeEntry_kept {z s : State} {n : Nat} {v : Nat} (hK : Kept z s) : Kept z (freeEntry s n v) := by
  unfold freeEntry
  repeat' first
    | with_reducible assumption | with_reducible apply modPort_kept

theorem dropFlit_kept {z s : State}  (hK : Kept z s) : Kept z (dropFlit s) := by
  unfold dropFlit
  repeat' first
    | with_reducible assumption | fail_if_no_progress (with_reducible apply Kept.mk_upd)

theorem deliverFlit_kept {z s : State} {n : Nat} {f : Flit} (hK : Kept z s) : Kept z (deliverFlit s n f) := by
  unfold deliverFlit
  repeat' first
    | with_reducible assumption | with_reducible apply freeEntry_kept | with_reducible apply dropFlit_kept
    | with_reducible apply modPort_kept | with_reducible apply bounce_kept | with_reducible apply logHealth_kept
    | with_reducible apply enqueue_kept | with_reducible apply Kept.ite | split

theorem takeFlit_kept {z s : State} {n : Nat} {f : Flit} (hK : Kept z s) : Kept z (takeFlit s n f) := by
  unfold takeFlit
  repeat' first
    | with_reducible assumption | with_reducible apply modPort_kept | with_reducible apply respond_kept
    | with_reducible apply deliverFlit_kept | with_reducible apply discardFlit_kept | with_reducible apply pump_kept
    | with_reducible apply replay_kept | with_reducible apply dropFlit_kept | with_reducible apply Kept.ite

theorem execFlitReceive_kept {z s : State} {port : BitVec 4} {f : Flit} {fec : Fec} (hK : Kept z s) : KeptOut z (execFlitReceive
    port f fec s) := by
  unfold execFlitReceive
  repeat' first
    | with_reducible assumption | with_reducible apply countFec_kept | with_reducible apply downPort_kept
    | with_reducible apply discardFlit_kept | with_reducible apply modPort_kept | with_reducible apply takeFlit_kept
    | with_reducible apply KeptOut.ite | with_reducible apply KeptOut.next

theorem retrainPort_kept {z s : State} {n : Nat} (hK : Kept z s) : Kept z (retrainPort s n) := by
  unfold retrainPort
  repeat' first
    | with_reducible assumption | with_reducible apply modPort_kept | with_reducible apply Kept.ite

theorem execFabRouteLoad_kept {z s : State} {p : Packet} (hK : Kept z s) : KeptOut z (execFabRouteLoad p s) := by
  unfold execFabRouteLoad
  repeat' first
    | with_reducible assumption | intro _ | with_reducible apply mgmtCommand_kept | with_reducible apply answer_kept
    | with_reducible apply modShadow_kept | with_reducible apply retrainPort_kept | with_reducible apply Kept.ite
    | with_reducible apply Kept.foldl | fail_if_no_progress (with_reducible apply Kept.mk_upd) | split

theorem writeList_kept {z s : State} {n : Nat} {l : Nat} {ms : List (BitVec 14)} (hK : Kept z s) : Kept z (writeList s n l ms) := by
  unfold writeList
  repeat' first
    | with_reducible assumption | with_reducible apply modCtx_kept | fail_if_no_progress (with_reducible apply Kept.mk_upd)

theorem execFabMembership_kept {z s : State} {p : Packet} (hK : Kept z s) : KeptOut z (execFabMembership p s) := by
  unfold execFabMembership
  repeat' first
    | with_reducible assumption | intro _ | with_reducible apply ctxCommand_kept | with_reducible apply answer_kept
    | with_reducible apply writeList_kept | with_reducible apply Kept.ite | split

theorem allocWork_kept {z s : State} {n id size : Nat} {res : State} (hK : Kept z s) :
    allocWork s n id size = some res → Kept z res := by
  unfold allocWork
  intro h
  obtain ⟨x, -, rfl⟩ := Option.map_eq_some_iff.mp h
  exact putEntry_kept hK

theorem allocWorks_kept {z s : State} {n : Nat} {ws : List (Nat × Nat)} {res : State} (hK : Kept z s) :
    allocWorks s n ws = some res → Kept z res := by
  unfold allocWorks
  have hn : ∀ l : List (Nat × Nat), l.foldl (fun acc w => acc.bind fun s => allocWork s n w.1 w.2) none = none := by
    intro l
    induction l with
    | nil => rfl
    | cons x l ih => exact ih
  induction ws generalizing s with
  | nil => rintro ⟨⟩; exact hK
  | cons w ws ih =>
    rw [List.foldl_cons, Option.bind_some]
    cases hw : allocWork s n w.1 w.2 with
    | none => rw [hn]; rintro ⟨⟩
    | some t => exact ih (allocWork_kept hK hw)

theorem clearCtxBits_kept {z s : State} {n : Nat} {off : Nat} {mask : BitVec 64} {hw : BitVec 64} (hK : Kept z s) : Kept z
    (clearCtxBits s n off mask hw) := by
  unfold clearCtxBits
  repeat' first
    | with_reducible assumption | intro _ | with_reducible apply attSet_kept | with_reducible apply modCtx_kept
    | with_reducible apply updAlarmSet_kept | with_reducible apply tcdSet_kept | with_reducible apply Kept.foldl | split | dsimp only

theorem clearErr_kept {z s : State} {mask : BitVec 64} {hw : BitVec 64} (hK : Kept z s) : Kept z (clearErr s mask hw) := by
  unfold clearErr
  repeat' first
    | with_reducible assumption | with_reducible apply setErr_kept | with_reducible apply Kept.foldl
    | fail_if_no_progress (with_reducible apply Kept.mk_upd)

theorem clearBits_kept {z s : State} {off : Nat} {mask : BitVec 64} {hw : BitVec 64} (hK : Kept z s) : Kept z (clearBits s off mask
    hw) := by
  unfold clearBits
  repeat' first
    | with_reducible assumption | with_reducible apply clearErr_kept | with_reducible apply clearCtxBits_kept
    | with_reducible apply Kept.ite

theorem execW1cClear_kept {z s : State} {offset : BitVec 16} {mask : BitVec 64} {hw : BitVec 64} (hK : Kept z s) : KeptOut z
    (execW1cClear offset mask hw s) := by
  unfold execW1cClear
  repeat' first
    | with_reducible assumption | with_reducible apply clearBits_kept | with_reducible apply Kept.ite | with_reducible apply KeptOut.next

theorem unboundViolation_kept {z s : State} {kind : Nat} {ring : Nat} {info : Word} (hK : Kept z s) : Kept z (unboundViolation s
    kind ring info) := by
  unfold unboundViolation
  repeat' first
    | with_reducible assumption | with_reducible apply deadLetter_kept

theorem mmioViolation_kept {z s : State} {off : Nat} (hK : Kept z s) : Kept z (mmioViolation s off) := by
  unfold mmioViolation
  repeat' first
    | with_reducible assumption | with_reducible apply unboundViolation_kept

theorem writeBase_kept {z s : State} {n : Nat} {off : Nat} {post : Bool} {w : BitVec 64} (hK : Kept z s) : Kept z (writeBase s n off
    post w) := by
  unfold writeBase
  repeat' first
    | with_reducible assumption | with_reducible apply mmioViolation_kept | with_reducible apply setRing_kept
    | with_reducible apply Kept.ite

theorem sendPending_kept {z s : State} {v : Nat} {e : MsixEntry} (hK : Kept z s) : Kept z (sendPending s v e) := by
  unfold sendPending
  repeat' first
    | with_reducible assumption | with_reducible apply emit_kept | with_reducible apply Kept.ite
    | fail_if_no_progress (with_reducible apply Kept.mk_upd)

theorem writeMsix_kept {z s : State} {off : Nat} {w : BitVec 64} (hK : Kept z s) : Kept z (writeMsix s off w) := by
  unfold writeMsix
  repeat' first
    | with_reducible assumption | with_reducible apply sendPending_kept | fail_if_no_progress (with_reducible apply Kept.mk_upd)

theorem startRing_kept {z s : State} {n : Nat} {w : BitVec 64} (hK : Kept z s) : Kept z (startRing s n w) := by
  unfold startRing
  repeat' first
    | with_reducible assumption | with_reducible apply setRing_kept

theorem writeCtrl_kept {z s : State} {n : Nat} {w : BitVec 64} (hK : Kept z s) : Kept z (writeCtrl s n w) := by
  unfold writeCtrl
  repeat' first
    | with_reducible assumption | with_reducible apply mmioViolation_kept | with_reducible apply setRing_kept
    | with_reducible apply startRing_kept | with_reducible apply Kept.ite

theorem setRcptHead_kept {z s : State} {n : Nat} {value : BitVec 64} (hK : Kept z s) : Kept z (setRcptHead s n value) := by
  unfold setRcptHead
  repeat' first
    | with_reducible assumption | with_reducible apply releaseReceipts_kept | with_reducible apply setRing_kept

theorem writeRingReg_kept {z s : State} {n : Nat} {off : Nat} {w : BitVec 64} (hK : Kept z s) : Kept z (writeRingReg s n off w) := by
  unfold writeRingReg
  repeat' first
    | with_reducible assumption | with_reducible apply writeBase_kept | with_reducible apply writeCtrl_kept
    | with_reducible apply setRcptHead_kept | with_reducible apply Kept.ite

theorem writeReg_kept {z s : State} {off : Nat} {w : BitVec 64} (hK : Kept z s) : Kept z (writeReg s off w) := by
  unfold writeReg
  repeat' first
    | with_reducible assumption | with_reducible apply writeRingReg_kept | with_reducible apply writeMsix_kept
    | with_reducible apply Kept.ite

theorem doorbellViolation_kept {z s : State} {n : Nat} {kind : Nat} {status : Nat} {value : BitVec 64} {slot : Option Nat} {reply :
    State → State} (hreply : ∀ a0, Kept z a0 → Kept z (reply a0)) (hK : Kept z s) : Kept z (doorbellViolation s n kind status value slot
    reply) := by
  unfold doorbellViolation
  repeat' first
    | with_reducible assumption | with_reducible apply hostViolation_kept

theorem ringDoorbell_kept {z s : State} {n : Nat} {value : BitVec 64} (hK : Kept z s) : Kept z (ringDoorbell s n value) := by
  unfold ringDoorbell
  dsimp only
  apply Kept.ite
  · exact doorbellViolation_kept (fun _ h => h) hK
  · apply Kept.ite
    · exact setRing_kept hK
    · exact Kept.ite hK (doorbellViolation_kept (fun _ h => eventReceipt_kept h) hK)

theorem execRegisterWrite_kept {z s : State} {offset : BitVec 16} {size : Nat} {value : BitVec 64} {poisoned : Bool} (hK : Kept z s)
    : KeptOut z (execRegisterWrite offset size value poisoned s) := by
  unfold execRegisterWrite
  repeat' first
    | with_reducible assumption | with_reducible apply mmioViolation_kept | with_reducible apply setErr_kept
    | with_reducible apply ringDoorbell_kept | with_reducible apply clearBits_kept | with_reducible apply writeReg_kept
    | with_reducible apply Kept.ite | with_reducible apply KeptOut.ite | with_reducible apply KeptOut.next

theorem noteHostRead_kept {z s : State} {n : Nat} {a : Nat} (hK : Kept z s) : Kept z (noteHostRead s n a) := by
  unfold noteHostRead
  repeat' first
    | with_reducible assumption | with_reducible apply risk_kept | with_reducible apply logHealth_kept

theorem softHostRead_kept {z s : State} {n : Nat} {a : Nat} (hK : Kept z s) : Kept z (softHostRead s n a) := by
  unfold softHostRead
  repeat' first
    | with_reducible assumption | with_reducible apply risk_kept | with_reducible apply logHealth_kept

theorem execBar2Access_kept {z s : State} {write : Bool} {offset : BitVec 48} {size : Nat} {data : HostData} (hK : Kept z s) :
    KeptOut z (execBar2Access write offset size data s) := by
  unfold execBar2Access
  repeat' first
    | with_reducible assumption | intro _ | with_reducible apply emit_kept | with_reducible apply unboundViolation_kept
    | with_reducible apply dropFreed_kept | with_reducible apply lpWrite_kept | with_reducible apply softHostRead_kept
    | with_reducible apply noteHostRead_kept | with_reducible apply Kept.foldl | with_reducible apply KeptOut.ite
    | with_reducible apply KeptOut.next | split

theorem delEntry_kept {z s : State} {n : Nat} {id : Nat} (hK : Kept z s) : Kept z (delEntry s n id) := by
  unfold delEntry
  repeat' first
    | with_reducible assumption | with_reducible apply modCtx_kept

theorem zeroHome_kept {z s : State} {n : Nat} {o : Obj} (hK : Kept z s) : Kept z (zeroHome s n o) := by
  unfold zeroHome
  repeat' first
    | with_reducible assumption | with_reducible apply writePlace_kept

theorem retirePage_kept {z s : State} {p : Packet} (hK : Kept z s) : Kept z (retirePage s p) := by
  unfold retirePage
  repeat' first
    | with_reducible assumption | with_reducible apply answer_kept | with_reducible apply Kept.ite
    | fail_if_no_progress (with_reducible apply Kept.mk_upd)

theorem execObjAlloc_kept {z s : State} {p : Packet} (hK : Kept z s) : KeptOut z (execObjAlloc p s) := by
  unfold execObjAlloc
  repeat' first
    | with_reducible assumption | intro _ | with_reducible apply ctxCommand_kept | with_reducible apply answer_kept
    | with_reducible apply retirePage_kept | with_reducible apply emit_kept | with_reducible apply modCtx_kept
    | with_reducible apply putEntry_kept | with_reducible apply zeroHome_kept | with_reducible apply Kept.ite | split

theorem execBindQuery_kept {z s : State} {asker : BitVec 14} {ctx : BitVec 16} {objId : BitVec 32} (hK : Kept z s) : KeptOut z
    (execBindQuery asker ctx objId s) := by
  unfold execBindQuery
  repeat' first
    | with_reducible assumption | with_reducible apply emit_kept | with_reducible apply putEntry_kept | with_reducible apply KeptOut.next
    | split

theorem execBindAnswer_kept {z s : State} {ctx : BitVec 16} {objId : BitVec 32} {reply : MgtReply} (hK : Kept z s) : KeptOut z
    (execBindAnswer ctx objId reply s) := by
  unfold execBindAnswer
  repeat' first
    | with_reducible assumption | with_reducible apply modCtx_kept | with_reducible apply answer_kept | with_reducible apply putEntry_kept
    | with_reducible apply KeptOut.ite | with_reducible apply KeptOut.next | split

theorem execObjFree_kept {z s : State} {p : Packet} (hK : Kept z s) : KeptOut z (execObjFree p s) := by
  unfold execObjFree
  repeat' first
    | with_reducible assumption | intro _ | with_reducible apply ctxCommand_kept | with_reducible apply answer_kept
    | with_reducible apply delEntry_kept | split | dsimp only

theorem execObjQuery_kept {z s : State} {p : Packet} (hK : Kept z s) : KeptOut z (execObjQuery p s) := by
  unfold execObjQuery
  repeat' first
    | with_reducible assumption | intro _ | with_reducible apply ctxCommand_kept | with_reducible apply answer_kept
    | with_reducible apply hostRecord_kept | split | dsimp only

theorem wakePower_kept {z s : State}  (hK : Kept z s) : Kept z (wakePower s) := by
  unfold wakePower
  repeat' first
    | with_reducible assumption | with_reducible apply Kept.ite | fail_if_no_progress (with_reducible apply Kept.mk_upd)

theorem execObjMigrate_kept {z s : State} {p : Packet} (hK : Kept z s) : KeptOut z (execObjMigrate p s) := by
  unfold execObjMigrate
  repeat' first
    | with_reducible assumption | intro _ | with_reducible apply ctxCommand_kept | with_reducible apply answer_kept
    | with_reducible apply tellBinders_kept | with_reducible apply putEntry_kept | with_reducible apply draw_kept
    | with_reducible apply wakePower_kept | with_reducible apply emit_kept | split | dsimp only

theorem execMigrationPlaceQuery_kept {z s : State} {asker : BitVec 14} {ctx : BitVec 16} {req : PlaceReq} (hK : Kept z s) : KeptOut
    z (execMigrationPlaceQuery asker ctx req s) := by
  unfold execMigrationPlaceQuery
  repeat' first
    | with_reducible assumption | with_reducible apply emit_kept | with_reducible apply draw_kept | with_reducible apply modCtx_kept
    | with_reducible apply KeptOut.ite | with_reducible apply KeptOut.next | split

theorem execMigrationPlaceAnswer_kept {z s : State} {slot : BitVec 6} {objId : BitVec 32} {reply : MgtReply} (hK : Kept z s) :
    KeptOut z (execMigrationPlaceAnswer slot objId reply s) := by
  unfold execMigrationPlaceAnswer
  repeat' first
    | with_reducible assumption | with_reducible apply migrationBack_kept | with_reducible apply putEntry_kept
    | with_reducible apply KeptOut.next | split

theorem onBind_kept {z s : State} {ctx : BitVec 16} {home : BitVec 64} {f : Obj → Obj} (hK : Kept z s) : Kept z (onBind s ctx home
    f) := by
  unfold onBind
  repeat' first
    | with_reducible assumption | with_reducible apply modCtx_kept | split

theorem execMigrationFenceNotice_kept {z s : State} {ctx : BitVec 16} {home : BitVec 64} (hK : Kept z s) : KeptOut z
    (execMigrationFenceNotice ctx home s) := by
  unfold execMigrationFenceNotice
  repeat' first
    | with_reducible assumption | with_reducible apply emit_kept | with_reducible apply onBind_kept | with_reducible apply KeptOut.next

theorem execMigrationCommitNotice_kept {z s : State} {ctx : BitVec 16} {oldHome : BitVec 64} {newHome : BitVec 64} (hK : Kept z s) :
    KeptOut z (execMigrationCommitNotice ctx oldHome newHome s) := by
  unfold execMigrationCommitNotice
  repeat' first
    | with_reducible assumption | with_reducible apply onBind_kept | with_reducible apply modCtx_kept | with_reducible apply KeptOut.next
    | split | dsimp only

theorem execMigrationCopyStart_kept {z s : State} {slot : BitVec 6} {objId : BitVec 32} (hK : Kept z s) : KeptOut z
    (execMigrationCopyStart slot objId s) := by
  unfold execMigrationCopyStart
  repeat' first
    | with_reducible assumption | with_reducible apply putEntry_kept | with_reducible apply KeptOut.next | split

theorem execMigrationAckTimeout_kept {z s : State} {slot : BitVec 6} {objId : BitVec 32} {binder : BitVec 14} (hK : Kept z s) :
    KeptOut z (execMigrationAckTimeout slot objId binder s) := by
  unfold execMigrationAckTimeout
  repeat' first
    | with_reducible assumption | with_reducible apply putEntry_kept | with_reducible apply KeptOut.next | split

theorem markBad_kept {z s : State} {pl : Place} {offs : List Nat} (hK : Kept z s) : Kept z (markBad s pl offs) := by
  unfold markBad
  repeat' first
    | with_reducible assumption | fail_if_no_progress (with_reducible apply Kept.mk_upd) | split

theorem dropCachedObj_kept {z s : State} {n : Nat} {o : Obj} (hK : Kept z s) : Kept z (dropCachedObj s n o) := by
  unfold dropCachedObj
  repeat' first
    | with_reducible assumption | with_reducible apply dropCached_kept

theorem execMigrationCommit_kept {z s : State} {slot : BitVec 6} {objId : BitVec 32} {ecc : HomeEcc} (hK : Kept z s) : KeptOut z
    (execMigrationCommit slot objId ecc s) := by
  unfold execMigrationCommit
  repeat' first
    | with_reducible assumption | with_reducible apply markBad_kept | with_reducible apply writePlace_kept
    | with_reducible apply modCtx_kept | with_reducible apply putEntry_kept | with_reducible apply dropCachedObj_kept
    | with_reducible apply tellBinders_kept | with_reducible apply noteBad_kept | with_reducible apply answer_kept
    | with_reducible apply noteSofts_kept | with_reducible apply KeptOut.next | split

theorem execMigrationRelease_kept {z s : State} {slot : BitVec 6} {objId : BitVec 32} (hK : Kept z s) : KeptOut z
    (execMigrationRelease slot objId s) := by
  unfold execMigrationRelease
  repeat' first
    | with_reducible assumption | with_reducible apply modCtx_kept | with_reducible apply KeptOut.next

theorem putRecord_kept {z s : State} {w : BitVec 256} {r : Option Reject} (hK : Kept z s) : Kept z (putRecord s w r) := by
  unfold putRecord
  repeat' first
    | with_reducible assumption | with_reducible apply hostRecord_kept | with_reducible apply Kept.ite

theorem verifyPlan_kept {z s : State} {p : Packet} {op : Nat} {n : Nat} {busy : Bool} {ok : State → List Byte → State} (hok : ∀ a0
    a1, Kept z a0 → Kept z (ok a0 a1)) (hK : Kept z s) : Kept z (verifyPlan p op s n busy ok) := by
  unfold verifyPlan
  repeat' first
    | with_reducible assumption | with_reducible apply answer_kept | with_reducible apply putRecord_kept | with_reducible apply hok
    | split | dsimp only

theorem execPlanLoad_kept {z s : State} {p : Packet} (hK : Kept z s) : KeptOut z (execPlanLoad p s) := by
  unfold execPlanLoad
  repeat' first
    | with_reducible assumption | intro _ | with_reducible apply ctxCommand_kept | with_reducible apply verifyPlan_kept
    | with_reducible apply answer_kept | with_reducible apply modCtx_kept

theorem execPlanVerify_kept {z s : State} {p : Packet} (hK : Kept z s) : KeptOut z (execPlanVerify p s) := by
  unfold execPlanVerify
  repeat' first
    | with_reducible assumption | intro _ | with_reducible apply ctxCommand_kept | with_reducible apply verifyPlan_kept
    | with_reducible apply answer_kept

theorem setupCore_kept {z s : State} {n : Nat} {img : List Byte} {p : Placed} (hK : Kept z s) : Kept z (setupCore s n img p) := by
  unfold setupCore
  refine modCore_kept (fun x => ⟨fun w => ?_⟩) hK
  exact List.foldlRecOn (coreData img (p.lcl, p.lcore)) _ (motive := fun m => Mem.wf m = true) (Mem.wf_zero _ _ w)
    fun m hm d _ => Mem.wf_write _ _ hm

theorem clearPool_kept {z s : State} {n : Nat} (hK : Kept z s) : Kept z (clearPool s n) := by
  unfold clearPool
  repeat' first
    | with_reducible assumption | intro _ | with_reducible apply putObj_kept | with_reducible apply Kept.foldl | split

theorem startPlan_kept {z s : State} {n : Nat} {p : Packet} {img : List Byte} {ps : List Placed} {ws : List (Nat × Nat)} (hK : Kept
    z s) : Kept z (startPlan s n p img ps ws) := by
  unfold startPlan
  repeat' first
    | with_reducible assumption | intro _ | with_reducible apply modCtx_kept | with_reducible apply setupCore_kept
    | with_reducible apply wakePower_kept | with_reducible apply draw_kept | with_reducible apply clearPool_kept
    | with_reducible apply Kept.ite | with_reducible apply Kept.foldl

theorem execPlanStart_kept {z s : State} {p : Packet} (hK : Kept z s) : KeptOut z (execPlanStart p s) := by
  unfold execPlanStart
  repeat' first
    | with_reducible assumption | intro _ | with_reducible apply ctxCommand_kept | with_reducible apply holdRing_kept
    | with_reducible apply answer_kept | with_reducible refine allocWorks_kept ?_ (by assumption) | with_reducible apply startPlan_kept
    | with_reducible apply modCtx_kept | split | dsimp only

theorem execPlanCancel_kept {z s : State} {p : Packet} (hK : Kept z s) : KeptOut z (execPlanCancel p s) := by
  unfold execPlanCancel
  repeat' first
    | with_reducible assumption | intro _ | with_reducible apply ctxCommand_kept | with_reducible apply answer_kept
    | with_reducible apply modCtx_kept | with_reducible apply endPlan_kept | with_reducible apply draw_kept | split

theorem excludeMember_kept {z s : State} {n : Nat} {lost : BitVec 14} (hK : Kept z s) : Kept z (excludeMember s n lost) := by
  unfold excludeMember
  repeat' first
    | with_reducible assumption | with_reducible apply modCtx_kept

theorem dropMigrations_kept {z s : State} {n : Nat} {lost : BitVec 14} (hK : Kept z s) : Kept z (dropMigrations s n lost) := by
  unfold dropMigrations
  repeat' first
    | with_reducible assumption | intro _ | with_reducible apply migrationBack_kept | with_reducible apply modCtx_kept
    | with_reducible apply Kept.foldl | split

theorem declareLost_kept {z s : State} {lost : BitVec 14} (hK : Kept z s) : Kept z (declareLost s lost) := by
  unfold declareLost
  repeat' first
    | with_reducible assumption | intro _ | with_reducible apply dropMigrations_kept | with_reducible apply logHealth_kept
    | with_reducible apply excludeMember_kept | with_reducible apply emit_kept | with_reducible apply Kept.foldl
    | fail_if_no_progress (with_reducible apply Kept.mk_upd) | split

theorem homeLost_kept {z s : State} {n : Nat} (hK : Kept z s) : Kept z (homeLost s n) := by
  unfold homeLost
  repeat' first
    | with_reducible assumption | with_reducible apply endPlan_kept

theorem execPwrLimit_kept {z s : State} {p : Packet} (hK : Kept z s) : KeptOut z (execPwrLimit p s) := by
  unfold execPwrLimit
  repeat' first
    | with_reducible assumption | intro _ | with_reducible apply mgmtCommand_kept | with_reducible apply answer_kept
    | with_reducible apply modBothSets_kept | with_reducible apply Kept.ite

theorem controlPower_kept {z s : State} {m : PowerSample} (hK : Kept z s) : Kept z (controlPower s m) := by
  unfold controlPower
  repeat' first
    | with_reducible assumption | with_reducible apply powerEvent_kept | with_reducible apply draw_kept | with_reducible apply Kept.ite
    | fail_if_no_progress (with_reducible apply Kept.mk_upd)

theorem execPowerControlPeriod_kept {z s : State} {m : PowerSample} (hK : Kept z s) : KeptOut z (execPowerControlPeriod m s) := by
  unfold execPowerControlPeriod
  repeat' first
    | with_reducible assumption | with_reducible apply controlPower_kept | fail_if_no_progress (with_reducible apply Kept.mk_upd)
    | with_reducible apply KeptOut.ite | with_reducible apply KeptOut.next

theorem execIdleWindow_kept {z s : State} {core : BitVec 8} (hK : Kept z s) : KeptOut z (execIdleWindow core s) := by
  unfold execIdleWindow
  repeat' first
    | with_reducible assumption | intro _ | with_reducible apply modCore_kept | with_reducible exact LsKept.same rfl
    | with_reducible apply KeptOut.ite | with_reducible apply KeptOut.next

theorem execThermalSample_kept {z s : State} {m : ThermalSample} (hK : Kept z s) : KeptOut z (execThermalSample m s) := by
  unfold execThermalSample
  repeat' first
    | with_reducible assumption | with_reducible apply draw_kept | with_reducible apply setAlert_kept
    | with_reducible apply powerEvent_kept | fail_if_no_progress (with_reducible apply Kept.mk_upd) | with_reducible apply KeptOut.ite
    | with_reducible apply KeptOut.next

theorem execThermalShutdown_kept {z s : State}  (hK : Kept z s) : KeptOut z (execThermalShutdown s) := by
  unfold execThermalShutdown
  repeat' first
    | with_reducible assumption | intro _ | with_reducible apply railsOff_kept | with_reducible apply alerting_kept
    | with_reducible apply setAlertBit_kept | fail_if_no_progress (with_reducible apply Kept.mk_upd) | with_reducible apply KeptOut.ite
    | with_reducible apply KeptOut.next

theorem execAgeingSample_kept {z s : State} {slacks : List Int} (hK : Kept z s) : KeptOut z (execAgeingSample slacks s) := by
  unfold execAgeingSample
  repeat' first
    | with_reducible assumption | with_reducible apply powerEvent_kept | fail_if_no_progress (with_reducible apply Kept.mk_upd)
    | with_reducible apply KeptOut.next | split

theorem execMemMarginMeasure_kept {z s : State} {m : MarginSample} (hK : Kept z s) : KeptOut z (execMemMarginMeasure m s) := by
  unfold execMemMarginMeasure
  repeat' first
    | with_reducible assumption | with_reducible apply powerEvent_kept | with_reducible apply Kept.ite
    | fail_if_no_progress (with_reducible apply Kept.mk_upd) | with_reducible apply KeptOut.ite | with_reducible apply KeptOut.next

theorem answerReplan_kept {z s : State} {r : Replan} {status : Nat} (hK : Kept z s) : Kept z (answerReplan s r status) := by
  unfold answerReplan
  repeat' first
    | with_reducible assumption | with_reducible apply answer_kept | split

theorem applyClk_kept {z s : State}  (hK : Kept z s) : Kept z (applyClk s) := by
  unfold applyClk
  repeat' first
    | with_reducible assumption | with_reducible apply powerEvent_kept | with_reducible apply modBothSets_kept
    | fail_if_no_progress (with_reducible apply Kept.mk_upd)

theorem execClkReplanApply_kept {z s : State}  (hK : Kept z s) : KeptOut z (execClkReplanApply s) := by
  unfold execClkReplanApply
  repeat' first
    | with_reducible assumption | with_reducible apply answerReplan_kept | with_reducible apply applyClk_kept
    | fail_if_no_progress (with_reducible apply Kept.mk_upd) | with_reducible apply KeptOut.next | split

theorem applyMem_kept {z s : State}  (hK : Kept z s) : Kept z (applyMem s) := by
  unfold applyMem
  repeat' first
    | with_reducible assumption | with_reducible apply powerEvent_kept | with_reducible apply modBothSets_kept
    | fail_if_no_progress (with_reducible apply Kept.mk_upd)

theorem execMemStepApply_kept {z s : State}  (hK : Kept z s) : KeptOut z (execMemStepApply s) := by
  unfold execMemStepApply
  repeat' first
    | with_reducible assumption | with_reducible apply answerReplan_kept | with_reducible apply applyMem_kept
    | with_reducible apply KeptOut.next | split

theorem execReplanQuiesceTimeout_kept {z s : State}  (hK : Kept z s) : KeptOut z (execReplanQuiesceTimeout s) := by
  unfold execReplanQuiesceTimeout
  repeat' first
    | with_reducible assumption | with_reducible apply cancelAll_kept | with_reducible apply KeptOut.ite
    | with_reducible apply KeptOut.next

theorem setGate_kept {z s : State} {w : BitVec 256} {g : Bool} (hK : Kept z s) : Kept z (setGate s w g) := by
  unfold setGate
  repeat' first
    | with_reducible assumption | intro _ | with_reducible apply modCluster_kept | with_reducible apply modCore_kept
    | with_reducible apply modPort_kept | with_reducible apply modPipe_kept | with_reducible exact LsKept.same rfl
    | with_reducible apply Kept.ite

theorem clkRequest_kept {z s : State} {p : Packet} {op : Nat} {f : State → State} (hf : ∀ a0, Kept z a0 → Kept z (f a0)) (hK : Kept
    z s) : KeptOut z (clkRequest p op s f) := by
  unfold clkRequest
  repeat' first
    | with_reducible assumption | intro _ | with_reducible apply mgmtCommand_kept | with_reducible apply answer_kept
    | with_reducible apply hf | with_reducible apply Kept.ite

theorem execClkRequestGate_kept {z s : State} {p : Packet} (hK : Kept z s) : KeptOut z (execClkRequestGate p s) := by
  unfold execClkRequestGate
  repeat' first
    | with_reducible assumption | intro _ | with_reducible apply clkRequest_kept | with_reducible apply answer_kept
    | with_reducible apply setGate_kept | with_reducible apply Kept.ite

theorem execClkRequestUngate_kept {z s : State} {p : Packet} (hK : Kept z s) : KeptOut z (execClkRequestUngate p s) := by
  unfold execClkRequestUngate
  repeat' first
    | with_reducible assumption | intro _ | with_reducible apply clkRequest_kept | with_reducible apply answer_kept
    | with_reducible apply setGate_kept

theorem execClkRequestArith533_kept {z s : State} {p : Packet} (hK : Kept z s) : KeptOut z (execClkRequestArith533 p s) := by
  unfold execClkRequestArith533
  repeat' first
    | with_reducible assumption | intro _ | with_reducible apply clkRequest_kept | with_reducible apply answer_kept
    | with_reducible apply draw_kept | fail_if_no_progress (with_reducible apply Kept.mk_upd) | split

theorem execClkRequestMem9600_kept {z s : State} {p : Packet} (hK : Kept z s) : KeptOut z (execClkRequestMem9600 p s) := by
  unfold execClkRequestMem9600
  repeat' first
    | with_reducible assumption | intro _ | with_reducible apply clkRequest_kept | with_reducible apply answer_kept
    | with_reducible apply draw_kept | fail_if_no_progress (with_reducible apply Kept.mk_upd) | split

theorem execAgeingReport_kept {z s : State} {p : Packet} (hK : Kept z s) : KeptOut z (execAgeingReport p s) := by
  unfold execAgeingReport
  repeat' first
    | with_reducible assumption | intro _ | with_reducible apply firmware_kept | with_reducible apply answer_kept
    | with_reducible apply hostRecord_kept | with_reducible apply Kept.ite

theorem execClockMonitorWindow_kept {z s : State} {counts : List EdgeCount} (hK : Kept z s) : KeptOut z (execClockMonitorWindow
    counts s) := by
  unfold execClockMonitorWindow
  repeat' first
    | with_reducible assumption | fail_if_no_progress (with_reducible apply Kept.mk_upd) | with_reducible apply KeptOut.ite
    | with_reducible apply KeptOut.next

theorem execRootPllLockLoss_kept {z s : State}  (hK : Kept z s) : KeptOut z (execRootPllLockLoss s) := by
  unfold execRootPllLockLoss
  repeat' first
    | with_reducible assumption | with_reducible apply moduleFault_kept | with_reducible apply Kept.ite
    | fail_if_no_progress (with_reducible apply Kept.mk_upd) | with_reducible apply KeptOut.next

theorem execPhyPllLockLoss_kept {z s : State}  (hK : Kept z s) : KeptOut z (execPhyPllLockLoss s) := by
  unfold execPhyPllLockLoss
  repeat' first
    | with_reducible assumption | with_reducible apply moduleFault_kept | with_reducible apply Kept.ite
    | with_reducible apply KeptOut.next

theorem execControlWatchdog_kept {z s : State}  (hK : Kept z s) : KeptOut z (execControlWatchdog s) := by
  unfold execControlWatchdog
  repeat' first
    | with_reducible assumption | with_reducible apply moduleFault_kept | with_reducible apply Kept.ite
    | with_reducible apply KeptOut.next

theorem execRailTrip_kept {z s : State}  (hK : Kept z s) : KeptOut z (execRailTrip s) := by
  unfold execRailTrip
  repeat' first
    | with_reducible assumption | with_reducible apply moduleFault_kept | with_reducible apply Kept.ite
    | with_reducible apply KeptOut.next

theorem recordDup_kept {z s : State} {e : DupEntry} (hK : Kept z s) : Kept z (recordDup s e) := by
  unfold recordDup
  repeat' first
    | with_reducible assumption | fail_if_no_progress (with_reducible apply Kept.mk_upd)

theorem errorReply_kept {z s : State} {p : Nat} {f : Flit} {code : Nat} (hK : Kept z s) : Kept z (errorReply s p f code) := by
  unfold errorReply
  repeat' first
    | with_reducible assumption | with_reducible apply reply_kept

theorem takeRx_kept {z s : State} {p : Nat} {f : Flit} {res : State} (hK : Kept z s) : takeRx s p f = some res → Kept z res := by
  unfold takeRx
  repeat' first
    | with_reducible assumption | with_reducible apply modPort_kept | with_reducible apply respond_kept | (with_reducible rintro ⟨⟩)
    | split | dsimp only

theorem serve_kept {z s : State} {port : BitVec 4} {f : Flit} {op : BitVec 8} {k : State → State} (hk : ∀ a0, Kept z a0 → Kept z (k
    a0)) (hK : Kept z s) : KeptOut z (serve port f op s k) := by
  unfold serve
  repeat' first
    | with_reducible assumption | with_reducible refine takeRx_kept ?_ (by assumption) | with_reducible apply hk
    | with_reducible apply KeptOut.next | split

theorem onTarget_kept {z s : State} {p : Nat} {f : Flit} {k : Nat → State} (hk : ∀ a0, Kept z (k a0)) (hK : Kept z s) : Kept z
    (onTarget s p f k) := by
  unfold onTarget
  repeat' first
    | with_reducible assumption | with_reducible apply errorReply_kept | with_reducible apply hk | split

theorem readHome_kept {z s : State} {p : Nat} {n : Nat} {f : Flit} {o : Obj} {off : Nat} {len : Nat} {k : List Byte → State} (hk : ∀
    a0, Kept z (k a0)) (hK : Kept z s) : Kept z (readHome s p n f o off len k) := by
  unfold readHome
  repeat' first
    | with_reducible assumption | with_reducible apply errorReply_kept | with_reducible apply noteBad_kept | with_reducible apply hk
    | split | dsimp only

theorem execFabricRead_kept {z s : State} {port : BitVec 4} {r : ReadFlit} (hK : Kept z s) : KeptOut z (execFabricRead port r s) := by
  unfold execFabricRead
  repeat' first
    | with_reducible assumption | intro _ | with_reducible apply serve_kept | with_reducible apply onTarget_kept
    | with_reducible apply errorReply_kept | with_reducible apply reply_kept | with_reducible apply setCounter_kept
    | with_reducible apply readHome_kept | with_reducible apply noteSofts_kept | split

theorem applyWrite_kept {z s : State} {p : Nat} {n : Nat} {f : Flit} {o : Obj} {off : Nat} (hK : Kept z s) : Kept z (applyWrite s p
    n f o off) := by
  unfold applyWrite
  repeat' first
    | with_reducible assumption | with_reducible apply recordDup_kept | with_reducible apply writeObj_kept
    | with_reducible apply reply_kept | split | dsimp only

theorem execFabricWrite_kept {z s : State} {port : BitVec 4} {f : Flit} (hK : Kept z s) : KeptOut z (execFabricWrite port f s) := by
  unfold execFabricWrite
  repeat' first
    | with_reducible assumption | intro _ | with_reducible apply serve_kept | with_reducible apply dropFlit_kept
    | with_reducible apply onTarget_kept | with_reducible apply errorReply_kept | with_reducible apply dropFreed_kept
    | with_reducible apply applyWrite_kept | split

theorem answerAgain_kept {z s : State} {p : Nat} {f : Flit} {e : DupEntry} (hK : Kept z s) : Kept z (answerAgain s p f e) := by
  unfold answerAgain
  repeat' first
    | with_reducible assumption | with_reducible apply recordDup_kept | with_reducible apply reply_kept | with_reducible apply draw_kept
    | split

theorem once_kept {z s : State} {p : Nat} {f : Flit} {k : State} (hK : Kept z s) (hk : Kept z k) : Kept z (once s p f k) := by
  unfold once
  split
  · exact hK
  · exact dropFlit_kept hK
  · exact answerAgain_kept hK
  · exact hk

theorem execFabricAtomic_kept {z s : State} {port : BitVec 4} {f : Flit} (hK : Kept z s) : KeptOut z (execFabricAtomic port f s) := by
  unfold execFabricAtomic
  repeat' first
    | with_reducible assumption | intro _ | with_reducible apply serve_kept | with_reducible apply once_kept
    | with_reducible apply onTarget_kept | with_reducible apply errorReply_kept | with_reducible apply readHome_kept
    | with_reducible apply reply_kept | with_reducible apply recordDup_kept | with_reducible apply dropFreed_kept
    | with_reducible apply writeObj_kept | split

theorem execFabricSignal_kept {z s : State} {port : BitVec 4} {f : Flit} (hK : Kept z s) : KeptOut z (execFabricSignal port f s) := by
  unfold execFabricSignal
  repeat' first
    | with_reducible assumption | intro _ | with_reducible apply serve_kept | with_reducible apply once_kept
    | with_reducible apply onTarget_kept | with_reducible apply errorReply_kept | with_reducible apply arrive_kept
    | with_reducible apply recordDup_kept | split

theorem dropTxn_kept {z s : State} {t : Txn} (hK : Kept z s) : Kept z (dropTxn s t) := by
  unfold dropTxn
  repeat' first
    | with_reducible assumption | with_reducible apply flushSends_kept | fail_if_no_progress (with_reducible apply Kept.mk_upd)

theorem endRemoteOp_kept {z s : State} {c : Nat} {id : Nat} {n : Nat} {done : Bool} (hK : Kept z s) : Kept z (endRemoteOp s c id n
    done) := by
  unfold endRemoteOp
  repeat' first
    | with_reducible assumption | intro _ | with_reducible apply modCore_kept | with_reducible apply signalSig_kept
    | with_reducible exact LsKept.same rfl | split

theorem takeData_kept {z s : State} {t : Txn} {bs : List Byte} (hK : Kept z s) : Kept z (takeData s t bs) := by
  unfold takeData
  repeat' first
    | with_reducible assumption | with_reducible apply releaseTag_kept | with_reducible apply landRow_kept
    | with_reducible apply endRemoteOp_kept | with_reducible apply modThread_kept | with_reducible apply modStream_kept | split

theorem execReadData_kept {z s : State} {port : BitVec 4} {f : Flit} (hK : Kept z s) : KeptOut z (execReadData port f s) := by
  unfold execReadData
  repeat' first
    | with_reducible assumption | intro _ | with_reducible apply serve_kept | with_reducible apply takeData_kept
    | with_reducible apply dropTxn_kept | with_reducible apply Kept.ite | fail_if_no_progress (with_reducible apply Kept.mk_upd) | split

theorem execComplete_kept {z s : State} {port : BitVec 4} {f : Flit} (hK : Kept z s) : KeptOut z (execComplete port f s) := by
  unfold execComplete
  repeat' first
    | with_reducible assumption | intro _ | with_reducible apply serve_kept | with_reducible apply endRemoteOp_kept
    | with_reducible apply dropTxn_kept | split

theorem failTxn_kept {z s : State} {t : Txn} (hK : Kept z s) : Kept z (failTxn s t) := by
  unfold failTxn
  repeat' first
    | with_reducible assumption | with_reducible apply dropTxn_kept | with_reducible apply releaseTag_kept
    | with_reducible apply landRow_kept | with_reducible apply endRemoteOp_kept | split | dsimp only

theorem sendMarker_kept {z s : State} {n : Nat} {t : RedTree} {r : Reduction} {lost : BitVec 14} (hK : Kept z s) : Kept z
    (sendMarker s n t r lost) := by
  unfold sendMarker
  repeat' first
    | with_reducible assumption | with_reducible apply putRed_kept | with_reducible apply vc2Flits_kept | with_reducible apply Kept.ite
    | split

theorem reformReds_kept {z s : State} {n : Nat} {lost : BitVec 14} (hK : Kept z s) : Kept z (reformReds s n lost) := by
  unfold reformReds
  repeat' first
    | with_reducible assumption | intro _ | with_reducible apply advanceRed_kept | with_reducible apply sendMarker_kept
    | with_reducible apply Kept.foldl | split

theorem keepBytes_kept {z s : State} {n : Nat} {step : BitVec 32} {o : Nat} {part : Nat} {g : Nat} {off : Nat} {bs : List Byte} (hK
    : Kept z s) : Kept z (keepBytes s n step o part g off bs) := by
  unfold keepBytes
  repeat' first
    | with_reducible assumption | with_reducible apply modCtx_kept

theorem landSlice_kept {z s : State} {n : Nat} {c : Ctx} {t : RedTree} {k : Nat} {bs : List Byte} (hK : Kept z s) : Kept z
    (landSlice s n c t k bs) := by
  unfold landSlice
  repeat' first
    | with_reducible assumption | with_reducible apply putRed_kept | with_reducible apply writeHome_kept
    | with_reducible apply signalVid_kept | with_reducible apply keepBytes_kept | with_reducible apply Kept.ite | split

end Sys2Proof.Machine
end

