-- ==== Sys2Proof/Laws/KeptExec.lean ====
section
/-! SUPPORT. What each operation keeps, part 4 of 4: from `takeSlice` to `execPictureBoundary`. -/

namespace Sys2Proof.Machine

theorem takeSlice_kept {z s : State} {n : Nat} {t : RedTree} {k : Nat} {bs : List Byte} (hK : Kept z s) : Kept z (takeSlice s n t k
    bs) := by
  unfold takeSlice
  repeat' first
    | with_reducible assumption | intro _ | with_reducible apply landSlice_kept | with_reducible apply vc2Flits_kept
    | with_reducible apply Kept.foldl | split

theorem sendSatchelParts_kept {z s : State} {n : Nat} {t : RedTree} {g : Nat} (hK : Kept z s) : Kept z (sendSatchelParts s n t g) := by
  unfold sendSatchelParts
  repeat' first
    | with_reducible assumption | intro _ | with_reducible apply keepBytes_kept | with_reducible apply vc2Flits_kept
    | with_reducible apply Kept.foldl | split

theorem startGathers_kept {z s : State} {n : Nat} {due : Bool} {pick : RedTree → Bool} (hK : Kept z s) : Kept z (startGathers s n
    due pick) := by
  unfold startGathers
  repeat' first
    | with_reducible assumption | intro _ | with_reducible apply takeSlice_kept | with_reducible apply sendSatchelParts_kept
    | with_reducible apply Kept.foldl | split | dsimp only

theorem reform_kept {z s : State} {n : Nat} {lost : BitVec 14} (hK : Kept z s) : Kept z (reform s n lost) := by
  unfold reform
  repeat' first
    | with_reducible assumption | with_reducible apply reformReds_kept | with_reducible apply startGathers_kept
    | with_reducible apply endPlan_kept | with_reducible apply voteAdvance_kept | with_reducible apply modCtx_kept
    | with_reducible apply Kept.ite | split

theorem loseModule_kept {z s : State} {m : BitVec 14} (hK : Kept z s) : Kept z (loseModule s m) := by
  unfold loseModule
  repeat' first
    | with_reducible assumption | intro _ | with_reducible apply reform_kept | with_reducible apply declareLost_kept
    | with_reducible apply Kept.ite | with_reducible apply Kept.foldl

theorem loseTxn_kept {z s : State} {t : Txn} (hK : Kept z s) : Kept z (loseTxn s t) := by
  unfold loseTxn
  repeat' first
    | with_reducible assumption | with_reducible apply homeLost_kept | with_reducible apply loseModule_kept
    | with_reducible apply failTxn_kept

theorem loseVc2_kept {z s : State} {h : TxnHdr} (hK : Kept z s) : Kept z (loseVc2 s h) := by
  unfold loseVc2
  repeat' first
    | with_reducible assumption | with_reducible apply loseModule_kept | fail_if_no_progress (with_reducible apply Kept.mk_upd) | split

theorem execFabricError_kept {z s : State} {port : BitVec 4} {f : Flit} (hK : Kept z s) : KeptOut z (execFabricError port f s) := by
  unfold execFabricError
  repeat' first
    | with_reducible assumption | intro _ | with_reducible apply serve_kept | with_reducible apply loseTxn_kept
    | with_reducible apply endPlan_kept | with_reducible apply failTxn_kept | with_reducible apply loseVc2_kept
    | with_reducible apply Kept.ite | split

theorem reissue_kept {z s : State} {t : Txn} (hK : Kept z s) : Kept z (reissue s t) := by
  unfold reissue
  repeat' first
    | with_reducible assumption | intro _ | with_reducible apply loseTxn_kept | with_reducible apply sendFlit_kept
    | with_reducible apply Kept.ite | with_reducible apply Kept.foldl | fail_if_no_progress (with_reducible apply Kept.mk_upd)

theorem execPathDown_kept {z s : State} {port : BitVec 4} {f : Flit} (hK : Kept z s) : KeptOut z (execPathDown port f s) := by
  unfold execPathDown
  repeat' first
    | with_reducible assumption | intro _ | with_reducible apply serve_kept | with_reducible apply reissue_kept | split

theorem execTxnTimeout_kept {z s : State} {dst : BitVec 14} {txn : BitVec 16} (hK : Kept z s) : KeptOut z (execTxnTimeout dst txn s) := by
  unfold execTxnTimeout
  repeat' first
    | with_reducible assumption | with_reducible apply reissue_kept | with_reducible apply KeptOut.next | split

theorem takePkt_kept {z s : State} {n : Nat} {p : Packet} {op : Nat} {len : Nat} (hK : Kept z s) : Kept z (takePkt s n p op len) := by
  unfold takePkt
  repeat' first
    | with_reducible assumption | with_reducible apply setRing_kept | fail_if_no_progress (with_reducible apply Kept.mk_upd)

theorem refusePkt_kept {z s : State} {p : Packet} {op : Nat} {why : Nat × Nat} (hK : Kept z s) : Kept z (refusePkt s p op why) := by
  unfold refusePkt
  repeat' first
    | with_reducible assumption | with_reducible apply answer_kept | with_reducible apply rejectPkt_kept | with_reducible apply Kept.ite

theorem notePoison_kept {z s : State} {us : List (Option (BitVec 512) × Bool)} (hK : Kept z s) : Kept z (notePoison s us) := by
  unfold notePoison
  repeat' first
    | with_reducible assumption | with_reducible apply setErr_kept | with_reducible apply Kept.ite

theorem offerRing_kept {z s : State} {n : Nat} (hK : Kept z s) : Kept z (offerRing s n).1 := by
  unfold offerRing
  repeat' first
    | with_reducible assumption | with_reducible apply rejectPkt_kept | with_reducible apply notePoison_kept
    | with_reducible apply takePkt_kept | with_reducible apply refusePkt_kept | with_reducible apply setRing_kept
    | with_reducible apply Kept.iteFst | split

theorem offerRings_kept {z s : State} (l : List Nat) (hK : Kept z s) : Kept z (offerRings s l) := by
  induction l generalizing s with
  | nil => exact hK.upd rfl rfl rfl rfl rfl rfl rfl rfl rfl
  | cons k l ih =>
    unfold offerRings
    have h : Kept z (offerRing s (if k = 0 then 64 else k - 1)).1 := offerRing_kept hK
    exact Kept.ite (h.upd rfl rfl rfl rfl rfl rfl rfl rfl rfl) (ih h)

theorem execRingTurn_kept {z s : State}  (hK : Kept z s) : KeptOut z (execRingTurn s) := by
  unfold execRingTurn
  repeat' first
    | with_reducible assumption | with_reducible apply offerRings_kept | with_reducible apply Kept.ite | with_reducible apply KeptOut.next

theorem execHstDoorbell_kept {z s : State} {ring : BitVec 7} {value : BitVec 64} (hK : Kept z s) : KeptOut z (execHstDoorbell ring
    value s) := by
  unfold execHstDoorbell
  repeat' first
    | with_reducible assumption | with_reducible apply ringDoorbell_kept | with_reducible apply Kept.ite
    | with_reducible apply KeptOut.ite | with_reducible apply KeptOut.next | with_reducible apply KeptOut.fault

theorem execCmdRcptHeadWrite_kept {z s : State} {ring : BitVec 7} {value : BitVec 64} (hK : Kept z s) : KeptOut z
    (execCmdRcptHeadWrite ring value s) := by
  unfold execCmdRcptHeadWrite
  repeat' first
    | with_reducible assumption | with_reducible apply setRcptHead_kept | with_reducible apply Kept.ite | with_reducible apply KeptOut.ite
    | with_reducible apply KeptOut.next | with_reducible apply KeptOut.fault

theorem execRingEnable_kept {z s : State} {ring : BitVec 7} {value : BitVec 64} (hK : Kept z s) : KeptOut z (execRingEnable ring
    value s) := by
  unfold execRingEnable
  repeat' first
    | with_reducible assumption | with_reducible apply writeCtrl_kept | with_reducible apply Kept.ite | with_reducible apply KeptOut.ite
    | with_reducible apply KeptOut.next | with_reducible apply KeptOut.fault

theorem execRingDisable_kept {z s : State} {ring : BitVec 7} {value : BitVec 64} (hK : Kept z s) : KeptOut z (execRingDisable ring
    value s) := by
  unfold execRingDisable
  repeat' first
    | with_reducible assumption | with_reducible apply writeCtrl_kept | with_reducible apply Kept.ite | with_reducible apply KeptOut.ite
    | with_reducible apply KeptOut.next | with_reducible apply KeptOut.fault

theorem levelEffects_kept {z s : State} {old : Nat} {new : Nat} (hK : Kept z s) : Kept z (levelEffects s old new) := by
  unfold levelEffects
  repeat' first
    | with_reducible assumption | intro _ | with_reducible apply eventReceipt_kept | with_reducible apply modCtx_kept
    | with_reducible apply Kept.ite | with_reducible apply Kept.foldl | fail_if_no_progress (with_reducible apply Kept.mk_upd)

theorem execRiskCompute_kept {z s : State}  (hK : Kept z s) : KeptOut z (execRiskCompute s) := by
  unfold execRiskCompute
  repeat' first
    | with_reducible assumption | intro _ | with_reducible apply levelEffects_kept | with_reducible apply alerting_kept
    | fail_if_no_progress (with_reducible apply Kept.mk_upd) | with_reducible apply KeptOut.ite | with_reducible apply KeptOut.next

theorem secureOp_kept {z s : State} {p : Packet} {op : Nat} {f : State → State} (hf : ∀ a0, Kept z a0 → Kept z (f a0)) (hK : Kept z
    s) : Kept z (secureOp p op s f) := by
  unfold secureOp
  repeat' first
    | with_reducible assumption | with_reducible apply answer_kept | with_reducible apply hf | with_reducible apply Kept.ite

theorem execSecureNowTake_kept {z s : State} {p : Packet} (hK : Kept z s) : KeptOut z (execSecureNowTake p s) := by
  unfold execSecureNowTake
  repeat' first
    | with_reducible assumption | intro _ | with_reducible apply ctxCommand_kept | with_reducible apply secureOp_kept
    | with_reducible apply answer_kept | with_reducible apply modCtx_kept | with_reducible apply draw_kept | split

theorem execSecureNowDrain_kept {z s : State} {p : Packet} (hK : Kept z s) : KeptOut z (execSecureNowDrain p s) := by
  unfold execSecureNowDrain
  repeat' first
    | with_reducible assumption | intro _ | with_reducible apply mgmtCommand_kept | with_reducible apply secureOp_kept
    | with_reducible apply answer_kept | fail_if_no_progress (with_reducible apply Kept.mk_upd)

theorem execSecureNowUndrain_kept {z s : State} {p : Packet} (hK : Kept z s) : KeptOut z (execSecureNowUndrain p s) := by
  unfold execSecureNowUndrain
  repeat' first
    | with_reducible assumption | intro _ | with_reducible apply mgmtCommand_kept | with_reducible apply secureOp_kept
    | with_reducible apply answer_kept | with_reducible apply Kept.ite | fail_if_no_progress (with_reducible apply Kept.mk_upd)

theorem sendLeaves_kept {z s : State}  (hK : Kept z s) : Kept z (sendLeaves s) := by
  unfold sendLeaves
  repeat' first
    | with_reducible assumption | intro _ | with_reducible apply emit_kept | with_reducible apply Kept.foldl | split

theorem execDrainComplete_kept {z s : State}  (hK : Kept z s) : KeptOut z (execDrainComplete s) := by
  unfold execDrainComplete
  repeat' first
    | with_reducible assumption | with_reducible apply sendLeaves_kept | with_reducible apply eventReceipt_kept
    | fail_if_no_progress (with_reducible apply Kept.mk_upd) | with_reducible apply KeptOut.ite | with_reducible apply KeptOut.next

theorem collectHere_kept {z s : State} {n : Nat} {c : Ctx} {w : BitVec 256} {dst : Obj} (hK : Kept z s) :
    Kept z (collectHere s n c w dst).1 := by
  unfold collectHere
  dsimp only
  split
  · split
    · exact writeObj_kept hK
    · exact hK
  · split
    · exact hK
    · split
      · exact writeObj_kept hK
      · cases h : objOf s n (partObj c (groupRecord s n (rcGroup w)) (rcPart w)) with
        | none => exact hK
        | some o => exact noteBad_kept hK

theorem collectAway_kept {z s : State} {n : Nat} {c : Ctx} {p : Packet} {dst : Obj} (hK : Kept z s) : Kept z (collectAway s n c p
    dst).1 := by
  unfold collectAway
  repeat' first
    | with_reducible assumption | with_reducible apply emit_kept | with_reducible apply draw_kept | with_reducible apply writeObj_kept
    | with_reducible apply Kept.iteFst

theorem execRestanteCollect_kept {z s : State} {p : Packet} (hK : Kept z s) : KeptOut z (execRestanteCollect p s) := by
  unfold execRestanteCollect
  repeat' first
    | with_reducible assumption | intro _ | with_reducible apply ctxCommand_kept | with_reducible apply answer_kept
    | with_reducible apply holdRing_kept | with_reducible apply collectHere_kept | with_reducible apply collectAway_kept | split

theorem satchelRefused_kept {z s : State} {n : Nat} {status : Nat} {detail : Nat} (hK : Kept z s) : Kept z (satchelRefused s n
    status detail) := by
  unfold satchelRefused
  repeat' first
    | with_reducible assumption | intro _ | with_reducible apply risk_kept | with_reducible apply eventReceipt_kept
    | with_reducible apply modCtx_kept | with_reducible apply answer_kept | with_reducible apply Kept.foldl | split

theorem takeSatchel_kept {z s : State} {n : Nat} (hK : Kept z s) : Kept z (takeSatchel s n) := by
  unfold takeSatchel
  repeat' first
    | with_reducible assumption | intro _ | with_reducible apply answer_kept | with_reducible apply modCtx_kept
    | with_reducible apply satchelRefused_kept | with_reducible apply Kept.ite | with_reducible apply Kept.foldl | split

theorem openStep_kept {z s : State} {n : Nat} {w : BitVec 256} (hK : Kept z s) : Kept z (openStep s n w) := by
  unfold openStep
  repeat' first
    | with_reducible assumption | intro _ | with_reducible apply modCtx_kept | with_reducible apply clearPool_kept
    | with_reducible apply modCore_kept | with_reducible apply startGathers_kept | with_reducible apply takeSatchel_kept
    | with_reducible apply signalFw_kept | with_reducible apply Kept.foldl | fail_if_no_progress (with_reducible apply Kept.mk_upd)
    | split | dsimp only | exact ⟨fun w => Mem.wf_write _ _ w⟩

theorem execStepBegin_kept {z s : State} {p : Packet} (hK : Kept z s) : KeptOut z (execStepBegin p s) := by
  unfold execStepBegin
  repeat' first
    | with_reducible assumption | intro _ | with_reducible apply ctxCommand_kept | with_reducible apply holdRing_kept
    | with_reducible apply answer_kept | with_reducible apply answerD_kept | with_reducible apply openStep_kept | split

theorem execStepCommit_kept {z s : State} {p : Packet} (hK : Kept z s) : KeptOut z (execStepCommit p s) := by
  unfold execStepCommit
  repeat' first
    | with_reducible assumption | intro _ | with_reducible apply ctxCommand_kept | with_reducible apply answer_kept
    | with_reducible apply holdRing_kept | with_reducible apply answerCancelled_kept | with_reducible apply dropCached_kept
    | with_reducible apply commitAdvance_kept | with_reducible apply modCtx_kept | with_reducible apply draw_kept | split

theorem takePartial_kept {z s : State} {n : Nat} {t : RedTree} {h : TxnHdr} {i : Nat} {bs : List Byte} (hK : Kept z s) : Kept z
    (takePartial s n t h i bs) := by
  unfold takePartial
  repeat' first
    | with_reducible assumption | with_reducible apply lateRed_kept | with_reducible apply advanceRed_kept
    | with_reducible apply putRed_kept | with_reducible apply Kept.ite

theorem takeMarker_kept {z s : State} {n : Nat} {t : RedTree} {h : TxnHdr} {i : Nat} (hK : Kept z s) : Kept z (takeMarker s n t h i) := by
  unfold takeMarker
  repeat' first
    | with_reducible assumption | with_reducible apply advanceRed_kept | with_reducible apply putRed_kept

theorem dropTaken_kept {z s : State} {p : Nat} {f : Flit} (hK : Kept z s) :
    Kept z ((takeRx s p f).map dropFlit |>.getD s) := by
  cases h : takeRx s p f with
  | none => exact hK
  | some t => exact dropFlit_kept (takeRx_kept hK h)

theorem execRedPart_kept {z s : State} {port : BitVec 4} {f : Flit} (hK : Kept z s) : KeptOut z (execRedPart port f s) := by
  unfold execRedPart
  dsimp only
  split
  · exact .next hK
  · split
    · exact .next (dropTaken_kept hK)
    · split
      · exact .next hK
      · split
        · exact .next hK
        · have h1 := takeRx_kept hK ‹_›
          split
          · exact .next (dropFlit_kept h1)
          · split
            · exact .next (dropFlit_kept h1)
            · split
              · exact .next (takeMarker_kept h1)
              · split
                · exact .next (putRed_kept h1)
                · exact .next (takePartial_kept (putRed_kept h1))

theorem execReductionDeadline_kept {z s : State} {slot : BitVec 6} {coll : BitVec 16} {group : BitVec 12} {slice : BitVec 32} (hK :
    Kept z s) : KeptOut z (execReductionDeadline slot coll group slice s) := by
  unfold execReductionDeadline
  repeat' first
    | with_reducible assumption | intro _ | with_reducible apply advanceRed_kept | with_reducible apply completeRed_kept
    | with_reducible apply Kept.foldl | with_reducible apply KeptOut.next | split | dsimp only

theorem takeReplica_kept {z s : State} {n : Nat} {t : RedTree} {g : Nat} {k : Nat} {bs : List Byte} (hK : Kept z s) : Kept z
    (takeReplica s n t g k bs) := by
  unfold takeReplica
  repeat' first
    | with_reducible assumption | with_reducible apply signalVid_kept | with_reducible apply placeResult_kept

theorem takeGather_kept {z s : State} {n : Nat} {h : TxnHdr} {bs : List Byte} (hK : Kept z s) : Kept z (takeGather s n h bs) := by
  unfold takeGather
  repeat' first
    | with_reducible assumption | with_reducible apply takeReplica_kept | with_reducible apply dropFlit_kept
    | with_reducible apply takeSlice_kept | with_reducible apply keepBytes_kept | with_reducible apply Kept.ite | split

theorem execGatherData_kept {z s : State} {port : BitVec 4} {f : Flit} (hK : Kept z s) : KeptOut z (execGatherData port f s) := by
  unfold execGatherData
  dsimp only
  split
  · exact .next hK
  · split
    · exact .next (dropTaken_kept hK)
    · split
      · exact .next hK
      · split
        · have h1 := takeRx_kept hK ‹_›
          split
          · exact .next (putRed_kept h1)
          · exact .next (takeGather_kept (putRed_kept h1))
        · exact .next hK

theorem remoteAbort_kept {z s : State} {n : Nat} (hK : Kept z s) : Kept z (remoteAbort s n) := by
  unfold remoteAbort
  repeat' first
    | with_reducible assumption | with_reducible apply endPlan_kept | with_reducible apply dropStep_kept | split

theorem execVote_kept {z s : State} {v : VoteMsg} (hK : Kept z s) : KeptOut z (execVote v s) := by
  unfold execVote
  repeat' first
    | with_reducible assumption | with_reducible apply sendDown_kept | with_reducible apply sendUp_kept
    | with_reducible apply remoteAbort_kept | with_reducible apply settleFault_kept | with_reducible apply stepOutcome_kept
    | with_reducible apply modCtx_kept | with_reducible apply voteAdvance_kept | with_reducible apply KeptOut.next | split

theorem execMemberLost_kept {z s : State} {ctx : BitVec 16} {lost : BitVec 14} (hK : Kept z s) : KeptOut z (execMemberLost ctx lost
    s) := by
  unfold execMemberLost
  repeat' first
    | with_reducible assumption | with_reducible apply endPlan_kept | with_reducible apply modCtx_kept | with_reducible apply reform_kept
    | with_reducible apply excludeMember_kept | with_reducible apply KeptOut.ite | with_reducible apply KeptOut.next | split

theorem execLeave_kept {z s : State} {ctx : BitVec 16} {leaving : BitVec 14} (hK : Kept z s) : KeptOut z (execLeave ctx leaving s) := by
  unfold execLeave
  repeat' first
    | with_reducible assumption | with_reducible apply modCtx_kept | with_reducible apply KeptOut.next | split

theorem execUpdateUnitSlice_kept {z s : State} {port : BitVec 4} {ecc : SliceEcc} (hK : Kept z s) : KeptOut z (execUpdateUnitSlice
    port ecc s) := by
  unfold execUpdateUnitSlice
  repeat' first
    | with_reducible assumption | with_reducible apply modPort_kept | with_reducible apply putSlice_kept
    | with_reducible apply modCtx_kept | with_reducible apply risk_kept | with_reducible apply logHealth_kept
    | with_reducible apply ratioRecord_kept | with_reducible apply commitAdvance_kept | with_reducible apply dataError_kept
    | with_reducible apply KeptOut.next | split | dsimp only

theorem cancelDone_kept {z s : State} {core : Nat} {n : Nat} {k : Nat} {quiet : Bool} (hK : Kept z s) : Kept z (cancelDone s core n
    k quiet) := by
  unfold cancelDone
  repeat' first
    | with_reducible assumption | with_reducible apply dropStreamWaiter_kept | with_reducible apply signalEnd_kept
    | with_reducible apply armNow_kept | with_reducible apply modStream_kept | split | dsimp only

theorem touchCache_kept {z s : State} {n : Nat} {o : Obj} {off : Nat} {len : Nat} (hK : Kept z s) : Kept z (touchCache s n o off
    len) := by
  unfold touchCache
  repeat' first
    | with_reducible assumption | intro _ | with_reducible apply Kept.ite | with_reducible apply Kept.foldl
    | fail_if_no_progress (with_reducible apply Kept.mk_upd)

theorem openPass_kept {z s0 : State} {n : Nat} {k : Nat} {h : BitVec 256} (hK : Kept z s0) : Kept z (openPass s0 n k h) := by
  unfold openPass
  repeat' first
    | with_reducible assumption | with_reducible apply endPass_kept | with_reducible apply modCtx_kept
    | with_reducible apply modCluster_kept | with_reducible apply Kept.ite

theorem askPage_kept {z s : State} {c : Nat} {n : Nat} {k : Nat} {x : Stream} {t : Nat} {h : PageHalf} (hK : Kept z s) : Kept z
    (askPage s c n k x t h) := by
  unfold askPage
  repeat' first
    | with_reducible assumption | with_reducible apply openPass_kept | with_reducible apply tableError_kept
    | with_reducible apply modCluster_kept | with_reducible apply modStream_kept | with_reducible apply Kept.ite | split

theorem launchTile_kept {z s : State} {c : Nat} {n : Nat} {k : Nat} {x : Stream} {t : Nat} (hK : Kept z s) : Kept z (launchTile s c
    n k x t) := by
  unfold launchTile
  repeat' first
    | with_reducible assumption | with_reducible apply askPage_kept | with_reducible apply pushCodec_kept | split | dsimp only

theorem askRemote_kept {z s : State} {c : Nat} {n : Nat} {k : Nat} {x : Stream} {t : StreamTile} (hK : Kept z s) : Kept z (askRemote
    s c n k x t) := by
  unfold askRemote
  repeat' first
    | with_reducible assumption | intro _ | with_reducible apply request_kept | with_reducible apply Kept.foldl | split

theorem execStreamTileStart_kept {z s : State} {core : BitVec 8} {stream : BitVec 4} (hK : Kept z s) : KeptOut z
    (execStreamTileStart core stream s) := by
  unfold execStreamTileStart
  repeat' first
    | with_reducible assumption | intro _ | with_reducible apply modCore_kept | with_reducible apply launchTile_kept
    | with_reducible apply askRemote_kept | with_reducible exact LsKept.same rfl | with_reducible apply KeptOut.next | split | dsimp only

theorem lsPutSome_kept {z s : State} {c : Nat} {a : Nat} {bs : List (Option Byte)} (hK : Kept z s) : Kept z (lsPutSome s c a bs) := by
  unfold lsPutSome
  repeat' first
    | with_reducible assumption | with_reducible apply lsPut_kept

theorem landConv_kept {z s : State} {c : Nat} {n : Nat} {x : Stream} {t : StreamTile} {o : Obj} {l : ConvLayer} {bad : List Nat} (hK
    : Kept z s) : Kept z (landConv s c n x t o l bad).1 := by
  unfold landConv
  repeat' first
    | with_reducible assumption | intro _ | with_reducible apply lsPutSome_kept | with_reducible apply Kept.foldlFst

theorem landTile_kept {z s : State} {c : Nat} {n : Nat} {x : Stream} {t : StreamTile} {o : Obj} {bad : List Nat} (hK : Kept z s) :
    Kept z (landTile s c n x t o bad).1 := by
  unfold landTile
  repeat' first
    | with_reducible assumption | with_reducible apply lsPut_kept | with_reducible apply landConv_kept | split | dsimp only

theorem storeTile_kept {z s : State} {c : Nat} {n : Nat} {x : Stream} {t : StreamTile} {o : Obj} {bad : List Nat} (hK : Kept z s) :
    Kept z (storeTile s c n x t o bad) := by
  unfold storeTile
  repeat' first
    | with_reducible assumption | intro _ | with_reducible apply writeObj_kept | with_reducible apply markBad_kept
    | with_reducible apply Kept.ite | with_reducible apply Kept.foldl

theorem noteWritten_kept {z s : State} {n : Nat} {x : Stream} {t : StreamTile} (hK : Kept z s) : Kept z (noteWritten s n x t) := by
  unfold noteWritten
  repeat' first
    | with_reducible assumption | with_reducible apply modCtx_kept | with_reducible apply seqEnded_kept
    | with_reducible apply setSeqState_kept | with_reducible apply Kept.ite | split

theorem sendTile_kept {z s : State} {c : Nat} {n : Nat} {k : Nat} {x : Stream} {t : StreamTile} {o : Obj} (hK : Kept z s) : Kept z
    (sendTile s c n k x t o) := by
  unfold sendTile
  repeat' first
    | with_reducible assumption | intro _ | with_reducible apply request_kept | with_reducible apply modStream_kept
    | with_reducible apply Kept.foldl

theorem slotErrors_kept {z s : State} {c : Nat} {x : Stream} {t : StreamTile} {bad : List Nat} {soft : List Nat} (hK : Kept z s) :
    Kept z (slotErrors s c x t bad soft) := by
  unfold slotErrors
  repeat' first
    | with_reducible assumption | with_reducible apply lsErrors_kept

theorem execStreamTileDone_kept {z s : State} {core : BitVec 8} {stream : BitVec 4} {tile : Nat} {ecc : HomeEcc} (hK : Kept z s) :
    KeptOut z (execStreamTileDone core stream tile ecc s) := by
  unfold execStreamTileDone
  repeat' first
    | with_reducible assumption | intro _ | with_reducible apply completeTile_kept | with_reducible apply dataError_kept
    | with_reducible apply homeError_kept | with_reducible apply noteWritten_kept | with_reducible apply slotErrors_kept
    | with_reducible apply sendTile_kept | with_reducible apply dropFreed_kept | with_reducible apply storeTile_kept
    | with_reducible apply askRemote_kept | with_reducible apply landTile_kept | with_reducible apply touchCache_kept
    | with_reducible apply noteSofts_kept | with_reducible apply modStream_kept | with_reducible apply Kept.foldl
    | with_reducible apply KeptOut.next | split | dsimp only

theorem execStreamCancelDone_kept {z s : State} {core : BitVec 8} {stream : BitVec 4} (hK : Kept z s) : KeptOut z
    (execStreamCancelDone core stream s) := by
  unfold execStreamCancelDone
  repeat' first
    | with_reducible assumption | with_reducible apply signalTiles_kept | with_reducible apply modCore_kept
    | with_reducible apply cancelDone_kept | with_reducible apply gateFenced_kept | with_reducible apply KeptOut.next | split | dsimp only

theorem hostStream_kept {z s : State} {p : Packet} {op : Nat} {ok : BitVec 256 → Bool} {f : Nat → Nat → Nat → State → State × Nat ×
    Nat} (hf : ∀ a0 a1 a2 a3, Kept z a3 → Kept z (f a0 a1 a2 a3).1) (hK : Kept z s) : KeptOut z (hostStream p op s ok f) := by
  unfold hostStream
  repeat' first
    | with_reducible assumption | intro _ | with_reducible apply ctxCommand_kept | with_reducible apply answer_kept
    | with_reducible apply hf | split | dsimp only

theorem execStreamArm_kept {z s : State} {p : Packet} (hK : Kept z s) : KeptOut z (execStreamArm p s) := by
  unfold execStreamArm
  repeat' first
    | with_reducible assumption | intro _ | with_reducible apply hostStream_kept | with_reducible apply armStream_kept | split

theorem execStreamRearm_kept {z s : State} {p : Packet} (hK : Kept z s) : KeptOut z (execStreamRearm p s) := by
  unfold execStreamRearm
  repeat' first
    | with_reducible assumption | intro _ | with_reducible apply hostStream_kept | with_reducible apply rearmStream_kept | split

theorem execStreamCancel_kept {z s : State} {p : Packet} (hK : Kept z s) : KeptOut z (execStreamCancel p s) := by
  unfold execStreamCancel
  repeat' first
    | with_reducible assumption | intro _ | with_reducible apply hostStream_kept | with_reducible apply cancelOne_kept

theorem execSyncAlloc_kept {z s : State} {p : Packet} (hK : Kept z s) : KeptOut z (execSyncAlloc p s) := by
  unfold execSyncAlloc
  repeat' first
    | with_reducible assumption | intro _ | with_reducible apply ctxCommand_kept | with_reducible apply answer_kept
    | with_reducible apply modBothSets_kept | with_reducible apply setCounter_kept | with_reducible apply Kept.ite
    | with_reducible apply Kept.foldl | split

theorem syncSet_kept {z s : State} {p : Packet} {code : Nat} {f : State → BitVec 16 → Word → Option State}
    (hf : ∀ a b v r, Kept z a → f a b v = some r → Kept z r) (hK : Kept z s) : KeptOut z (syncSet p code s f) := by
  unfold syncSet
  refine ctxCommand_kept (fun n a h => ?_) hK
  split
  · exact h
  · split
    · exact answer_kept h
    · split
      · split
        · exact answer_kept (hf _ _ _ _ h ‹_›)
        · exact answer_kept h
      · exact answer_kept h

theorem fwSync_kept {z s : State} {p : Packet} {op : SyncOp} {pid : BitVec 16} {v : Word} {res : State} (hK : Kept z s) :
    fwSync p op s pid v = some res → Kept z res := applySync_kept (applyWaiting_kept hK)

theorem execSyncSetSet_kept {z s : State} {p : Packet} (hK : Kept z s) : KeptOut z (execSyncSetSet p s) := by
  unfold execSyncSetSet
  repeat' first
    | with_reducible assumption | intro _ | with_reducible apply syncSet_kept | with_reducible refine fwSync_kept ?_ (by assumption)

theorem execSyncSetSignal_kept {z s : State} {p : Packet} (hK : Kept z s) : KeptOut z (execSyncSetSignal p s) := by
  unfold execSyncSetSignal
  repeat' first
    | with_reducible assumption | intro _ | with_reducible apply syncSet_kept | with_reducible refine fwSync_kept ?_ (by assumption)

theorem execSyncSetPoison_kept {z s : State} {p : Packet} (hK : Kept z s) : KeptOut z (execSyncSetPoison p s) := by
  unfold execSyncSetPoison
  repeat' first
    | with_reducible assumption | intro _ | with_reducible apply syncSet_kept | with_reducible refine fwSync_kept ?_ (by assumption)

theorem execSyncSetRevive_kept {z s : State} {p : Packet} (hK : Kept z s) : KeptOut z (execSyncSetRevive p s) := by
  unfold execSyncSetRevive
  refine syncSet_kept (fun a b v r h => ?_) hK
  dsimp only
  split
  · rintro ⟨⟩; exact applyWaiting_kept h
  · split
    · exact applySync_kept (applyWaiting_kept h)
    · split
      · rintro ⟨⟩
      · rintro ⟨⟩; exact setCounter_kept (applyWaiting_kept h)

theorem execSyncRelease_kept {z s : State} {p : Packet} (hK : Kept z s) : KeptOut z (execSyncRelease p s) := by
  unfold execSyncRelease
  repeat' first
    | with_reducible assumption | intro _ | with_reducible apply ctxCommand_kept | with_reducible apply answer_kept
    | with_reducible apply freeCounters_kept | with_reducible apply modBothSets_kept | split | dsimp only

theorem execSyncDump_kept {z s : State} {p : Packet} (hK : Kept z s) : KeptOut z (execSyncDump p s) := by
  unfold execSyncDump
  repeat' first
    | with_reducible assumption | intro _ | with_reducible apply ctxCommand_kept | with_reducible apply answer_kept
    | with_reducible apply hostRecord_kept | with_reducible apply Kept.ite

theorem endLeases_kept {z s : State} {who : Issuer} (hK : Kept z s) : Kept z (endLeases s who) := by
  unfold endLeases
  repeat' first
    | with_reducible assumption | fail_if_no_progress (with_reducible apply Kept.mk_upd)

theorem counterError_kept {z s : State} {pid : BitVec 16} (hK : Kept z s) : Kept z (counterError s pid) := by
  unfold counterError
  repeat' first
    | with_reducible assumption | with_reducible apply endPlan_kept | with_reducible apply risk_kept | with_reducible apply logHealth_kept
    | with_reducible apply poisonCounter_kept | split

theorem syncEcc_kept {z s : State} {ecc : Ecc} {pid : BitVec 16} (hK : Kept z s) : Kept z (syncEcc s ecc pid) := by
  unfold syncEcc
  repeat' first
    | with_reducible assumption | with_reducible apply risk_kept | with_reducible apply logHealth_kept
    | with_reducible apply counterError_kept | split

theorem execSyncOpApply_kept {z s : State} {cluster : BitVec 4} {ecc : Ecc} (hK : Kept z s) : KeptOut z (execSyncOpApply cluster ecc
    s) := by
  unfold execSyncOpApply
  repeat' first
    | with_reducible assumption | intro _ | with_reducible apply syncEcc_kept | with_reducible refine applySync_kept ?_ (by assumption)
    | fail_if_no_progress (with_reducible apply Kept.mk_upd) | with_reducible apply Kept.getD | with_reducible apply KeptOut.next | split
    | dsimp only

theorem execWaiterEvaluate_kept {z s : State} {cluster : BitVec 4} (hK : Kept z s) : KeptOut z (execWaiterEvaluate cluster s) := by
  unfold execWaiterEvaluate
  repeat' first
    | with_reducible assumption | intro _ | with_reducible apply evaluate_kept | with_reducible apply Kept.foldl
    | fail_if_no_progress (with_reducible apply Kept.mk_upd) | with_reducible apply KeptOut.next | split

theorem expireWait_kept {z s : State} {w : Waiter} (hK : Kept z s) : Kept z (expireWait s w) := by
  unfold expireWait
  repeat' first
    | with_reducible assumption | with_reducible apply endWait_kept | fail_if_no_progress (with_reducible apply Kept.mk_upd) | split

theorem execWaitTimeout_kept {z s : State} {core : BitVec 8} {thread : BitVec 5} (hK : Kept z s) : KeptOut z (execWaitTimeout core
    thread s) := by
  unfold execWaitTimeout
  repeat' first
    | with_reducible assumption | with_reducible apply expireWait_kept | fail_if_no_progress (with_reducible apply Kept.mk_upd)
    | with_reducible apply KeptOut.next | split | dsimp only

theorem settlePower_kept {z s : State}  (hK : Kept z s) : Kept z (settlePower s) := by
  unfold settlePower
  repeat' first
    | with_reducible assumption | with_reducible apply Kept.ite | fail_if_no_progress (with_reducible apply Kept.mk_upd)

theorem settleFaults_kept {z s : State}  (hK : Kept z s) : Kept z (settleFaults s) := by
  unfold settleFaults
  repeat' first
    | with_reducible assumption | with_reducible apply settleFault_kept | with_reducible apply Kept.foldl

theorem tick_kept {z s : State}  (hK : Kept z s) : Kept z (tick s) := by
  unfold tick
  repeat' first
    | with_reducible assumption | with_reducible apply settlePower_kept | with_reducible apply settleFaults_kept
    | with_reducible apply Kept.ite | fail_if_no_progress (with_reducible apply Kept.mk_upd)

theorem issueFault_kept {z s : State} {i : Iss} {code : Nat} (hK : Kept z s) : Kept z (issueFault s i code) := by
  unfold issueFault
  repeat' first
    | with_reducible assumption | with_reducible apply instrFault_kept

theorem issue_kept {z s : State} {u : Issuer} {cls : Nat} {op : Nat} {f : Iss → State → State} (hf : ∀ a0 a1, Kept z a1 → Kept z (f
    a0 a1)) (hK : Kept z s) : KeptOut z (issue u cls op s f) := by
  unfold issue
  repeat' first
    | with_reducible assumption | with_reducible apply issueFault_kept | with_reducible apply hf | with_reducible apply KeptOut.next
    | split

theorem setIssuer_kept {z s : State} {i : Iss} {t : Thread} (hK : Kept z s) : Kept z (setIssuer s i t) := by
  unfold setIssuer
  repeat' first
    | with_reducible assumption | with_reducible apply modThread_kept

theorem ctl_kept {z s : State} {u : Issuer} {op : Nat} {f : Iss → Except Nat Thread} (hK : Kept z s) : KeptOut z (ctl u op s f) := by
  unfold ctl
  repeat' first
    | with_reducible assumption | intro _ | with_reducible apply issue_kept | with_reducible apply issueFault_kept
    | with_reducible apply retire_kept | split

theorem execCtlNop_kept {z s : State} {u : Issuer} (hK : Kept z s) : KeptOut z (execCtlNop u s) := by
  unfold execCtlNop
  repeat' first
    | with_reducible assumption | with_reducible apply ctl_kept

theorem cancelLeftover_kept {z s : State} {n : Nat} (hK : Kept z s) : Kept z (cancelLeftover s n) := by
  unfold cancelLeftover
  repeat' first
    | with_reducible assumption | intro _ | with_reducible apply cancelCore_kept | with_reducible apply logHealth_kept
    | with_reducible apply Kept.foldl

theorem execEndThread_kept {z s : State} {u : Issuer} (hK : Kept z s) : KeptOut z (execEndThread u s) := by
  unfold execEndThread
  repeat' first
    | with_reducible assumption | intro _ | with_reducible apply issue_kept | with_reducible apply issueFault_kept
    | with_reducible apply retire_kept | with_reducible apply endLeases_kept | with_reducible apply cancelLeftover_kept
    | with_reducible apply Kept.ite

theorem execAlu_kept {z s : State} {u : Issuer} (hK : Kept z s) : KeptOut z (execAlu u s) := by
  unfold execAlu
  repeat' first
    | with_reducible assumption | with_reducible apply ctl_kept

theorem execAlui_kept {z s : State} {u : Issuer} (hK : Kept z s) : KeptOut z (execAlui u s) := by
  unfold execAlui
  repeat' first
    | with_reducible assumption | with_reducible apply ctl_kept

theorem execCmp_kept {z s : State} {u : Issuer} (hK : Kept z s) : KeptOut z (execCmp u s) := by
  unfold execCmp
  repeat' first
    | with_reducible assumption | with_reducible apply ctl_kept

theorem execLoopOpen_kept {z s : State} {u : Issuer} (hK : Kept z s) : KeptOut z (execLoopOpen u s) := by
  unfold execLoopOpen
  repeat' first
    | with_reducible assumption | with_reducible apply ctl_kept

theorem execEndloop_kept {z s : State} {u : Issuer} (hK : Kept z s) : KeptOut z (execEndloop u s) := by
  unfold execEndloop
  repeat' first
    | with_reducible assumption | with_reducible apply ctl_kept

theorem execBranch_kept {z s : State} {u : Issuer} (hK : Kept z s) : KeptOut z (execBranch u s) := by
  unfold execBranch
  repeat' first
    | with_reducible assumption | with_reducible apply ctl_kept

theorem execTag_kept {z s : State} {u : Issuer} (hK : Kept z s) : KeptOut z (execTag u s) := by
  unfold execTag
  repeat' first
    | with_reducible assumption | with_reducible apply ctl_kept

theorem enqueueOp_kept {z s : State} {i : Iss} {q : EngineQ} {k : EngKind} {held : Bool} (hK : Kept z s) :
    Kept z (enqueueOp s i q k held) := by
  unfold enqueueOp
  refine modCore_kept (fun x => ?_) hK
  cases q <;> exact LsKept.same rfl

theorem sleepAt_kept {z s : State} {i : Iss} {h : Hold} (hK : Kept z s) : Kept z (sleepAt s i h) := by
  unfold sleepAt
  repeat' first
    | with_reducible assumption | with_reducible apply setIssuer_kept

theorem engineIssue_kept {z s : State} {u : Issuer} {cls : Nat} {op : Nat} {q : EngineQ} {faults : Iss → State → List Nat} {bound :
    Iss → State → Option Hold} {kind : Iss → State → EngKind} {held : Iss → Bool} (hK : Kept z s) : KeptOut z (engineIssue u cls op q s
    faults bound kind held) := by
  unfold engineIssue
  repeat' first
    | with_reducible assumption | intro _ | with_reducible apply issue_kept | with_reducible apply issueFault_kept
    | with_reducible apply signalSig_kept | with_reducible apply retire_kept | with_reducible apply sleepAt_kept
    | with_reducible apply enqueueOp_kept | with_reducible apply Kept.ite | split

theorem execMma_kept {z s : State} {u : Issuer} (hK : Kept z s) : KeptOut z (execMma u s) := by
  unfold execMma
  repeat' first
    | with_reducible assumption | with_reducible apply engineIssue_kept

theorem execSpill_kept {z s : State} {u : Issuer} (hK : Kept z s) : KeptOut z (execSpill u s) := by
  unfold execSpill
  repeat' first
    | with_reducible assumption | with_reducible apply engineIssue_kept

theorem execTopk_kept {z s : State} {u : Issuer} (hK : Kept z s) : KeptOut z (execTopk u s) := by
  unfold execTopk
  repeat' first
    | with_reducible assumption | with_reducible apply engineIssue_kept

theorem execAccz_kept {z s : State} {u : Issuer} (hK : Kept z s) : KeptOut z (execAccz u s) := by
  unfold execAccz
  repeat' first
    | with_reducible assumption | with_reducible apply engineIssue_kept

theorem execKid_kept {z s : State} {u : Issuer} (hK : Kept z s) : KeptOut z (execKid u s) := by
  unfold execKid
  repeat' first
    | with_reducible assumption | with_reducible apply engineIssue_kept

theorem vecIssue_kept {z s : State} {cls : Nat} {op : Nat} {u : Issuer} (hK : Kept z s) : KeptOut z (vecIssue cls op u s) := by
  unfold vecIssue
  repeat' first
    | with_reducible assumption | with_reducible apply engineIssue_kept

theorem execVadd_kept {z s : State} {u : Issuer} (hK : Kept z s) : KeptOut z (execVadd u s) := by
  unfold execVadd
  repeat' first
    | with_reducible assumption | with_reducible apply vecIssue_kept

theorem execVsub_kept {z s : State} {u : Issuer} (hK : Kept z s) : KeptOut z (execVsub u s) := by
  unfold execVsub
  repeat' first
    | with_reducible assumption | with_reducible apply vecIssue_kept

theorem execVmul_kept {z s : State} {u : Issuer} (hK : Kept z s) : KeptOut z (execVmul u s) := by
  unfold execVmul
  repeat' first
    | with_reducible assumption | with_reducible apply vecIssue_kept

theorem execVfma_kept {z s : State} {u : Issuer} (hK : Kept z s) : KeptOut z (execVfma u s) := by
  unfold execVfma
  repeat' first
    | with_reducible assumption | with_reducible apply vecIssue_kept

theorem execVmax_kept {z s : State} {u : Issuer} (hK : Kept z s) : KeptOut z (execVmax u s) := by
  unfold execVmax
  repeat' first
    | with_reducible assumption | with_reducible apply vecIssue_kept

theorem execVmin_kept {z s : State} {u : Issuer} (hK : Kept z s) : KeptOut z (execVmin u s) := by
  unfold execVmin
  repeat' first
    | with_reducible assumption | with_reducible apply vecIssue_kept

theorem execCvt_kept {z s : State} {u : Issuer} (hK : Kept z s) : KeptOut z (execCvt u s) := by
  unfold execCvt
  repeat' first
    | with_reducible assumption | with_reducible apply vecIssue_kept

theorem execScl_kept {z s : State} {u : Issuer} (hK : Kept z s) : KeptOut z (execScl u s) := by
  unfold execScl
  repeat' first
    | with_reducible assumption | with_reducible apply vecIssue_kept

theorem execRsum_kept {z s : State} {u : Issuer} (hK : Kept z s) : KeptOut z (execRsum u s) := by
  unfold execRsum
  repeat' first
    | with_reducible assumption | with_reducible apply vecIssue_kept

theorem execRmax_kept {z s : State} {u : Issuer} (hK : Kept z s) : KeptOut z (execRmax u s) := by
  unfold execRmax
  repeat' first
    | with_reducible assumption | with_reducible apply vecIssue_kept

theorem execSsq_kept {z s : State} {u : Issuer} (hK : Kept z s) : KeptOut z (execSsq u s) := by
  unfold execSsq
  repeat' first
    | with_reducible assumption | with_reducible apply vecIssue_kept

theorem execFnExp_kept {z s : State} {u : Issuer} (hK : Kept z s) : KeptOut z (execFnExp u s) := by
  unfold execFnExp
  repeat' first
    | with_reducible assumption | with_reducible apply vecIssue_kept

theorem execFnLog_kept {z s : State} {u : Issuer} (hK : Kept z s) : KeptOut z (execFnLog u s) := by
  unfold execFnLog
  repeat' first
    | with_reducible assumption | with_reducible apply vecIssue_kept

theorem execFnRcp_kept {z s : State} {u : Issuer} (hK : Kept z s) : KeptOut z (execFnRcp u s) := by
  unfold execFnRcp
  repeat' first
    | with_reducible assumption | with_reducible apply vecIssue_kept

theorem execFnRsq_kept {z s : State} {u : Issuer} (hK : Kept z s) : KeptOut z (execFnRsq u s) := by
  unfold execFnRsq
  repeat' first
    | with_reducible assumption | with_reducible apply vecIssue_kept

theorem execFnSqrt_kept {z s : State} {u : Issuer} (hK : Kept z s) : KeptOut z (execFnSqrt u s) := by
  unfold execFnSqrt
  repeat' first
    | with_reducible assumption | with_reducible apply vecIssue_kept

theorem execFnTanh_kept {z s : State} {u : Issuer} (hK : Kept z s) : KeptOut z (execFnTanh u s) := by
  unfold execFnTanh
  repeat' first
    | with_reducible assumption | with_reducible apply vecIssue_kept

theorem execFnSigm_kept {z s : State} {u : Issuer} (hK : Kept z s) : KeptOut z (execFnSigm u s) := by
  unfold execFnSigm
  repeat' first
    | with_reducible assumption | with_reducible apply vecIssue_kept

theorem execFnGelu_kept {z s : State} {u : Issuer} (hK : Kept z s) : KeptOut z (execFnGelu u s) := by
  unfold execFnGelu
  repeat' first
    | with_reducible assumption | with_reducible apply vecIssue_kept

theorem execFnSilu_kept {z s : State} {u : Issuer} (hK : Kept z s) : KeptOut z (execFnSilu u s) := by
  unfold execFnSilu
  repeat' first
    | with_reducible assumption | with_reducible apply vecIssue_kept

theorem execFnSin_kept {z s : State} {u : Issuer} (hK : Kept z s) : KeptOut z (execFnSin u s) := by
  unfold execFnSin
  repeat' first
    | with_reducible assumption | with_reducible apply vecIssue_kept

theorem execLds_kept {z s : State} {u : Issuer} (hK : Kept z s) : KeptOut z (execLds u s) := by
  unfold execLds
  repeat' first
    | with_reducible assumption | with_reducible apply engineIssue_kept

theorem execSts_kept {z s : State} {u : Issuer} (hK : Kept z s) : KeptOut z (execSts u s) := by
  unfold execSts
  repeat' first
    | with_reducible assumption | with_reducible apply engineIssue_kept

theorem execArm_kept {z s : State} {u : Issuer} (hK : Kept z s) : KeptOut z (execArm u s) := by
  unfold execArm
  repeat' first
    | with_reducible assumption | with_reducible apply engineIssue_kept

theorem execRearm_kept {z s : State} {u : Issuer} (hK : Kept z s) : KeptOut z (execRearm u s) := by
  unfold execRearm
  repeat' first
    | with_reducible assumption | with_reducible apply engineIssue_kept

theorem execCancel_kept {z s : State} {u : Issuer} (hK : Kept z s) : KeptOut z (execCancel u s) := by
  unfold execCancel
  repeat' first
    | with_reducible assumption | with_reducible apply engineIssue_kept

theorem execGather_kept {z s : State} {u : Issuer} (hK : Kept z s) : KeptOut z (execGather u s) := by
  unfold execGather
  repeat' first
    | with_reducible assumption | with_reducible apply engineIssue_kept

theorem synIssue_kept {z s : State} {op : Nat} {k : SyncOp} {u : Issuer} (hK : Kept z s) : KeptOut z (synIssue op k u s) := by
  unfold synIssue
  repeat' first
    | with_reducible assumption | with_reducible apply engineIssue_kept

theorem execSignalCount_kept {z s : State} {u : Issuer} (hK : Kept z s) : KeptOut z (execSignalCount u s) := by
  unfold execSignalCount
  repeat' first
    | with_reducible assumption | with_reducible apply synIssue_kept

theorem execWaitCount_kept {z s : State} {u : Issuer} (hK : Kept z s) : KeptOut z (execWaitCount u s) := by
  unfold execWaitCount
  repeat' first
    | with_reducible assumption | with_reducible apply synIssue_kept

theorem execTakeCount_kept {z s : State} {u : Issuer} (hK : Kept z s) : KeptOut z (execTakeCount u s) := by
  unfold execTakeCount
  repeat' first
    | with_reducible assumption | with_reducible apply synIssue_kept

theorem execSetCount_kept {z s : State} {u : Issuer} (hK : Kept z s) : KeptOut z (execSetCount u s) := by
  unfold execSetCount
  repeat' first
    | with_reducible assumption | with_reducible apply synIssue_kept

theorem execPoisonCount_kept {z s : State} {u : Issuer} (hK : Kept z s) : KeptOut z (execPoisonCount u s) := by
  unfold execPoisonCount
  repeat' first
    | with_reducible assumption | with_reducible apply synIssue_kept

theorem execReadCount_kept {z s : State} {u : Issuer} (hK : Kept z s) : KeptOut z (execReadCount u s) := by
  unfold execReadCount
  repeat' first
    | with_reducible assumption | with_reducible apply synIssue_kept

theorem drainIssue_kept {z s : State} {op : Nat} {u : Issuer} (hK : Kept z s) : KeptOut z (drainIssue op u s) := by
  unfold drainIssue
  repeat' first
    | with_reducible assumption | with_reducible apply engineIssue_kept

theorem execDrain_kept {z s : State} {u : Issuer} (hK : Kept z s) : KeptOut z (execDrain u s) := by
  unfold execDrain
  repeat' first
    | with_reducible assumption | with_reducible apply drainIssue_kept

theorem execDrainClr_kept {z s : State} {u : Issuer} (hK : Kept z s) : KeptOut z (execDrainClr u s) := by
  unfold execDrainClr
  repeat' first
    | with_reducible assumption | with_reducible apply drainIssue_kept

theorem execDrainRed_kept {z s : State} {u : Issuer} (hK : Kept z s) : KeptOut z (execDrainRed u s) := by
  unfold execDrainRed
  repeat' first
    | with_reducible assumption | with_reducible apply drainIssue_kept

theorem tcdIssue_kept {z s : State} {op : Nat} {u : Issuer} (hK : Kept z s) : KeptOut z (tcdIssue op u s) := by
  unfold tcdIssue
  repeat' first
    | with_reducible assumption | with_reducible apply engineIssue_kept

theorem execEnc_kept {z s : State} {u : Issuer} (hK : Kept z s) : KeptOut z (execEnc u s) := by
  unfold execEnc
  repeat' first
    | with_reducible assumption | with_reducible apply tcdIssue_kept

theorem execDec_kept {z s : State} {u : Issuer} (hK : Kept z s) : KeptOut z (execDec u s) := by
  unfold execDec
  repeat' first
    | with_reducible assumption | with_reducible apply tcdIssue_kept

theorem stageImage_kept {z s : State} {img : List Byte} (hK : Kept z s) : Kept z (stageImage s img) := by
  have hv : (BitVec.ofNat 8 (svnOf img) : BitVec 8) ≤ 64 := by
    have : svnOf img ≤ 64 := Nat.min_le_left _ _
    simp [BitVec.le_def]; omega
  refine Kept.updFw hK rfl rfl ?_ ?_ rfl rfl rfl rfl rfl rfl
  · unfold stageImage; dsimp only; split <;> rfl
  · rintro ⟨h1, h2, h3⟩
    unfold stageImage State.fwWf; dsimp only; split
    · exact ⟨h1, hv, h3⟩
    · exact ⟨h1, h2, hv⟩

theorem execFwStage_kept {z s : State} {p : Packet} (hK : Kept z s) : KeptOut z (execFwStage p s) := by
  unfold execFwStage
  repeat' first
    | with_reducible assumption | intro _ | with_reducible apply mgmtCommand_kept | with_reducible apply answer_kept
    | with_reducible apply stageImage_kept | with_reducible apply Kept.ite | split

theorem fwActivate_kept {z s : State} {p : Packet} {op : Nat} {f : State → State} (hf : ∀ a0, Kept z a0 → Kept z (f a0)) (hK : Kept
    z s) : KeptOut z (fwActivate p op s f) := by
  unfold fwActivate
  repeat' first
    | with_reducible assumption | intro _ | with_reducible apply mgmtCommand_kept | with_reducible apply answer_kept
    | with_reducible apply hf | with_reducible apply Kept.ite

theorem execFwActivateSelect_kept {z s : State} {p : Packet} (hK : Kept z s) : KeptOut z (execFwActivateSelect p s) := by
  unfold execFwActivateSelect
  refine fwActivate_kept (fun a h => ?_) hK
  have h1 (b : Bool) : Kept z { a with fw := { a.fw with selected := b } } := h.updFw rfl rfl rfl id rfl rfl rfl rfl rfl rfl
  dsimp only
  split
  · exact answer_kept h
  · exact answer_kept (h1 _)

theorem execFwActivateKeep_kept {z s : State} {p : Packet} (hK : Kept z s) : KeptOut z (execFwActivateKeep p s) := by
  unfold execFwActivateKeep
  refine fwActivate_kept (fun a h => ?_) hK
  have h1 (b : Bool) : Kept z { a with fw := { a.fw with selected := b } } := h.updFw rfl rfl rfl id rfl rfl rfl rfl rfl rfl
  exact answer_kept (h1 _)

theorem execAttest_kept {z s : State} {p : Packet} (hK : Kept z s) : KeptOut z (execAttest p s) := by
  unfold execAttest
  repeat' first
    | with_reducible assumption | intro _ | with_reducible apply ctxCommand_kept | with_reducible apply answer_kept
    | with_reducible apply hostRecord_kept | with_reducible apply Kept.ite

theorem videoCommand_kept {z s : State} {p : Packet} {op : Nat} {encode : Bool} {bad : Nat → Bool} (hK : Kept z s) : KeptOut z
    (videoCommand p op encode s bad) := by
  unfold videoCommand
  repeat' first
    | with_reducible assumption | intro _ | with_reducible apply ctxCommand_kept | with_reducible apply rejectPkt_kept
    | with_reducible apply answer_kept | with_reducible apply modPipe_kept | with_reducible apply draw_kept | split

theorem execVidDecode_kept {z s : State} {p : Packet} (hK : Kept z s) : KeptOut z (execVidDecode p s) := by
  unfold execVidDecode
  repeat' first
    | with_reducible assumption | with_reducible apply videoCommand_kept

theorem execVidEncode_kept {z s : State} {p : Packet} (hK : Kept z s) : KeptOut z (execVidEncode p s) := by
  unfold execVidEncode
  repeat' first
    | with_reducible assumption | with_reducible apply videoCommand_kept

theorem execVideoJobStart_kept {z s : State} {pipe : BitVec 3} (hK : Kept z s) : KeptOut z (execVideoJobStart pipe s) := by
  unfold execVideoJobStart
  repeat' first
    | with_reducible assumption | with_reducible apply wakePower_kept | with_reducible apply modPipe_kept
    | fail_if_no_progress (with_reducible apply Kept.mk_upd) | with_reducible apply KeptOut.ite | with_reducible apply KeptOut.next
    | with_reducible apply KeptOut.fault | split

theorem putFrame_kept {z s : State} {n : Nat} {outId : Nat} {outOff : Nat} {bs : List Byte} {statId : Nat} {statOff : Nat} {status :
    Nat} {sid : Nat} (hK : Kept z s) : Kept z (putFrame s n outId outOff bs statId statOff status sid) := by
  unfold putFrame
  repeat' first
    | with_reducible assumption | with_reducible apply writeHome_kept | with_reducible apply signalFw_kept | with_reducible apply Kept.ite
    | split

theorem noteJob_kept {z s : State} {n : Nat} {id : Nat} {base : Nat} {bad : List Nat} (hK : Kept z s) : Kept z (noteJob s n id base
    bad) := by
  unfold noteJob
  repeat' first
    | with_reducible assumption | with_reducible apply noteBad_kept | split

theorem execDecodeFrameDone_kept {z s : State} {pipe : BitVec 3} (hK : Kept z s) : KeptOut z (execDecodeFrameDone pipe s) := by
  unfold execDecodeFrameDone
  repeat' first
    | with_reducible assumption | with_reducible apply noteJob_kept | with_reducible apply spoilState_kept
    | with_reducible apply putFrame_kept | with_reducible apply modPipe_kept | with_reducible apply KeptOut.ite
    | with_reducible apply KeptOut.next | with_reducible apply KeptOut.fault | split

theorem execEncodePictureDone_kept {z s : State} {pipe : BitVec 3} (hK : Kept z s) : KeptOut z (execEncodePictureDone pipe s) := by
  unfold execEncodePictureDone
  repeat' first
    | with_reducible assumption | with_reducible apply noteJob_kept | with_reducible apply modPipe_kept
    | with_reducible apply spoilState_kept | with_reducible apply putFrame_kept | with_reducible apply KeptOut.ite
    | with_reducible apply KeptOut.next | with_reducible apply KeptOut.fault | split

theorem execVideoJobComplete_kept {z s : State} {pipe : BitVec 3} (hK : Kept z s) : KeptOut z (execVideoJobComplete pipe s) := by
  unfold execVideoJobComplete
  repeat' first
    | with_reducible assumption | with_reducible apply modPipe_kept | with_reducible apply endJob_kept | with_reducible apply KeptOut.ite
    | with_reducible apply KeptOut.next | with_reducible apply KeptOut.fault | split

theorem execPictureBoundary_kept {z s : State} {pipe : BitVec 3} (hK : Kept z s) : KeptOut z (execPictureBoundary pipe s) := by
  unfold execPictureBoundary
  repeat' first
    | with_reducible assumption | with_reducible apply stopJob_kept | with_reducible apply KeptOut.ite | with_reducible apply KeptOut.next
    | with_reducible apply KeptOut.fault | split

theorem execFwActivateRaiseFloor_kept (p : Packet) (s : State) : ∃ f : BitVec 8, s.fw.floor ≤ f ∧ (s.fwWf → f ≤ 64) ∧
    KeptOut { s with fw := { s.fw with floor := f } } (execFwActivateRaiseFloor p s) := by
  have stay {t : State} (h : Kept s t) : ∃ f : BitVec 8, s.fw.floor ≤ f ∧ (s.fwWf → f ≤ 64) ∧
      KeptOut { s with fw := { s.fw with floor := f } } (.next t) :=
    ⟨s.fw.floor, BitVec.le_refl _, fun w => w.1, .next h⟩
  unfold execFwActivateRaiseFloor fwActivate mgmtCommand firmware
  split
  · exact ⟨s.fw.floor, BitVec.le_refl _, fun w => w.1, .fault _⟩
  · split
    · dsimp only
      split
      · exact stay (rejectPkt_kept (Kept.refl s))
      · split
        · exact stay (Kept.refl s)
        · split
          · exact stay (answer_kept (Kept.refl s))
          · refine ⟨if s.fw.floor < runningSvn s then runningSvn s else s.fw.floor, ?_, fun w => ?_,
              .next (answer_kept (Kept.refl _))⟩
            · split
              · exact BitVec.le_of_lt ‹_›
              · exact BitVec.le_refl _
            · have hr : runningSvn s ≤ 64 := by
                unfold runningSvn
                split
                · exact w.2.2
                · exact w.2.1
              split
              · exact hr
              · exact w.1
    · exact stay (Kept.refl s)

/-- What every command but FW_ACTIVATE RAISE_FLOOR keeps. -/
theorem exec_kept (c : Instr) (s : State) (hc : ∀ p, c ≠ .fwActivateRaiseFloor p) : KeptOut s (exec c s) := by
  have h := Kept.refl s
  cases c with
  | nop _ => exact execNop_kept h
  | echo _ => exact execEcho_kept h
  | readInfo _ => exact execReadInfo_kept h
  | objAlloc _ => exact execObjAlloc_kept h
  | objFree _ => exact execObjFree_kept h
  | objMigrate _ => exact execObjMigrate_kept h
  | objQuery _ => exact execObjQuery_kept h
  | planLoad _ => exact execPlanLoad_kept h
  | planVerify _ => exact execPlanVerify_kept h
  | planStart _ => exact execPlanStart_kept h
  | planCancel _ => exact execPlanCancel_kept h
  | stepBegin _ => exact execStepBegin_kept h
  | stepCommit _ => exact execStepCommit_kept h
  | streamArm _ => exact execStreamArm_kept h
  | streamRearm _ => exact execStreamRearm_kept h
  | streamCancel _ => exact execStreamCancel_kept h
  | syncAlloc _ => exact execSyncAlloc_kept h
  | syncSetSet _ => exact execSyncSetSet_kept h
  | syncSetSignal _ => exact execSyncSetSignal_kept h
  | syncSetPoison _ => exact execSyncSetPoison_kept h
  | syncSetRevive _ => exact execSyncSetRevive_kept h
  | syncDump _ => exact execSyncDump_kept h
  | syncRelease _ => exact execSyncRelease_kept h
  | cfgWriteShadow _ => exact execCfgWriteShadow_kept h
  | cfgSwap _ => exact execCfgSwap_kept h
  | cfgRead _ => exact execCfgRead_kept h
  | ctxCreate _ => exact execCtxCreate_kept h
  | ctxRetire _ => exact execCtxRetire_kept h
  | ctxPreempt _ => exact execCtxPreempt_kept h
  | ctxResume _ => exact execCtxResume_kept h
  | ctxReset _ => exact execCtxReset_kept h
  | kvPoolGrant _ => exact execKvPoolGrant_kept h
  | kvPageEdit _ => exact execKvPageEdit_kept h
  | kvSeqAbort _ => exact execKvSeqAbort_kept h
  | vidDecode _ => exact execVidDecode_kept h
  | vidEncode _ => exact execVidEncode_kept h
  | tcdConfigSet _ => exact execTcdConfigSet_kept h
  | tcdConfigClear _ => exact execTcdConfigClear_kept h
  | tcdConfigPoolAdd _ => exact execTcdConfigPoolAdd_kept h
  | healthRead _ => exact execHealthRead_kept h
  | secureNowTake _ => exact execSecureNowTake_kept h
  | secureNowDrain _ => exact execSecureNowDrain_kept h
  | secureNowUndrain _ => exact execSecureNowUndrain_kept h
  | restanteCollect _ => exact execRestanteCollect_kept h
  | fabRouteLoad _ => exact execFabRouteLoad_kept h
  | fabMembership _ => exact execFabMembership_kept h
  | attest _ => exact execAttest_kept h
  | fwStage _ => exact execFwStage_kept h
  | fwActivateSelect _ => exact execFwActivateSelect_kept h
  | fwActivateRaiseFloor p => exact absurd rfl (hc p)
  | fwActivateKeep _ => exact execFwActivateKeep_kept h
  | pwrLimit _ => exact execPwrLimit_kept h
  | clkRequestGate _ => exact execClkRequestGate_kept h
  | clkRequestUngate _ => exact execClkRequestUngate_kept h
  | clkRequestArith533 _ => exact execClkRequestArith533_kept h
  | clkRequestMem9600 _ => exact execClkRequestMem9600_kept h
  | ageingReport _ => exact execAgeingReport_kept h
  | ringTurn => exact execRingTurn_kept h
  | hstDoorbell _ _ => exact execHstDoorbell_kept h
  | cmdRcptHeadWrite _ _ => exact execCmdRcptHeadWrite_kept h
  | ringEnable _ _ => exact execRingEnable_kept h
  | ringDisable _ _ => exact execRingDisable_kept h
  | w1cClear _ _ _ => exact execW1cClear_kept h
  | registerWrite _ _ _ _ => exact execRegisterWrite_kept h
  | bar2Access _ _ _ _ => exact execBar2Access_kept h
  | i3cPrivateWrite _ _ _ => exact execI3cPrivateWrite_kept h
  | entdaa _ => exact execEntdaa_kept h
  | jtagInstruction _ => exact execJtagInstruction_kept h
  | ctlNop _ => exact execCtlNop_kept h
  | endThread _ => exact execEndThread_kept h
  | alu _ => exact execAlu_kept h
  | alui _ => exact execAlui_kept h
  | cmp _ => exact execCmp_kept h
  | loopOpen _ => exact execLoopOpen_kept h
  | endloop _ => exact execEndloop_kept h
  | branch _ => exact execBranch_kept h
  | tag _ => exact execTag_kept h
  | mma _ => exact execMma_kept h
  | spill _ => exact execSpill_kept h
  | topk _ => exact execTopk_kept h
  | accz _ => exact execAccz_kept h
  | kid _ => exact execKid_kept h
  | vadd _ => exact execVadd_kept h
  | vsub _ => exact execVsub_kept h
  | vmul _ => exact execVmul_kept h
  | vfma _ => exact execVfma_kept h
  | vmax _ => exact execVmax_kept h
  | vmin _ => exact execVmin_kept h
  | cvt _ => exact execCvt_kept h
  | scl _ => exact execScl_kept h
  | rsum _ => exact execRsum_kept h
  | rmax _ => exact execRmax_kept h
  | ssq _ => exact execSsq_kept h
  | lds _ => exact execLds_kept h
  | sts _ => exact execSts_kept h
  | fnExp _ => exact execFnExp_kept h
  | fnLog _ => exact execFnLog_kept h
  | fnRcp _ => exact execFnRcp_kept h
  | fnRsq _ => exact execFnRsq_kept h
  | fnSqrt _ => exact execFnSqrt_kept h
  | fnTanh _ => exact execFnTanh_kept h
  | fnSigm _ => exact execFnSigm_kept h
  | fnGelu _ => exact execFnGelu_kept h
  | fnSilu _ => exact execFnSilu_kept h
  | fnSin _ => exact execFnSin_kept h
  | arm _ => exact execArm_kept h
  | rearm _ => exact execRearm_kept h
  | cancel _ => exact execCancel_kept h
  | gather _ => exact execGather_kept h
  | signalCount _ => exact execSignalCount_kept h
  | waitCount _ => exact execWaitCount_kept h
  | takeCount _ => exact execTakeCount_kept h
  | setCount _ => exact execSetCount_kept h
  | poisonCount _ => exact execPoisonCount_kept h
  | readCount _ => exact execReadCount_kept h
  | drain _ => exact execDrain_kept h
  | drainClr _ => exact execDrainClr_kept h
  | drainRed _ => exact execDrainRed_kept h
  | enc _ => exact execEnc_kept h
  | dec _ => exact execDec_kept h
  | engineOpStart _ _ => exact execEngineOpStart_kept h
  | engineOpComplete _ _ _ => exact execEngineOpComplete_kept h
  | unitHardFault _ => exact execUnitHardFault_kept h
  | syncOpApply _ _ => exact execSyncOpApply_kept h
  | waiterEvaluate _ => exact execWaiterEvaluate_kept h
  | waitTimeout _ _ => exact execWaitTimeout_kept h
  | streamTileStart _ _ => exact execStreamTileStart_kept h
  | streamTileDone _ _ _ _ => exact execStreamTileDone_kept h
  | streamCancelDone _ _ => exact execStreamCancelDone_kept h
  | gatherIndexIssue _ _ => exact execGatherIndexIssue_kept h
  | pageWalk _ _ => exact execPageWalk_kept h
  | pageWaitResume _ _ => exact execPageWaitResume_kept h
  | pageWaitTimeout _ _ => exact execPageWaitTimeout_kept h
  | passBoundary _ => exact execPassBoundary_kept h
  | kidJobStart _ => exact execKidJobStart_kept h
  | kidJobComplete _ _ => exact execKidJobComplete_kept h
  | codecJobStart _ _ => exact execCodecJobStart_kept h
  | codecJobComplete _ _ _ => exact execCodecJobComplete_kept h
  | planEnd _ => exact execPlanEnd_kept h
  | updateUnitSlice _ _ => exact execUpdateUnitSlice_kept h
  | flitReceive _ _ _ => exact execFlitReceive_kept h
  | replayReq _ _ => exact execReplayReq_kept h
  | replayTimeout _ => exact execReplayTimeout_kept h
  | linkDownTimeout _ _ => exact execLinkDownTimeout_kept h
  | laneLockLoss _ _ => exact execLaneLockLoss_kept h
  | portTrain _ => exact execPortTrain_kept h
  | trainTimeout _ => exact execTrainTimeout_kept h
  | fabricRead _ _ => exact execFabricRead_kept h
  | fabricWrite _ _ => exact execFabricWrite_kept h
  | fabricAtomic _ _ => exact execFabricAtomic_kept h
  | fabricSignal _ _ => exact execFabricSignal_kept h
  | readData _ _ => exact execReadData_kept h
  | complete _ _ => exact execComplete_kept h
  | fabricError _ _ => exact execFabricError_kept h
  | pathDown _ _ => exact execPathDown_kept h
  | txnTimeout _ _ => exact execTxnTimeout_kept h
  | redPart _ _ => exact execRedPart_kept h
  | reductionDeadline _ _ _ _ => exact execReductionDeadline_kept h
  | gatherData _ _ => exact execGatherData_kept h
  | vote _ => exact execVote_kept h
  | memberLost _ _ => exact execMemberLost_kept h
  | leave _ _ => exact execLeave_kept h
  | migrationFenceNotice _ _ => exact execMigrationFenceNotice_kept h
  | migrationCommitNotice _ _ _ => exact execMigrationCommitNotice_kept h
  | bindQuery _ _ _ => exact execBindQuery_kept h
  | migrationCopyStart _ _ => exact execMigrationCopyStart_kept h
  | migrationAckTimeout _ _ _ => exact execMigrationAckTimeout_kept h
  | migrationCommit _ _ _ => exact execMigrationCommit_kept h
  | migrationRelease _ _ => exact execMigrationRelease_kept h
  | cfgSwapPoint => exact execCfgSwapPoint_kept h
  | cfgSwapTimeout => exact execCfgSwapTimeout_kept h
  | videoJobStart _ => exact execVideoJobStart_kept h
  | decodeFrameDone _ => exact execDecodeFrameDone_kept h
  | encodePictureDone _ => exact execEncodePictureDone_kept h
  | videoJobComplete _ => exact execVideoJobComplete_kept h
  | riskCompute => exact execRiskCompute_kept h
  | drainComplete => exact execDrainComplete_kept h
  | powerControlPeriod _ => exact execPowerControlPeriod_kept h
  | idleWindow _ => exact execIdleWindow_kept h
  | thermalSample _ => exact execThermalSample_kept h
  | thermalShutdown => exact execThermalShutdown_kept h
  | ageingSample _ => exact execAgeingSample_kept h
  | clkReplanApply => exact execClkReplanApply_kept h
  | replanQuiesceTimeout => exact execReplanQuiesceTimeout_kept h
  | memMarginMeasure _ => exact execMemMarginMeasure_kept h
  | memStepApply => exact execMemStepApply_kept h
  | muxHung _ => exact execMuxHung_kept h
  | clockMonitorWindow _ => exact execClockMonitorWindow_kept h
  | rootPllLockLoss => exact execRootPllLockLoss_kept h
  | phyPllLockLoss => exact execPhyPllLockLoss_kept h
  | controlWatchdog => exact execControlWatchdog_kept h
  | railTrip => exact execRailTrip_kept h
  | inputOutOfRange => exact execInputOutOfRange_kept h
  | coolantAlert => exact execCoolantAlert_kept h
  | auxPowerGood _ => exact execAuxPowerGood_kept h
  | powerOn _ => exact execPowerOn_kept h
  | powerOff => exact execPowerOff_kept h
  | warmResetAssert _ => exact execWarmResetAssert_kept h
  | warmResetRelease _ => exact execWarmResetRelease_kept h
  | xoStable => exact execXoStable_kept h
  | xoTimeout => exact execXoTimeout_kept h
  | pllLock => exact execPllLock_kept h
  | pllLockTimeout => exact execPllLockTimeout_kept h
  | startPhaseComplete _ => exact execStartPhaseComplete_kept h
  | phaseTimeout => exact execPhaseTimeout_kept h
  | linkRetrain => exact execLinkRetrain_kept h
  | linkLoss => exact execLinkLoss_kept h
  | linkReturn => exact execLinkReturn_kept h
  | bindAnswer _ _ _ => exact execBindAnswer_kept h
  | migrationPlaceQuery _ _ _ => exact execMigrationPlaceQuery_kept h
  | migrationPlaceAnswer _ _ _ => exact execMigrationPlaceAnswer_kept h
  | pictureBoundary _ => exact execPictureBoundary_kept h
  | auxPowerLoss => exact execAuxPowerLoss_kept h
  | enec => exact execEnec_kept h
  | xoAmplitudeDetect _ => exact execXoAmplitudeDetect_kept h
  | hdmDecoderCommit => exact execHdmDecoderCommit_kept h

/-- What a step keeps: the queue loses its front, the floor rises only in FW_ACTIVATE RAISE_FLOOR and never over 64, and all else is kept. -/
theorem step_kept {s t : State} (h : step s = .next t) : ∃ f : BitVec 8, s.fw.floor ≤ f ∧ (s.fwWf → f ≤ 64) ∧
    (f ≠ s.fw.floor → ∃ p, s.pending.head? = some (.fwActivateRaiseFloor p)) ∧
    Kept { s with pending := s.pending.tail, fw := { s.fw with floor := f } } t := by
  unfold step at h
  split at h
  · rename_i hp
    have k : Kept s t := Host.Outcome.next.inj h ▸ tick_kept (Kept.refl s)
    refine ⟨s.fw.floor, BitVec.le_refl _, fun w => w.1, fun h => absurd rfl h, ?_⟩
    have e : ({ s with pending := s.pending.tail } : State) = s := by rw [hp]; exact congrArg (fun l => { s with pending := l }) hp.symm
    exact (congrArg (fun z => Kept z t) e).mpr k
  · rename_i c rest hp
    have ht : s.pending.tail = rest := by rw [hp]; rfl
    have hh : s.pending.head? = some c := by rw [hp]; rfl
    rw [ht, hh]
    by_cases hc : ∃ p, c = .fwActivateRaiseFloor p
    · obtain ⟨p, rfl⟩ := hc
      obtain ⟨f, h1, h2, h3⟩ := execFwActivateRaiseFloor_kept p { s with pending := rest }
      exact ⟨f, h1, h2, fun _ => ⟨p, rfl⟩, h3.out t h⟩
    · refine ⟨s.fw.floor, BitVec.le_refl _, fun w => w.1, fun h => absurd rfl h, ?_⟩
      exact (exec_kept c { s with pending := rest } fun p e => hc ⟨p, e⟩).out t h

end Sys2Proof.Machine
end

