-- ==== Sys2Proof/WellFormed.lean ====
section
/-! DEFINITION. Which commands are well-formed: their operands name units and sizes that the spec has. -/

namespace Sys2Proof

/-- A packet of the host: ring 0 to 64, and at most 63 units after the header (spec/19 R366). -/
def Packet.wf (p : Packet) : Bool := decide (p.ring.toNat ≤ 64) && decide (p.extra.length ≤ 63)

/-- A flit carries at most 464 data bytes (spec/16 Table 16.1). -/
def Flit.wf (f : Flit) : Bool := decide (f.data.length ≤ 464)

/-- A register access of 4 or 8 bytes, naturally aligned (spec/19 R360). -/
def accessWf (offset size : Nat) : Bool := (size == 4 || size == 8) && offset % size == 0

/-- The units that a hard fault can name: 64 banks by their type, 6 pipelines (spec/15 R275). -/
def HardUnit.wf : HardUnit → Bool
  | .video p => decide (p.toNat < 6)
  | _ => true

/-- Which commands are well-formed. -/
def Instr.wf : Instr → Bool
  | .nop p | .echo p | .readInfo p | .objAlloc p | .objFree p | .objMigrate p | .objQuery p | .planLoad p | .planVerify p
  | .planStart p | .planCancel p | .stepBegin p | .stepCommit p | .streamArm p | .streamRearm p | .streamCancel p
  | .syncAlloc p | .syncSetSet p | .syncSetSignal p | .syncSetPoison p | .syncSetRevive p | .syncDump p | .syncRelease p
  | .cfgWriteShadow p | .cfgSwap p | .cfgRead p | .ctxCreate p | .ctxRetire p | .ctxPreempt p | .ctxResume p | .ctxReset p
  | .kvPoolGrant p | .kvPageEdit p | .kvSeqAbort p | .vidDecode p | .vidEncode p | .tcdConfigSet p | .tcdConfigClear p
  | .tcdConfigPoolAdd p | .healthRead p | .secureNowTake p | .secureNowDrain p | .secureNowUndrain p | .restanteCollect p
  | .fabRouteLoad p | .fabMembership p | .attest p | .fwStage p | .fwActivateSelect p | .fwActivateRaiseFloor p
  | .fwActivateKeep p | .pwrLimit p | .clkRequestGate p | .clkRequestUngate p | .clkRequestArith533 p
  | .clkRequestMem9600 p | .ageingReport p => p.wf
  | .hstDoorbell r _ | .cmdRcptHeadWrite r _ | .ringEnable r _ | .ringDisable r _ => decide (r.toNat ≤ 64)
  | .registerWrite o n _ _ => accessWf o.toNat n
  | .bar2Access w _ n d => !w || d.bytes.length == n
  | .fabricRead _ r => r.flit.wf
  | .unitHardFault u => u.wf
  | .videoJobStart p | .decodeFrameDone p | .encodePictureDone p | .videoJobComplete p | .pictureBoundary p =>
    decide (p.toNat < 6)
  | .flitReceive _ f _ | .fabricWrite _ f | .fabricAtomic _ f | .fabricSignal _ f | .readData _ f
  | .complete _ f | .fabricError _ f | .pathDown _ f | .redPart _ f | .gatherData _ f => f.wf
  | .ageingSample l => l.length == 128
  | .thermalSample m => m.clusters.length == 16
  | .memMarginMeasure m => m.belowAdvised.length == 192
  | .ringTurn | .w1cClear .. | .i3cPrivateWrite .. | .entdaa .. | .jtagInstruction .. | .ctlNop .. | .endThread .. | .alu .. | .alui ..
  | .cmp .. | .loopOpen .. | .endloop .. | .branch .. | .tag .. | .mma .. | .spill .. | .topk .. | .accz .. | .kid .. | .vadd ..
  | .vsub .. | .vmul .. | .vfma .. | .vmax .. | .vmin .. | .cvt .. | .scl .. | .rsum .. | .rmax .. | .ssq .. | .lds .. | .sts ..
  | .fnExp .. | .fnLog .. | .fnRcp .. | .fnRsq .. | .fnSqrt .. | .fnTanh .. | .fnSigm .. | .fnGelu .. | .fnSilu .. | .fnSin .. | .arm ..
  | .rearm .. | .cancel .. | .gather .. | .signalCount .. | .waitCount .. | .takeCount .. | .setCount .. | .poisonCount ..
  | .readCount .. | .drain .. | .drainClr .. | .drainRed .. | .enc .. | .dec .. | .engineOpStart .. | .engineOpComplete ..
  | .syncOpApply .. | .waiterEvaluate .. | .waitTimeout .. | .streamTileStart .. | .streamTileDone .. | .streamCancelDone ..
  | .gatherIndexIssue .. | .pageWalk .. | .pageWaitResume .. | .pageWaitTimeout .. | .passBoundary .. | .kidJobStart ..
  | .kidJobComplete .. | .codecJobStart .. | .codecJobComplete .. | .planEnd .. | .updateUnitSlice .. | .replayReq ..
  | .replayTimeout .. | .linkDownTimeout .. | .laneLockLoss .. | .portTrain .. | .trainTimeout .. | .txnTimeout ..
  | .reductionDeadline .. | .vote .. | .memberLost .. | .leave .. | .migrationFenceNotice .. | .migrationCommitNotice .. | .bindQuery ..
  | .migrationCopyStart .. | .migrationAckTimeout .. | .migrationCommit .. | .migrationRelease .. | .cfgSwapPoint | .cfgSwapTimeout
  | .riskCompute | .drainComplete | .powerControlPeriod .. | .idleWindow .. | .thermalShutdown | .clkReplanApply | .replanQuiesceTimeout
  | .memStepApply | .muxHung .. | .clockMonitorWindow .. | .rootPllLockLoss | .phyPllLockLoss | .controlWatchdog | .railTrip
  | .inputOutOfRange | .coolantAlert | .auxPowerGood .. | .powerOn .. | .powerOff | .warmResetAssert .. | .warmResetRelease ..
  | .xoStable | .xoTimeout | .pllLock | .pllLockTimeout | .startPhaseComplete .. | .phaseTimeout | .linkRetrain | .linkLoss
  | .linkReturn | .bindAnswer .. | .migrationPlaceQuery .. | .migrationPlaceAnswer .. | .auxPowerLoss | .enec | .xoAmplitudeDetect ..
  | .hdmDecoderCommit => true

end Sys2Proof
end

