-- ==== Sys2Proof/Tests/Slice0.lean ====
section
/-! SUPPORT. Tests: which commands are well-formed, and for every statement a state and operands that meet its hypotheses, clause by
clause. Expected values come from the rules, tables and examples of spec/. -/

namespace Sys2Proof.Tests

open Sys2Proof.Machine

set_option Elab.async false

/-! ### Small states and operands -/

/-- 256 parameter bits: each pair gives the lowest bit of a field and its value. -/
def fields (w : Nat) (l : List (Nat × Nat)) : BitVec w := BitVec.ofNat w (l.foldl (fun a x => a + x.2 * 2 ^ x.1) 0)

/-- A packet of ring `r` with the given parameter fields, for context 7. -/
def pkt (r : BitVec 7) (l : List (Nat × Nat)) : Packet :=
  { ring := r, tag := 0x1234, ctx := 7, seq := 5, notify := false, fence := false, param := fields 256 l, extra := [] }

/-- The module in phase READY, power state IDLE, with its links up. -/
def up : State :=
  { State.reset with life := { Life.init with power := .idle, phase := .ready, linkUp := true, hdmOn := true, pllLocked := true },
                     timeOn := true, postmark := 100, modId := some 1 }

/-- Context 7 in slot 0 of the module that is up. -/
def inCtx (f : Ctx → Ctx) : State := modSlot up 0 fun x => { x with ctx := some (f (newCtx up 0 7)), key := some 0, gen := 1 }

/-- A home of 4,096 bytes in host memory, and one in the LPDDR6 of this module. -/
def hostObj : Obj :=
  { isBind := false, homeMod := 1, tier := 2, off := 0x10000, size := 4096, spread := 0, sgrp := 0, part := 0, cache := false,
    state := .homed, binders := [], fenced := false, mig := none }
def lpObj : Obj := { hostObj with tier := 0, off := 0x4000 }

/-- A running plan on core 0. -/
def planRun : Running :=
  { number := 15, pkt := pkt 0 [], seed := 0, steps := false, startVid := 0, sendVid := 0, endVid := 0,
    placed := [{ lcl := 0, lcore := 0, core := 0 }], working := [], begun := 0, rawFallback := false, tableChanged := false,
    ending := none, cancelPkts := [], fault := none }

/-- A flit of operation `op` from module 2 to module 1, for context 7. -/
def flit (op : BitVec 8) (addr arg : BitVec 64) (data : List Byte) : Flit :=
  { link := { seq := 0, ack := 0, ackV := false, kind := 0, vc := 0, rsv := 0, cr3 := 0, cr2 := 0, cr1 := 0, cr0 := 0 },
    txn := { op := op, srcMod := 2, dstMod := 1, txn := 3, epoch := 0, ctx := 7, len := BitVec.ofNat 9 data.length, fidx := 0,
             last := true, hops := 0, status := 0, sub := 0, rsv := 0, addr := addr, arg := arg },
    data := data, crc := 0 }

/-! ### Well-formed commands -/

theorem test_wf_ring : (Instr.nop (pkt 65 [])).wf = false ∧ (Instr.nop (pkt 64 [])).wf = true := by decide +kernel
theorem test_wf_units : (Instr.echo { pkt 0 [] with extra := List.replicate 64 0 }).wf = false ∧
    (Instr.echo { pkt 0 [] with extra := List.replicate 63 0 }).wf = true := by decide +kernel
theorem test_wf_doorbell : (Instr.hstDoorbell 65 0).wf = false ∧ (Instr.ringEnable 65 0).wf = false ∧
    (Instr.ringDisable 65 0).wf = false ∧ (Instr.cmdRcptHeadWrite 65 0).wf = false ∧ (Instr.hstDoorbell 64 0).wf = true := by decide +kernel
theorem test_wf_register : (Instr.registerWrite 0x4004 8 0 false).wf = false ∧ (Instr.registerWrite 0x4000 2 0 false).wf = false ∧
    (Instr.registerWrite 0x4004 4 0 false).wf = true := by decide +kernel
theorem test_wf_bar2 : (Instr.bar2Access true 0 2 ⟨[1], []⟩).wf = false ∧ (Instr.bar2Access true 0 1 ⟨[1], []⟩).wf = true ∧
    (Instr.bar2Access false 0 2 ⟨[], []⟩).wf = true := by decide +kernel
theorem test_wf_units_of_faults : (Instr.unitHardFault (.video 6)).wf = false ∧ (Instr.unitHardFault (.video 5)).wf = true := by decide +kernel
theorem test_wf_pipe : (Instr.videoJobStart 6).wf = false ∧ (Instr.decodeFrameDone 7).wf = false ∧
    (Instr.encodePictureDone 6).wf = false ∧ (Instr.videoJobComplete 6).wf = false ∧ (Instr.pictureBoundary 6).wf = false ∧
    (Instr.pictureBoundary 5).wf = true := by decide +kernel
theorem test_wf_flit : (Instr.fabricRead 0 ⟨flit 1 0 8 (List.replicate 465 0), []⟩).wf = false ∧
    (Instr.fabricRead 0 ⟨flit 1 0 8 (List.replicate 464 0), []⟩).wf = true := by decide +kernel
theorem test_wf_ageing : (Instr.ageingSample (List.replicate 127 0)).wf = false ∧
    (Instr.ageingSample (List.replicate 128 0)).wf = true := by decide +kernel
theorem test_wf_thermal : (Instr.thermalSample { base := 0, clusters := List.replicate 15 0, coolFor1s := true }).wf = false ∧
    (Instr.thermalSample { base := 0, clusters := List.replicate 16 0, coolFor1s := true }).wf = true := by decide +kernel
theorem test_wf_margin :
    (Instr.memMarginMeasure { belowAdvised := List.replicate 191 false, belowForced := false, linkEccHigh := false }).wf = false ∧
    (Instr.memMarginMeasure { belowAdvised := List.replicate 192 false, belowForced := false, linkEccHigh := false }).wf = true := by
  decide +kernel

/-! ### The queue and the tick -/

/-- Slot 0 of the module that is up holds a plan of which thread 1 of core 0 has faulted with RSV_ENC. -/
def faulted : State := inCtx fun c => { c with run := some { planRun with fault := some { core := 0, thread := 1, code := 1, at_ := 0 } } }

theorem wit_IdleStepTicks :
    up.pending = [] ∧ (∀ n, n < 64 → faultDue up n = false) ∧ faulted.pending = [] ∧ faultDue faulted 0 = true ∧
      (∀ n, n < 64 → n ≠ 0 → faultDue faulted n = false ∧ faultDue (endPlan faulted 0 0x0400 0 0) n = false) := by
  decide +kernel

/-! ### Basic commands -/

theorem wit_BasicCommandsAnswer :
    Accepts (pkt 64 [(192, 0x40)]) up ∧ bits (pkt 64 [(192, 0x40)]).param 192 64 % 64 = 0 ∧
      bits (pkt 64 [(192, 0x40)]).param 0 192 = 0 ∧
    Accepts (pkt 64 [(192, 0x40), (176, 1)]) up ∧ bits (pkt 64 [(192, 0x40), (176, 1)]).param 176 16 ≠ 0 ∧
      bits (pkt 64 [(192, 0x40), (176, 1)]).param 0 144 = 0 ∧ (pkt 64 [(192, 0x40), (176, 1)]).ring.toNat = 64 := by
  unfold Accepts; decide +kernel

/-! ### Objects -/

theorem wit_ObjectCommandsAnswer_alloc :
    let p := pkt 0 [(224, 1), (210, 1), (208, 2), (144, 4096), (64, 0x10000)]
    let s := inCtx id
    Accepts p s ∧ pktSlot s p = some 0 ∧ allocReserved p.param = false ∧ allocAtBad s p.param = false ∧ paKind p.param = 0 ∧
      paSize p.param ≠ 0 ∧ idTaken s 0 (paObj p.param) = false ∧ paMod p.param = modIdOf s ∧
      (paTier p.param = 2 → paAddr p.param % 4096 = 0 ∧ paAddr p.param < 2 ^ 48) ∧
      (paTier p.param = 1 → partAllowed s 0 (paPart p.param) = true) ∧ tablesFull s 0 = false ∧
      choosePlace s p.param (paSize p.param) = some 0x10000 := by
  unfold Accepts; decide +kernel

/-- A bind entry for the home on module 2, and a page of LPDDR6 to retire. -/
theorem wit_ObjectCommandsAnswer_bind_retire :
    let p := pkt 0 [(224, 1), (210, 2), (206, 1), (64, 77)]
    let q := pkt 0 [(224, 0xFFFEFFFF), (206, 2), (85, 191), (64, 4095)]
    let s := inCtx id
    Accepts p s ∧ pktSlot s p = some 0 ∧ allocReserved p.param = false ∧ allocAtBad s p.param = false ∧ idTaken s 0 (paObj p.param) = false ∧
      paKind p.param = 1 ∧ paSize p.param = 0 ∧ paMod p.param ≠ modIdOf s ∧ tablesFull s 0 = false ∧
    Accepts q s ∧ pktSlot s q = some 0 ∧ allocReserved q.param = false ∧ allocAtBad s q.param = false ∧ idTaken s 0 (paObj q.param) = false ∧
      paKind q.param = 2 ∧ paSize q.param = 0 ∧ bits q.param 85 8 ≤ 191 ∧ bits q.param 64 21 < lpCapacity s / 192 / 4096 ∧
      allHomes s = [] ∧ s.retiredPages = [] := by
  unfold Accepts; decide +kernel

theorem wit_ObjectCommandsAnswer_free_query :
    let p := pkt 0 [(224, 1)]
    let q := pkt 0 [(224, 1), (128, 64)]
    let s := inCtx fun c => { c with objs := [(1, hostObj)] }
    Accepts p s ∧ pktSlot s p = some 0 ∧ objOf s 0 (bits p.param 224 32) = some hostObj ∧ bits p.param 0 224 = 0 ∧ hostObj.mig = none ∧
      hostObj.fenced = false ∧
      planNames s 0 (bits p.param 224 32) = false ∧ groupsName s 0 (bits p.param 224 32) = false ∧
    Accepts q s ∧ pktSlot s q = some 0 ∧ objOf s 0 (bits q.param 224 32) = some hostObj ∧ bits q.param 128 64 % 64 = 0 ∧
      bits q.param 0 128 = 0 ∧ bits q.param 192 32 = 0 := by
  unfold Accepts; decide +kernel

theorem wit_BindsComplete_query :
    let s := inCtx fun c => { c with objs := [(1, { hostObj with binders := List.replicate 255 9 })] }
    let t := inCtx fun c => { c with objs := [(1, { hostObj with binders := List.replicate 256 9 }), (2, { hostObj with isBind := true })] }
    slotOfIdent s 7 = some 0 ∧ objOf s 0 1 = some { hostObj with binders := List.replicate 255 9 } ∧ hostObj.isBind = false ∧
      (List.replicate 255 (9 : BitVec 14)).length < 256 ∧
    slotOfIdent t 7 = some 0 ∧ objOf t 0 3 = none ∧ objOf t 0 2 = some { hostObj with isBind := true } ∧
      objOf t 0 1 = some { hostObj with binders := List.replicate 256 9 } ∧ 256 ≤ (List.replicate 256 (9 : BitVec 14)).length := by
  decide +kernel

theorem wit_BindsComplete_answer :
    let p := pkt 0 [(224, 3), (64, 3)]
    let s := inCtx fun c => { c with bindPkts := [p] }
    slotOfIdent s 7 = some 0 ∧ ((ctxOf s 0).map fun c => c.bindPkts.find? fun p => paAddr p.param % 2 ^ 32 == 3) = some (some p) ∧
      idTaken (inCtx id) 0 (paObj p.param) = false ∧ tablesFull (inCtx id) 0 = false := by
  decide +kernel

/-- OBJ_MIGRATE of object 1 from host memory to another host address. -/
def migPkt : Packet := pkt 0 [(224, 1), (210, 1), (208, 2), (64, 0x20000)]

/-- A migration of `hostObj` that has been placed at 0x20000. -/
def mig : Migration :=
  { pkt := migPkt, newMod := 1, newTier := 2, newOff := 0x20000, newSpread := 0, newSgrp := 0, newPart := 0, placed := true,
    unacked := [9], lostBind := false }

theorem wit_MigrationsRun_start :
    let s := inCtx fun c => { c with objs := [(1, hostObj)] }
    let p := migPkt
    let q := pkt 0 [(224, 1), (210, 5), (208, 2), (64, 0x20000)]
    Accepts q s ∧ pktSlot s q = some 0 ∧ paObj q.param = 1 ∧ allocReserved q.param = false ∧ paKind q.param = 0 ∧ paSize q.param = 0 ∧
      paZero q.param = false ∧ paCache q.param = false ∧ (paTier q.param = 2 → paAddr q.param % 4096 = 0 ∧ paAddr q.param < 2 ^ 48) ∧
      paMod q.param ≠ modIdOf s ∧ atBad q.param = false ∧ hostObj.state ≠ .lost ∧
    Accepts p s ∧ pktSlot s p = some 0 ∧ objOf s 0 1 = some hostObj ∧ paObj p.param = 1 ∧ allocReserved p.param = false ∧
      allocAtBad s p.param = false ∧ paKind p.param = 0 ∧ paSize p.param = 0 ∧ paZero p.param = false ∧ paCache p.param = false ∧
      (paTier p.param = 2 → paAddr p.param % 4096 = 0 ∧ paAddr p.param < 2 ^ 48) ∧ inWindow s hostObj = false ∧
      heldByKv s 0 1 = false ∧ paMod p.param = modIdOf s ∧ (paTier p.param = 1 → partAllowed s 0 (paPart p.param) = true) ∧
      (choosePlace s p.param hostObj.size).isSome = true := by
  unfold Accepts; decide +kernel

theorem wit_MigrationsRun_events :
    let o : Obj := { hostObj with state := .fencing, fenced := true, mig := some mig }
    let q : Obj := { o with mig := some { mig with placed := false } }
    let r : Obj := { o with state := .copying, size := 16 }
    let s := inCtx fun c => { c with objs := [(1, o), (2, q), (3, r)] }
    objOf s 0 1 = some o ∧ o.mig = some mig ∧ mig.placed = true ∧ writesInFlight s 0 1 = false ∧ 9 ∈ mig.unacked ∧
    objOf s 0 2 = some q ∧ q.mig = some { mig with placed := false } ∧
    objOf s 0 3 = some r ∧ r.mig = some mig ∧ r.state = .copying ∧
      (readObj s 0 { r with state := .homed } 0 r.size).bad = [] ∧ (ctxOf s 0).isSome = true := by
  decide +kernel

theorem wit_MigrationsRun_notices :
    let b : Obj := { hostObj with isBind := true, homeMod := 5, off := 0x7000 }
    let s := inCtx fun c => { c with objs := [(4, b)] }
    let req : PlaceReq := { param := (pkt 0 [(224, 1), (210, 1), (208, 2), (64, 0x20000)]).param, size := 16, cache := false,
                            home := fields 64 [(50, 9), (48, 2), (0, 0x3000)], binders := [1, 2] }
    let q : Obj := { hostObj with off := 0x9000 }
    let t := inCtx fun c => { c with incoming := [(6, 5, q)] }
    slotOfIdent s 7 = some 0 ∧ (∃ c, ctxOf s 0 = some c ∧ c.incoming = [] ∧ tget c.objs 4 = some b) ∧ b.isBind = true ∧
    slotOfIdent t 7 = some 0 ∧ ((ctxOf t 0).map (·.incoming)) = some [(6, 5, q)] ∧ homeAddr q = fields 64 [(50, 1), (48, 2), (0, 0x9000)] ∧
    bindFor s 0 req.home = none ∧ idTaken s 0 (paObj req.param) = false ∧
    allocReserved req.param = false ∧ allocAtBad s req.param = false ∧ paMod req.param = modIdOf s ∧
      (paTier req.param = 1 → partAllowed s 0 (paPart req.param) = true) ∧ tablesFull s 0 = false ∧
      choosePlace s req.param req.size = some 0x20000 := by
  refine ⟨by decide +kernel, ⟨_, rfl, rfl, rfl⟩, ?_⟩
  decide +kernel

/-! ### Counters -/

/-- A LIVE counter of slot 0. -/
def live (n : Word) : Counter :=
  { count := n, state := .live, leased := false, owner := 0x100, slot := 0, last := 0, added := 0 }

/-- Core 0 with thread 1 READY, holding for the result of operation 4. -/
def holding (s : State) : State :=
  modCore s 0 fun c => setThread { c with slot := some 0 } 1 { Thread.init with state := .ready, hold := .result 4 }

theorem wit_SyncOpApplies :
    let r : SyncReq := { pid := 0xFFFF, slot := 0, op := .signal, value := 1, src := .firmware }
    let c : Counter := { live 0 with count := BitVec.allOnes 64 }
    let s := { inCtx id with counters := [(0xFFFF, c)], syncQ := vset up.syncQ 15 [r] }
    ready s = true ∧ vget s.syncQ 15 [] = [r] ∧ counterOf s r.pid.toNat = some c ∧ c.slot = r.slot ∧ r.op ≠ .revive ∧
      (r.op = .take → c.leased = false) := by
  decide +kernel

/-- A TAKE of a leased counter with a free lease, and with none; and an operation on a counter that is gone. -/
theorem wit_SyncOpApplies_leased_gone :
    let r : SyncReq := { pid := 5, slot := 0, op := .take, value := 1, src := .thread 0 1 4 2 0 none }
    let c : Counter := { live 3 with leased := true }
    let l : Lease := { pid := 5, value := 0, holder := some ⟨3, 3⟩ }
    let s := { holding (inCtx id) with counters := [(5, c)], syncQ := vset up.syncQ 0 [r] }
    let t := { s with leases := vset up.leases 0 (List.replicate 512 l) }
    let s1 := { s with syncQ := vset s.syncQ 0 [] }
    ready s = true ∧ vget s.syncQ 0 [] = [r] ∧ counterOf s 5 = some c ∧ c.slot = r.slot ∧ c.leased = true ∧ c.state ≠ .poisoned ∧
      (applySync s r).isSome = true ∧ ((leaseTake s1 5 c ⟨0, 1⟩).map (·.2)) = some 3 ∧
    ready t = true ∧ vget t.syncQ 0 [] = [r] ∧ (applySync t r).isNone = true ∧
    counterOf { s with counters := [] } r.pid.toNat = none := by
  decide +kernel

theorem wit_SyncResultsReachThread :
    let req := fun (op : SyncOp) (v : Word) => SyncReq.mk 5 0 op v (.thread 0 1 4 2 0 none)
    let s := fun (r : SyncReq) (c : Counter) => { holding (inCtx id) with counters := [(5, c)], syncQ := vset up.syncQ 0 [r] }
    (threadOf (coreOf (s (req .take 1) (live 3)) 0) 1).hold = .result 4 ∧ ready (s (req .take 1) (live 3)) = true ∧
    (∀ x, x ∈ [(req .take 1, live 3), (req .read 0, live 3), (req .wait 3, live 3), (req .wait 4, { live 3 with state := .poisoned })] →
      vget (s x.1 x.2).syncQ 0 [] = [x.1] ∧ counterOf (s x.1 x.2) x.1.pid.toNat = some x.2 ∧ x.2.slot = x.1.slot ∧
      x.2.leased = false) ∧ (3 : Word) ≤ (live 3).count := by
  decide +kernel

theorem wit_WaitersWake :
    let w : Waiter := { cluster := 0, kind := .thread 0 1 4 2 none, pid := 5, slot := 0, target := 3, timeout := some 800, since := 0,
                        expired := false }
    let s := fun (v : Option Word) => { holding (inCtx id) with waiters := [w], counts := [CountMsg.mk 0 5 v], counters := [(5, live 2)] }
    let ok := fun v => ready (s v) = true ∧ frozenSlot (s v) w.slot.toNat = false ∧ (threadOf (coreOf (s v) 0) 1).hold = .result 4
    ok (some 2) ∧ ok (some 3) ∧ ok none ∧
    (2 : Word) < w.target ∧ w.target ≤ (3 : Word) ∧ w.timeout.isSome = true ∧ counterOf (s none) w.pid.toNat = some (live 2) ∧
      (live 2).count < w.target ∧
    (s none).counts.find? (fun m => m.cluster == 1) = none ∧ frozenSlot (preempt (s none) 0) 0 = true ∧
      ((preempt (s none) 0).waiters, w.expired, counterOf (preempt (s none) 0) 5) = ([w], false, some { live 2 with state := .frozen }) := by
  decide +kernel

theorem wit_CounterCommandsAnswer_set :
    let p := fun op => pkt 0 [(236, 9), (234, op), (170, 77)]
    let s := { inCtx id with counters := [(0x1005, live 3)],
                             setA := { ConfigSet.init with sync := vset ConfigSet.init.sync 0 [(0, fields 64 [(44, 9), (31, 1), (0, 0x1005)])] } }
    (∀ op, op < 4 → Accepts (p op) s ∧ pktSlot s (p op) = some 0 ∧ bits (p op).param 0 170 = 0 ∧ bits (p op).param 234 2 = op ∧
      translate s 0 (bits (p op).param 236 20) = .here 0x1005) ∧ counterOf (applyWaiting s 0x1005) 0x1005 = some (live 3) ∧
      (live 3).slot = 0 ∧ (clusterOf (applyWaiting s 0x1005) (pidCluster 0x1005)).syncFenced = false := by
  unfold Accepts; decide +kernel

theorem wit_CounterCommandsAnswer_alloc :
    let p := pkt 0 [(236, 0xFF000), (223, 4096), (218, 15), (193, 0x100), (129, 1)]
    let s := inCtx id
    Accepts p s ∧ pktSlot s p = some 0 ∧ bits p.param 0 129 = 0 ∧ saCluster p.param < 16 ∧ saOwner p.param = 0x100 ∧
      saRemote p.param = false ∧ saMod p.param = 0 ∧ 0 < saCount p.param ∧ saCount p.param ≤ 4096 ∧
      saVbase p.param + saCount p.param ≤ 2 ^ 20 ∧ rangesOf (cfgOf s) 0 = [] ∧ rangesOf (shadowOf s) 0 = [] ∧
      (clusterOf s (saCluster p.param)).syncFenced = false ∧ chooseRun s (saCluster p.param) (saCount p.param) = some 0xF000 := by
  unfold Accepts; decide +kernel

theorem wit_CounterCommandsAnswer_release_dump :
    let e := (0, fields 64 [(44, 9), (31, 1), (0, 0x1005)])
    let p := pkt 0 [(236, 9), (223, 1)]
    let q := pkt 0 [(192, 64), (160, 128), (127, 1)]
    let s := { inCtx id with counters := [(0x1005, live 3)],
                             setA := { ConfigSet.init with sync := vset ConfigSet.init.sync 0 [e] } }
    Accepts p s ∧ pktSlot s p = some 0 ∧ rangesOf (cfgOf s) 0 = [e] ∧ rngBase e.2 = bits p.param 236 20 ∧
      rngCount e.2 = bits p.param 223 13 ∧ bits p.param 0 223 = 0 ∧ rngRemote e.2 = false ∧
      rangeBusy s 0 (rngBase e.2) (rngCount e.2) (rngPid e.2) = false ∧
    Accepts q s ∧ pktSlot s q = some 0 ∧ bits q.param 192 64 % 64 = 0 ∧ 128 ≤ bits q.param 160 32 ∧ bits q.param 0 127 = 0 := by
  unfold Accepts; decide +kernel

/-! ### Plans -/

/-- A program image of one logical core with one thread, whose program is END. -/
def planBody : List Byte :=
  leBytes 4 0x7E7A0007 ++ leBytes 2 0x0201 ++ leBytes 2 3 ++ leBytes 4 448 ++ leBytes 2 1 ++ [1, 0] ++ leBytes 16 1 ++
  List.replicate 160 0

/-- The directory, the THREAD and PROGRAM records and the empty OPMAP section. -/
def planRecs : List Byte :=
  [0x01, 0] ++ leBytes 2 64 ++ leBytes 4 1 ++ leBytes 4 320 ++ leBytes 4 64 ++
  [0x02, 0] ++ leBytes 2 0 ++ leBytes 4 1 ++ leBytes 4 384 ++ leBytes 4 32 ++
  [0x0D, 0] ++ leBytes 2 16 ++ leBytes 4 0 ++ leBytes 4 448 ++ leBytes 4 0 ++ List.replicate 16 0 ++
  List.replicate 64 0 ++ leBytes 16 0x100000000 ++ leBytes 8 0x0100000000000000 ++ List.replicate 40 0

/-- The image, with the SHAKE256 digest of its other bytes. -/
def planImg : List Byte :=
  planBody ++ leBytes 64
    0x1ee3cd3ba8e132761696fdf6cfff32008d5dc4fcd22006ffb378c4162dfd4ad0957fed07116c1b5119d75eb92c4db01b21a64f165ba0521958e0116ec845fa7b ++
  planRecs

/-- Context 7 with the image in the host memory that object 1 names. -/
def planState : State :=
  let tag : LineTag := { modId := 1, slot := 0, gen := 1, key := 0, bad := false }
  { inCtx (fun c => { c with objs := [(1, hostObj)] }) with hostMem := Mem.write [] 0x10000 planImg,
                                                             hostLines := [(0x100, tag), (0x101, tag)] }

theorem wit_PlanLoadsAndVerifies_read :
    let p := pkt 0 [(224, 1), (144, 448), (140, 15)]
    Accepts p planState ∧ pktSlot planState p = some 0 ∧ loadBad planState 0 p = false ∧ plNum p.param = 15 ∧
      readObjAt planState 0 (plObj p.param) (plOff p.param) (plSize p.param) = some { bytes := planImg, bad := [] } ∧
      plSize p.param = 448 ∧ runNumber planState 0 ≠ some (plNum p.param) := by
  unfold Accepts; decide +kernel

-- X theorem wit_PlanLoadsAndVerifies_verdict : verdict planState 0 planImg 448 = none := by decide +kernel

/-- The image as a loaded plan, and context 7 that holds it. -/
def planEntry : Plan :=
  { image := planImg, digest := hdrDigest planImg, judged := { cfg := ConfigSet.init, fences := [], objs := [], held := [] } }
def planHeld (f : Ctx → Ctx) : State := inCtx fun c => f { c with plans := [(15, planEntry)] }

theorem wit_PlanStartsAndEnds_start :
    let p := pkt 0 [(252, 15), (251, 1)]
    let s := planHeld id
    let pl := planEntry
    Accepts p s ∧ pktSlot s p = some 0 ∧ stepHeld s 0 = false ∧ bits p.param 0 128 = 0 ∧ bits p.param 192 59 = 0 ∧
      bit p.param 251 = true ∧ ((ctxOf s 0).bind fun c => tget c.plans (bits p.param 252 4)) = some pl ∧
      ((ctxOf s 0).bind (·.run)) = none ∧ drainedNow s = false ∧ startVerdict s 0 pl = none ∧
      (placePlan s pl.image (takenClusters s 0)).toOption = some [{ lcl := 0, lcore := 0, core := 0 }] ∧
      (allocWorks s 0 (workObjs s 0 pl.image)).isSome = true := by
  unfold Accepts; decide +kernel

theorem wit_PlanStartsAndEnds_cancel_end :
    let p := pkt 0 []
    let s := planHeld fun c => { c with run := some planRun }
    Accepts p s ∧ pktSlot s p = some 0 ∧ bits p.param 0 256 = 0 ∧ ((ctxOf (planHeld id) 0).bind (·.run)) = none ∧
      ((ctxOf s 0).bind (·.run)) = some planRun ∧ planDone s 0 planRun = true ∧
      ((ctxOf (finishPlan s 0 planRun) 0).map (·.ctxQ)) = some [] := by
  unfold Accepts; decide +kernel

/-- PLAN_END: the plan above has ended its work; with core 0 still busy, and with a faulted thread, it has not; one with a pass open over
no fenced table; and one whose context has a reset waiting. -/
theorem wit_PlanStartsAndEnds_settle :
    let u := fun s => lateSeqs (settleFault s 0) 0
    let s := fun (f : Ctx → Ctx) => planHeld fun c => f { c with run := some planRun }
    let b := modCore (s id) 0 fun c => setThread { c with slot := some 0 } 3 { Thread.init with state := .ready }
    let q := s fun c => { c with ctxQ := [(.reset, pkt 64 [])] }
    (((ctxOf (u (s id)) 0).bind (·.run)) = some planRun ∧ planDone (u (s id)) 0 planRun = true ∧ openPasses (u (s id)) 0 = false) ∧
    (((ctxOf (u b) 0).bind (·.run)) = some planRun ∧ planDone (u b) 0 planRun = false) ∧
    ((ctxOf (u faulted) 0).bind (·.run)).any (·.ending.isSome) = true ∧
    (planDone (u q) 0 planRun = true ∧ ((ctxOf (finishPlan (u q) 0 planRun) 0).map (·.ctxQ)) = some [(.reset, pkt 64 [])]) ∧
    ready (s id) = true ∧ ((ctxOf (planHeld id) 0).bind (·.run)) = none := by
  decide +kernel

/-! ### Contexts and configuration sets -/

theorem wit_ContextIsCreated :
    let p := { pkt 64 [(249, 63)] with ctx := 0xFFFE }
    p.ring = 64 ∧ ready up = true ∧ p.ctx ≠ 0xFFFF ∧ slotOfIdent up p.ctx = none ∧ bit p.param 255 = false ∧
      bits p.param 249 6 = 63 ∧ bits p.param 0 249 = 0 ∧ ctxOf up 63 = none := by
  decide +kernel

theorem wit_ContextFreezesAndThaws :
    let p := pkt 64 []
    let s := { holding (inCtx id) with counters := [(5, live 3)] }
    let t := inCtx fun c => { c with preempted := true }
    ready s = true ∧ slotOfIdent s p.ctx = some 0 ∧ ((ctxOf s 0).map fun c => (c.ctxQ, c.preempted)) = some ([], false) ∧
      bits p.param 0 256 = 0 ∧ (coreOf s 0).slot = some 0 ∧ (coreOf s 1).slot ≠ some 0 ∧ counterOf s 5 = some (live 3) ∧
      (live 3).slot.toNat = 0 ∧ (live 3).state = .live ∧
    ready t = true ∧ slotOfIdent t p.ctx = some 0 ∧ ((ctxOf t 0).map fun c => (c.ctxQ, c.preempted)) = some ([], true) := by
  decide +kernel

theorem wit_ContextResetsAndRetires :
    let s := inCtx id
    ready s = true ∧ slotOfIdent s 7 = some 0 ∧ ((ctxOf s 0).map (·.ctxQ)) = some [] ∧ bits (pkt 64 []).param 0 256 = 0 ∧
      ((ctxOf (resetCtx s 0) 0).bind (·.run)) = none ∧ (ctxOf s 0).isSome = true := by
  decide +kernel

theorem wit_ConfigurationSetsAct_entries :
    let p := pkt 64 [(248, 5), (242, 63), (128, 1), (0, 0x07D0100018000000)]
    let q := pkt 64 [(248, 5), (242, 63), (128, 1), (64, 8)]
    ready up = true ∧ writeFieldBad p.param = false ∧ cfObj p.param = 0 ∧ cfItem p.param ≠ 9 ∧ up.swap = none ∧
      entryOk up (cfItem p.param) (cfSlot p.param) (BitVec.ofNat 64 (cfValue p.param)) = true ∧
      setOk (putItem (shadowOf up) (cfItem p.param) (cfSlot p.param) (cfIndex p.param) (BitVec.ofNat 64 (cfValue p.param)))
        (cfItem p.param) (cfSlot p.param) = true ∧
    cfgFieldBad q.param = false ∧ cfObj q.param = 0 ∧ cfAddr q.param % 8 = 0 := by
  decide +kernel

theorem wit_ConfigurationSetsAct_swap :
    let p := pkt 64 [(224, 0xFFFFFFFF)]
    let x : Swap := { pkt := p, timeout := 1 }
    let s := { up with swap := some x }
    ready up = true ∧ bits p.param 0 224 = 0 ∧ up.swap = none ∧ ready s = true ∧ swapPoint s = true ∧ changedParts s = [] ∧
      x.timeout ≠ 0 := by
  decide +kernel

/-! ### Firmware -/

theorem wit_FirmwareCommandsAnswer_stage :
    let s := planState
    let p := pkt 64 [(224, 1), (144, 1)]
    ready s = true ∧ bits p.param 0 144 = 0 ∧ bits p.param 176 48 % 4096 = 0 ∧ bits p.param 144 32 ≠ 0 ∧
      bits p.param 144 32 ≤ 16777216 ∧
      mgmtRead s none (bits p.param 224 32) (bits p.param 176 48) (bits p.param 144 32) = some { bytes := [0x07], bad := [] } := by
  refine ⟨by decide +kernel, by decide +kernel, by decide +kernel, by decide +kernel, by decide +kernel, ?_⟩
  have h : holders planState (bits (pkt 64 [(224, 1), (144, 1)]).param 224 32) = [0] := by decide +kernel
  simp only [mgmtRead, mgmtHolder, h, List.length_singleton, Nat.mod_one, List.getElem?_cons_zero]; decide +kernel

theorem wit_FirmwareCommandsAnswer_activate :
    let s := { up with fw := { Firmware.init with staged := some 64, floor := 63 } }
    (∀ op, op < 3 → bits (pkt 64 [(254, op)]).param 0 254 = 0 ∧ bits (pkt 64 [(254, op)]).param 254 2 = op) ∧ ready s = true ∧
      s.fw.staged.isSome = true ∧
    Accepts (pkt 0 [(192, 64), (64, 5)]) (inCtx id) ∧ pktSlot (inCtx id) (pkt 0 [(192, 64), (64, 5)]) = some 0 ∧
      bits (pkt 0 [(192, 64), (64, 5)]).param 192 64 % 64 = 0 ∧ bits (pkt 0 [(192, 64), (64, 5)]).param 0 64 = 0 := by
  unfold Accepts; decide +kernel

/-! ### Power, clocks and ageing -/

/-- One reading of the power sensors with the given mean of 10 ms. -/
def watts (w : Nat) : PowerSample :=
  { watts := w, watts10ms := w, vin := 0, iin := 0, vaux := 0, inlet := 0, outlet := 0 }

/-- Junction readings of the given hottest temperature. -/
def temps (t : Int) : ThermalSample := { base := t, clusters := List.replicate 16 t, coolFor1s := false }

theorem wit_PowerAndThermalLimitsAct_power :
    let s := { up with age := { up.age with kPower := 63 } }
    (∀ l, l ∈ [300, 750] → bits (pkt 64 [(246, l)]).param 0 246 = 0 ∧ bits (pkt 64 [(246, l)]).param 246 10 = l) ∧ ready up = true ∧
      up.life.auxGood = true ∧ ¬(up.age.kPower = 63 ∧ limitOf up < (watts 751).watts10ms) ∧
      ¬(s.age.kPower = 63 ∧ limitOf s < (watts 750).watts10ms) ∧
    s.life.auxGood = true ∧ ready s = true ∧ s.age.kPower = 63 ∧ limitOf s < (watts 751).watts10ms ∧ (255 : BitVec 8).toNat < 256 := by
  decide +kernel

theorem wit_PowerAndThermalLimitsAct_thermal :
    let s := fun k => { up with age := { up.age with kThermal := k } }
    ready (s 1) = true ∧ (s 1).life.power ≠ .off ∧ (92 * 16 ≤ hottest (temps (92 * 16)) ∧ hottest (temps (92 * 16)) < 95 * 16) ∧
      (hottest (temps (92 * 16 - 1)) < 92 * 16 ∧ 0 < (s 1).age.kThermal) ∧
      (95 * 16 < hottest (temps (95 * 16 + 1)) ∧ (s 62).age.kThermal < 63) := by
  decide +kernel

theorem wit_ClockRequestsAnswer :
    let p := fun op => pkt 64 [(253, op)]
    ready up = true ∧ (∀ op, op < 4 → bits (p op).param 0 241 = 0 ∧ crOp (p op).param = op ∧ nodeOk (p op).param = true) ∧
      nodeInUse up (p 0).param = false ∧ up.age.clkSlow = false ∧ up.age.clkPend = none ∧ up.age.memSlow = false ∧
      up.age.memPend = none := by
  decide +kernel

theorem wit_ReplansAndAgeingAct :
    let r : Replan := { pkt := none, forced := true }
    let s := { up with age := { up.age with clkPend := some r, memPend := some r } }
    ready s = true ∧ s.age.clkPend = some r ∧ quiescent s = true ∧ sourceBad s .rootPll = false ∧
      sourceBad s (.divider .arith) = false ∧ s.age.memPend = some r ∧ r.forced = true ∧
    (∀ l, l ∈ [14, 39, 40, 59, 60] → (List.replicate 128 (l : Int)).min? = some l) ∧ 550 ≤ up.age.vddMv ∧ up.age.vddMv ≤ 620 ∧
      up.age.clkSlow = false ∧ up.age.memSlow = false ∧ (pkt 64 []).ring.toNat ≤ 64 ∧ bits (pkt 64 []).param 192 64 % 64 = 0 ∧
      bits (pkt 64 []).param 0 192 = 0 ∧ vddAon up = true := by
  decide +kernel

theorem wit_FaultsStopUnits :
    let s := { up with life := { up.life with phase := .clocks, power := .start } }
    ready up = true ∧ vddAon up = true ∧ up.life.power ≠ .off ∧ (clusterOf up 15).syncFenced = false ∧ (5 : BitVec 3).toNat < 6 ∧
      (portOf up 15).unitsOut = false ∧ inPhase s .clocks = true := by
  decide +kernel

/-! ### Start-up, resets and management -/

/-- The module with its start-up machine changed. -/
def lifeIs (f : Life → Life) : State := { State.reset with life := f Life.init }

theorem wit_PowerAndResetsAct :
    (lifeIs fun l => { l with auxGood := false }).life.auxGood = false ∧ State.reset.life.auxGood = true ∧
    (let s := lifeIs fun l => { l with pwrEn := false, power := .off }
     s.life.auxGood = true ∧ s.life.pwrEn = false ∧ s.life.modResetLow = false ∧ s.life.perstLow = false) ∧
    (up.life.power ≠ .off ∧ up.life.power ≠ .resetHold) ∧
    (let s := lifeIs fun l => { l with power := .resetHold, modResetLow := true }
     s.life.power = .resetHold ∧ (s.life.modResetLow = false ∨ ResetPin.modResetN = .modResetN) ∧
       (s.life.perstLow = false ∨ ResetPin.modResetN = .perstN)) := by
  decide +kernel

theorem wit_StartUpRuns :
    (clocksStart State.reset = true ∧ State.reset.life.xoStable = false) ∧
    (let s := lifeIs fun l => { l with phase := .clocks, xoSwing := true, xoStable := true }
     clocksStart s = true ∧ s.life.xoSwing = true ∧ s.life.xoStable = true ∧ s.life.pllLocked = false) ∧
    (∀ ph, ph ∈ [Phase.power, .clocks, .sramInit, .memTrain, .memInit, .selfTest] →
      let s := lifeIs fun l => { l with phase := ph, pllLocked := true }
      starting s = true ∧ s.life.phase = ph ∧ s.life.pllLocked = true ∧ s.life.keeping = false ∧ (coreOf s 0).fenced = false) := by
  decide +kernel

theorem wit_LinkAndManagementAct :
    let s := { up with life := { up.life with linkUp := false } }
    let t := { up with mgmt := { up.mgmt with i3cAddr := some 0x30 } }
    up.life.linkUp = true ∧ s.life.linkUp = false ∧ linkWorks s = true ∧ up.life.auxGood = true ∧ up.mgmt.i3cAddr = none ∧
      t.mgmt.i3cAddr.isSome = true ∧ vddAon t = true ∧ up.life.power ≠ .off := by
  decide +kernel

/-! ### Rings, doorbells and registers -/

/-- An enabled ring pair with `l` units posted from host address 0x10000 on and its receipts from 0x20000 on. -/
def ringUp (l : BitVec 32) : Ring :=
  { Ring.init 0 with ctrl := 0x80000000, postBase := 0x10000, rcptBase := 0x20000, state := .running, tail := l }

theorem wit_RingPairsAct_doorbell :
    let s := setRing (inCtx id) 0 (ringUp 1)
    let t : BitVec 32 := BitVec.ofNat 32 (bits (64 : BitVec 64) 0 32)
    let v : BitVec 32 := BitVec.ofNat 32 (bits (65 : BitVec 64) 0 32)
    s.life.linkUp = true ∧ ready s = true ∧ enabled (ringOf s 0) = true ∧ (ctxOf s 0).isSome = true ∧
      (t - (ringOf s 0).head).toNat ≤ postUnits (ringOf s 0) ∧ (t - (ringOf s 0).tail).toNat ≤ postUnits (ringOf s 0) ∧
      postUnits (ringOf s 0) < (v - (ringOf s 0).head).toNat ∧ (ringOf s 0).state ≠ .quarantined := by
  decide +kernel

theorem wit_RingPairsAct_enable :
    let s := setRing up 64 (ringUp 0)
    up.life.linkUp = true ∧ ready up = true ∧ enabled (ringOf up 64) = false ∧ bit (0x80000606 : BitVec 64) 31 = true ∧
      bits (0x80000606 : BitVec 64) 8 3 ≠ 7 ∧ bits (0x80000606 : BitVec 64) 0 3 ≠ 7 ∧
    enabled (ringOf s 64) = true ∧ bit (0 : BitVec 64) 31 = false ∧ ctrlFixed 0 = ctrlFixed (ringOf s 64).ctrl ∧
      (ringOf s 64).taken = 0 ∧ (ringOf s 64).waiting = [] ∧ bits (0 : BitVec 64) 8 3 ≠ 7 ∧ bits (0 : BitVec 64) 0 3 ≠ 7 := by
  decide +kernel

theorem wit_RingTurnTakesPacket :
    let h : BitVec 512 := fields 512 [(16, 1), (64, 0xFFFF)]
    let s := fun k => { setRing up 64 (ringUp 1) with turn := k, hostMem := [(0x10002, 1), (0x10008, 0xFF), (0x10009, 0xFF)] }
    let t := { setRing (inCtx id) 0 (ringUp 1) with turn := 1, hostMem := [(0x10002, 1), (0x10008, 7)] }
    let g : BitVec 512 := fields 512 [(16, 1), (64, 7)]
    (ready (s 0) = true ∧ ringOffers (s 0) 64 = true ∧ (unitAt (s 0) 64 (ringOf (s 0) 64) 0).1 = some h ∧ bits h 16 16 = 1 ∧
      headerFault (s 0) 64 h (packetOf 64 h []) 1 = none ∧ packetWaits (s 0) 64 (bits h 0 8) (packetOf 64 h []) = false) ∧
    (ready t = true ∧ ringOffers t 0 = true ∧ (unitAt t 0 (ringOf t 0) 0).1 = some g ∧ bits g 16 16 = 1 ∧
      headerFault t 0 g (packetOf 0 g []) 1 = none ∧ packetWaits t 0 (bits g 0 8) (packetOf 0 g []) = false) := by
  decide +kernel

theorem wit_AnswersWriteReceipts :
    let s := setRing up 64 { ringUp 0 with comp := 63 }
    let r := ringOf s 64
    s.life.linkUp = true ∧ rcptFull r = false ∧ r.waiting = [] ∧ bit r.rcptBase 63 = false ∧
      s.hostReject.contains ((bits r.rcptBase 12 36 * 4096 + 32 * (r.comp.toNat % rcptEntries r)) / 64) = false ∧
      r.comp.toNat + 1 < 2 ^ 64 := by
  decide +kernel

theorem wit_HostAccessesAct :
    let s := { inCtx id with setA := { ConfigSet.init with window := vset ConfigSet.init.window 5 (fields 64 [(63, 1), (20, 1), (0, 1)]) } }
    s.life.linkUp = true ∧ ready s = true ∧ (ctxOf s 0).isSome = true ∧ enabled (ringOf s 64) = false ∧ accessOk 0x18 2 = false ∧
      accessOk 0x1C 8 = false ∧ s.life.hdmOn = true ∧ windowFor s 0x200000 1 = some 0 ∧ windowFor s 0x3FFFFF 1 = some 0 ∧
      windowFor s 0x400000 1 = none := by
  decide +kernel

/-! ### Risk, draining and collection -/

theorem wit_RiskIsComputed :
    let s := { up with riskEvents := [{ row := 0, weight := 255 * 65536, at_ := 100 }] }
    ready s = true ∧ bits (cfgOf s).risk 0 8 ≤ riskSum s ∧ riskLevel s < 2 := by
  decide +kernel

theorem wit_SecuredStateCommandsAnswer_now :
    let s := { inCtx (fun c => { c with colls := [fields 256 [(238, 3)]] }) with
               setA := { ConfigSet.init with secured := vset ConfigSet.init.secured 0 (fields 64 [(32, 9), (16, 50)]) } }
    let p := fun op => pkt 64 [(254, op)]
    Accepts (p 0) s ∧ pktSlot s (p 0) = some 0 ∧ ((ctxOf s 0).map fun c => (gathersOf c).length) = some 1 ∧ securedObj s 0 ≠ 0 ∧
      (∀ op, op < 3 → bits (p op).param 0 254 = 0 ∧ bits (p op).param 254 2 = op) ∧ riskNow s < riskElev s ∧
      drainedNow s = false := by
  unfold Accepts; decide +kernel

theorem wit_SecuredStateCommandsAnswer_drained :
    let s := { up with draining := true }
    ready s = true ∧ s.draining = true ∧ drainedNow s = false ∧ ∀ m, m < 64 → ctxOf s m = none := by
  decide +kernel

theorem wit_SecuredStateCommandsAnswer_collect :
    let tag : LineTag := { modId := 1, slot := 0, gen := 1, key := 0, bad := false }
    let dst : Obj := { hostObj with off := 0x30000, size := 16 }
    let s := { inCtx (fun c => { c with objs := [(1, hostObj), (2, { hostObj with off := 0x20000, size := 16 }), (3, dst)] }) with
               hostMem := [(0x1007C, 2)], hostLines := [(0x100, tag)],
               setA := { ConfigSet.init with groups := vset ConfigSet.init.groups 0 (fields 64 [(32, 1), (0, 1)]) } }
    let p := pkt 0 [(224, 3), (210, 1)]
    Accepts p s ∧ pktSlot s p = some 0 ∧ objOf s 0 (rcDst p.param) = some dst ∧
      ((ctxOf s 0).map fun c => (collectBad s 0 c p, partObj c (groupRecord s 0 (rcGroup p.param)) (rcPart p.param))) = some (false, 2) ∧
      planNames s 0 (rcDst p.param) = false ∧ isFenced s 0 (rcDst p.param) = false ∧ s.modId = some (rcSrc p.param) ∧ rcSatchel p.param = false ∧
      ((readObjAt s 0 2 0 (objSize s 0 2)).map (·.bad)) = some [] := by
  unfold Accepts; decide +kernel

/-! ### Steps, reductions and votes -/

/-- A group of one row of 32 columns, whose objects are all object 2 and whose eps is 2^-25. -/
def groupRec : BitVec 1024 :=
  fields 1024 [(992, 2), (960, 2), (800, 2), (768, 2), (736, 2), (704, 1), (672, 32), (576, 0x33000000)]

/-- Context 7 with that group in object 1, and a running plan with steps. -/
def stepState (f : Ctx → Ctx) : State :=
  let tag : LineTag := { modId := 1, slot := 0, gen := 1, key := 0, bad := false }
  { inCtx (fun c => f { c with objs := [(1, hostObj), (2, { hostObj with off := 0x20000 })], run := some { planRun with steps := true } })
    with hostMem := Mem.write [] 0x10000 (leBytes 128 groupRec.toNat), hostLines := [(0x100, tag), (0x200, tag)],
         setA := { ConfigSet.init with groups := vset ConfigSet.init.groups 0 (fields 64 [(32, 1), (0, 1)]) } }

theorem wit_StepsCommit_begin :
    let p := pkt 0 [(224, 2)]
    let s := stepState id
    Accepts p s ∧ pktSlot s p = some 0 ∧ bits p.param 0 192 = 0 ∧ beginHeld s 0 = false ∧
      ((ctxOf s 0).map fun c => beginCheck s 0 c p.param) = some none := by
  unfold Accepts; decide +kernel

theorem wit_StepsCommit_commit :
    let p := pkt 0 []
    let s := fun a => stepState fun c => { c with stepOpen := true, aborted := a }
    let t := stepState fun c => { c with stepOpen := true, commit := some (p, .waitOutcome) }
    Accepts p (s none) ∧ pktSlot (s none) p = some 0 ∧
      ((ctxOf (s none) 0).map fun c => (c.stepOpen, c.commit.isNone, c.aborted)) = some (true, true, none) ∧
    Accepts p (s (some 1)) ∧ pktSlot (s (some 1)) p = some 0 ∧
      ((ctxOf (s (some 1)) 0).map fun c => (c.stepOpen, c.commit.isNone, c.aborted)) = some (true, true, some 1) ∧
    bits p.param 0 256 = 0 ∧ groupsFenced (s none) 0 = false ∧
      ((ctxOf t 0).bind (·.commit)).isSome = true ∧
    (∀ l, (let v : VoteMsg := ⟨7, 3, 1, false, false, 0, 0, true, l⟩
      v.flagged = 0 ∧ v.part = true ∧ ((ctxOf t 0).map fun c => v.lost || c.stepLost) = some l)) := by
  unfold Accepts; decide +kernel

/-- A vote for list 3 of context 7. -/
def voteMsg (down abort : Bool) : VoteMsg :=
  { ctx := 7, list := 3, fromPos := 1, down := down, abort := abort, detail := 0, flagged := 0, part := false, lost := false }

/-- A membership list of modules 1 and 2. -/
def twoMembers : Members := { now := [1, 2], next := none, excluded := [], leaving := [], base := [], selfLost := false }

theorem wit_VotesAndMembersAct :
    let s := stepState fun c => { c with lists := [(3, twoMembers)], commit := some (pkt 0 [], .waitOutcome) }
    ready s = true ∧ slotOfIdent s 7 = some 0 ∧ ((ctxOf s 0).map fun c => (c.lists, c.commit.isSome)) =
      some ([(3, twoMembers)], true) ∧ (2 : BitVec 14) ∈ twoMembers.now ∧ twoMembers.excluded = [] ∧
      s.modId = some 1 ∧ s.modId ≠ some 2 ∧ twoMembers.now[1]? = some 2 ∧
      ((ctxOf s 0).bind fun c => tget c.lists (voteMsg false false).list.toNat) = some twoMembers ∧ faultDue s 0 = false ∧
      faultDue (modCtx s 0 fun c => { c with run := some { planRun with fault := some ⟨0, 1, 1, 0⟩ } }) 0 = true := by
  decide +kernel

/-- The module with a flit in the receive buffer of port 0. -/
def rx (s : State) (f : Flit) : State := modPort s 0 fun x => { x with rxBuf := vset x.rxBuf (vcOf f.txn.op).toNat [f] }

/-- A context in an open step with the collective 4 over list 3 and the group above. -/
def redState : State :=
  stepState fun c => { c with stepOpen := true, step := 9, lists := [(3, twoMembers)], records := [groupRec],
                              colls := [fields 256 [(240, 4), (234, 3)]] }

theorem wit_CollectiveFlitsLand :
    let f := flit 0x80 (fields 64 [(48, 4)]) (fields 64 [(48, 1)]) []
    let g := flit 0x81 0 0 []
    (ready (rx redState f) = true ∧ flitSlot (rx redState f) f.txn = some 0 ∧ earlyFlit (rx redState f) 0 f.txn = false ∧
      (takeRx (rx redState f) 0 f).isSome = true ∧ f.txn.last = true ∧ f.txn.fidx = 0 ∧
      (((takeRx (rx redState f) 0 f).bind fun s => treeOf s 0 (rpColl f.txn) (rpGroup f.txn) (rpSlice f.txn)).bind fun t =>
        posOfMod t.mem f.txn.srcMod) = some 1 ∧ rpCount f.txn ≠ 0 ∧ collFenced (rx redState f) 0 4 = false) ∧
    (rpCount (flit 0x80 (fields 64 [(48, 4)]) 0 []).txn = 0 ∧ (flit 0x80 (fields 64 [(48, 4)]) 0 []).txn.len = 0) ∧
    (ready (rx redState g) = true ∧ flitSlot (rx redState g) g.txn = some 0 ∧ earlyFlit (rx redState g) 0 g.txn = false ∧
      (takeRx (rx redState g) 0 g).isSome = true ∧ g.txn.last = true ∧ collFenced (rx redState g) 0 (rpColl g.txn) = false) := by
  decide +kernel

theorem wit_UpdatesAndDeadlinesAct_slice :
    let q : BitVec 6 × BitVec 12 × BitVec 32 × Tile := (0, 0, 0, [])
    let s := modPort redState 15 fun x => { x with updQ := [q] }
    let s0 := modPort s 15 fun x => { x with updQ := [] }
    ready s = true ∧ (portOf s 15).updQ = [q] ∧ recordOf s0 0 0 = some groupRec ∧
      ((ctxOf s 0).map fun c => (c.stepOpen, c.aborted.isNone)) = some (true, true) ∧
      ((ctxOf s 0).map fun c => (sliceResults s0 0 groupRec (updConst groupRec (c.rates.getD 0 0) (lossExp c) (groupStep c 0 + 1))
        (verOf c) 0 [] []).2) = some false ∧ groupsFenced s 0 = false ∧
      ((ctxOf (modCtx s 0 fun c => { c with aborted := some 0 }) 0).map (·.aborted.isSome)) = some true := by
  decide +kernel

theorem wit_UpdatesAndDeadlinesAct_deadline :
    let t := treeOf redState 0 4 0 0
    let r : Reduction := { Reduction.fresh 0 4 0 0 9 false with started := true, own := some [] }
    let s := { redState with reds := [r] }
    ready s = true ∧ t.isSome = true ∧ collFenced s 0 4 = false ∧ (t.map (·.step)) = some 9 ∧ findRed s (.fresh 0 4 0 0 9 false) = r ∧ r.started = true ∧
      r.done = false ∧ (t.map fun t => (findRed (advanceRed (completeRed s 0 t r true) 0 t { r with done := true })
        (.fresh 0 4 0 0 t.step true)).started) = some false := by
  decide +kernel

/-! ### The fabric -/

/-- Port 15 in a state of its own. -/
def portIs (f : Port → Port) : State := modPort up 15 f

theorem wit_PortsGoUpAndDown :
    (portOf (portIs fun p => { p with state := .training }) 15).state = .training ∧
    (let s := portIs fun p => { p with state := .up, retry := [flit 1 0 8 []] }
     (portOf s 15).state = .up ∧ (portOf s 15).retry ≠ []) ∧
    (let s := portIs fun p => { p with state := .up }
     (portOf s 15).txQ = .replicate 4 [] ∧ (portOf s 15).retry = []) := by
  decide +kernel

/-- A flit with a right CRC. -/
def goodFlit : Flit := { flit 0x01 0 8 [] with crc := crc32c (flitBytes (flit 0x01 0 8 [])) }

theorem wit_FlitsAreReceived :
    let s := portIs fun p => { p with state := .up }
    (portOf s 15).state = .up ∧ (portOf s 15).uncorrAt = [] ∧ goodFlit.link.kind = 0 ∧ goodFlit.link.seq = (portOf s 15).rxSeq ∧
      s.modId = some goodFlit.txn.dstMod ∧ reservedFlit goodFlit = false ∧ vcOf goodFlit.txn.op ≠ 3 := by
  decide +kernel

/-- Every flit can carry a right CRC, and a wrong one. -/
theorem wit_FlitsAreReceived_crc (f : Flit) :
    let g := { f with crc := crc32c (flitBytes f) }
    let x := { f with crc := ~~~crc32c (flitBytes f) }
    g.crc = crc32c (flitBytes g) ∧ x.crc ≠ crc32c (flitBytes x) := by
  refine ⟨rfl, fun h => ?_⟩
  have h' : ~~~crc32c (flitBytes f) = crc32c (flitBytes f) := h
  generalize crc32c (flitBytes f) = c at h'
  have := congrArg (·.getLsbD 0) h'
  simp at this

/-- The global address of byte `off` of a space of module 1. -/
def ga (space off : Nat) : BitVec 64 := fields 64 [(50, 1), (48, space), (0, off)]

/-- Context 7 with an object in the shared store and one in host memory, and a counter that vid 9 names. -/
def served : State :=
  let ss : Obj := { hostObj with tier := 1, off := 0x8000 }
  { inCtx (fun c => { c with objs := [(1, hostObj), (2, ss)] }) with
    counters := [(0x1005, live 3)],
    setA := { ConfigSet.init with sync := vset ConfigSet.init.sync 0 [(0, fields 64 [(44, 9), (31, 1), (0, 0x1005)])] } }

theorem wit_RequestsAreServed_read_write :
    let ss : Obj := { hostObj with tier := 1, off := 0x8000 }
    let f := flit 0x01 (ga 1 0x8FF0) 16 []
    let g := flit 0x02 (ga 1 0x8FFF) 0 [0xAB]
    let s1 := (takeRx (rx served f) 0 f).getD up
    let s2 := (takeRx (rx served g) 0 g).getD up
    (ready (rx served f) = true ∧ (takeRx (rx served f) 0 f).isSome = true ∧ flitSlot s1 f.txn = some 0 ∧
      s1.modId = some (gaMod f.txn.addr) ∧ gaSpace f.txn.addr ≠ 3 ∧ f.txn.arg ≠ 0 ∧ f.txn.arg.toNat ≤ 65536 ∧
      homeAt s1 0 (gaSpace f.txn.addr) (gaOff f.txn.addr) f.txn.arg.toNat false = some ss ∧ ss.state ≠ .lost ∧
      (readObj s1 0 ss (gaOff f.txn.addr - ss.off) f.txn.arg.toNat).bad = []) ∧
    (ready (rx served g) = true ∧ (takeRx (rx served g) 0 g).isSome = true ∧ flitSlot s2 g.txn = some 0 ∧
      s2.modId = some (gaMod g.txn.addr) ∧ dupCase s2 g.txn = .new ∧ dupOf s2 g.txn.srcMod g.txn.txn = none ∧ g.txn.fidx = 0 ∧
      g.txn.last = true ∧ homeAt s2 0 (gaSpace g.txn.addr) (gaOff g.txn.addr) g.txn.len.toNat true = some ss ∧ held ss = false) ∧
    (let r := flit 0x01 (ga 3 9) 0 []
     let s3 := (takeRx (rx served r) 0 r).getD up
     ready (rx served r) = true ∧ (takeRx (rx served r) 0 r).isSome = true ∧ flitSlot s3 r.txn = some 0 ∧
      s3.modId = some (gaMod r.txn.addr) ∧ gaSpace r.txn.addr = 3 ∧ syncTarget s3 0 r.txn.addr = some 0x1005 ∧
      counterOf s3 0x1005 = some (live 3)) := by
  decide +kernel

theorem wit_RequestsAreServed_atomic_signal :
    let ss : Obj := { hostObj with tier := 1, off := 0x8000 }
    let f := flit 0x03 (ga 1 0x8FF8) 1 []
    let g := flit 0x04 (ga 3 9) 1 []
    let s1 := (takeRx (rx served f) 0 f).getD up
    let s2 := (takeRx (rx served g) 0 g).getD up
    let e : DupEntry := { src := 2, txn := 3, epoch := 0, old := some 77, got := [], last := none }
    let s3 := { rx served f with dups := [e] }
    (ready (rx served f) = true ∧ (takeRx (rx served f) 0 f).isSome = true ∧ flitSlot s1 f.txn = some 0 ∧
      s1.modId = some (gaMod f.txn.addr) ∧ dupCase s1 f.txn = .new ∧ gaSpace f.txn.addr < 2 ∧ gaOff f.txn.addr % 8 = 0 ∧
      homeAt s1 0 (gaSpace f.txn.addr) (gaOff f.txn.addr) 8 true = some ss ∧ ss.state ≠ .lost ∧ held ss = false ∧
      (readObj s1 0 ss (gaOff f.txn.addr - ss.off) 8).bad = []) ∧
    (ready (rx served g) = true ∧ (takeRx (rx served g) 0 g).isSome = true ∧ flitSlot s2 g.txn = some 0 ∧
      s2.modId = some (gaMod g.txn.addr) ∧ dupCase s2 g.txn = .new ∧ syncTarget s2 0 g.txn.addr = some 0x1005) ∧
    (ready s3 = true ∧ f.txn.op = 0x03 ∧ ((takeRx s3 0 f).map fun s => dupCase s f.txn) = some (.again e) ∧ e.old = some 77) := by
  decide +kernel

/-- A tracked transaction to module 2 whose request was a flit of operation `op`. -/
def txn (op : BitVec 8) : Txn :=
  { dst := 2, txn := 3, port := 0, epoch := 0, reissues := 1, slot := 0, flits := [flit op 0 0 []], reply := [], use := .signal 0 none }

theorem wit_TransactionsEndOrRepeat :
    let s := fun op f => { rx (inCtx id) f with txns := [txn op] }
    let f := fun op => flit op (fields 64 [(50, 2)]) 0 []
    (ready (s 1 (f 0x40)) = true ∧ ((takeRx (s 1 (f 0x40)) 0 (f 0x40)).bind fun s => txnFor s (f 0x40).txn) = some (txn 1) ∧
      txnOp (txn 1) = 0x01 ∧ (f 0x40).txn.last = true ∧ (f 0x40).txn.fidx = 0 ∧ (txn 1).reply = []) ∧
    (((takeRx (s 4 (f 0x41)) 0 (f 0x41)).bind fun s => txnFor s (f 0x41).txn) = some (txn 4) ∧ txnOp (txn 4) ≠ 0x01) ∧
    (((takeRx (s 4 (f 0x42)) 0 (f 0x42)).bind fun s => txnFor s (f 0x42).txn) = some (txn 4) ∧ (f 0x42).txn.status ≠ 4 ∧
      (f 0x42).txn.status ≠ 5) ∧
    (let g : Flit := { f 0x40 with txn := { (f 0x40).txn with last := false } }
     ((takeRx (s 1 g) 0 g).bind fun s => txnFor s g.txn) = some (txn 1) ∧
      runWhole (((txn 1).reply.filter fun h => h.txn.fidx != g.txn.fidx) ++ [g]) = false) ∧
    (let t := { txn 4 with use := .signal 5 (some 6) }
     ((takeRx { rx (inCtx id) (f 0x41) with txns := [t] } 0 (f 0x41)).bind fun s => txnFor s (f 0x41).txn) = some t ∧
      t.use = .signal 5 (some 6)) ∧
    (let g : Flit := { f 0x42 with txn := { (f 0x42).txn with status := 4 } }
     ((takeRx (s 4 g) 0 g).bind fun s => txnFor s g.txn) = some (txn 4) ∧ g.txn.status = 4) ∧
    (ready up = true ∧ 2 ≤ ({ txn 4 with reissues := 2 } : Txn).reissues) ∧
    ((txn 4).reissues < 2 ∧ ((takeRx (s 4 (f 0xC0)) 0 (f 0xC0)).map (·.txns)) = some [txn 4] ∧ gaMod (f 0xC0).txn.addr = (txn 4).dst ∧
      (f 0xC0).txn.txn = (txn 4).txn ∧ (f 0xC0).txn.epoch = (txn 4).epoch) := by
  decide +kernel

theorem wit_TransactionsEndOrRepeat_use : ∀ c id, (txn 4).use ≠ .signal c (some id) := by simp [txn]

theorem wit_FabricTablesLoad_route :
    let s := inCtx fun c => { c with objs := [(1, hostObj)] }
    let p := pkt 64 [(224, 1), (146, 1), (137, 500)]
    ready s = true ∧ s.swap = none ∧ frRetrain p.param = [] ∧ routeBad s p = false ∧
      ((mgmtRead s none (frObj p.param) (frOff p.param) (32768 * (frPorts p.param).length)).map (·.bad)) = some [] := by
  have h : holders (inCtx fun c => { c with objs := [(1, hostObj)] }) (frObj (pkt 64 [(224, 1), (146, 1), (137, 500)]).param) = [0] := by
    decide +kernel
  refine ⟨by decide +kernel, by decide +kernel, by decide +kernel, ?_, ?_⟩ <;>
    simp only [routeBad, mgmtRead, mgmtHolder, h, List.length_singleton, Nat.mod_one, List.getElem?_cons_zero] <;> decide +kernel

theorem wit_FabricTablesLoad_list :
    let tag : LineTag := { modId := 1, slot := 0, gen := 1, key := 0, bad := false }
    let s := { inCtx (fun c => { c with objs := [(1, hostObj)] }) with hostMem := [(0x10000, 1), (0x10002, 2)], hostLines := [(0x100, tag)] }
    let p := pkt 0 [(224, 1), (172, 15), (157, 2)]
    Accepts p s ∧ pktSlot s p = some 0 ∧ bits p.param 0 157 = 0 ∧ bits p.param 157 15 ≠ 0 ∧ bits p.param 157 15 ≤ 16384 ∧
      onGranule s 0 (bits p.param 224 32) (bits p.param 176 48) = true ∧
      readObjAt s 0 (bits p.param 224 32) (bits p.param 176 48) (2 * bits p.param 157 15) = some { bytes := [1, 0, 2, 0], bad := [] } ∧
      memberList s (bits p.param 157 15) [1, 0, 2, 0] = some [1, 2] := by
  unfold Accepts; decide +kernel

/-! ### Tile programs -/

/-- The descriptor of a LINEAR IN stream of 64-byte tiles of object 1, whose counters are vid 0. -/
def linDesc : BitVec 512 := fields 512 [(480, 1), (416, 1), (400, 1), (320, 1), (272, 1), (183, 1)]

/-- Context 7 with counter 0x1005 under vid 0 and a codec configuration. -/
def tileCtx : State :=
  { inCtx (fun c => { c with objs := [(1, hostObj)], codec := [(0, 0)] }) with
    counters := [(0x1005, live 3)],
    setA := { ConfigSet.init with sync := vset ConfigSet.init.sync 0 [(0, fields 64 [(44, 0), (31, 1), (0, 0x1005)])] } }

/-- The same with vid 0 on module 2. -/
def tileFar : State :=
  { tileCtx with setA := { ConfigSet.init with sync := vset ConfigSet.init.sync 0 [(0, fields 64 [(31, 1), (30, 1), (16, 2)])] } }

/-- Core 255 whose thread 31 is about to issue `w`. -/
def about (w : Word) (f : Thread → Thread) (s : State) : State :=
  modCore s 255 fun c => setThread { c with slot := some 0, prog := [w], ls := Mem.write [] 0 (leBytes 64 linDesc.toNat) } 31
    (f { Thread.init with state := .ready, a := vset Thread.init.a 1 0x1E0000 })

/-- The thread issues an instruction of class `c` and operation `o` that meets `P`. -/
def issues (s : State) (c o : Nat) (P : Iss → Bool) : Bool := match issuing ⟨255, 31⟩ s with
  | some (i, none) => ready s && iClass i.w == c && iOp i.w == o && P i
  | _ => false

/-- The word of an instruction by class, operation and fields. -/
def word (c o : Nat) (l : List (Nat × Nat)) : Word := fields 64 ((60, c) :: (56, o) :: l)

theorem wit_ControlInstructionsIssue :
    let ok := fun (o : Nat) l (P : Iss → Bool) =>
      issues (about (word 0 o l) id tileCtx) 0 o fun i => passes i.t i.w && !ctlReserved i.w && P i
    ok 0 [] (fun _ => true) = true ∧ ok 2 [] (fun _ => true) = true ∧ ok 3 [] (fun _ => true) = true ∧
    ok 4 [(44, 7), (35, 1)] (fun i => cIsImm i.w) = true ∧
    issues (about (word 0 5 [(0, 1)]) (fun t => { t with loops := List.replicate 3 { startPc := 0, endPc := 0, count := 1, index := 0 } })
      tileCtx) 0 5 (fun i => passes i.t i.w && !ctlReserved i.w && cRcnt i.w == 0 && cCnt i.w != 0 && decide (i.t.loops.length < 4)) = true ∧
    ok 5 [(16, 1)] (fun i => cRcnt i.w == 0 && cCnt i.w == 0) = true ∧
    issues (about (word 0 6 []) (fun t => { t with loops := [{ startPc := 0, endPc := 0, count := 1, index := 0 }] }) tileCtx) 0 6
      (fun i => passes i.t i.w && !ctlReserved i.w && i.t.loops.any fun e => decide (e.count ≤ e.index + 1)) = true ∧
    ok 4 [(44, 7)] (fun i => !cIsImm i.w) = true ∧ ok 5 [(37, 2)] (fun i => cRcnt i.w == 2 && sreg32 i.t 2 == 0) = true ∧
    issues (about (word 0 5 [(0, 1)]) (fun t => { t with loops := List.replicate 4 { startPc := 0, endPc := 0, count := 1, index := 0 } })
      tileCtx) 0 5 (fun i => passes i.t i.w && !ctlReserved i.w && cRcnt i.w == 0 && cCnt i.w != 0 && decide (4 ≤ i.t.loops.length)) = true ∧
    ok 6 [] (fun i => i.t.loops == []) = true ∧
    issues (about (word 0 6 []) (fun t => { t with loops := [{ startPc := 0, endPc := 0, count := 2, index := 0 }] }) tileCtx) 0 6
      (fun i => passes i.t i.w && !ctlReserved i.w && i.t.loops.any fun e => decide (e.index + 1 < e.count)) = true ∧
    ok 7 [(0, 1)] (fun _ => true) = true ∧ ok 8 [] (fun i => cRix i.w == 0) = true ∧ ok 8 [(42, 2)] (fun i => cRix i.w != 0) = true := by
  decide +kernel

theorem wit_ControlInstructionsIssue_end :
    let s0 := inCtx fun c => { c with run := some { planRun with placed := [{ lcl := 0, lcore := 0, core := 255 }] } }
    let s := modThread (about (word 0 1 []) id s0) 255 30 fun t => { t with state := .sleeping }
    issues s 0 1 (fun i => passes i.t i.w && !ctlReserved i.w &&
      !allHalted (endLeases (retire s i (haltThread i.t)) ⟨255, 31⟩) i.slot) = true ∧
    issues (about (word 0 1 []) id s0) 0 1 (fun i => passes i.t i.w && !ctlReserved i.w &&
      allHalted (endLeases (retire (about (word 0 1 []) id s0) i (haltThread i.t)) ⟨255, 31⟩) i.slot) = true := by
  decide +kernel

theorem wit_AluWritesOneRegister :
    cF (word 0 2 [(41, 31)]) = false ∧ cRd (word 0 2 [(41, 31)]) ≠ 0 ∧ cRd (word 0 2 [(41, 31)]) < 32 ∧ cRd (word 0 2 []) = 0 ∧
      cF (word 0 2 [(46, 1)]) = true := by
  decide +kernel

/-- An engine instruction that passes, names no unmapped counter, and finds one entry of its queue free. -/
def engine (c o : Nat) (l : List (Nat × Nat)) (P : State → Iss → Bool) : Bool :=
  let s := about (word c o l) id tileCtx
  issues s c o fun i => passes i.t i.w && !sigUnmapped s i && P s i

theorem wit_EngineInstructionsEnterQueues :
    engine 1 0 [(43, 1), (39, 1)] (fun _ i => decide (i.core.matQ.length < 4) && mmaFaults i.t i.w == []) = true ∧
    engine 1 1 [] (fun _ i => lowZero i.w 6) = true ∧
    engine 1 2 [(6, 16)] (fun _ i => lowZero i.w 6 && lsCheck (areg i.t (mAa i.w)) 16384 == [] && decide (1 ≤ mK i.w ∧ mK i.w ≤ 16)) =
      true ∧
    engine 1 3 [] (fun _ i => lowZero i.w 6) = true ∧
    engine 1 4 [(35, 1)] (fun s i => lowZero i.w 6 && lsCheckScratch (areg i.t (mAa i.w)) 64 == [] && decide (kidJobs s 15 < 16)) =
      true ∧
    engine 2 11 [(7, 7)] (fun _ i => lineFaults i.w (areg i.t (vA1 i.w)) == []) = true ∧
    engine 2 12 [(7, 7)] (fun _ i => lineFaults i.w (areg i.t (vAd i.w)) == []) = true ∧
    (∀ o, o < 3 → engine 6 o [(31, 1)] (fun _ i => decide (i.core.drnQ.length < 4) && drainFaults i.t i.w (o == 2) == []) = true) ∧
    (∀ o, o < 11 → engine 2 o [(27, if o = 7 then 3 else 0), (10, if o = 7 then 1 else 0)]
      (fun _ i => decide (i.core.vecQ.length < 8) && vecFaults i.t i.w == []) = true) ∧
    (∀ o, o < 10 → engine 3 o [] (fun _ i => vecFaults i.t i.w == []) = true) := by
  decide +kernel

/-- A full matrix queue, and a cluster with 16 Kid jobs. -/
theorem wit_EngineInstructionsEnterQueues_full :
    let op : EngOp := { id := 4, thread := 31, pc := 0, kind := .accz 0, sig := none }
    let s := modCore (about (word 1 4 [(35, 1)]) id tileCtx) 255 fun c => { c with matQ := List.replicate 4 op }
    let k := modCluster (about (word 1 4 [(35, 1)]) id tileCtx) 15 fun x => { x with kidQ := List.replicate 16 ⟨255, op, 0, 0⟩ }
    issues s 1 4 (fun i => passes i.t i.w && decide (queueSize .mat ≤ queueUsed s 255 .mat)) = true ∧
    issues k 1 4 (fun i => passes i.t i.w && !sigUnmapped k i && lowZero i.w 6 && lsCheckScratch (areg i.t (mAa i.w)) 64 == [] &&
      decide (i.core.matQ.length < 4) && decide (16 ≤ kidJobs k 15)) = true := by
  decide +kernel

theorem wit_FetchSyncCodecEnterQueues :
    (∀ o, o < 2 → engine 4 o [] (fun s i => decide (queueUsed s 255 .str < 8) && lowZero i.w 25 &&
      descFaults i (armFaults s i.slot) == [] && decide (streamNo i ≤ 15)) = true) ∧
    engine 4 2 [] (fun _ i => decide (streamNo i ≤ 15)) = true ∧
    engine 4 3 [] (fun _ i => (tagFree i.core || gatherN i == 0) && descFaults i gatherFaults == [] && gatherRegs i == []) = true ∧
    issues (modCore (about (word 4 3 [(30, 5)]) (fun t => setS t 5 1) tileCtx) 255 fun c => { c with tags := 128 }) 4 3 (fun i =>
      passes i.t i.w && !tagFree i.core && gatherN i == 1 && descFaults i gatherFaults == [] && gatherRegs i == []) = true ∧
    (∀ o, o < 6 → engine 5 o [] (fun s i => decide (queueUsed s 255 .syn < 8) && lowZero i.w 8 &&
      translate s i.slot (synVid i.t i.w).toNat == .here 0x1005 && yTmo i.w == 0) = true) ∧
    (∀ o, o ∈ [0, 5] → issues (about (word 5 o []) id tileFar) 5 o (fun i => passes i.t i.w && lowZero i.w 8 &&
      translate tileFar i.slot (synVid i.t i.w).toNat == .remote 2) = true) ∧
    engine 5 1 [(8, 15)] (fun _ i => lowZero i.w 8 && yTmo i.w == 15) = true ∧
    (∀ o, o < 2 → engine 7 o [] (fun s i => decide (i.core.tcdQ.length < 2) && lowZero i.w 28 &&
      codecCfg s i.slot (xCfg i.w).toNat == some 0 && decide (codecJobs s 15 < 16) &&
      lsCheckOperand (areg i.t (xAs i.w)) (tcRaw 0) == [] && lsCheckOperand (areg i.t (xAd i.w)) (tcRaw 0 + 64) == [] &&
      lsCheckOperand (areg i.t (xAs i.w)) (tcSlotBytes 0) == [] && lsCheckOperand (areg i.t (xAd i.w)) (tcSlotBytes 0) == []) = true) := by
  decide +kernel

/-- A cluster with 16 codec jobs. -/
theorem wit_FetchSyncCodecEnterQueues_full :
    let j : CodecJob := { core := 255, for_ := .stream 0 0, slot := 0, expand := true, cfg := 0, coord := 0, lsAddr := 0, tierOff := 0, obj := 1,
                          pool := none, src := [], ref := [], bad := false, badAt := none, seq := 0 }
    let s := modLane (about (word 7 0 []) id tileCtx) 15 true fun l => { l with queue := List.replicate 16 j }
    issues s 7 0 (fun i => passes i.t i.w && decide (i.core.tcdQ.length < 2) && decide (16 ≤ codecJobs s 15)) = true := by
  decide +kernel

theorem wit_EnqueueFrame : (Issuer.mk 255 31).core.toNat < 256 := by decide

theorem wit_SkippedInstructionsSignal :
    let s := about (word 1 3 [(55, 1), (47, 1)]) id tileCtx
    issues s 1 3 (fun i => !passes i.t i.w && (staticFaults i.w == [] && !sigUnmapped s i &&
      sigOf i.t i.w == some 0 && translate s i.slot 0 == .here 0x1005)) = true ∧
    issues (about (word 1 3 [(55, 1), (47, 1)]) id tileFar) 1 3 (fun i => !passes i.t i.w && staticFaults i.w == [] && !sigUnmapped tileFar i &&
      translate tileFar i.slot 0 == .remote 2) = true ∧
    issues (about (word 1 3 [(55, 1)]) id tileCtx) 1 3 (fun i => !passes i.t i.w && staticFaults i.w == [] && sigOf i.t i.w == none) = true ∧
    issues (about (word 0 0 [(55, 1)]) id tileCtx) 0 0 (fun i => !passes i.t i.w && !ctlReserved i.w) = true := by
  decide +kernel

/-- An operation of thread 31 of core 255. -/
def engOp (k : EngKind) : EngOp := { id := 4, thread := 31, pc := 0, kind := k, sig := none }

/-- Context 7 on core 255, changed. -/
def on255 (f : Core → Core) : State := modCore tileCtx 255 fun c => f { c with slot := some 0 }

theorem wit_EngineOpsRun_start :
    let a := on255 fun c => { c with vecQ := [engOp (.sts 0x1FFFC0 9)] }
    let b := on255 fun c => { c with vecQ := [engOp (.sts 0x1FFFC0 9)], running := [engOp (.sts 0 9)] }
    let g : GatherOp := { desc := linDesc, dst := 0, list := 0x1000, n := 0, next := 0, got := [], bad := false }
    let h := fun n => on255 fun c => { c with strQ := [engOp (.gather { g with n := n })] }
    (ready a = true ∧ (coreOf a 255).slot = some 0 ∧ queueOf (coreOf a 255) .vec = [engOp (.sts 0x1FFFC0 9)] ∧
      canStart (coreOf a 255) (.sts 0x1FFFC0 9) = true) ∧ canStart (coreOf b 255) (.sts 0x1FFFC0 9) = false ∧
    (∀ n, n < 2 → queueOf (coreOf (h n) 255) .str = [engOp (.gather { g with n := n })]) ∧
    (∀ k, k ∈ [EngKind.kid 0x1E0000, .tcd true 0 0 0 0, .syn ⟨.signal, 0, 1, 0, 0⟩] →
      queueOf (coreOf (on255 fun c => { c with matQ := [engOp k] }) 255) .mat = [engOp k]) ∧
    translate tileCtx 0 0 = .here 0x1005 := by
  decide +kernel

/-- A DRAIN_RED of core 255 whose handle, at 0 of the local store, names slice 0 of group 0 and collective 4. -/
def redOp : DrainOp :=
  { op := 2, src := false, idx := 0, ad := 0, ap := 0, fmtD := 0, st := 0, ovm := false, fn := 0, bias := false, scale := none,
    watch := false }

/-- The context of `redState` on core 255, with `rows` rows and 1 column in that handle. -/
def redOn (f : Ctx → Ctx) (rows : Nat) (g : Core → Core) : State :=
  modCore (modCtx redState 0 f) 255 fun c =>
    g { c with slot := some 0, ls := Mem.write [] 0 (leBytes 64 (fields 512 [(496, 4), (441, rows - 1)] : BitVec 512).toNat) }

theorem wit_EngineOpsRun_red :
    let q := redOn id 32 fun c => { c with drnQ := [engOp (.drain redOp)] }
    let r := redOn id 32 fun c => { c with running := [engOp (.drain redOp)] }
    let f := redOn (fun c => { c with colls := [fields 256 [(240, 4), (234, 3), (128, 2)]],
                                      objs := [(1, hostObj), (2, { hostObj with off := 0x20000, fenced := true })] }) 32 id
    (queueOf (coreOf q 255) .drn = [engOp (.drain redOp)] ∧ canStart (coreOf q 255) (.drain redOp) = true ∧
      handleBad q 0 (handleOf (coreOf q 255) redOp) 0 = false) ∧
    handleBad q 0 (handleOf (coreOf (redOn id 31 id) 255) redOp) 0 = true ∧
    ((coreOf r 255).running = [engOp (.drain redOp)] ∧ redWaits r 0 (handleOf (coreOf r 255) redOp) = false) ∧
    (redWaits f 0 (handleOf (coreOf f 255) redOp) = true ∧ planEnding f 0 = false) := by
  decide +kernel

theorem wit_EngineOpsRun_complete :
    let b := fun k => on255 fun c => { c with running := [engOp k] }
    let m : MmaOp := ⟨0, 0, 0, 0, 0, true, false, false, false, 0, 0, 0, 0, 0⟩
    let v : VecOp := ⟨false, 0, 0, 0, 0, 0, 0, 0, 1, false, 0, none⟩
    (∀ k, k ∈ [EngKind.mma m, .spill ⟨0, 0, false, 0, 0⟩, .vec v, .accz 7, .sts 0x1FFFC0 9, .lds 0 3, .topk 7 16 0, .drain { redOp with op := 0 }, .arm linDesc 3, .rearm linDesc 15 3,
        .cancel 15 3] →
      ready (b k) = true ∧ (coreOf (b k) 255).slot = some 0 ∧ (coreOf (b k) 255).running = [engOp k] ∧ (engOp k).sig = none) := by
  decide +kernel

theorem wit_EngineOpsRun_gather :
    let g : GatherOp := { desc := linDesc, dst := 0, list := 0x1000, n := 2, next := 0, got := [], bad := false }
    let one : GatherOp := { g with n := 1, got := [(0, [])] }
    let q := fun n (f : Core → Core) => on255 fun c => f (setThread { c with strQ := [engOp (.gather { g with n := n })] } 31
      { Thread.init with state := .ready })
    let b := fun g => on255 fun c => setThread { c with running := [engOp (.gather g)] } 31 { Thread.init with state := .ready }
    let wide : GatherOp := { g with desc := linDesc ||| fields 512 [(102, 1)] }
    (let s := on255 fun c => { c with strQ := [engOp (.gather wide)] }
     (coreOf s 255).strQ = [engOp (.gather wide)] ∧ Mem.num (coreOf s 255).ls (wide.list + 4 * wide.next) 4 < dNrow wide.desc) ∧
    (∀ n, n ∈ [1, 2] → ready (q n id) = true ∧ (coreOf (q n id) 255).strQ = [engOp (.gather { g with n := n })] ∧ g.next < n ∧
      tagFree (coreOf (q n id) 255) = true ∧ dNrow g.desc ≤ Mem.num (coreOf (q n id) 255).ls (g.list + 4 * g.next) 4) ∧
    (let s := q 2 fun c => { c with tags := 128 }
     tagFree (coreOf s 255) = false ∧ (threadOf (coreOf s 255) 31).hold = .none ∧ (threadOf (coreOf s 255) 31).state = .ready) ∧
    (∀ y, y ∈ [g, one] → (coreOf (b y) 255).running = [engOp (.gather y)] ∧ (threadOf (coreOf (b y) 255) 31).state ≠ .halted) ∧
    g.got.length < g.n ∧ one.n ≤ one.got.length := by
  decide +kernel

/-! ### Streams -/

/-- The descriptor above in object 1's memory, and a plan on core 255. -/
def streamCtx : State :=
  let tag : LineTag := { modId := 1, slot := 0, gen := 1, key := 0, bad := false }
  let s := modCtx tileCtx 0 fun c => { c with run := some { planRun with placed := [{ lcl := 15, lcore := 15, core := 255 }] } }
  { s with hostMem := Mem.write [] 0x10000 (leBytes 64 linDesc.toNat), hostLines := [(0x100, tag)] }

theorem wit_StreamCommandsAnswer :
    let s := streamCtx
    let t := modStream s 255 15 fun x => { x with state := .active }
    let u := modStream s 255 15 fun x => { x with state := .active, pending := some 0 }
    let p := fun k => pkt 0 [(224, 1), (172, 15), (168, 15), (164, k)]
    let q := pkt 0 [(172, 15), (168, 15), (164, 15)]
    (∀ k, k ∈ [0, 15] → Accepts (p k) s ∧ pktSlot s (p k) = some 0 ∧
      placedCore s 0 (bits (p k).param 172 4) (bits (p k).param 168 4) = some 255 ∧ bits (p k).param 0 164 = 0 ∧
      hostDesc s 0 (p k).param = some linDesc ∧ bits (p k).param 164 4 = k) ∧
    armFaults s 0 linDesc = [] ∧ planEnding s 0 = false ∧ freeStream s 255 = some 0 ∧ dMode linDesc ≠ 2 ∧
    freeStream (modCore s 255 fun c => { c with streams := c.streams.map fun x => { x with state := .active } }) 255 = none ∧
    (streamOf (coreOf s 255) 15).state = .free ∧
    (streamOf (coreOf t 255) 15).state ≠ .free ∧ (streamOf (coreOf t 255) 15).pending = none ∧ hostDesc t 0 (p 15).param = some linDesc ∧
    (streamOf (coreOf u 255) 15).state ≠ .free ∧ (streamOf (coreOf u 255) 15).pending.isSome = true ∧
    bits q.param 224 32 = 0 ∧ bits q.param 176 48 = 0 ∧ bits q.param 164 4 = 15 := by
  unfold Accepts; decide +kernel

/-- Stream 15 of core 255 in context 7. -/
def streamIs (f : Stream → Stream) : State :=
  modStream (modCore streamCtx 255 fun c => { c with slot := some 0, tags := 127 }) 255 15 fun x =>
    f { x with state := .active, desc := linDesc, keep := linDesc }

theorem wit_StreamTilesMove :
    let t : StreamTile := { n := 0, landed := false, walk := false, page := none, got := [], sent := false }
    let a := streamIs id
    let b := streamIs fun x => { x with tiles := [t], next := 1 }
    let o := streamIs fun x => { x with tiles := [t], next := 1, keep := linDesc ||| fields 512 [(179, 1)] }
    let c := streamIs fun x => { x with state := .cancelling }
    let x := fun s => streamOf (coreOf s 255) 15
    (ready a = true ∧ (coreOf a 255).slot = some 0 ∧ (x a).state = .active ∧ (x a).frozen = false ∧ tagFree (coreOf a 255) = true ∧
      mayStart (x a) = true ∧ aheadOk a 0 (x a) = true ∧ (x a).next < (x a).first + streamTiles a 0 (x a)) ∧
    ((x b).tiles = [t] ∧ dMode (x b).desc ≠ 3 ∧ tileBusy b 255 15 0 = false ∧ objOf b 0 (dObj (x b).desc) = some hostObj ∧
      hostObj.isBind = false ∧ beyond hostObj (tileSegs b 0 (x b) t) = false ∧ isOut (x b) = false ∧ (x b).state = .active ∧
      (landTile ((tileSegs b 0 (x b) t).foldl (fun s g => touchCache s 0 hostObj g.1 g.2) b) 255 0 (x b) t hostObj []).2 = false ∧
      dMode (x b).desc = 0 ∧ dExpands (x b).desc = false ∧ t.n = (x b).signalled ∧
      (gatherSegs ((tileSegs b 0 (x b) t).foldl (fun s g => touchCache s 0 hostObj g.1 g.2) b) 0 hostObj t
        (tileSegs b 0 (x b) t) []).2 = []) ∧
    ((x o).tiles = [t] ∧ dMode (x o).desc ≠ 3 ∧ tileBusy o 255 15 0 = false ∧ objOf o 0 (dObj (x o).desc) = some hostObj ∧
      beyond hostObj (tileSegs o 0 (x o) t) = false ∧ isOut (x o) = true ∧ hostObj.fenced = false) ∧
    ((x c).state = .cancelling ∧ (x c).tiles = [] ∧ (x c).frozen = false ∧ (x c).pending = none) := by
  decide +kernel

/-- The other ends of a tile: no home, beyond the home, a lost home, a home on another module, a paged tile of such a home, and a
cancelled stream with a tile that has landed. -/
theorem wit_StreamTilesMove_ends :
    let t : StreamTile := { n := 0, landed := false, walk := false, page := none, got := [], sent := false }
    let s := fun (o : List (Nat × Obj)) (d : BitVec 512) => modCtx (streamIs fun x => { x with tiles := [t], next := 1, desc := d, keep := d }) 0
      fun c => { c with objs := o }
    let p : StreamTile := { t with page := some 0 }
    let x := fun s => streamOf (coreOf s 255) 15
    let out := linDesc ||| fields 512 [(179, 1)]
    let c := streamIs fun x => { x with state := .cancelling, tiles := [{ t with landed := true }], next := 1 }
    (let a := s [] linDesc
     ready a = true ∧ ((x a).tiles.find? fun e => e.n == t.n) = some t ∧ dMode (x a).desc ≠ 3 ∧ tileBusy a 255 15 0 = false ∧
      objOf a 0 (dHome a 0 (x a).desc) = none) ∧
    (let a := s [(1, { hostObj with size := 16 })] linDesc
     objOf a 0 (dHome a 0 (x a).desc) = some { hostObj with size := 16 } ∧ beyond { hostObj with size := 16 } (tileSegs a 0 (x a) t) = true) ∧
    (∀ o, o ∈ [{ hostObj with state := .lost }, { hostObj with isBind := true }, hostObj] → let a := s [(1, o)] out
     objOf a 0 (dHome a 0 (x a).desc) = some o ∧ beyond o (tileSegs a 0 (x a) t) = false ∧ isOut (x a) = true ∧ dMode (x a).desc ≠ 2) ∧
    (let o : Obj := { hostObj with isBind := true }
     let d := linDesc ||| fields 512 [(176, 2)]
     let a := modStream (s [(1, o)] d) 255 15 fun x => { x with tiles := [p] }
     ((x a).tiles.find? fun e => e.n == p.n) = some p ∧ objOf a 0 (dHome a 0 (x a).desc) = some o ∧
      beyond o (tileSegs a 0 (x a) p) = false ∧ isOut (x a) = false ∧ dMode (x a).desc = 2 ∧ p.page ≠ none ∧ p.sent = false) ∧
    ((x c).state = .cancelling ∧ (x c).tiles.all (·.landed) = true ∧ (x c).frozen = false) := by
  decide +kernel

/-! ### The paged cache -/

/-- A KV descriptor: page table object 1, page list object 2, pages object 5, 16 pages, both counters vid 0. -/
def kvDesc : BitVec 256 := fields 256 [(224, 1), (192, 2), (128, 16), (96, 5)]

/-- Context 7 with that cache: one sequence in state `st`, of at most 16 pages, with a timeout and one valid page. -/
def kvState (st : Nat) (f : Ctx → Ctx) : State :=
  let tag : LineTag := { modId := 1, slot := 0, gen := 1, key := 0, bad := false }
  let s := modCtx tileCtx 0 fun c => f { c with objs := [(1, hostObj), (2, { hostObj with off := 0x20000 })], kvDescs := [(kvDesc, 0, 9)] }
  { s with hostMem := Mem.write (Mem.put (Mem.put [] 0x10008 2 1) 0x1000C 4 0x80) 0x10040
             (leBytes 64 (fields 512 [(132, st), (136, 1), (40, 16)] : BitVec 512).toNat ++ leBytes 4 0x80000003),
           hostLines := [(0x100, tag), (0x200, tag)] }

theorem wit_PagedCacheCommandsAnswer :
    let s := kvState 1 id
    let p := pkt 0 [(224, 1), (192, 2), (136, 1)]
    let q := { pkt 0 [(224, 1), (216, 1)] with extra := [0] }
    let a := pkt 0 [(224, 1)]
    (Accepts p s ∧ pktSlot s p = some 0 ∧ poolOf s 0 (bits p.param 224 32) = some kvDesc ∧ bits p.param 0 136 = 0 ∧
      bits p.param 160 32 % 4 = 0 ∧ bits p.param 136 24 ≠ 0 ∧
      grantList s 0 (bits p.param 192 32) (bits p.param 160 32) (bits p.param 136 24) = some { bytes := [0, 0, 0, 0], bad := [] } ∧
      0 < kvPool kvDesc ∧ (countOf s 0 (kvRet kvDesc)).toNat + 1 ≤ kvPool kvDesc + (countOf s 0 (kvTake kvDesc)).toNat ∧
      kvFenced s 0 kvDesc = false ∧ (∀ x, x ∈ [0] → x < kvPool kvDesc)) ∧
    (Accepts q s ∧ pktSlot s q = some 0 ∧ bits q.param 0 216 = 0 ∧ bits q.param 216 8 ≠ 0 ∧ bits q.param 216 8 ≤ 252 ∧
      q.extra.length = ceilDiv (bits q.param 216 8) 4 ∧ tableHere s 0 (bits q.param 224 32) = true ∧
      (editsOf q).all (fun e => !badEdit s 0 (bits q.param 224 32) e) = true ∧ openPasses s 0 = false ∧
      isFenced s 0 (bits q.param 224 32) = false ∧ openPasses (kvState 1 fun c => { c with pass := [5] }) 0 = true) ∧
    (bits a.param 0 208 = 0 ∧ bit a.param 223 = false ∧ tableHere s 0 (bits a.param 224 32) = true ∧ tablesFenced s 0 = false ∧
      bits a.param 208 15 < nseqOf s 0 (bits a.param 224 32) ∧
      seqState (seqRecord s 0 1 0) = 1 ∧ seqState (seqRecord (kvState 3 id) 0 1 0) = 3 ∧
      bits a.param 208 15 < nseqOf (kvState 3 id) 0 (bits a.param 224 32)) := by
  unfold Accepts; decide +kernel

theorem wit_PageWalksResolve :
    let w : Walk := { core := 255, stream := 15, tile := 0, slot := 0, seq := 0, page := 0, write := false, ticket := none }
    let s := modCluster (modStream (kvState 1 id) 255 15 fun x => { x with desc := fields 512 [(480, 5)] }) 15 fun x => { x with walks := [w] }
    let s1 := modCluster s 15 fun x => { x with walks := [] }
    let q := fun k => SeqWait.mk 0 k w
    let t := fun k => kvState 1 fun c => { c with seqWaits := [q k] }
    let u := kvState 1 fun c => { c with pass := [5] }
    (ready s = true ∧ (clusterOf s 15).walks.find? (walkable s) = some w ∧ walkKv s w = some kvDesc ∧ walkReads s 0 (kvPt kvDesc) w = true ∧ seqState (seqRecord s1 0 (kvPt kvDesc) 0) ≠ 3 ∧
      bit (entryOf s1 0 (kvPt kvDesc) 0 0) 31 = true) ∧
    (ready (t 2) = true ∧ waitDesc (t 2) 0 = some kvDesc ∧ seqWaitOf (t 2) 0 0 = some (q 2) ∧ running (t 2) 0 = true ∧
      ticketDue (t 2) 0 kvDesc 2 = true) ∧
    (ready (t 3) = true ∧ seqWaitOf (t 3) 0 0 = some (q 3) ∧ seqTmo (seqRecord (t 3) 0 (kvPt kvDesc) 0) ≠ 0 ∧
      ticketDue (t 3) 0 kvDesc 3 = false) ∧
    (let v := modCluster (kvState 1 id) 15 fun x => { x with walks := [w] }
     (clusterOf v 15).walks.find? (walkable v) = some w ∧ walkKv v w = none) ∧
    (let v := { s with hostPoison := [0x401] }
     (clusterOf v 15).walks.find? (walkable v) = some w ∧ walkKv v w = some kvDesc ∧ walkReads v 0 (kvPt kvDesc) w = false) ∧
    (clusterOf up 15).walks.find? (walkable up) = none ∧ tablesFenced (t 2) 0 = false ∧ tablesFenced (t 3) 0 = false ∧
    (ready u = true ∧ passOver u 0 = true ∧ tablesFenced u 0 = false) := by
  decide +kernel

/-! ### The Kid engine, the tile codec and video -/

/-- One output of one input element, one channel, BF16 in and out, with operands at 0 of the shared store. -/
def kidDesc : BitVec 512 :=
  let g := (1 <<< 48) + (1 <<< 40) + (1 <<< 32) + (1 <<< 26)
  fields 512 [(448, g), (384, g), (320, g), (224, 0x1000), (208, 1), (192, 1), (152, 1), (144, 1), (104, 1), (66, 1), (59, 1), (55, 2), (51, 2)]

theorem wit_KidJobsRun :
    let j := fun d => KidJob.mk 255 { id := 4, thread := 31, pc := 0, kind := .kid 0, sig := none } 0 d
    let s := fun d => modCluster (inCtx id) 15 fun k => { k with kidQ := [j d] }
    let t := modCluster (inCtx id) 15 fun k => { k with kidRun := some (j kidDesc) }
    (ready (s kidDesc) = true ∧ (clusterOf (s kidDesc) 15).syncFenced = false ∧ (clusterOf (s kidDesc) 15).kidRun = none ∧
      (clusterOf (s kidDesc) 15).kidQ = [j kidDesc] ∧ kidFault kidDesc = none) ∧
    ((clusterOf (s 0) 15).kidQ = [j 0] ∧ (clusterOf (s 0) 15).kidRun = none ∧ kidFault 0 = some 1) ∧
    (ready t = true ∧ (clusterOf t 15).kidRun = some (j kidDesc)) := by
  decide +kernel

theorem wit_TileCodecConfigured :
    let s := inCtx fun c => { c with objs := [(1, { hostObj with size := 0x10000 })], pool := [1, 1, 1] }
    let set := pkt 0 [(246, 63), (208, 1), (156, 1), (144, 64), (120, 513), (104, 1), (88, 1), (72, 1)]
    let clr := pkt 0 [(252, 1), (246, 63)]
    let add := pkt 0 [(252, 2), (208, 1)]
    (Accepts set s ∧ pktSlot s set = some 0 ∧ (ctxOf s 0).isSome = true ∧ tcOp set.param = 0 ∧ codecNamed s 0 (tcSlot set.param) = false ∧
      badConfig s 0 set.param = false) ∧
    (tcOp clr.param = 1 ∧ codecNamed s 0 (tcSlot clr.param) = false ∧ bits clr.param 240 6 = 0 ∧ bits clr.param 0 72 = 0) ∧
    (tcOp add.param = 2 ∧ tcSlot add.param = 0 ∧ bits add.param 240 6 = 0 ∧ bits add.param 0 72 = 0 ∧
      (objOf s 0 (tcObj add.param)).isSome = true ∧ ((ctxOf s 0).map (·.pool.length)) = some 3) := by
  unfold Accepts; decide +kernel

/-- A job of the tile codec unit for an ENC, or for a tile of a stream. -/
def codecJob (x : Bool) (src : CodecSrc) : CodecJob :=
  { core := 255, for_ := src, slot := 0, expand := x, cfg := 0, coord := 0, lsAddr := 0, tierOff := 0, obj := 1, pool := none, src := [],
    ref := [], bad := false, badAt := none, seq := 0 }

theorem wit_CodecJobsRun :
    let cfg : BitVec 256 := fields 256 [(208, 9), (156, 1), (151, 1), (104, 1), (88, 1), (72, 1)]
    let op : EngOp := { id := 4, thread := 31, pc := 0, kind := .tcd true 0 0 0 0, sig := none }
    let c := inCtx fun c => { c with codec := [(0, cfg)] }
    let s := fun src => modLane c 15 true fun l => { l with queue := [codecJob true src] }
    let t := fun src => modLane c 15 true fun l => { l with running := some (codecJob true src) }
    (ready (s (.instr op)) = true ∧ codecCfg (s (.instr op)) 0 0 = some cfg ∧ (clusterOf (s (.instr op)) 15).syncFenced = false ∧
      (laneOf (s (.instr op)) 15 true).running = none ∧ (laneOf (s (.instr op)) 15 true).queue = [codecJob true (.instr op)] ∧
      (laneOf (s (.instr op)) 15 true).stalled = false ∧ codecTurn (s (.instr op)) 15 true (codecJob true (.instr op)) = true ∧
      coordBad cfg 0 = false ∧ jobFenced (s (.instr op)) (codecJob true (.instr op)) cfg = false ∧
      poolRows cfg (readJob (s (.instr op)) (codecJob true (.instr op)) cfg) = 0) ∧
    (let u := modLane (s (.instr op)) 15 false fun l => { l with queue := [{ codecJob false (.instr op) with expand := false }] }
     codecTurn u 15 true (codecJob true (.instr op)) = false ∧ codecTurn u 15 true { codecJob true (.instr op) with seq := 1 } = false) ∧
    codecCfg up 0 0 = none ∧ coordBad cfg (BitVec.allOnes 64) = true ∧
    (∀ src, src ∈ [.instr op, .stream 15 0] → ready (t src) = true ∧ codecCfg (t src) 0 0 = some cfg ∧
      (laneOf (t src) 15 true).running = some (codecJob true src)) := by
  decide +kernel

/-- A video job's packet: decode or encode of one 16 x 16 frame, every object being object 1. -/
def decPkt : Packet :=
  { pkt 0 [(224, 1), (144, 64), (112, 1), (32, 2), (7, 3)] with
    extra := [0, fields 512 [(480, 1), (400, 1), (392, 1), (368, 16), (352, 16), (336, 16), (320, 16), (252, 1)]] }
def encPkt : Packet :=
  { pkt 0 [(224, 1), (144, 1), (64, 64), (32, 2), (7, 1)] with
    extra := [0, fields 512 [(480, 1), (416, 1), (400, 16), (384, 16), (377, 1), (375, 1), (368, 2), (320, 64)]] }

/-- Context 7 with an object of 64 KiB and one of 2 MiB in the LPDDR6 tier. -/
def vidCtx : State :=
  inCtx fun c => { c with objs := [(1, { lpObj with size := 0x10000 }), (2, { lpObj with off := 0x100000, size := 0x200000 })] }

/-- A video job in pipeline 5. -/
def vidJob (p : Packet) (enc full : Bool) (frame : Nat) : VideoJob :=
  { pkt := p, slot := 0, encode := enc, anyPipe := false, frame := frame, coded := [], debt := 0, bad := 0, worst := 0, full := full }

theorem wit_VideoJobsRun_packets :
    (Accepts decPkt vidCtx ∧ pktSlot vidCtx decPkt = some 0 ∧ decPkt.extra.length = 2 ∧ decodeBad vidCtx 0 decPkt = false ∧
      pickPipe vidCtx false (vdEngine decPkt.param) = some 3) ∧
    (Accepts encPkt vidCtx ∧ pktSlot vidCtx encPkt = some 0 ∧ encPkt.extra.length = 2 ∧ encodeBad vidCtx 0 encPkt = false ∧
      pickPipe vidCtx true (vdEngine encPkt.param) = some 5) := by
  unfold Accepts; decide +kernel

theorem wit_VideoJobsRun_jobs :
    let q := modPipe vidCtx 5 fun x => { x with queue := [vidJob encPkt true false 0] }
    let s := fun j => modPipe vidCtx 5 fun x => { x with running := some j, stopAt := some .pause }
    (ready q = true ∧ videoPaused q = false ∧ (pipeOf q 5).running = none ∧ pipeUsable q 5 = true ∧ q.videoAny = [] ∧
      (pipeOf q 5).queue = [vidJob encPkt true false 0] ∧ jobRuns q (vidJob encPkt true false 0) = true) ∧
    (∀ j, j ∈ [vidJob decPkt false false 0, vidJob encPkt true false 0, vidJob decPkt false false 1, vidJob encPkt true false 1,
        vidJob encPkt true true 0] → ready (s j) = true ∧ (pipeOf (s j) 5).running = some j ∧ (pipeOf (s j) 5).stopAt = some .pause) ∧
    (∀ j, j ∈ [vidJob decPkt false false 0, vidJob encPkt true false 0] → frameHeld q j (vdOut j.pkt.param) = false ∧
      frameHeld q j (veOut j.pkt.param) = false) ∧
    0 < tzNf (videoRec decPkt) ∧ tzNf (videoRec decPkt) ≤ 1 ∧ 0 < enNf (videoRec encPkt) ∧ enNf (videoRec encPkt) ≤ 1 := by
  decide +kernel

/-! ### What every step keeps -/

/-- A step from the reset state: its memories, logs and floor are as the invariants ask. -/
theorem wit_StepKeeps : ∃ t, step State.reset = .next t ∧ State.reset.memWf ∧ State.reset.logsBounded ∧ State.reset.fwWf :=
  ⟨_, rfl, ⟨rfl, rfl, rfl, fun c => by simp [State.reset, Core.init, Mem.wf]⟩, ⟨by decide, by decide⟩, ⟨by decide, by decide, by decide⟩⟩

/-- The floor rises in a step that raises it to the version of the image that runs. -/
theorem wit_FloorOnlyRises :
    let s := { up with fw := { Firmware.init with svnA := 64, floor := 63 }, pending := [.fwActivateRaiseFloor (pkt 64 [(254, 1)])] }
    ∃ t, step s = .next t ∧ t.fw.floor = 64 := ⟨_, rfl, rfl⟩

theorem wit_IslandRegistersHold :
    let s := { lifeIs (fun l => { l with pwrEn := false, power := .off }) with mgmt := { Mgmt.init with i3cAddr := some 0x30 } }
    vddAon s = false ∧ s.life.auxGood = true ∧ s.mgmt.i3cAddr.isSome = true := by
  decide +kernel

/-! ### Values of the spec's tables and examples -/

/-- spec/04, the example after Table 4.6: the fields of the MMA word 0x1004_99A2_A00C_0000. -/
theorem test_mma_encoding :
    let w : Word := 0x100499A2A00C0000
    [iClass w, iOp w, iSig w, mFmtA w, mFmtB w, mAa w, mAb w, (mAcc w).toNat, mKd w] = [1, 0, 9, 3, 3, 4, 5, 2, 3] := by
  decide +kernel

/-- spec/17, the example of R337: the fields of a sync range entry. -/
theorem test_range_entry :
    let e : BitVec 64 := 0x0010002000003040
    (rngBase e, rngCount e, rngRemote e, rngPid e) = (0x100, 64, false, 0x3040) := by
  decide +kernel

/-- spec/02, the example of R29: a block whose largest magnitude is 3.9 has the scale byte 0x78; 3.9, 3.3 and -0.01 become 0x7E,
0x7D and 0xBA. The FP32 codes stand for the example's decimals. -/
theorem test_block_scale :
    let vs := [0x4079999A, 0x40533333, 0xBC23D70A].map dec32
    ((convBlock 3 true vs).1, (convBlock 3 true vs).2.1) = (0x78, [0x7E, 0x7D, 0xBA]) := by
  decide +kernel

/-- spec/07, the example of R120: a dilation of 16 with padding 16 on each side keeps 8 outputs. -/
theorem test_dilated_extent : (Geo.mk 8 3 16 1 16 16).out = 8 := by decide

/-- spec/10, the example of R182: the constants of step 1, and the new moments. -/
theorem test_update_constants :
    let r : BitVec 1024 := fields 1024 [(640, 0x3F600000), (608, 0x3F700000), (576, 0x21800000)]
    let k := updConst r (fields 64 [(32, 0x3D800000), (0, 0x3A800000)]) 16 1
    let u := updateElem k (dec32 0x43000000) .zero .zero (dec32 0x3FC00000)
    (f32 k.a1, f32 k.a2, f32 k.c1, f32 k.c2) = (0x3E000000, 0x3D800000, 0x41000000, 0x41800000) ∧ f32 u.1 = 0x39800000 ∧
      f32 u.2.1 = 0x3A000000 := by
  decide +kernel

/-- spec/10, the example of R182: the weight 1.5 − 35 · 2^-15 splits into 0x3FC0 and the remainder 0xDD. -/
theorem test_remainder : (splitRemainder (.fin false (3 * 16384 - 35) (-15))).1 = 0x3FC0 ∧
    (splitRemainder (.fin false (3 * 16384 - 35) (-15))).2.1 = 0xDD := by
  decide +kernel

/-- spec/19, the example of R370: with psize 2 and head 1,022 a doorbell of 1,026 is taken; 1,290 moves nothing and is logged. -/
theorem test_doorbell :
    let r := { ringUp 1022 with ctrl := 0x80050002, head := 1022 }
    let s := setRing (inCtx id) 0 r
    (match exec (.hstDoorbell 0 1026) s with
      | .next t => (ringOf t 0).tail.toNat
      | _ => 0) = 1026 ∧
    (match exec (.hstDoorbell 0 1290) (setRing s 0 { r with tail := 1026 }) with
      | .next t => ((ringOf t 0).tail.toNat, t.dead.map fun e => (e.kind.toNat, e.info.toNat))
      | _ => (0, [])) = (1026, [(7, 0x50A)]) := by
  decide +kernel

/-- spec/19, the example of R370: with 64 entries the receipt of comp 191 goes to entry 62 with phase 1. -/
theorem test_receipt :
    let s := setRing (inCtx id) 0 { ringUp 0 with ctrl := 0x80050002, rcptBase := 0x12340000, comp := 190, consumed := 190 }
    (match exec (.nop (pkt 0 [])) s with
      | .next t => (Mem.num t.hostMem (0x12340000 + 32 * 62) 8, Mem.num t.hostMem (0x12340000 + 32 * 62 + 16) 8,
                    Mem.num t.hostMem (0x12340000 + 32 * 62 + 24) 1)
      | _ => (0, 0, 0)) = (0x1234, 191, 1) := by
  decide +kernel

/-- The CRC of nine ASCII digits under the parameters that the model takes for CRC-32C (a PRESUMED reading). -/
theorem test_crc32c : crc32c [0x31, 0x32, 0x33, 0x34, 0x35, 0x36, 0x37, 0x38, 0x39] = 0xE3069283 := by decide +kernel

/-- spec/02 R22: 1.0 in BF16, FP16, E4M3 and E5M2 is the value 1. -/
theorem test_formats : [(1, 0x3C00), (2, 0x3F80), (3, 0x38), (4, 0x3C)].map (fun x => f32 (decodeElem x.1 x.2)) = List.replicate 4 0x3F800000 := by
  decide +kernel

/-- spec/04 Table 4.5: SUB wraps modulo 2^64. -/
theorem test_alu_wraps : aluOp 1 0 1 = BitVec.allOnes 64 := by decide +kernel

end Sys2Proof.Tests
end

section
/-! SUPPORT. The memories keep their canonical form over every step. -/

namespace Sys2Proof.Machine

/-- Settles O55: what a step keeps (`step_kept`) holds the canonical form of every memory, and neither the queue nor the floor, in
which the state that it starts from differs, is a memory. -/
theorem stepKeepsMemories : Obligations.StepKeepsMemories := by
  intro s t h w
  obtain ⟨f, -, -, -, kept⟩ := step_kept h
  exact kept.mem w

end Sys2Proof.Machine
end

section
/-! SUPPORT. The issue of engine instructions (spec/03 R49; spec/04 R62). -/

namespace Sys2Proof.Machine

/-! ### Fault lists -/

@[simp] theorem chk_eq_nil (b : Bool) (code : Nat) : chk b code = [] ↔ b = false := by cases b <;> simp [chk]

/-! ### The issue of an engine instruction -/

/-- A command that is the issue of engine operation cls.op into queue `q`. -/
def EngineIssued (u : Issuer) (cls op : Nat) (q : EngineQ) (f : State → Out) : Prop :=
  ∃ faults bound kind held, ∀ s, f s = engineIssue u cls op q s faults bound kind held

section
variable (u : Issuer)

theorem execMma_issued : EngineIssued u 1 0 .mat (execMma u) := ⟨_, _, _, _, fun _ => rfl⟩
theorem execSpill_issued : EngineIssued u 1 1 .mat (execSpill u) := ⟨_, _, _, _, fun _ => rfl⟩
theorem execTopk_issued : EngineIssued u 1 2 .mat (execTopk u) := ⟨_, _, _, _, fun _ => rfl⟩
theorem execAccz_issued : EngineIssued u 1 3 .mat (execAccz u) := ⟨_, _, _, _, fun _ => rfl⟩
theorem execKid_issued : EngineIssued u 1 4 .mat (execKid u) := ⟨_, _, _, _, fun _ => rfl⟩
theorem execLds_issued : EngineIssued u 2 11 .vec (execLds u) := ⟨_, _, _, _, fun _ => rfl⟩
theorem execSts_issued : EngineIssued u 2 12 .vec (execSts u) := ⟨_, _, _, _, fun _ => rfl⟩
theorem vecIssue_issued (cls op : Nat) : EngineIssued u cls op .vec (vecIssue cls op u) := ⟨_, _, _, _, fun _ => rfl⟩
theorem execArm_issued : EngineIssued u 4 0 .str (execArm u) := ⟨_, _, _, _, fun _ => rfl⟩
theorem execRearm_issued : EngineIssued u 4 1 .str (execRearm u) := ⟨_, _, _, _, fun _ => rfl⟩
theorem execCancel_issued : EngineIssued u 4 2 .str (execCancel u) := ⟨_, _, _, _, fun _ => rfl⟩
theorem execGather_issued : EngineIssued u 4 3 .str (execGather u) := ⟨_, _, _, _, fun _ => rfl⟩
theorem synIssue_issued (op : Nat) (k : SyncOp) : EngineIssued u 5 op .syn (synIssue op k u) := ⟨_, _, _, _, fun _ => rfl⟩
theorem drainIssue_issued (op : Nat) : EngineIssued u 6 op .drn (drainIssue op u) := ⟨_, _, _, _, fun _ => rfl⟩
theorem tcdIssue_issued (op : Nat) : EngineIssued u 7 op .tcd (tcdIssue op u) := ⟨_, _, _, _, fun _ => rfl⟩

/-- Every engine instruction is issued with its class and operation into its queue. -/
theorem exec_engineRow : ∀ x ∈ engineRows u, EngineIssued u x.2.1 x.2.2.1 x.1 (exec x.2.2.2) := by
  intro x hx
  fin_cases hx
  · exact execMma_issued u
  · exact execSpill_issued u
  · exact execTopk_issued u
  · exact execAccz_issued u
  · exact execKid_issued u
  iterate 11 · exact vecIssue_issued u 2 _
  · exact execLds_issued u
  · exact execSts_issued u
  iterate 10 · exact vecIssue_issued u 3 _
  · exact execArm_issued u
  · exact execRearm_issued u
  · exact execCancel_issued u
  · exact execGather_issued u
  iterate 6 · exact synIssue_issued u _ _
  iterate 3 · exact drainIssue_issued u _
  iterate 2 · exact tcdIssue_issued u _

end

/-- An engine instruction that passes and finds its queue full changes nothing (R49). -/
theorem exec_engineRow_full {u : Issuer} {s : State} {i : Iss} {x : EngineQ × Nat × Nat × Instr} (hx : x ∈ engineRows u)
    (h : Issues u s i x.2.1 x.2.2.1) (hp : passes i.t i.w = true) (hq : queueSize x.1 ≤ queueUsed s u.core.toNat x.1) :
    exec x.2.2.2 s = .next s := by
  obtain ⟨faults, bound, kind, held, he⟩ := exec_engineRow u x hx
  obtain ⟨hu, -, -⟩ := issuing_iss h.2.1
  rw [he]
  exact engineIssue_full h (by rw [hu]; exact hq) hp

/-- A queue whose entries are all on the core has room where the core that issues has. -/
theorem Issues.room {u : Issuer} {s : State} {i : Iss} {cls op : Nat} (h : Issues u s i cls op) {q : EngineQ} (hstr : q ≠ .str)
    (hsyn : q ≠ .syn) (hr : (queueOf i.core q).length < queueSize q) : queueUsed s i.u.core.toNat q < queueSize q := by
  obtain ⟨hu, hc, -⟩ := issuing_iss h.2.1
  rw [hc] at hr
  rw [hu]
  cases q with
  | str => exact absurd rfl hstr
  | syn => exact absurd rfl hsyn
  | mat => exact hr
  | vec => exact hr
  | drn => exact hr
  | tcd => exact hr

/-- The operation field of an instruction fits in the 4 bits of a `VecOp`. -/
theorem vecOp_op (i : Iss) : (vecOp i).op.toNat = iOp i.w := by
  have h : iOp i.w < 2 ^ 4 := BitVec.isLt _
  simpa [vecOp] using h

section
variable {u : Issuer} {s : State} {i : Iss} (hp : passes i.t i.w = true) (hs : sigUnmapped s i = false)
include hp hs

/-! ### The matrix queue (R67) -/

section
variable (hr : i.core.matQ.length < 4)
include hr

theorem mma_enqueues (h : Issues u s i 1 0) (hf : mmaFaults i.t i.w = []) :
    ∃ o, execMma u s = .next (enqueueOp s i .mat (.mma o) false) ∧
      o.aAddr = areg i.t (mAa i.w) ∧ o.bAddr = areg i.t (mAb i.w) ∧ o.acc = mAcc i.w :=
  ⟨_, engineIssue_next h (h.room (by decide) (by decide) hr) hp hs hf rfl, rfl, rfl, rfl⟩

theorem spill_enqueues (h : Issues u s i 1 1) (hz : lowZero i.w 6 = true) :
    ∃ o, execSpill u s = .next (enqueueOp s i .mat (.spill o) false) ∧ o.acc = mAcc i.w :=
  ⟨_, engineIssue_next h (h.room (by decide) (by decide) hr) hp hs (by simp [hz]) rfl, rfl⟩

theorem topk_enqueues (h : Issues u s i 1 2) (hz : lowZero i.w 6 = true) (hl : lsCheck (areg i.t (mAa i.w)) 16384 = [])
    (h1 : 1 ≤ mK i.w) (h16 : mK i.w ≤ 16) :
    execTopk u s = .next (enqueueOp s i .mat (.topk (mAcc i.w) (mK i.w) (areg i.t (mAa i.w))) false) :=
  engineIssue_next h (h.room (by decide) (by decide) hr) hp hs (by simp [hz, hl]; omega) rfl

theorem accz_enqueues (h : Issues u s i 1 3) (hz : lowZero i.w 6 = true) :
    execAccz u s = .next (enqueueOp s i .mat (.accz (mAcc i.w)) false) :=
  engineIssue_next h (h.room (by decide) (by decide) hr) hp hs (by simp [hz]) rfl

theorem kid_enqueues (h : Issues u s i 1 4) (hz : lowZero i.w 6 = true) (hl : lsCheckScratch (areg i.t (mAa i.w)) 64 = [])
    (hk : kidJobs s (u.core.toNat / 16) < 16) :
    execKid u s = .next (enqueueOp s i .mat (.kid (areg i.t (mAa i.w))) false) := by
  obtain ⟨hu, -, -⟩ := issuing_iss h.2.1
  exact engineIssue_next h (h.room (by decide) (by decide) hr) hp hs (by simp [hz, hl])
    (by rw [hu]; exact if_neg (Nat.not_le.mpr hk))

/-- At the bound of Kid jobs the thread sleeps (spec/03 R52). -/
theorem kid_sleeps (h : Issues u s i 1 4) (hz : lowZero i.w 6 = true) (hl : lsCheckScratch (areg i.t (mAa i.w)) 64 = [])
    (hk : 16 ≤ kidJobs s (u.core.toNat / 16)) : execKid u s = .next (sleepAt s i .kidEntry) := by
  obtain ⟨hu, -, -⟩ := issuing_iss h.2.1
  exact engineIssue_bound h (h.room (by decide) (by decide) hr) hp hs (by simp [hz, hl]) (by rw [hu]; exact if_pos hk)

end

/-! ### The vector queue (R68) -/

section
variable (hr : i.core.vecQ.length < 8)
include hr

theorem lds_enqueues (h : Issues u s i 2 11) (hf : lineFaults i.w (areg i.t (vA1 i.w)) = []) :
    execLds u s = .next (enqueueOp s i .vec (.lds (areg i.t (vA1 i.w) + 8 * vWsel i.w) (BitVec.ofNat 5 (vSl i.w))) false) :=
  engineIssue_next h (h.room (by decide) (by decide) hr) hp hs hf rfl

theorem sts_enqueues (h : Issues u s i 2 12) (hf : lineFaults i.w (areg i.t (vAd i.w)) = []) :
    execSts u s = .next (enqueueOp s i .vec (.sts (areg i.t (vAd i.w) + 8 * vWsel i.w) (sreg i.t (vSl i.w))) false) :=
  engineIssue_next h (h.room (by decide) (by decide) hr) hp hs hf rfl

theorem vecIssue_enqueues {cls op : Nat} (h : Issues u s i cls op) (hf : vecFaults i.t i.w = []) :
    vecIssue cls op u s = .next (enqueueOp s i .vec (.vec (vecOp i)) false) ∧ (vecOp i).op.toNat = op ∧
      (vecOp i).isFn = (cls == 3) := by
  have hclass : iClass i.w = cls := h.2.2.1
  have hop : iOp i.w = op := h.2.2.2
  exact ⟨engineIssue_next h (h.room (by decide) (by decide) hr) hp hs hf rfl, hop ▸ vecOp_op i, by rw [← hclass]; rfl⟩

end

/-! ### The drain queue (R73) -/

theorem drainIssue_enqueues (hr : i.core.drnQ.length < 4) {op : Nat} (h : Issues u s i 6 op)
    (hf : drainFaults i.t i.w (op == 2) = []) : drainIssue op u s = .next (enqueueOp s i .drn (.drain (drainOp i)) false) :=
  engineIssue_next h (h.room (by decide) (by decide) hr) hp hs hf rfl

end

/-! ### The rows of one kind of issue -/

/-- The element operations of the vector engine are issues of `vecIssue` with class 2, those of the function unit with class 3. -/
theorem exec_vecRow {u : Issuer} : ∀ x ∈ [(0, Instr.vadd u), (1, .vsub u), (2, .vmul u), (3, .vfma u), (4, .vmax u), (5, .vmin u),
    (6, .cvt u), (7, .scl u), (8, .rsum u), (9, .rmax u), (10, .ssq u)], ∀ s, exec x.2 s = vecIssue 2 x.1 u s := by
  intro x hx
  fin_cases hx
  all_goals exact fun _ => rfl

theorem exec_fnRow {u : Issuer} : ∀ x ∈ [(0, Instr.fnExp u), (1, .fnLog u), (2, .fnRcp u), (3, .fnRsq u), (4, .fnSqrt u),
    (5, .fnTanh u), (6, .fnSigm u), (7, .fnGelu u), (8, .fnSilu u), (9, .fnSin u)], ∀ s, exec x.2 s = vecIssue 3 x.1 u s := by
  intro x hx
  fin_cases hx
  all_goals exact fun _ => rfl

theorem exec_drainRow {u : Issuer} : ∀ x ∈ [(0, Instr.drain u), (1, .drainClr u), (2, .drainRed u)], ∀ s,
    exec x.2 s = drainIssue x.1 u s := by
  intro x hx
  fin_cases hx
  all_goals exact fun _ => rfl

/-- Settles O42: each instruction is an `engineIssue` with no fault and no bound; a KID at its bound is the one that sleeps. -/
theorem engineInstructionsEnterQueues : Obligations.EngineInstructionsEnterQueues := by
  refine ⟨fun u s i hp hs => ⟨fun hr => ⟨?_, ?_, ?_, ?_, ?_⟩, fun hr => ⟨?_, ?_⟩, ?_, ?_⟩,
    fun u s i hp x hx h hq => exec_engineRow_full hx h hp hq, fun u s i hp hs hr hf => ⟨?_, ?_⟩⟩
  · exact mma_enqueues hp hs hr
  · exact spill_enqueues hp hs hr
  · exact topk_enqueues hp hs hr
  · exact accz_enqueues hp hs hr
  · exact kid_enqueues hp hs hr
  · exact lds_enqueues hp hs hr
  · exact sts_enqueues hp hs hr
  · intro hr x hx h hf
    rw [exec_drainRow x hx]
    exact drainIssue_enqueues hp hs hr h hf
  · exact fun hr => kid_sleeps hp hs hr
  · intro x hx h
    rw [exec_vecRow x hx]
    exact vecIssue_enqueues hp hs hr h hf
  · intro x hx h
    rw [exec_fnRow x hx]
    exact vecIssue_enqueues hp hs hr h hf

end Sys2Proof.Machine
end

section
/-! SUPPORT. How the operations of the engines start (spec/03 R435; spec/05 R88, R90). -/

namespace Sys2Proof.Machine

/-! ### Queues -/

@[simp] theorem queueOf_setQueue (c : Core) (q : EngineQ) (l : List EngOp) : queueOf (setQueue c q l) q = l := by cases q <;> rfl

@[simp] theorem setQueue_running (c : Core) (q : EngineQ) (l : List EngOp) : (setQueue c q l).running = c.running := by
  cases q <;> rfl

@[simp] theorem queueOf_running (c : Core) (q : EngineQ) (l : List EngOp) : queueOf { c with running := l } q = queueOf c q := by
  cases q <;> rfl

/-- A core on which the head of a queue has begun. -/
theorem coreOf_beginOp (s : State) {c : Nat} (q : EngineQ) (op : EngOp) (h : c < 256) : coreOf (beginOp s c q op) c =
    { setQueue (coreOf s c) q (queueOf (coreOf s c) q).tail with running := (coreOf s c).running ++ [op] } := by
  simp [beginOp, popQueue, coreOf_modCore _ _ _ h]

theorem beginOp_queue {s : State} {c : Nat} {q : EngineQ} {op : EngOp} {rest : List EngOp} (h : c < 256)
    (hq : queueOf (coreOf s c) q = op :: rest) : queueOf (coreOf (beginOp s c q op) c) q = rest := by
  simp [coreOf_beginOp s q op h, hq]

theorem beginOp_running (s : State) {c : Nat} (q : EngineQ) (op : EngOp) (h : c < 256) :
    (coreOf (beginOp s c q op) c).running = (coreOf s c).running ++ [op] := by
  simp [coreOf_beginOp s q op h]

/-! ### The head of a queue, by its kind -/

section
variable {s : State} {n : Nat} {op : EngOp} {q : EngineQ}

/-- An operation of the core's own engines, not refused, starts where its unit, its tiles and its slots are free. -/
theorem startHead_own {c : Nat} (hkid : ∀ a, op.kind ≠ .kid a) (hsyn : ∀ o, op.kind ≠ .syn o)
    (htcd : ∀ x a b y z, op.kind ≠ .tcd x a b y z) (hgather : ∀ g, op.kind ≠ .gather g)
    (hred : ∀ o, op.kind = .drain o → o.op = 2 → handleBad s n (handleOf (coreOf s c) o) o.fmtD.toNat = false) :
    startHead s c q n op = if canStart (coreOf s c) op.kind then beginOp s c q op else s := by
  unfold startHead
  split
  case h_1 a hk => exact absurd hk (hkid a)
  case h_2 o hk => exact absurd hk (hsyn o)
  case h_3 x a b y z hk => exact absurd hk (htcd x a b y z)
  case h_4 g hk => exact absurd hk (hgather g)
  case h_5 o hk =>
    have hok : ¬(o.op = 2 ∧ handleBad s n (handleOf (coreOf s c) o) o.fmtD.toNat = true) := fun h => by
      simp [hred o hk h.1] at h
    rw [if_neg hok]
    cases canStart (coreOf s c) op.kind <;> rfl
  case h_6 => rfl

/-- A DRAIN_RED whose handle is refused faults its thread (spec/09 R168). -/
theorem startHead_refused {core : BitVec 8} {o : DrainOp} (hk : op.kind = .drain o) (hop : o.op = 2)
    (hc : canStart (coreOf s core.toNat) op.kind = true)
    (hbad : handleBad s n (handleOf (coreOf s core.toNat) o) o.fmtD.toNat = true) :
    startHead s core.toNat q n op =
      instrFault (popQueue s core.toNat q) { core := core, thread := op.thread } op.pc.toNat 1 := by
  rw [hk] at hc
  simp [startHead, hk, hop, hc, hbad]

theorem startHead_gather {c : Nat} {g : GatherOp} (hk : op.kind = .gather g) :
    startHead s c q n op = if g.n = 0 then beginOp s c q op else s := by
  simp [startHead, hk]

theorem startHead_syn {c : Nat} {o : SynOp} (hk : op.kind = .syn o) : startHead s c q n op = startSyn s c n op o := by
  simp [startHead, hk]

/-- A counter of this module gets the operation at its home. -/
theorem startSyn_here {c : Nat} {o : SynOp} {pid : BitVec 16} (h : translate s n o.vid.toNat = .here pid) :
    startSyn s c n op o = arrive (popQueue s c .syn) (synReq c n op o pid) := by
  simp [startSyn, h]

end

section
variable {core : BitVec 8} {q : EngineQ} {s : State} {n : BitVec 6} {op : EngOp}

/-- A KID enters the queue of its cluster's Kid engine with the descriptor that it names (spec/07 R130). -/
theorem startHead_kid {a : Nat} (hk : op.kind = .kid a) : startHead s core.toNat q n.toNat op =
    modCluster (popQueue s core.toNat q) (core.toNat / 16) fun k => { k with kidQ := k.kidQ ++
      [{ core := core, op := op, slot := n, desc := BitVec.ofNat 512 (ofLe (Mem.read (coreOf s core.toNat).ls a 64)) }] } := by
  simp [startHead, hk, lsRead]

/-- A codec operation enters its cluster's codec unit (spec/14 R261). -/
theorem startHead_tcd {x : Bool} {src dst : Nat} {cfg : BitVec 6} {coord : Word} (hk : op.kind = .tcd x src dst cfg coord) :
    ∃ j, startHead s core.toNat q n.toNat op = pushCodec (popQueue s core.toNat q) core.toNat j ∧ j.core = core ∧
      j.for_ = .instr op ∧ j.slot = n ∧ j.expand = x ∧ j.cfg = cfg ∧ j.coord = coord ∧ j.lsAddr = src ∧ j.tierOff = dst := by
  simp only [startHead, hk]
  exact ⟨_, rfl, by simp, rfl, by simp, rfl, rfl, rfl, rfl, rfl⟩

theorem engineOpStart_next {rest : List EngOp} (hr : ready s = true) (hn : (coreOf s core.toNat).slot = some n)
    (hq : queueOf (coreOf s core.toNat) q = op :: rest) :
    exec (.engineOpStart core q) s = .next (startHead s core.toNat q n.toNat op) := by
  show execEngineOpStart core q s = _
  simp [execEngineOpStart, hr, hn, hq]

end

end Sys2Proof.Machine
end
section
/-! SUPPORT. How the operations of the engines complete (spec/04 Table 4.12). -/

namespace Sys2Proof.Machine

/-! ### The effect of an operation, by its kind -/

section
variable {s : State} {c n : Nat} {op : EngOp} {errs : List LsError}

theorem finishOp_mma {o : MmaOp} (hk : op.kind = .mma o) :
    finishOp s c n op errs = some (setCore s c (runMma (coreOf s c) errs o (seedOf s n) (stepOf s n))) := by
  simp only [finishOp, hk]

theorem finishOp_spill {o : SpillOp} (hk : op.kind = .spill o) :
    finishOp s c n op errs = some (setCore s c (runSpill (coreOf s c) errs o (seedOf s n) (stepOf s n))) := by
  simp only [finishOp, hk]

theorem finishOp_topk {a : BitVec 3} {k addr : Nat} (hk : op.kind = .topk a k addr) :
    finishOp s c n op errs = some (setCore s c (runTopk (coreOf s c) errs a.toNat k addr)) := by
  simp only [finishOp, hk]

theorem finishOp_accz {a : BitVec 3} (hk : op.kind = .accz a) :
    finishOp s c n op errs = some (setCore s c (runAccz (coreOf s c) a.toNat)) := by
  simp only [finishOp, hk]

theorem finishOp_vec {o : VecOp} (hk : op.kind = .vec o) :
    finishOp s c n op errs = some (setCore s c { coreOf s c with ls := runVec (coreOf s c).ls errs o }) := by
  simp only [finishOp, hk]

theorem finishOp_lds {a : Nat} {rd : BitVec 5} (hk : op.kind = .lds a rd) :
    finishOp s c n op errs = some (setCore s c (setThread (coreOf s c) op.thread.toNat
      (setS (threadOf (coreOf s c) op.thread.toNat) rd.toNat (ldsWord (coreOf s c).ls errs a)))) := by
  simp only [finishOp, hk]

theorem finishOp_sts {a : Nat} {v : Word} (hk : op.kind = .sts a v) :
    finishOp s c n op errs = some (setCore s c { coreOf s c with ls := Mem.put (coreOf s c).ls a 8 v.toNat }) := by
  simp only [finishOp, hk]

theorem finishOp_drain {o : DrainOp} (hk : op.kind = .drain o) (hop : o.op ≠ 2) :
    finishOp s c n op errs = some (drainFlag (setCore s c (runDrain (coreOf s c) errs o).1) n c op o
      (runDrain (coreOf s c) errs o).2) := by
  simp only [finishOp, hk, if_neg hop]

/-- A DRAIN_RED stays where its network has no room, unless its plan is ending. -/
theorem finishOp_red_waits {o : DrainOp} (hk : op.kind = .drain o) (hop : o.op = 2)
    (hw : (redWaits s n (handleOf (coreOf s c) o) && !planEnding s n) = true) : finishOp s c n op errs = none := by
  simp only [finishOp, hk, if_pos hop, if_pos hw]

theorem finishOp_red {o : DrainOp} (hk : op.kind = .drain o) (hop : o.op = 2)
    (hw : (redWaits s n (handleOf (coreOf s c) o) && !planEnding s n) = false) :
    let h := handleOf (coreOf s c) o
    let r := redDrain (coreOf s c) errs o (hRows h) (hCols h)
    finishOp s c n op errs = some (acceptOwn (drainFlag (setCore s c (clearSource (coreOf s c) o)) n c op o r.2)
      n (hColl h) (hGroup h) (hSlice h) r.1 c) := by
  simp [finishOp, hk, hop, hw]

/-- The thread of operation `op` is told a status and a stream number, if it asked. -/
def toldOf (c : Nat) (op : EngOp) (r : State × Nat × Nat) (sst : BitVec 5) : State :=
  modThread r.1 c op.thread.toNat fun t => deliver t op.id sst.toNat (statusWord r.2.1 r.2.2)

theorem finishOp_arm {d : BitVec 512} {sst : BitVec 5} (hk : op.kind = .arm d sst) (hone : (coreOf s c).running = [op]) :
    finishOp s c n op errs = some (toldOf c op (armStream s c n d) sst) := by
  simp [finishOp, hk, hone, toldOf]

theorem finishOp_rearm {d : BitVec 512} {k : BitVec 4} {sst : BitVec 5} (hk : op.kind = .rearm d k sst)
    (hone : (coreOf s c).running = [op]) : finishOp s c n op errs = some (toldOf c op (rearmStream s c n k.toNat d) sst) := by
  simp [finishOp, hk, hone, toldOf]

theorem finishOp_cancel {k : BitVec 4} {sst : BitVec 5} (hk : op.kind = .cancel k sst) (hone : (coreOf s c).running = [op]) :
    finishOp s c n op errs = some (toldOf c op (cancelOne s c k.toNat) sst) := by
  simp [finishOp, hk, hone, toldOf]

/-- A gather of which a row is missing does not complete. -/
theorem finishOp_gather_waits {g : GatherOp} (hk : op.kind = .gather g) (hg : g.got.length < g.n) :
    finishOp s c n op errs = none := by
  simp only [finishOp, hk, if_pos hg]

theorem finishOp_gather {g : GatherOp} (hk : op.kind = .gather g) (hg : g.n ≤ g.got.length)
    (ht : (threadOf (coreOf s c) op.thread.toNat).state ≠ .halted) :
    let ls := g.got.foldl (fun ls r => Mem.write ls (g.dst + r.1 * (dRowBytes g.desc * 64)) r.2) (coreOf s c).ls
    let t := setCore s c { coreOf s c with ls := ls }
    finishOp s c n op errs = some (if g.bad then endPlan t n 0x0500 0 0 else t) := by
  simp [finishOp, hk, Nat.not_lt.mpr hg, ht]

end

/-! ### The operation leaves its engine, signals and reports its errors -/

/-- The operation has left its engine. -/
def leaveEngine (t : State) (c : Nat) (op : EngOp) : State :=
  modCore t c fun x => { x with running := x.running.filter fun o => o.id != op.id }

section
variable {core : BitVec 8} {s : State} {n : BitVec 6} {op : EngOp} {errs : List LsError}

theorem engineOpComplete_next {t : State} (hr : ready s = true) (hn : (coreOf s core.toNat).slot = some n)
    (ho : (coreOf s core.toNat).running.find? (fun o => o.id == op.id) = some op)
    (hf : finishOp s core.toNat n.toNat op errs = some t) : exec (.engineOpComplete core op.id errs) s =
      .next (lsErrors (signalSig (leaveEngine t core.toNat op) core n.toNat op.sig) core.toNat (instOf op) errs) := by
  show execEngineOpComplete core op.id errs s = _
  simp [execEngineOpComplete, hr, hn, ho, hf, leaveEngine]

theorem engineOpComplete_waits (hr : ready s = true) (hn : (coreOf s core.toNat).slot = some n)
    (ho : (coreOf s core.toNat).running.find? (fun o => o.id == op.id) = some op)
    (hf : finishOp s core.toNat n.toNat op errs = none) : exec (.engineOpComplete core op.id errs) s = .next s := by
  show execEngineOpComplete core op.id errs s = _
  simp [execEngineOpComplete, hr, hn, ho, hf]

end

/-! ### The only operation of a core, with no signal and no errors -/

section
variable {core : BitVec 8} {s : State} {n : BitVec 6} {op : EngOp}

/-- It leaves its core as its effect has it, with nothing running. -/
theorem engineOpComplete_only {x : Core} (hr : ready s = true) (hn : (coreOf s core.toNat).slot = some n)
    (hone : (coreOf s core.toNat).running = [op]) (hsig : op.sig = none)
    (hf : finishOp s core.toNat n.toNat op [] = some (setCore s core.toNat x)) (hx : x.running = [op]) :
    ∃ t, exec (.engineOpComplete core op.id []) s = .next t ∧ coreOf t core.toNat = { x with running := [] } := by
  refine ⟨_, engineOpComplete_next hr hn (by simp [hone]) hf, ?_⟩
  have hc : core.toNat < 256 := core.isLt
  simp [lsErrors, signalSig, hsig, leaveEngine, coreOf_modCore _ _ _ hc, coreOf_setCore _ _ _ hc, hx]

/-- A tile that is zeroed reads as 0. -/
theorem tileWord_runAccz (c : Core) (n e : Nat) (he : e < 16384) : tileWord (runAccz c n) n e = 0 := by
  have hb : ∀ i ∈ List.range 4, Mem.byte (Mem.zero c.ls (tileBase n) 0x10000) (tileBase n + 4 * e + i) = 0 := fun i hi => by
    rw [List.mem_range] at hi
    rw [Mem.byte_zero, if_pos (by omega)]
  have hread : Mem.read (Mem.zero c.ls (tileBase n) 0x10000) (tileBase n + 4 * e) 4 = [0, 0, 0, 0] := List.map_congr_left hb
  show ofLe (Mem.read (Mem.zero c.ls (tileBase n) 0x10000) (tileBase n + 4 * e) 4) = 0
  rw [hread]
  rfl

/-- A word read back where it was put. -/
theorem num_put_word (m : Mem) (a : Nat) (v : Word) : Mem.num (Mem.put m a 8 v.toNat) a 8 = v.toNat := by
  rw [Mem.num_put]
  exact Nat.mod_eq_of_lt v.isLt

theorem byte_put_outside (m : Mem) {a k x : Nat} (v : Nat) (h : x < a ∨ a + k ≤ x) :
    Mem.byte (Mem.put m a k v) x = Mem.byte m x := by
  rw [Mem.put, Mem.byte_write, leBytes_length, if_neg (by omega)]

theorem ldsWord_good (ls : Mem) (a : Nat) : ldsWord ls [] a = BitVec.ofNat 64 (Mem.num ls a 8) := rfl

theorem setS_reads (t : Thread) {i : Nat} (v : Word) (h0 : i ≠ 0) (h : i < 32) : vget (setS t i v).s i 0 = v := by
  rw [setS, if_neg h0]
  exact vget_vset_eq _ _ _ _ h

end

end Sys2Proof.Machine
end
section
/-! SUPPORT. How a gather issues its indices (spec/04 R70). -/

namespace Sys2Proof.Machine

/-- The gather at the head of the fetch queue starts once its last index has been issued. -/
def startIfLast (s : State) (k : Nat) (op : EngOp) (g : GatherOp) : State :=
  if g.next + 1 = g.n then match (coreOf s k).strQ with
    | o :: _ => if o.id = op.id then beginOp s k .str o else s
    | [] => s
  else s

/-- The gather has counted the index that it issues. -/
def countIndex (s : State) (k : Nat) (op : EngOp) : State :=
  modCore s k fun x => modGather x op.id fun g => { g with next := g.next + 1 }

/-- The bytes of a row of zeros. -/
def zeroRow (g : GatherOp) : List Byte := List.replicate (dRowBytes g.desc * 64) 0

section
variable {core : BitVec 8} {s : State} {n : BitVec 6} {op : EngOp} {rest : List EngOp} {g : GatherOp} {soft : List Nat}
  (hr : ready s = true) (hn : (coreOf s core.toNat).slot = some n) (hq : (coreOf s core.toNat).strQ = op :: rest)
  (hk : op.kind = .gather g) (hg : g.next < g.n)
include hr hn hq hk hg

/-- At the bound of fetch tags the gather's thread sleeps, if it could issue. -/
theorem gatherIndex_noTag (ht : tagFree (coreOf s core.toNat) = false) (ecc : Ecc) :
    exec (.gatherIndexIssue core ⟨ecc, soft⟩) s = .next (modThread s core.toNat op.thread.toNat fun t =>
      if t.hold = .none ∧ t.state = .ready then { sleep t with hold := .fetchTag } else t) := by
  show execGatherIndexIssue core ⟨ecc, soft⟩ s = _
  simp [execGatherIndexIssue, hr, hn, hq, hk, Nat.not_le.mpr hg, ht]

section
variable (ht : tagFree (coreOf s core.toNat) = true)
include ht

/-- An index past the row count lands a row of zeros. -/
theorem gatherIndex_past (hx : dNrow g.desc ≤ Mem.num (coreOf s core.toNat).ls (g.list + 4 * g.next) 4) :
    exec (.gatherIndexIssue core ⟨.good, soft⟩) s = .next (startIfLast
      (landRow (countIndex s core.toNat op) core.toNat op.id g.next (zeroRow g) false) core.toNat op g) := by
  show execGatherIndexIssue core ⟨.good, soft⟩ s = _
  simp only [execGatherIndexIssue, hr, hn, hq, hk, if_neg (Nat.not_le.mpr hg), ht, Bool.not_true,
    Bool.false_eq_true, if_false, if_pos hx]
  rfl

/-- An index of a row fetches that row, after the home has noted the corrected words. -/
theorem gatherIndex_row (hx : Mem.num (coreOf s core.toNat).ls (g.list + 4 * g.next) 4 < dNrow g.desc) :
    let s1 := countIndex s core.toNat op
    exec (.gatherIndexIssue core ⟨.good, soft⟩) s = .next (startIfLast (fetchRow
      ((objOf s1 n.toNat (dHome s1 n.toNat g.desc)).elim s1 fun o => noteSofts s1 n.toNat o soft) core.toNat n.toNat op.id g.next
      (Mem.num (coreOf s core.toNat).ls (g.list + 4 * g.next) 4) g) core.toNat op g) := by
  show execGatherIndexIssue core ⟨.good, soft⟩ s = _
  simp only [execGatherIndexIssue, hr, hn, hq, hk, if_neg (Nat.not_le.mpr hg), ht, Bool.not_true,
    Bool.false_eq_true, if_false, if_neg (Nat.not_le.mpr hx)]
  rfl

/-- An index that cannot be read is noted, and lands a row of zeros. -/
theorem gatherIndex_unreadable : exec (.gatherIndexIssue core ⟨.uncorrectable, soft⟩) s = .next (startIfLast
    (noteHardLs (landRow (countIndex s core.toNat op) core.toNat op.id g.next (zeroRow g) true) core.toNat
      ((g.list + 4 * g.next) / 8 * 8) (instOf op)) core.toNat op g) := by
  show execGatherIndexIssue core ⟨.uncorrectable, soft⟩ s = _
  simp only [execGatherIndexIssue, hr, hn, hq, hk, if_neg (Nat.not_le.mpr hg), ht, Bool.not_true,
    Bool.false_eq_true, if_false]
  rfl

end
end

end Sys2Proof.Machine
end
section
/-! SUPPORT. The engines. -/

namespace Sys2Proof.Machine

section
variable {core : BitVec 8} {s : State} {n : BitVec 6} {op : EngOp} (hr : ready s = true)
  (hn : (coreOf s core.toNat).slot = some n) (hone : (coreOf s core.toNat).running = [op]) (hsig : op.sig = none)
include hr hn hone hsig

/-- STS writes its word and no other byte. -/
theorem sts_completes {a : Nat} {v : Word} (hk : op.kind = .sts a v) : ∃ t, exec (.engineOpComplete core op.id []) s = .next t ∧
    Mem.num (coreOf t core.toNat).ls a 8 = v.toNat ∧ (coreOf t core.toNat).running = [] ∧
    ∀ x, x < a ∨ a + 8 ≤ x → Mem.byte (coreOf t core.toNat).ls x = Mem.byte (coreOf s core.toNat).ls x := by
  obtain ⟨t, he, hc⟩ := engineOpComplete_only hr hn hone hsig (finishOp_sts hk) hone
  refine ⟨t, he, ?_⟩
  rw [hc]
  exact ⟨num_put_word _ a v, rfl, fun x hx => byte_put_outside _ _ hx⟩

/-- LDS delivers a word of the local store, which it leaves as it is. -/
theorem lds_completes {a : Nat} {rd : BitVec 5} (hk : op.kind = .lds a rd) (h0 : rd ≠ 0) :
    ∃ t, exec (.engineOpComplete core op.id []) s = .next t ∧
      vget (threadOf (coreOf t core.toNat) op.thread.toNat).s rd.toNat 0 = BitVec.ofNat 64 (Mem.num (coreOf s core.toNat).ls a 8) ∧
      (coreOf t core.toNat).ls = (coreOf s core.toNat).ls := by
  obtain ⟨t, he, hc⟩ := engineOpComplete_only hr hn hone hsig (finishOp_lds hk) hone
  have hrd : rd.toNat ≠ 0 := fun h => h0 (BitVec.eq_of_toNat_eq h)
  refine ⟨t, he, ?_⟩
  rw [hc]
  refine ⟨?_, rfl⟩
  show vget (threadOf (setThread (coreOf s core.toNat) op.thread.toNat _) op.thread.toNat).s rd.toNat 0 = _
  rw [threadOf_setThread _ _ _ op.thread.isLt, setS_reads _ _ hrd rd.isLt, ldsWord_good]

/-- ACCZ leaves a tile that reads as 0. -/
theorem accz_completes {acc : BitVec 3} (hk : op.kind = .accz acc) : ∃ t, exec (.engineOpComplete core op.id []) s = .next t ∧
    ∀ e, e < 16384 → tileWord (coreOf t core.toNat) acc.toNat e = 0 := by
  obtain ⟨t, he, hc⟩ := engineOpComplete_only hr hn hone hsig (finishOp_accz hk) hone
  refine ⟨t, he, ?_⟩
  rw [hc]
  exact fun e h => tileWord_runAccz _ _ _ h

end

/-- Settles O45: a start, a completion and an index issue each do what the kind of the operation says, and a STS, LDS or ACCZ that
runs alone leaves its core as its effect has it. -/
theorem engineOpsRun : Obligations.EngineOpsRun := by
  refine ⟨?starts, ?completes, ?alone, ?gathers⟩
  case starts =>
    intro core q s n op rest hr hn hq
    have hc : core.toNat < 256 := core.isLt
    have start := engineOpStart_next hr hn hq
    refine ⟨fun hkid hsyn htcd hgather hred => ?_, fun o hk hop hcan hbad => ?_, fun g hk => ?_, fun a hk => ?_, fun o hk => ?_,
      fun x src dst cfg coord hk => ?_, beginOp_queue hc hq, beginOp_running s q op hc⟩
    · rw [start, startHead_own hkid hsyn htcd hgather hred]
    · rw [start, startHead_refused hk hop hcan hbad]
    · rw [start, startHead_gather hk]
    · rw [start, startHead_kid hk]
    · exact ⟨by rw [start, startHead_syn hk], fun pid h => startSyn_here h⟩
    · obtain ⟨j, hj, fields⟩ := startHead_tcd (s := s) (q := q) (n := n) (core := core) hk
      exact ⟨j, by rw [start, hj], fields⟩
  case completes =>
    intro core s n op errs hr hn ho
    have hdone := fun t => engineOpComplete_next (errs := errs) (t := t) hr hn ho
    have hwaits := engineOpComplete_waits (errs := errs) hr hn ho
    exact ⟨fun o hk => hdone _ (finishOp_mma hk), fun o hk => hdone _ (finishOp_spill hk),
      fun a k addr hk => hdone _ (finishOp_topk hk), fun a hk => hdone _ (finishOp_accz hk),
      fun o hk => hdone _ (finishOp_vec hk), fun a rd hk => hdone _ (finishOp_lds hk),
      fun a v hk => hdone _ (finishOp_sts hk), fun o hk hop => hdone _ (finishOp_drain hk hop),
      fun o hk hop => ⟨fun hw => hwaits (finishOp_red_waits hk hop hw), fun hw => hdone _ (finishOp_red hk hop hw)⟩,
      fun hone => ⟨fun d sst hk => hdone _ (finishOp_arm hk hone), fun d k sst hk => hdone _ (finishOp_rearm hk hone),
        fun k sst hk => hdone _ (finishOp_cancel hk hone)⟩,
      fun g hk ht => ⟨fun hg => hwaits (finishOp_gather_waits hk hg), fun hg => hdone _ (finishOp_gather hk hg ht)⟩⟩
  case alone =>
    intro core s n op hr hn hone hsig
    exact ⟨fun a v hk => sts_completes hr hn hone hsig hk, fun a rd hk h0 => lds_completes hr hn hone hsig hk h0,
      fun acc hk => accz_completes hr hn hone hsig hk⟩
  case gathers =>
    intro core s n op rest g soft hr hn hq hk hg
    exact ⟨fun ht _ _ ecc => gatherIndex_noTag hr hn hq hk hg ht ecc,
      fun ht => ⟨fun hx => gatherIndex_past hr hn hq hk hg ht hx, fun hx => gatherIndex_row hr hn hq hk hg ht hx,
        gatherIndex_unreadable hr hn hq hk hg ht⟩⟩

end Sys2Proof.Machine
end

section
/-! SUPPORT. What an issue changes of its core and thread, and what it leaves unchanged (spec/03 R49; spec/04 R62). -/

namespace Sys2Proof.Machine

/-! ### The thread that issues -/

theorem Issues.issuer {u : Issuer} {s : State} {i : Iss} {cls op : Nat} (h : Issues u s i cls op) : i.u = u :=
  (issuing_iss h.2.1).1

theorem Issues.core {u : Issuer} {s : State} {i : Iss} {cls op : Nat} (h : Issues u s i cls op) :
    i.core = coreOf s u.core.toNat :=
  (issuing_iss h.2.1).2.1

/-- Only a READY thread issues. -/
theorem Issues.ready {u : Issuer} {s : State} {i : Iss} {cls op : Nat} (h : Issues u s i cls op) : i.t.state = .ready := by
  obtain ⟨-, hissuing, -⟩ := h
  obtain ⟨-, -, ht⟩ := issuing_iss hissuing
  rw [ht]
  refine Decidable.byContradiction fun hne => ?_
  simp [issuing, hne] at hissuing

/-! ### The queues and threads of a core -/

@[simp] theorem queueOf_setThread (c : Core) (t : Nat) (x : Thread) (q : EngineQ) : queueOf (setThread c t x) q = queueOf c q := by
  cases q <;> rfl

@[simp] theorem queueOf_noteIssue (u : BitVec 5) (p : Option EngineQ) (c : Core) (q : EngineQ) :
    queueOf (noteIssue u p c) q = queueOf c q := by
  cases q <;> rfl

@[simp] theorem queueOf_nextOp (c : Core) (n : Nat) (q : EngineQ) : queueOf { c with nextOp := n } q = queueOf c q := by
  cases q <;> rfl

theorem queueOf_setQueue_ne (c : Core) {q r : EngineQ} (l : List EngOp) (h : r ≠ q) : queueOf (setQueue c q l) r = queueOf c r := by
  cases q <;> cases r <;> trivial

@[simp] theorem setQueue_threads (c : Core) (q : EngineQ) (l : List EngOp) : (setQueue c q l).threads = c.threads := by
  cases q <;> rfl

@[simp] theorem setQueue_ls (c : Core) (q : EngineQ) (l : List EngOp) : (setQueue c q l).ls = c.ls := by
  cases q <;> rfl

@[simp] theorem setQueue_streams (c : Core) (q : EngineQ) (l : List EngOp) : (setQueue c q l).streams = c.streams := by
  cases q <;> rfl

/-! ### An instruction that enters no queue -/

section
variable (s : State) (i : Iss) (t : Thread)

theorem coreOf_retire : coreOf (retire s i t) i.u.core.toNat =
    setThread (noteIssue i.u.thread none (coreOf s i.u.core.toNat)) i.u.thread.toNat t :=
  coreOf_modCore _ _ _ i.u.core.isLt

theorem coreOf_retire_ne {x : Nat} (h : x ≠ i.u.core.toNat) : coreOf (retire s i t) x = coreOf s x :=
  coreOf_modCore_ne _ _ _ _ h

theorem threadOf_retire : threadOf (coreOf (retire s i t) i.u.core.toNat) i.u.thread.toNat = t := by
  rw [coreOf_retire]
  exact threadOf_setThread _ _ _ i.u.thread.isLt

theorem threadOf_retire_ne {x : Nat} (h : x ≠ i.u.thread.toNat) :
    threadOf (coreOf (retire s i t) i.u.core.toNat) x = threadOf (coreOf s i.u.core.toNat) x := by
  rw [coreOf_retire]
  exact threadOf_setThread_ne _ _ _ _ h

theorem queueOf_retire (q : EngineQ) :
    queueOf (coreOf (retire s i t) i.u.core.toNat) q = queueOf (coreOf s i.u.core.toNat) q := by
  simp [coreOf_retire]

theorem ls_retire : (coreOf (retire s i t) i.u.core.toNat).ls = (coreOf s i.u.core.toNat).ls := by
  rw [coreOf_retire]
  rfl

end

/-! ### An operation that enters a queue -/

/-- The entry that instruction `i` adds to a queue of core `c`. -/
def issuedOp (c : Core) (i : Iss) (k : EngKind) : EngOp :=
  { id := c.nextOp, thread := i.u.thread, pc := i.t.pc, kind := k, sig := sigOf i.t i.w }

/-- The issuing thread afterwards: at its next instruction, held for the result if it awaits one. -/
def issuedThread (c : Core) (i : Iss) (held : Bool) : Thread :=
  if held then { stepPc i.t with hold := .result c.nextOp } else stepPc i.t

theorem issuedThread_pc (c : Core) (i : Iss) (held : Bool) : (issuedThread c i held).pc = i.t.pc + 1 := by
  cases held <;> rfl

theorem issuedThread_s (c : Core) (i : Iss) (held : Bool) : (issuedThread c i held).s = i.t.s := by
  cases held <;> rfl

/-- Core `c` once the operation is in queue `q`. -/
def entered (c : Core) (i : Iss) (q : EngineQ) (k : EngKind) (held : Bool) : Core :=
  setThread (setQueue { noteIssue i.u.thread (some q) c with nextOp := c.nextOp + 1 } q (queueOf c q ++ [issuedOp c i k]))
    i.u.thread.toNat (issuedThread c i held)

theorem coreOf_enqueueOp (s : State) (i : Iss) (q : EngineQ) (k : EngKind) (held : Bool) :
    coreOf (enqueueOp s i q k held) i.u.core.toNat = entered (coreOf s i.u.core.toNat) i q k held :=
  coreOf_modCore _ _ _ i.u.core.isLt

section
variable (c : Core) (i : Iss) (q : EngineQ) (k : EngKind) (held : Bool)

theorem queueOf_entered : queueOf (entered c i q k held) q = queueOf c q ++ [issuedOp c i k] := by
  simp [entered]

theorem queueOf_entered_ne {r : EngineQ} (h : r ≠ q) : queueOf (entered c i q k held) r = queueOf c r := by
  simp [entered, queueOf_setQueue_ne _ _ h]

theorem entered_ls : (entered c i q k held).ls = c.ls := setQueue_ls _ q _

theorem entered_streams : (entered c i q k held).streams = c.streams := setQueue_streams _ q _

theorem threadOf_entered : threadOf (entered c i q k held) i.u.thread.toNat = issuedThread c i held :=
  threadOf_setThread _ _ _ i.u.thread.isLt

theorem threadOf_entered_ne {x : Nat} (h : x ≠ i.u.thread.toNat) : threadOf (entered c i q k held) x = threadOf c x := by
  rw [entered, threadOf_setThread_ne _ _ _ _ h, threadOf, setQueue_threads]
  rfl

end

/-- Settles O44: the issuing core becomes `entered`, whose queues, threads and local store are known; an enqueue touches no other
core and no other part of the state. -/
theorem enqueueFrame : Obligations.EnqueueFrame := by
  intro s i q k held _
  dsimp only
  rw [coreOf_enqueueOp, threadOf_entered]
  exact ⟨queueOf_entered _ i q k held, fun r h => queueOf_entered_ne _ i q k held h, entered_ls _ i q k held,
    entered_streams _ i q k held, issuedThread_pc _ i held, issuedThread_s _ i held,
    fun x h => threadOf_entered_ne _ i q k held h, fun x h => coreOf_modCore_ne _ _ _ _ h, rfl, rfl, rfl, rfl, rfl, rfl⟩

end Sys2Proof.Machine
end

section
/-! SUPPORT. The ALU (spec/04 Table 4.5, R58, R64). -/

namespace Sys2Proof.Machine

section
variable (t : Thread) (i : Nat) (v : Word)

theorem setS_zero : setS t 0 v = t := if_pos rfl

theorem setS_of_ne {i : Nat} (h : i ≠ 0) : setS t i v = { t with s := vset t.s i v } := if_neg h

theorem setS_reads_ne {j : Nat} (h : j ≠ i) : vget (setS t i v).s j 0 = vget t.s j 0 := by
  by_cases h0 : i = 0
  · rw [h0, setS_zero]
  · rw [setS_of_ne t v h0]
    exact vget_vset_ne _ _ _ _ _ h

/-- A write of a scalar register changes the scalar registers alone. -/
theorem setS_frame : (setS t i v).a = t.a ∧ (setS t i v).pc = t.pc ∧ (setS t i v).p = t.p ∧ (setS t i v).loops = t.loops ∧
    (setS t i v).rtag = t.rtag ∧ (setS t i v).state = t.state := by
  by_cases h0 : i = 0
  · rw [h0, setS_zero]
    exact ⟨rfl, rfl, rfl, rfl, rfl, rfl⟩
  · rw [setS_of_ne t v h0]
    exact ⟨rfl, rfl, rfl, rfl, rfl, rfl⟩

theorem setA_reads_ne {j : Nat} (h : j ≠ i) : vget (setA t i v).a j 0 = vget t.a j 0 := vget_vset_ne _ _ _ _ _ h

end

section
variable {t : Thread} {w : Word} (y : Word)

theorem aluWith_scalar (h : cF w = false) :
    aluWith t w y = stepPc (setS t (cRd w) (aluOp (cSub w) (sreg t (cRs1 w)) y)) := by
  simp [aluWith, h]

theorem aluWith_address (h : cF w = true) :
    aluWith t w y = stepPc (setA t (cRd w) (aluOp (cSub w) ((vget t.a (cRs1 w) 0).setWidth 64) y)) := by
  simp [aluWith, h]

end

/-- Settles O41: the result goes to one scalar register, or to one address register, and the thread to its next instruction. -/
theorem aluWritesOneRegister : Obligations.AluWritesOneRegister := by
  intro t w y
  cases hf : cF w with
  | false =>
    obtain ⟨ha, hpc, hp, hloops, hrtag, hstate⟩ := setS_frame t (cRd w) (aluOp (cSub w) (sreg t (cRs1 w)) y)
    rw [aluWith_scalar y hf]
    exact ⟨congrArg (· + 1) hpc, hp, hloops, hrtag, hstate,
      fun _ => ⟨ha, fun i h => setS_reads_ne t _ _ h, fun h0 h => setS_reads t _ h0 h,
        fun h0 => by rw [h0, setS_zero]; rfl⟩, nofun⟩
  | true =>
    rw [aluWith_address y hf]
    exact ⟨rfl, rfl, rfl, rfl, rfl, nofun, fun _ => ⟨rfl, fun i h => setA_reads_ne t _ _ h⟩⟩

end Sys2Proof.Machine
end

section
/-! SUPPORT. The issue of control instructions (spec/03 R48; spec/04 R61, R64, R65; spec/17 R332). -/

namespace Sys2Proof.Machine

/-! ### The shell of a control instruction -/

section
variable {u : Issuer} {s : State} {i : Iss} {op : Nat} {f : Iss → Except Nat Thread} (h : Issues u s i 0 op)
  (hr : ctlReserved i.w = false)
include h hr

theorem ctl_next {t : Thread} (hp : passes i.t i.w = true) (hf : f i = .ok t) : ctl u op s f = .next (retire s i t) := by
  simp [ctl, issue_next _ h, hr, hp, hf]

theorem ctl_fault {code : Nat} (hp : passes i.t i.w = true) (hf : f i = .error code) :
    ctl u op s f = .next (issueFault s i code) := by
  simp [ctl, issue_next _ h, hr, hp, hf]

/-- A control instruction whose predicate test fails goes to the next instruction. -/
theorem ctl_skip (hp : passes i.t i.w = false) : ctl u op s f = .next (retire s i (stepPc i.t)) := by
  simp [ctl, issue_next _ h, hr, hp]

end

/-- A command that is the issue of the control instruction with operation `op`. -/
def CtlIssued (u : Issuer) (op : Nat) (g : State → Out) : Prop := ∃ f, ∀ s, g s = ctl u op s f

theorem CtlIssued.skip {u : Issuer} {s : State} {i : Iss} {op : Nat} {g : State → Out} (hg : CtlIssued u op g)
    (h : Issues u s i 0 op) (hr : ctlReserved i.w = false) (hp : passes i.t i.w = false) :
    g s = .next (retire s i (stepPc i.t)) := by
  obtain ⟨f, he⟩ := hg
  rw [he]
  exact ctl_skip h hr hp

section
variable (u : Issuer)

theorem execCtlNop_issued : CtlIssued u 0 (execCtlNop u) := ⟨_, fun _ => rfl⟩
theorem execAlu_issued : CtlIssued u 2 (execAlu u) := ⟨_, fun _ => rfl⟩
theorem execAlui_issued : CtlIssued u 3 (execAlui u) := ⟨_, fun _ => rfl⟩
theorem execCmp_issued : CtlIssued u 4 (execCmp u) := ⟨_, fun _ => rfl⟩
theorem execLoopOpen_issued : CtlIssued u 5 (execLoopOpen u) := ⟨_, fun _ => rfl⟩
theorem execEndloop_issued : CtlIssued u 6 (execEndloop u) := ⟨_, fun _ => rfl⟩
theorem execBranch_issued : CtlIssued u 7 (execBranch u) := ⟨_, fun _ => rfl⟩
theorem execTag_issued : CtlIssued u 8 (execTag u) := ⟨_, fun _ => rfl⟩

end

/-! ### Straight-line instructions and BR (R64) -/

section
variable {u : Issuer} {s : State} {i : Iss} (hp : passes i.t i.w = true) (hr : ctlReserved i.w = false)
include hp hr

theorem ctlNop_next (h : Issues u s i 0 0) : execCtlNop u s = .next (retire s i (stepPc i.t)) :=
  ctl_next h hr hp rfl

theorem alu_next (h : Issues u s i 0 2) :
    execAlu u s = .next (retire s i (aluWith i.t i.w (sreg i.t (cImm i.w % 32)))) :=
  ctl_next h hr hp rfl

theorem alui_next (h : Issues u s i 0 3) : execAlui u s = .next (retire s i (aluWith i.t i.w (cSext i.w))) :=
  ctl_next h hr hp rfl

theorem cmp_next (h : Issues u s i 0 4) : execCmp u s = .next (retire s i (stepPc (setP i.t (cPd i.w)
    (cmpCond (cCond i.w) (sreg i.t (cRs1 i.w)) (if cIsImm i.w then cSext i.w else sreg i.t (cImm i.w % 32)))))) :=
  ctl_next h hr hp rfl

theorem branch_next (h : Issues u s i 0 7) :
    execBranch u s = .next (retire s i { i.t with pc := i.t.pc + BitVec.ofNat 13 (cOff i.w) }) :=
  ctl_next h hr hp rfl

theorem tag_next (h : Issues u s i 0 8) : execTag u s = .next (retire s i (stepPc { i.t with
    rtag := if cRix i.w = 0 then BitVec.ofNat 32 (cImm i.w) else BitVec.ofNat 32 (sreg32 i.t (cRix i.w)) })) :=
  ctl_next h hr hp rfl

end

/-! ### Loops (R65) -/

/-- The count of a LOOP: its cnt field, or the register that rcnt names. -/
def loopCount (i : Iss) : Nat := if cRcnt i.w = 0 then cCnt i.w else sreg32 i.t (cRcnt i.w)

section
variable {u : Issuer} {s : State} {i : Iss} (hp : passes i.t i.w = true) (hr : ctlReserved i.w = false)
include hp hr

section
variable (h : Issues u s i 0 5)
include h

theorem loopOpen_skips (hn : loopCount i = 0) :
    execLoopOpen u s = .next (retire s i { i.t with pc := i.t.pc + BitVec.ofNat 13 (cEndoff i.w + 1) }) :=
  ctl_next h hr hp (if_pos hn)

theorem loopOpen_opens (hn : loopCount i ≠ 0) (hl : i.t.loops.length < 4) :
    execLoopOpen u s = .next (retire s i (stepPc (setS { i.t with loops :=
      { startPc := i.t.pc + 1, endPc := i.t.pc + BitVec.ofNat 13 (cEndoff i.w), count := BitVec.ofNat 32 (loopCount i), index := 0 }
        :: i.t.loops } (cRix i.w) 0))) :=
  ctl_next h hr hp ((if_neg hn).trans (if_neg (Nat.not_le.mpr hl)))

theorem loopOpen_fifth (hn : loopCount i ≠ 0) (hl : 4 ≤ i.t.loops.length) : execLoopOpen u s = .next (issueFault s i 6) :=
  ctl_fault h hr hp ((if_neg hn).trans (if_pos hl))

end

section
variable (h : Issues u s i 0 6)
include h

theorem endloop_outside (hl : i.t.loops = []) : execEndloop u s = .next (issueFault s i 7) :=
  ctl_fault h hr hp (by simp only [hl])

variable {e : LoopEntry} {rest : List LoopEntry} (hl : i.t.loops = e :: rest)
include hl

theorem endloop_back (hx : e.index + 1 < e.count) : execEndloop u s = .next (retire s i
    { setS { i.t with loops := { e with index := e.index + 1 } :: rest } (cRix ((i.core.prog[(e.startPc - 1).toNat]?).getD 0))
        ((e.index + 1).setWidth 64) with pc := e.startPc }) :=
  ctl_next h hr hp (by simp only [hl, if_pos hx])

theorem endloop_leaves (hx : e.count ≤ e.index + 1) :
    execEndloop u s = .next (retire s i (stepPc { i.t with loops := rest })) :=
  ctl_next h hr hp (by simp only [hl, if_neg (BitVec.not_lt.mpr hx)])

end
end

/-! ### END (R48) -/

theorem haltThread_state {t : Thread} (h : t.state ≠ .idle) : (haltThread t).state = .halted := by
  simp [haltThread, h]

theorem coreOf_endLeases (s : State) (who : Issuer) (c : Nat) : coreOf (endLeases s who) c = coreOf s c := rfl

/-- No lease has a holder whose leases have ended. -/
theorem endLeases_holder (s : State) (who : Issuer) (k : Nat) : ∀ e ∈ vget (endLeases s who).leases k [], e.holder ≠ some who := by
  by_cases hk : k < 16
  · simp [endLeases, vget, hk]
  · simp [endLeases, vget, hk]

section
variable {u : Issuer} {s : State} {i : Iss} (h : Issues u s i 0 1) (hr : ctlReserved i.w = false)
include h

section
include hr

/-- END halts its thread and ends its leases; the plan's last thread cancels the streams left over. -/
theorem endThread_next (hp : passes i.t i.w = true) : execEndThread u s =
    .next (if allHalted (endLeases (retire s i (haltThread i.t)) u) i.slot then
      cancelLeftover (endLeases (retire s i (haltThread i.t)) u) i.slot else endLeases (retire s i (haltThread i.t)) u) := by
  simp [execEndThread, issue_next _ h, hr, hp, h.issuer]

theorem endThread_skip (hp : passes i.t i.w = false) : execEndThread u s = .next (retire s i (stepPc i.t)) := by
  simp [execEndThread, issue_next _ h, hr, hp]

end

theorem endThread_halts :
    (threadOf (coreOf (endLeases (retire s i (haltThread i.t)) u) u.core.toNat) u.thread.toNat).state = .halted := by
  have hidle : i.t.state ≠ .idle := by rw [h.ready]; nofun
  have hu : i.u = u := h.issuer
  subst hu
  rw [coreOf_endLeases, threadOf_retire]
  exact haltThread_state hidle

end

/-- Settles O40: every control instruction but END is a `ctl` whose effect on its thread is computed here, and a `retire` changes
that thread alone. -/
theorem controlInstructionsIssue : Obligations.ControlInstructionsIssue := by
  refine ⟨?effects, ?ends, ?frame⟩
  case effects =>
    intro u s i hp hr
    exact ⟨ctlNop_next hp hr, alu_next hp hr, alui_next hp hr, cmp_next hp hr,
      fun h => ⟨loopOpen_skips hp hr h, loopOpen_opens hp hr h, loopOpen_fifth hp hr h⟩,
      fun h => ⟨endloop_outside hp hr h, fun e rest hl => ⟨endloop_back hp hr h hl, endloop_leaves hp hr h hl⟩⟩,
      branch_next hp hr, tag_next hp hr⟩
  case ends =>
    intro u s i h hp hr
    have hend : exec (.endThread u) s = _ := endThread_next h hr hp
    exact ⟨fun ha => hend.trans (by rw [ha]; rfl), fun ha => hend.trans (by rw [ha]; rfl), endThread_halts h,
      endLeases_holder _ u⟩
  case frame =>
    intro u s i t hu
    subst hu
    exact ⟨threadOf_retire s i t, fun x hx => threadOf_retire_ne s i t hx, fun x hx => coreOf_retire_ne s i t hx,
      ls_retire s i t, rfl, rfl, rfl, rfl, rfl⟩

end Sys2Proof.Machine
end

section
/-! SUPPORT. The issue of stream, counter and codec instructions (spec/04 R69 to R72, R74). -/

namespace Sys2Proof.Machine

section
variable {u : Issuer} {s : State} {i : Iss} (hp : passes i.t i.w = true) (hs : sigUnmapped s i = false)
include hp hs

/-! ### The stream queue (R69, R70) -/

section
variable (hq : queueUsed s u.core.toNat .str < 8) (hz : lowZero i.w 25 = true)
include hq hz

theorem arm_enqueues (h : Issues u s i 4 0) (hf : descFaults i (armFaults s i.slot) = []) :
    execArm u s = .next (enqueueOp s i .str (.arm (issDesc i) (tSst i.w)) (sstHeld i)) :=
  engineIssue_next h (by rw [h.issuer]; exact hq) hp hs (by simp [hz, hf]) rfl

theorem rearm_enqueues (h : Issues u s i 4 1) (hf : descFaults i (armFaults s i.slot) = []) (hk : streamNo i ≤ 15) :
    execRearm u s = .next (enqueueOp s i .str (.rearm (issDesc i) (BitVec.ofNat 4 (streamNo i)) (tSst i.w)) (sstHeld i)) :=
  engineIssue_next h (by rw [h.issuer]; exact hq) hp hs (by simp [hz, hf, hk]) rfl

theorem cancel_enqueues (h : Issues u s i 4 2) (hk : streamNo i ≤ 15) :
    execCancel u s = .next (enqueueOp s i .str (.cancel (BitVec.ofNat 4 (streamNo i)) (tSst i.w)) (sstHeld i)) :=
  engineIssue_next h (by rw [h.issuer]; exact hq) hp hs (by simp [hz, hk]) rfl

section
variable (h : Issues u s i 4 3) (hf : descFaults i gatherFaults = []) (hg : gatherRegs i = [])
include h hf hg

theorem gather_enqueues (ht : tagFree i.core = true ∨ gatherN i = 0) :
    ∃ g, execGather u s = .next (enqueueOp s i .str (.gather g) false) ∧ g.n = gatherN i ∧ g.next = 0 ∧ g.desc = issDesc i ∧
      g.list = areg i.t (tAz i.w) ∧ g.dst = areg i.t (tAy i.w) :=
  ⟨_, engineIssue_next h (by rw [h.issuer]; exact hq) hp hs (by simp [hz, hf, hg]) (if_pos (by simpa using ht)),
    rfl, rfl, rfl, rfl, rfl⟩

/-- At the bound of fetch tags the thread sleeps (spec/03 R52). -/
theorem gather_sleeps (ht : tagFree i.core = false) (hn : gatherN i ≠ 0) :
    execGather u s = .next (sleepAt s i .fetchTag) :=
  engineIssue_bound h (by rw [h.issuer]; exact hq) hp hs (by simp [hz, hf, hg]) (by simp [ht, hn])

end
end

/-! ### The sync port (R71, R72) -/

/-- The counter is one that the operation reaches: here, or on another module for a SIGNAL or a READ. -/
theorem synIssue_enqueues {op : Nat} (k : SyncOp) (h : Issues u s i 5 op) (hq : queueUsed s u.core.toNat .syn < 8)
    (hz : lowZero i.w 8 = true) (hmapped : translate s i.slot (synVid i.t i.w).toNat ≠ .unmapped) (htmo : yTmo i.w = 0 ∨ op = 1)
    (hfar : (∃ m, translate s i.slot (synVid i.t i.w).toNat = .remote m) → op = 0 ∨ op = 5) :
    synIssue op k u s = .next (enqueueOp s i .syn
      (.syn { op := k, vid := synVid i.t i.w, value := synValue i.t i.w, sd := ySd i.w, tmo := yTmo i.w })
      (op == 1 || op == 2 || op == 5)) := by
  have hfields : ¬op = 1 → yTmo i.w = 0 := htmo.resolve_right
  refine engineIssue_next h (by rw [h.issuer]; exact hq) hp hs ?_ rfl
  cases hv : translate s i.slot (synVid i.t i.w).toNat with
  | unmapped => exact absurd hv hmapped
  | here pid => simpa [hz, hv] using hfields
  | remote m => simpa [hz, hv, or_iff_not_imp_left] using And.intro hfields (hfar ⟨m, hv⟩)

/-! ### The codec queue (R74) -/

/-- The bytes that an ENC or a DEC reads and writes: a raw tile on one side, with a DEC's status line, a slot on the other. -/
theorem tcdIssue_next {op : Nat} (h : Issues u s i 7 op) (hq : i.core.tcdQ.length < 2) (hz : lowZero i.w 28 = true)
    {c : BitVec 256} (hc : codecCfg s i.slot (xCfg i.w).toNat = some c)
    (hsrc : lsCheckOperand (areg i.t (xAs i.w)) (if op = 0 then tcRaw c + (if op = 1 then 64 else 0) else tcSlotBytes c) = [])
    (hdst : lsCheckOperand (areg i.t (xAd i.w)) (if op = 0 then tcSlotBytes c else tcRaw c + (if op = 1 then 64 else 0)) = []) :
    tcdIssue op u s = .next (if 16 ≤ codecJobs s (u.core.toNat / 16) then sleepAt s i .codecEntry else
      enqueueOp s i .tcd (.tcd (op == 1) (areg i.t (xAs i.w)) (areg i.t (xAd i.w)) (xCfg i.w) (sreg i.t (xSc i.w))) false) := by
  have hroom := h.room (q := .tcd) (by decide) (by decide) hq
  by_cases hj : 16 ≤ codecJobs s (u.core.toNat / 16)
  · rw [if_pos hj]
    exact engineIssue_bound h hroom hp hs (by simp [hz, hc, hsrc, hdst]) (by rw [h.issuer]; exact if_pos hj)
  · rw [if_neg hj]
    exact engineIssue_next h hroom hp hs (by simp [hz, hc, hsrc, hdst]) (by rw [h.issuer]; exact if_neg hj)

end

/-- The counter instructions are issues of `synIssue`, of which WAIT, TAKE and READ hold their thread. -/
theorem exec_synRow {u : Issuer} : ∀ x ∈ [(0, SyncOp.signal, false, Instr.signalCount u), (1, .wait, true, .waitCount u),
    (2, .take, true, .takeCount u), (3, .set, false, .setCount u), (4, .poison, false, .poisonCount u), (5, .read, true, .readCount u)],
    (∀ s, exec x.2.2.2 s = synIssue x.1 x.2.1 u s) ∧ x.2.2.1 = (x.1 == 1 || x.1 == 2 || x.1 == 5) := by
  intro x hx
  fin_cases hx
  all_goals exact ⟨fun _ => rfl, rfl⟩

/-- Settles O43: each instruction is an `engineIssue` with no fault; the bound is reached by a GATHER with no fetch tag, or a codec
instruction with no job free. -/
theorem fetchSyncCodecEnterQueues : Obligations.FetchSyncCodecEnterQueues := by
  intro u s i hp hs
  refine ⟨fun hq hz => ⟨?arm, ?rearm, ?cancel, ?gather⟩, ?sync, fun c hq hz hc => ⟨?enc, ?dec⟩⟩
  case arm => exact arm_enqueues hp hs hq hz
  case rearm => exact rearm_enqueues hp hs hq hz
  case cancel => exact cancel_enqueues hp hs hq hz
  case gather => exact fun h hf hg => ⟨gather_enqueues hp hs hq hz h hf hg, gather_sleeps hp hs hq hz h hf hg⟩
  case sync =>
    intro hq hz hmapped x hx h htmo hfar
    obtain ⟨hexec, hheld⟩ := exec_synRow x hx
    rw [hexec, hheld]
    exact synIssue_enqueues hp hs x.2.1 h hq hz hmapped htmo hfar
  case enc => exact fun h hsrc hdst => tcdIssue_next hp hs h hq hz hc hsrc hdst
  case dec => exact fun h hsrc hdst => tcdIssue_next hp hs h hq hz hc hsrc hdst

end Sys2Proof.Machine
end

section
/-! SUPPORT. An instruction whose predicate test fails (spec/04 R61). -/

namespace Sys2Proof.Machine

/-! ### The sig counter (R75) -/

section
variable {s : State} {slot vid : Nat} (core : BitVec 8) (v : Word)

theorem signalVid_here {pid : BitVec 16} (h : translate s slot vid = .here pid) : signalVid s core slot vid v =
    arrive s { pid := pid, slot := BitVec.ofNat 6 slot, op := .signal, value := v, src := .engine core } := by
  simp only [signalVid, h]

theorem signalVid_remote {m : BitVec 14} (h : translate s slot vid = .remote m) :
    signalVid s core slot vid v = remoteSignal s core slot vid m v none := by
  simp only [signalVid, h]

end

theorem signalSig_none (s : State) (core : BitVec 8) (slot : Nat) : signalSig s core slot none = s := rfl

theorem signalSig_some (s : State) (core : BitVec 8) (slot : Nat) (v : BitVec 20) :
    signalSig s core slot (some v) = signalVid s core slot v.toNat 1 := rfl

/-- An issue changes no translation. -/
theorem translate_retire (s : State) (i : Iss) (t : Thread) (n vid : Nat) : translate (retire s i t) n vid = translate s n vid := rfl

/-! ### The instruction -/

section
variable {u : Issuer} {s : State} {i : Iss} (hp : passes i.t i.w = false)
include hp

theorem exec_ctlRow_skip (hr : ctlReserved i.w = false) : ∀ x ∈ ctlRows u, Issues u s i x.1 x.2.1 →
    exec x.2.2 s = .next (retire s i (stepPc i.t)) := by
  intro x hx h
  fin_cases hx
  · exact (execCtlNop_issued u).skip h hr hp
  · exact endThread_skip h hr hp
  · exact (execAlu_issued u).skip h hr hp
  · exact (execAlui_issued u).skip h hr hp
  · exact (execCmp_issued u).skip h hr hp
  · exact (execLoopOpen_issued u).skip h hr hp
  · exact (execEndloop_issued u).skip h hr hp
  · exact (execBranch_issued u).skip h hr hp
  · exact (execTag_issued u).skip h hr hp

theorem exec_engineRow_skip (hf : staticFaults i.w = []) (hs : sigUnmapped s i = false) {x : EngineQ × Nat × Nat × Instr}
    (hx : x ∈ engineRows u) (h : Issues u s i x.2.1 x.2.2.1) :
    exec x.2.2.2 s = .next (signalSig (retire s i (stepPc i.t)) u.core i.slot (sigOf i.t i.w)) := by
  obtain ⟨faults, bound, kind, held, he⟩ := exec_engineRow u x hx
  rw [he, engineIssue_skip h hp hf hs, h.issuer]

end

/-- Settles O58: a control instruction retires to the next instruction, and so does an engine instruction, which then signals the
counter that its sig field names. -/
theorem skippedInstructionsSignal : Obligations.SkippedInstructionsSignal := by
  intro u s i x h hp
  refine ⟨fun hx hr => exec_ctlRow_skip hp hr x hx h, fun q hx hf hs => ?_⟩
  have hexec := exec_engineRow_skip hp hf hs hx h
  have hu : i.u = u := h.issuer
  rw [h.core]
  subst hu
  refine ⟨queueOf_retire s i (stepPc i.t), threadOf_retire s i (stepPc i.t), fun hv => ?unsigned,
    fun v hv => ⟨fun pid hpid => ?here, fun m hm => ?remote⟩⟩
  case unsigned => rw [hexec, hv, signalSig_none]
  case here => rw [hexec, hv, signalSig_some, signalVid_here _ _ ((translate_retire s i _ _ _).trans hpid)]
  case remote => rw [hexec, hv, signalSig_some, signalVid_remote _ _ ((translate_retire s i _ _ _).trans hm)]

end Sys2Proof.Machine
end
section
/-! SUPPORT. The jobs of a cluster's Kid engine, from start to completion (spec/07 R130 to R135). -/

namespace Sys2Proof.Machine

/-! ### Accepting a job (R130, R133) -/

/-- The engine of cluster `k` has taken the oldest job, and `rest` waits. -/
def kidTaken (s : State) (k : Nat) (rest : List KidJob) : State := modCluster s k fun x => { x with kidQ := rest }

/-- A job that leaves the queue leaves the address of the weights that the engine holds. -/
theorem kidWaddr_kidTaken (s : State) {k : Nat} (rest : List KidJob) (h : k < 16) :
    (clusterOf (kidTaken s k rest) k).kidWaddr = (clusterOf s k).kidWaddr := by
  rw [kidTaken, clusterOf_modCluster _ _ _ h]

section
variable {s : State} {k : Nat} {j : KidJob}

/-- A job with the address of the job before reads no weights. -/
theorem acceptKid_keeps (h : (clusterOf s k).kidWaddr = some (BitVec.ofNat 32 (kWaddr j.desc))) (soft : List Nat) :
    acceptKid s k j soft = modCluster s k fun x => { x with kidRun := some j } := if_pos h

/-- A job with another address loads its weights, which read without an error. -/
theorem acceptKid_loads (h : (clusterOf s k).kidWaddr ≠ some (BitVec.ofNat 32 (kWaddr j.desc))) (hgood : (kidLoad s j.desc).2 = false) :
    acceptKid s k j [] = modCluster s k fun x =>
      { x with kidRun := some j, kidWaddr := some (BitVec.ofNat 32 (kWaddr j.desc)), kidWeights := (kidLoad s j.desc).1 } := by
  rw [acceptKid, if_neg h]
  simp [hgood]

end

/-! ### The commands -/

section
variable {k : BitVec 4} {s : State} {j : KidJob} (hr : ready s = true)
include hr

section
variable {rest : List KidJob} (hfence : (clusterOf s k.toNat).syncFenced = false) (hfree : (clusterOf s k.toNat).kidRun = none)
  (hq : (clusterOf s k.toNat).kidQ = j :: rest) (soft : List Nat)
include hfence hfree hq

theorem kidJobStart_accepts (hd : kidFault j.desc = none) :
    exec (.kidJobStart ⟨k, soft⟩) s = .next (acceptKid (kidTaken s k.toNat rest) k.toNat j soft) := by
  show execKidJobStart ⟨k, soft⟩ s = _
  simp [execKidJobStart, hr, hfence, hfree, hq, hd, kidTaken]

/-- The faulted job counts as accepted, so the weights stay only where they stand at its address (R130). -/
theorem kidJobStart_faults {code : Nat} (hd : kidFault j.desc = some code) :
    exec (.kidJobStart ⟨k, soft⟩) s = .next (instrFault
      (freeKid (modCluster (kidTaken s k.toNat rest) k.toNat fun x =>
        { x with kidWaddr := x.kidWaddr.filter (· == BitVec.ofNat 32 (kWaddr j.desc)) }) k.toNat)
      { core := j.core, thread := j.op.thread } j.op.pc.toNat code) := by
  show execKidJobStart ⟨k, soft⟩ s = _
  simp [execKidJobStart, hr, hfence, hfree, hq, hd, kidTaken]

end

/-- The output is written first; the engine is then free, the events are flagged and the counter signalled, and the errors of the ring
and of the weight buffer are reported last (R131, R132, R135). -/
theorem kidJobComplete_next (hrun : (clusterOf s k.toNat).kidRun = some j) (errs wbuf : List LsError) :
    let r := runKid s k.toNat j errs wbuf
    let freed := freeKid (modCluster (draw r.1) k.toNat fun x => { x with kidRun := none }) k.toNat
    let signalled := signalSig (flagEvents freed j.slot.toNat j.core.toNat r.2) j.core j.slot.toNat j.op.sig
    exec (.kidJobComplete k ⟨errs, wbuf⟩) s =
      .next (bufferErrors (lsErrors signalled j.core.toNat (instOf j.op) errs) j wbuf) := by
  show execKidJobComplete k ⟨errs, wbuf⟩ s = _
  simp only [execKidJobComplete, hr, hrun]

end

/-- Settles O50: the start of the oldest job by what its descriptor's checks and its weights' address give, and the completion of the
job that runs. -/
theorem kidJobsRun : Obligations.KidJobsRun := by
  intro k s j rest hr
  refine ⟨fun hfence hfree hq => ?start, fun hrun errs wbuf => kidJobComplete_next hr hrun errs wbuf⟩
  have hheld := kidWaddr_kidTaken s rest k.isLt
  refine ⟨fun soft hd => kidJobStart_accepts hr hfence hfree hq soft hd, fun ha soft => ?keeps, fun ha hgood => ?loads,
    fun code soft hd => kidJobStart_faults hr hfence hfree hq soft hd⟩
  case keeps => exact acceptKid_keeps (hheld.trans ha) soft
  case loads => exact acceptKid_loads (hheld.trans_ne ha) hgood

end Sys2Proof.Machine
end
section
/-! SUPPORT. The commands of the paged cache (spec/08 R149, R150, R153). -/

namespace Sys2Proof.Machine

section
variable {p : Packet} {s : State} {n : Nat} (h : Accepts p s) (hn : pktSlot s p = some n)
include h hn

/-! ### KV_POOL_GRANT (R149) -/

/-- A grant's list of `k` page numbers, of 4 bytes each. -/
def pageNumbers (bytes : List Byte) (k : Nat) : List Nat := (List.range k).map fun i => ofLe ((bytes.drop (4 * i)).take 4)

/-- A grant of pages that the pool has, within the pages that the free list can hold, with no fence on it. -/
theorem kvPoolGrant_next {d : BitVec 256} {rd : Rd} (hd : poolOf s n (bits p.param 224 32) = some d) (hrsv : bits p.param 0 136 = 0)
    (hoff : bits p.param 160 32 % 4 = 0) (hk : bits p.param 136 24 ≠ 0)
    (hrd : grantList s n (bits p.param 192 32) (bits p.param 160 32) (bits p.param 136 24) = some rd) (hbad : rd.bad = [])
    (hpages : ∀ x ∈ pageNumbers rd.bytes (bits p.param 136 24), x < kvPool d)
    (hroom : (countOf s n (kvRet d)).toNat + bits p.param 136 24 ≤ kvPool d + (countOf s n (kvTake d)).toNat)
    (hfence : kvFenced s n d = false) :
    exec (.kvPoolGrant p) s = .next (answer (settleTickets (grantPages s n d (countOf s n (kvRet d)).toNat
      (pageNumbers rd.bytes (bits p.param 136 24))) n) p 0x60 0 0) := by
  have hin : (pageNumbers rd.bytes (bits p.param 136 24)).any (fun x => decide (kvPool d ≤ x)) = false := by
    simpa using hpages
  rw [pageNumbers] at hin
  show execKvPoolGrant p s = _
  rw [execKvPoolGrant, ctxCommand_next _ h hn]
  simp [hd, zeroBits_of hrsv, hoff, hk, hrd, hbad, hin, Nat.not_lt.mpr hroom, hfence, pageNumbers]

/-! ### KV_PAGE_EDIT (R153) -/

/-- A packet of good edits is kept during a pass, held by a fence, and applied otherwise. -/
theorem kvPageEdit_next (hrsv : bits p.param 0 216 = 0) (hm : bits p.param 216 8 ≠ 0) (hmax : bits p.param 216 8 ≤ 252)
    (hlen : p.extra.length = ceilDiv (bits p.param 216 8) 4) (hpt : tableHere s n (bits p.param 224 32) = true)
    (hgood : ∀ e ∈ editsOf p, badEdit s n (bits p.param 224 32) e = false) :
    exec (.kvPageEdit p) s = .next (if openPasses s n then modCtx s n fun c => { c with edits := c.edits ++ [p] }
      else if isFenced s n (bits p.param 224 32) then holdRing s p else applyEdits s n p) := by
  have hany : (editsOf p).any (badEdit s n (bits p.param 224 32)) = false := List.any_eq_false.mpr fun e he => by simp [hgood e he]
  show execKvPageEdit p s = _
  rw [execKvPageEdit, ctxCommand_next _ h hn]
  simp [zeroBits_of hrsv, hm, Nat.not_lt.mpr hmax, hlen, hpt, hany]

/-! ### KV_SEQ_ABORT (R150) -/

/-- An abort of a sequence of the table is refused for a FREE one, has nothing to do for an ENDED one, is held by a fence, and ends the
sequence otherwise. -/
theorem kvSeqAbort_next (hrsv : bits p.param 0 208 = 0) (hbit : bit p.param 223 = false)
    (hpt : tableHere s n (bits p.param 224 32) = true) (hq : bits p.param 208 15 < nseqOf s n (bits p.param 224 32)) :
    let pt := bits p.param 224 32
    let q := bits p.param 208 15
    let st := seqState (seqRecord s n pt q)
    exec (.kvSeqAbort p) s = .next (if st = 0 then answer s p 0x62 0x0102 0 else if st = 3 then answer s p 0x62 0 0
      else if isFenced s n pt || tablesFenced s n then holdRing s p else answer (endSeq s n pt q) p 0x62 0 0) := by
  show execKvSeqAbort p s = _
  rw [execKvSeqAbort, ctxCommand_next _ h hn]
  simp only [zeroBits_of hrsv, hbit, hpt, decide_eq_false (Nat.not_le.mpr hq), Bool.not_true, Bool.or_self, Bool.false_eq_true, if_false]

end

/-- Settles O48: each command is past its checks, and what is left is the branch that the pass, the state of the sequence and the fences
select. -/
theorem pagedCacheCommandsAnswer : Obligations.PagedCacheCommandsAnswer := by
  intro p s n h hn
  refine ⟨fun d rd hd hrsv hoff hk hrd hbad => kvPoolGrant_next h hn hd hrsv hoff hk hrd hbad, ?edit, ?abort⟩
  case edit =>
    intro hrsv hm hmax hlen hpt hgood
    rw [kvPageEdit_next h hn hrsv hm hmax hlen hpt hgood]
    exact ⟨fun hclosed hfence => by simp [hclosed, hfence], fun hopen => by simp [hopen]⟩
  case abort =>
    intro hrsv hbit hpt hq
    rw [kvSeqAbort_next h hn hrsv hbit hpt hq]
    exact ⟨fun hended => by simp [hended], fun hused hlive hfence htables => by simp [hused, hlive, hfence, htables]⟩

end Sys2Proof.Machine
end
section
/-! SUPPORT. Page walks, page waits and pass boundaries (spec/08 R142, R143, R147, R148). -/

namespace Sys2Proof.Machine

variable {s : State}

/-! ### Page walks (R142, R147) -/

/-- The walk of cluster `k` that goes on has left the cluster's walks. -/
def walkTaken (s : State) (k : Nat) (w : Walk) : State := modCluster s k fun x => { x with walks := x.walks.erase w }

section
variable {k : BitVec 4} (hr : ready s = true)
include hr

/-- Where no walk can go on, nothing happens. -/
theorem pageWalk_idle (hw : (clusterOf s k.toNat).walks.find? (walkable s) = none) (ecc : Ecc) : exec (.pageWalk k ecc) s = .next s := by
  show execPageWalk k ecc s = _
  simp [execPageWalk, hr, hw]

section
variable {w : Walk} (hw : (clusterOf s k.toNat).walks.find? (walkable s) = some w)
include hw

/-- A walk whose stream moves no page pool ends with no page. -/
theorem pageWalk_no_pool (hd : walkKv s w = none) (ecc : Ecc) :
    exec (.pageWalk k ecc) s = .next (resumeTile (walkTaken s k.toNat w) w none) := by
  show execPageWalk k ecc s = _
  simp [execPageWalk, hr, hw, hd, walkTaken]

variable {d : BitVec 256} (hd : walkKv s w = some d)
include hd

/-- A walk whose record and entry read well goes on by the entry. -/
theorem pageWalk_reads (hreads : walkReads s w.slot.toNat (kvPt d) w = true) :
    exec (.pageWalk k .good) s = .next (walkEntry (walkTaken s k.toNat w) w.slot.toNat d w) := by
  show execPageWalk k .good s = _
  simp [execPageWalk, hr, hw, hd, hreads, walkTaken]

/-- A walk whose record or entry cannot be read ends with no page and a data error, which ends the plan (R156). -/
theorem pageWalk_unreadable {ecc : Ecc} (hecc : ecc = .uncorrectable ∨ walkReads s w.slot.toNat (kvPt d) w = false) :
    let loc := walkLoc s w.slot.toNat (kvPt d) w
    exec (.pageWalk k ecc) s = .next (resumeTile (dataError (walkTaken s k.toNat w) w.slot.toNat loc.1 loc.2) w none) := by
  show execPageWalk k ecc s = _
  simp [execPageWalk, hr, hw, hd, hecc, walkTaken]

end
end

/-- The valid entry of a sequence that has not ended gives the walk its page. -/
theorem walkEntry_valid {n : Nat} {d : BitVec 256} {w : Walk} (hst : seqState (seqRecord s n (kvPt d) w.seq.toNat) ≠ 3)
    (hvalid : bit (entryOf s n (kvPt d) w.seq.toNat w.page) 31 = true) :
    walkEntry s n d w = walkFound s w (BitVec.ofNat 24 (bits (entryOf s n (kvPt d) w.seq.toNat w.page) 0 24)) := by
  simp [walkEntry, hst, hvalid]

/-! ### Page waits (R148) -/

section
variable {slot : BitVec 6} {seq : BitVec 15} {d : BitVec 256} {w : SeqWait} (hr : ready s = true)
  (hd : waitDesc s slot.toNat = some d) (hw : seqWaitOf s slot.toNat seq.toNat = some w) (hfence : tablesFenced s slot.toNat = false)
include hr hd hw hfence

/-- The wait of a context that runs resumes once its ticket is granted. -/
theorem pageWaitResume_next (hrun : running s slot.toNat = true) (hdue : ticketDue s slot.toNat d w.ticket = true) :
    exec (.pageWaitResume slot seq) s = .next (resumeSeq s slot.toNat d w) := by
  show execPageWaitResume slot seq s = _
  simp [execPageWaitResume, hr, hd, hw, hfence, hrun, hdue]

/-- A timeout ends the sequence, unless its ticket is granted in the same cycle: the wait then resumes in a context that runs. -/
theorem pageWaitTimeout_next (htmo : seqTmo (seqRecord s slot.toNat (kvPt d) seq.toNat) ≠ 0) :
    exec (.pageWaitTimeout slot seq) s = .next (if ticketDue s slot.toNat d w.ticket then
      (if running s slot.toNat then resumeSeq s slot.toNat d w else s) else endSeq s slot.toNat (kvPt d) seq.toNat) := by
  show execPageWaitTimeout slot seq s = _
  simp only [execPageWaitTimeout, hr, hd, hw, hfence, htmo, Bool.not_false, Bool.and_self, if_false]
  split <;> rfl

end

/-! ### Pass boundaries (R143) -/

/-- A pass that is over ends, where no migration fences a table. -/
theorem passBoundary_next {slot : BitVec 6} (hr : ready s = true) (hover : passOver s slot.toNat = true)
    (hfence : tablesFenced s slot.toNat = false) : exec (.passBoundary slot) s = .next (endPass s slot.toNat) := by
  show execPassBoundary slot s = _
  simp [execPassBoundary, hr, hover, hfence]

/-- Settles O49: a walk by whether its pool is known and its entry can be read, a wait by whether its ticket is granted before its
timeout, and a pass that is over. -/
theorem pageWalksResolve : Obligations.PageWalksResolve := by
  intro k slot seq s d hr
  refine ⟨fun w hw => ?walk, pageWalk_idle hr, fun w hd hw hfence => ⟨pageWaitResume_next hr hd hw hfence, fun htmo => ?timeout⟩,
    passBoundary_next hr⟩
  case walk =>
    exact ⟨fun ecc hd => pageWalk_no_pool hr hw hd ecc,
      fun hd => ⟨pageWalk_reads hr hw hd, fun _ => pageWalk_unreadable hr hw hd, walkEntry_valid⟩⟩
  case timeout =>
    rw [pageWaitTimeout_next hr hd hw hfence htmo]
    exact ⟨fun hwait => by simp [hwait], fun hdue hrun => by simp [hdue, hrun]⟩

end Sys2Proof.Machine
end
section
/-! SUPPORT. STEP_BEGIN, STEP_COMMIT and the outcome of a step (spec/01 Table 1.4; spec/10 R179, R190). -/

namespace Sys2Proof.Machine

section
variable {p : Packet} {s : State} {n : Nat} {c : Ctx} (h : Accepts p s) (hn : pktSlot s p = some n) (hc : ctxOf s n = some c)
include h hn hc

/-! ### STEP_BEGIN (R179) -/

/-- A STEP_BEGIN that nothing holds and whose checks pass opens the step. -/
theorem stepBegin_opens (hrsv : bits p.param 0 192 = 0) (hheld : beginHeld s n = false) (hok : beginCheck s n c p.param = none) :
    exec (.stepBegin p) s = .next (answer (openStep s n p.param) p 0x24 0
      (((ctxOf (openStep s n p.param) n).map fun c => c.step.toNat % 2 ^ 16).getD 0)) := by
  show execStepBegin p s = _
  rw [execStepBegin, ctxCommand_next _ h hn]
  simp [hc, hheld, zeroBits_of hrsv, hok]

/-! ### STEP_COMMIT (R190) -/

section
variable (hrsv : bits p.param 0 256 = 0) (hopen : c.stepOpen = true) (hfirst : c.commit = none)
include hrsv hopen hfirst

/-- The first STEP_COMMIT of a step that goes on is taken, and advances as far as it can. -/
theorem stepCommit_taken (hgoes : c.aborted = none) (hfence : groupsFenced s n = false) : exec (.stepCommit p) s =
    .next (commitAdvance 4 (modCtx (draw s) n fun c => { c with commit := some (p, .waitSend) }) n) := by
  show execStepCommit p s = _
  rw [execStepCommit, ctxCommand_next _ h hn]
  simp [hc, zeroBits_of hrsv, hopen, hfirst, hgoes, hfence]

/-- The STEP_COMMIT of an aborted step is answered CANCELLED at once. -/
theorem stepCommit_cancelled {d : BitVec 16} (haborted : c.aborted = some d) : exec (.stepCommit p) s =
    .next (closeStep (dropCached s fun l => l.slot.toNat == n) n p 0x0400 d.toNat) := by
  show execStepCommit p s = _
  rw [execStepCommit, ctxCommand_next _ h hn]
  simp [hc, zeroBits_of hrsv, hopen, hfirst, haborted, answerCancelled]

end
end

/-! ### The outcome (Table 1.4) -/

/-- The outcome of a step whose STEP_COMMIT waits closes the step with its status. -/
theorem stepOutcome_closes {s : State} {n : Nat} {c : Ctx} {p : Packet} {st : CommitStage} (hc : ctxOf s n = some c)
    (hcommit : c.commit = some (p, st)) (v : VoteMsg) : ∃ u d, stepOutcome s n v = closeStep u n p (outcomeStatus c v) d := by
  simp only [stepOutcome, hc, hcommit]
  exact ⟨_, _, rfl⟩

section
variable {c : Ctx} {v : VoteMsg}

/-- A flagged overflow comes first: OVERFLOW_SKIPPED. -/
theorem outcomeStatus_flagged (hflag : v.flagged ≠ 0) : outcomeStatus c v = 0x0404 := if_pos hflag

/-- Without a flag, a lost member comes next: PEER_LOST. -/
theorem outcomeStatus_lost (hflag : v.flagged = 0) (hlost : (v.lost || c.stepLost) = true) : outcomeStatus c v = 0x0402 := by
  rw [outcomeStatus, if_neg (not_not_intro hflag), if_pos hlost]

/-- Without a flag and with every member, a missing term remains: OK_PARTIAL. -/
theorem outcomeStatus_partial (hflag : v.flagged = 0) (hall : (v.lost || c.stepLost) = false) (hpart : v.part = true) :
    outcomeStatus c v = 0x0001 := by
  rw [outcomeStatus, if_neg (not_not_intro hflag), if_neg (Bool.eq_false_iff.mp hall), if_pos hpart]

end

/-- Settles O31: each packet is past its checks, and the outcome's status is the first of Table 1.4 whose condition holds. -/
theorem stepsCommit : Obligations.StepsCommit := by
  refine ⟨fun p s n c h hn hc => ⟨stepBegin_opens h hn hc, fun hrsv hopen hfirst => ?commit⟩, fun s n v c p st hc hcommit => ?outcome⟩
  case commit =>
    exact ⟨stepCommit_taken h hn hc hrsv hopen hfirst, fun _ => stepCommit_cancelled h hn hc hrsv hopen hfirst⟩
  case outcome =>
    obtain ⟨u, d, hclose⟩ := stepOutcome_closes hc hcommit v
    exact ⟨u, d, hclose, outcomeStatus_flagged, outcomeStatus_lost, outcomeStatus_partial⟩

end Sys2Proof.Machine
end
section
/-! SUPPORT. The update unit (spec/10 R187, R194 to R196) and the deadlines of reductions (spec/16 R311). -/

namespace Sys2Proof.Machine

variable {s : State}

/-! ### The update unit (R187) -/

/-- The results of slice `k` of group `g` under the rule of its record, with whether a read failed. -/
def unitResults (s : State) (n g k : Nat) (c : Ctx) (r : BitVec 1024) (tile : Tile) (ecc : SliceEcc) :
    List (List (FVal × FVal × FVal)) × Bool :=
  sliceResults s n r (updConst r (c.rates.getD g 0) (lossExp c) (groupStep c g + 1)) (verOf c) k tile
    (if ecc.word = .uncorrectable then ecc.hard else [])

/-- The results `res` of slice `k` stand in the version that is not committed, with their events and their sums of squares, and the
group's ratio record follows its last slice (DESIGN CHOICE, log entry 154). -/
def unitApplied (s : State) (n g k : Nat) (c : Ctx) (r : BitVec 1024) (res : List (List (FVal × FVal × FVal))) : State :=
  let w := putSlice s n r (1 - verOf c) k res
  let s1 := modCtx w.1 n fun x =>
    { x with updEvents := tput x.updEvents g ((tget x.updEvents g).getD 0 + w.2),
             updSums := tput x.updSums g (((tget x.updSums g).getD []).filter (fun e => e.1 != k) ++
               [(k, unitSums s n g r (verOf c) k res)]) }
  if unitsDone s1 n g then ratioRecord s1 n g else s1

/-- The oldest slice has left the queue of the port's update unit. -/
def sliceTaken (s : State) (port : Nat) (rest : List (BitVec 6 × BitVec 12 × BitVec 32 × Tile)) : State :=
  modPort s port fun p => { p with updQ := rest }

theorem ctxOf_sliceTaken (s : State) (port : Nat) (rest : List (BitVec 6 × BitVec 12 × BitVec 32 × Tile)) (n : Nat) :
    ctxOf (sliceTaken s port rest) n = ctxOf s n := rfl

section
variable {port : BitVec 4} {sl : BitVec 6} {g : BitVec 12} {k : BitVec 32} {tile : Tile}
  {rest : List (BitVec 6 × BitVec 12 × BitVec 32 × Tile)} {c : Ctx} (hr : ready s = true)
  (hq : (portOf s port.toNat).updQ = (sl, g, k, tile) :: rest) (hfence : groupsFenced s sl.toNat = false)
  (hc : ctxOf s sl.toNat = some c)
include hr hq hfence hc

/-- The slice of an aborted step leaves the queue, and nothing else happens. -/
theorem updateUnitSlice_aborted (haborted : c.aborted.isSome = true) (ecc : SliceEcc) :
    exec (.updateUnitSlice port ecc) s = .next (sliceTaken s port.toNat rest) := by
  show execUpdateUnitSlice port ecc s = _
  rw [← ctxOf_sliceTaken s port.toNat rest, sliceTaken] at hc
  rw [sliceTaken]
  cases hrec : recordOf (modPort s port.toNat fun p => { p with updQ := rest }) sl.toNat g.toNat with
  | none => simp only [execUpdateUnitSlice, hr, hq, hfence, hc, hrec, Bool.false_eq_true, if_false]
  | some r => simp only [execUpdateUnitSlice, hr, hq, hfence, hc, hrec, haborted, Bool.or_true, if_true,
      Bool.false_eq_true, if_false]

section
variable {r : BitVec 1024} {ecc : SliceEcc} (hrec : recordOf (sliceTaken s port.toNat rest) sl.toNat g.toNat = some r)
  (hopen : c.stepOpen = true) (hgoes : c.aborted = none)
include hrec hopen hgoes

/-- The slice of a step that goes on is applied where no word was corrected, and a read that fails ends the plan besides (R196). -/
theorem updateUnitSlice_next (hecc : ecc.word ≠ .corrected) :
    let res := unitResults (sliceTaken s port.toNat rest) sl.toNat g.toNat k.toNat c r tile ecc
    let t := unitApplied (sliceTaken s port.toNat rest) sl.toNat g.toNat k.toNat c r res.1
    ∃ src, exec (.updateUnitSlice port ecc) s = .next (commitAdvance 4
      (if res.2 || ecc.word == .uncorrectable then dataError t sl.toNat src k.toNat else t) sl.toNat) := by
  refine ⟨if (portOf s port.toNat).unitsOut then 0xFFF else 0x100 + port.toNat, ?_⟩
  show execUpdateUnitSlice port ecc s = _
  rw [← ctxOf_sliceTaken s port.toNat rest, sliceTaken] at hc
  rw [sliceTaken] at hrec
  simp only [execUpdateUnitSlice, hr, hq, hfence, hc, hrec, hopen, hgoes, hecc, Bool.not_true, Option.isSome_none,
    Bool.or_self, Bool.false_eq_true, if_false]
  rfl

/-- Where every word reads well, the slice is applied and no more. -/
theorem updateUnitSlice_good (hecc : ecc.word = .good)
    (hread : (unitResults (sliceTaken s port.toNat rest) sl.toNat g.toNat k.toNat c r tile ecc).2 = false) :
    exec (.updateUnitSlice port ecc) s = .next (commitAdvance 4
      (unitApplied (sliceTaken s port.toNat rest) sl.toNat g.toNat k.toNat c r
        (unitResults (sliceTaken s port.toNat rest) sl.toNat g.toNat k.toNat c r tile ecc).1) sl.toNat) := by
  obtain ⟨src, hnext⟩ := updateUnitSlice_next hr hq hfence hc hrec hopen hgoes (ecc := ecc) (by simp [hecc])
  simpa [hread, hecc] using hnext

/-- An uncorrectable word ends the plan once the slice is applied. -/
theorem updateUnitSlice_uncorrectable (hecc : ecc.word = .uncorrectable) :
    ∃ src, exec (.updateUnitSlice port ecc) s = .next (commitAdvance 4
      (dataError (unitApplied (sliceTaken s port.toNat rest) sl.toNat g.toNat k.toNat c r
        (unitResults (sliceTaken s port.toNat rest) sl.toNat g.toNat k.toNat c r tile ecc).1) sl.toNat src k.toNat) sl.toNat) := by
  obtain ⟨src, hnext⟩ := updateUnitSlice_next hr hq hfence hc hrec hopen hgoes (ecc := ecc) (by simp [hecc])
  exact ⟨src, by simpa [hecc] using hnext⟩

end
end

/-! ### Deadlines of reductions (R311) -/

/-- The node's reduction of a slice, its own or the one in which it stands in for the owner, completes if it has started. -/
def completeStarted (s : State) (n coll g k : Nat) (t : RedTree) (standIn : Bool) : State :=
  let r := findRed s (.fresh n coll g k t.step standIn)
  if r.started && !r.done then advanceRed (completeRed s n t r true) n t { r with done := true } else s

section
variable {n coll g k : Nat} {t : RedTree} {standIn : Bool}

theorem completeStarted_open (hstart : (findRed s (.fresh n coll g k t.step standIn)).started = true)
    (hopen : (findRed s (.fresh n coll g k t.step standIn)).done = false) :
    let r := findRed s (.fresh n coll g k t.step standIn)
    completeStarted s n coll g k t standIn = advanceRed (completeRed s n t r true) n t { r with done := true } := by
  simp [completeStarted, hstart, hopen]

theorem completeStarted_idle (hidle : (findRed s (.fresh n coll g k t.step standIn)).started = false) :
    completeStarted s n coll g k t standIn = s := by
  simp [completeStarted, hidle]

end

/-- A deadline completes the node's own reduction first, and then the one in which it stands in for the owner. -/
theorem reductionDeadline_next {sl : BitVec 6} {coll : BitVec 16} {g : BitVec 12} {k : BitVec 32} {t : RedTree} (hr : ready s = true)
    (hfence : collFenced s sl.toNat coll.toNat = false) (ht : treeOf s sl.toNat coll.toNat g.toNat k.toNat = some t) :
    exec (.reductionDeadline sl coll g k) s = .next (completeStarted
      (completeStarted s sl.toNat coll.toNat g.toNat k.toNat t false) sl.toNat coll.toNat g.toNat k.toNat t true) := by
  show execReductionDeadline sl coll g k s = _
  simp only [execReductionDeadline, hr, hfence, ht]
  rfl

/-- Settles O34: the slice by whether its step goes on and its words read well, and the deadline by the two reductions that it
reaches. -/
theorem updatesAndDeadlinesAct : Obligations.UpdatesAndDeadlinesAct := by
  intro port s sl g k tile rest hr _
  refine ⟨fun hq hfence => ⟨?applied, ?aborted⟩, ?deadline⟩
  case applied =>
    intro c r ecc hard hc hrec hopen hgoes _
    exact ⟨updateUnitSlice_good hr hq hfence hc hrec hopen hgoes (ecc := ⟨ecc, hard⟩),
      updateUnitSlice_uncorrectable hr hq hfence hc hrec hopen hgoes (ecc := ⟨ecc, hard⟩)⟩
  case aborted =>
    exact fun c ecc hard hc haborted => updateUnitSlice_aborted hr hq hfence hc haborted ⟨ecc, hard⟩
  case deadline =>
    intro coll t ht hfence r u hstart hopen hidle
    rw [reductionDeadline_next hr hfence ht, completeStarted_open hstart hopen, completeStarted_idle hidle]

end Sys2Proof.Machine
end
section
/-! SUPPORT. OBJ_ALLOC, OBJ_FREE and OBJ_QUERY (spec/11 R201, R202, R205, R221, R223). -/

namespace Sys2Proof.Machine

section
variable {p : Packet} {s : State} {n : Nat} (h : Accepts p s) (hn : pktSlot s p = some n)
include h hn

/-! ### OBJ_ALLOC (R201 to R204, R221) -/

section
variable (hrsv : allocReserved p.param = false) (hat : allocAtBad s p.param = false) (hnew : idTaken s n (paObj p.param) = false)
include hrsv hat hnew

/-- A home that its tier, its partition and the tables admit stands in the table. It is filled with zeros where the packet asks for it,
or where it lies in an UPDATE partition (DEDUCED, log entry 150). -/
theorem objAlloc_home {off : Nat} (hkind : paKind p.param = 0) (hsize : paSize p.param ≠ 0) (hmod : paMod p.param = modIdOf s)
    (hhost : paTier p.param = 2 → paAddr p.param % 4096 = 0 ∧ paAddr p.param < 2 ^ 48)
    (hpart : paTier p.param = 1 → partAllowed s n (paPart p.param) = true) (hroom : tablesFull s n = false)
    (hplace : choosePlace s p.param (paSize p.param) = some off) :
    let o := newHome p.param (modIdOf s) off (paSize p.param) (paCache p.param)
    exec (.objAlloc p) s = .next (answer (if paZero p.param || mustFill s p.param then zeroHome (putEntry s n (paObj p.param) o) n o
      else putEntry s n (paObj p.param) o) p 0x10 0 0) := by
  have hhost' : ¬(paKind p.param = 0 ∧ paTier p.param = 2 ∧ (paAddr p.param % 4096 ≠ 0 ∨ 2 ^ 48 ≤ paAddr p.param)) := by
    rintro ⟨-, htier, hbad⟩
    have := hhost htier
    omega
  have hpart' : ¬(paKind p.param = 0 ∧ paTier p.param = 1 ∧ (!partAllowed s n (paPart p.param)) = true) := by
    rintro ⟨-, htier, hbad⟩
    simp [hpart htier] at hbad
  show execObjAlloc p s = _
  rw [execObjAlloc, ctxCommand_next _ h hn]
  simp only [hhost', hpart', if_false]
  simp [hrsv, hat, hnew, hkind, hsize, hmod, hroom, hplace]

/-- A bind asks the home module, and waits for its answer. -/
theorem objAlloc_bind (hkind : paKind p.param = 1) (hsize : paSize p.param = 0) (hmod : paMod p.param ≠ modIdOf s)
    (hroom : tablesFull s n = false) :
    exec (.objAlloc p) s = .next (emit (modCtx s n fun c => { c with bindPkts := c.bindPkts ++ [p] })
      (.bindQuery (paMod p.param) (identOf s n) (BitVec.ofNat 32 (paAddr p.param)))) := by
  show execObjAlloc p s = _
  rw [execObjAlloc, ctxCommand_next _ h hn]
  simp [hrsv, hat, hnew, hkind, hsize, hmod, hroom]

theorem objAlloc_retire (hkind : paKind p.param = 2) (hsize : paSize p.param = 0) :
    exec (.objAlloc p) s = .next (retirePage s p) := by
  show execObjAlloc p s = _
  rw [execObjAlloc, ctxCommand_next _ h hn]
  simp [hrsv, hat, hnew, hkind, hsize]

end

/-! ### OBJ_FREE and OBJ_QUERY (R205, R223) -/

section
variable {o : Obj} (ho : objOf s n (bits p.param 224 32) = some o)
include ho

/-- An object that no plan, no group and no migration needs leaves the table. -/
theorem objFree_next (hrsv : bits p.param 0 224 = 0) (hmig : o.mig = none) (hfence : o.fenced = false)
    (hplan : planNames s n (bits p.param 224 32) = false) (hgroups : groupsName s n (bits p.param 224 32) = false) :
    exec (.objFree p) s = .next (answer (delEntry s n (bits p.param 224 32)) p 0x11 0 0) := by
  show execObjFree p s = _
  rw [execObjFree, ctxCommand_next _ h hn]
  simp [ho, zeroBits_of hrsv, hplan, hgroups, hmig, hfence]

theorem objQuery_next (halign : bits p.param 128 64 % 64 = 0) (hlow : bits p.param 0 128 = 0) (hhigh : bits p.param 192 32 = 0) :
    exec (.objQuery p) s = .next (answer (hostRecord s (bits p.param 128 64)
      (leBytes 64 (objRecord (bits p.param 224 32) o))) p 0x13 0 0) := by
  show execObjQuery p s = _
  rw [execObjQuery, ctxCommand_next _ h hn]
  simp [ho, halign, zeroBits_of hlow, zeroBits_of hhigh]

end
end

/-- A page of the tier that holds no home and is not retired yet joins the retired pages, while their list has room (R221). -/
theorem retirePage_retires {p : Packet} {s : State} (hu : bits p.param 85 8 ≤ 191)
    (hpage : bits p.param 64 21 < lpCapacity s / 192 / 4096)
    (hbare : (allHomes s).any (fun o => o.tier == 0 &&
      usesPage o.spread o.sgrp o.off o.size (bits p.param 85 8) (bits p.param 64 21)) = false)
    (hroom : s.retiredPages.length < 4096) (hnew : s.retiredPages.contains (bits p.param 85 8, bits p.param 64 21) = false) :
    retirePage s p = answer { s with retiredPages := s.retiredPages ++ [(bits p.param 85 8, bits p.param 64 21)] } p 0x10 0 0 := by
  have hin : ¬(191 < bits p.param 85 8 ∨ lpCapacity s / 192 / 4096 ≤ bits p.param 64 21) := by omega
  simp only [retirePage, hin, hbare, hnew, Nat.not_le.mpr hroom, false_and, if_false, Bool.false_eq_true]

/-- Settles O4: each packet is past its checks, and what is left is the branch of its kind. -/
theorem objectCommandsAnswer : Obligations.ObjectCommandsAnswer := by
  intro p s n h hn
  refine ⟨fun hrsv hat hnew => ⟨fun off hkind => objAlloc_home h hn hrsv hat hnew hkind, objAlloc_bind h hn hrsv hat hnew, ?retire⟩,
    fun o ho => objFree_next h hn ho, fun o ho => objQuery_next h hn ho⟩
  case retire =>
    exact fun hkind hsize => ⟨objAlloc_retire h hn hrsv hat hnew hkind hsize, retirePage_retires⟩

end Sys2Proof.Machine
end
section
/-! SUPPORT. Binding (spec/11 R204). -/

namespace Sys2Proof.Machine

/-! ### The home module's answer -/

section
variable {asker : BitVec 14} {ctx : BitVec 16} {id : BitVec 32} {s : State} {n : Nat} (hn : slotOfIdent s ctx = some n)
include hn

/-- What the context does not hold as a home is answered BAD_FIELD. -/
theorem bindQuery_not_home (hunheld : objOf s n id.toNat = none ∨ ∃ o, objOf s n id.toNat = some o ∧ o.isBind = true) :
    exec (.bindQuery asker ctx id) s = .next (emit s (.bindAnswer asker ctx id { status := 0x0102, home := 0 })) := by
  show execBindQuery asker ctx id s = _
  obtain hnone | ⟨o, ho, hbind⟩ := hunheld
  · simp [execBindQuery, hn, hnone]
  · simp [execBindQuery, hn, ho, hbind]

section
variable {o : Obj} (ho : objOf s n id.toNat = some o) (hhome : o.isBind = false)
include ho hhome

/-- A home with 256 binders is answered NO_SPACE. -/
theorem bindQuery_no_space (hfull : 256 ≤ o.binders.length) :
    exec (.bindQuery asker ctx id) s = .next (emit s (.bindAnswer asker ctx id { status := 0x0303, home := 0 })) := by
  show execBindQuery asker ctx id s = _
  simp [execBindQuery, hn, ho, hhome, hfull]

/-- A home with room for a binder keeps the asker and answers with its address; where a migration has fenced it, the fence notice follows
at once (DESIGN CHOICE, log entry 152), and while the migration is in FENCING it waits for the asker too. -/
theorem bindQuery_next (hroom : o.binders.length < 256) :
    let m := if o.state = .fencing then o.mig.map fun m => { m with unacked := (m.unacked ++ [asker]).eraseDups } else o.mig
    let t := emit (putEntry s n id.toNat { o with binders := o.binders ++ [asker], mig := m })
      (.bindAnswer asker ctx id { status := 0, home := homeAddr o })
    exec (.bindQuery asker ctx id) s = .next (if o.fenced then emit t (.fenceNotice asker ctx (homeAddr o)) else t) := by
  show execBindQuery asker ctx id s = _
  simp [execBindQuery, hn, ho, hhome, Nat.not_le.mpr hroom]

end
end

/-! ### The bind entry -/

/-- The bind entry for the home at `home`. -/
def bindEntry (home : BitVec 64) : Obj :=
  { isBind := true, homeMod := BitVec.ofNat 14 (bits home 50 14), tier := BitVec.ofNat 2 (bits home 48 2), off := bits home 0 48,
    size := 0, spread := 0, sgrp := 0, part := 0, cache := false, state := .homed, binders := [], fenced := false, mig := none }

/-- The three fields of a global address are all of it (R198). -/
theorem globalAddr_bits (home : BitVec 64) :
    globalAddr (BitVec.ofNat 14 (bits home 50 14)) (BitVec.ofNat 2 (bits home 48 2)) (bits home 0 48) = home := by
  apply BitVec.eq_of_toNat_eq
  simp only [globalAddr, pack, bits, BitVec.extractLsb'_toNat, BitVec.toNat_ofNat, Nat.shiftRight_eq_div_pow]
  omega

theorem homeAddr_bindEntry (home : BitVec 64) : homeAddr (bindEntry home) = home := globalAddr_bits home

section
variable {ctx : BitVec 16} {id : BitVec 32} {reply : MgtReply} {s : State} {n : Nat} {c : Ctx} {p : Packet}
  (hn : slotOfIdent s ctx = some n) (hc : ctxOf s n = some c)
  (hp : (c.bindPkts.find? fun p => paAddr p.param % 2 ^ 32 == id.toNat) = some p)
include hn hc hp

/-- The command that waits ends with the status of a refusal. -/
theorem bindAnswer_refused (hst : reply.status ≠ 0) : exec (.bindAnswer ctx id reply) s =
    .next (answer (modCtx s n fun c => { c with bindPkts := c.bindPkts.erase p }) p 0x10 reply.status.toNat 0) := by
  show execBindAnswer ctx id reply s = _
  simp only [execBindAnswer, hn, hc, hp, hst, ne_eq, not_false_eq_true, if_true]

/-- Otherwise the bind entry stands in the table, where its identifier is free and the tables have room. -/
theorem bindAnswer_binds (hst : reply.status = 0)
    (hnew : idTaken (modCtx s n fun c => { c with bindPkts := c.bindPkts.erase p }) n (paObj p.param) = false)
    (hroom : tablesFull (modCtx s n fun c => { c with bindPkts := c.bindPkts.erase p }) n = false) :
    exec (.bindAnswer ctx id reply) s = .next (answer (putEntry (modCtx s n fun c => { c with bindPkts := c.bindPkts.erase p }) n
      (paObj p.param) (bindEntry reply.home)) p 0x10 0 0) := by
  show execBindAnswer ctx id reply s = _
  simp only [execBindAnswer, hn, hc, hp, hst, hnew, hroom, ne_eq, not_true_eq_false, Bool.false_eq_true, if_false, bindEntry]

end

/-- Settles O5: the query by what the context holds under the identifier, and the answer by its status. -/
theorem bindsComplete : Obligations.BindsComplete := by
  intro asker ctx id reply s n hn
  refine ⟨fun o => bindQuery_next hn, bindQuery_not_home hn, fun o => bindQuery_no_space hn, fun c p hc hp => ?answer⟩
  case answer =>
    exact ⟨bindAnswer_refused hn hc hp,
      fun hst hnew hroom => ⟨bindEntry reply.home, rfl, homeAddr_bindEntry _, bindAnswer_binds hn hc hp hst hnew hroom⟩⟩

end Sys2Proof.Machine
end
section
/-! SUPPORT. Migration (spec/11 R208 to R210), and why its statement fails at the reserved identifier 0. -/

namespace Sys2Proof.Machine

/-- No object has identifier 0, whatever stands in the table under it (R201). -/
theorem objOf_zero (s : State) (n : Nat) : objOf s n 0 = none := by
  unfold objOf
  split <;> rfl

/-- Context 7 in slot 0 with a bind entry under identifier 0: a state that no command makes, as OBJ_ALLOC and MIGRATION_PLACE_QUERY
refuse the identifier. -/
def boundUnderZero : State := putEntry (fillSlot State.reset 0 7 false) 0 0 (bindEntry 0x7000)

theorem slotOfIdent_boundUnderZero : slotOfIdent boundUnderZero 7 = some 0 := by decide +kernel

theorem ctxOf_boundUnderZero :
    ctxOf boundUnderZero 0 = some { newCtx State.reset 0 7 with objs := [(0, bindEntry 0x7000)] } := by
  rw [boundUnderZero, putEntry, ctxOf_modCtx]
  rfl

/-- Refutes O6: the statement says of every identifier, the reserved 0 among them, that `objOf` finds the bind entry once a commit notice
is applied, and `objOf` finds nothing under 0. The counterexample is the notice of 0x7000 and 0x9000 for the entry of `boundUnderZero`. -/
theorem not_migrationsRun : ¬ Obligations.MigrationsRun := by
  rintro ⟨-, hnotices⟩
  obtain ⟨-, hcommit, -⟩ := hnotices boundUnderZero 7 0x7000 0x9000 0 ⟨0, 0, false, 0, []⟩ 0 0
  obtain ⟨hswitch, -⟩ := hcommit _ 0 (bindEntry 0x7000) slotOfIdent_boundUnderZero ctxOf_boundUnderZero
  obtain ⟨t, o, -, ho, -, -⟩ := hswitch rfl rfl rfl (homeAddr_bindEntry _)
  rw [objOf_zero] at ho
  cases ho

end Sys2Proof.Machine
end
section
/-! SUPPORT. The host's stream commands (spec/12 R229, R231, R234). -/

namespace Sys2Proof.Machine

/-! ### Arming and cancelling -/

section
variable {s : State} {c n k : Nat} {d : BitVec 512}

/-- The stream as ARM leaves it, before any of its tiles has started. -/
def armedStream (s : State) (n : Nat) (d : BitVec 512) : Stream :=
  { Stream.init with state := .active, desc := d, keep := d, d0 := countOf s n (dDone d), f0 := countOf s n (dFree d),
                     lastF := countOf s n (dFree d), lenAtArm := armLen s n d, fromAtArm := armFrom s n d }

/-- Only a PAGED descriptor has a sequence that acts on the plan. -/
theorem armSeq_not_paged (h : dMode d ≠ 2) : armSeq s n d = s := if_neg h

theorem streamOf_modStream (f : Stream → Stream) (hc : c < 256) (hk : k < 16) :
    streamOf (coreOf (modStream s c k f) c) k = f (streamOf (coreOf s c) k) := by
  rw [modStream, coreOf_modCore _ _ _ hc, streamOf_setStream _ _ _ hk]

/-- Beside the stream, arming changes only the waiters. -/
theorem coreOf_armNow_not_paged (h : dMode d ≠ 2) :
    coreOf (armNow s c n k d) c = coreOf (modStream (dropStreamWaiter s c k) c k fun _ => armedStream s n d) c := by
  rw [armNow]
  split <;> rw [armSeq_not_paged h] <;> rfl

theorem streamOf_armNow_not_paged (hc : c < 256) (hk : k < 16) (h : dMode d ≠ 2) :
    streamOf (coreOf (armNow s c n k d) c) k = armedStream s n d := by
  rw [coreOf_armNow_not_paged h, streamOf_modStream _ hc hk]

section
variable (hlive : planEnding s n = false)
include hlive

theorem armStream_none (hf : freeStream s c = none) : armStream s c n d = (s, 0x0300, 0) := by
  simp [armStream, hlive, hf]

theorem armStream_some (hf : freeStream s c = some k) :
    armStream s c n d = (endDesc (armNow s c n k d) c n k, 0, k) := by
  simp [armStream, hlive, hf]

theorem rearmStream_free (hfree : (streamOf (coreOf s c) k).state = .free) :
    rearmStream s c n k d = (endDesc (armNow s c n k d) c n k, 0, k) := by
  simp [rearmStream, hlive, hfree]

theorem rearmStream_pends (hbusy : (streamOf (coreOf s c) k).state ≠ .free) (hp : (streamOf (coreOf s c) k).pending = none) :
    rearmStream s c n k d = (modStream s c k fun x => { x with pending := some d }, 0, k) := by
  simp [rearmStream, hlive, hbusy, hp]

theorem rearmStream_full (hbusy : (streamOf (coreOf s c) k).state ≠ .free) (hp : (streamOf (coreOf s c) k).pending.isSome) :
    rearmStream s c n k d = (s, 0x0301, k) := by
  simp [rearmStream, hlive, hbusy, hp]

end
end

/-! ### The commands -/

section
variable {p : Packet} {s : State} {n c k : Nat} (h : Accepts p s) (hn : pktSlot s p = some n)
    (hc : placedCore s n (bits p.param 172 4) (bits p.param 168 4) = some c) (hrsv : bits p.param 0 164 = 0)
include h hn hc hrsv

/-- A command for a placed core whose fields are good is answered with what its operation `f` reports. -/
theorem hostStream_next {op : Nat} {ok : BitVec 256 → Bool} (hok : ok p.param = true)
    (f : Nat → Nat → Nat → State → State × Nat × Nat) :
    let r := f n c (bits p.param 164 4) s
    hostStream p op s ok f = .next (answer r.1 p op r.2.1 r.2.2) := by
  rw [hostStream, ctxCommand_next _ h hn]
  simp [hc, zeroBits_of hrsv, hok]

section
variable {d : BitVec 512} (hd : hostDesc s n p.param = some d) (hf : armFaults s n d = [])
include hd hf

theorem streamArm_next (h0 : bits p.param 164 4 = 0) :
    exec (.streamArm p) s = .next (answer (armStream s c n d).1 p 0x30 (armStream s c n d).2.1 (armStream s c n d).2.2) := by
  show execStreamArm p s = _
  rw [execStreamArm, hostStream_next h hn hc hrsv (by simp [h0])]
  simp only [hd, hf, if_true]

theorem streamRearm_next (hk : bits p.param 164 4 = k) :
    exec (.streamRearm p) s =
      .next (answer (rearmStream s c n k d).1 p 0x31 (rearmStream s c n k d).2.1 (rearmStream s c n k d).2.2) := by
  show execStreamRearm p s = _
  rw [execStreamRearm, hostStream_next h hn hc hrsv rfl]
  simp only [hd, hf, hk, if_true]

end

theorem streamCancel_next (hobj : bits p.param 224 32 = 0) (hoff : bits p.param 176 48 = 0) (hk : bits p.param 164 4 = k) :
    exec (.streamCancel p) s = .next (answer (modStream s c k cancelStream) p 0x32 0 k) := by
  show execStreamCancel p s = _
  rw [execStreamCancel, hostStream_next h hn hc hrsv (by simp [hobj, hoff])]
  simp only [cancelOne, hk]

end

/-- Settles O46: each command is past its checks, and its answer is what arming, rearming or cancelling the stream reports. That an ARM
with no free stream reports stream 0 is the model's choice (log entry 131). -/
theorem streamCommandsAnswer : Obligations.StreamCommandsAnswer := by
  intro p s n c k h hn hc hrsv
  refine ⟨fun d hd hf hlive => ⟨?full, ?arm, fun hk => ⟨?rearm, ?pends, ?pendingFull⟩, ?armed⟩, ?cancel⟩
  case full =>
    intro h0 hfree
    rw [streamArm_next h hn hc hrsv hd hf h0, armStream_none hlive hfree]
  case arm =>
    intro h0 hfree
    rw [streamArm_next h hn hc hrsv hd hf h0, armStream_some hlive hfree]
  case rearm =>
    intro hfree
    rw [streamRearm_next h hn hc hrsv hd hf hk, rearmStream_free hlive hfree]
  case pends =>
    intro hbusy hnone
    rw [streamRearm_next h hn hc hrsv hd hf hk, rearmStream_pends hlive hbusy hnone]
  case pendingFull =>
    intro hbusy hsome
    rw [streamRearm_next h hn hc hrsv hd hf hk, rearmStream_full hlive hbusy hsome]
  case armed =>
    intro hc256 hk16 hmode
    rw [streamOf_armNow_not_paged hc256 hk16 hmode]
    exact ⟨rfl, rfl, rfl, rfl, rfl, rfl⟩
  case cancel => exact streamCancel_next h hn hc hrsv

end Sys2Proof.Machine
end
section
/-! SUPPORT. Tiles of streams (spec/12 R229 to R231), and why their statement fails where a landing ends the plan. -/

namespace Sys2Proof.Machine

/-! ### A LINEAR stream whose pending descriptor cannot be armed, beside a stalled codec job -/

/-- The descriptor of one LINEAR tile of 64 bytes from object 1. -/
def oneTileDesc : BitVec 512 := BitVec.ofNat 512 (2 ^ 480 + 2 ^ 416 + 2 ^ 400 + 2 ^ 320 + 2 ^ 272 + 2 ^ 183)

/-- The descriptor of a PAGED read stream of pool object 5. -/
def pagedDesc : BitVec 512 := BitVec.ofNat 512 (5 * 2 ^ 480 + 2 ^ 416 + 2 ^ 400 + 2 ^ 183 + 2 * 2 ^ 176)

/-- A home in the shared store. -/
def sharedHome : Obj :=
  { isBind := false, homeMod := 1, tier := 1, off := 0, size := 4096, spread := 0, sgrp := 0, part := 0, cache := false,
    state := .homed, binders := [], fenced := false, mig := none }

/-- A plan on core 0. -/
def planOnCore0 : Running :=
  { number := 0, seed := 0, steps := false, startVid := 0, sendVid := 0, endVid := 0, placed := [{ lcl := 0, lcore := 0, core := 0 }],
    pkt := { ring := 0, tag := 0, ctx := 7, seq := 0, notify := false, fence := false, param := 0, extra := [] },
    working := [], begun := 0, rawFallback := false, tableChanged := false, ending := none, fault := none, cancelPkts := [] }

/-- The context: the stream's object 1, a KV descriptor with page table 2 and pool 5, and a table that is LOST. -/
def lostTableCtx (c : Ctx) : Ctx :=
  { c with objs := [(1, sharedHome), (2, { sharedHome with off := 4096, state := .lost })],
           kvDescs := [(BitVec.ofNat 256 (2 * 2 ^ 224 + 5 * 2 ^ 96), 0, 9)], run := some planOnCore0 }

/-- Tile 0 of a stream, in flight. -/
def tileInFlight : StreamTile := { n := 0, landed := false, walk := false, page := none, got := [], sent := false }

/-- The core: stream 0 is LINEAR with the PAGED descriptor pending, stream 1 is the codec job's, and each has one tile in flight. -/
def twoTilesCore (c : Core) : Core :=
  let x : Stream := { Stream.init with state := .active, next := 1, tiles := [tileInFlight] }
  let linear : Stream := { x with desc := oneTileDesc, keep := oneTileDesc, pending := some pagedDesc }
  let codec : BitVec 512 := BitVec.ofNat 512 (3 * 2 ^ 176 + 2 ^ 179)
  setStream (setStream { c with slot := some 0, tags := 2 } 0 linear) 1 { x with desc := codec, keep := codec }

/-- The job of stream 1's tile, which the pool has stalled (spec/14 R270). -/
def stalledTileJob : CodecJob :=
  { core := 0, for_ := .stream 1 0, slot := 0, expand := false, cfg := 0, coord := 0, lsAddr := 0, tierOff := 0, obj := 0, pool := none,
    src := [], ref := [], bad := false, badAt := none, seq := 0 }

/-- Context 7 in slot 0, with that core and that job in the encoder of its cluster. -/
def landingEndsPlan : State :=
  modCluster (modCore (modCtx { fillSlot State.reset 0 7 false with life := { Life.init with phase := .ready } } 0 lostTableCtx)
    0 twoTilesCore) 0 fun y => { y with enc := { queue := [stalledTileJob], running := none, stalled := true } }

/-- The fetch tags that core 0 holds after a step. -/
def tagsAfter : Out → Option Nat
  | .next v => some (coreOf v 0).tags
  | _ => none

/-- The tile of stream 0 is a LINEAR tile that lands from a home on this module with no error. -/
theorem landingEndsPlan_lands :
    let s := landingEndsPlan
    let x := streamOf (coreOf s 0) 0
    (ready s = true ∧ (coreOf s 0).slot = some 0) ∧
    (x.tiles = [tileInFlight] ∧ tileBusy s 0 0 0 = false ∧ x.state = .active ∧ x.frozen = false ∧ x.signalled = 0) ∧
    (isOut x = false ∧ dMode x.desc = 0 ∧ dExpands x.desc = false) ∧
    objOf s 0 (dHome s 0 x.desc) = some sharedHome ∧ beyond sharedHome (tileSegs s 0 x tileInFlight) = false ∧
    (gatherSegs s 0 sharedHome tileInFlight (tileSegs s 0 x tileInFlight) []).2 = [] := by
  decide +kernel

theorem tags_landingEndsPlan : (coreOf landingEndsPlan 0).tags = 2 := by decide +kernel

/-- The landing gives back both tags: the stream's pending descriptor takes effect, the page table cannot be read, so the plan ends
(spec/08 R156), and the stalled codec job is dropped, whose tile gives back its tag too (spec/14 R270). -/
theorem tagsAfter_landingEndsPlan : tagsAfter (exec (.streamTileDone 0 0 0 ⟨[], []⟩) landingEndsPlan) = some 0 := by decide +kernel

/-- Refutes O47: of a LINEAR tile that lands the statement says that the core then holds one fetch tag fewer. From `landingEndsPlan` it
holds two fewer, as the landing ends the plan, which drops another stream's codec tile. -/
theorem not_streamTilesMove : ¬ Obligations.StreamTilesMove := by
  intro h
  obtain ⟨⟨hready, hslot⟩, ⟨htiles, hidle, hactive, hfrozen, hsignalled⟩, ⟨hin, hlinear, hplain⟩, hhome, hwithin, hread⟩ :=
    landingEndsPlan_lands
  obtain ⟨-, -, hlands, -⟩ := h 0 0 landingEndsPlan 0 hready hslot
  obtain ⟨v, hv, -, htags⟩ := hlands tileInFlight sharedHome htiles rfl rfl hidle hhome rfl hwithin hin hactive hfrozen hlinear hplain
    hsignalled.symm hread
  have hnone : (coreOf v 0).tags = 0 := Option.some.inj ((congrArg tagsAfter hv).symm.trans tagsAfter_landingEndsPlan)
  simp only [BitVec.ofNat_eq_ofNat, BitVec.toNat_zero, hnone, tags_landingEndsPlan] at htags
  cases htags

end Sys2Proof.Machine
end
section
/-! SUPPORT. What writes of memory leave unchanged, and what leaves the life of the module unchanged (spec/22 R418). -/

namespace Sys2Proof.Machine

/-- A fold keeps what each of its steps keeps. -/
theorem foldl_keeps {α β : Type} (g : State → β) {f : State → α → State} (hf : ∀ s a, g (f s a) = g s) (l : List α)
    (s : State) : g (l.foldl f s) = g s := by
  induction l generalizing s with
  | nil => rfl
  | cons a l ih => exact (ih (f s a)).trans (hf s a)

/-! ### Writes of memory -/

/-- `t` has the contexts, the cores and the life of `s`. -/
structure SameUnits (s t : State) : Prop where
  ctxs  : t.ctxs = s.ctxs
  cores : t.cores = s.cores
  life  : t.life = s.life

theorem SameUnits.refl (s : State) : SameUnits s s := ⟨rfl, rfl, rfl⟩

theorem SameUnits.trans {s t u : State} (h : SameUnits s t) (k : SameUnits t u) : SameUnits s u :=
  ⟨k.ctxs.trans h.ctxs, k.cores.trans h.cores, k.life.trans h.life⟩

theorem SameUnits.foldl {α : Type} {f : State → α → State} {s : State} (hf : ∀ s a, SameUnits s (f s a)) (l : List α) :
    SameUnits s (l.foldl f s) :=
  ⟨foldl_keeps State.ctxs (fun s a => (hf s a).ctxs) l s, foldl_keeps State.cores (fun s a => (hf s a).cores) l s,
    foldl_keeps State.life (fun s a => (hf s a).life) l s⟩

theorem SameUnits.ctxOf {s t : State} (h : SameUnits s t) (n : Nat) : ctxOf t n = ctxOf s n := by
  simp only [Machine.ctxOf, slotOf, h.ctxs]

theorem SameUnits.coreOf {s t : State} (h : SameUnits s t) (c : Nat) : coreOf t c = coreOf s c := by
  simp only [Machine.coreOf, h.cores]

theorem sameUnits_emit (s : State) (o : Output) : SameUnits s (emit s o) := ⟨rfl, rfl, rfl⟩

theorem sameUnits_logHealth (s : State) (cls source code ctx loc : Nat) : SameUnits s (logHealth s cls source code ctx loc) := by
  unfold logHealth
  split <;> exact ⟨rfl, rfl, rfl⟩

theorem sameUnits_lpWriteLine (s : State) (n line a : Nat) (bs : List Byte) : SameUnits s (lpWriteLine s n line a bs) := by
  unfold lpWriteLine
  dsimp only
  split
  · refine SameUnits.trans ?_ (sameUnits_logHealth _ _ _ _ _ _)
    exact ⟨rfl, rfl, rfl⟩
  · exact ⟨rfl, rfl, rfl⟩

theorem sameUnits_lpWrite (s : State) (n a : Nat) (bs : List Byte) : SameUnits s (lpWrite s n a bs) := by
  unfold lpWrite
  refine SameUnits.trans ?_ (SameUnits.foldl (fun _ _ => sameUnits_lpWriteLine _ _ _ _ _) _)
  exact ⟨rfl, rfl, rfl⟩

theorem sameUnits_bareLine (s : State) (l : Nat) : SameUnits s (bareLine s l) := by
  unfold bareLine
  split <;> exact ⟨rfl, rfl, rfl⟩

theorem sameUnits_hostWrite (s : State) (a : Nat) (bs : List Byte) : SameUnits s (hostWrite s a bs) :=
  (SameUnits.foldl sameUnits_bareLine _).trans ⟨rfl, rfl, rfl⟩

theorem sameUnits_hostRecord (s : State) (a : Nat) (bs : List Byte) : SameUnits s (hostRecord s a bs) := by
  unfold hostRecord
  split
  · exact .refl s
  · exact sameUnits_hostWrite s a bs

theorem sameUnits_hostHomeWrite (s : State) (n a : Nat) (bs : List Byte) : SameUnits s (hostHomeWrite s n a bs) := by
  unfold hostHomeWrite
  refine SameUnits.foldl (fun _ _ => ?_) _
  exact ⟨rfl, rfl, rfl⟩

theorem sameUnits_writePlace (s : State) (n : Nat) (pl : Place) (off : Nat) (bs : List Byte) :
    SameUnits s (writePlace s n pl off bs) := by
  unfold writePlace
  split
  · refine SameUnits.trans ?_ (sameUnits_lpWrite _ _ _ _)
    split
    · exact SameUnits.foldl (fun _ _ => sameUnits_emit _ _) _
    · exact .refl s
  · exact ⟨rfl, rfl, rfl⟩
  · split
    · exact .refl s
    · exact sameUnits_hostHomeWrite _ _ _ _
  · exact sameUnits_emit _ _

theorem sameUnits_putObj (s : State) (n id off len v : Nat) : SameUnits s (putObj s n id off len v) := by
  unfold putObj writeObj
  split
  · split
    · exact .refl s
    · exact sameUnits_writePlace _ _ _ _ _
  · exact .refl s

theorem sameUnits_clearPool (s : State) (n : Nat) : SameUnits s (clearPool s n) := by
  unfold clearPool
  split
  · exact SameUnits.foldl (fun _ _ => sameUnits_putObj _ _ _ _ _ _) _
  · exact .refl s

theorem sameUnits_ringWrite {s t : State} {n off : Nat} {base : BitVec 64} {bs : List Byte}
    (h : ringWrite s n base off bs = some t) : SameUnits s t := by
  unfold ringWrite at h
  dsimp only at h
  split at h
  · split at h
    · cases h; exact sameUnits_lpWrite _ _ _ _
    · cases h
  · split at h
    · cases h
    · cases h; exact sameUnits_hostWrite _ _ _

/-! ### The life of the module -/

@[simp] theorem logHealth_life (s : State) (cls source code ctx loc : Nat) : (logHealth s cls source code ctx loc).life = s.life :=
  (sameUnits_logHealth _ _ _ _ _ _).life

@[simp] theorem putObj_life (s : State) (n id off len v : Nat) : (putObj s n id off len v).life = s.life :=
  (sameUnits_putObj _ _ _ _ _ _).life

@[simp] theorem foldl_life {α : Type} {f : State → α → State} (hf : ∀ s a, (f s a).life = s.life) (l : List α) (s : State) :
    (l.foldl f s).life = s.life := foldl_keeps State.life hf l s

@[simp] theorem times_life {f : State → State} (hf : ∀ s, (f s).life = s.life) (k : Nat) (s : State) :
    (times k f s).life = s.life := by
  induction k generalizing s with
  | zero => rfl
  | succ k ih => exact (ih (f s)).trans (hf s)

theorem ite_life {c : Prop} [Decidable c] {a b s : State} (ha : a.life = s.life) (hb : b.life = s.life) :
    (if c then a else b).life = s.life := by
  split
  · exact ha
  · exact hb

/-- An operation that may fail keeps the life where its result does. -/
theorem getD_life {s : State} {o : Option State} (h : ∀ t, o = some t → t.life = s.life) : (o.getD s).life = s.life := by
  cases o with
  | none => rfl
  | some t => exact h t rfl

/-! ### Receipts -/

@[simp] theorem sendVector_life (s : State) (v : Nat) : (sendVector s v).life = s.life := ite_life rfl rfl

@[simp] theorem setErr_life (s : State) (b : Nat) : (setErr s b).life = s.life := by simp [setErr]

@[simp] theorem deadLetter_life (s : State) (v : Violation) : (deadLetter s v).life = s.life := by simp [deadLetter]

@[simp] theorem countViolation_life (s : State) (n : Nat) : (countViolation s n).life = s.life := by simp [countViolation]

@[simp] theorem writeReceipt_life (s : State) (n : Nat) (raw : BitVec 256) (notify : Bool) :
    (writeReceipt s n raw notify).life = s.life := by
  unfold writeReceipt
  dsimp only
  split
  next hwrite =>
    have hlife := (sameUnits_ringWrite hwrite).life
    exact ite_life ((sendVector_life _ _).trans hlife) hlife
  next => exact ite_life ((countViolation_life _ _).trans (deadLetter_life _ _)) (deadLetter_life _ _)

@[simp] theorem pushReceipt_life (s : State) (n : Nat) (raw : BitVec 256) (notify : Bool) :
    (pushReceipt s n raw notify).life = s.life := ite_life rfl (writeReceipt_life _ _ _ _)

@[simp] theorem eventReceipt_life (s : State) (n status detail : Nat) (tag : Word) :
    (eventReceipt s n status detail tag).life = s.life := by
  unfold eventReceipt
  split <;> simp

@[simp] theorem quarantine_life (s : State) (n : Nat) : (quarantine s n).life = s.life := by
  unfold quarantine
  split <;> simp

theorem hostViolation_life {reply : State → State} (hr : ∀ s, (reply s).life = s.life) (s : State) (v : Violation) :
    (hostViolation s v reply).life = s.life := by
  unfold hostViolation
  dsimp only
  split <;> simp [hr]

/-- The receipt of a packet is pushed. -/
def receipted (p : Packet) (op status detail : Nat) (s : State) : State :=
  pushReceipt s p.ring.toNat (rcptOf s p op status detail) p.notify

theorem receipted_life (p : Packet) (op status detail : Nat) (s : State) : (receipted p op status detail s).life = s.life :=
  pushReceipt_life _ _ _ _

/-- An answer is its receipt, which BAD_FIELD gives in reply to a violation. -/
theorem answerD_eq (s : State) (p : Packet) (op status detail : Nat) :
    ∃ v, answerD s p op status detail = draw (if status = 0x0102 then hostViolation s v (receipted p op status detail)
      else receipted p op status detail s) := by
  unfold answerD
  exact ⟨_, (apply_ite draw (status = 0x0102) (hostViolation s _ (receipted p op status detail))
    (receipted p op status detail s)).symm⟩

@[simp] theorem answer_life (s : State) (p : Packet) (op status detail : Nat) : (answer s p op status detail).life = s.life := by
  obtain ⟨v, hv⟩ := answerD_eq s p op status (if status = 0x0102 ∧ detail = 0 then 3 else detail)
  rw [answer, hv, draw_life]
  exact ite_life (hostViolation_life (receipted_life _ _ _ _) s v) (receipted_life _ _ _ _ s)

/-! ### Flits -/

@[simp] theorem sendOne_life (s : State) (n : Nat) : (sendOne s n).life = s.life := by
  unfold sendOne
  dsimp only
  split
  · rfl
  · split <;> rfl

@[simp] theorem enqueue_life (s : State) (n t : Nat) (f : Flit) : (enqueue s n t f).life = s.life := by simp [enqueue, pump]

@[simp] theorem bounce_life (s : State) (t : Nat) (f : Flit) (code : Nat) : (bounce s t f code).life = s.life := by
  unfold bounce
  dsimp only
  split
  · split
    · rfl
    · split <;> simp
  · rfl

@[simp] theorem sendFlit_life (s : State) (t : Nat) (f : Flit) : (sendFlit s t f).life = s.life := by
  unfold sendFlit routeOut
  split <;> simp

@[simp] theorem reply_life (s : State) (t : Nat) (f : Flit) (op status : Nat) (arg : BitVec 64) (data : List Byte) :
    (reply s t f op status arg data).life = s.life := by simp [reply]

@[simp] theorem sendTxn_life (s : State) (r : TxnReq) : (sendTxn s r).life = s.life := by simp [sendTxn]

@[simp] theorem flushSends_life (s : State) : (flushSends s).life = s.life :=
  foldl_life (fun s r => by split <;> simp) _ _

@[simp] theorem remoteSignal_life (s : State) (core : BitVec 8) (slot vid : Nat) (m : BitVec 14) (v : Word) (opId : Option Nat) :
    (remoteSignal s core slot vid m v opId).life = s.life := by simp [remoteSignal, request]

/-! ### Counters -/

@[simp] theorem signalSig_life (s : State) (core : BitVec 8) (slot : Nat) (sig : Option (BitVec 20)) :
    (signalSig s core slot sig).life = s.life := by
  unfold signalSig signalVid
  split
  · split <;> simp [arrive]
  · rfl

@[simp] theorem setCount_life (s : State) (pid : BitVec 16) (c : Counter) (v : Word) : (setCount s pid c v).life = s.life := by
  unfold setCount
  dsimp only
  split <;> rfl

@[simp] theorem poisonCounter_life (s : State) (pid : BitVec 16) : (poisonCounter s pid).life = s.life := by
  unfold poisonCounter
  split
  · rfl
  · split <;> rfl

@[simp] theorem setCounter_life (s : State) (pid : Nat) (c : Counter) : (setCounter s pid c).life = s.life := rfl

theorem leaseTake_life {s : State} {pid : BitVec 16} {c : Counter} {who : Issuer} {r : State × Word}
    (h : leaseTake s pid c who = some r) : r.1.life = s.life := by
  unfold leaseTake at h
  dsimp only at h
  split at h
  · cases h; rfl
  · split at h
    · cases h; simp [setLeases]
    · cases h

@[simp] theorem syncDone_life (s : State) (r : SyncReq) (v : Word) : (syncDone s r v).life = s.life := by
  unfold syncDone
  split
  · dsimp only
    split <;> simp
  · simp
  · rfl

@[simp] theorem syncStale_life (s : State) (r : SyncReq) : (syncStale s r).life = s.life := by
  unfold syncStale
  dsimp only
  split <;> simp

@[simp] theorem enterWaiter_life (s : State) (r : SyncReq) : (enterWaiter s r).life = s.life := by
  unfold enterWaiter
  split <;> rfl

theorem applySync_life {s t : State} {r : SyncReq} (h : applySync s r = some t) : t.life = s.life := by
  unfold applySync at h
  dsimp only at h
  split at h
  next => cases h; exact syncStale_life s r
  next =>
  split at h
  next => cases h; exact syncStale_life s r
  next =>
  split at h
  case h_1 => split at h <;> cases h <;> simp
  case h_2 => split at h <;> cases h <;> simp
  case h_3 => split at h <;> cases h <;> simp
  case h_4 => cases h; simp
  case h_5 =>
    split at h
    next => cases h; simp
    next =>
    split at h
    next =>
      split at h
      next htake => cases h; exact (syncDone_life _ _ _).trans (leaseTake_life htake)
      next => cases h
    next => cases h; simp
  case h_6 =>
    split at h
    next => cases h; simp
    next => split at h <;> cases h <;> simp
  case h_7 => cases h; rfl

@[simp] theorem applyWaiting_life (s : State) (pid : BitVec 16) : (applyWaiting s pid).life = s.life :=
  foldl_life (fun s r => getD_life fun t h => by simpa using applySync_life h) _ _

@[simp] theorem signalFw_life (s : State) (slot vid : Nat) (v : Word) : (signalFw s slot vid v).life = s.life := by
  unfold signalFw
  split
  · exact (getD_life fun t h => applySync_life h).trans (applyWaiting_life _ _)
  · simp
  · simp

/-! ### Waiting sequences (spec/08 R148) -/

@[simp] theorem settleTickets_life (s : State) (n : Nat) : (settleTickets s n).life = s.life := by
  unfold settleTickets
  split
  · refine times_life (fun s => ?_) _ _
    split
    · split <;> simp [returnPage]
    · rfl
  · rfl

@[simp] theorem endSeqWaits_life (s : State) (n st : Nat) : (endSeqWaits s n st).life = s.life := by
  unfold endSeqWaits
  split
  · split
    · rfl
    · simp [endSeqWait, attWaiting, resumeTile, dropWalkWaiter, setSeqState]
  · rfl

/-! ### The end of a plan (spec/13 R253, R254; spec/18 R344) -/

@[simp] theorem cancelPlanWork_life (s : State) (n : Nat) : (cancelPlanWork s n).life = s.life := by
  have hdrop : ∀ (s : State) (j : CodecJob), (dropCodecTile s j).life = s.life := fun s j => by
    unfold dropCodecTile
    split <;> rfl
  have hcancel : ∀ (s : State) (c : Nat), (cancelCore (haltCore s c) c).life = s.life := fun _ _ => rfl
  simp [cancelPlanWork, dropStalledJobs, hdrop, hcancel]

@[simp] theorem sendVoteTo_life (s : State) (m : Members) (i : Nat) (v : VoteMsg) : (sendVoteTo s m i v).life = s.life := by
  unfold sendVoteTo
  split <;> rfl

@[simp] theorem sendUp_life (s : State) (m : Members) (v : VoteMsg) : (sendUp s m v).life = s.life := by
  unfold sendUp sendDown
  split
  · split
    · simp
    · split
      · split <;> simp
      · rfl
  · rfl

@[simp] theorem settleSatchels_life (s : State) (n : Nat) : (settleSatchels s n).life = s.life := by
  unfold settleSatchels
  split
  · rfl
  · split <;> simp

@[simp] theorem closeStep_life (s : State) (n : Nat) (p : Packet) (status detail : Nat) :
    (closeStep s n p status detail).life = s.life := by simp [closeStep, dropFirmwareWaiter]

@[simp] theorem dropStep_life (s : State) (n detail : Nat) : (dropStep s n detail).life = s.life := by
  unfold dropStep
  split
  · rfl
  · dsimp only
    split
    · rfl
    · split <;> simp [answerCancelled]

@[simp] theorem abortStep_life (s : State) (n detail : Nat) : (abortStep s n detail).life = s.life := by
  unfold abortStep
  split
  · rfl
  · dsimp only
    split
    · rfl
    · split <;> simp

@[simp] theorem endPlan_life (s : State) (n status detail stepDetail : Nat) :
    (endPlan s n status detail stepDetail).life = s.life := by
  unfold endPlan
  split
  · rfl
  · split
    · rfl
    · dsimp only
      split <;> simp

@[simp] theorem settleFault_life (s : State) (n : Nat) : (settleFault s n).life = s.life := by
  unfold settleFault
  split <;> simp

@[simp] theorem lateSeqs_life (s : State) (n : Nat) : (lateSeqs s n).life = s.life := by
  unfold lateSeqs
  split <;> simp

end Sys2Proof.Machine
end
section
/-! SUPPORT. PLAN_LOAD and PLAN_VERIFY (spec/13 R248 to R250). -/

namespace Sys2Proof.Machine

theorem sameUnits_putRecord (s : State) (w : BitVec 256) (r : Option Reject) : SameUnits s (putRecord s w r) := by
  unfold putRecord
  split
  · exact .refl s
  · exact sameUnits_hostRecord _ _ _

/-- The plan that an image is kept as, judged by what stands in `s` (R251). -/
def planOf (s : State) (n : Nat) (img : List Byte) : Plan := { image := img, digest := hdrDigest img, judged := judgedNow s n }

/-- Slot `n` holds the plan `pl` under `num`. -/
def enterPlan (s : State) (n num : Nat) (pl : Plan) : State := modCtx s n fun c => { c with plans := tput c.plans num pl }

theorem tget_enterPlan {s : State} {n num : Nat} {pl : Plan} (h : (ctxOf s n).isSome = true) :
    ∃ c, ctxOf (enterPlan s n num pl) n = some c ∧ tget c.plans num = some pl := by
  obtain ⟨c, hc⟩ := Option.isSome_iff_exists.mp h
  have hin : ctxOf (enterPlan s n num pl) n = some { c with plans := tput c.plans num pl } := by
    rw [enterPlan, ctxOf_modCtx, hc, Option.map_some]
  exact ⟨_, hin, tget_tput_eq c.plans num pl⟩

section
variable {p : Packet} {s : State} {n : Nat} {rd : Rd} (hfields : loadBad s n p = false)
  (hread : readObjAt s n (plObj p.param) (plOff p.param) (plSize p.param) = some rd) (hgood : rd.bad = [])
  (hverdict : verdict s n rd.bytes (plSize p.param) = none)
include hfields hread hgood hverdict

/-- An image that reads well and passes every check is handed on, once the record of its verdict is written. -/
theorem verifyPlan_passes (op : Nat) (ok : State → List Byte → State) :
    verifyPlan p op s n false ok = ok (putRecord s p.param none) rd.bytes := by
  simp [verifyPlan, hfields, hread, hgood, hverdict]

variable (h : Accepts p s) (hn : pktSlot s p = some n)
include h hn

theorem planVerify_next : exec (.planVerify p) s = .next (answer (putRecord s p.param none) p 0x21 0 0) := by
  show execPlanVerify p s = _
  rw [execPlanVerify, ctxCommand_next _ h hn, verifyPlan_passes hfields hread hgood hverdict]

theorem planLoad_next (hidle : runNumber s n ≠ some (plNum p.param)) : exec (.planLoad p) s =
    .next (answer (enterPlan (putRecord s p.param none) n (plNum p.param) (planOf s n rd.bytes)) p 0x20 0 (plNum p.param)) := by
  show execPlanLoad p s = _
  rw [execPlanLoad, ctxCommand_next _ h hn, beq_false_of_ne hidle, verifyPlan_passes hfields hread hgood hverdict]
  rfl

end

/-- Settles O11: both commands are past the checks of `verifyPlan`, and the record of a verdict changes no context, so LOAD's image stands
in the one that the slot holds. -/
theorem planLoadsAndVerifies : Obligations.PlanLoadsAndVerifies := by
  intro p s n rd h hn _ hfields hread hgood hverdict
  refine ⟨planVerify_next hfields hread hgood hverdict h hn, fun hidle => ?load⟩
  case load =>
    have hheld : (ctxOf (putRecord s p.param none) n).isSome = true := by
      rw [(sameUnits_putRecord _ _ _).ctxOf]
      exact (pktSlot_lt hn).2
    obtain ⟨c, hc, hpl⟩ := tget_enterPlan (num := plNum p.param) (pl := planOf s n rd.bytes) hheld
    exact ⟨_, planLoad_next hfields hread hgood hverdict h hn hidle, c, _, hc, hpl, rfl, rfl⟩

end Sys2Proof.Machine
end
section
/-! SUPPORT. PLAN_START, PLAN_CANCEL and PLAN_END (spec/13 R252, R253; spec/03 R56). -/

namespace Sys2Proof.Machine

/-! ### A plan starts (R247, R252) -/

theorem wakePower_ctxs (s : State) : (wakePower s).ctxs = s.ctxs := by
  unfold wakePower
  split <;> rfl

theorem wakePower_cores (s : State) : (wakePower s).cores = s.cores := by
  unfold wakePower
  split <;> rfl

theorem ctxOf_setupCores (s : State) (n : Nat) (img : List Byte) (ps : List Placed) (m : Nat) :
    ctxOf (ps.foldl (fun s x => setupCore s n img x) s) m = ctxOf s m :=
  foldl_keeps (ctxOf · m) (fun s x => (rfl : ctxOf (setupCore s n img x) m = ctxOf s m)) ps s

section
variable {s : State} {n : Nat} (p : Packet) (img : List Byte) (ws : List (Nat × Nat))

/-- The context runs the plan. -/
theorem run_startPlan {c : Ctx} (ps : List Placed) (hc : ctxOf s n = some c) :
    ∃ c', ctxOf (startPlan s n p img ps ws) n = some c' ∧ c'.run = some (newRun p img ps ws) := by
  have hpool : ∀ t, ctxOf (wakePower (draw (if hdrSteps img then t else clearPool t n))) n = ctxOf t n := fun t => by
    rw [ctxOf, slotOf, wakePower_ctxs]
    split
    · rfl
    · exact (sameUnits_clearPool t n).ctxOf n
  rw [startPlan, hpool, ctxOf_setupCores, ctxOf_modCtx, hc]
  exact ⟨_, rfl, rfl⟩

/-- Its core has the threads of its records. -/
theorem core_startPlan (x : Placed) :
    (coreOf (startPlan s n p img [x] ws) x.core.toNat).threads = coreThreads img (x.lcl, x.lcore) ∧
    (coreOf (startPlan s n p img [x] ws) x.core.toNat).slot = some (BitVec.ofNat 6 n) := by
  have hpool : ∀ t k, coreOf (wakePower (draw (if hdrSteps img then t else clearPool t n))) k = coreOf t k := fun t k => by
    rw [coreOf, wakePower_cores]
    split
    · rfl
    · exact (sameUnits_clearPool t n).coreOf k
  rw [startPlan, hpool, List.foldl_cons, List.foldl_nil, setupCore, coreOf_modCore _ _ _ x.core.isLt]
  exact ⟨rfl, rfl⟩

end

/-- The plan number of PLAN_START is its four bits. -/
theorem newRun_number (p : Packet) (img : List Byte) (ps : List Placed) (ws : List (Nat × Nat)) :
    (newRun p img ps ws).number.toNat = bits p.param 252 4 :=
  (BitVec.toNat_ofNat _ _).trans (Nat.mod_eq_of_lt (BitVec.isLt _))

section
variable {p : Packet} {s : State} {n : Nat} {c : Ctx} (h : Accepts p s) (hn : pktSlot s p = some n) (hc : ctxOf s n = some c)
include h hn hc

/-- A plan that nothing holds, whose checks pass, and for which there is room, starts. -/
theorem planStart_next {pl : Plan} {ps : List Placed} {s1 : State} (hfree : stepHeld s n = false)
    (hlow : bits p.param 0 128 = 0) (hhigh : bits p.param 192 59 = 0)
    (hseed : bit p.param 251 = true ∨ bits p.param 128 64 = 0) (hpl : tget c.plans (bits p.param 252 4) = some pl)
    (hidle : c.run = none) (hdrain : drainedNow s = false) (hverdict : startVerdict s n pl = none)
    (hplace : placePlan s pl.image (takenClusters s n) = .ok ps) (hroom : allocWorks s n (workObjs s n pl.image) = some s1) :
    exec (.planStart p) s = .next (startPlan (enterPlan s1 n (bits p.param 252 4) { pl with judged := judgedNow s n })
      n p pl.image ps (workObjs s n pl.image)) := by
  have hseed' : (!bit p.param 251 && !zeroBits p 128 64) = false := by
    rcases hseed with hset | hzero
    · simp [hset]
    · simp [zeroBits_of hzero]
  show execPlanStart p s = _
  rw [execPlanStart, ctxCommand_next _ h hn]
  simp [hc, hfree, zeroBits_of hlow, zeroBits_of hhigh, hseed', hpl, hidle, hdrain, hverdict, hplace, hroom, enterPlan]

/-! ### PLAN_CANCEL (R253) -/

section
variable (hrsv : bits p.param 0 256 = 0)
include hrsv

theorem planCancel_idle (hidle : c.run = none) : exec (.planCancel p) s = .next (answer s p 0x23 0 1) := by
  show execPlanCancel p s = _
  rw [execPlanCancel, ctxCommand_next _ h hn]
  simp [hc, zeroBits_of hrsv, hidle]

theorem planCancel_running (hrun : c.run.isSome = true) :
    exec (.planCancel p) s = .next (modCtx (endPlan (draw s) n 0x0400 0 0) n fun c =>
      { c with run := c.run.map fun r => { r with cancelPkts := r.cancelPkts ++ [p] } }) := by
  have hsome : c.run.isNone = false := by simp [hrun]
  show execPlanCancel p s = _
  rw [execPlanCancel, ctxCommand_next _ h hn]
  simp only [hc, zeroBits_of hrsv, hsome, Bool.not_true, Bool.false_eq_true, if_false]

end
end

/-! ### PLAN_END (R253, R379) -/

/-- What PLAN_END finds once the firmware has ended a plan of which a thread has faulted (DEDUCED, log entry 135), and the sequences that
waited have left WAITING_PAGES. -/
def settled (s : State) (n : Nat) : State := lateSeqs (settleFault s n) n

theorem ready_settled {s : State} (h : ready s = true) (n : Nat) : ready (settled s n) = true := by
  rw [ready, settled, lateSeqs_life, settleFault_life]
  exact h

/-- Where no plan runs, none has faulted and none is ending. -/
theorem settled_idle {s : State} {n : Nat} {c : Ctx} (hc : ctxOf s n = some c) (hidle : c.run = none) : settled s n = s := by
  simp [settled, settleFault, faultDue, lateSeqs, hc, hidle]

section
variable {slot : BitVec 6} {s : State} (h : ready s = true)
include h

theorem settled_of_ready (n : Nat) : (if ready s then lateSeqs (settleFault s n) n else s) = settled s n := if_pos h

/-- Without a running plan there is nothing to end. -/
theorem planEnd_idle {c : Ctx} (hc : ctxOf s slot.toNat = some c) (hidle : c.run = none) : exec (.planEnd slot) s = .next s := by
  show execPlanEnd slot s = _
  simp only [execPlanEnd, settled_of_ready h, settled_idle hc hidle]
  simp only [h, hc, Option.bind_some, hidle]

section
variable {r : Running} (hrun : (ctxOf (settled s slot.toNat) slot.toNat).bind (·.run) = some r)
include hrun

/-- A plan whose work goes on, or whose open pass a migration keeps open, does not end yet. -/
theorem planEnd_waits (hwork : planDone (settled s slot.toNat) slot.toNat r = false ∨
    (openPasses (settled s slot.toNat) slot.toNat && tablesFenced (settled s slot.toNat) slot.toNat) = true) :
    exec (.planEnd slot) s = .next (settled s slot.toNat) := by
  have hwait : (!planDone (settled s slot.toNat) slot.toNat r ||
      (openPasses (settled s slot.toNat) slot.toNat && tablesFenced (settled s slot.toNat) slot.toNat)) = true := by
    rcases hwork with hgoes | hpass
    · simp [hgoes]
    · simp [hpass]
  show execPlanEnd slot s = _
  simp only [execPlanEnd, settled_of_ready h, ready_settled h, hrun, hwait, if_true]

section
variable {c : Ctx} (hdone : planDone (settled s slot.toNat) slot.toNat r = true)
  (hpass : (openPasses (settled s slot.toNat) slot.toNat && tablesFenced (settled s slot.toNat) slot.toNat) = false)
  (hc : ctxOf (finishPlan (settled s slot.toNat) slot.toNat r) slot.toNat = some c)
include hdone hpass hc

/-- A plan whose work has ended is finished. -/
theorem planEnd_finishes (hq : c.ctxQ = []) :
    exec (.planEnd slot) s = .next (finishPlan (settled s slot.toNat) slot.toNat r) := by
  show execPlanEnd slot s = _
  simp only [execPlanEnd, settled_of_ready h, ready_settled h, hrun, hdone, hpass, hc, hq, Bool.not_true, Bool.or_self,
    Bool.false_eq_true, if_false]

/-- The first context command that waited for the end is completed, and the others go on. -/
theorem planEnd_runs {k : CtxCmd} {q : Packet} {rest : List (CtxCmd × Packet)} (hq : c.ctxQ = (k, q) :: rest) :
    exec (.planEnd slot) s = .next (runCtxQ rest.length rest
      (endCtxCmd (modCtx (finishPlan (settled s slot.toNat) slot.toNat r) slot.toNat fun c => { c with ctxQ := [] })
        slot.toNat k q) slot.toNat) := by
  show execPlanEnd slot s = _
  simp only [execPlanEnd, settled_of_ready h, ready_settled h, hrun, hdone, hpass, hc, hq, Bool.not_true, Bool.or_self,
    Bool.false_eq_true, if_false]

end
end
end

/-- Settles O12: a start by the plan that it registers and the core that it sets up, a cancel by whether a plan runs, and PLAN_END by what
`settled` leaves of the plan: that it ends a plan of which a thread has faulted is log entry 135 (DEDUCED), and when a plan ends and what
it allocates are log entries 68 to 70. -/
theorem planStartsAndEnds : Obligations.PlanStartsAndEnds := by
  intro p s n c _ hc
  refine ⟨fun pl ps s1 h hn hfree hlow hhigh hseed hpl hidle hdrain hverdict hplace hroom => ?start,
    fun h hn hrsv => ⟨planCancel_idle h hn hc hrsv, planCancel_running h hn hc hrsv⟩,
    fun slot r hslot h => ?finish, fun slot hslot h => ?idle⟩
  case start =>
    refine ⟨_, planStart_next h hn hc hfree hlow hhigh hseed hpl hidle hdrain hverdict hplace hroom, fun hheld => ?runs,
      fun x hx => ?core⟩
    case runs =>
      obtain ⟨c1, hc1, -⟩ := tget_enterPlan (num := bits p.param 252 4) (pl := { pl with judged := judgedNow s n }) hheld
      obtain ⟨c', hc', hrun⟩ := run_startPlan p pl.image (workObjs s n pl.image) ps hc1
      exact ⟨c', _, hc', hrun, newRun_number _ _ _ _, rfl, rfl, rfl, rfl⟩
    case core =>
      subst hx
      exact core_startPlan p pl.image _ x
  case finish =>
    subst hslot
    exact fun hrun => ⟨planEnd_waits h hrun, fun c' hdone hpass hc' =>
      ⟨planEnd_finishes h hrun hdone hpass hc', fun k q rest => planEnd_runs h hrun hdone hpass hc'⟩⟩
  case idle =>
    subst hslot
    exact planEnd_idle h hc

end Sys2Proof.Machine
end
section
/-! SUPPORT. The configuration and the jobs of a tile codec unit (spec/14 R260 to R274). -/

namespace Sys2Proof.Machine

/-! ### TCD_CONFIG (R260, R269) -/

section
variable {p : Packet} {s : State} {n : Nat} (h : Accepts p s) (hn : pktSlot s p = some n)
include h hn

theorem tcdCommand_next {sub : Nat} (f : Nat → State → State) (hop : tcOp p.param = sub) : tcdCommand p sub s f = .next (f n s) := by
  rw [tcdCommand, if_pos hop, ctxCommand_next f h hn]

/-- A SET of good fields, of a slot that no running plan names, fills the slot. -/
theorem tcdConfigSet_next (hop : tcOp p.param = 0) (hnamed : codecNamed s n (tcSlot p.param) = false)
    (hgood : badConfig s n p.param = false) : exec (.tcdConfigSet p) s =
      .next (answer (modCtx s n fun c => { c with codec := tput c.codec (tcSlot p.param) p.param }) p 0x78 0 0) := by
  show execTcdConfigSet p s = _
  rw [execTcdConfigSet, tcdCommand_next h hn _ hop]
  simp [hnamed, hgood]

/-- A CLEAR of a slot that no running plan names empties the slot. -/
theorem tcdConfigClear_next (hop : tcOp p.param = 1) (hnamed : codecNamed s n (tcSlot p.param) = false)
    (hrsv : bits p.param 240 6 = 0) (hlow : bits p.param 0 72 = 0) : exec (.tcdConfigClear p) s =
      .next (answer (modCtx s n fun c => { c with codec := tdel c.codec (tcSlot p.param) }) p 0x78 0 0) := by
  show execTcdConfigClear p s = _
  rw [execTcdConfigClear, tcdCommand_next h hn _ hop]
  simp [hnamed, hrsv, zeroBits_of hlow]

/-- A POOL_ADD of a known object adds it to a pool of fewer than four extents. -/
theorem tcdConfigPoolAdd_next {c : Ctx} (hc : ctxOf s n = some c) (hop : tcOp p.param = 2) (hslot : tcSlot p.param = 0)
    (hrsv : bits p.param 240 6 = 0) (hlow : bits p.param 0 72 = 0) (hobj : (objOf s n (tcObj p.param)).isSome)
    (hroom : c.pool.length < 4) : exec (.tcdConfigPoolAdd p) s =
      .next (answer (modCtx s n fun c => { c with pool := c.pool ++ [BitVec.ofNat 32 (tcObj p.param)] }) p 0x78 0 0) := by
  obtain ⟨o, ho⟩ := Option.isSome_iff_exists.mp hobj
  show execTcdConfigPoolAdd p s = _
  rw [execTcdConfigPoolAdd, tcdCommand_next h hn _ hop]
  simp [hslot, hrsv, zeroBits_of hlow, ho, hc, Nat.not_le.mpr hroom]

end

/-- Settles O51: each packet is past its checks, and the context changes in its slots or its pool alone. -/
theorem tileCodecConfigured : Obligations.TileCodecConfigured := by
  intro p s n c h hn hc
  exact ⟨tcdConfigSet_next h hn, tcdConfigClear_next h hn, tcdConfigPoolAdd_next h hn hc⟩

/-! ### The two directions of a unit -/

section
variable (s : State) {k : Nat} (x : Bool) (f : CodecLane → CodecLane) (hk : k < 16)
include hk

theorem laneOf_modLane : laneOf (modLane s k x f) k x = f (laneOf s k x) := by
  simp only [laneOf, modLane, clusterOf_modCluster _ _ _ hk]
  cases x <;> rfl

/-- A change of one direction leaves the other as it is. -/
theorem laneOf_modLane_other : laneOf (modLane s k x f) k (!x) = laneOf s k (!x) := by
  simp only [laneOf, modLane, clusterOf_modCluster _ _ _ hk]
  cases x <;> rfl

end

/-! ### The start of a job (R262, R269, R270) -/

/-- A job that sends no raw row to the pool begins at once. -/
theorem startJob_no_rows {s : State} {k : Nat} {j : CodecJob} {p : BitVec 256} (h : poolRows p j = 0) :
    startJob s k j p = runJob s k j := if_pos h

section
variable (s : State) {k : Nat} (j : CodecJob) (hk : k < 16)
include hk

/-- A job that begins leaves its direction's queue and occupies the direction. -/
theorem laneOf_runJob : laneOf (runJob s k j) k j.expand =
    { laneOf s k j.expand with queue := (laneOf s k j.expand).queue.tail, running := some j, stalled := false } :=
  laneOf_modLane s j.expand _ hk

theorem laneOf_runJob_other : laneOf (runJob s k j) k (!j.expand) = laneOf s k (!j.expand) :=
  laneOf_modLane_other s j.expand _ hk

end

/-- The head of direction `x` of cluster `k`'s unit has left the queue, of which `rest` remains, and its entry is free. -/
def codecDropped (s : State) (k : Nat) (x : Bool) (rest : List CodecJob) : State :=
  freeCodec (modLane s k x fun l => { l with queue := rest, stalled := false }) k

/-- The job of direction `x` of cluster `k`'s unit is over, and its entry is free. -/
def codecFreed (s : State) (k : Nat) (x : Bool) : State := freeCodec (modLane s k x fun l => { l with running := none }) k

section
variable {k : BitVec 4} {x : Bool} {s : State} {j : CodecJob} (hr : ready s = true)
include hr

section
variable {rest : List CodecJob} (hfence : (clusterOf s k.toNat).syncFenced = false) (hfree : (laneOf s k.toNat x).running = none)
  (hq : (laneOf s k.toNat x).queue = j :: rest)
include hfence hfree hq

theorem codecJobStart_waits (hturn : codecTurn s k.toNat x j = false) : exec (.codecJobStart k x) s = .next s := by
  show execCodecJobStart k x s = _
  simp [execCodecJobStart, hr, hfence, hfree, hq, hturn]

section
variable (hstall : (laneOf s k.toNat x).stalled = false) (hturn : codecTurn s k.toNat x j = true)
include hstall hturn

/-- In its turn a job fails where its slot is empty. -/
theorem codecJobStart_no_config (hcfg : codecCfg s j.slot.toNat j.cfg.toNat = none) :
    exec (.codecJobStart k x) s = .next (failJob (codecDropped s k.toNat x rest) j 0x0B) := by
  show execCodecJobStart k x s = _
  simp [execCodecJobStart, hr, hfence, hfree, hq, hturn, hstall, hcfg, codecDropped]

/-- In its turn a job with a configuration fails at a coordinate beyond it, waits for a fence, and starts otherwise. -/
theorem codecJobStart_next {cfg : BitVec 256} (hcfg : codecCfg s j.slot.toNat j.cfg.toNat = some cfg) :
    exec (.codecJobStart k x) s = .next (if coordBad cfg j.coord then failJob (codecDropped s k.toNat x rest) j 1
      else if jobFenced s j cfg then s else startJob s k.toNat (readJob s j cfg) cfg) := by
  show execCodecJobStart k x s = _
  simp [execCodecJobStart, hr, hfence, hfree, hq, hturn, hstall, hcfg, codecDropped]

end
end

/-! ### The completion of a job (R263, R265, R274) -/

/-- With no corrected error of its reference entry to note, a job's end frees its direction, then writes its output, and then signals. -/
theorem codecJobComplete_next (hrun : (laneOf s k.toNat x).running = some j) {cfg : BitVec 256}
    (hcfg : codecCfg s j.slot.toNat j.cfg.toNat = some cfg) {ecc : Ecc} (hecc : ecc ≠ .corrected) :
    let hard := j.bad || ecc == .uncorrectable
    let s0 := codecFreed s k.toNat x
    let s2 := if x then finishDec s0 j cfg hard else finishEnc s0 j cfg hard
    (∀ op, j.for_ = .instr op → exec (.codecJobComplete k x ecc) s = .next (signalSig s2 j.core j.slot.toNat op.sig)) ∧
    (∀ e t, j.for_ = .stream e t → exec (.codecJobComplete k x ecc) s = .next (completeTile s2 j.core.toNat j.slot.toNat e.toNat t)) := by
  refine ⟨fun op hfor => ?instr, fun e t hfor => ?stream⟩ <;> show execCodecJobComplete k x ecc s = _
  all_goals simp only [execCodecJobComplete, hr, hrun, hcfg, if_neg hecc, hfor, codecFreed]

end

/-- Settles O52: the start by the turn, the configuration, the coordinate and the fence, and the completion by whom the job is for. -/
theorem codecJobsRun : Obligations.CodecJobsRun := by
  intro k x s j hr
  refine ⟨fun rest hfence hfree hq hstall => ⟨codecJobStart_waits hr hfence hfree hq, fun hturn =>
    ⟨codecJobStart_no_config hr hfence hfree hq hstall hturn, fun cfg hcfg => ?start⟩⟩,
    fun cfg ecc hrun hcfg hecc => codecJobComplete_next hr hrun hcfg hecc⟩
  have hnext := codecJobStart_next hr hfence hfree hq hstall hturn hcfg
  refine ⟨fun hcoord => ?refused, fun hcoord hfenced => ?fenced, fun hcoord hfenced => ⟨?starts, fun hrows hx => ?runs⟩⟩
  case refused => rwa [if_pos hcoord] at hnext
  case fenced => simpa only [hcoord, hfenced, Bool.false_eq_true, if_true, if_false] using hnext
  case starts => simpa only [hcoord, hfenced, Bool.false_eq_true, if_false] using hnext
  case runs =>
    subst hx
    have hlane := laneOf_runJob s (readJob s j cfg) k.isLt
    refine ⟨_, startJob_no_rows hrows, congrArg CodecLane.running hlane, ?_, laneOf_runJob_other s (readJob s j cfg) k.isLt⟩
    exact (congrArg CodecLane.queue hlane).trans (congrArg List.tail hq)

end Sys2Proof.Machine
end
section
/-! SUPPORT. The jobs of the video pipelines (spec/15 R275 to R290). -/

namespace Sys2Proof.Machine

/-! ### Packets (R278, R288) -/

/-- The job of packet `p` of slot `n`, before its first frame or picture. -/
def newVideoJob (p : Packet) (n : Nat) (encode : Bool) : VideoJob :=
  { pkt := p, slot := BitVec.ofNat 6 n, encode := encode, anyPipe := vdEngine p.param == 4, frame := 0, coded := [], debt := 0, bad := 0,
    worst := 0, full := false }

/-- A packet of two parts whose fields are good and whose engine field gives pipeline `i` enters that pipeline's queue. -/
theorem videoCommand_next {p : Packet} {s : State} {n i op : Nat} {encode : Bool} {bad : Nat → Bool} (h : Accepts p s)
    (hn : pktSlot s p = some n) (hlen : p.extra.length = 2) (hgood : bad n = false)
    (hpick : pickPipe s encode (vdEngine p.param) = some i) : videoCommand p op encode s bad =
      .next (modPipe (draw s) i fun x => { x with queue := x.queue ++ [newVideoJob p n encode] }) := by
  rw [videoCommand, ctxCommand_next _ h hn]
  simp only [hlen, hgood, hpick, ne_eq, not_true_eq_false, Bool.false_eq_true, if_false, newVideoJob]

/-! ### The start of a job (R275, R287) -/

theorem wakePower_pipeOf (s : State) (i : Nat) : pipeOf (wakePower s) i = pipeOf s i := by
  unfold wakePower
  split <;> rfl

theorem wakePower_videoAny (s : State) : (wakePower s).videoAny = s.videoAny := by
  unfold wakePower
  split <;> rfl

/-- Pipeline `k` runs job `j`, and `queue` waits for it. -/
def runVideo (s : State) (k : Nat) (j : VideoJob) (queue : List VideoJob) : State :=
  wakePower (modPipe s k fun x => { x with running := some j, queue := queue, stopAt := none })

theorem pipeOf_runVideo (s : State) {k : Nat} (j : VideoJob) (queue : List VideoJob) (hk : k < 6) :
    pipeOf (runVideo s k j queue) k = { pipeOf s k with running := some j, queue := queue, stopAt := none } :=
  (wakePower_pipeOf _ k).trans (pipeOf_modPipe s k _ hk)

theorem jobOn_running {s : State} {k : Nat} {j : VideoJob} (hr : ready s = true) (hrun : (pipeOf s k).running = some j) :
    jobOn s k = some j := (if_pos hr).trans hrun

section
variable {pipe : BitVec 3} {s : State} {j : VideoJob} (hr : ready s = true) (hk : pipe.toNat < 6)
include hr hk

section
variable (hgo : videoPaused s = false) (hfree : (pipeOf s pipe.toNat).running = none) (husable : pipeUsable s pipe.toNat = true)
include hgo hfree husable

/-- A free pipeline runs a resumed ANY job of its kind first. -/
theorem videoJobStart_resumed (hany : (s.videoAny.find? fun j => j.encode == decide (4 ≤ pipe.toNat) && jobRuns s j) = some j) :
    exec (.videoJobStart pipe) s =
      .next (runVideo { s with videoAny := s.videoAny.erase j } pipe.toNat j (pipeOf s pipe.toNat).queue) := by
  show execVideoJobStart pipe s = _
  simp only [execVideoJobStart, Nat.not_le.mpr hk, hr, hgo, hfree, husable, hany, Bool.not_true, Bool.or_self, Option.isSome_none,
    Bool.false_eq_true, if_false]
  rfl

/-- Without one, it runs the oldest job of its queue whose context runs. -/
theorem videoJobStart_oldest (hany : (s.videoAny.find? fun j => j.encode == decide (4 ≤ pipe.toNat) && jobRuns s j) = none)
    (hold : (pipeOf s pipe.toNat).queue.find? (jobRuns s) = some j) : exec (.videoJobStart pipe) s =
      .next (runVideo s pipe.toNat j ((pipeOf s pipe.toNat).queue.erase j)) := by
  show execVideoJobStart pipe s = _
  simp only [execVideoJobStart, Nat.not_le.mpr hk, hr, hgo, hfree, husable, hany, hold, Bool.not_true, Bool.or_self, Option.isSome_none,
    Bool.false_eq_true, if_false]
  rfl

end

/-! ### Frames and pictures (R285, R288 to R290) -/

section
variable (hrun : (pipeOf s pipe.toNat).running = some j)
include hrun

/-- A frame that is due and not held counts 1 in the job. -/
theorem decodeFrameDone_counts (hdec : j.encode = false) (hdue : j.frame < tzNf (videoRec j.pkt))
    (hheld : frameHeld s j (vdOut j.pkt.param) = false) :
    ∃ s1 e, exec (.decodeFrameDone pipe) s = .next (modPipe s1 pipe.toNat fun x => { x with running := some e }) ∧
      e.frame = j.frame + 1 ∧ e.pkt = j.pkt := by
  have hgoes : ¬(j.encode = true ∨ tzNf (videoRec j.pkt) ≤ j.frame ∨ frameHeld s j (vdOut j.pkt.param) = true) := by
    simp [hdec, hdue, hheld]
  show ∃ s1 e, execDecodeFrameDone pipe s = _ ∧ _
  simp only [execDecodeFrameDone, Nat.not_le.mpr hk, jobOn_running hr hrun, hgoes, if_false]
  exact ⟨_, _, rfl, rfl, rfl⟩

/-- A picture that is due and not held counts 1 in the job, or, where it would pass out_cap, marks the job full and leaves its bytes. -/
theorem encodePictureDone_counts (henc : j.encode = true) (hdue : j.frame < enNf (videoRec j.pkt)) (hroom : j.full = false)
    (hheld : frameHeld s j (veOut j.pkt.param) = false) :
    ∃ s1 e, exec (.encodePictureDone pipe) s = .next (modPipe s1 pipe.toNat fun x => { x with running := some e }) ∧
      e.pkt = j.pkt ∧ ((e.full = true ∧ e.coded = j.coded) ∨ e.frame = j.frame + 1) := by
  have hgoes : ¬((!j.encode) = true ∨ enNf (videoRec j.pkt) ≤ j.frame ∨ j.full = true ∨
      frameHeld s j (veOut j.pkt.param) = true) := by
    simp [henc, hdue, hroom, hheld]
  show ∃ s1 e, execEncodePictureDone pipe s = _ ∧ _
  simp only [execEncodePictureDone, Nat.not_le.mpr hk, jobOn_running hr hrun, hgoes, if_false]
  split
  case isTrue => exact ⟨_, _, rfl, rfl, .inl ⟨rfl, rfl⟩⟩
  case isFalse => exact ⟨_, _, rfl, rfl, .inr rfl⟩

/-! ### The end of a job (R285, R287, R290) -/

/-- A decode job with all its frames leaves with its worst status and its count of bad frames. -/
theorem videoJobComplete_decode (hdec : j.encode = false) (hdone : tzNf (videoRec j.pkt) ≤ j.frame) :
    exec (.videoJobComplete pipe) s = .next (answerD (modPipe s pipe.toNat fun x => { x with running := none, stopAt := none })
      j.pkt 0x70 j.worst.toNat (min 0xFFFF j.bad)) := by
  show execVideoJobComplete pipe s = _
  simp [execVideoJobComplete, Nat.not_le.mpr hk, jobOn_running hr hrun, hdec, hdone, endJob]

/-- An encode job that is full leaves with NO_SPACE and the pictures written; one with all its pictures leaves with OK. -/
theorem videoJobComplete_encode (henc : j.encode = true) (hdone : j.full = true ∨ enNf (videoRec j.pkt) ≤ j.frame) :
    exec (.videoJobComplete pipe) s = .next (answerD (modPipe s pipe.toNat fun x => { x with running := none, stopAt := none })
      j.pkt 0x71 (if j.full then 0x0303 else 0) (if j.full then j.frame else 0)) := by
  have hpast : (j.full || decide (enNf (videoRec j.pkt) ≤ j.frame)) = true := by simpa using hdone
  show execVideoJobComplete pipe s = _
  simp only [execVideoJobComplete, Nat.not_le.mpr hk, jobOn_running hr hrun, henc, hpast, endJob, if_true, if_false, Bool.not_true,
    Bool.false_eq_true]

/-- A job that is marked to stop does so at a picture boundary. -/
theorem pictureBoundary_stops {why : StopKind} (hstop : (pipeOf s pipe.toNat).stopAt = some why) :
    exec (.pictureBoundary pipe) s = .next (stopJob s pipe.toNat j why) := by
  show execPictureBoundary pipe s = _
  simp only [execPictureBoundary, Nat.not_le.mpr hk, jobOn_running hr hrun, hstop, if_false]

end
end

/-- Settles O53: each packet is past its checks, a pipeline that starts a job reads as `pipeOf_runVideo` says, and a job that runs goes
through the branches of its frame, its picture, its end and its stop. -/
theorem videoJobsRun : Obligations.VideoJobsRun := by
  intro p pipe s n i j
  refine ⟨fun h hn hlen => ⟨fun hgood hpick => ?decode, fun hgood hpick => ?encode⟩, fun hr hk =>
    ⟨fun rest hgo hfree husable => ⟨fun hany => ?resumed, fun hany hq hruns => ?oldest⟩, fun hrun =>
      ⟨fun hdec hdue hheld => ?frame, fun henc hdue hroom hheld => ?picture, videoJobComplete_decode hr hk hrun,
        fun henc hroom hdone => ?written, fun henc hfull => ?full, fun _ => pictureBoundary_stops hr hk hrun⟩⟩⟩
  case decode => exact ⟨newVideoJob p n false, videoCommand_next h hn hlen hgood hpick, rfl, rfl, rfl⟩
  case encode => exact ⟨newVideoJob p n true, videoCommand_next h hn hlen hgood hpick, rfl, rfl, rfl⟩
  case resumed =>
    exact ⟨_, videoJobStart_resumed hr hk hgo hfree husable hany, congrArg VideoPipe.running (pipeOf_runVideo _ j _ hk),
      wakePower_videoAny _⟩
  case oldest =>
    have hold : (pipeOf s pipe.toNat).queue.find? (jobRuns s) = some j := by rw [hq, List.find?_cons_of_pos hruns]
    refine ⟨_, videoJobStart_oldest hr hk hgo hfree husable hany hold, congrArg VideoPipe.running (pipeOf_runVideo s j _ hk), ?_⟩
    rw [pipeOf_runVideo s j _ hk, hq, List.erase_cons_head]
  case frame =>
    obtain ⟨s1, e, hnext, hcounts⟩ := decodeFrameDone_counts hr hk hrun hdec hdue hheld
    exact ⟨_, e, hnext, congrArg VideoPipe.running (pipeOf_modPipe s1 _ _ hk), hcounts⟩
  case picture =>
    obtain ⟨s1, e, hnext, hcounts⟩ := encodePictureDone_counts hr hk hrun henc hdue hroom hheld
    exact ⟨_, e, hnext, congrArg VideoPipe.running (pipeOf_modPipe s1 _ _ hk), hcounts⟩
  case written => simpa only [hroom, Bool.false_eq_true, if_false] using videoJobComplete_encode hr hk hrun henc (.inr hdone)
  case full => simpa only [hfull, if_true] using videoJobComplete_encode hr hk hrun henc (.inl hfull)

end Sys2Proof.Machine
end
section
/-! SUPPORT. Flits of the collectives that reach this node (spec/16 R310, R315). -/

namespace Sys2Proof.Machine

/-! ### A run of one flit (MODEL, log entry 79) -/

section
variable {f : Flit} (hlast : f.txn.last = true) (hfirst : f.txn.fidx = 0)
include hlast hfirst

/-- A last flit with index 0 is the whole of its run. -/
theorem runWhole_single : runWhole [f] = true := by
  simp [runWhole, hlast, hfirst]

/-- Where no other run is being joined, such a flit gives its data at once. -/
theorem joinRun_single {r : Reduction} (hnone : r.building = []) : joinRun r f = ({ r with building := [] }, some f.data) := by
  have hdata : runData [f] = f.data := by simp [runData]
  simp [joinRun, hnone, runWhole_single hlast hfirst, hdata]

end

/-! ### RED_PART and GATHER_DATA -/

section
variable {port : BitVec 4} {f : Flit} {s s1 : State} {n : Nat} (hr : ready s = true) (hn : flitSlot s f.txn = some n)
  (hstep : earlyFlit s n f.txn = false) (hfence : collFenced s n (rpColl f.txn) = false) (htake : takeRx s port.toNat f = some s1)
include hr hn hstep hfence htake

section
variable (hop : f.txn.op = 0x80) {t : RedTree} {i : Nat}
  (ht : treeOf s1 n (rpColl f.txn) (rpGroup f.txn) (rpSlice f.txn) = some t) (hi : posOfMod t.mem f.txn.srcMod = some i)
include hop ht hi

/-- A RED_PART with neither data nor count is a marker. -/
theorem redPart_marker (hcount : rpCount f.txn = 0) (hlen : f.txn.len = 0) :
    exec (.redPart port f) s = .next (takeMarker s1 n t f.txn i) := by
  show execRedPart port f s = _
  simp [execRedPart, hop, hr, hn, hstep, hfence, htake, ht, hi, hcount, hlen]

/-- Any other joins its run, and the partial is taken once the run is whole. -/
theorem redPart_partial (hcount : rpCount f.txn ≠ 0) {r : Reduction} {bs : List Byte}
    (hjoin : joinRun (findRed s1 (.fresh n (rpColl f.txn) (rpGroup f.txn) (rpSlice f.txn) t.step false)) f = (r, some bs)) :
    exec (.redPart port f) s = .next (takePartial (putRed s1 r) n t f.txn i bs) := by
  show execRedPart port f s = _
  simp [execRedPart, hop, hr, hn, hstep, hfence, htake, ht, hi, hcount, hjoin]

end

/-- A GATHER_DATA joins its run, and lands once the run is whole. -/
theorem gatherData_lands (hop : f.txn.op = 0x81) {c : Ctx} (hc : ctxOf s n = some c) {r : Reduction} {bs : List Byte}
    (hjoin : joinRun (findRed s1 (.fresh n (rpColl f.txn) (rpGroup f.txn) (rpSlice f.txn) (c.step.setWidth 32) false)) f =
      (r, some bs)) : exec (.gatherData port f) s = .next (takeGather (putRed s1 r) n f.txn bs) := by
  show execGatherData port f s = _
  simp only [execGatherData, hop, hr, hn, hstep, hfence, htake, hc, hjoin, Bool.or_self, Bool.not_true, Bool.false_eq_true, or_self,
    ne_eq, not_true_eq_false, if_false]

end

/-- Settles O33: one flit is the whole of its run (`joinRun_single`), so a partial and a slice are taken with its data. -/
theorem collectiveFlitsLand : Obligations.CollectiveFlitsLand := by
  intro port f s s1 n hr hn hstep hfence htake hlast hfirst
  refine ⟨fun t i hop ht hi => ⟨redPart_marker hr hn hstep hfence htake hop ht hi, fun hcount hnone => ?reduces⟩,
    fun c hop hc hnone => ?gather⟩
  case reduces =>
    exact redPart_partial hr hn hstep hfence htake hop ht hi hcount (joinRun_single hlast hfirst hnone)
  case gather =>
    exact gatherData_lands hr hn hstep hfence htake hop hc (joinRun_single hlast hfirst hnone)

end Sys2Proof.Machine
end
section
/-! SUPPORT. Votes, and members that are lost or leave (spec/16 R313; spec/18 R344 to R346, R356). -/

namespace Sys2Proof.Machine

/-! ### VOTE (spec/16 R313, spec/18 R344) -/

section
variable {s : State} {v : VoteMsg} {n : Nat} {c : Ctx} (hr : ready s = true) (hn : slotOfIdent s v.ctx = some n)
  (hc : ctxOf s n = some c)
include hr hn hc

section
variable {m : Members} (hm : tget c.lists v.list.toNat = some m)
include hm

/-- An ABORT goes on in its direction through the tree, and ends the step here. -/
theorem vote_aborts (habort : v.abort = true) :
    exec (.vote v) s = .next (remoteAbort (if v.down then sendDown s m v else sendUp s m v) n) := by
  show execVote v s = _
  simp only [execVote, hr, hn, hc, hm, habort, if_true]

/-- The outcome from above goes on down and closes the step, after a fault of its plan that is due has settled (DEDUCED, log entry
135). -/
theorem vote_outcome (hgoes : v.abort = false) (hdown : v.down = true) {p : Packet} (hwait : c.commit = some (p, .waitOutcome)) :
    exec (.vote v) s = .next (if faultDue s n then settleFault (sendDown s m v) n else stepOutcome (sendDown s m v) n v) := by
  show execVote v s = _
  simp only [execVote, hr, hn, hc, hm, hgoes, hdown, hwait, if_true, Bool.false_eq_true, if_false]

end

/-- A vote from below takes the place of its sender's earlier one, and the joined vote advances. -/
theorem vote_joins (hgoes : v.abort = false) (hup : v.down = false) : exec (.vote v) s = .next (voteAdvance (modCtx s n fun c =>
    { c with votes := c.votes.filter (fun x => !(x.list == v.list && x.fromPos == v.fromPos)) ++ [v] }) n) := by
  show execVote v s = _
  simp only [execVote, hr, hn, hc, hgoes, hup, Bool.false_eq_true, if_false]

end

/-! ### MEMBER_LOST (spec/18 R345, R346) -/

/-- Every list of a context excludes module `x` already, wherever it names it. -/
def lossKnown (c : Ctx) (x : BitVec 14) : Bool := c.lists.all fun e =>
  (numsBelow e.2.now.length fun i => e.2.now[i]? == some x && !e.2.excluded.contains i).isEmpty

theorem mem_numsBelow {n i : Nat} {p : Nat → Bool} : i ∈ numsBelow n p ↔ i < n ∧ p i = true := by
  simp [numsBelow]

theorem lossKnown_iff {c : Ctx} {x : BitVec 14} :
    lossKnown c x = true ↔ ∀ e ∈ c.lists, ∀ i : Nat, e.2.now[i]? = some x → i ∈ e.2.excluded := by
  simp only [lossKnown, List.all_eq_true, List.isEmpty_iff, List.eq_nil_iff_forall_not_mem, mem_numsBelow]
  refine forall₂_congr fun e _ => forall_congr' fun i => ⟨fun h hi => ?_, fun h hin => ?_⟩
  · by_contra hout
    obtain ⟨hlt, -⟩ := List.getElem?_eq_some_iff.mp hi
    exact h ⟨hlt, by simp [hi, hout]⟩
  · obtain ⟨hat, hout⟩ : e.2.now[i]? = some x ∧ i ∉ e.2.excluded := by simpa using hin.2
    exact hout (h hat)

section
variable {s : State} {ctx : BitVec 16} {x : BitVec 14} {n : Nat} (hr : ready s = true) (hn : slotOfIdent s ctx = some n)
include hr hn

/-- A module that learns of its own loss ends its plan with PEER_LOST, and notes the loss in each list that names it. -/
theorem memberLost_self (hself : s.modId = some x) : exec (.memberLost ctx x) s = .next (endPlan (modCtx s n fun c =>
    { c with lists := c.lists.map fun e => (e.1, { e.2 with selfLost := e.2.selfLost || e.2.now.contains x }) }) n 0x0402 0 0) := by
  show execMemberLost ctx x s = _
  simp only [execMemberLost, hr, hn, hself, if_true]

/-- One that learns of another's excludes it and re-forms its trees, once. -/
theorem memberLost_other (hother : s.modId ≠ some x) {c : Ctx} (hc : ctxOf s n = some c) :
    exec (.memberLost ctx x) s = .next (if lossKnown c x then s else reform (excludeMember s n x) n x) := by
  show execMemberLost ctx x s = _
  simp only [execMemberLost, hr, hn, if_neg hother, hc, lossKnown]
  exact (apply_ite Host.Outcome.next _ _ _).symm

end

/-! ### LEAVE (spec/18 R356) -/

/-- A list with module `x` among the positions that leave. -/
def noteLeaving (x : BitVec 14) (m : Members) : Members :=
  { m with leaving := m.leaving ++ numsBelow m.now.length fun i => m.now[i]? == some x && !m.leaving.contains i }

theorem mem_leaving_noteLeaving {x : BitVec 14} {m : Members} {i : Nat} (h : m.now[i]? = some x) :
    i ∈ (noteLeaving x m).leaving := by
  obtain ⟨hlt, -⟩ := List.getElem?_eq_some_iff.mp h
  by_cases hleft : i ∈ m.leaving
  · exact List.mem_append_left _ hleft
  · exact List.mem_append_right _ (mem_numsBelow.mpr ⟨hlt, by simp [h, hleft]⟩)

/-- The lists note who leaves, and change in nothing else. -/
theorem leave_next {s : State} {ctx : BitVec 16} {n : Nat} (hn : slotOfIdent s ctx = some n) (x : BitVec 14) :
    exec (.leave ctx x) s = .next (modCtx s n fun c => { c with lists := c.lists.map fun e => (e.1, noteLeaving x e.2) }) := by
  show execLeave ctx x s = _
  simp only [execLeave, hn, noteLeaving]

/-- Settles O32: a vote by its kind and its direction, a loss by whose it is and whether the lists know it, and a LEAVE by what it notes
in each list. -/
theorem votesAndMembersAct : Obligations.VotesAndMembersAct := by
  refine ⟨fun s v n c m hr hn hc hm => ⟨vote_aborts hr hn hc hm, vote_joins hr hn hc, ?outcome⟩,
    fun s ctx x n c hn hc => ⟨fun hr => memberLost_self hr hn, fun hr hother => ⟨?news, ?known⟩, ?leaves⟩⟩
  case outcome => exact fun _ hgoes hdown => vote_outcome hr hn hc hm hgoes hdown
  case news =>
    rintro ⟨e, he, i, hi, hout⟩
    rw [memberLost_other hr hn hother hc, if_neg fun h => hout (lossKnown_iff.mp h e he i hi)]
  case known =>
    intro hall
    rw [memberLost_other hr hn hother hc, if_pos (lossKnown_iff.mpr hall)]
  case leaves =>
    refine ⟨_, _, leave_next hn x, by rw [ctxOf_modCtx, hc]; rfl, List.length_map _, fun j e hj => ?_⟩
    exact ⟨noteLeaving x e.2, by simp [hj], rfl, rfl, fun i hi => mem_leaving_noteLeaving hi⟩

end Sys2Proof.Machine
end
section
/-! SUPPORT. What the sending side of the fabric changes, and what receipts leave unchanged (spec/16 R294, R295, R300). -/

namespace Sys2Proof.Machine

/-! ### Sending -/

/-- `t` is `s` after sending: its ports and what has left the module may differ, and nothing else. -/
def SentFrom (s t : State) : Prop := ∃ ports outbox, t = { s with ports := ports, outbox := outbox }

theorem SentFrom.refl (s : State) : SentFrom s s := ⟨_, _, rfl⟩

theorem SentFrom.trans {s t u : State} (h : SentFrom s t) (k : SentFrom t u) : SentFrom s u := by
  obtain ⟨_, _, rfl⟩ := h
  obtain ⟨_, _, rfl⟩ := k
  exact ⟨_, _, rfl⟩

theorem SentFrom.foldl {α : Type} {f : State → α → State} (hf : ∀ s a, SentFrom s (f s a)) (l : List α) (s : State) :
    SentFrom s (l.foldl f s) := by
  induction l generalizing s with
  | nil => exact .refl s
  | cons a l ih => exact (hf s a).trans (ih _)

theorem SentFrom.times {f : State → State} (hf : ∀ s, SentFrom s (f s)) (k : Nat) (s : State) : SentFrom s (times k f s) := by
  induction k generalizing s with
  | zero => exact .refl s
  | succ k ih => exact (hf s).trans (ih _)

theorem sentFrom_modPort (s : State) (n : Nat) (f : Port → Port) : SentFrom s (modPort s n f) := ⟨_, _, rfl⟩

theorem sentFrom_sendOne (s : State) (n : Nat) : SentFrom s (sendOne s n) := by
  unfold sendOne
  dsimp only
  split
  · exact .refl s
  · split
    · exact .refl s
    · exact ⟨_, _, rfl⟩

theorem sentFrom_pump (s : State) (n : Nat) : SentFrom s (pump s n) := SentFrom.times (fun s => sentFrom_sendOne s n) _ s

theorem sentFrom_enqueue (s : State) (n t : Nat) (f : Flit) : SentFrom s (enqueue s n t f) :=
  (sentFrom_modPort s n _).trans (sentFrom_pump _ n)

theorem sentFrom_bounce (s : State) (t : Nat) (f : Flit) (code : Nat) : SentFrom s (bounce s t f code) := by
  unfold bounce
  dsimp only
  split
  · split
    · exact sentFrom_modPort s t _
    · split
      · exact sentFrom_enqueue s _ _ _
      · exact .refl s
  · exact .refl s

theorem sentFrom_sendFlit (s : State) (t : Nat) (f : Flit) : SentFrom s (sendFlit s t f) := by
  unfold sendFlit routeOut
  split
  · exact sentFrom_enqueue s _ _ _
  · exact sentFrom_bounce s _ _ _

/-- A response changes nothing but what is sent. -/
theorem sentFrom_reply (s : State) (t : Nat) (f : Flit) (op status : Nat) (arg : BitVec 64) (data : List Byte) :
    SentFrom s (reply s t f op status arg data) := SentFrom.foldl (fun s _ => sentFrom_sendFlit s _ _) _ s

/-! ### Receipts leave the ports as they are -/

@[simp] theorem logHealth_ports (s : State) (cls source code ctx loc : Nat) : (logHealth s cls source code ctx loc).ports = s.ports := by
  unfold logHealth
  split <;> rfl

@[simp] theorem lpWriteLine_ports (s : State) (n line a : Nat) (bs : List Byte) : (lpWriteLine s n line a bs).ports = s.ports := by
  unfold lpWriteLine
  dsimp only
  split
  · exact logHealth_ports _ _ _ _ _ _
  · rfl

@[simp] theorem lpWrite_ports (s : State) (n a : Nat) (bs : List Byte) : (lpWrite s n a bs).ports = s.ports :=
  foldl_keeps State.ports (fun s _ => lpWriteLine_ports s _ _ _ _) _ _

@[simp] theorem bareLine_ports (s : State) (l : Nat) : (bareLine s l).ports = s.ports := by
  unfold bareLine
  split <;> rfl

@[simp] theorem hostWrite_ports (s : State) (a : Nat) (bs : List Byte) : (hostWrite s a bs).ports = s.ports :=
  foldl_keeps State.ports bareLine_ports _ s

theorem ringWrite_ports {s t : State} {n off : Nat} {base : BitVec 64} {bs : List Byte} (h : ringWrite s n base off bs = some t) :
    t.ports = s.ports := by
  unfold ringWrite at h
  dsimp only at h
  split at h
  · split at h
    · cases h
      exact lpWrite_ports _ _ _ _
    · cases h
  · split at h
    · cases h
    · cases h
      exact hostWrite_ports _ _ _

@[simp] theorem sendVector_ports (s : State) (v : Nat) : (sendVector s v).ports = s.ports := by
  unfold sendVector
  dsimp only
  split <;> rfl

@[simp] theorem deadLetter_ports (s : State) (v : Violation) : (deadLetter s v).ports = s.ports := by
  simp [deadLetter, setErr]

@[simp] theorem writeReceipt_ports (s : State) (n : Nat) (raw : BitVec 256) (notify : Bool) :
    (writeReceipt s n raw notify).ports = s.ports := by
  unfold writeReceipt
  dsimp only
  split
  case h_1 t hwrite =>
    have hports : t.ports = s.ports := (ringWrite_ports hwrite).trans rfl
    split <;> simp [hports]
  case h_2 => split <;> simp [countViolation]

@[simp] theorem eventReceipt_ports (s : State) (n status detail : Nat) (tag : Word) :
    (eventReceipt s n status detail tag).ports = s.ports := by
  unfold eventReceipt pushReceipt
  dsimp only
  split
  · split <;> simp
  · rfl

end Sys2Proof.Machine
end
section
/-! SUPPORT. Ports that come up and go down, and flits that they receive (spec/16 R292 to R295, R316). -/

namespace Sys2Proof.Machine

/-! ### Ports that come up and go down (R292, R316) -/

section
variable {s : State} {k : BitVec 4}

section
variable (htrain : (portOf s k.toNat).state = .training)
include htrain

theorem portTrain_up : exec (.portTrain k) s = .next (upPort s k.toNat) := by
  show execPortTrain k s = _
  rw [execPortTrain, if_pos htrain]

theorem trainTimeout_down : exec (.trainTimeout k) s = .next (downPort s k.toNat .trainFail) := by
  show execTrainTimeout k s = _
  rw [execTrainTimeout, if_pos htrain]

end

section
variable (hup : (portOf s k.toNat).state = .up)
include hup

theorem linkDownTimeout_silence : exec (.linkDownTimeout k true) s = .next (downPort s k.toNat .silence) := by
  show execLinkDownTimeout k true s = _
  simp [execLinkDownTimeout, hup]

theorem linkDownTimeout_retry (hretry : (portOf s k.toNat).retry ≠ []) :
    exec (.linkDownTimeout k false) s = .next (downPort s k.toNat .retryBound) := by
  show execLinkDownTimeout k false s = _
  simp [execLinkDownTimeout, hup, hretry]

theorem laneLockLoss_down (lane : BitVec 2) : exec (.laneLockLoss k lane) s =
    .next (downPort (modPort s k.toNat fun x => { x with lanes := putBits x.lanes lane.toNat 1 0 }) k.toNat .laneLock) := by
  show execLaneLockLoss k lane s = _
  simp [execLaneLockLoss, hup]

theorem replayTimeout_replays : exec (.replayTimeout k) s = .next (replay s k.toNat) := by
  show execReplayTimeout k s = _
  rw [execReplayTimeout, if_pos hup]

theorem replayReq_replays (l : LinkHdr) : exec (.replayReq k l) s =
    .next (pump (replay (modPort s k.toNat fun x => takeLink x l) k.toNat) k.toNat) := by
  show execReplayReq k l s = _
  simp [execReplayReq, hup]

end
end

/-- A port as it goes down: its cause shows, and its buffers and credits are gone. -/
def portDowned (cause : PortCause) (x : Port) : Port :=
  { x with state := .down, cause := cause, retry := [], txQ := .replicate 4 [], credits := .replicate 4 0, owed := .replicate 4 0 }

/-- A port with nothing to send goes down without a flit to route or a source to tell, so no other port changes. -/
theorem downPort_ports {s : State} {n : Nat} (cause : PortCause) (hq : (portOf s n).txQ = .replicate 4 [])
    (hretry : (portOf s n).retry = []) : (downPort s n cause).ports = (modPort s n (portDowned cause)).ports := by
  have hflits : ((Vector.replicate 4 [] : Vector (List (BitVec 4 × Flit)) 4).toList.flatMap id) = [] := rfl
  simp only [downPort, hq, hretry, hflits, eventReceipt_ports, risk_ports, logHealth_ports]
  rfl

/-- Settles O35: each event of a port is the branch that its state selects, and of a port with nothing to send only the port itself
changes (`downPort_ports`). -/
theorem portsGoUpAndDown : Obligations.PortsGoUpAndDown := by
  refine ⟨fun s k lane => ⟨fun htrain => ⟨⟨_, portTrain_up htrain, ?trained⟩, trainTimeout_down htrain⟩, fun hup =>
    ⟨linkDownTimeout_silence hup, linkDownTimeout_retry hup, laneLockLoss_down hup lane, replayTimeout_replays hup,
      replayReq_replays hup⟩⟩, fun s k cause hq hretry => ?downed⟩
  case trained =>
    rw [upPort, portOf_modPort _ _ _ k.isLt]
    exact ⟨rfl, rfl, rfl, rfl⟩
  case downed =>
    have hports := downPort_ports cause hq hretry
    have hport : portOf (downPort s k.toNat cause) k.toNat = portDowned cause (portOf s k.toNat) := by
      rw [portOf, hports]
      exact portOf_modPort s _ _ k.isLt
    dsimp only
    rw [hport]
    refine ⟨rfl, rfl, rfl, rfl, rfl, fun q hne => ?_⟩
    rw [portOf, hports]
    exact portOf_modPort_ne s _ _ _ hne

/-! ### FLIT_RECEIVE (R293 to R295) -/

/-- A receive with no codeword to correct changes nothing at a port that has met no uncorrectable one. -/
theorem portOf_countFec_clean {s : State} {k : BitVec 4} (hgood : (portOf s k.toNat).uncorrAt = []) :
    portOf (countFec s k.toNat ⟨0, 0⟩) k.toNat = portOf s k.toNat := by
  rw [countFec, if_pos rfl, portOf_modPort _ _ _ k.isLt]
  generalize portOf s k.toNat = p at hgood
  cases p
  cases hgood
  simp

section
variable {s : State} {k : BitVec 4} {f : Flit} (hup : (portOf s k.toNat).state = .up) (hgood : (portOf s k.toNat).uncorrAt = [])
include hup hgood

/-- A clean receive takes a flit whose CRC is right, and counts and discards any other. -/
theorem flitReceive_clean : exec (.flitReceive k f ⟨0, 0⟩) s = .next (if f.crc = crc32c (flitBytes f)
    then takeFlit (countFec s k.toNat ⟨0, 0⟩) k.toNat f
    else discardFlit (modPort (countFec s k.toNat ⟨0, 0⟩) k.toNat fun p => { p with crcFail := p.crcFail + 1 }) k.toNat) := by
  have hfew : ¬ 16 < (portOf (countFec s k.toNat ⟨0, 0⟩) k.toNat).uncorrAt.length := by
    simp [portOf_countFec_clean hgood, hgood]
  show execFlitReceive k f ⟨0, 0⟩ s = _
  simp only [execFlitReceive, hup, hfew, not_true_eq_false, if_false, ne_eq, false_or, ite_not]
  exact (apply_ite Host.Outcome.next _ _ _).symm

end

/-- A discarded flit leaves its port discarding, and every other field of it as it was. -/
theorem portOf_discardFlit (s : State) (k : BitVec 4) :
    portOf (discardFlit s k.toNat) k.toNat = { portOf s k.toNat with discarding := true } := by
  unfold discardFlit
  split
  case isTrue hdisc => exact congrArg (fun b => { portOf s k.toNat with discarding := b }) hdisc
  case isFalse => exact portOf_modPort s _ (fun p => { p with discarding := true }) k.isLt

/-- Two changes of one port are one change. -/
theorem modPort_modPort (s : State) {n : Nat} (f g : Port → Port) (h : n < 16) :
    modPort (modPort s n f) n g = modPort s n fun p => g (f p) := by
  have hport : portOf (modPort s n f) n = f (portOf s n) := portOf_modPort s n f h
  rw [modPort, hport]
  simp [modPort, vset]

/-- The port that takes flit `f` in sequence: its link header counts, and its sequence number is the last good one. -/
def inSequence (f : Flit) (p : Port) : Port := { takeLink p f.link with rxSeq := p.rxSeq + 1, rxGood := true, discarding := false }

/-- The port that keeps flit `f` for a unit here, in the buffer of the flit's channel. -/
def buffered (f : Flit) (p : Port) : Port :=
  let v := (vcOf f.txn.op).toNat
  { p with rxBuf := vset p.rxBuf v (vget p.rxBuf v [] ++ [f]) }

/-- A TXN flit with the next sequence number is delivered, and the port answers it. -/
theorem takeFlit_inSequence {s : State} {k : BitVec 4} {f : Flit} (hkind : f.link.kind = 0)
    (hseq : f.link.seq = (portOf s k.toNat).rxSeq) :
    takeFlit s k.toNat f = respond (deliverFlit (modPort s k.toNat (inSequence f)) k.toNat f) k.toNat := by
  have hlink : portOf (modPort s k.toNat fun p => takeLink p f.link) k.toNat = takeLink (portOf s k.toNat) f.link :=
    portOf_modPort s _ _ k.isLt
  have hnext : f.link.seq = (takeLink (portOf s k.toNat) f.link).rxSeq := hseq
  simp only [takeFlit, hlink, if_pos hkind, if_pos hnext, modPort_modPort _ _ _ k.isLt]
  rfl

/-- A flit to this module for one of its units enters the buffer of its channel. -/
theorem portOf_deliverFlit {s : State} {k : BitVec 4} {f : Flit} (hmod : s.modId = some f.txn.dstMod)
    (hvalid : reservedFlit f = false) (hvc : vcOf f.txn.op ≠ 3) :
    portOf (deliverFlit s k.toNat f) k.toNat = buffered f (portOf s k.toNat) := by
  have hunit : ¬(f.txn.op = 0xC1 ∨ f.txn.op = 0xC2) := by
    rintro (h | h) <;> exact hvc (by rw [h]; rfl)
  simp only [deliverFlit, freeEntry, hmod, hvalid, hunit, Option.isNone_some, if_true, if_false, Bool.false_eq_true]
  exact portOf_modPort s _ (buffered f) k.isLt

/-- Settles O36: the port changes by `inSequence` and `buffered`, or counts and discards. -/
theorem flitsAreReceived : Obligations.FlitsAreReceived := by
  intro s k f hup hgood
  have hnext := flitReceive_clean (f := f) hup hgood
  have hport := portOf_countFec_clean hgood
  refine ⟨fun hcrc => ⟨hnext.trans (by rw [if_pos hcrc]), fun hkind hseq hmod hvalid hvc => ?taken⟩,
    fun hcrc => ⟨_, hnext.trans (by rw [if_neg hcrc]), ?discarded⟩⟩
  case taken =>
    have hmod' : (modPort (countFec s k.toNat ⟨0, 0⟩) k.toNat (inSequence f)).modId = some f.txn.dstMod := hmod
    have hkept := portOf_deliverFlit (k := k) hmod' hvalid hvc
    rw [portOf_modPort _ _ _ k.isLt, hport] at hkept
    refine ⟨_, takeFlit_inSequence hkind (by rw [hport]; exact hseq), ?_, ?_⟩
    · rw [hkept]
      exact vget_vset_eq _ _ _ _ (vcOf f.txn.op).isLt
    · rw [hkept]
      rfl
  case discarded =>
    rw [portOf_discardFlit, portOf_modPort _ _ _ k.isLt, hport]
    exact ⟨rfl, rfl, rfl⟩

end Sys2Proof.Machine
end
section
/-! SUPPORT. READs at their destination (spec/16 R303), and why the statement of the requests fails at a corrected error (spec/11
R218). -/

namespace Sys2Proof.Machine

/-! ### The answer to a READ of a home -/

/-- A home that is not lost and reads well gives its bytes. -/
theorem readHome_good {s : State} {p n : Nat} {f : Flit} {o : Obj} {off len : Nat} (k : List Byte → State) (hhere : o.state ≠ .lost)
    (hgood : (readObj s n o off len).bad = []) : readHome s p n f o off len k = k (readObj s n o off len).bytes := by
  simp [readHome, hhere, hgood]

/-- The model reads the home after it has noted the corrected words, but answers from the state before it: the notes are lost. -/
theorem fabricRead_answers_before_notes {port : BitVec 4} {f : Flit} {s s1 : State} {n : Nat} {o : Obj} {soft : List Nat}
    (hr : ready s = true) (htake : takeRx s port.toNat f = some s1) (hn : flitSlot s1 f.txn = some n)
    (hmod : s1.modId = some (gaMod f.txn.addr)) (hop : f.txn.op = 0x01) (hspace : gaSpace f.txn.addr ≠ 3) (hlen : f.txn.arg ≠ 0)
    (hmax : f.txn.arg.toNat ≤ 65536)
    (hhome : homeAt s1 n (gaSpace f.txn.addr) (gaOff f.txn.addr) f.txn.arg.toNat false = some o) (hhere : o.state ≠ .lost)
    (hgood : (readObj (noteSofts s1 n o soft) n o (gaOff f.txn.addr - o.off) f.txn.arg.toNat).bad = []) :
    exec (.fabricRead port ⟨f, soft⟩) s = .next (reply s1 port.toNat f 0x40 0 0
      (readObj (noteSofts s1 n o soft) n o (gaOff f.txn.addr - o.off) f.txn.arg.toNat).bytes) := by
  have hrange : ¬(f.txn.arg.toNat = 0 ∨ 65536 < f.txn.arg.toNat) := by
    rintro (hzero | hover)
    · exact hlen (BitVec.eq_of_toNat_eq hzero)
    · omega
  show execFabricRead port ⟨f, soft⟩ s = _
  rw [execFabricRead, serve_next _ hop hr htake]
  simp only [onTarget_next _ hn hmod, if_neg hspace, if_neg hrange, hhome]
  rw [readHome_good _ hhere hgood]

/-! ### Risk events -/

/-- An answer records no risk event. -/
theorem reply_riskEvents (s : State) (t : Nat) (f : Flit) (op status : Nat) (arg : BitVec 64) (data : List Byte) :
    (reply s t f op status arg data).riskEvents = s.riskEvents := by
  obtain ⟨_, _, hsent⟩ := sentFrom_reply s t f op status arg data
  rw [hsent]

theorem logHealth_riskEvents (s : State) (cls source code ctx loc : Nat) :
    (logHealth s cls source code ctx loc).riskEvents = s.riskEvents := by
  unfold logHealth
  split <;> rfl

/-- A corrected word of a home on this module records one (spec/18 Table 18.7). -/
theorem noteSofts_riskEvents (s : State) (n i : Nat) {o : Obj} (hhome : o.isBind = false) :
    (noteSofts s n o [i]).riskEvents.length = s.riskEvents.length + 1 := by
  simp [noteSofts, hhome, noteSoft, risk, logHealth_riskEvents]

/-! ### A READ that meets a corrected word -/

/-- A READ, by module 2 for context 7, of the first 16 bytes of module 1's shared store. -/
def firstWordsRead : Flit :=
  { link := LinkHdr.zero, data := [], crc := 0,
    txn := { TxnHdr.zero with op := 0x01, srcMod := 2, dstMod := 1, ctx := 7, last := true, addr := globalAddr 1 1 0, arg := 16 } }

/-- Module 1 with that READ in a receive buffer, and context 7 in slot 0 with a home in the shared store. -/
def readArrives : State :=
  modPort (modCtx { fillSlot State.reset 0 7 false with life := { Life.init with phase := .ready }, modId := some 1 } 0
    fun c => { c with objs := [(1, sharedHome)] }) 0 fun x => { x with rxBuf := vset x.rxBuf 0 [firstWordsRead] }

/-- The module once the READ has left the buffer. -/
def readTaken : State := (takeRx readArrives 0 firstWordsRead).getD readArrives

theorem takeRx_readArrives : takeRx readArrives 0 firstWordsRead = some readTaken := by
  have htaken : (takeRx readArrives 0 firstWordsRead).isSome = true := by decide +kernel
  obtain ⟨t, ht⟩ := Option.isSome_iff_exists.mp htaken
  rw [readTaken, ht]
  rfl

/-- The READ names a home that this module may serve, and word 0 of which reads well after a correction. -/
theorem readTaken_serves :
    let h := firstWordsRead.txn
    let s := readTaken
    ready readArrives = true ∧ flitSlot s h = some 0 ∧ s.modId = some (gaMod h.addr) ∧ h.op = 0x01 ∧ gaSpace h.addr ≠ 3 ∧
      h.arg ≠ 0 ∧ h.arg.toNat ≤ 65536 ∧ homeAt s 0 (gaSpace h.addr) (gaOff h.addr) h.arg.toNat false = some sharedHome ∧
      (readObj (noteSofts s 0 sharedHome [0]) 0 sharedHome (gaOff h.addr - sharedHome.off) h.arg.toNat).bad = [] := by
  decide +kernel

/-- Refutes O37: of a READ of a home the statement says that the corrected words are noted in the state that the answer leaves, as R218
asks. The model answers from the state before the notes, so from `readArrives`, with one corrected word, no risk event is recorded. -/
theorem not_requestsAreServed : ¬ Obligations.RequestsAreServed := by
  rintro ⟨hserved, -⟩
  obtain ⟨hr, hn, hmod, hop, hspace, hlen, hmax, hhome, hgood⟩ := readTaken_serves
  have hhere : sharedHome.state ≠ .lost := by decide
  obtain ⟨hread, -⟩ := hserved 0 firstWordsRead readArrives readTaken 0 hr takeRx_readArrives hn hmod
  have hclaim := hread sharedHome _ [0] hop hspace hlen hmax hhome hhere rfl hgood
  have hmodel := fabricRead_answers_before_notes (port := 0) (soft := [0]) hr takeRx_readArrives hn hmod hop hspace hlen hmax hhome
    hhere hgood
  have hevents : readTaken.riskEvents = (noteSofts readTaken 0 sharedHome [0]).riskEvents := by
    have hsame := congrArg State.riskEvents (Host.Outcome.next.inj (hmodel.symm.trans hclaim))
    simpa only [reply_riskEvents] using hsame
  have hmore := noteSofts_riskEvents readTaken 0 0 (o := sharedHome) rfl
  rw [← hevents] at hmore
  omega

end Sys2Proof.Machine
end
section
/-! SUPPORT. Transactions at their source: responses and re-issues (spec/16 R304, R305). -/

namespace Sys2Proof.Machine

/-! ### Responses -/

section
variable {port : BitVec 4} {f : Flit} {s s1 : State} {t : Txn} (hr : ready s = true) (htake : takeRx s port.toNat f = some s1)
  (ht : txnFor s1 f.txn = some t)
include hr htake ht

section
variable (hop : f.txn.op = 0x40) (hread : txnOp t = 0x01)
include hop hread

/-- READ_DATA that makes its run whole ends the READ and delivers the data. -/
theorem readData_whole (hwhole : runWhole ((t.reply.filter fun g => g.txn.fidx != f.txn.fidx) ++ [f]) = true) :
    exec (.readData port f) s = .next (takeData (dropTxn s1 t) t
      (runData ((t.reply.filter fun g => g.txn.fidx != f.txn.fidx) ++ [f]))) := by
  show execReadData port f s = _
  rw [execReadData, serve_next _ hop hr htake]
  simp only [ht, hread, hwhole, ne_eq, not_true_eq_false, if_false, if_true]

/-- Other READ_DATA is kept until its run is whole. -/
theorem readData_kept (hpart : runWhole ((t.reply.filter fun g => g.txn.fidx != f.txn.fidx) ++ [f]) = false) :
    exec (.readData port f) s = .next { s1 with txns := s1.txns.map fun x =>
      if x = t then { x with reply := (t.reply.filter fun g => g.txn.fidx != f.txn.fidx) ++ [f] } else x } := by
  show execReadData port f s = _
  rw [execReadData, serve_next _ hop hr htake]
  simp only [ht, hread, hpart, ne_eq, not_true_eq_false, if_false, Bool.false_eq_true]

end

section
variable (hop : f.txn.op = 0x41) (hother : txnOp t ≠ 0x01)
include hop hother

/-- COMPLETE ends a transaction for which no instruction waits. -/
theorem complete_ends (huse : ∀ c id, t.use ≠ .signal c (some id)) : exec (.complete port f) s = .next (dropTxn s1 t) := by
  show execComplete port f s = _
  rw [execComplete, serve_next _ hop hr htake]
  simp only [ht, if_neg hother]

/-- COMPLETE of a signal lets its instruction complete. -/
theorem complete_signal {c : BitVec 8} {id : Nat} (huse : t.use = .signal c (some id)) :
    exec (.complete port f) s = .next (endRemoteOp (dropTxn s1 t) c.toNat id t.slot.toNat true) := by
  show execComplete port f s = _
  rw [execComplete, serve_next _ hop hr htake]
  simp only [ht, if_neg hother, huse]

end

/-- An ERROR from the path tells of a loss, and any other ends the plan with DATA_ERROR (Table 16.6; MODEL, log entry 96). -/
theorem fabricError_next (hop : f.txn.op = 0x42) : exec (.fabricError port f) s =
    .next (if f.txn.status = 4 ∨ f.txn.status = 5 then loseTxn s1 t else endPlan (failTxn s1 t) t.slot.toNat 0x0500 0 0) := by
  show execFabricError port f s = _
  rw [execFabricError, serve_next _ hop hr htake]
  simp only [ht]

end

/-! ### Re-issues (R305) -/

/-- The timeout of the only transaction re-issues it. -/
theorem txnTimeout_only {s : State} {t : Txn} (hr : ready s = true) (honly : s.txns = [t]) :
    exec (.txnTimeout t.dst t.txn) s = .next (reissue s t) := by
  show execTxnTimeout t.dst t.txn s = _
  simp [execTxnTimeout, hr, honly]

/-- A PATH_DOWN that names the only transaction at its epoch re-issues it. -/
theorem pathDown_only {port : BitVec 4} {f : Flit} {s s1 : State} {t : Txn} (hr : ready s = true) (hop : f.txn.op = 0xC0)
    (htake : takeRx s port.toNat f = some s1) (honly : s1.txns = [t]) (hdst : gaMod f.txn.addr = t.dst) (htxn : f.txn.txn = t.txn)
    (hepoch : f.txn.epoch = t.epoch) : exec (.pathDown port f) s = .next (reissue s1 t) := by
  show execPathDown port f s = _
  rw [execPathDown, serve_next _ hop hr htake]
  simp [honly, hdst, htxn, hepoch]

/-- After two re-issues the transaction's destination is lost. -/
theorem reissue_loses {s : State} {t : Txn} (hspent : 2 ≤ t.reissues) : reissue s t = loseTxn s t := if_pos hspent

/-- Before that the only transaction goes out again with the next epoch, and awaits its whole answer anew. -/
theorem reissue_sends {s : State} {t : Txn} (honly : s.txns = [t]) (hleft : t.reissues < 2) :
    reissue s t = t.flits.foldl (fun s f => sendFlit s t.port.toNat { f with txn := { f.txn with epoch := t.epoch + 1 } })
      { s with txns := [{ t with epoch := t.epoch + 1, reissues := t.reissues + 1, reply := [] }] } := by
  simp [reissue, Nat.not_le.mpr hleft, honly]

/-- Settles O38: a response by its operation and by whether its run is whole, and a re-issue by how many came before it. -/
theorem transactionsEndOrRepeat : Obligations.TransactionsEndOrRepeat := by
  refine ⟨fun port f s s1 t hr htake ht => ⟨?whole, readData_kept hr htake ht, ?complete, ?error⟩,
    fun s t hr hspent honly => ?lost,
    fun s t hr hleft => ⟨fun honly => ?timeout, fun port f s1 hop htake honly hdst htxn hepoch => ?down⟩⟩
  case whole =>
    intro hop hread hlast hfirst hnone
    have hnext := readData_whole hr htake ht hop hread (by rw [hnone]; exact runWhole_single hlast hfirst)
    simpa [hnone, runData] using hnext
  case complete =>
    exact fun hop hother => ⟨complete_ends hr htake ht hop hother, fun c id => complete_signal hr htake ht hop hother⟩
  case error =>
    intro hop
    rw [fabricError_next hr htake ht hop]
    exact ⟨fun h4 h5 => by rw [if_neg (not_or.mpr ⟨h4, h5⟩)], fun hfar => by rw [if_pos hfar]⟩
  case lost => rw [txnTimeout_only hr honly, reissue_loses hspent]
  case timeout => exact (txnTimeout_only hr honly).trans (congrArg _ (reissue_sends honly hleft))
  case down => exact (pathDown_only hr hop htake honly hdst htxn hepoch).trans (congrArg _ (reissue_sends honly hleft))

end Sys2Proof.Machine
end
section
/-! SUPPORT. FAB_ROUTE_LOAD and FAB_MEMBERSHIP (spec/16 R298, R302, R308). -/

namespace Sys2Proof.Machine

/-! ### The shadow set -/

theorem shadowOf_modShadow (s : State) (f : ConfigSet → ConfigSet) : shadowOf (modShadow s f) = f (shadowOf s) := by
  cases hactive : s.active <;> simp [shadowOf, modShadow, hactive]

theorem cfgOf_modShadow (s : State) (f : ConfigSet → ConfigSet) : cfgOf (modShadow s f) = cfgOf s := by
  cases hactive : s.active <;> simp [cfgOf, modShadow, hactive]

theorem modShadow_modId (s : State) (f : ConfigSet → ConfigSet) : (modShadow s f).modId = s.modId := by
  unfold modShadow
  split <;> rfl

/-! ### The commands -/

/-- The module with its identifier, and with the tables and the timeout in the shadow set. -/
def routesLoaded (s : State) (w : BitVec 256) (bs : List Byte) : State :=
  modShadow { s with modId := some (frSelf w) } fun c => loadRoutes c w bs

/-- A FAB_ROUTE_LOAD with good fields and a good read, and no swap pending, loads its tables and retrains the ports that it names. -/
theorem fabRouteLoad_next {p : Packet} {s : State} {rd : Rd} (hring : p.ring = 64) (hr : ready s = true) (hok : routeBad s p = false)
    (hread : mgmtRead s none (frObj p.param) (frOff p.param) (32768 * (frPorts p.param).length) = some rd) (hswap : s.swap = none)
    (hgood : rd.bad = []) : exec (.fabRouteLoad p) s =
      .next (answer ((frRetrain p.param).foldl retrainPort (routesLoaded s p.param rd.bytes)) p 0x88 0 0) := by
  show execFabRouteLoad p s = _
  rw [execFabRouteLoad, mgmtCommand_next _ hring hr]
  simp [hok, hread, hswap, hgood, routesLoaded]

/-- A FAB_MEMBERSHIP with good fields, a good read and a good list writes the list. -/
theorem fabMembership_next {p : Packet} {s : State} {n : Nat} {rd : Rd} {ms : List (BitVec 14)} (h : Accepts p s)
    (hn : pktSlot s p = some n) (hrsv : bits p.param 0 157 = 0) (hk : bits p.param 157 15 ≠ 0) (hmax : bits p.param 157 15 ≤ 16384)
    (hoff : onGranule s n (bits p.param 224 32) (bits p.param 176 48) = true)
    (hread : readObjAt s n (bits p.param 224 32) (bits p.param 176 48) (2 * bits p.param 157 15) = some rd) (hgood : rd.bad = [])
    (hms : memberList s (bits p.param 157 15) rd.bytes = some ms) :
    exec (.fabMembership p) s = .next (answer (writeList s n (bits p.param 172 4) ms) p 0x89 0 0) := by
  show execFabMembership p s = _
  rw [execFabMembership, ctxCommand_next _ h hn]
  simp [zeroBits_of hrsv, hk, Nat.not_lt.mpr hmax, hoff, hread, hgood, hms]

/-- Settles O39: both packets are past their checks, and the tables enter the shadow set alone. -/
theorem fabricTablesLoad : Obligations.FabricTablesLoad := by
  intro p s n rd
  refine ⟨fun hring hr hok hread hswap hgood hstay => ?route, fun ms h hn hrsv hk hmax hoff hread hgood hms => ?list⟩
  case route =>
    refine ⟨routesLoaded s p.param rd.bytes, ?_, modShadow_modId _ _, shadowOf_modShadow _ _, cfgOf_modShadow _ _⟩
    rw [fabRouteLoad_next hring hr hok hread hswap hgood, hstay, List.foldl_nil]
  case list => exact fabMembership_next h hn hrsv hk hmax hoff hread hgood hms

end Sys2Proof.Machine
end
section
/-! SUPPORT. What every step keeps of the logs, the queue and the anti-rollback floor (spec/18 R341, spec/19 R376, spec/20 R388). -/

namespace Sys2Proof.Machine

/-- Settles O56: of what a step keeps (`step_kept`), the bounds of the logs, the capacity and the queue do not rest on the floor. -/
theorem stepKeepsLogsAndQueue : Obligations.StepKeepsLogsAndQueue := by
  intro s t h
  obtain ⟨f, -, -, -, kept⟩ := step_kept h
  exact ⟨fun ⟨hhealth, hdead⟩ => ⟨kept.health hhealth, kept.dead hdead⟩, kept.big, kept.pending⟩

/-- Settles O57: the floor that `step_kept` names is the one that the step leaves, and the security versions stay as they were. -/
theorem floorOnlyRises : Obligations.FloorOnlyRises := by
  intro s t h
  obtain ⟨f, hle, hmax, honly, kept⟩ := step_kept h
  have hf : t.fw.floor = f := kept.floor
  refine ⟨fun w => ?_, hf ▸ hle, fun hne => honly (hf ▸ hne)⟩
  have hw : t.fwWf := kept.fw ⟨hmax w, w.2⟩
  exact ⟨hw, hw.1⟩

end Sys2Proof.Machine
end
section
/-! SUPPORT. The queue, the tick and the machine right after reset (spec/21 R399, spec/22 R413, R419). -/

namespace Sys2Proof.Machine

/-- Settles O1: the queue of the state that steps has `c` at its front. -/
theorem stepRunsFront : Obligations.StepRunsFront := fun _ _ => rfl

/-! ### The tick -/

theorem settleFault_idle {s : State} {n : Nat} (h : faultDue s n = false) : settleFault s n = s := by simp [settleFault, h]

theorem foldl_settleFault_idle {s : State} {l : List Nat} (h : ∀ n ∈ l, faultDue s n = false) : l.foldl settleFault s = s := by
  induction l with
  | nil => rfl
  | cons n l ih =>
    rw [List.foldl_cons, settleFault_idle (h n List.mem_cons_self)]
    exact ih fun m hm => h m (List.mem_cons_of_mem n hm)

/-- One plan has a thread that faulted, and its end makes no other due: that plan ends. -/
theorem settleFaults_one {s : State} {m : Nat} (hm : m < 64) (hdue : faultDue s m = true)
    (hothers : ∀ n, n ≠ m → ∀ u, u = s ∨ u = endPlan s m 0x0400 0 0 → faultDue u n = false) :
    settleFaults s = endPlan s m 0x0400 0 0 := by
  obtain ⟨before, after, hsplit⟩ := List.append_of_mem (List.mem_range.mpr hm)
  have hnodup : (before ++ m :: after).Nodup := hsplit ▸ List.nodup_range
  have hbefore : ∀ n ∈ before, n ≠ m := fun n hn he =>
    (List.nodup_append.mp hnodup).2.2 n hn m List.mem_cons_self he
  have hafter : ∀ n ∈ after, n ≠ m := fun n hn he =>
    (List.nodup_cons.mp (List.nodup_append.mp hnodup).2.1).1 (he ▸ hn)
  rw [settleFaults, hsplit, List.foldl_append, List.foldl_cons,
    foldl_settleFault_idle fun n hn => hothers n (hbefore n hn) s (.inl rfl), settleFault, if_pos hdue]
  exact foldl_settleFault_idle fun n hn => hothers n (hafter n hn) _ (.inr rfl)

/-- Of the state, the fall from ACTIVE to IDLE changes the power state alone. -/
theorem settlePower_life (s : State) : ∃ l, settlePower s = { s with life := l } := by
  unfold settlePower
  split
  · exact ⟨_, rfl⟩
  · exact ⟨s.life, rfl⟩

/-- Settles O2: the cycle settles the due faults first, and what follows changes the power state and the postmark alone. -/
theorem idleStepTicks : Obligations.IdleStepTicks := by
  intro s hidle
  refine ⟨tick s, by simp [step, hidle], rfl, fun hnone => ?quiet, fun m hdue hothers hm => ?ends⟩
  case quiet =>
    have hs : settleFaults s = s := foldl_settleFault_idle fun n _ => hnone n
    obtain ⟨l, hl⟩ := settlePower_life s
    simp [tick, hs, hl]
  case ends =>
    obtain ⟨l, hl⟩ := settlePower_life (endPlan s m 0x0400 0 0)
    simp [tick, settleFaults_one hm hdue hothers, hl]

/-! ### Right after reset -/

theorem ringOf_reset {n : Nat} (h : n < 65) : ringOf State.reset n = Ring.init n := by
  simp [ringOf, State.reset, vget, h]

theorem ctxOf_reset {n : Nat} (h : n < 64) : ctxOf State.reset n = none := by
  simp [ctxOf, slotOf, State.reset, vget, h]

theorem portOf_reset_state {n : Nat} (h : n < 16) : (portOf State.reset n).state = .down := by
  simp [portOf, State.reset, vget, h, Port.init]

theorem memWf_reset : State.reset.memWf := ⟨rfl, rfl, rfl, fun c => by simp [State.reset, Core.init, Mem.wf]⟩

/-- Settles O54: each part of the state is the one that reset writes, and the vectors hold its value at every index. -/
theorem resetState : Obligations.ResetState :=
  ⟨rfl, rfl, rfl, rfl, rfl, rfl, rfl, rfl, rfl, rfl, rfl, rfl, rfl, rfl, rfl, rfl, rfl, rfl, fun _ => ringOf_reset, fun _ => ctxOf_reset,
    fun _ => portOf_reset_state, memWf_reset, ⟨Nat.zero_le _, Nat.zero_le _⟩, ⟨by decide, by decide, by decide⟩⟩

end Sys2Proof.Machine
end

section
/-! SUPPORT. The commands that only report (spec/19 R371, spec/18 R341). -/

namespace Sys2Proof.Machine

section
variable {p : Packet} {s : State} (h : Accepts p s)
include h

theorem nop_next : exec (.nop p) s = .next (answer s p 0x00 0 0) := by
  show execNop p s = _
  exact firmware_next _ h

theorem echo_next : exec (.echo p) s = .next (answer s p 0x01 0 (bits p.param 0 16)) := by
  show execEcho p s = _
  exact firmware_next _ h

theorem readInfo_next (halign : bits p.param 192 64 % 64 = 0) (hrsv : bits p.param 0 192 = 0) : exec (.readInfo p) s =
    .next (answer (hostRecord s (bits p.param 192 64) (leBytes 128 (infoRecord s))) p 0x02 0 0) := by
  show execReadInfo p s = _
  rw [execReadInfo, firmware_next _ h]
  simp [halign, zeroBits_of hrsv]

/-- Ring 64 reads the entries of every context. -/
theorem healthRead_all_next (hring : p.ring.toNat = 64) (halign : bits p.param 192 64 % 64 = 0) (hcap : bits p.param 176 16 ≠ 0)
    (hrsv : bits p.param 0 144 = 0) : ∃ d, exec (.healthRead p) s = .next (answer (hostRecord s (bits p.param 192 64)
      (((s.health.filter fun e => decide (bits p.param 144 32 ≤ e.seq.toNat)).take (bits p.param 176 16)).flatMap healthBytes))
      p 0x80 0 d) := by
  show ∃ d, execHealthRead p s = _
  rw [execHealthRead, firmware_next _ h]
  simp only [halign, hcap, zeroBits_of hrsv, hring, ne_eq, not_true_eq_false, Bool.not_true, Bool.false_eq_true, or_self, if_false,
    beq_self_eq_true, Bool.true_or, Bool.and_true]
  exact ⟨_, rfl⟩

end

/-- Settles O3: each packet is past its checks. -/
theorem basicCommandsAnswer : Obligations.BasicCommandsAnswer := fun _ _ h =>
  ⟨nop_next h, echo_next h, readInfo_next h, fun halign hcap hrsv hring => healthRead_all_next h hring halign hcap hrsv⟩

end Sys2Proof.Machine
end

section
/-! SUPPORT. What host records, signals and counter operations leave unchanged (spec/17 R320 to R337). -/

namespace Sys2Proof.Machine

/-! ### Records in host memory -/

/-- The state without host memory: records change no more than that. -/
def unrecorded (s : State) : State := { s with hostMem := [], hostLines := [] }

@[simp] theorem unrecorded_bareLine (s : State) (l : Nat) : unrecorded (bareLine s l) = unrecorded s := by
  unfold bareLine
  split <;> rfl

@[simp] theorem unrecorded_hostWrite (s : State) (a : Nat) (bs : List Byte) : unrecorded (hostWrite s a bs) = unrecorded s :=
  foldl_keeps unrecorded unrecorded_bareLine _ s

@[simp] theorem unrecorded_hostRecord (s : State) (a : Nat) (bs : List Byte) : unrecorded (hostRecord s a bs) = unrecorded s := by
  unfold hostRecord
  split <;> simp

/-! ### Signals -/

/-- The state without what signals change: what travels to counters, the transactions and the health log. -/
def unsignalled (s : State) : State :=
  { s with ports := .replicate 16 .init, outbox := [], nextTxn := [], txns := [], sendWait := [], syncQ := .replicate 16 [], health := [],
           healthSeq := 0 }

theorem SentFrom.unsignalled {s t : State} (h : SentFrom s t) : unsignalled t = unsignalled s := by
  obtain ⟨_, _, rfl⟩ := h
  rfl

@[simp] theorem unsignalled_logHealth (s : State) (cls source code ctx loc : Nat) :
    unsignalled (logHealth s cls source code ctx loc) = unsignalled s := by
  unfold logHealth
  split <;> simp only [unsignalled]

@[simp] theorem unsignalled_reply (s : State) (t : Nat) (f : Flit) (op status : Nat) (arg : BitVec 64) (data : List Byte) :
    unsignalled (reply s t f op status arg data) = unsignalled s := (sentFrom_reply s t f op status arg data).unsignalled

@[simp] theorem unsignalled_sendTxn (s : State) (r : TxnReq) : unsignalled (sendTxn s r) = unsignalled s :=
  foldl_keeps unsignalled (fun s f => (sentFrom_sendFlit s _ f).unsignalled) _ _

@[simp] theorem unsignalled_flushSends (s : State) : unsignalled (flushSends s) = unsignalled s := by
  refine foldl_keeps unsignalled (fun t r => ?_) _ _
  split
  · exact unsignalled_sendTxn t r
  · rfl

@[simp] theorem unsignalled_remoteSignal (s : State) (core : BitVec 8) (slot vid : Nat) (m : BitVec 14) (v : Word)
    (opId : Option Nat) : unsignalled (remoteSignal s core slot vid m v opId) = unsignalled s :=
  unsignalled_flushSends _

@[simp] theorem unsignalled_signalVid (s : State) (core : BitVec 8) (slot vid : Nat) (v : Word) :
    unsignalled (signalVid s core slot vid v) = unsignalled s := by
  unfold signalVid
  split
  · rfl
  · simp
  · simp

@[simp] theorem unsignalled_signalSig (s : State) (core : BitVec 8) (slot : Nat) (sig : Option (BitVec 20)) :
    unsignalled (signalSig s core slot sig) = unsignalled s := by
  cases sig with
  | none => rfl
  | some v => exact unsignalled_signalVid s core slot _ 1

@[simp] theorem unsignalled_syncStale (s : State) (r : SyncReq) : unsignalled (syncStale s r) = unsignalled s := by
  unfold syncStale
  dsimp only
  split <;> simp

theorem counters_of_unsignalled {s t : State} (h : unsignalled t = unsignalled s) : t.counters = s.counters := by
  change (unsignalled t).counters = (unsignalled s).counters
  rw [h]

theorem ctxs_of_unsignalled {s t : State} (h : unsignalled t = unsignalled s) : t.ctxs = s.ctxs := by
  change (unsignalled t).ctxs = (unsignalled s).ctxs
  rw [h]

@[simp] theorem logHealth_counters (s : State) (cls source code ctx loc : Nat) :
    (logHealth s cls source code ctx loc).counters = s.counters := counters_of_unsignalled (unsignalled_logHealth s cls source code ctx loc)

@[simp] theorem syncDone_counters (s : State) (r : SyncReq) (v : Word) : (syncDone s r v).counters = s.counters := by
  unfold syncDone
  split
  case h_1 =>
    dsimp only
    refine (counters_of_unsignalled (unsignalled_signalSig _ _ _ _)).trans ?_
    split <;> rfl
  case h_2 => exact counters_of_unsignalled (unsignalled_reply _ _ _ _ _ _ _)
  case h_3 => rfl

/-! ### The contexts through counter operations -/

@[simp] theorem syncStale_ctxs (s : State) (r : SyncReq) : (syncStale s r).ctxs = s.ctxs :=
  ctxs_of_unsignalled (unsignalled_syncStale s r)

@[simp] theorem logHealth_ctxs (s : State) (cls source code ctx loc : Nat) : (logHealth s cls source code ctx loc).ctxs = s.ctxs :=
  ctxs_of_unsignalled (unsignalled_logHealth s cls source code ctx loc)

@[simp] theorem setCount_ctxs (s : State) (pid : BitVec 16) (c : Counter) (v : Word) : (setCount s pid c v).ctxs = s.ctxs := by
  unfold setCount
  dsimp only
  split <;> rfl

@[simp] theorem poisonCounter_ctxs (s : State) (pid : BitVec 16) : (poisonCounter s pid).ctxs = s.ctxs := by
  unfold poisonCounter
  split
  · rfl
  · split <;> rfl

@[simp] theorem setCounter_ctxs (s : State) (pid : Nat) (c : Counter) : (setCounter s pid c).ctxs = s.ctxs := rfl

theorem leaseTake_ctxs {s : State} {pid : BitVec 16} {c : Counter} {who : Issuer} {r : State × Word}
    (h : leaseTake s pid c who = some r) : r.1.ctxs = s.ctxs := by
  unfold leaseTake at h
  dsimp only at h
  split at h
  · cases h
    rfl
  · split at h
    · cases h
      exact setCount_ctxs s pid c _
    · cases h

@[simp] theorem syncDone_ctxs (s : State) (r : SyncReq) (v : Word) : (syncDone s r v).ctxs = s.ctxs := by
  unfold syncDone
  split
  case h_1 =>
    dsimp only
    refine (ctxs_of_unsignalled (unsignalled_signalSig _ _ _ _)).trans ?_
    split <;> rfl
  case h_2 => exact ctxs_of_unsignalled (unsignalled_reply _ _ _ _ _ _ _)
  case h_3 => rfl

@[simp] theorem enterWaiter_ctxs (s : State) (r : SyncReq) : (enterWaiter s r).ctxs = s.ctxs := by
  unfold enterWaiter
  split <;> rfl

theorem applySync_ctxs {s t : State} {r : SyncReq} (h : applySync s r = some t) : t.ctxs = s.ctxs := by
  unfold applySync at h
  dsimp only at h
  split at h
  case h_1 => cases h; exact syncStale_ctxs s r
  case h_2 =>
    split at h
    case isTrue => cases h; exact syncStale_ctxs s r
    case isFalse =>
      split at h
      case h_1 => split at h <;> cases h <;> simp
      case h_2 => split at h <;> cases h <;> simp
      case h_3 => split at h <;> cases h <;> simp
      case h_4 => cases h; simp
      case h_5 =>
        split at h
        · cases h; simp
        · split at h
          · split at h
            next htake => cases h; exact (syncDone_ctxs _ _ _).trans (leaseTake_ctxs htake)
            next => cases h
          · cases h; simp
      case h_6 =>
        split at h
        · cases h; simp
        · split at h <;> cases h <;> simp
      case h_7 => cases h; rfl

theorem applyWaiting_ctxs (s : State) (pid : BitVec 16) : (applyWaiting s pid).ctxs = s.ctxs := by
  refine foldl_keeps State.ctxs (fun t r => ?_) _ s
  generalize hu : ({ t with syncQ := vset t.syncQ (pidCluster pid) ((vget t.syncQ (pidCluster pid) []).erase r) } : State) = u
  have hctxs : u.ctxs = t.ctxs := hu ▸ rfl
  cases ht : applySync u r with
  | none => rfl
  | some v => exact (applySync_ctxs ht).trans hctxs

end Sys2Proof.Machine
end

section
/-! SUPPORT. Counter operations at their home (spec/17 Table 17.2, R322, R323, R337). -/

namespace Sys2Proof.Machine

/-! ### One counter changes -/

/-- In `t` counter `pid` is `c`, and every other counter is as in `s`. -/
def CounterBecomes (s t : State) (pid : Nat) (c : Counter) : Prop :=
  counterOf t pid = some c ∧ ∀ q, q ≠ pid → counterOf t q = counterOf s q

theorem CounterBecomes.of_counters {s t u : State} {pid : Nat} {c : Counter} (h : u.counters = t.counters)
    (hb : CounterBecomes s t pid c) : CounterBecomes s u pid c := by
  simp only [CounterBecomes, counterOf, h]
  exact hb

theorem counterBecomes_self {s : State} {pid : Nat} {c : Counter} (hc : counterOf s pid = some c) : CounterBecomes s s pid c :=
  ⟨hc, fun _ _ => rfl⟩

theorem counterBecomes_setCounter (s : State) (pid : Nat) (c : Counter) : CounterBecomes s (setCounter s pid c) pid c :=
  ⟨tget_tput_eq _ _ _, fun _ hq => tget_tput_ne _ _ _ _ hq⟩

theorem setCount_counters (s : State) (pid : BitVec 16) (c : Counter) (v : Word) :
    (setCount s pid c v).counters = (setCounter s pid.toNat { c with count := v, last := s.postmark }).counters := by
  unfold setCount
  dsimp only
  split <;> rfl

theorem counterBecomes_setCount (s : State) (pid : BitVec 16) (c : Counter) (v : Word) :
    CounterBecomes s (setCount s pid c v) pid.toNat { c with count := v, last := s.postmark } :=
  (counterBecomes_setCounter s pid.toNat _).of_counters (setCount_counters s pid c v)

theorem counterBecomes_poisonCounter {s : State} {pid : BitVec 16} {c : Counter} (hc : counterOf s pid.toNat = some c)
    (hlive : c.state ≠ .poisoned) : CounterBecomes s (poisonCounter s pid) pid.toNat { c with state := .poisoned, last := s.postmark } := by
  refine (counterBecomes_setCounter s pid.toNat { c with state := .poisoned, last := s.postmark }).of_counters ?_
  cases hstate : c.state with
  | poisoned => exact absurd hstate hlive
  | live => simp only [poisonCounter, hc, hstate]; rfl
  | frozen => simp only [poisonCounter, hc, hstate]; rfl

/-! ### An operation on a counter of its context -/

/-- The counter that an operation leaves (Table 17.2). -/
def counterAfter (r : SyncReq) (now : Word) (c : Counter) : Counter := match r.op with
  | .signal => if c.state = .poisoned then c else { c with count := c.count + r.value, added := r.value, last := now }
  | .take => if c.state = .poisoned then c else { c with count := c.count + r.value, last := now }
  | .set => if c.state = .poisoned then c else { c with count := r.value, last := now }
  | .poison => if c.state = .poisoned then c else { c with state := .poisoned, last := now }
  | _ => { c with last := now }

section
variable {s : State} {r : SyncReq} {c : Counter}

theorem applySync_stale (h : counterOf s r.pid.toNat = none ∨ ∃ c, counterOf s r.pid.toNat = some c ∧ c.slot ≠ r.slot) :
    applySync s r = some (syncStale s r) := by
  obtain hnone | ⟨c, hc, hother⟩ := h
  · simp [applySync, hnone]
  · simp [applySync, hc, hother]

variable (hc : counterOf s r.pid.toNat = some c) (hslot : c.slot = r.slot)
include hc hslot

/-- An operation on a POISONED counter gives its result and an entry of the health log. -/
theorem applySync_poisoned (hp : c.state = .poisoned) (hop : r.op = .signal ∨ r.op = .set ∨ r.op = .poison ∨ r.op = .take) :
    applySync s r = some (syncDone (logHealth s 0 0xFFF 0x0403 (identOf s r.slot.toNat).toNat r.pid.toNat) r
      (if r.op = .take then BitVec.allOnes 64 else 0)) := by
  obtain hop | hop | hop | hop := hop <;> simp [applySync, hc, hslot, hop, hp]

theorem applySync_signal (hlive : c.state ≠ .poisoned) (hop : r.op = .signal) :
    applySync s r = some (syncDone (setCount s r.pid { c with added := r.value } (c.count + r.value)) r c.count) := by
  simp [applySync, hc, hslot, hop, hlive]

theorem applySync_set (hlive : c.state ≠ .poisoned) (hop : r.op = .set) :
    applySync s r = some (syncDone (setCount s r.pid c r.value) r 0) := by
  simp [applySync, hc, hslot, hop, hlive]

theorem applySync_poison (hlive : c.state ≠ .poisoned) (hop : r.op = .poison) :
    applySync s r = some (syncDone (poisonCounter s r.pid) r 0) := by
  simp [applySync, hc, hslot, hop, hlive]

theorem applySync_read (hop : r.op = .read) :
    applySync s r = some (syncDone (setCounter s r.pid.toNat { c with last := s.postmark }) r c.count) := by
  simp [applySync, hc, hslot, hop]

/-- A TAKE that takes no lease adds to the count. -/
theorem applySync_take (hlive : c.state ≠ .poisoned) (hop : r.op = .take) (hplain : c.leased = false ∨ r.value ≠ 1) :
    applySync s r = some (syncDone (setCount s r.pid c (c.count + r.value)) r c.count) := by
  have hno : (c.leased && r.value == 1#64) = false := by
    obtain h | h := hplain
    · simp [h]
    · simpa using fun _ => h
  simp only [applySync, hc, hslot, hop, hlive, ne_eq, not_true_eq_false, if_false]
  rw [show (1 : Word) = 1#64 from rfl, hno]
  cases r.src <;> rfl

theorem applySync_take_leases {core : BitVec 8} {th : BitVec 5} {op : Nat} {sd : BitVec 5} {tmo : BitVec 4} {sig : Option (BitVec 20)}
    {u : State} {v : Word} (hlive : c.state ≠ .poisoned) (hop : r.op = .take) (hleased : c.leased = true) (hone : r.value = 1)
    (hsrc : r.src = .thread core th op sd tmo sig) (hlease : leaseTake s r.pid c { core := core, thread := th } = some (u, v)) :
    applySync s r = some (syncDone u r v) := by
  simp [applySync, hc, hslot, hop, hlive, hleased, hone, hsrc, hlease]

theorem applySync_wait_poisoned (hp : c.state = .poisoned) (hop : r.op = .wait) : applySync s r = some (syncDone (logHealth
    (setCounter s r.pid.toNat { c with last := s.postmark }) 0 0xFFF 0x0403 (identOf s r.slot.toNat).toNat r.pid.toNat) r 0x0403) := by
  simp [applySync, hc, hslot, hop, hp]
  rfl

theorem applySync_wait_met (hlive : c.state = .live) (hmet : r.value ≤ c.count) (hop : r.op = .wait) :
    applySync s r = some (syncDone (setCounter s r.pid.toNat { c with last := s.postmark }) r 0) := by
  simp [applySync, hc, hslot, hop, hlive, hmet]

theorem applySync_wait_waits (hp : c.state ≠ .poisoned) (hmet : ¬(c.state = .live ∧ r.value ≤ c.count)) (hop : r.op = .wait) :
    applySync s r = some (enterWaiter (setCounter s r.pid.toNat { c with last := s.postmark }) r) := by
  simp only [applySync, hc, hslot, hop, hp, hmet, ne_eq, not_true_eq_false, if_false]

/-- An operation of the row for its counter leaves it as Table 17.2 gives, and every other counter as it was. -/
theorem applySync_counter (hop : r.op ≠ .revive) (hplain : r.op = .take → c.leased = false ∨ r.value ≠ 1) :
    ∃ t, applySync s r = some t ∧ CounterBecomes s t r.pid.toNat (counterAfter r s.postmark c) := by
  have hnoted : ∀ v, CounterBecomes s (syncDone (logHealth s 0 0xFFF 0x0403 (identOf s r.slot.toNat).toNat r.pid.toNat) r v)
      r.pid.toNat c := fun v => (counterBecomes_self hc).of_counters (by simp)
  have htouched : CounterBecomes s (setCounter s r.pid.toNat { c with last := s.postmark }) r.pid.toNat { c with last := s.postmark } :=
    counterBecomes_setCounter s _ _
  by_cases hp : c.state = .poisoned
  · cases hk : r.op with
    | revive => exact absurd hk hop
    | read => exact ⟨_, applySync_read hc hslot hk, by simpa [counterAfter, hk] using htouched.of_counters (syncDone_counters _ r _)⟩
    | wait =>
      exact ⟨_, applySync_wait_poisoned hc hslot hp hk, by simpa [counterAfter, hk] using htouched.of_counters (by simp)⟩
    | signal => exact ⟨_, applySync_poisoned hc hslot hp (by simp [hk]), by simpa [counterAfter, hk, hp] using hnoted _⟩
    | set => exact ⟨_, applySync_poisoned hc hslot hp (by simp [hk]), by simpa [counterAfter, hk, hp] using hnoted _⟩
    | poison => exact ⟨_, applySync_poisoned hc hslot hp (by simp [hk]), by simpa [counterAfter, hk, hp] using hnoted _⟩
    | take => exact ⟨_, applySync_poisoned hc hslot hp (by simp [hk]), by simpa [counterAfter, hk, hp] using hnoted _⟩
  · cases hk : r.op with
    | revive => exact absurd hk hop
    | read => exact ⟨_, applySync_read hc hslot hk, by simpa [counterAfter, hk] using htouched.of_counters (syncDone_counters _ r _)⟩
    | wait =>
      by_cases hmet : c.state = .live ∧ r.value ≤ c.count
      · exact ⟨_, applySync_wait_met hc hslot hmet.1 hmet.2 hk,
          by simpa [counterAfter, hk] using htouched.of_counters (syncDone_counters _ r _)⟩
      · refine ⟨_, applySync_wait_waits hc hslot hp hmet hk, ?_⟩
        simpa [counterAfter, hk] using htouched.of_counters (by unfold enterWaiter; split <;> rfl)
    | signal =>
      exact ⟨_, applySync_signal hc hslot hp hk, by
        simpa [counterAfter, hk, hp] using (counterBecomes_setCount s r.pid { c with added := r.value } _).of_counters (syncDone_counters _ r _)⟩
    | set =>
      exact ⟨_, applySync_set hc hslot hp hk, by
        simpa [counterAfter, hk, hp] using (counterBecomes_setCount s r.pid c _).of_counters (syncDone_counters _ r _)⟩
    | poison =>
      exact ⟨_, applySync_poison hc hslot hp hk, by
        simpa [counterAfter, hk, hp] using (counterBecomes_poisonCounter hc hp).of_counters (syncDone_counters _ r _)⟩
    | take =>
      exact ⟨_, applySync_take hc hslot hp hk (hplain hk), by
        simpa [counterAfter, hk, hp] using (counterBecomes_setCount s r.pid c _).of_counters (syncDone_counters _ r _)⟩

end

/-! ### SYNC_OP_APPLY -/

section
variable {k : BitVec 4} {s : State} {r : SyncReq} (hr : ready s = true) (hq : vget s.syncQ k.toNat [] = [r])
include hr hq

theorem syncOpApply_waits (hwait : applySync s r = none) (ecc : Ecc) : exec (.syncOpApply k ecc) s = .next s := by
  show execSyncOpApply k ecc s = _
  simp [execSyncOpApply, hr, hq, nextSync, hwait]

/-- The state with the operation taken out of its queue. -/
theorem syncOpApply_next {t : State} (hgo : (applySync s r).isSome)
    (ht : applySync { s with syncQ := vset s.syncQ k.toNat [] } r = some t) : exec (.syncOpApply k .good) s = .next t := by
  obtain ⟨u, hu⟩ := Option.isSome_iff_exists.mp hgo
  show execSyncOpApply k .good s = _
  simp [execSyncOpApply, hr, hq, nextSync, hu, syncEcc, ht]

end

/-- Settles O7: the only operation that waits applies to the state without it, by what its counter is. -/
theorem syncOpApplies : Obligations.SyncOpApplies := by
  intro k s r hr hq s1
  refine ⟨fun hwait ecc => syncOpApply_waits hr hq hwait ecc, fun u hgone hu => ?stale, fun c hc hslot hop => ⟨fun hplain => ?table, ?leases⟩⟩
  case stale => exact syncOpApply_next hr hq (by simp [applySync_stale hgone]) (hu ▸ applySync_stale (s := s1) hgone)
  case table =>
    obtain ⟨u, hu, -⟩ := applySync_counter hc hslot hop hplain
    obtain ⟨t, ht, hcounter, hothers⟩ := applySync_counter (s := s1) hc hslot hop hplain
    exact ⟨t, syncOpApply_next hr hq (by simp [hu]) ht, hcounter, hothers⟩
  case leases =>
    intro core th op sd tmo sig u v htake hleased hone hlive hsrc hgo hlease
    exact syncOpApply_next hr hq hgo (applySync_take_leases (s := s1) hc hslot hlive htake hleased hone hsrc hlease)

end Sys2Proof.Machine
end

section
/-! SUPPORT. How results and new counts reach the threads that wait (spec/17 R322, R325, R326; spec/03 R48). -/

namespace Sys2Proof.Machine

/-! ### A result reaches its thread -/

/-- Thread `th` of core `core` holds for the result of operation `op`. -/
def HoldsFor (s : State) (core : BitVec 8) (th : BitVec 5) (op : Nat) : Prop :=
  (threadOf (coreOf s core.toNat) th.toNat).hold = .result op

section
variable {s : State} {core : BitVec 8} {th : BitVec 5} {op : Nat} (hhold : HoldsFor s core th op)
include hhold

theorem threadOf_delivered (sd : Nat) (v : Word) :
    threadOf (coreOf (modThread s core.toNat th.toNat fun x => deliver x op sd v) core.toNat) th.toNat =
      wake (setS (threadOf (coreOf s core.toNat) th.toNat) sd v) := by
  rw [modThread, coreOf_modCore _ _ _ core.isLt, threadOf_setThread _ _ _ th.isLt]
  exact if_pos hhold

theorem delivered_reads {sd : BitVec 5} (hsd : sd ≠ 0) (v : Word) :
    let t := threadOf (coreOf (modThread s core.toNat th.toNat fun x => deliver x op sd.toNat v) core.toNat) th.toNat
    vget t.s sd.toNat 0 = v ∧ t.hold = .none := by
  dsimp only
  rw [threadOf_delivered hhold]
  have h0 : sd.toNat ≠ 0 := fun h => hsd (BitVec.eq_of_toNat_eq h)
  exact ⟨setS_reads _ v h0 sd.isLt, rfl⟩

end

section
variable {s : State} {r : SyncReq} {core : BitVec 8} {th : BitVec 5} {op : Nat} {sd : BitVec 5} {tmo : BitVec 4}
  (hsrc : r.src = .thread core th op sd tmo none) (hop : r.op = .wait ∨ r.op = .take ∨ r.op = .read)
include hsrc hop

theorem syncDone_delivers (v : Word) : syncDone s r v = modThread s core.toNat th.toNat fun x => deliver x op sd.toNat v := by
  obtain hop | hop | hop := hop <;> simp [syncDone, hsrc, hop, signalSig]

/-- A result that an operation gives after an update that leaves the cores alone. -/
theorem syncDone_reads {t : State} (hcores : t.cores = s.cores) (hhold : HoldsFor s core th op) (hsd : sd ≠ 0) (v : Word) :
    vget (threadOf (coreOf (syncDone t r v) core.toNat) th.toNat).s sd.toNat 0 = v ∧
      (threadOf (coreOf (syncDone t r v) core.toNat) th.toNat).hold = .none := by
  have ht : HoldsFor t core th op := by
    simp only [HoldsFor, coreOf, hcores]
    exact hhold
  rw [syncDone_delivers hsrc hop]
  exact delivered_reads ht hsd v

end

theorem setCount_cores (s : State) (pid : BitVec 16) (c : Counter) (v : Word) : (setCount s pid c v).cores = s.cores := by
  unfold setCount
  dsimp only
  split <;> rfl

/-- What TAKE, READ and WAIT give: the count before the operation, or how the counter stands. -/
theorem applySync_result {s : State} {r : SyncReq} {c : Counter} (hc : counterOf s r.pid.toNat = some c) (hslot : c.slot = r.slot)
    (hleased : c.leased = false) {v : Word}
    (hv : (r.op = .take ∧ v = (if c.state = .poisoned then BitVec.allOnes 64 else c.count)) ∨ (r.op = .read ∧ v = c.count) ∨
      (r.op = .wait ∧ c.state = .live ∧ r.value ≤ c.count ∧ v = 0) ∨ (r.op = .wait ∧ c.state = .poisoned ∧ v = 0x0403)) :
    ∃ t, applySync s r = some (syncDone t r v) ∧ t.cores = s.cores := by
  obtain ⟨hop, rfl⟩ | ⟨hop, rfl⟩ | ⟨hop, hlive, hmet, rfl⟩ | ⟨hop, hp, rfl⟩ := hv
  · by_cases hp : c.state = .poisoned
    · have ht := applySync_poisoned hc hslot hp (by simp [hop])
      simp only [hop, if_true] at ht
      simp only [hp, if_true]
      exact ⟨_, ht, (sameUnits_logHealth s _ _ _ _ _).cores⟩
    · simp only [hp, if_false]
      exact ⟨_, applySync_take hc hslot hp hop (.inl hleased), setCount_cores s r.pid c _⟩
  · exact ⟨_, applySync_read hc hslot hop, rfl⟩
  · exact ⟨_, applySync_wait_met hc hslot hlive hmet hop, rfl⟩
  · exact ⟨_, applySync_wait_poisoned hc hslot hp hop, (sameUnits_logHealth _ _ _ _ _ _).cores⟩

/-- Settles O8: the operation gives its result in a state with the same cores, and the thread that holds for it takes it. -/
theorem syncResultsReachThread : Obligations.SyncResultsReachThread := by
  intro k s r c core th op sd tmo hr hq hc hslot hleased hsrc hsd hhold v hv
  obtain ⟨u, hu, -⟩ := applySync_result hc hslot hleased hv
  obtain ⟨t, ht, hcores⟩ := applySync_result (s := { s with syncQ := vset s.syncQ k.toNat [] }) hc hslot hleased hv
  have hop : r.op = .wait ∨ r.op = .take ∨ r.op = .read := by
    obtain ⟨h, -⟩ | ⟨h, -⟩ | ⟨h, -⟩ | ⟨h, -⟩ := hv <;> simp [h]
  exact ⟨_, syncOpApply_next hr hq (by simp [hu]) ht, syncDone_reads hsrc hop hcores hhold hsd v⟩

/-! ### A new count reaches a waiter (R325, R326) -/

theorem waiterEvaluate_none {k : BitVec 4} {s : State} (hnone : (s.counts.find? fun m => m.cluster == k) = none) :
    exec (.waiterEvaluate k) s = .next s := by
  show execWaiterEvaluate k s = _
  simp [execWaiterEvaluate, hnone]

theorem waiterEvaluate_next {k : BitVec 4} {s : State} {m : CountMsg} (hr : ready s = true)
    (hm : (s.counts.find? fun m => m.cluster == k) = some m) : exec (.waiterEvaluate k) s =
      .next ((s.waiters.filter fun w => w.cluster == k && w.pid == m.pid).foldl (fun t w => evaluate t m.count w)
        { s with counts := s.counts.erase m }) := by
  show execWaiterEvaluate k s = _
  simp [execWaiterEvaluate, hr, hm]

/-- The only message, for the only entry. -/
theorem waiterEvaluate_only {k : BitVec 4} {s : State} {m : CountMsg} {w : Waiter} (hr : ready s = true) (hm : s.counts = [m])
    (hcluster : m.cluster = k) (hw : s.waiters = [w]) (hwcluster : w.cluster = k) (hpid : w.pid = m.pid) :
    exec (.waiterEvaluate k) s = .next (evaluate { s with counts := [] } m.count w) := by
  rw [waiterEvaluate_next (m := m) hr (by simp [hm, hcluster])]
  simp [hm, hw, hwcluster, hpid]

/-- The state without a waiter's entry. -/
def withoutWaiter (s : State) (w : Waiter) : State := { s with waiters := s.waiters.erase w }

/-- The waiter's target is met, or its counter is POISONED. -/
def targetMet (v : Option Word) (w : Waiter) : Bool := v.all fun v => decide (w.target ≤ v)

section
variable {s : State} {w : Waiter} {v : Option Word}

theorem evaluate_frozen (hf : frozenSlot s w.slot.toNat = true) : evaluate s v w = s := by simp [evaluate, hf]

variable (hf : frozenSlot s w.slot.toNat = false)
include hf

theorem evaluate_thread {core : BitVec 8} {th : BitVec 5} {op : Nat} {sd : BitVec 5} {sig : Option (BitVec 20)}
    (hk : w.kind = .thread core th op sd sig) :
    evaluate s v w = if targetMet v w then endWait (withoutWaiter s w) w (if v.isSome then 0 else 0x0403) else s := by
  cases v with
  | none => simp [evaluate, hf, hk, targetMet, withoutWaiter]
  | some v => simp [evaluate, hf, hk, targetMet, withoutWaiter]

theorem evaluate_walker {x : Walk} (hk : w.kind = .walker x) :
    evaluate s v w = if targetMet v w then withoutWaiter s w else s := by
  cases v with
  | none => simp [evaluate, hf, hk, targetMet, withoutWaiter]
  | some v => simp [evaluate, hf, hk, targetMet, withoutWaiter]

theorem evaluate_firmware {n : BitVec 6} (hk : w.kind = .firmware n) :
    evaluate s v w = if targetMet v w then commitAdvance 4 (withoutWaiter s w) n.toNat else s := by
  cases v with
  | none => simp [evaluate, hf, hk, targetMet, withoutWaiter]
  | some v => simp [evaluate, hf, hk, targetMet, withoutWaiter]

theorem evaluate_stream_poisoned {core : BitVec 8} {k : BitVec 4} (hk : w.kind = .stream core k) : evaluate s none w = s := by
  simp [evaluate, hf, hk]

end

section
variable {s : State} {w : Waiter} {core : BitVec 8} {th : BitVec 5} {op : Nat} {sd : BitVec 5}
  (hk : w.kind = .thread core th op sd none)
include hk

theorem endWait_delivers (v : Word) : endWait s w v = modThread s core.toNat th.toNat fun x => deliver x op sd.toNat v := by
  simp [endWait, hk, signalSig]

theorem endWait_reads {t : State} (hcores : t.cores = s.cores) (hhold : HoldsFor s core th op) (hsd : sd ≠ 0) (v : Word) :
    vget (threadOf (coreOf (endWait t w v) core.toNat) th.toNat).s sd.toNat 0 = v := by
  have ht : HoldsFor t core th op := by
    simp only [HoldsFor, coreOf, hcores]
    exact hhold
  rw [endWait_delivers hk]
  exact (delivered_reads ht hsd v).1

end

/-! ### A WAIT runs out of time -/

section
variable {s : State} {w : Waiter} {core : BitVec 8} {th : BitVec 5} {op : Nat} {sd : BitVec 5} {c : Counter}

theorem waitTimeout_next (hr : ready s = true) (hw : s.waiters = [w]) (hk : w.kind = .thread core th op sd none)
    (htime : w.timeout.isSome) (hnew : w.expired = false) : exec (.waitTimeout core th) s = .next (expireWait s w) := by
  show execWaitTimeout core th s = _
  simp [execWaitTimeout, hr, hw, hk, htime, hnew]

theorem expireWait_wakes (hc : counterOf s w.pid.toNat = some c) (hf : frozenSlot s w.slot.toNat = false) : expireWait s w =
    endWait (withoutWaiter s w) w (if c.state = .live ∧ w.target ≤ c.count then 0 else 0x0401) := by
  simp [expireWait, hf, hc, withoutWaiter]

/-- The entry of a frozen waiter whose time has run out. -/
def expiredEntry (c : Counter) (w : Waiter) : Waiter :=
  if c.state = .poisoned then { w with timeout := none } else { w with expired := true }

theorem expireWait_frozen (hc : counterOf s w.pid.toNat = some c) (hf : frozenSlot s w.slot.toNat = true) :
    expireWait s w = { s with waiters := s.waiters.erase w ++ [expiredEntry c w] } := by
  simp [expireWait, hf, hc, expiredEntry]

end

/-- Settles O9: a message is evaluated against each entry by the kind of its unit, and a timeout ends or keeps the entry by whether its
context is preempted. -/
theorem waitersWake : Obligations.WaitersWake := by
  refine ⟨fun k s hr => ⟨waiterEvaluate_none, fun m hm => waiterEvaluate_next hr hm, fun w v => ⟨evaluate_frozen, fun hf => ?kinds⟩⟩,
    ?arrives, ?expires⟩
  case kinds =>
    refine ⟨fun core th op sd sig hk => evaluate_thread hf hk, fun x hk => evaluate_walker hf hk, fun n hk => evaluate_firmware hf hk, ?_⟩
    rintro core st hk rfl
    exact evaluate_stream_poisoned hf hk
  case arrives =>
    intro k s m w core th op sd hr hm hcluster hw hwcluster hpid hf hk hsd hhold
    rw [waiterEvaluate_only hr hm hcluster hw hwcluster hpid, evaluate_thread (s := { s with counts := [] }) hf hk]
    refine ⟨_, rfl, ?_, fun v hv hlow => ?_, fun x hx => ?_⟩
    · rw [endWait_delivers hk]
      split <;> rfl
    · have hunmet : targetMet m.count w = false := by simpa [targetMet, hv] using hlow
      simp [hunmet, hw]
    · have hmet : targetMet m.count w = true ∧ x = if m.count.isSome then 0 else 0x0403 := by
        obtain ⟨hnone, rfl⟩ | ⟨v, hv, hle, rfl⟩ := hx
        · simp [targetMet, hnone]
        · simp [targetMet, hv, hle]
      obtain ⟨hmet, rfl⟩ := hmet
      rw [if_pos hmet]
      refine ⟨?_, endWait_reads hk (t := withoutWaiter { s with counts := [] } w) rfl hhold hsd _⟩
      rw [endWait_delivers hk]
      simp [withoutWaiter, hw]
  case expires =>
    intro s w core th op sd c hr hw hk htime hnew hc
    refine ⟨fun hf hsd hhold => ⟨_, waitTimeout_next hr hw hk htime hnew, ?_, ?_⟩,
      fun hf => ⟨_, expiredEntry c w, waitTimeout_next hr hw hk htime hnew, ?_⟩⟩
    · rw [expireWait_wakes hc hf, endWait_delivers hk]
      simp [withoutWaiter, hw]
    · rw [expireWait_wakes hc hf]
      exact endWait_reads hk (t := withoutWaiter s w) rfl hhold hsd _
    · rw [expireWait_frozen hc hf]
      refine ⟨by simp [hw], rfl, ?_, ?_, ?_⟩
      · unfold expiredEntry
        split <;> rfl
      · intro hp
        simp [expiredEntry, hp]
      · intro hp
        simp [expiredEntry, hp]

end Sys2Proof.Machine
end

section
/-! SUPPORT. The host's counter commands (spec/17 R335 to R338). -/

namespace Sys2Proof.Machine

/-! ### Both configuration sets -/

theorem cfgOf_modBothSets (s : State) (f : ConfigSet → ConfigSet) : cfgOf (modBothSets s f) = f (cfgOf s) := by
  cases hactive : s.active <;> simp [cfgOf, modBothSets, hactive]

theorem shadowOf_modBothSets (s : State) (f : ConfigSet → ConfigSet) : shadowOf (modBothSets s f) = f (shadowOf s) := by
  cases hactive : s.active <;> simp [shadowOf, modBothSets, hactive]

/-! ### SYNC_SET (R336) -/

/-- What SYNC_SET of operation `op` leaves of a counter: SET, SIGNAL, POISON or REVIVE, whose new state is `fresh`. -/
def counterSet (op : Nat) (v now : Word) (fresh : CounterState) (c : Counter) : Counter :=
  if c.state = .poisoned then (if op = 3 then { c with count := v, state := fresh, last := now } else c)
  else if op = 1 then { c with count := c.count + v, added := v, last := now }
  else if op = 2 then { c with state := .poisoned, last := now }
  else { c with count := v, last := now }

theorem ctxOf_of_ctxs {s t : State} (h : t.ctxs = s.ctxs) (n : Nat) : ctxOf t n = ctxOf s n := by
  simp only [ctxOf, slotOf, h]

theorem slotOfIdent_of_ctxs {s t : State} (h : t.ctxs = s.ctxs) (ident : BitVec 16) : slotOfIdent t ident = slotOfIdent s ident := by
  simp only [slotOfIdent, ctxOf_of_ctxs h]

theorem pktSlot_of_ctxs {s t : State} (h : t.ctxs = s.ctxs) (p : Packet) : pktSlot t p = pktSlot s p := by
  simp only [pktSlot, slotOfIdent_of_ctxs h, ctxOf_of_ctxs h]

/-- `u` is answered to SYNC_SET, and in it the counter is what operation `op` leaves. -/
def SetAnswered (p : Packet) (s : State) (n : Nat) (pid : BitVec 16) (c : Counter) (op : Nat) (o : Out) : Prop :=
  ∃ u, o = .next (answer u p 0x41 0 0) ∧ counterOf u pid.toNat = some (counterSet op (BitVec.ofNat 64 (bits p.param 170 64))
    (applyWaiting s pid).postmark (freshState (applyWaiting s pid) n) c)

section
variable {p : Packet} {s : State} {n : Nat} {pid : BitVec 16} {c : Counter} (hn : pktSlot s p = some n)
  (hc : counterOf (applyWaiting s pid) pid.toNat = some c) (hslot : c.slot = BitVec.ofNat 6 n)
include hn hc hslot

/-- The firmware's operation applies to the counter of the packet's context; its slot is the packet's in every state with the same
contexts. -/
theorem fwReq_applies {op : SyncOp} (hrevive : op ≠ .revive) (htake : op ≠ .take) {t : State} (ht : t.ctxs = s.ctxs) (v : Word) :
    ∃ u, applySync (applyWaiting s pid) (fwReq p op t pid v) = some u ∧ counterOf u pid.toNat =
      some (counterAfter (fwReq p op t pid v) (applyWaiting s pid).postmark c) := by
  have hreq : (fwReq p op t pid v).slot = BitVec.ofNat 6 n := by simp [fwReq, pktSlot_of_ctxs ht, hn]
  obtain ⟨u, hu, hcounter, -⟩ := applySync_counter (s := applyWaiting s pid) (r := fwReq p op t pid v) hc (hslot.trans hreq.symm) hrevive
    fun hop => absurd hop htake
  exact ⟨u, hu, hcounter⟩

variable (h : Accepts p s) (hrsv : bits p.param 0 170 = 0) (hvid : translate s n (bits p.param 236 20) = .here pid)
include h hrsv hvid

omit hc hslot in
theorem syncSet_next {code : Nat} (hcode : bits p.param 234 2 = code) {f : State → BitVec 16 → Word → Option State} {u : State}
    (hf : f s pid (BitVec.ofNat 64 (bits p.param 170 64)) = some u) : syncSet p code s f = .next (answer u p 0x41 0 0) := by
  rw [syncSet, ctxCommand_next _ h hn]
  simp [hcode, zeroBits_of hrsv, hvid, hf]

theorem syncSetSet_answers (hcode : bits p.param 234 2 = 0) : SetAnswered p s n pid c 0 (exec (.syncSetSet p) s) := by
  obtain ⟨u, hu, hcounter⟩ := fwReq_applies hn hc hslot (op := .set) (by decide) (by decide) rfl (BitVec.ofNat 64 (bits p.param 170 64))
  exact ⟨u, syncSet_next hn h hrsv hvid hcode hu, by simpa [counterAfter, fwReq, counterSet] using hcounter⟩

theorem syncSetSignal_answers (hcode : bits p.param 234 2 = 1) : SetAnswered p s n pid c 1 (exec (.syncSetSignal p) s) := by
  obtain ⟨u, hu, hcounter⟩ := fwReq_applies hn hc hslot (op := .signal) (by decide) (by decide) rfl
    (BitVec.ofNat 64 (bits p.param 170 64))
  exact ⟨u, syncSet_next hn h hrsv hvid hcode hu, by simpa [counterAfter, fwReq, counterSet] using hcounter⟩

theorem syncSetPoison_answers (hcode : bits p.param 234 2 = 2) : SetAnswered p s n pid c 2 (exec (.syncSetPoison p) s) := by
  obtain ⟨u, hu, hcounter⟩ := fwReq_applies hn hc hslot (op := .poison) (by decide) (by decide) rfl
    (BitVec.ofNat 64 (bits p.param 170 64))
  exact ⟨u, syncSet_next hn h hrsv hvid hcode hu, by simpa [counterAfter, fwReq, counterSet] using hcounter⟩

/-- REVIVE of a POISONED counter, in a cluster that is not fenced, makes it fresh; of another one it is a SET. -/
theorem syncSetRevive_answers (hcode : bits p.param 234 2 = 3) (hopen : (clusterOf (applyWaiting s pid) (pidCluster pid)).syncFenced = false) :
    SetAnswered p s n pid c 3 (exec (.syncSetRevive p) s) := by
  have hslot64 : c.slot.toNat = n := by
    rw [hslot]
    exact Nat.mod_eq_of_lt (pktSlot_lt hn).1
  by_cases hp : c.state = .poisoned
  · refine ⟨setCounter (applyWaiting s pid) pid.toNat (counterSet 3 (BitVec.ofNat 64 (bits p.param 170 64)) _ _ c),
      ?_, tget_tput_eq _ _ _⟩
    show execSyncSetRevive p s = _
    refine syncSet_next hn h hrsv hvid hcode ?_
    simp only [hc, hp, hopen, hslot64, counterSet, ne_eq, not_true_eq_false, if_false, Bool.false_eq_true, if_true]
  · obtain ⟨u, hu, hcounter⟩ := fwReq_applies hn hc hslot (op := .set) (by decide) (by decide) (applyWaiting_ctxs s pid)
      (BitVec.ofNat 64 (bits p.param 170 64))
    refine ⟨u, ?_, by simpa [counterAfter, fwReq, counterSet, hp] using hcounter⟩
    show execSyncSetRevive p s = _
    refine syncSet_next hn h hrsv hvid hcode ?_
    simpa only [hc, hp, ne_eq, not_false_eq_true, if_true] using hu

end

/-! ### SYNC_ALLOC (R335) -/

theorem counterOf_setCounters (s : State) (pid : Nat) (k : Counter) (count i : Nat) (hi : i < count) :
    counterOf ((List.range count).foldl (fun t i => setCounter t (pid + i) k) s) (pid + i) = some k := by
  induction count with
  | zero => omega
  | succ count ih =>
    rw [List.range_succ, List.foldl_append, List.foldl_cons, List.foldl_nil]
    by_cases hlast : i = count
    · subst hlast
      exact tget_tput_eq _ _ _
    · exact (tget_tput_ne _ _ _ _ (by omega)).trans (ih (by omega))

/-- A counter as SYNC_ALLOC makes it. -/
def newCounter (s : State) (n : Nat) (w : BitVec 256) : Counter :=
  { count := saInit w, state := freshState s n, leased := saLeased w, owner := BitVec.ofNat 9 (saOwner w), slot := BitVec.ofNat 6 n,
    last := s.postmark, added := 0 }

/-- The state with the counters and the range that SYNC_ALLOC of a local range makes. -/
def allocated (s : State) (n : Nat) (w : BitVec 256) (pid : Nat) : State :=
  modBothSets ((List.range (saCount w)).foldl (fun t i => setCounter t (pid + i) (newCounter s n w)) s) fun c =>
    addRange c n (rangeEntry (saVbase w) (saCount w) false 0 pid)

section
variable {p : Packet} {s : State} {n : Nat} (h : Accepts p s) (hn : pktSlot s p = some n)
include h hn

theorem syncAlloc_next {pid : Nat} (hrsv : bits p.param 0 129 = 0) (hcluster : saCluster p.param < 16) (howner : saOwner p.param = 0x100)
    (hlocal : saRemote p.param = false) (hmod : saMod p.param = 0) (hpos : 0 < saCount p.param) (hmax : saCount p.param ≤ 4096)
    (htop : saVbase p.param + saCount p.param ≤ 2 ^ 20) (hcfg : rangesOf (cfgOf s) n = []) (hshadow : rangesOf (shadowOf s) n = [])
    (hopen : (clusterOf s (saCluster p.param)).syncFenced = false)
    (hrun : chooseRun s (saCluster p.param) (saCount p.param) = some pid) :
    exec (.syncAlloc p) s = .next (answer (allocated s n p.param pid) p 0x40 0 pid) := by
  have hfree : (freeIndex ([] : Table (BitVec 64)) 256).isNone = false := rfl
  have h1 : ¬ 16 < saCluster p.param := by omega
  have h2 : saCount p.param ≠ 0 := by omega
  have h3 : ¬ 4096 < saCount p.param := by omega
  have h4 : ¬ 1048576 < saVbase p.param + saCount p.param := by omega
  show execSyncAlloc p s = _
  rw [execSyncAlloc, ctxCommand_next _ h hn]
  simp [zeroBits_of hrsv, howner, hlocal, hmod, hcfg, hshadow, hopen, hrun, h1, h2, h3, h4, hfree, hcluster, allocated, newCounter]

end

theorem counterOf_allocated {s : State} {n pid i : Nat} {w : BitVec 256} (hi : i < saCount w) :
    counterOf (allocated s n w pid) (pid + i) = some (newCounter s n w) :=
  counterOf_setCounters s pid (newCounter s n w) (saCount w) i hi

/-! ### SYNC_RELEASE (R337) -/

/-- The state without the counters and the range `e` of slot `n`. -/
def released (s : State) (n : Nat) (e : BitVec 64) : State :=
  modBothSets (freeCounters s fun q => decide (rngPid e ≤ q ∧ q < rngPid e + rngCount e)) fun c => dropRange c n (rngBase e)

theorem counterOf_released {s : State} {n q : Nat} {e : BitVec 64} (hlo : rngPid e ≤ q) (hhi : q < rngPid e + rngCount e) :
    counterOf (released s n e) q = none :=
  lookup_filter_drop _ _ _ fun _ => by simp [hlo, hhi]

/-- The only range of the slot goes. -/
theorem rangesOf_released {s : State} {n : Nat} (hn : n < 64) {e : Nat × BitVec 64} (hone : rangesOf (cfgOf s) n = [e]) :
    rangesOf (cfgOf (released s n e.2)) n = [] := by
  have hfree : ∀ own, cfgOf (freeCounters s own) = cfgOf s := fun _ => rfl
  rw [released, cfgOf_modBothSets, hfree]
  change vget (vset _ n _) n [] = []
  rw [vget_vset_eq _ _ _ _ hn, hone]
  simp

section
variable {p : Packet} {s : State} {n : Nat} (h : Accepts p s) (hn : pktSlot s p = some n)
include h hn

theorem syncRelease_next {e : Nat × BitVec 64} (hone : rangesOf (cfgOf s) n = [e]) (hbase : rngBase e.2 = bits p.param 236 20)
    (hcount : rngCount e.2 = bits p.param 223 13) (hrsv : bits p.param 0 223 = 0) (hlocal : rngRemote e.2 = false)
    (hidle : rangeBusy s n (rngBase e.2) (rngCount e.2) (rngPid e.2) = false) :
    exec (.syncRelease p) s = .next (answer (released s n e.2) p 0x43 0 0) := by
  rw [hbase, hcount] at hidle
  show execSyncRelease p s = _
  rw [execSyncRelease, ctxCommand_next _ h hn]
  simp [hone, hbase, hcount, zeroBits_of hrsv, hlocal, hidle, released]

/-! ### SYNC_DUMP (R338) -/

/-- A dump is a record in host memory. -/
theorem syncDump_next (halign : bits p.param 192 64 % 64 = 0) (hcap : 128 ≤ bits p.param 160 32) (hrsv : bits p.param 0 127 = 0) :
    ∃ bs, exec (.syncDump p) s = .next (answer (hostRecord s (bits p.param 192 64) bs) p 0x42 0 0) := by
  show ∃ bs, execSyncDump p s = _
  rw [execSyncDump, ctxCommand_next _ h hn]
  simp only [halign, zeroBits_of hrsv, Nat.not_lt.mpr hcap, ne_eq, not_true_eq_false, Bool.not_true, Bool.false_eq_true, or_self, if_false]
  exact ⟨_, rfl⟩

end

theorem counters_of_unrecorded {s t : State} (h : unrecorded t = unrecorded s) : t.counters = s.counters := by
  change (unrecorded t).counters = (unrecorded s).counters
  rw [h]

theorem waiters_of_unrecorded {s t : State} (h : unrecorded t = unrecorded s) : t.waiters = s.waiters := by
  change (unrecorded t).waiters = (unrecorded s).waiters
  rw [h]

/-- Settles O10: each command is past its checks. That the operations that wait go first is the model's reading (log entry 30). -/
theorem counterCommandsAnswer : Obligations.CounterCommandsAnswer := by
  refine ⟨?set, fun p s n h hn => ⟨?alloc, ?release, ?dump⟩⟩
  case set =>
    intro p s n pid c h hn _ hrsv hvid s1 hc hslot v op
    have hop : op < 4 := (p.param.extractLsb' 234 2).isLt
    have hnext : ∀ k o, op = k → SetAnswered p s n pid c k o → ∃ u, o = .next (answer u p 0x41 0 0) ∧
        counterOf u pid.toNat = some (counterSet op v s1.postmark (freshState s1 n) c) := by
      rintro k o rfl ho
      exact ho
    have hcases : op = 0 ∨ op = 1 ∨ op = 2 ∨ op = 3 := by omega
    obtain hk | hk | hk | hk := hcases
    · obtain ⟨u, hexec, hcounter⟩ := hnext 0 _ hk (syncSetSet_answers hn hc hslot h hrsv hvid hk)
      exact ⟨_, u, fun _ => hexec, by simp [hk], by simp [hk], by simp [hk], rfl, hcounter⟩
    · obtain ⟨u, hexec, hcounter⟩ := hnext 1 _ hk (syncSetSignal_answers hn hc hslot h hrsv hvid hk)
      exact ⟨_, u, by simp [hk], fun _ => hexec, by simp [hk], by simp [hk], rfl, hcounter⟩
    · obtain ⟨u, hexec, hcounter⟩ := hnext 2 _ hk (syncSetPoison_answers hn hc hslot h hrsv hvid hk)
      exact ⟨_, u, by simp [hk], by simp [hk], fun _ => hexec, by simp [hk], rfl, hcounter⟩
    · by_cases hopen : (clusterOf s1 (pidCluster pid)).syncFenced = false
      · obtain ⟨u, hexec, hcounter⟩ := hnext 3 _ hk (syncSetRevive_answers hn hc hslot h hrsv hvid hk hopen)
        exact ⟨_, u, by simp [hk], by simp [hk], by simp [hk], fun _ _ => hexec, rfl, hcounter⟩
      · refine ⟨_, setCounter s1 pid.toNat (counterSet op v s1.postmark (freshState s1 n) c), by simp [hk], by simp [hk], by simp [hk],
          fun _ hfenced => absurd hfenced hopen, rfl, tget_tput_eq _ _ _⟩
  case alloc =>
    intro pid hrsv hcluster howner hlocal hmod hpos hmax htop hcfg hshadow hopen hrun
    exact ⟨_, syncAlloc_next h hn hrsv hcluster howner hlocal hmod hpos hmax htop hcfg hshadow hopen hrun,
      fun i hi => ⟨_, counterOf_allocated hi, rfl, rfl, rfl⟩⟩
  case release =>
    intro e hone hbase hcount hrsv hlocal hidle
    exact ⟨_, syncRelease_next h hn hone hbase hcount hrsv hlocal hidle, rangesOf_released (pktSlot_lt hn).1 hone,
      fun q hlo hhi => counterOf_released hlo hhi⟩
  case dump =>
    intro halign hcap hrsv
    obtain ⟨bs, hbs⟩ := syncDump_next h hn halign hcap hrsv
    exact ⟨_, hbs, counters_of_unrecorded (unrecorded_hostRecord s _ bs), waiters_of_unrecorded (unrecorded_hostRecord s _ bs)⟩

end Sys2Proof.Machine
end

section
/-! SUPPORT. What receipts, answers and log entries leave unchanged (spec/19 R368 to R377). -/

namespace Sys2Proof.Machine

/-- The state without what receipts, violations and notes change: rings, slots, interrupts, logs, and the memory and tables that a
receipt may lie in or a violation count in. -/
def unanswered (s : State) : State :=
  { s with fresh := 0, outbox := [], hstErr := 0, hstErrEvents := 0, rings := .ofFn fun n => Ring.init n.val, slots := [], msixPend := 0,
           dead := [], deadCount := 0, health := [], healthSeq := 0, ctxs := .replicate 64 CtxSlot.empty, hostMem := [], hostLines := [],
           lpddr := [], lines := [], cache := [] }

theorem ite_unanswered {c : Prop} [Decidable c] {a b s : State} (ha : unanswered a = unanswered s) (hb : unanswered b = unanswered s) :
    unanswered (if c then a else b) = unanswered s := by
  split
  · exact ha
  · exact hb

@[simp] theorem unanswered_modCtx (s : State) (n : Nat) (f : Ctx → Ctx) : unanswered (modCtx s n f) = unanswered s := rfl

@[simp] theorem unanswered_emit (s : State) (o : Output) : unanswered (emit s o) = unanswered s := rfl

@[simp] theorem unanswered_draw (s : State) : unanswered (draw s) = unanswered s := rfl

@[simp] theorem unanswered_logHealth (s : State) (cls source code ctx loc : Nat) :
    unanswered (logHealth s cls source code ctx loc) = unanswered s := by
  unfold logHealth
  split <;> simp only [unanswered]

@[simp] theorem unanswered_sendVector (s : State) (v : Nat) : unanswered (sendVector s v) = unanswered s := ite_unanswered rfl rfl

@[simp] theorem unanswered_setErr (s : State) (b : Nat) : unanswered (setErr s b) = unanswered s := unanswered_sendVector _ _

@[simp] theorem unanswered_deadLetter (s : State) (v : Violation) : unanswered (deadLetter s v) = unanswered s :=
  (unanswered_setErr _ 0).trans (by simp only [unanswered])

@[simp] theorem unanswered_countViolation (s : State) (n : Nat) : unanswered (countViolation s n) = unanswered s := rfl

/-! ### Where a receipt lies -/

theorem unanswered_lpWriteLine (s : State) (n line a : Nat) (bs : List Byte) : unanswered (lpWriteLine s n line a bs) = unanswered s := by
  unfold lpWriteLine
  exact ite_unanswered (unanswered_logHealth _ _ _ _ _ _) rfl

@[simp] theorem unanswered_lpWrite (s : State) (n a : Nat) (bs : List Byte) : unanswered (lpWrite s n a bs) = unanswered s :=
  foldl_keeps unanswered (fun _ _ => unanswered_lpWriteLine _ _ _ _ _) _ _

theorem unanswered_of_unrecorded {s t : State} (h : unrecorded t = unrecorded s) : unanswered t = unanswered s := by
  change unanswered (unrecorded t) = unanswered (unrecorded s)
  rw [h]

theorem unanswered_ringWrite {s t : State} {n off : Nat} {base : BitVec 64} {bs : List Byte} (h : ringWrite s n base off bs = some t) :
    unanswered t = unanswered s := by
  unfold ringWrite at h
  dsimp only at h
  split at h
  · split at h <;> cases h
    exact unanswered_lpWrite s n _ bs
  · split at h <;> cases h
    exact unanswered_of_unrecorded (unrecorded_hostWrite s _ bs)

/-! ### Receipts and answers -/

@[simp] theorem unanswered_writeReceipt (s : State) (n : Nat) (raw : BitVec 256) (notify : Bool) :
    unanswered (writeReceipt s n raw notify) = unanswered s := by
  unfold writeReceipt
  dsimp only
  split
  next t hwrite =>
    have ht : unanswered t = unanswered s := (unanswered_ringWrite hwrite).trans rfl
    exact ite_unanswered ((unanswered_sendVector _ _).trans ht) ht
  next =>
    refine ite_unanswered ?_ ?_
    · exact (unanswered_countViolation _ _).trans (unanswered_deadLetter _ _)
    · exact unanswered_deadLetter _ _

@[simp] theorem unanswered_pushReceipt (s : State) (n : Nat) (raw : BitVec 256) (notify : Bool) :
    unanswered (pushReceipt s n raw notify) = unanswered s := ite_unanswered rfl (unanswered_writeReceipt s n raw notify)

@[simp] theorem unanswered_eventReceipt (s : State) (n status detail : Nat) (tag : Word) :
    unanswered (eventReceipt s n status detail tag) = unanswered s := ite_unanswered (unanswered_pushReceipt s n _ true) rfl

@[simp] theorem unanswered_quarantine (s : State) (n : Nat) : unanswered (quarantine s n) = unanswered s :=
  ite_unanswered ((unanswered_eventReceipt _ _ _ _ _).trans (unanswered_setErr _ _)) rfl

theorem unanswered_hostViolation {reply : State → State} (hr : ∀ s, unanswered (reply s) = unanswered s) (s : State) (v : Violation) :
    unanswered (hostViolation s v reply) = unanswered s := by
  unfold hostViolation
  dsimp only
  split <;> simp [hr]

@[simp] theorem unanswered_answerD (s : State) (p : Packet) (op status detail : Nat) :
    unanswered (answerD s p op status detail) = unanswered s := by
  obtain ⟨v, hv⟩ := answerD_eq s p op status detail
  rw [hv, unanswered_draw]
  exact ite_unanswered (unanswered_hostViolation (fun t => unanswered_pushReceipt t _ _ _) s v) (unanswered_pushReceipt s _ _ _)

@[simp] theorem unanswered_answer (s : State) (p : Packet) (op status detail : Nat) :
    unanswered (answer s p op status detail) = unanswered s := unanswered_answerD s p op status _

end Sys2Proof.Machine
end

section
/-! SUPPORT. The alert causes (spec/23 R428, R429). -/

namespace Sys2Proof.Machine

/-- An In-Band Interrupt may leave the module; beside that the state is what `f` makes. -/
theorem alerting_emits (s : State) (f : State → State) : ∃ o, alerting s f = { f s with outbox := o } := by
  unfold alerting
  dsimp only
  split
  · exact ⟨_, rfl⟩
  · exact ⟨_, rfl⟩

theorem setAlert_emits {s : State} (h : vddAon s = true) (i : Nat) : ∃ o, setAlert s i = { setAlertBit s i with outbox := o } := by
  rw [setAlert, if_pos h]
  exact alerting_emits s _

theorem bit_or_two_pow {w : Nat} (x : BitVec w) {i : Nat} (h : i < w) : bit (x ||| BitVec.ofNat w (2 ^ i)) i = true := by
  rw [bit, BitVec.getLsbD_or, BitVec.getLsbD_ofNat, Nat.testBit_two_pow_self, decide_eq_true h, Bool.and_true, Bool.or_true]

theorem bit_or_left {w : Nat} {x : BitVec w} {i : Nat} (h : bit x i = true) (y : BitVec w) : bit (x ||| y) i = true := by
  simp only [bit] at h ⊢
  simp [h]

@[simp] theorem setAlertBit_bit (s : State) {i : Nat} (h : i < 8) : bit (setAlertBit s i).mgmt.alertW1c i = true := bit_or_two_pow _ h

theorem not_ready_of_stopped {s : State} (h : s.life.stopped = true) : ready s = false := by simp [ready, h]

/-- The firmware runs no command before READY, or once the module has stopped (log entry 6). -/
theorem firmware_not_ready {p : Packet} {s : State} (f : State → State) (hring : p.ring.toNat ≤ 64) (hr : ready s = false) :
    firmware p s f = .next s := by
  simp [firmware, Nat.not_lt.mpr hring, hr]

theorem nop_not_ready {p : Packet} {s : State} (hring : p.ring.toNat ≤ 64) (hr : ready s = false) : exec (.nop p) s = .next s := by
  show execNop p s = _
  exact firmware_not_ready _ hring hr

end Sys2Proof.Machine
end

section
/-! SUPPORT. Faults of class MODULE and hard faults (spec/18 R340; spec/03 R54; spec/11 R222; spec/21 R397). -/

namespace Sys2Proof.Machine

/-! ### Class MODULE -/

/-- An entry that is no corrected event is a new one. -/
theorem logHealth_healthSeq (s : State) {cls : Nat} (hcls : cls ≠ 1) (source code ctx loc : Nat) :
    (logHealth s cls source code ctx loc).healthSeq = s.healthSeq + 1 := by
  rw [logHealth, if_neg fun h => hcls h.1]

/-- The module stops, with its cause and an entry of the health log. -/
theorem moduleFault_stops {s : State} (h : vddAon s = true) : ready (moduleFault s) = false ∧
    bit (moduleFault s).mgmt.alertW1c 4 = true ∧ (moduleFault s).healthSeq = s.healthSeq + 1 := by
  have hseq := logHealth_healthSeq s (cls := 8) (by decide) 0xFFF 0 0xFFFF 0
  have hlife := logHealth_life s 8 0xFFF 0 0xFFFF 0
  unfold moduleFault
  generalize logHealth s 8 0xFFF 0 0xFFFF 0 = t at hseq hlife
  obtain ⟨o, ho⟩ := setAlert_emits (s := { t with life := { t.life with stopped := true }, timeOn := false })
    (by simpa only [vddAon, hlife] using h) 4
  rw [ho]
  exact ⟨not_ready_of_stopped rfl, setAlertBit_bit _ (by decide), hseq⟩

/-- Every event of class MODULE is a module fault of a state with the same health log. -/
theorem exec_moduleEvent {s : State} (hr : ready s = true) (haon : vddAon s = true) (hon : s.life.power ≠ .off) {i : Instr}
    (hi : i = .rootPllLockLoss ∨ i = .phyPllLockLoss ∨ i = .controlWatchdog ∨ i = .railTrip) :
    ∃ u, exec i s = .next (moduleFault u) ∧ vddAon u = true ∧ u.healthSeq = s.healthSeq := by
  have hrun : s.life.stopped = false := by
    simp only [ready, Bool.and_eq_true, Bool.not_eq_true'] at hr
    exact hr.2
  obtain rfl | rfl | rfl | rfl := hi
  · exact ⟨_, congrArg Host.Outcome.next (if_pos hr), haon, rfl⟩
  · exact ⟨_, congrArg Host.Outcome.next (if_pos hr), haon, rfl⟩
  · exact ⟨_, congrArg Host.Outcome.next (if_pos hr), haon, rfl⟩
  · exact ⟨_, congrArg Host.Outcome.next (if_neg (by simp [hon, hrun])), haon, rfl⟩

/-! ### Units that leave service -/

theorem retiredBanks_of_unanswered {s t : State} (h : unanswered t = unanswered s) : t.retiredBanks = s.retiredBanks := by
  change (unanswered t).retiredBanks = (unanswered s).retiredBanks
  rw [h]

theorem pipes_of_unanswered {s t : State} (h : unanswered t = unanswered s) : t.pipes = s.pipes := by
  change (unanswered t).pipes = (unanswered s).pipes
  rw [h]

theorem unanswered_tellBinders (s : State) (o : Obj) (msg : BitVec 14 → Output) : unanswered (tellBinders s o msg) = unanswered s :=
  foldl_keeps unanswered (fun t m => unanswered_emit t (msg m)) _ s

theorem unanswered_migrationBack (s : State) (n id : Nat) (o : Obj) (m : Migration) (status : Nat) :
    unanswered (migrationBack s n id o m status) = unanswered s :=
  (unanswered_answer _ _ _ _ _).trans (unanswered_tellBinders _ _ _)

theorem retireBank_retires (s : State) (b : BitVec 6) : b ∈ (retireBank s b.toNat).retiredBanks := by
  unfold retireBank
  split
  next hold =>
    obtain ⟨x, hx, heq⟩ := List.any_eq_true.mp hold
    rwa [← BitVec.eq_of_toNat_eq (beq_iff_eq.mp heq)]
  next =>
    dsimp only
    rw [retiredBanks_of_unanswered (foldl_keeps unanswered (fun t h => ?step) _ _), retiredBanks_of_unanswered (unanswered_logHealth _ _ _ _ _ _)]
    · exact List.mem_append_right _ (by simp)
    case step =>
      split
      · refine (unanswered_modCtx _ _ _).trans ?_
        split
        · exact unanswered_migrationBack t _ _ _ _ _
        · rfl
      · rfl

theorem unanswered_endJob (s : State) (j : VideoJob) (status detail : Nat) : unanswered (endJob s j status detail) = unanswered s :=
  unanswered_answerD s _ _ _ _

theorem retirePipe_retires (s : State) {k : Nat} (hk : k < 6) : (pipeOf (retirePipe s k) k).retired = true := by
  have hpipes : (retirePipe s k).pipes =
      (modPipe s k fun x => { x with queue := [], running := none, stopAt := none, retired := true }).pipes := by
    unfold retirePipe
    refine pipes_of_unanswered ((foldl_keeps unanswered (fun t j => unanswered_endJob t j _ _) _ _).trans ?_)
    split
    · exact unanswered_endJob _ _ _ _
    · rfl
  rw [pipeOf, hpipes]
  exact congrArg VideoPipe.retired (pipeOf_modPipe s k _ hk)

section
variable {s : State} (hr : ready s = true)
include hr

theorem unitHardFault_cluster {k : BitVec 4} (hopen : (clusterOf s k.toNat).syncFenced = false) {u : HardUnit}
    (hu : u = .kid k ∨ u = .walker k ∨ u = .codec k ∨ u = .sync k ∨ u = .storePort k) :
    exec (.unitHardFault u) s = .next (fenceCluster s k.toNat) := by
  show execUnitHardFault u s = _
  obtain rfl | rfl | rfl | rfl | rfl := hu <;> simp [execUnitHardFault, hr, hopen]

theorem unitHardFault_bank (b : BitVec 6) : exec (.unitHardFault (.bank b)) s = .next (retireBank s b.toNat) := by
  show execUnitHardFault (.bank b) s = _
  simp [execUnitHardFault, hr]

theorem unitHardFault_video {v : BitVec 3} (hv : v.toNat < 6) : exec (.unitHardFault (.video v)) s =
    .next (if (pipeOf s v.toNat).retired then s else videoFault s v.toNat) := by
  show execUnitHardFault (.video v) s = _
  simp [execUnitHardFault, hr, Nat.not_le.mpr hv]

theorem unitHardFault_port {k : BitVec 4} (hin : (portOf s k.toNat).unitsOut = false) {u : HardUnit}
    (hu : u = .router k ∨ u = .reduce k ∨ u = .update k) : exec (.unitHardFault u) s = .next (portUnitFault s k.toNat) := by
  show execUnitHardFault u s = _
  obtain rfl | rfl | rfl := hu <;> simp [execUnitHardFault, hr, hin]

end

theorem failStart_emits (s : State) (code : Nat) : ∃ o, failStart s code = { s with
    life := { s.life with phase := .failed, failCode := BitVec.ofNat 8 code }, timeOn := false, outbox := o } :=
  alerting_emits s _

theorem muxHung_fails {s : State} (hin : inPhase s .clocks = true) (d : ClkDomain) :
    exec (.muxHung d) s = .next (failStart s 0x13) := by
  show execMuxHung d s = _
  simp [execMuxHung, hin]

/-- Settles O21: the four events stop the module alike, each unit leaves service by its kind, and a hung multiplexer in phase CLOCKS is
a failed start. What a MODULE fault stops is the model's reading (log entries 6 and 104). -/
theorem faultsStopUnits : Obligations.FaultsStopUnits := by
  refine ⟨fun s hr haon hon i hi => ?module, fun s k b v => ⟨fun hr => ⟨fun hopen u hu => unitHardFault_cluster hr hopen hu,
    ⟨_, unitHardFault_bank hr b, retireBank_retires s b⟩, fun hv => ⟨_, unitHardFault_video hr hv, ?video⟩,
    fun hin u hu => unitHardFault_port hr hin hu⟩, fun d hin => ⟨_, muxHung_fails hin d, ?mux⟩⟩⟩
  case module =>
    obtain ⟨u, hexec, hu, hseq⟩ := exec_moduleEvent hr haon hon hi
    obtain ⟨hstop, hcause, hlog⟩ := moduleFault_stops hu
    exact ⟨_, hexec, hstop, hcause, hseq ▸ hlog, fun p hring => nop_not_ready hring hstop⟩
  case video =>
    split
    next hout => exact hout
    next => exact retirePipe_retires _ hv
  case mux =>
    obtain ⟨o, ho⟩ := failStart_emits s 0x13
    rw [ho]
    exact ⟨rfl, rfl⟩

end Sys2Proof.Machine
end

section
/-! SUPPORT. Bit fields of packed words. -/

namespace Sys2Proof.Machine

theorem bits_eq {w : Nat} (x : BitVec w) (lo len : Nat) : bits x lo len = x.toNat / 2 ^ lo % 2 ^ len := by
  simp [bits, BitVec.extractLsb'_toNat, Nat.shiftRight_eq_div_pow]

theorem bits_lt {w : Nat} (x : BitVec w) (lo len : Nat) : bits x lo len < 2 ^ len := (x.extractLsb' lo len).isLt

theorem bits_ofNat {w lo len : Nat} (x : Nat) (h : lo + len ≤ w) : bits (BitVec.ofNat w x) lo len = x / 2 ^ lo % 2 ^ len := by
  obtain ⟨k, rfl⟩ := Nat.exists_eq_add_of_le h
  rw [bits_eq, BitVec.toNat_ofNat, pow_add, pow_add, mul_assoc, Nat.mod_mul_right_div_self, Nat.mod_mul_right_mod]

end Sys2Proof.Machine
end

section
/-! SUPPORT. The risk monitor (spec/18 R353, R354). -/

namespace Sys2Proof.Machine

/-! ### Ring 64 belongs to no context -/

theorem ite_ctxs {c : Prop} [Decidable c] {a b s : State} (ha : a.ctxs = s.ctxs) (hb : b.ctxs = s.ctxs) :
    (if c then a else b).ctxs = s.ctxs := by
  split
  · exact ha
  · exact hb

theorem sendVector_ctxs (s : State) (v : Nat) : (sendVector s v).ctxs = s.ctxs := ite_ctxs rfl rfl

theorem deadLetter_ctxs (s : State) (v : Violation) : (deadLetter s v).ctxs = s.ctxs := by
  unfold deadLetter setErr
  rw [sendVector_ctxs]

theorem writeReceipt_ctxs (s : State) {n : Nat} (hn : 64 ≤ n) (raw : BitVec 256) (notify : Bool) :
    (writeReceipt s n raw notify).ctxs = s.ctxs := by
  unfold writeReceipt
  dsimp only
  split
  next t hwrite =>
    have ht : t.ctxs = s.ctxs := (sameUnits_ringWrite hwrite).ctxs.trans rfl
    exact ite_ctxs ((sendVector_ctxs _ _).trans ht) ht
  next =>
    rw [if_neg (Nat.not_lt.mpr hn), deadLetter_ctxs]
    rfl

theorem pushReceipt_ctxs (s : State) {n : Nat} (hn : 64 ≤ n) (raw : BitVec 256) (notify : Bool) :
    (pushReceipt s n raw notify).ctxs = s.ctxs := ite_ctxs rfl (writeReceipt_ctxs s hn raw notify)

theorem eventReceipt_ctxs (s : State) {n : Nat} (hn : 64 ≤ n) (status detail : Nat) (tag : Word) :
    (eventReceipt s n status detail tag).ctxs = s.ctxs := ite_ctxs (pushReceipt_ctxs s hn _ true) rfl

/-! ### Every context is due to be secured -/

/-- The context in slot `n`, if there is one, is due to be secured. -/
def DueAt (s : State) (n : Nat) : Prop := ∀ c, ctxOf s n = some c → c.secureDue = true

/-- The state with every context due to be secured. -/
def allDue (s : State) : State := (List.range 64).foldl (fun s n => modCtx s n fun c => { c with secureDue := true }) s

theorem dueAt_modCtx (s : State) (n : Nat) : DueAt (modCtx s n fun c => { c with secureDue := true }) n := by
  intro c hc
  rw [ctxOf_modCtx] at hc
  obtain ⟨d, -, rfl⟩ := Option.map_eq_some_iff.mp hc
  rfl

theorem DueAt.modCtx {s : State} {n : Nat} (h : DueAt s n) (m : Nat) : DueAt (modCtx s m fun c => { c with secureDue := true }) n := by
  by_cases hm : n = m
  · exact hm ▸ dueAt_modCtx s m
  · intro c hc
    rw [ctxOf_modCtx_ne _ _ _ _ hm] at hc
    exact h c hc

theorem dueAt_allDue (s : State) (n : Nat) : DueAt (allDue s) n := by
  have hfold : ∀ (l : List Nat) (t : State), DueAt t n ∨ n ∈ l →
      DueAt (l.foldl (fun s n => modCtx s n fun c => { c with secureDue := true }) t) n := by
    intro l
    induction l with
    | nil => exact fun t h => h.resolve_right List.not_mem_nil
    | cons m l ih =>
      intro t h
      refine ih _ ?_
      obtain hdue | hmem := h
      · exact .inl (hdue.modCtx m)
      · obtain rfl | hmem := List.mem_cons.mp hmem
        · exact .inl (dueAt_modCtx t n)
        · exact .inr hmem
  intro c hc
  exact hfold _ s (.inr (List.mem_range.mpr (lt_of_ctxOf _ hc))) c hc

/-! ### RISK_COMPUTE -/

theorem riskScore_of_unanswered {s t : State} (h : unanswered t = unanswered s) : t.riskScore = s.riskScore := by
  change (unanswered t).riskScore = (unanswered s).riskScore
  rw [h]

/-- The effects of a level leave the score. -/
@[simp] theorem levelEffects_riskScore (s : State) (old new : Nat) : (levelEffects s old new).riskScore = s.riskScore := by
  have hdue : (allDue s).riskScore = s.riskScore := foldl_keeps State.riskScore (fun t n => modCtx_riskScore t n _) _ s
  have hevent : ∀ status detail, (eventReceipt (allDue s) 64 status detail 0).riskScore = s.riskScore := fun status detail =>
    (riskScore_of_unanswered (unanswered_eventReceipt _ _ _ _ _)).trans hdue
  unfold levelEffects
  dsimp only
  split
  · split
    · exact hevent _ _
    · rfl
  · split
    · exact hevent _ _
    · rfl

/-- From below 2 to 3, the module drains and every context is due to be secured. -/
theorem levelEffects_drain (s : State) {old : Nat} (hlow : old < 2) :
    (levelEffects s old 3).draining = true ∧ ∀ n, DueAt (levelEffects s old 3) n := by
  have hlt : old < 3 := by omega
  have heff : levelEffects s old 3 = { eventReceipt (allDue s) 64 (Config.eventStatus 0).toNat (Config.eventDetail 0).toNat 0 with
      draining := true } := by
    simp only [levelEffects, hlow, hlt, show (2 : Nat) ≤ 3 by decide, and_self, if_true]
    rfl
  have hctxs : (levelEffects s old 3).ctxs = (allDue s).ctxs := by
    rw [heff]
    exact eventReceipt_ctxs (allDue s) (Nat.le_refl 64) _ _ _
  refine ⟨by rw [heff], fun n c hc => dueAt_allDue s n c ?_⟩
  rwa [← ctxOf_of_ctxs hctxs]

theorem nextLevel_le (level score elev secure drain : Nat) : nextLevel level score elev secure drain ≤ 3 := by
  unfold nextLevel
  split_ifs <;> omega

theorem nextLevel_drain (level elev secure : Nat) {score drain : Nat} (h : drain ≤ score) : nextLevel level score elev secure drain = 3 :=
  if_pos h

/-- The term with the greatest value is one of 13. -/
theorem riskTop_lt (s : State) : riskTop s < 256 := by
  have hfold : ∀ (l : List (Nat × Nat)) (best : Nat × Nat), (∀ x ∈ l, x.2 < 13) → best.2 < 13 →
      (l.foldl (fun best x => if best.1 < x.1 then x else best) best).2 < 13 := by
    intro l
    induction l with
    | nil => exact fun best _ h => h
    | cons x l ih =>
      intro best hl hbest
      refine ih _ (fun y hy => hl y (List.mem_cons_of_mem x hy)) ?_
      dsimp only
      split
      · exact hl x List.mem_cons_self
      · exact hbest
  have hlen : (riskTerms s).length = 13 := by simp [riskTerms]
  have htop : riskTop s < 13 := by
    refine hfold _ _ (fun x hx => ?_) (show 0 < 13 by decide)
    have := (List.mem_zipIdx' hx).1
    omega
  omega

theorem riskSum_le (s : State) : riskSum s ≤ 255 := Nat.min_le_left _ _

/-- The word RSK_SCORE (Table 18.8). -/
def riskWord (score level top : Nat) (drained : Bool) : BitVec 64 :=
  BitVec.ofNat 64 (pack [(8, score), (2, level), (1, b2n drained), (5, 0), (8, top)])

theorem riskWord_fields {score level top : Nat} (drained : Bool) (hscore : score < 256) (hlevel : level < 4) (htop : top < 256) :
    bits (riskWord score level top drained) 0 8 = score ∧ bits (riskWord score level top drained) 8 2 = level ∧
      bits (riskWord score level top drained) 16 8 = top := by
  have hb : b2n drained ≤ 1 := by cases drained <;> decide
  simp only [riskWord, bits_ofNat _ (show 0 + 8 ≤ 64 by decide), bits_ofNat _ (show 8 + 2 ≤ 64 by decide),
    bits_ofNat _ (show 16 + 8 ≤ 64 by decide), pack]
  omega

/-- The state with its score written: an event that weighs nothing any more goes. -/
def scored (score level : Nat) (s : State) : State :=
  { s with riskEvents := s.riskEvents.filter (fun e => 0 < weightNow s e), riskScore := riskWord score level (riskTop s) (drainedNow s) }

/-- The level that a computation leaves. -/
def levelNow (s : State) : Nat :=
  nextLevel (riskLevel s) (riskSum s) (bits (cfgOf s).risk 16 8) (bits (cfgOf s).risk 8 8) (bits (cfgOf s).risk 0 8)

theorem riskCompute_next {s : State} (hr : ready s = true) : exec .riskCompute s =
    .next (levelEffects (alerting s (scored (riskSum s) (levelNow s))) (riskLevel s) (levelNow s)) := by
  show execRiskCompute s = _
  rw [execRiskCompute, hr]
  rfl

theorem alerting_riskScore (s : State) (f : State → State) : (alerting s f).riskScore = (f s).riskScore := by
  obtain ⟨o, ho⟩ := alerting_emits s f
  rw [ho]

/-- Settles O29: the word holds the score, the level and the greatest term, and the level's effects leave it. The halving of event terms
is the model's reading (log entry 86). -/
theorem riskIsComputed : Obligations.RiskIsComputed := by
  intro s hr
  have hsum : riskSum s < 256 := Nat.lt_succ_of_le (riskSum_le s)
  have hlevel : levelNow s < 4 := Nat.lt_succ_of_le (nextLevel_le _ _ _ _ _)
  obtain ⟨hscore, hlev, htop⟩ := riskWord_fields (drainedNow s) hsum hlevel (riskTop_lt s)
  have hword : (levelEffects (alerting s (scored (riskSum s) (levelNow s))) (riskLevel s) (levelNow s)).riskScore =
      riskWord (riskSum s) (levelNow s) (riskTop s) (drainedNow s) := (levelEffects_riskScore _ _ _).trans (alerting_riskScore s _)
  refine ⟨_, riskCompute_next hr, hword ▸ hscore, hword ▸ htop, fun hdrain => ?_⟩
  have h3 : levelNow s = 3 := nextLevel_drain _ _ _ hdrain
  refine ⟨by rw [riskLevel, hword, hlev, h3], fun hlow => ?_⟩
  rw [h3]
  exact levelEffects_drain _ hlow

end Sys2Proof.Machine
end

section
/-! SUPPORT. Fields that are replaced in a word. -/

namespace Sys2Proof.Machine

theorem bit_putBits {w : Nat} (x : BitVec w) (lo len v : Nat) {i : Nat} (hi : i < w) :
    bit (putBits x lo len v) i = if lo ≤ i ∧ i < lo + len then v.testBit (i - lo) else bit x i := by
  have hmask : ((2 ^ len - 1) * 2 ^ lo).testBit i = decide (lo ≤ i ∧ i < lo + len) := by
    rw [Nat.testBit_mul_two_pow, Nat.testBit_two_pow_sub_one, Bool.decide_and]
    by_cases hlo : lo ≤ i <;> simp [hlo]
    omega
  have hnew : (v % 2 ^ len * 2 ^ lo).testBit i = (decide (lo ≤ i ∧ i < lo + len) && v.testBit (i - lo)) := by
    rw [Nat.testBit_mul_two_pow, Nat.testBit_mod_two_pow, Bool.decide_and, Bool.and_assoc]
    by_cases hlo : lo ≤ i
    · have hlt : i - lo < len ↔ i < lo + len := by omega
      simp [hlo, hlt]
    · simp [hlo]
  rw [bit, putBits, BitVec.getLsbD_or, BitVec.getLsbD_and, BitVec.getLsbD_not, BitVec.getLsbD_ofNat, BitVec.getLsbD_ofNat, hmask, hnew]
  by_cases hin : lo ≤ i ∧ i < lo + len
  · simp [hin, hi]
  · simp [hin, hi, bit]

theorem bit_putBits_same {w : Nat} (x : BitVec w) {i : Nat} (hi : i < w) (b : Bool) : bit (putBits x i 1 (b2n b)) i = b := by
  rw [bit_putBits x i 1 _ hi, if_pos ⟨Nat.le_refl i, Nat.lt_succ_self i⟩, Nat.sub_self]
  cases b <;> rfl

theorem bit_putBits_other {w : Nat} (x : BitVec w) (lo len v : Nat) {i : Nat} (hi : i < w) (hout : i < lo ∨ lo + len ≤ i) :
    bit (putBits x lo len v) i = bit x i := by
  rw [bit_putBits x lo len v hi, if_neg (by omega)]

/-- A field reads as what was put into it. -/
theorem bits_putBits_same {w : Nat} (x : BitVec w) {lo len : Nat} (v : Nat) (h : lo + len ≤ w) :
    bits (putBits x lo len v) lo len = v % 2 ^ len := by
  refine Nat.eq_of_testBit_eq fun i => ?_
  rw [bits, BitVec.testBit_toNat, BitVec.getLsbD_extractLsb', Nat.testBit_mod_two_pow]
  by_cases hi : i < len
  · have hbit := bit_putBits x lo len v (i := lo + i) (by omega)
    rw [bit, if_pos (by omega), Nat.add_sub_cancel_left] at hbit
    rw [hbit]
  · simp [hi]

end Sys2Proof.Machine
end

section
/-! SUPPORT. SECURE_NOW, draining and RESTANTE_COLLECT (spec/18 R349, R355, R356). -/

namespace Sys2Proof.Machine

section
variable {p : Packet} {s : State} {op : Nat} (hrsv : bits p.param 0 254 = 0) (hop : bits p.param 254 2 = op)
include hrsv hop

theorem secureOp_runs (f : State → State) : secureOp p op s f = f s := by
  simp [secureOp, hop, zeroBits_of hrsv]

end

section
variable {p : Packet} {s : State} (hrsv : bits p.param 0 254 = 0)
include hrsv

theorem secureNowTake_waits {n : Nat} {c : Ctx} (h : Accepts p s) (hn : pktSlot s p = some n) (hc : ctxOf s n = some c)
    (hop : bits p.param 254 2 = 0) (hgathers : gathersOf c ≠ []) (hobj : securedObj s n ≠ 0) : exec (.secureNowTake p) s =
      .next (modCtx (draw s) n fun c => { c with securePkts := c.securePkts ++ [p] }) := by
  show execSecureNowTake p s = _
  rw [execSecureNowTake, ctxCommand_next _ h hn, secureOp_runs hrsv hop]
  simp [hc, hgathers, hobj]

variable (hring : p.ring = 64) (hr : ready s = true)
include hring hr

theorem secureNowDrain_next (hop : bits p.param 254 2 = 1) :
    exec (.secureNowDrain p) s = .next (answer { s with draining := true } p 0x81 0 0) := by
  show execSecureNowDrain p s = _
  rw [execSecureNowDrain, mgmtCommand_next _ hring hr, secureOp_runs hrsv hop]

theorem secureNowUndrain_next (hop : bits p.param 254 2 = 2) (hlow : riskNow s < riskElev s) : exec (.secureNowUndrain p) s =
    .next (answer { s with draining := false, riskScore := putBits s.riskScore 10 1 0 } p 0x81 0 0) := by
  show execSecureNowUndrain p s = _
  rw [execSecureNowUndrain, mgmtCommand_next _ hring hr, secureOp_runs hrsv hop, if_neg (Nat.not_le.mpr hlow)]

end

theorem numsBelow_eq_nil {n : Nat} {p : Nat → Bool} (h : ∀ i, i < n → p i = false) : numsBelow n p = [] :=
  List.filter_eq_nil_iff.mpr fun i hi => by simp [h i (List.mem_range.mp hi)]

/-- The drain ends once no step is open: LEAVE is sent, RSK_SCORE.drained is set and the host is told. -/
theorem drainComplete_next {s : State} (hr : ready s = true) (hdrain : s.draining = true) (hnew : drainedNow s = false)
    (hidle : ∀ m c, m < 64 → ctxOf s m = some c → c.stepOpen = false) : exec .drainComplete s =
      .next (eventReceipt { sendLeaves s with riskScore := putBits (sendLeaves s).riskScore 10 1 1 } 64 (Config.eventStatus 1).toNat
        (Config.eventDetail 1).toNat 0) := by
  show execDrainComplete s = _
  rw [execDrainComplete, numsBelow_eq_nil fun n hn => ?closed]
  · simp [hr, hdrain, hnew]
  case closed =>
    cases hc : ctxOf s n with
    | none => rfl
    | some c => exact hidle n c hn hc

/-- A collection of this module's committed part writes what it reads into the destination. -/
theorem restanteCollect_here {p : Packet} {s : State} {n : Nat} {c : Ctx} {dst : Obj} {rd : Rd} (h : Accepts p s)
    (hn : pktSlot s p = some n) (hc : ctxOf s n = some c) (hdst : objOf s n (rcDst p.param) = some dst) (hok : collectBad s n c p = false)
    (hfree : planNames s n (rcDst p.param) = false) (hopen : isFenced s n (rcDst p.param) = false)
    (hhere : s.modId = some (rcSrc p.param)) (hpart : rcSatchel p.param = false)
    (hread : readObjAt s n (partObj c (groupRecord s n (rcGroup p.param)) (rcPart p.param)) 0
      (objSize s n (partObj c (groupRecord s n (rcGroup p.param)) (rcPart p.param))) = some rd) (hgood : rd.bad = []) :
    exec (.restanteCollect p) s = .next (answer (writeObj s n dst 0 rd.bytes) p 0x82 0 (committedStep c % 2 ^ 16)) := by
  show execRestanteCollect p s = _
  rw [execRestanteCollect, ctxCommand_next _ h hn]
  simp [hc, hdst, hok, hfree, hopen, hhere, collectHere, hpart, hread, hgood]

/-- Settles O30: each packet is past its checks, and the end of a drain sets its bit. The collection of a local part rests on log entry
85. -/
theorem securedStateCommandsAnswer : Obligations.SecuredStateCommandsAnswer := by
  intro p s n c
  refine ⟨fun h hn hc hrsv hop hgathers hobj => secureNowTake_waits hrsv h hn hc hop hgathers hobj,
    fun hring hr hrsv => ⟨secureNowDrain_next hrsv hring hr, fun hop hlow => ⟨_, secureNowUndrain_next hrsv hring hr hop hlow, rfl, ?undrain⟩⟩,
    fun hr hdrain hnew hidle => ⟨_, drainComplete_next hr hdrain hnew hidle, ?drained⟩,
    fun dst rd h hn hc hdst hok hfree hopen hhere hpart hread hgood =>
      restanteCollect_here h hn hc hdst hok hfree hopen hhere hpart hread hgood⟩
  case undrain => exact bit_putBits_same s.riskScore (by decide) false
  case drained =>
    rw [riskScore_of_unanswered (unanswered_eventReceipt _ _ _ _ _)]
    exact bit_putBits_same (sendLeaves s).riskScore (by decide) true

end Sys2Proof.Machine
end

section
/-! SUPPORT. Power and resets (spec/22 R413, R419, R420; spec/23 R425). -/

namespace Sys2Proof.Machine

/-! ### What a wipe leaves -/

theorem ctxOf_wipe (s : State) (keep : Bool) (n : Nat) : ctxOf (wipe s keep) n = none := by
  change (vget (s.ctxs.map (resetSlot keep)) n CtxSlot.empty).ctx = none
  by_cases hn : n < 64
  · cases keep <;> simp [vget, hn, resetSlot, CtxSlot.empty]
  · simp [vget, hn, CtxSlot.empty]

theorem ringOf_wipe (s : State) (keep : Bool) {n : Nat} (h : n < 65) : ringOf (wipe s keep) n = Ring.init n := ringOf_reset h

/-! ### Power (spec/21 Table 21.5) -/

section
variable {s : State} {id : BitVec 6}

theorem auxPowerGood_next (h : s.life.auxGood = false) :
    exec (.auxPowerGood id) s = .next { s with life := { s.life with auxGood := true, slotId := id } } := by
  show execAuxPowerGood id s = _
  rw [execAuxPowerGood, h]
  rfl

theorem auxPowerLoss_next (h : s.life.auxGood = true) : exec .auxPowerLoss s =
    .next { powerDown s with mgmt := .init, life := { (powerDown s).life with auxGood := false } } := by
  show execAuxPowerLoss s = _
  rw [execAuxPowerLoss, h]
  rfl

theorem powerOff_next (h : s.life.auxGood = true) : exec .powerOff s = .next (powerDown s) := by
  show execPowerOff s = _
  rw [execPowerOff, if_pos h]

/-- The hold of a reset ends where both reset inputs are deasserted. -/
theorem releaseReset_starts (hhold : s.life.power = .resetHold) (hmod : s.life.modResetLow = false) (hperst : s.life.perstLow = false) :
    releaseReset s = { s with life := { s.life with power := .start, phase := .power, failCode := 0 } } := by
  simp [releaseReset, hhold, hmod, hperst]

theorem powerOn_next (hgood : s.life.auxGood = true) (hoff : s.life.pwrEn = false) (hmod : s.life.modResetLow = false)
    (hperst : s.life.perstLow = false) : exec (.powerOn id) s = .next { powerDown s with
      life := { (powerDown s).life with power := .start, pwrEn := true, slotId := id, phase := .power, failCode := 0 } } := by
  show execPowerOn id s = _
  rw [execPowerOn, hgood, hoff]
  exact congrArg Host.Outcome.next (releaseReset_starts rfl hmod hperst)

/-! ### Warm resets -/

theorem setPin_life_other (pin : ResetPin) (low : Bool) : (setPin s pin low).life.power = s.life.power ∧
    (setPin s pin low).life.keepMem = s.life.keepMem ∧ (setPin s pin low).life.memInitDone = s.life.memInitDone ∧
    (setPin s pin low).lpddr = s.lpddr := by
  cases pin <;> exact ⟨rfl, rfl, rfl, rfl⟩

theorem warmReset_holds (hon : s.life.power ≠ .off) (hrun : s.life.power ≠ .resetHold) :
    let keep := s.life.keepMem && s.life.memInitDone
    warmReset s = { wipe s keep with life := { (wipe s keep).life with power := .resetHold, memKept := keep, keeping := keep } } := by
  simp only [warmReset, hon, hrun, or_self, if_false]

theorem warmResetRelease_next {pin : ResetPin} (hhold : s.life.power = .resetHold) (hmod : s.life.modResetLow = false ∨ pin = .modResetN)
    (hperst : s.life.perstLow = false ∨ pin = .perstN) : exec (.warmResetRelease pin) s = .next { setPin s pin false with
      life := { (setPin s pin false).life with power := .start, phase := .power, failCode := 0 } } := by
  show execWarmResetRelease pin s = _
  rw [execWarmResetRelease]
  refine congrArg Host.Outcome.next (releaseReset_starts ((setPin_life_other pin false).1.trans hhold) ?_ ?_)
  · cases pin with
    | modResetN => rfl
    | perstN => exact hmod.resolve_right (by decide)
  · cases pin with
    | modResetN => exact hperst.resolve_right (by decide)
    | perstN => rfl

end

/-- Settles O22: every event that ends the module's work leaves what a wipe leaves, and start-up begins once no reset input holds it.
What the resets keep and ignore is in part the model's reading (log entries 9, 104 and 106). -/
theorem powerAndResetsAct : Obligations.PowerAndResetsAct := by
  intro s id pin
  refine ⟨fun h => ⟨_, auxPowerGood_next h, rfl, rfl⟩, fun h => ⟨_, auxPowerLoss_next h, rfl, rfl, rfl, rfl, rfl⟩,
    fun hgood hoff hmod hperst => ⟨_, powerOn_next hgood hoff hmod hperst, rfl, rfl, rfl, rfl, rfl, rfl, rfl, rfl, rfl, ?ctxs, ?rings⟩,
    fun h => ⟨_, powerOff_next h, rfl, rfl, rfl⟩, fun hon hrun => ?assert,
    fun hhold hmod hperst => ⟨_, warmResetRelease_next hhold hmod hperst, rfl, rfl⟩⟩
  case ctxs => exact fun n _ => ctxOf_wipe s false n
  case rings => exact fun n hn => ringOf_wipe s false hn
  case assert =>
    obtain ⟨hpower, hkeep, hinit, hmem⟩ := setPin_life_other (s := s) pin true
    have hreset := warmReset_holds (s := setPin s pin true) (hpower ▸ hon) (hpower ▸ hrun)
    rw [hkeep, hinit] at hreset
    refine ⟨_, rfl, ?_⟩
    rw [hreset]
    exact ⟨rfl, fun n _ => ctxOf_wipe _ _ n, hmem ▸ rfl, rfl⟩

end Sys2Proof.Machine
end

section
/-! SUPPORT. Start-up (spec/21 R392, R393; spec/22 R413 to R418). -/

namespace Sys2Proof.Machine

/-! ### The oscillator and the PLLs -/

section
variable {s : State} (h : clocksStart s = true)
include h

theorem xoAmplitudeDetect_next (b : Bool) :
    exec (.xoAmplitudeDetect b) s = .next { s with life := { s.life with xoSwing := b } } := by
  show execXoAmplitudeDetect b s = _
  rw [execXoAmplitudeDetect, if_pos h]

theorem xoStable_next (hswing : s.life.xoSwing = true) : exec .xoStable s = .next { s with life := { s.life with xoStable := true } } := by
  show execXoStable s = _
  simp [execXoStable, h, hswing]

theorem xoTimeout_fails (hlate : s.life.xoStable = false) : exec .xoTimeout s = .next (failStart s 0x11) := by
  show execXoTimeout s = _
  simp [execXoTimeout, h, hlate]

theorem pllLock_next (hstable : s.life.xoStable = true) :
    exec .pllLock s = .next { s with life := { s.life with pllLocked := true } } := by
  show execPllLock s = _
  simp [execPllLock, h, hstable]

theorem pllLockTimeout_fails (hstable : s.life.xoStable = true) (hlate : s.life.pllLocked = false) :
    exec .pllLockTimeout s = .next (failStart s 0x12) := by
  show execPllLockTimeout s = _
  simp [execPllLockTimeout, h, hstable, hlate]

end

theorem failStart_fails (s : State) (code : Nat) : (failStart s code).life.phase = .failed ∧
    (failStart s code).life.failCode = BitVec.ofNat 8 code ∧ (failStart s code).timeOn = false := by
  obtain ⟨o, ho⟩ := failStart_emits s code
  rw [ho]
  exact ⟨rfl, rfl, rfl⟩

/-! ### Phases -/

section
variable {s : State} (h : starting s = true)
include h

theorem startPhaseComplete_next (r : PhaseResult) : exec (.startPhaseComplete r) s = .next (endPhase s r) := by
  show execStartPhaseComplete r s = _
  rw [execStartPhaseComplete, if_pos h]

theorem phaseTimeout_fails : exec .phaseTimeout s = .next (failStart s (16 * phaseCode s.life.phase + 15)) := by
  show execPhaseTimeout s = _
  rw [execPhaseTimeout, if_pos h]

theorem not_stopped_of_starting : s.life.stopped = false := by
  simp only [starting, Bool.and_eq_true, Bool.not_eq_true'] at h
  exact h.1.2

end

section
variable {s : State} {r : PhaseResult} (hgood : r.cause = 0)
include hgood

theorem endPhase_power (hph : s.life.phase = .power) : endPhase s r = toPhase s .clocks := by simp [endPhase, hph, hgood]

theorem endPhase_clocks (hph : s.life.phase = .clocks) (hlock : s.life.pllLocked = true) :
    endPhase s r = { toPhase s .fwAuth with postmark := 0, timeOn := true } := by simp [endPhase, hph, hgood, hlock]

theorem endPhase_sramInit (hph : s.life.phase = .sramInit) : endPhase s r = toPhase s .memTrain := by simp [endPhase, hph, hgood]

theorem endPhase_memTrain (hph : s.life.phase = .memTrain) : endPhase s r = toPhase s .memInit := by simp [endPhase, hph, hgood]

theorem endPhase_memInit (hph : s.life.phase = .memInit) : endPhase s r = endMemInit s := by simp [endPhase, hph, hgood]

theorem endPhase_selfTest (hph : s.life.phase = .selfTest) : endPhase s r = endSelfTest s r := by simp [endPhase, hph, hgood]

end

/-- A self-test that finds nothing takes nothing out of service. -/
theorem selfTestFaults_none {s : State} {r : PhaseResult} (hcore : r.coreFaults = []) (hcluster : r.clusterFaults = [])
    (hbank : r.bankFaults = []) (hvideo : r.videoFaults = []) (hunit : r.unitFaults = []) : selfTestFaults s r = s := by
  simp [selfTestFaults, hcore, hcluster, hbank, hvideo, hunit]

/-- With a core in service the module becomes READY. -/
theorem endSelfTest_ready {s : State} {r : PhaseResult} (hnone : selfTestFaults s r = s) (hcore : (coreOf s 0).fenced = false) :
    endSelfTest s r = { s with life := { s.life with phase := .ready, power := .idle } } := by
  have hsome : s.cores.toList.all (·.fenced) = false := by
    refine List.all_eq_false.mpr ⟨s.cores[0], by simp, ?_⟩
    simpa [coreOf, vget] using hcore
  simp only [endSelfTest, hnone, hsome, Bool.false_eq_true, if_false]

/-- Settles O23: each event of the clocks and each end of a phase is its branch, and a missed bound is a failed start. The phase in which
the oscillator is judged is the model's reading (log entry 106). -/
theorem startUpRuns : Obligations.StartUpRuns := by
  refine ⟨fun s b h => ⟨xoAmplitudeDetect_next h b, xoStable_next h, fun hlate => ⟨_, xoTimeout_fails h hlate, ?xo⟩, pllLock_next h,
      fun hstable hlate => ⟨_, pllLockTimeout_fails h hstable hlate, ?pll⟩⟩,
    fun s r h hgood => ⟨fun hph => ⟨_, startPhaseComplete_next h r, ?power⟩, fun hph hlock => ⟨_, startPhaseComplete_next h r, ?clocks⟩,
      fun hph => ⟨_, startPhaseComplete_next h r, ?sram⟩, fun hph => ⟨_, startPhaseComplete_next h r, ?train⟩,
      fun hph hkeep => ⟨_, startPhaseComplete_next h r, ?mem⟩,
      fun hph hcore hcluster hbank hvideo hunit hfirst => ⟨_, startPhaseComplete_next h r, ?test⟩, ⟨_, phaseTimeout_fails h, ?late⟩⟩⟩
  case xo => exact ⟨(failStart_fails s _).1, (failStart_fails s _).2.1⟩
  case pll => exact ⟨(failStart_fails s _).1, (failStart_fails s _).2.1⟩
  case power => rw [endPhase_power hgood hph]; rfl
  case clocks => rw [endPhase_clocks hgood hph hlock]; exact ⟨rfl, rfl, rfl⟩
  case sram => rw [endPhase_sramInit hgood hph]; rfl
  case train => rw [endPhase_memTrain hgood hph]; rfl
  case mem =>
    rw [endPhase_memInit hgood hph]
    simp [endMemInit, hkeep]
  case test =>
    rw [endPhase_selfTest hgood hph, endSelfTest_ready (selfTestFaults_none hcore hcluster hbank hvideo hunit) hfirst]
    exact ⟨rfl, rfl, by simp [ready, not_stopped_of_starting h]⟩
  case late => exact failStart_fails s _

end Sys2Proof.Machine
end

section
/-! SUPPORT. The CXL link (spec/19 R357, R359). -/

namespace Sys2Proof.Machine

theorem setErr_hstErr (s : State) (b : Nat) : (setErr s b).hstErr = s.hstErr ||| BitVec.ofNat 4 (2 ^ b) := by
  unfold setErr sendVector
  dsimp only
  split <;> rfl

theorem bit_setErr (s : State) {b : Nat} (h : b < 4) : bit (setErr s b).hstErr b = true := by
  rw [setErr_hstErr]
  exact bit_or_two_pow _ h

@[simp] theorem flushRing_life (k : Nat) (s : State) (n : Nat) : (flushRing k s n).life = s.life := by
  induction k generalizing s with
  | zero => rfl
  | succ k ih =>
    unfold flushRing
    dsimp only
    split
    · rfl
    · split
      · rfl
      · exact (ih _).trans (writeReceipt_life _ n _ _)

section
variable {s : State}

theorem linkRetrain_next (h : s.life.linkUp = true) : exec .linkRetrain s = .next (setErr s 3) := by
  show execLinkRetrain s = _
  rw [execLinkRetrain, if_pos h]

theorem linkLoss_next (h : s.life.linkUp = true) :
    exec .linkLoss s = .next (setErr { s with life := { s.life with linkUp := false } } 3) := by
  show execLinkLoss s = _
  rw [execLinkLoss, if_pos h]

theorem hdmDecoderCommit_next (h : s.life.linkUp = true) :
    exec .hdmDecoderCommit s = .next { s with life := { s.life with hdmOn := true } } := by
  show execHdmDecoderCommit s = _
  rw [execHdmDecoderCommit, if_pos h]

/-- The link is up again; what the rings' receipts do leaves it so. -/
theorem linkReturn_next (h : s.life.linkUp = false) (hw : linkWorks s = true) :
    ∃ t, exec .linkReturn s = .next t ∧ t.life = { s.life with linkUp := true } := by
  show ∃ t, execLinkReturn s = _ ∧ _
  simp only [execLinkReturn, h, hw, Bool.not_false, Bool.and_self, if_true]
  refine ⟨_, rfl, ?_⟩
  rw [foldl_keeps State.life (fun t n => ?_)]
  exact flushRing_life _ t n

end

end Sys2Proof.Machine
end

section
/-! SUPPORT. Management over I3C and JTAG (spec/23 R426 to R431). -/

namespace Sys2Proof.Machine

section
variable {s : State}

theorem enec_next (h : s.life.auxGood = true) : exec .enec s = .next { s with mgmt := { s.mgmt with ibiOn := true } } := by
  show execEnec s = _
  rw [execEnec, if_pos h]

theorem entdaa_next (a : BitVec 7) (h : s.life.auxGood = true) (hnone : s.mgmt.i3cAddr = none) : exec (.entdaa a) s =
    .next (emit { s with mgmt := { s.mgmt with i3cAddr := some a } } (.dynamicAddress (provisionalId s) a)) := by
  show execEntdaa a s = _
  simp [execEntdaa, h, hnone]

theorem jtagInstruction_next (code : JtagCode) (h : s.life.power ≠ .off) :
    exec (.jtagInstruction code) s = .next { s with mgmt := { s.mgmt with jtag := code } } := by
  show execJtagInstruction code s = _
  rw [execJtagInstruction, if_neg h]

/-! ### Writes over I3C (R428) -/

/-- The state with the pointer that a write over I3C sets. -/
def pointed (s : State) (off : BitVec 8) : State := { s with mgmt := { s.mgmt with i3cOffset := off } }

theorem i3cPrivateWrite_next (off : BitVec 8) (data : List Byte) (hw : BitVec 8) (h : s.life.auxGood = true)
    (haddr : s.mgmt.i3cAddr.isSome) : exec (.i3cPrivateWrite off data hw) s =
      .next (data.zipIdx.foldl (fun s x => i3cPut s (off.toNat + x.2) x.1 hw) (pointed s off)) := by
  have hsome : s.mgmt.i3cAddr.isNone = false := Option.isNone_eq_false_iff.mpr haddr
  show execI3cPrivateWrite off data hw s = _
  simp only [execI3cPrivateWrite, h, hsome, Bool.not_true, Bool.or_self, Bool.false_eq_true, if_false]
  rfl

theorem i3cPut_keepMem (h : vddAon s = true) (v hw : BitVec 8) :
    i3cPut s 0x09 v hw = { s with life := { s.life with keepMem := bit v 0 } } := by
  simp [i3cPut, h]

/-- A write of ones clears the causes that it names. -/
theorem i3cPut_alertCause (h : vddAon s = true) (v : BitVec 8) :
    (i3cPut s 0x10 v 0).mgmt.alertW1c = s.mgmt.alertW1c &&& ~~~v := by
  obtain ⟨o, ho⟩ := alerting_emits s fun s => { s with mgmt := { s.mgmt with alertW1c := s.mgmt.alertW1c &&& ~~~v } }
  have hput : i3cPut s 0x10 v 0 = alerting s fun s => { s with mgmt := { s.mgmt with alertW1c := s.mgmt.alertW1c &&& ~~~v } } := by
    simp [i3cPut, h, bit]
  rw [hput, ho]

theorem i3cPut_down (h : vddAon s = false) (off : Nat) (v hw : BitVec 8) : i3cPut s off v hw = s := by
  simp [i3cPut, h]

theorem foldl_i3cPut_down (h : vddAon s = false) (off : Nat) (hw : BitVec 8) (l : List (Byte × Nat)) :
    l.foldl (fun s x => i3cPut s (off + x.2) x.1 hw) s = s := by
  induction l with
  | nil => rfl
  | cons x l ih => rw [List.foldl_cons, i3cPut_down h, ih]

/-! ### Pins and sensors (R429) -/

theorem coolantAlert_sets (h : vddAon s = true) : ∃ t, exec .coolantAlert s = .next t ∧ bit t.mgmt.alertW1c 6 = true ∧
    vget t.mgmt.alertEvents 4 0 = vget s.mgmt.alertEvents 4 0 + 1 := by
  obtain ⟨o, ho⟩ := setAlert_emits h 6
  refine ⟨_, rfl, ?_⟩
  rw [ho]
  exact ⟨setAlertBit_bit s (by decide), vget_vset_eq _ _ _ _ (by decide)⟩

theorem inputOutOfRange_stops (h : s.life.power ≠ .off) : ∃ t, exec .inputOutOfRange s = .next t ∧ t.life.power = .off ∧
    bit t.mgmt.alertW1c 5 = true ∧ bit t.mgmt.alertW1c 4 = true := by
  obtain ⟨o, ho⟩ := alerting_emits s fun s => setAlertBit (setAlertBit (railsOff s) 5) 4
  refine ⟨_, congrArg Host.Outcome.next (if_neg h), ?_⟩
  rw [ho]
  exact ⟨rfl, bit_or_left (setAlertBit_bit (railsOff s) (i := 5) (by decide)) _, setAlertBit_bit _ (by decide)⟩

end

/-- Settles O24: each event is the branch that the link, the bus or the island selects. That a write sets the pointer of the next read is
the model's reading (log entry 109). -/
theorem linkAndManagementAct : Obligations.LinkAndManagementAct := by
  refine ⟨fun s => ⟨fun hup => ⟨linkRetrain_next hup, ⟨_, linkLoss_next hup, by simp, bit_setErr _ (by decide)⟩, hdmDecoderCommit_next hup⟩,
      fun hdown hw => ?returns⟩,
    fun s a code v h => ⟨enec_next h, entdaa_next a h, fun haddr haon => ?keep, fun haddr haon => ?cause, jtagInstruction_next code,
      coolantAlert_sets, inputOutOfRange_stops⟩⟩
  case returns =>
    obtain ⟨t, ht, hlife⟩ := linkReturn_next hdown hw
    exact ⟨t, ht, by rw [hlife]⟩
  case keep =>
    refine ⟨_, i3cPrivateWrite_next 0x09 [v] 0 h haddr, ?_⟩
    have hput := i3cPut_keepMem (s := pointed s 0x09) haon v 0
    change (i3cPut (pointed s 0x09) 0x09 v 0).life.keepMem = _ ∧ (i3cPut (pointed s 0x09) 0x09 v 0).mgmt.i3cOffset = _
    rw [hput]
    exact ⟨rfl, rfl⟩
  case cause => exact ⟨_, i3cPrivateWrite_next 0x10 [v] 0 h haddr, i3cPut_alertCause (s := pointed s 0x10) haon v⟩

/-- Settles O59: every register of the island is behind VDD_AON, on a read and on a write. -/
theorem islandRegistersHold : Obligations.IslandRegistersHold := by
  intro s off data hw hdown
  have hcause : alertCause s = 0 := by simp [alertCause, hdown]
  have hphase : i3cWord s 0x0A = 0 := by simp [i3cWord, hdown]
  refine ⟨⟨by simp [i3cByte, hdown], by simp [i3cByte, hphase], by simp [i3cByte, hphase], by simp [i3cByte, hcause], fun i hi => ?events⟩,
    fun h haddr => ?write⟩
  case events =>
    have h1 : ¬ 0x11 + i < 0x08 := by omega
    have h2 : 0x11 + i ≠ 0x08 := by omega
    have h3 : 0x11 + i ≠ 0x09 := by omega
    have h4 : 0x11 + i ≠ 0x10 := by omega
    have h5 : 0x11 ≤ 0x11 + i ∧ 0x11 + i < 0x19 := by omega
    rw [i3cByte, if_neg h1, if_neg h2, if_neg h3, if_neg h4, if_pos h5, hdown]
    rfl
  case write =>
    rw [i3cPrivateWrite_next off data hw h haddr, foldl_i3cPut_down (s := pointed s off) hdown]
    rfl

end Sys2Proof.Machine
end

section
/-! SUPPORT. Ring pairs: what their registers, doorbells and violations do (spec/19 R363, R364, R370, R375). -/

namespace Sys2Proof.Machine

/-! ### The state of a ring pair -/

/-- Only CMD_RING_STATUS.state follows what the ring holds. -/
theorem refreshRing_state (r : Ring) : ∃ st, refreshRing r = { r with state := st } := by
  unfold refreshRing
  split
  · split
    · exact ⟨_, rfl⟩
    · exact ⟨r.state, rfl⟩
  · split
    iterate 2 exact ⟨r.state, rfl⟩
    exact ⟨_, rfl⟩

section
variable (r : Ring)

@[simp] theorem refreshRing_head : (refreshRing r).head = r.head := by obtain ⟨_, h⟩ := refreshRing_state r; rw [h]
@[simp] theorem refreshRing_tail : (refreshRing r).tail = r.tail := by obtain ⟨_, h⟩ := refreshRing_state r; rw [h]
@[simp] theorem refreshRing_ctrl : (refreshRing r).ctrl = r.ctrl := by obtain ⟨_, h⟩ := refreshRing_state r; rw [h]
@[simp] theorem refreshRing_comp : (refreshRing r).comp = r.comp := by obtain ⟨_, h⟩ := refreshRing_state r; rw [h]
@[simp] theorem refreshRing_consumed : (refreshRing r).consumed = r.consumed := by obtain ⟨_, h⟩ := refreshRing_state r; rw [h]
@[simp] theorem refreshRing_waiting : (refreshRing r).waiting = r.waiting := by obtain ⟨_, h⟩ := refreshRing_state r; rw [h]
@[simp] theorem refreshRing_nextSeq : (refreshRing r).nextSeq = r.nextSeq := by obtain ⟨_, h⟩ := refreshRing_state r; rw [h]

end

theorem refreshRing_disabled {r : Ring} (hoff : enabled r = false) (htaken : r.taken = 0) (hwait : r.waiting = []) :
    refreshRing r = { r with state := .disabled } := by
  simp [refreshRing, hoff, htaken, hwait]

/-! ### What a violation leaves: the tails, the error bits and the last entries of the dead-letter log -/

/-- `e` is in the dead-letter log with at most `k` entries after it. -/
def LateDead (e : DeadLetter) (k : Nat) (s : State) : Prop := ∃ before after, s.dead = before ++ e :: after ∧ after.length ≤ k

theorem LateDead.mono {e : DeadLetter} {k l : Nat} {s : State} (h : LateDead e k s) (hle : k ≤ l) : LateDead e l s := by
  obtain ⟨before, after, hdead, hlen⟩ := h
  exact ⟨before, after, hdead, hlen.trans hle⟩

/-- An entry that is late stays when the log drops its oldest. -/
theorem late_of_drop {e d : DeadLetter} {before after : List DeadLetter} (hlen : after.length + 2 ≤ 1024) :
    let l := before ++ e :: after ++ [d]
    ∃ b, l.drop (l.length - 1024) = b ++ e :: (after ++ [d]) := by
  refine ⟨before.drop (before.length + after.length + 2 - 1024), ?_⟩
  have hle : before.length + after.length + 2 - 1024 ≤ before.length := by omega
  have hlength : (before ++ e :: after ++ [d]).length = before.length + after.length + 2 := by
    simp
    omega
  rw [hlength, List.append_assoc, List.cons_append, List.drop_append_of_le_length hle]

/-- The entry that a violation makes (Table 19.23). -/
def violationEntry (s : State) (v : Violation) : DeadLetter :=
  { postmark := s.postmark, info := v.info, pktSeq := v.pktSeq, logSeq := s.deadCount, ctx := (v.slot.map (identOf s)).getD 0xFFFF,
    status := BitVec.ofNat 16 v.status, kind := BitVec.ofNat 8 v.kind, ring := BitVec.ofNat 8 v.ring, opcode := BitVec.ofNat 8 v.opcode }

theorem setErr_dead (s : State) (b : Nat) : (setErr s b).dead = s.dead := by
  unfold setErr sendVector
  dsimp only
  split <;> rfl

theorem setErr_rings (s : State) (b : Nat) : (setErr s b).rings = s.rings := by
  unfold setErr sendVector
  dsimp only
  split <;> rfl

theorem deadLetter_dead (s : State) (v : Violation) : (deadLetter s v).dead =
    (s.dead ++ [violationEntry s v]).drop ((s.dead ++ [violationEntry s v]).length - 1024) := by
  simp only [deadLetter, setErr_dead, violationEntry]

theorem deadLetter_rings (s : State) (v : Violation) : (deadLetter s v).rings = s.rings := by
  unfold deadLetter
  rw [setErr_rings]

theorem lateDead_deadLetter (s : State) (v : Violation) : LateDead (violationEntry s v) 0 (deadLetter s v) := by
  refine ⟨s.dead.drop (s.dead.length + 1 - 1024), [], ?_, Nat.le_refl 0⟩
  have hle : s.dead.length + 1 - 1024 ≤ s.dead.length := by omega
  rw [deadLetter_dead, List.length_append, List.length_singleton, List.drop_append_of_le_length hle]

theorem LateDead.deadLetter {e : DeadLetter} {k : Nat} {s : State} (h : LateDead e k s) (hk : k + 2 ≤ 1024) (v : Violation) :
    LateDead e (k + 1) (deadLetter s v) := by
  obtain ⟨before, after, hdead, hlen⟩ := h
  obtain ⟨b, hb⟩ := late_of_drop (e := e) (d := violationEntry s v) (before := before) (after := after) (by omega)
  refine ⟨b, after ++ [violationEntry s v], ?_, by simpa using hlen⟩
  rw [deadLetter_dead, hdead, hb]

theorem bit_setErr_of {s : State} {i : Nat} (h : bit s.hstErr i = true) (b : Nat) : bit (setErr s b).hstErr i = true := by
  rw [setErr_hstErr]
  exact bit_or_left h _

/-- In `t`, after `k` more entries of the log at most, the tail of ring `n`, the error bits and the late entries of `s` stand. -/
structure StandsAfter (n k : Nat) (s t : State) : Prop where
  tail : (ringOf t n).tail = (ringOf s n).tail
  err  : ∀ i, bit s.hstErr i = true → bit t.hstErr i = true
  dead : ∀ e j, j + k + 1 ≤ 1024 → LateDead e j s → LateDead e (j + k) t

theorem StandsAfter.trans {n k l : Nat} {s t u : State} (h : StandsAfter n k s t) (h' : StandsAfter n l t u) : StandsAfter n (k + l) s u :=
  ⟨h'.tail.trans h.tail, fun i hi => h'.err i (h.err i hi), fun e j hj hd => by
    have := h'.dead e (j + k) (by omega) (h.dead e j (by omega) hd)
    rwa [Nat.add_assoc] at this⟩

theorem StandsAfter.mono {n k l : Nat} {s t : State} (h : StandsAfter n k s t) (hle : k ≤ l) : StandsAfter n l s t :=
  ⟨h.tail, h.err, fun e j hj hd => (h.dead e j (by omega) hd).mono (by omega)⟩

/-- Where the rings, the error bits and the log stay, everything stands. -/
theorem standsAfter_of_same (k : Nat) {n : Nat} {s t : State} (htail : (ringOf t n).tail = (ringOf s n).tail) (herr : t.hstErr = s.hstErr)
    (hdead : t.dead = s.dead) : StandsAfter n k s t :=
  ⟨htail, fun i hi => herr ▸ hi, fun e j _ hd => by
    obtain ⟨before, after, h, hlen⟩ := hd
    exact ⟨before, after, hdead.trans h, by omega⟩⟩

theorem standsAfter_setErr (n : Nat) (s : State) (b : Nat) : StandsAfter n 0 s (setErr s b) :=
  ⟨by simp only [ringOf, setErr_rings], fun i hi => bit_setErr_of hi b, fun e j _ hd => by
    obtain ⟨before, after, h, hlen⟩ := hd
    exact ⟨before, after, (setErr_dead s b).trans h, hlen⟩⟩

theorem standsAfter_deadLetter (n : Nat) (s : State) (v : Violation) : StandsAfter n 1 s (deadLetter s v) :=
  ⟨by simp only [ringOf, deadLetter_rings], fun i hi => by
    rw [deadLetter, setErr_hstErr]
    exact bit_or_left hi _, fun e j hj hd => hd.deadLetter (by omega) v⟩

/-! ### Receipts beside a violation -/

/-- The state without what the bytes of a receipt change where they lie. -/
def unwritten (s : State) : State :=
  { s with hostMem := [], hostLines := [], lpddr := [], lines := [], cache := [], health := [], healthSeq := 0 }

theorem ite_unwritten {c : Prop} [Decidable c] {a b s : State} (ha : unwritten a = unwritten s) (hb : unwritten b = unwritten s) :
    unwritten (if c then a else b) = unwritten s := by
  split
  · exact ha
  · exact hb

theorem unwritten_logHealth (s : State) (cls source code ctx loc : Nat) :
    unwritten (logHealth s cls source code ctx loc) = unwritten s := by
  unfold logHealth
  split <;> simp only [unwritten]

theorem unwritten_lpWriteLine (s : State) (n line a : Nat) (bs : List Byte) : unwritten (lpWriteLine s n line a bs) = unwritten s := by
  unfold lpWriteLine
  exact ite_unwritten (unwritten_logHealth _ _ _ _ _ _) rfl

theorem unwritten_lpWrite (s : State) (n a : Nat) (bs : List Byte) : unwritten (lpWrite s n a bs) = unwritten s :=
  foldl_keeps unwritten (fun _ _ => unwritten_lpWriteLine _ _ _ _ _) _ _

theorem unwritten_of_unrecorded {s t : State} (h : unrecorded t = unrecorded s) : unwritten t = unwritten s := by
  change unwritten (unrecorded t) = unwritten (unrecorded s)
  rw [h]

theorem unwritten_ringWrite {s t : State} {n off : Nat} {base : BitVec 64} {bs : List Byte} (h : ringWrite s n base off bs = some t) :
    unwritten t = unwritten s := by
  unfold ringWrite at h
  dsimp only at h
  split at h
  · split at h <;> cases h
    exact unwritten_lpWrite s n _ bs
  · split at h <;> cases h
    exact unwritten_of_unrecorded (unrecorded_hostWrite s _ bs)

theorem hstErr_of_unwritten {s t : State} (h : unwritten t = unwritten s) : t.hstErr = s.hstErr := by
  change (unwritten t).hstErr = (unwritten s).hstErr
  rw [h]

theorem dead_of_unwritten {s t : State} (h : unwritten t = unwritten s) : t.dead = s.dead := by
  change (unwritten t).dead = (unwritten s).dead
  rw [h]

theorem standsAfter_setRing (k : Nat) {s : State} {n : Nat} (hn : n < 65) {r : Ring} (h : r.tail = (ringOf s n).tail) :
    StandsAfter n k s (setRing s n r) :=
  standsAfter_of_same k (by rw [ringOf_setRing _ _ _ hn, h]) rfl rfl

theorem standsAfter_sendVector (s : State) (n v k : Nat) : StandsAfter n k s (sendVector s v) := by
  unfold sendVector
  dsimp only
  split
  · exact standsAfter_of_same k rfl rfl rfl
  · exact standsAfter_of_same k rfl rfl rfl

/-- A receipt of a ring makes at most one entry of the log, where its write fails. -/
theorem standsAfter_writeReceipt (s : State) {n : Nat} (hn : n < 65) (raw : BitVec 256) (notify : Bool) :
    StandsAfter n 1 s (writeReceipt s n raw notify) := by
  unfold writeReceipt
  dsimp only
  generalize hr' : refreshRing { ringOf s n with comp := _, taken := _ } = r'
  have htail : r'.tail = (ringOf s n).tail := by
    rw [← hr']
    exact refreshRing_tail _
  have htails : (ringOf (setRing s n r') n).tail = (ringOf s n).tail := by rw [ringOf_setRing _ _ _ hn, htail]
  split
  next t hwrite =>
    have hw := unwritten_ringWrite hwrite
    have ht : StandsAfter n 1 s (setRing t n r') :=
      standsAfter_of_same 1 (by rw [ringOf_setRing _ _ _ hn, htail]) (hstErr_of_unwritten hw :) (dead_of_unwritten hw :)
    split
    · exact StandsAfter.trans (k := 1) (l := 0) ht (standsAfter_sendVector _ n _ 0)
    · exact ht
  next =>
    generalize hd : deadLetter _ _ = d
    have hds : StandsAfter n 1 s d := by
      rw [← hd]
      refine StandsAfter.trans (k := 0) (l := 1) ?_ (standsAfter_deadLetter n _ _)
      exact standsAfter_of_same 0 htails rfl rfl
    split
    · exact StandsAfter.trans (k := 1) (l := 0) hds (standsAfter_of_same 0 rfl rfl rfl)
    · exact hds

theorem standsAfter_pushReceipt (s : State) {n : Nat} (hn : n < 65) (raw : BitVec 256) (notify : Bool) :
    StandsAfter n 1 s (pushReceipt s n raw notify) := by
  unfold pushReceipt
  dsimp only
  split
  · exact standsAfter_setRing 1 hn (refreshRing_tail _)
  · exact standsAfter_writeReceipt s hn raw notify

theorem standsAfter_eventReceipt (s : State) {n : Nat} (hn : n < 65) (status detail : Nat) (tag : Word) :
    StandsAfter n 1 s (eventReceipt s n status detail tag) := by
  unfold eventReceipt
  split
  · exact standsAfter_pushReceipt s hn _ true
  · exact standsAfter_of_same 1 rfl rfl rfl

theorem standsAfter_quarantine (s : State) {n : Nat} (hn : n < 65) : StandsAfter n 1 s (quarantine s n) := by
  unfold quarantine
  split
  · refine StandsAfter.trans (k := 0) ?_ (standsAfter_eventReceipt _ hn _ _ _)
    refine StandsAfter.trans (k := 0) ?_ (standsAfter_setErr n _ 1)
    have hctx : StandsAfter n 0 s (modCtx s n fun c => { c with quarantined := true }) := standsAfter_of_same 0 rfl rfl rfl
    refine StandsAfter.trans (k := 0) (l := 0) hctx ?_
    exact standsAfter_setRing 0 hn rfl
  · exact standsAfter_of_same 1 rfl rfl rfl

/-- After a violation, with an event receipt in reply, its entry stands in the log. -/
theorem standsAfter_hostViolation (s : State) {n : Nat} (hn : n < 65) (v : Violation) (hslot : v.slot = ringSlot n)
    (status detail : Nat) : StandsAfter n 2 (deadLetter s v) (hostViolation s v fun s => eventReceipt s n status detail 0) := by
  unfold hostViolation
  dsimp only
  rw [hslot]
  generalize deadLetter s v = t
  by_cases hlt : n < 64
  · rw [ringSlot, if_pos hlt]
    refine StandsAfter.trans (k := 1) (l := 1) ?_ (standsAfter_quarantine _ hn)
    refine StandsAfter.trans (k := 0) (l := 1) (t := countViolation t n) ?_ (standsAfter_eventReceipt _ hn _ _ _)
    exact standsAfter_of_same 0 rfl rfl rfl
  · rw [ringSlot, if_neg hlt]
    exact (standsAfter_eventReceipt t hn status detail 0).mono (Nat.le_succ 1)

/-! ### Doorbells and the registers of a ring pair -/

/-- A doorbell that is heard: what ring `n` holds decides. -/
theorem ringDoorbell_heard {s : State} {n : Nat} {v : BitVec 64} (hready : ready s = true) (hon : enabled (ringOf s n) = true)
    (hctx : n < 64 → (ctxOf s n).isSome) :
    ringDoorbell s n v =
      if ((BitVec.ofNat 32 (bits v 0 32) : BitVec 32) - (ringOf s n).head).toNat ≤ postUnits (ringOf s n) ∧
          ((BitVec.ofNat 32 (bits v 0 32) : BitVec 32) - (ringOf s n).tail).toNat ≤ postUnits (ringOf s n)
      then setRing s n { ringOf s n with tail := BitVec.ofNat 32 (bits v 0 32) }
      else if (ringOf s n).state = .quarantined then s
      else doorbellViolation s n 7 0x0102 v (ringSlot n) fun s => eventReceipt s n 0x0102 7 0 := by
  have hnone : (decide (n < 64) && (ctxOf s n).isNone) = false := by
    by_cases hlt : n < 64
    · simp [Option.isNone_eq_false_iff.mpr (hctx hlt)]
    · simp [hlt]
  simp [ringDoorbell, hready, hon, hnone]

theorem execHstDoorbell_heard {s : State} {n : BitVec 7} {v : BitVec 64} (hn : n.toNat ≤ 64) (hlink : s.life.linkUp = true) :
    exec (.hstDoorbell n v) s = .next (ringDoorbell s n.toNat v) := by
  show execHstDoorbell n v s = _
  simp [execHstDoorbell, Nat.not_lt.mpr hn, hlink]

/-- A tail beyond the ring: the tail stays, and the dead-letter log names the violation with the value written. -/
theorem doorbellViolation_logs (s : State) {n : Nat} (hn : n < 65) (kind status : Nat) (v : BitVec 64) (st detail : Nat) :
    let u := doorbellViolation s n kind status v (ringSlot n) fun s => eventReceipt s n st detail 0
    (ringOf u n).tail = (ringOf s n).tail ∧ bit u.hstErr 0 = true ∧
      ∃ e ∈ u.dead, e.kind = BitVec.ofNat 8 kind ∧ e.info = v ∧ e.logSeq = s.deadCount := by
  intro u
  let w : Violation := { kind := kind, ring := n, opcode := 0, info := v, pktSeq := (ringOf s n).nextSeq, status := status, slot := ringSlot n }
  have hstands : StandsAfter n 2 (deadLetter s w) u := standsAfter_hostViolation s hn w rfl st detail
  obtain ⟨before, after, hdead, -⟩ := hstands.dead _ 0 (by omega) (lateDead_deadLetter s w)
  refine ⟨hstands.tail.trans (standsAfter_deadLetter n s w).tail, hstands.err 0 ?_, violationEntry s w, ?_, rfl, rfl, rfl⟩
  · rw [deadLetter]
    exact bit_setErr _ (by decide)
  · rw [hdead]
    simp

theorem ringReg_of {s : State} (hlink : s.life.linkUp = true) (hready : ready s = true) : ringReg? s = true := by
  simp [ringReg?, hlink, hready]

theorem execRingEnable_starts {s : State} {n : BitVec 7} {v : BitVec 64} (hn : n.toNat ≤ 64) (hlink : s.life.linkUp = true)
    (hready : ready s = true) (hoff : enabled (ringOf s n.toNat) = false) (hon : bit v 31 = true) (hr : bits v 8 3 ≠ 7)
    (hp : bits v 0 3 ≠ 7) : exec (.ringEnable n v) s = .next (startRing s n.toNat v) := by
  show execRingEnable n v s = _
  simp [execRingEnable, Nat.not_lt.mpr hn, ringReg_of hlink hready, writeCtrl, hoff, hon, hr, hp]

theorem execRingDisable_stops {s : State} {n : BitVec 7} {v : BitVec 64} (hn : n.toNat ≤ 64) (hlink : s.life.linkUp = true)
    (hready : ready s = true) (hon : enabled (ringOf s n.toNat) = true) (hoff : bit v 31 = false) (hr : bits v 8 3 ≠ 7)
    (hp : bits v 0 3 ≠ 7) (hfixed : ctrlFixed v = ctrlFixed (ringOf s n.toNat).ctrl) :
    exec (.ringDisable n v) s =
      .next (setRing s n.toNat (refreshRing { ringOf s n.toNat with ctrl := ctrlValue v, pktHeld := false })) := by
  show execRingDisable n v s = _
  simp [execRingDisable, Nat.not_lt.mpr hn, ringReg_of hlink hready, writeCtrl, hoff, hon, hr, hp, hfixed]

/-- CMD_RING_CTRL.enable is no reserved bit. -/
theorem ctrlValue_enable (v : BitVec 64) : bit (ctrlValue v) 31 = bit v 31 := by
  simp [bit, ctrlValue]

/-- A ring pair that starts is enabled and empty, at its bases. -/
theorem startRing_starts (s : State) {n : Nat} (hn : n < 65) {v : BitVec 64} (hv : bit v 31 = true) :
    ∃ r', ringOf (startRing s n v) n = r' ∧ enabled r' = true ∧ r'.state = .running ∧ r'.head = 0 ∧ r'.tail = 0 ∧ r'.nextSeq = 0 ∧
      r'.comp = 0 ∧ r'.consumed = 0 ∧ r'.postBase = (ringOf s n).postBase :=
  ⟨_, ringOf_setRing _ _ _ hn, (ctrlValue_enable v).trans hv, rfl, rfl, rfl, rfl, rfl, rfl, rfl⟩

/-- An idle ring pair that stops is DISABLED, its head where it was. -/
theorem stopRing_stops (s : State) {n : Nat} (hn : n < 65) {v : BitVec 64} (hv : bit v 31 = false) (htaken : (ringOf s n).taken = 0)
    (hwait : (ringOf s n).waiting = []) :
    ∃ r', ringOf (setRing s n (refreshRing { ringOf s n with ctrl := ctrlValue v, pktHeld := false })) n = r' ∧ enabled r' = false ∧
      r'.state = .disabled ∧ r'.head = (ringOf s n).head := by
  have hoff : bit (ctrlValue v) 31 = false := (ctrlValue_enable v).trans hv
  have hstop := refreshRing_disabled (r := { ringOf s n with ctrl := ctrlValue v, pktHeld := false }) hoff htaken hwait
  exact ⟨_, (ringOf_setRing _ _ _ hn).trans hstop, hoff, rfl, rfl⟩

/-- With no receipt waiting, the head that the host writes is all that changes. -/
theorem setRcptHead_of_none_waiting (s : State) {n : Nat} (hn : n < 65) (v : BitVec 64) (hwait : (ringOf s n).waiting = []) :
    setRcptHead s n v = setRing s n (refreshRing { ringOf s n with consumed := BitVec.ofNat 32 (bits v 0 32) }) := by
  rw [setRcptHead, releaseReceipts, ringOf_setRing _ _ _ hn, refreshRing_waiting]
  simp [hwait, flushRing]

theorem execCmdRcptHeadWrite_heard {s : State} {n : BitVec 7} {v : BitVec 64} (hn : n.toNat ≤ 64) (hlink : s.life.linkUp = true)
    (hready : ready s = true) : exec (.cmdRcptHeadWrite n v) s = .next (setRcptHead s n.toNat v) := by
  show execCmdRcptHeadWrite n v s = _
  simp [execCmdRcptHeadWrite, Nat.not_lt.mpr hn, ringReg_of hlink hready]

/-- Settles O25: doorbells move the tail or are logged, and the ring pair's registers act on their ring. -/
theorem ringPairsAct : Obligations.RingPairsAct := by
  refine ⟨fun n v s hn hlink hready hon hctx => ?_, fun n v s hn hlink hready => ?_⟩
  · intro r t
    have hexec := (execHstDoorbell_heard hn hlink).trans (congrArg _ (ringDoorbell_heard (v := v) hready hon hctx))
    refine ⟨fun hhead htail => ?_, fun hbeyond hquar => ⟨_, ?_, doorbellViolation_logs s (Nat.lt_succ_of_le hn) 7 0x0102 v 0x0102 7⟩⟩
    · rw [hexec, if_pos ⟨hhead, htail⟩]
    · rw [hexec, if_neg fun h => Nat.not_le.mpr hbeyond h.1, if_neg hquar]
  · intro r
    have hn' : n.toNat < 65 := Nat.lt_succ_of_le hn
    refine ⟨fun hoff hv hr hp => ?_,
      fun hon hv hr hp hfixed htaken hwait => ?_,
      fun hwait => ⟨_, execCmdRcptHeadWrite_heard hn hlink hready, ?_⟩⟩
    · obtain ⟨r', hr'⟩ := startRing_starts s hn' hv
      exact ⟨_, r', execRingEnable_starts hn hlink hready hoff hv hr hp, hr'⟩
    · obtain ⟨r', hring, hr'⟩ := stopRing_stops s hn' hv htaken hwait
      exact ⟨_, execRingDisable_stops hn hlink hready hon hv hr hp hfixed, hring ▸ hr'⟩
    · rw [setRcptHead_of_none_waiting s hn' v hwait, ringOf_setRing _ _ _ hn']
      exact ⟨refreshRing_consumed _, refreshRing_comp _⟩

end Sys2Proof.Machine
end

section
/-! SUPPORT. The ring whose turn it is gives its packet (spec/19 R365, R367). -/

namespace Sys2Proof.Machine

/-- A ring that offers holds at least one unit. -/
theorem one_le_of_ringOffers {s : State} {n : Nat} (h : ringOffers s n = true) : 1 ≤ ((ringOf s n).tail - (ringOf s n).head).toNat := by
  simp only [ringOffers, refreshRing_tail, refreshRing_head, Bool.and_eq_true, bne_iff_ne] at h
  obtain ⟨⟨⟨⟨-, -⟩, hne⟩, -⟩, -⟩ := h
  by_contra hlt
  have hzero : (ringOf s n).tail - (ringOf s n).head = 0 := BitVec.eq_of_toNat_eq (by simpa using hlt)
  exact hne (by simpa using congrArg (· + (ringOf s n).head) hzero)

/-- A packet of one unit that passes its checks and that nothing holds leaves its ring. -/
theorem offerRing_takes {s : State} {n : Nat} {h : BitVec 512} (hoffers : ringOffers s n = true)
    (hunit : (unitAt s n (ringOf s n) (ringOf s n).head.toNat).1 = some h) (hlen : bits h 16 16 = 1)
    (hfault : headerFault s n h (packetOf n h []) 1 = none) (hwaits : packetWaits s n (bits h 0 8) (packetOf n h []) = false) :
    offerRing s n = (takePkt s n (packetOf n h []) (bits h 0 8) 1, true) := by
  obtain ⟨u, hu⟩ : ∃ u, unitAt s n (ringOf s n) (ringOf s n).head.toNat = (some h, u) := ⟨_, Prod.ext hunit rfl⟩
  have hunits : unitsAt s n (ringOf s n) 1 = [(some h, u)] := by simp [unitsAt, hu]
  have hroom := Nat.not_lt.mpr (one_le_of_ringOffers hoffers)
  simp [offerRing, hoffers, hu, hlen, hunits, hfault, hwaits, -BitVec.toNat_sub, hroom]

/-- The round begins with the ring whose turn it is. -/
theorem offerRings_first {s t : State} {k : Nat} (h : offerRing s (if k = 0 then 64 else k - 1) = (t, true)) (rest : List Nat) :
    offerRings s (k :: rest) = { t with turn := (k + 1) % 65 } := by
  simp [offerRings, h]

theorem execRingTurn_takes {s t : State} {k : Nat} (hready : ready s = true) (hturn : s.turn = k) (hk : k < 65)
    (h : offerRing s (if k = 0 then 64 else k - 1) = (t, true)) : exec .ringTurn s = .next { t with turn := (k + 1) % 65 } := by
  show execRingTurn s = _
  have hround : (List.range 65).map (fun i => (s.turn + i) % 65) = k :: (List.range 64).map fun i => (s.turn + (i + 1)) % 65 := by
    rw [List.range_succ_eq_map, List.map_cons, List.map_map, hturn, Nat.add_zero, Nat.mod_eq_of_lt hk]
    rfl
  rw [execRingTurn, if_pos hready, hround, offerRings_first h]

theorem ringOf_takePkt (s : State) {n : Nat} (hn : n < 65) (p : Packet) (op len : Nat) :
    ringOf (takePkt s n p op len) n = refreshRing { ringOf s n with head := (ringOf s n).head + BitVec.ofNat 32 len, nextSeq := p.seq + 1,
                                                                    taken := (ringOf s n).taken + 1, pktHeld := false } :=
  ringOf_setRing s n _ hn

/-- Settles O26: the ring whose turn it is gives its packet of one unit. -/
theorem ringTurnTakesPacket : Obligations.RingTurnTakesPacket := by
  intro s k n h hready hturn hk hn hoffers hunit hlen hfault hwaits
  have htakes := offerRing_takes hoffers hunit hlen hfault hwaits
  have hn' : n < 65 := by
    subst hn
    split <;> omega
  have hring := ringOf_takePkt s hn' (packetOf n h []) (bits h 0 8) 1
  refine ⟨_, execRingTurn_takes hready hturn hk (hn ▸ htakes), rfl, ?_, ?_, rfl⟩
  · exact (congrArg Ring.head hring).trans (refreshRing_head _)
  · exact (congrArg Ring.nextSeq hring).trans (refreshRing_nextSeq _)

end Sys2Proof.Machine
end

section
/-! SUPPORT. The host's accesses to BAR0 and BAR2 (spec/01 R7; spec/11 R220; spec/19 R358, R360). -/

namespace Sys2Proof.Machine

/-! ### Registers that ones clear -/

theorem execW1cClear_linked {s : State} (hlink : s.life.linkUp = true) (off : BitVec 16) (mask hw : BitVec 64) :
    exec (.w1cClear off mask hw) s = .next (clearBits s off.toNat mask hw) := by
  show execW1cClear off mask hw s = _
  rw [execW1cClear, if_pos hlink]

theorem bitsOf_zero_and (w : BitVec 64) : bitsOf (0 &&& w) = [] := by simp [bitsOf, bit]

/-- The low bits of a word, as a narrower word. -/
theorem ofNat_bits_zero {v : Nat} (x : BitVec v) (w : Nat) : BitVec.ofNat w (bits x 0 w) = x.setWidth w := by
  apply BitVec.eq_of_toNat_eq
  simp [bits_eq]

theorem clearErr_quiet (s : State) (mask : BitVec 64) : clearErr s mask 0 = { s with hstErr := s.hstErr &&& ~~~(mask.setWidth 4) } := by
  rw [clearErr, bitsOf_zero_and, ofNat_bits_zero]
  rfl

theorem clearErr_hardware_sets (s : State) (mask : BitVec 64) : bit (clearErr s mask 1).hstErr 0 = true := by
  have hone : bitsOf ((1 : BitVec 64) &&& 0xF) = [0] := by decide
  rw [clearErr, hone]
  exact bit_setErr _ (by decide)

theorem clearBits_err (s : State) (mask hw : BitVec 64) : clearBits s 0x0018 mask hw = clearErr s mask hw := if_pos rfl

/-- The block of a context's registers. -/
theorem clearBits_ctx {s : State} (hready : ready s = true) {n : Nat} (hn : n < 64) (mask hw : BitVec 64) :
    clearBits s (0x4000 + 0x100 * n) mask hw = clearCtxBits s n 0 mask hw := by
  have hblock : (0x4000 + 0x100 * n - 0x4000) / 0x100 = n := by omega
  have hoff : (0x4000 + 0x100 * n - 0x4000) % 0x100 = 0 := by omega
  rw [clearBits, if_neg (by omega), if_pos ⟨by omega, by omega, hready⟩, hblock, hoff]

theorem clearCtxBits_quiet (s : State) (n : Nat) (mask : BitVec 64) :
    clearCtxBits s n 0 mask 0 = modCtx s n fun c => { c with attStatus := c.attStatus &&& ~~~(mask &&& 0x1B) } := by
  rw [clearCtxBits, if_pos rfl, bitsOf_zero_and]
  rfl

/-! ### Registers of BAR0 -/

theorem writeReg_postBase {s : State} {n : Nat} (hready : ready s = true) (hn : n < 65) (hoff : enabled (ringOf s n) = false)
    (v : BitVec 64) :
    writeReg s (0x2000 + 0x40 * n) v = setRing s n { ringOf s n with postBase := v &&& 0x8000FFFFFFFFF000 } := by
  have hblock : (0x2000 + 0x40 * n - 0x2000) / 0x40 = n := by omega
  have hplace : (0x2000 + 0x40 * n - 0x2000) % 0x40 = 0 := by omega
  rw [writeReg, if_neg (by simp [hready]), if_pos (by omega), hblock, hplace, writeRingReg, if_pos rfl]
  simp [writeBase, hoff]

/-- The base of a ring pair out of service takes its legal bits. -/
theorem execRegisterWrite_postBase {s : State} {n : Nat} (hlink : s.life.linkUp = true) (hready : ready s = true) (hn : n < 65)
    (hoff : enabled (ringOf s n) = false) (v : BitVec 64) :
    exec (.registerWrite (BitVec.ofNat 16 (0x2000 + 0x40 * n)) 8 v false) s =
      .next (setRing s n { ringOf s n with postBase := v &&& 0x8000FFFFFFFFF000 }) := by
  have hnat : (BitVec.ofNat 16 (0x2000 + 0x40 * n)).toNat = 0x2000 + 0x40 * n := Nat.mod_eq_of_lt (by omega)
  have hreg : (0x2000 + 0x40 * n) / 8 * 8 = 0x2000 + 0x40 * n := by omega
  have hok : accessOk (0x2000 + 0x40 * n) 8 = true := by
    simp only [accessOk, beq_self_eq_true, Bool.or_true, Bool.true_and, beq_iff_eq]
    omega
  have hnamed : regNamed (0x2000 + 0x40 * n) = true := by
    simp only [regNamed, decide_eq_true_eq]
    omega
  show execRegisterWrite _ 8 v false s = _
  simp only [execRegisterWrite, hnat, hreg, hlink, hok, hnamed, mergeHalf]
  rw [if_neg (by decide), if_neg (by decide), if_neg (by decide), if_neg (by omega), if_neg (by omega), if_pos trivial,
    writeReg_postBase hready hn hoff]

theorem execRegisterWrite_refused {s : State} {off : BitVec 16} {size : Nat} (hlink : s.life.linkUp = true)
    (hsize : accessOk off.toNat size = false) (v : BitVec 64) :
    exec (.registerWrite off size v false) s = .next (mmioViolation s off.toNat) := by
  show execRegisterWrite off size v false s = _
  simp [execRegisterWrite, hlink, hsize]

/-! ### BAR2 -/

/-- The state without what a read of the host may log. -/
def unread (s : State) : State := { s with health := [], healthSeq := 0, riskEvents := [] }

theorem unread_logHealth (s : State) (cls source code ctx loc : Nat) : unread (logHealth s cls source code ctx loc) = unread s := by
  unfold logHealth
  split <;> simp only [unread]

theorem unread_noteHostRead (s : State) (n a : Nat) : unread (noteHostRead s n a) = unread s := by
  have hrisk (t : State) (row weight : Nat) : unread (risk t row weight) = unread t := rfl
  unfold noteHostRead
  exact (hrisk _ _ _).trans (unread_logHealth _ _ _ _ _ _)

theorem unread_noteHostReads (l : List Nat) (s : State) (n : Nat) :
    unread (l.foldl (fun s x => noteHostRead s n (256 * x)) s) = unread s :=
  foldl_keeps unread (fun _ _ => unread_noteHostRead _ _ _) l s

theorem lpddr_of_unread {s t : State} (h : unread t = unread s) : t.lpddr = s.lpddr := by
  change (unread t).lpddr = (unread s).lpddr
  rw [h]

theorem outbox_of_unread {s t : State} (h : unread t = unread s) : t.outbox = s.outbox := by
  change (unread t).outbox = (unread s).outbox
  rw [h]

section
variable {s : State} {off : BitVec 48} {size m : Nat} (hlink : s.life.linkUp = true) (hready : ready s = true) (hhdm : s.life.hdmOn = true)
  (hsize : size ≠ 0) (hwindow : windowFor s off.toNat size = some m)
include hlink hready hhdm hsize hwindow

theorem execBar2Access_write {data : List Byte} (hdata : data.length = size) (soft : List Nat) :
    exec (.bar2Access true off size ⟨data, soft⟩) s = .next (dropFreed (lpWrite s m off.toNat data) m) := by
  have hall : data.take size = data := List.take_of_length_le (Nat.le_of_eq hdata)
  show execBar2Access true off size ⟨data, soft⟩ s = _
  simp [execBar2Access, hlink, hready, hhdm, hsize, hwindow, hall]

theorem execBar2Access_read (data : HostData) : ∃ bad : List Nat, exec (.bar2Access false off size data) s =
    .next (emit (bad.foldl (fun s l => noteHostRead s m (256 * l)) (data.soft.foldl (fun s x => softHostRead s m x) s))
      (.bar2Done off ((List.range size).map fun i => lpByte s m (off.toNat + i)) (!bad.isEmpty))) := by
  refine ⟨(linesOf 256 off.toNat size).filter fun l => !lpOk s m (256 * l), ?_⟩
  show execBar2Access false off size data s = _
  simp only [execBar2Access, hlink, hready, hhdm, hwindow]
  rw [if_neg (by simpa using hsize), if_neg (by decide)]

end

/-- Settles O28: ones clear what they name, ring bases and refused accesses of BAR0, and BAR2 through a window. -/
theorem hostAccessesAct : Obligations.HostAccessesAct := by
  refine ⟨fun s mask n c hlink hn => ⟨⟨_, execW1cClear_linked hlink _ mask 0, ?_, ?_⟩, ⟨_, execW1cClear_linked hlink _ mask 1, ?_⟩,
    fun hready hc => ⟨_, { c with attStatus := c.attStatus &&& ~~~(mask &&& 0x1B) }, execW1cClear_linked hlink _ mask 0, ?_⟩⟩, fun s v n hlink hready hn => ⟨fun hoff =>
    ⟨_, execRegisterWrite_postBase hlink hready hn hoff v, ?_, ?_⟩, fun off size hsize => execRegisterWrite_refused hlink hsize v,
    fun off size m data bs soft hhdm hsize hdata hwindow => ⟨execBar2Access_write hlink hready hhdm hsize hwindow hdata soft, ?_, ?_⟩⟩⟩
  · exact (congrArg State.hstErr ((clearBits_err s mask 0).trans (clearErr_quiet s mask)) :)
  · exact (congrArg State.hstErrEvents ((clearBits_err s mask 0).trans (clearErr_quiet s mask)) :)
  · exact (congrArg (fun t => bit (State.hstErr t) 0) (clearBits_err s mask 1)).trans (clearErr_hardware_sets s mask)
  · have hoff : (BitVec.ofNat 16 (0x4000 + 0x100 * n)).toNat = 0x4000 + 0x100 * n := Nat.mod_eq_of_lt (by omega)
    rw [hoff, clearBits_ctx hready hn, clearCtxBits_quiet, ctxOf_modCtx, hc]
    exact ⟨rfl, rfl, rfl⟩
  · rw [ringOf_setRing _ _ _ hn]
  · rw [ringOf_setRing _ _ _ hn]
  · obtain ⟨bad, hread⟩ := execBar2Access_read hlink hready hhdm hsize hwindow ⟨bs, soft⟩
    exact ⟨_, hread⟩
  · obtain ⟨bad, hread⟩ := execBar2Access_read hlink hready hhdm hsize hwindow ⟨bs, []⟩
    have hunread := unread_noteHostReads bad s m
    exact ⟨_, !bad.isEmpty, hread, congrArg (· ++ _) (outbox_of_unread hunread), (lpddr_of_unread hunread :)⟩

end Sys2Proof.Machine
end

section
/-! SUPPORT. Contexts: their creation, how they freeze, and how they leave their slot (spec/20 R378 to R381). -/

namespace Sys2Proof.Machine

/-! ### CTX_CREATE -/

theorem bit_of_bits_zero {w lo len i : Nat} {x : BitVec w} (h : bits x lo len = 0) (hlo : lo ≤ i) (hi : i < lo + len) :
    bit x i = false := by
  have hzero : x.extractLsb' lo len = 0 := BitVec.eq_of_toNat_eq h
  have hbit := congrArg (·.getLsbD (i - lo)) hzero
  simpa [bit, show i - lo < len by omega, Nat.add_sub_cancel' hlo] using hbit

theorem bits_zero_of_le {w lo len k : Nat} {x : BitVec w} (h : bits x lo len = 0) (hk : k ≤ len) : bits x lo k = 0 := by
  rw [bits_eq] at h ⊢
  rw [← Nat.mod_mod_of_dvd _ (Nat.pow_dvd_pow 2 hk), h, Nat.zero_mod]

theorem enabled_disableRing (s : State) {n : Nat} (hn : n < 65) : enabled (ringOf (disableRing s n) n) = false := by
  rw [disableRing, ringOf_setRing _ _ _ hn, enabled, refreshRing_ctrl]
  exact bit_putBits_same (b := false) _ (by decide)

/-- The slot as a context enters it without keep: a key of its own and the next generation. -/
def enterFresh (s : State) (n : Nat) (ident : BitVec 16) (x : CtxSlot) : CtxSlot :=
  { ctx := some (newCtx s n ident), key := some s.keyDraws, kept := false, gen := x.gen + 1 }

theorem fillSlot_fresh (s : State) (n : Nat) (ident : BitVec 16) :
    fillSlot s n ident false = { modSlot s n (enterFresh s n ident) with keyDraws := s.keyDraws + 1 } := rfl

theorem slotOf_fillSlot_fresh (s : State) {n : Nat} (hn : n < 64) (ident : BitVec 16) :
    slotOf (fillSlot s n ident false) n = enterFresh s n ident (slotOf s n) := by
  rw [fillSlot_fresh]
  exact slotOf_modSlot s n (enterFresh s n ident) hn

theorem slotOf_fillSlot_fresh_ne (s : State) {n m : Nat} (hm : m ≠ n) (ident : BitVec 16) :
    slotOf (fillSlot s n ident false) m = slotOf s m := by
  rw [fillSlot_fresh]
  exact slotOf_modSlot_ne s n m (enterFresh s n ident) hm

theorem execCtxCreate_fills {p : Packet} {s : State} {n : Nat} (hp : p.ring = 64) (hready : ready s = true) (hident : ¬p.ctx = 0xFFFF)
    (hnew : slotOfIdent s p.ctx = none) (hany : bit p.param 255 = false) (hslot : bits p.param 249 6 = n)
    (hzero : bits p.param 0 249 = 0) (hempty : ctxOf s n = none) :
    exec (.ctxCreate p) s = .next (answer (disableRing (fillSlot s n p.ctx false) n) p 0x58 0 n) := by
  have hkeep : bit p.param 248 = false := bit_of_bits_zero hzero (by omega) (by omega)
  have hrest : zeroBits p 0 248 = true := zeroBits_of (bits_zero_of_le hzero (by omega))
  show execCtxCreate p s = _
  rw [execCtxCreate, mgmtCommand_next _ hp hready]
  have hallowed : ¬(p.ctx = 0xFFFF ∨ (slotOfIdent s p.ctx).isSome = true) := fun h => h.elim hident (by simp [hnew])
  simp only [if_neg hallowed]
  simp [hany, hkeep, hslot, hempty, hrest]

/-- Settles O13: the new context is in its slot with a fresh key, and its ring pair is disabled. -/
theorem contextIsCreated : Obligations.ContextIsCreated := by
  intro p s n hp hready hn hident hnew hany hslot hzero hempty
  have hfill := slotOf_fillSlot_fresh s hn p.ctx
  refine ⟨_, newCtx s n p.ctx, execCtxCreate_fills hp hready hident hnew hany hslot hzero hempty, congrArg CtxSlot.ctx hfill, rfl, rfl, rfl,
    rfl, rfl, congrArg CtxSlot.key hfill, rfl, congrArg CtxSlot.gen hfill, enabled_disableRing _ (by omega),
    fun m hm => slotOf_fillSlot_fresh_ne s hm p.ctx⟩

/-! ### Context commands -/

section
variable {p : Packet} {s : State} {n : Nat} {c : Ctx} (hp : p.ring = 64) (hready : ready s = true)
  (hident : slotOfIdent s p.ctx = some n) (hc : ctxOf s n = some c) (hqueue : c.ctxQ = []) (hzero : bits p.param 0 256 = 0)
include hp hready hident hc hqueue hzero

/-- A context command with no earlier one of its context waiting begins at once. -/
theorem ctxCmd_begins (k : CtxCmd) : ctxCmd p k s = .next (beginCtxCmd s n k p) := by
  rw [ctxCmd, mgmtCommand_next _ hp hready]
  simp [hident, zeroBits_of hzero, hc, hqueue]

end

/-! ### CTX_PREEMPT -/

theorem vget_map {α : Type} {n : Nat} (v : Vector α n) {i : Nat} (h : i < n) (f : α → α) (d : α) :
    vget (v.map f) i d = f (vget v i d) := by
  simp [vget, h]

/-- The cores of the context freeze, and no others change. -/
theorem coreOf_preempt (s : State) (n : Nat) {k : Nat} (hk : k < 256) : coreOf (preempt s n) k =
    if (coreOf s k).slot = some (BitVec.ofNat 6 n) then
      { coreOf s k with threads := (coreOf s k).threads.map freezeThread, streams := (coreOf s k).streams.map freezeStream }
    else coreOf s k :=
  vget_map s.cores hk _ _

theorem tget_tmap {α : Type} (t : Table α) (f : Nat → α → α) (k : Nat) : tget (tmap t f) k = (tget t k).map (f k) := by
  induction t with
  | nil => rfl
  | cons e t ih =>
    obtain ⟨i, a⟩ := e
    by_cases h : k = i
    · simp [tget, tmap, h]
    · have hne : (k == i) = false := by simpa using h
      simpa [tget, tmap, List.lookup_cons, hne] using ih

theorem counterOf_preempt (s : State) (n q : Nat) : counterOf (preempt s n) q =
    (counterOf s q).map fun c => if c.slot.toNat = n ∧ c.state = .live then { c with state := .frozen } else c :=
  tget_tmap s.counters (fun _ c => if c.slot.toNat = n ∧ c.state = .live then { c with state := .frozen } else c) q

/-- Settles O14: what freezes at CTX_PREEMPT, and both answers. -/
theorem contextFreezesAndThaws : Obligations.ContextFreezesAndThaws := by
  intro p s n c hp hready hident hc hqueue hzero
  refine ⟨fun hruns => ⟨?_, fun k t hk ht hslot => ?_, fun k hk hslot => ?_, fun q k hq hslot hlive => ?_⟩, fun hheld => ?_⟩
  · refine (ctxCmd_begins hp hready hident hc hqueue hzero .preempt).trans ?_
    simp [beginCtxCmd, hc, hruns, ctxOp]
  · rw [coreOf_preempt s n hk, if_pos hslot]
    exact vget_map _ ht _ _
  · rw [coreOf_preempt s n hk, if_neg hslot]
  · rw [counterOf_preempt, hq, Option.map_some, if_pos ⟨hslot, hlive⟩]
  · refine (ctxCmd_begins hp hready hident hc hqueue hzero .resume).trans ?_
    simp [beginCtxCmd, hc, hheld, ctxOp]

/-! ### The generations of the slots -/

/-- The generation of each slot. -/
def gens (s : State) : Nat → BitVec 8 := fun m => (slotOf s m).gen

theorem gens_of_ctxs {s t : State} (h : t.ctxs = s.ctxs) : gens t = gens s := by
  unfold gens slotOf
  rw [h]

theorem gens_modCtx (s : State) (n : Nat) (f : Ctx → Ctx) : gens (modCtx s n f) = gens s := by
  funext m
  by_cases hm : m = n
  · subst hm
    by_cases hn : m < 64
    · exact (congrArg CtxSlot.gen (slotOf_modSlot s m (fun x => { x with ctx := x.ctx.map f }) hn) :)
    · simp only [gens, slotOf, modCtx, modSlot, vset_past _ _ _ (Nat.le_of_not_lt hn)]
  · exact (congrArg CtxSlot.gen (slotOf_modSlot_ne s n m (fun x => { x with ctx := x.ctx.map f }) hm) :)

theorem ite_gens {c : Prop} [Decidable c] {a b s : State} (ha : gens a = gens s) (hb : gens b = gens s) :
    gens (if c then a else b) = gens s := by
  split
  · exact ha
  · exact hb

theorem gens_writeReceipt (s : State) (n : Nat) (raw : BitVec 256) (notify : Bool) : gens (writeReceipt s n raw notify) = gens s := by
  unfold writeReceipt
  dsimp only
  split
  next t hwrite =>
    have ht : gens t = gens s := gens_of_ctxs ((sameUnits_ringWrite hwrite).ctxs.trans rfl)
    exact ite_gens ((gens_of_ctxs (sendVector_ctxs _ _)).trans ht) ht
  next =>
    have hdead (t : State) (v : Violation) : gens (deadLetter t v) = gens t := gens_of_ctxs (deadLetter_ctxs t v)
    refine ite_gens ?_ ?_
    · exact (gens_modCtx _ _ _).trans (hdead _ _)
    · exact hdead _ _

theorem gens_pushReceipt (s : State) (n : Nat) (raw : BitVec 256) (notify : Bool) : gens (pushReceipt s n raw notify) = gens s :=
  ite_gens rfl (gens_writeReceipt s n raw notify)

theorem gens_eventReceipt (s : State) (n status detail : Nat) (tag : Word) : gens (eventReceipt s n status detail tag) = gens s :=
  ite_gens (gens_pushReceipt s n _ true) rfl

theorem gens_quarantine (s : State) (n : Nat) : gens (quarantine s n) = gens s := by
  refine ite_gens ((gens_eventReceipt _ _ _ _ _).trans ?_) rfl
  exact (gens_of_ctxs (sendVector_ctxs _ _)).trans (gens_modCtx _ _ _)

theorem gens_hostViolation {reply : State → State} (hr : ∀ s, gens (reply s) = gens s) (s : State) (v : Violation) :
    gens (hostViolation s v reply) = gens s := by
  have hdead : gens (deadLetter s v) = gens s := gens_of_ctxs (deadLetter_ctxs s v)
  unfold hostViolation
  dsimp only
  split
  · exact (gens_quarantine _ _).trans ((hr _).trans ((gens_modCtx _ _ _).trans hdead))
  · exact (hr _).trans hdead

theorem gens_answerD (s : State) (p : Packet) (op status detail : Nat) : gens (answerD s p op status detail) = gens s := by
  obtain ⟨v, hv⟩ := answerD_eq s p op status detail
  rw [hv]
  exact ite_gens (gens_hostViolation (fun t => gens_pushReceipt t _ _ _) s v) (gens_pushReceipt s _ _ _)

theorem gens_writeObj (s : State) (n : Nat) (o : Obj) (off : Nat) (bs : List Byte) : gens (writeObj s n o off bs) = gens s :=
  ite_gens rfl (gens_of_ctxs (sameUnits_writePlace s n _ off bs).ctxs)

theorem gens_spoilState (s : State) (j : VideoJob) (len : Nat) : gens (spoilState s j len) = gens s := by
  unfold spoilState
  split
  · exact gens_writeObj s _ _ _ _
  · rfl

section
variable (s : State) (n : Nat)

theorem gens_modPipe (f : VideoPipe → VideoPipe) : gens (modPipe s n f) = gens s := rfl
theorem gens_setRing (r : Ring) : gens (setRing s n r) = gens s := rfl
theorem gens_modBothSets (f : ConfigSet → ConfigSet) : gens (modBothSets s f) = gens s := rfl
theorem gens_freeCounters (own : Nat → Bool) : gens (freeCounters s own) = gens s := rfl
theorem gens_flushLookAside : gens (flushLookAside s n) = gens s := rfl
theorem gens_dropUnits : gens (dropUnits s n) = gens s := rfl
theorem gens_scrubCores : gens (scrubCores s n) = gens s := rfl
theorem gens_scrubPart : gens (scrubPart s n) = gens s := rfl

end

theorem gens_stopJob (s : State) (k : Nat) (j : VideoJob) (why : StopKind) : gens (stopJob s k j why) = gens s := by
  unfold stopJob
  dsimp only
  cases why with
  | preempt =>
    change gens (modPipe (spoilState s j _) k fun x => { x with running := none, stopAt := none }) = gens s
    rw [gens_modPipe, gens_spoilState]
  | cancel => exact (gens_answerD _ _ _ _ _).trans ((gens_modPipe _ k _).trans (gens_spoilState s j _))
  | pause => rw [gens_modPipe, gens_modPipe, gens_spoilState]

theorem gens_killVideo (s : State) (n : Nat) : gens (killVideo s n) = gens s := by
  refine foldl_keeps gens (fun t k => ?_) _ s
  split
  · exact ite_gens (gens_stopJob t k _ _) rfl
  · rfl

/-! ### CTX_RETIRE and CTX_RESET -/

/-- A retirement leaves its slot without context and key, and advances its generation. -/
theorem slotOf_retireCtx {s : State} {n : Nat} {c : Ctx} (hc : ctxOf s n = some c) :
    slotOf (retireCtx s n) n = { ctx := none, key := none, kept := false, gen := (slotOf s n).gen + 1 } := by
  unfold retireCtx
  rw [hc]
  dsimp only
  generalize hs1 : (waitingPkts c).foldl _ _ = s1
  have hs1' : gens s1 = gens s := by
    subst hs1
    exact (foldl_keeps gens (fun t x => gens_answerD t _ _ _ _) _ _).trans (gens_killVideo s n)
  have hn : n < 64 := lt_of_ctxOf s hc
  refine (slotOf_modSlot _ n (fun x => { ctx := none, key := none, kept := false, gen := x.gen + 1 }) hn).trans ?_
  generalize hs4 : (scratchParts _ n).foldl scrubPart _ = s4
  have hs4' : gens s4 = gens s1 := by
    subst hs4
    refine (foldl_keeps gens gens_scrubPart _ _).trans ?_
    simp only [gens_scrubCores, gens_dropUnits, gens_flushLookAside, disableRing, gens_setRing, gens_modBothSets, gens_freeCounters]
  have hgen : (slotOf s4 n).gen = (slotOf s n).gen := congrFun (hs4'.trans hs1') n
  rw [hgen]

/-- Settles O15: CTX_RESET's answer, CTX_RETIRE's answer, and the slot that a retirement leaves. -/
theorem contextResetsAndRetires : Obligations.ContextResetsAndRetires := by
  intro p s n c hp hready hident hc hqueue hzero hrun
  refine ⟨?_, ?_, fun u hu hn => ?_⟩
  · refine (ctxCmd_begins hp hready hident hc hqueue hzero .reset).trans ?_
    simp [beginCtxCmd, hrun, endCtxCmd, ctxOp]
  · refine (ctxCmd_begins hp hready hident hc hqueue hzero .retire).trans ?_
    simp [beginCtxCmd, hrun, endCtxCmd, ctxOp]
  · obtain ⟨c, hc⟩ := Option.isSome_iff_exists.mp hu
    have hslot := slotOf_retireCtx hc
    exact ⟨congrArg CtxSlot.ctx hslot, congrArg CtxSlot.key hslot, congrArg CtxSlot.gen hslot⟩

end Sys2Proof.Machine
end

section
/-! SUPPORT. Configuration sets, firmware images and reports (spec/20 R382 to R391). -/

namespace Sys2Proof.Machine

/-! ### CFG_WRITE_SHADOW and CFG_READ -/

/-- One inline entry is written at its index. -/
theorem writeItems_inline (c : ConfigSet) {w : BitVec 256} (hinline : cfObj w = 0) (bs : List Byte) :
    writeItems c w (cfgEntries w bs) = putItem c (cfItem w) (cfSlot w) (cfIndex w) (BitVec.ofNat 64 (cfValue w)) := by
  simp [writeItems, cfgEntries, hinline]

theorem execCfgWriteShadow_inline {p : Packet} {s : State} {c : ConfigSet} (hp : p.ring = 64) (hready : ready s = true)
    (hfields : writeFieldBad p.param = false) (hinline : cfObj p.param = 0) (hitem : cfItem p.param ≠ 9) (hswap : s.swap = none)
    (hc : putItem (shadowOf s) (cfItem p.param) (cfSlot p.param) (cfIndex p.param) (BitVec.ofNat 64 (cfValue p.param)) = c)
    (hentry : entryOk s (cfItem p.param) (cfSlot p.param) (BitVec.ofNat 64 (cfValue p.param)) = true)
    (hset : setOk c (cfItem p.param) (cfSlot p.param) = true) :
    exec (.cfgWriteShadow p) s = .next (answer (modShadow s fun _ => c) p 0x50 0 0) := by
  have hwritten : writeItems (shadowOf s) p.param (cfgEntries p.param []) = c := (writeItems_inline _ hinline []).trans hc
  show execCfgWriteShadow p s = _
  rw [execCfgWriteShadow, mgmtCommand_next _ hp hready]
  have hsource : cfgSource s p.param = some { bytes := [], bad := [] } := if_pos hinline
  have hall : (cfgEntries p.param []).all (entryOk s (cfItem p.param) (cfSlot p.param)) = true := by
    simp [cfgEntries, hinline, hentry]
  simp only [hfields, hsource, hswap, hwritten, hset, hall, if_neg hitem]
  simp

theorem execCfgRead_reads {p : Packet} {s : State} (hp : p.ring = 64) (hready : ready s = true) (hfields : cfgFieldBad p.param = false)
    (hobj : cfObj p.param = 0) (haddr : cfAddr p.param % 8 = 0) :
    exec (.cfgRead p) s = .next (answer (hostRecord s (cfAddr p.param) ((List.range (cfCount p.param)).flatMap fun i =>
      itemBytes (if cfShadow p.param then shadowOf s else cfgOf s) (cfItem p.param) (cfSlot p.param) (cfIndex p.param + i))) p 0x52 0 0) := by
  show execCfgRead p s = _
  rw [execCfgRead, mgmtCommand_next _ hp hready]
  simp [hfields, hobj, haddr]

/-! ### CFG_SWAP -/

theorem execCfgSwap_waits {p : Packet} {s : State} (hp : p.ring = 64) (hready : ready s = true) (hzero : bits p.param 0 224 = 0)
    (hswap : s.swap = none) :
    exec (.cfgSwap p) s = .next (draw { s with swap := some { pkt := p, timeout := BitVec.ofNat 32 (bits p.param 224 32) } }) := by
  show execCfgSwap p s = _
  rw [execCfgSwap, mgmtCommand_next _ hp hready]
  simp [zeroBits_of hzero, hswap]

theorem execCfgSwapPoint_swaps {s : State} {x : Swap} (hready : ready s = true) (hswap : s.swap = some x) (hpoint : swapPoint s = true)
    (hparts : changedParts s = []) : exec .cfgSwapPoint s = .next (answer (swapSets s) x.pkt 0x51 0 0) := by
  show execCfgSwapPoint s = _
  simp [execCfgSwapPoint, hready, hswap, hpoint, hparts]

theorem execCfgSwapTimeout_ends {s : State} {x : Swap} (hready : ready s = true) (hswap : s.swap = some x) (htimeout : x.timeout ≠ 0) :
    exec .cfgSwapTimeout s = .next (answer { s with swap := none } x.pkt 0x51 0x0401 0) := by
  show execCfgSwapTimeout s = _
  simp only [execCfgSwapTimeout, hready, hswap, if_neg htimeout]

/-- The state with the new set in both places, before the contexts take its words. -/
def swapped (s : State) : State :=
  { s with active := !s.active, swaps := s.swaps + 1, setA := shadowOf s, setB := shadowOf s, measured := shadowOf s, cache := [],
           swap := none, clusters := s.clusters.map fun k => { k with lookAside := [] } }

theorem swapSets_eq {s : State} (hparts : changedParts s = []) :
    swapSets s = (List.range 64).foldl (fun t n => takeWords t (cfgOf s) (shadowOf s) n) (swapped s) := by
  simp only [swapSets, hparts, List.foldl_nil]
  rfl

/-- What the swap sets stays while the contexts take the words of the new set. -/
theorem swapSets_keeps {α : Type} (g : State → α) (hg : ∀ t n f, g (modCtx t n f) = g t) {s : State} (hparts : changedParts s = []) :
    g (swapSets s) = g (swapped s) := by
  rw [swapSets_eq hparts]
  exact foldl_keeps g (fun t n => hg t n _) _ _

/-- Settles O16: writes, reads and swaps of the configuration sets. -/
theorem configurationSetsAct : Obligations.ConfigurationSetsAct := by
  refine ⟨fun p s hp hready => ⟨fun hfields hinline hitem hswap => ?_, execCfgRead_reads hp hready⟩, fun p s x =>
    ⟨fun hp hready hzero hswap => ⟨_, execCfgSwap_waits hp hready hzero hswap, ⟨_, rfl, rfl, ?_⟩, rfl, rfl⟩,
      fun hready hswap hpoint hparts => ⟨_, execCfgSwapPoint_swaps hready hswap hpoint hparts, ?_⟩, execCfgSwapTimeout_ends⟩⟩
  · intro v c hentry hset
    exact ⟨_, execCfgWriteShadow_inline hp hready hfields hinline hitem hswap rfl hentry hset, shadowOf_modShadow s _, cfgOf_modShadow s _⟩
  · exact Nat.mod_eq_of_lt (bits_lt _ _ _)
  · have hactive := swapSets_keeps State.active (fun _ _ _ => rfl) hparts
    have hcfg : cfgOf (swapped s) = shadowOf s := ite_self _
    have hshadow : shadowOf (swapped s) = shadowOf s := ite_self _
    exact ⟨hactive, swapSets_keeps State.swaps (fun _ _ _ => rfl) hparts, (swapSets_keeps cfgOf (fun _ _ _ => rfl) hparts).trans hcfg,
      (swapSets_keeps shadowOf (fun _ _ _ => rfl) hparts).trans hshadow, swapSets_keeps State.cache (fun _ _ _ => rfl) hparts,
      swapSets_keeps State.swap (fun _ _ _ => rfl) hparts⟩

/-! ### FW_STAGE and FW_ACTIVATE -/

theorem execFwStage_judges {p : Packet} {s : State} {rd : Rd} (hp : p.ring = 64) (hready : ready s = true)
    (hzero : bits p.param 0 144 = 0) (hoff : bits p.param 176 48 % 4096 = 0) (hsome : bits p.param 144 32 ≠ 0)
    (hsize : bits p.param 144 32 ≤ 16777216)
    (hread : mgmtRead s none (bits p.param 224 32) (bits p.param 176 48) (bits p.param 144 32) = some rd) (hgood : rd.bad = []) :
    exec (.fwStage p) s = .next (
      if Config.keyDigestMatches rd.bytes = false ∨ Config.signatureVerifies rd.bytes = false then answer s p 0x91 0x0600 0
      else if svnOf rd.bytes < s.fw.floor.toNat then answer s p 0x91 0x0601 0
      else answer (stageImage s rd.bytes) p 0x91 0 0) := by
  show execFwStage p s = _
  rw [execFwStage, mgmtCommand_next _ hp hready]
  simp [zeroBits_of hzero, hoff, hsome, Nat.not_lt.mpr hsize, hread, hgood]

theorem fwActivate_acts {p : Packet} {s : State} {op : Nat} (hp : p.ring = 64) (hready : ready s = true) (hzero : bits p.param 0 254 = 0)
    (hop : bits p.param 254 2 = op) (f : State → State) : fwActivate p op s f = .next (f s) := by
  rw [fwActivate, mgmtCommand_next _ hp hready]
  simp [hop, zeroBits_of hzero]

section
variable {p : Packet} {s : State} (hp : p.ring = 64) (hready : ready s = true) (hzero : bits p.param 0 254 = 0)
include hp hready hzero

theorem execFwActivateSelect_selects (hop : bits p.param 254 2 = 0) (hstaged : s.fw.staged.isSome = true) :
    exec (.fwActivateSelect p) s = .next (answer { s with fw := { s.fw with selected := !s.fw.running } } p 0x92 0 0) := by
  obtain ⟨v, hv⟩ := Option.isSome_iff_exists.mp hstaged
  show execFwActivateSelect p s = _
  rw [execFwActivateSelect, fwActivate_acts hp hready hzero hop]
  simp [hv]

theorem execFwActivateRaiseFloor_raises (hop : bits p.param 254 2 = 1) :
    exec (.fwActivateRaiseFloor p) s = .next (answer { s with fw := { s.fw with
      floor := if s.fw.floor < runningSvn s then runningSvn s else s.fw.floor } } p 0x92 0 0) := by
  show execFwActivateRaiseFloor p s = _
  rw [execFwActivateRaiseFloor, fwActivate_acts hp hready hzero hop]

theorem execFwActivateKeep_keeps (hop : bits p.param 254 2 = 2) :
    exec (.fwActivateKeep p) s = .next (answer { s with fw := { s.fw with selected := s.fw.running } } p 0x92 0 0) := by
  show execFwActivateKeep p s = _
  rw [execFwActivateKeep, fwActivate_acts hp hready hzero hop]

end

/-- The floor that RAISE_FLOOR leaves is the greater of the floor and the running image's version. -/
theorem toNat_raised (floor svn : BitVec 8) : (if floor < svn then svn else floor).toNat = max floor.toNat svn.toNat := by
  split <;> rename_i h <;> rw [BitVec.lt_def] at h <;> omega

/-! ### ATTEST -/

/-- A report begins with its ident, the postmark, the nonce and 24 zero bytes. -/
theorem reportBody_begins (s : State) (n nonce : Nat) (tail : List Byte) : ∃ rest, reportBody s n nonce ++ tail =
    leBytes 16 (reportIdent s n) ++ (leBytes 8 s.postmark.toNat ++ (leBytes 16 nonce ++ (List.replicate 24 0 ++ rest))) := by
  unfold reportBody
  dsimp only
  simp only [List.append_assoc]
  exact ⟨_, rfl⟩

/-- The first four fields of a report lie at bytes 0, 16, 24 and 40. -/
theorem reportFields (ident time nonce : Nat) (rest : List Byte) :
    let bs := leBytes 16 ident ++ (leBytes 8 time ++ (leBytes 16 nonce ++ (List.replicate 24 0 ++ rest)))
    bs.take 16 = leBytes 16 ident ∧ (bs.drop 16).take 8 = leBytes 8 time ∧ (bs.drop 24).take 16 = leBytes 16 nonce ∧
      (bs.drop 40).take 24 = List.replicate 24 0 := by
  intro bs
  have hident := leBytes_length 16 ident
  have htime := leBytes_length 8 time
  have hnonce := leBytes_length 16 nonce
  have h16 : bs.drop 16 = leBytes 8 time ++ (leBytes 16 nonce ++ (List.replicate 24 0 ++ rest)) := List.drop_left' hident
  have h24 : bs.drop 24 = leBytes 16 nonce ++ (List.replicate 24 0 ++ rest) := by
    rw [← List.drop_drop (i := 8) (j := 16), h16, List.drop_left' htime]
  have h40 : bs.drop 40 = List.replicate 24 0 ++ rest := by
    rw [← List.drop_drop (i := 16) (j := 24), h24, List.drop_left' hnonce]
  refine ⟨List.take_left' hident, ?_, ?_, ?_⟩
  · rw [h16, List.take_left' htime]
  · rw [h24, List.take_left' hnonce]
  · rw [h40, List.take_left' List.length_replicate]

theorem execAttest_reports {p : Packet} {s : State} {n : Nat} (hacc : Accepts p s) (hslot : pktSlot s p = some n)
    (haddr : bits p.param 192 64 % 64 = 0) (hzero : bits p.param 0 64 = 0) : ∃ tail, exec (.attest p) s =
      .next (answer (hostRecord s (bits p.param 192 64) (reportBody s n (bits p.param 64 128) ++ tail)) p 0x90 0 0) := by
  refine ⟨engineBytes 49856 (Config.identitySignature (reportBody s n (bits p.param 64 128))), ?_⟩
  show execAttest p s = _
  rw [execAttest, ctxCommand_next _ hacc hslot]
  simp only [haddr, zeroBits_of hzero]
  rw [if_neg (by decide)]

/-- Settles O17: images are judged and staged, FW_ACTIVATE selects, raises and keeps, and ATTEST writes its report. -/
theorem firmwareCommandsAnswer : Obligations.FirmwareCommandsAnswer := by
  refine fun p s => ⟨fun rd hp hready hzero hoff hsome hsize hread hgood =>
    execFwStage_judges hp hready hzero hoff hsome hsize hread hgood, fun hp hready hzero =>
    ⟨execFwActivateSelect_selects hp hready hzero, fun hop =>
      ⟨_, toNat_raised s.fw.floor (runningSvn s), execFwActivateRaiseFloor_raises hp hready hzero hop⟩,
      execFwActivateKeep_keeps hp hready hzero⟩, fun n hacc hslot haddr hzero => ?_⟩
  obtain ⟨tail, hexec⟩ := execAttest_reports hacc hslot haddr hzero
  obtain ⟨rest, hbody⟩ := reportBody_begins s n (bits p.param 64 128) tail
  rw [hbody] at hexec
  exact ⟨_, hexec, reportFields _ _ _ _⟩

end Sys2Proof.Machine
end

section
/-! SUPPORT. The power limit, the thermal limits, re-plans and ageing (spec/21 R398 to R412). -/

namespace Sys2Proof.Machine

/-! ### What an event leaves unchanged -/

@[simp] theorem unanswered_powerEvent (s : State) (detail : Nat) : unanswered (powerEvent s detail) = unanswered s :=
  (unanswered_eventReceipt _ _ _ _ _).trans (unanswered_logHealth _ _ _ _ _ _)

theorem age_of_unanswered {s t : State} (h : unanswered t = unanswered s) : t.age = s.age := by
  change (unanswered t).age = (unanswered s).age
  rw [h]

theorem mgmt_of_unanswered {s t : State} (h : unanswered t = unanswered s) : t.mgmt = s.mgmt := by
  change (unanswered t).mgmt = (unanswered s).mgmt
  rw [h]

/-! ### The power limit -/

theorem execPwrLimit_sets {p : Packet} {s : State} (hp : p.ring = 64) (hready : ready s = true) (hzero : bits p.param 0 246 = 0)
    (hlo : 300 ≤ bits p.param 246 10) (hhi : bits p.param 246 10 ≤ 750) : exec (.pwrLimit p) s =
      .next (answer (modBothSets s fun c => { c with power := putBits c.power 0 10 (bits p.param 246 10) }) p 0xA0 0 0) := by
  show execPwrLimit p s = _
  rw [execPwrLimit, mgmtCommand_next _ hp hready]
  simp [zeroBits_of hzero, Nat.not_lt.mpr hlo, Nat.not_lt.mpr hhi]

/-- Both sets hold the limit that PWR_LIMIT gives. -/
theorem power_modBothSets_limit (s : State) {l : Nat} (hl : l ≤ 750) :
    let u := modBothSets s fun c => { c with power := putBits c.power 0 10 l }
    limitOf u = l ∧ bits (shadowOf u).power 0 10 = l := by
  have hput (x : BitVec 64) : bits (putBits x 0 10 l) 0 10 = l :=
    (bits_putBits_same x l (by decide)).trans (Nat.mod_eq_of_lt (by omega))
  intro u
  refine ⟨?_, ?_⟩
  · rw [limitOf, cfgOf_modBothSets]
    exact hput _
  · rw [shadowOf_modBothSets]
    exact hput _

/-! ### Control periods -/

/-- The state as a control period has taken its sample. -/
def powerSampled (s : State) (m : PowerSample) : State :=
  { s with mgmt := { s.mgmt with sensors := m }, age := { s.age with watts := (m.watts :: s.age.watts).take 10 } }

theorem execPowerControlPeriod_ready {s : State} (m : PowerSample) (haux : s.life.auxGood = true) (hready : ready s = true) :
    exec (.powerControlPeriod m) s = .next (controlPower (powerSampled s m) m) := by
  show execPowerControlPeriod m s = _
  simp only [execPowerControlPeriod, haux, Bool.not_true, Bool.false_eq_true, if_false]
  exact if_pos hready

theorem controlPower_counts (s : State) (m : PowerSample) (h : ¬(s.age.kPower = 63 ∧ limitOf s < m.watts10ms)) :
    (controlPower s m).mgmt = s.mgmt ∧ (controlPower s m).age.limitUnmet = false ∧ (controlPower s m).age.kPower < 64 := by
  rw [controlPower, if_neg h]
  exact ⟨rfl, rfl, Nat.mod_lt _ (by decide)⟩

theorem controlPower_unmet (s : State) (m : PowerSample) (hk : s.age.kPower = 63) (hlimit : limitOf s < m.watts10ms) :
    (controlPower s m).mgmt = s.mgmt ∧ (controlPower s m).age.limitUnmet = true ∧ (controlPower s m).age.kPower = 63 := by
  rw [controlPower, if_pos ⟨hk, hlimit⟩]
  by_cases hunmet : s.age.limitUnmet = true
  · rw [if_pos hunmet]
    exact ⟨rfl, hunmet, hk⟩
  · have hevent := unanswered_powerEvent { s with age := { s.age with limitUnmet := true } } 0x0A05
    rw [if_neg hunmet, mgmt_of_unanswered hevent, age_of_unanswered hevent]
    exact ⟨rfl, rfl, hk⟩

/-! ### The thermal limits -/

theorem thermalK_between {k move : Nat} {t : Int} (hlo : 92 * 16 ≤ t) (hhi : t < 95 * 16) : thermalK k move t = k := by
  rw [thermalK, if_neg (by omega), if_neg (by omega)]

theorem thermalK_below {k move : Nat} {t : Int} (ht : t < 92 * 16) (hk : 0 < k) : thermalK k move t < k := by
  rw [thermalK, if_neg (by omega), if_pos ht, if_neg (by omega)]
  exact Nat.mod_lt _ hk

theorem thermalK_above {k move : Nat} {t : Int} (ht : 95 * 16 < t) (hk : k < 63) : k < thermalK k move t ∧ thermalK k move t ≤ 63 := by
  have hmove := Nat.mod_lt move (show 63 - k > 0 by omega)
  rw [thermalK, if_pos (by omega), if_pos hk]
  omega

theorem countLife_kThermal (a : Ageing) (t : Int) : (countLife a t).kThermal = a.kThermal := by
  unfold countLife
  dsimp only
  split <;> rfl

theorem setAlert_keeps (s : State) (i : Nat) : (setAlert s i).mgmt.temps = s.mgmt.temps ∧ (setAlert s i).age = s.age := by
  by_cases h : vddAon s = true
  · obtain ⟨o, ho⟩ := setAlert_emits h i
    rw [ho]
    exact ⟨rfl, rfl⟩
  · rw [setAlert, if_neg h]
    exact ⟨rfl, rfl⟩

/-- A thermal sample is taken, and moves the count by the hottest junction. -/
theorem execThermalSample_moves {s : State} (m : ThermalSample) (hready : ready s = true) (hon : s.life.power ≠ .off) :
    ∃ t move, exec (.thermalSample m) s = .next t ∧ t.mgmt.temps = m ∧ t.age.kThermal = thermalK s.age.kThermal move (hottest m) := by
  show ∃ t move, execThermalSample m s = _ ∧ _
  simp only [execThermalSample, if_neg hon]
  rw [if_neg (by simpa [ready] using hready)]
  generalize hs2 : draw _ = s2
  have hs2' : s2.mgmt.temps = m ∧ s2.age.kThermal = thermalK s.age.kThermal (Config.thermalMove s.fresh) (hottest m) := by
    subst hs2
    exact ⟨rfl, countLife_kThermal _ _⟩
  obtain ⟨htemps2, hk2⟩ := hs2'
  split
  · have hevent := unanswered_powerEvent s2 0x0A06
    obtain ⟨htemps, hage⟩ := setAlert_keeps (powerEvent s2 0x0A06) 3
    exact ⟨_, Config.thermalMove s.fresh, rfl, by rw [htemps, mgmt_of_unanswered hevent, htemps2],
      by rw [hage, age_of_unanswered hevent, hk2]⟩
  · exact ⟨_, _, rfl, htemps2, hk2⟩

theorem execThermalShutdown_stops {s : State} (h : s.life.power ≠ .off) : ∃ t, exec .thermalShutdown s = .next t ∧ t.life.power = .off ∧
    t.life.thermLow = true ∧ t.life.linkUp = false ∧ bit t.mgmt.alertW1c 2 = true ∧ bit t.mgmt.alertW1c 4 = true := by
  let u : State := { railsOff s with life := { (railsOff s).life with thermLow := true } }
  obtain ⟨o, ho⟩ := alerting_emits u fun s => setAlertBit (setAlertBit s 2) 4
  refine ⟨_, show execThermalShutdown s = _ from if_neg h, ?_⟩
  rw [ho]
  exact ⟨rfl, rfl, rfl, bit_or_left (setAlertBit_bit u (i := 2) (by decide)) _, setAlertBit_bit _ (by decide)⟩

/-- Settles O18: the limit, the counts of each sample, idle windows and the shutdown. -/
theorem powerAndThermalLimitsAct : Obligations.PowerAndThermalLimitsAct := by
  refine ⟨fun p s m core => ⟨fun hp hready hzero hlo hhi => ?_, fun haux hready hmet => ?_, fun haux hready hk hlimit => ?_,
    fun hready hcore => ?_⟩, fun m s => ⟨fun hready hon => ?_, execThermalShutdown_stops⟩⟩
  · obtain ⟨hlimit, hshadow⟩ := power_modBothSets_limit s hhi
    exact ⟨_, execPwrLimit_sets hp hready hzero hlo hhi, hlimit, hshadow, rfl⟩
  · obtain ⟨hmgmt, hcounts⟩ := controlPower_counts (powerSampled s m) m hmet
    exact ⟨_, execPowerControlPeriod_ready m haux hready, congrArg Mgmt.sensors hmgmt, hcounts⟩
  · obtain ⟨hmgmt, hcounts⟩ := controlPower_unmet (powerSampled s m) m hk hlimit
    exact ⟨_, execPowerControlPeriod_ready m haux hready, congrArg Mgmt.sensors hmgmt, hcounts⟩
  · refine ⟨_, show execIdleWindow core s = _ from if_pos hready, ?_⟩
    rw [coreOf_modCore _ _ _ hcore]
    exact ⟨rfl, rfl⟩
  · obtain ⟨t, move, hexec, htemps, hk⟩ := execThermalSample_moves m hready hon
    exact ⟨t, hexec, htemps, fun hlo hhi => hk.trans (thermalK_between hlo hhi), fun hlo hpos => hk ▸ thermalK_below hlo hpos,
      fun hhi hlt => hk ▸ thermalK_above hhi hlt⟩

/-! ### Re-plans -/

theorem bit_powerBits (a : Ageing) (w : BitVec 64) : bit (powerBits a w) 47 = a.clkSlow ∧ bit (powerBits a w) 46 = a.memSlow := by
  refine ⟨?_, bit_putBits_same _ (by decide) _⟩
  rw [powerBits, bit_putBits_other _ _ _ _ (by decide) (by decide)]
  exact bit_putBits_same _ (by decide) _

/-- The state as CLK_ARITH has stepped, before its event. -/
def clkStepped (s : State) : State :=
  let s1 := { s with age := { s.age with clkSlow := true, clkPend := none } }
  modBothSets s1 fun c => { c with power := powerBits s1.age c.power }

/-- The state as LPDDR6 has stepped, before its event. -/
def memStepped (s : State) : State :=
  let s1 := { s with age := { s.age with memSlow := true, memPend := none } }
  modBothSets s1 fun c => { c with power := powerBits s1.age c.power }

theorem execClkReplanApply_steps {s : State} {r : Replan} (hready : ready s = true) (hpend : s.age.clkPend = some r)
    (hquiet : quiescent s = true) (hroot : sourceBad s .rootPll = false) (harith : sourceBad s (.divider .arith) = false) :
    exec .clkReplanApply s = .next (answerReplan (powerEvent (clkStepped s) 0x0A03) r 0) := by
  show execClkReplanApply s = _
  simp only [execClkReplanApply, hready, hpend, hquiet, hroot, harith, Bool.not_true, Bool.false_eq_true, if_false, Bool.or_self]
  rfl

theorem execMemStepApply_steps {s : State} {r : Replan} (hready : ready s = true) (hpend : s.age.memPend = some r)
    (hquiet : quiescent s = true) : exec .memStepApply s = .next (answerReplan (powerEvent (memStepped s) 0x0A04) r 0) := by
  show execMemStepApply s = _
  simp only [execMemStepApply, hready, hpend, hquiet, Bool.not_true, Bool.false_eq_true, if_false]
  rfl

theorem execReplanQuiesceTimeout_cancels {s : State} {r : Replan} (hready : ready s = true) (hpend : s.age.clkPend = some r)
    (hforced : r.forced = true) : exec .replanQuiesceTimeout s = .next (cancelAll s) := by
  show execReplanQuiesceTimeout s = _
  simp [execReplanQuiesceTimeout, hready, hpend, hforced]

/-! ### Ageing samples -/

theorem nextVdd_within {mv : Nat} (hlo : 550 ≤ mv) (hhi : mv ≤ 620) (slack : Int) : 550 ≤ nextVdd mv slack ∧ nextVdd mv slack ≤ 620 ∧
    (slack < 40 → nextVdd mv slack = min 620 (mv + 5)) ∧ (40 ≤ slack → slack < 60 → nextVdd mv slack = mv) ∧
    (60 ≤ slack → nextVdd mv slack = max 550 (mv - 5)) := by
  unfold nextVdd
  split
  · omega
  · split <;> omega

theorem force_forced (r : Option Replan) : ∃ x, force r = some x ∧ x.forced = true := ⟨_, rfl, rfl⟩

/-- The state after a step, whether or not its event is told. -/
theorem ite_powerEvent_age (c : Prop) [Decidable c] (s : State) (detail : Nat) : (if c then powerEvent s detail else s).age = s.age := by
  split
  · exact age_of_unanswered (unanswered_powerEvent s detail)
  · rfl

theorem execAgeingSample_moves {s : State} {l : List Int} {low : Int} (hready : ready s = true) (hmin : l.min? = some low) :
    ∃ t, exec (.ageingSample l) s = .next t ∧ t.age.slackMin = low ∧ t.age.vddMv = nextVdd s.age.vddMv low ∧
      t.age.clkPend = if low < 15 ∧ !s.age.clkSlow then force s.age.clkPend else s.age.clkPend := by
  show ∃ t, execAgeingSample l s = _ ∧ _
  simp only [execAgeingSample, hready, hmin]
  refine ⟨_, rfl, ?_⟩
  rw [ite_powerEvent_age]
  exact ⟨rfl, rfl, rfl⟩

theorem execMemMarginMeasure_pends {s : State} (m : MarginSample) (hready : ready s = true) :
    ∃ t, exec (.memMarginMeasure m) s = .next t ∧
      t.age.memPend = if (m.belowForced || m.linkEccHigh) && !s.age.memSlow then force s.age.memPend else s.age.memPend := by
  show ∃ t, execMemMarginMeasure m s = _ ∧ _
  simp only [execMemMarginMeasure, hready, Bool.not_true, Bool.false_eq_true, if_false]
  refine ⟨_, rfl, ?_⟩
  rw [ite_powerEvent_age]

theorem execAgeingReport_writes {p : Packet} {s : State} (hacc : Accepts p s) (haddr : bits p.param 192 64 % 64 = 0)
    (hzero : bits p.param 0 192 = 0) : exec (.ageingReport p) s =
      .next (answer (hostRecord s (bits p.param 192 64) (leBytes 128 (ageingRecord s))) p 0xA2 0 0) := by
  show execAgeingReport p s = _
  rw [execAgeingReport, firmware_next _ hacc]
  simp [haddr, zeroBits_of hzero]

theorem execClockMonitorWindow_lists {s : State} (cs : List EdgeCount) (haon : vddAon s = true) :
    ∃ t, exec (.clockMonitorWindow cs) s = .next t ∧ t.age.stoppedSrc = (cs.filter fun c => c.edges == 0).map (·.source) := by
  show ∃ t, execClockMonitorWindow cs s = _ ∧ _
  simp only [execClockMonitorWindow, haon, Bool.not_true, Bool.false_eq_true, if_false]
  exact ⟨_, rfl, rfl⟩

/-- Settles O20: re-plans at the quiescent point, ageing samples and the clock monitor. -/
theorem replansAndAgeingAct : Obligations.ReplansAndAgeingAct := by
  refine ⟨fun s r hready => ⟨fun hpend hquiet hroot harith => ?_, fun hpend hquiet => ?_, execReplanQuiesceTimeout_cancels hready⟩,
    fun s l low m p cs hready => ⟨fun hmin => ?_, ?_, fun hring haddr hzero => execAgeingReport_writes ⟨hring, hready⟩ haddr hzero,
      execClockMonitorWindow_lists cs⟩⟩
  · refine ⟨_, execClkReplanApply_steps hready hpend hquiet hroot harith, rfl, rfl, ?_, ?_⟩
    · rw [clkStepped, cfgOf_modBothSets]
      exact (bit_powerBits _ _).1
    · rw [clkStepped, shadowOf_modBothSets]
      exact (bit_powerBits _ _).1
  · refine ⟨_, execMemStepApply_steps hready hpend hquiet, rfl, rfl, ?_, ?_, rfl⟩
    · rw [memStepped, cfgOf_modBothSets]
      exact (bit_powerBits _ _).2
    · rw [memStepped, shadowOf_modBothSets]
      exact (bit_powerBits _ _).2
  · obtain ⟨t, hexec, hslack, hvdd, hpend⟩ := execAgeingSample_moves hready hmin
    refine ⟨t, hexec, hslack, fun hlo hhi => hvdd ▸ nextVdd_within hlo hhi low, fun hlow hfast => ?_⟩
    rw [hpend, if_pos ⟨hlow, by simp [hfast]⟩]
    exact force_forced _
  · obtain ⟨t, hexec, hpend⟩ := execMemMarginMeasure_pends m hready
    refine ⟨t, hexec, fun hbelow hfast => ?_⟩
    rw [hpend, if_pos (by simp [hbelow, hfast])]
    exact force_forced _

end Sys2Proof.Machine
end

section
/-! SUPPORT. The bytes of a receipt, and what an answer leaves unchanged (spec/19 R368 to R370, Table 19.18). -/

namespace Sys2Proof.Machine

/-! ### Part of a number that was written -/

theorem drop_leBytes {n k : Nat} (v : Nat) (h : k ≤ n) : (leBytes n v).drop k = leBytes (n - k) (v / 256 ^ k) := by
  induction k generalizing n v with
  | zero => simp
  | succ k ih =>
    obtain ⟨m, rfl⟩ := Nat.exists_eq_add_of_le' (Nat.lt_of_lt_of_le (Nat.succ_pos k) h)
    rw [leBytes, List.drop_succ_cons, ih _ (by omega), Nat.div_div_eq_div_mul, ← Nat.pow_succ', show m + 1 - (k + 1) = m - k by omega]

theorem take_leBytes {n w : Nat} (v : Nat) (h : w ≤ n) : (leBytes n v).take w = leBytes w v := by
  induction w generalizing n v with
  | zero => rfl
  | succ w ih =>
    obtain ⟨m, rfl⟩ := Nat.exists_eq_add_of_le' (Nat.lt_of_lt_of_le (Nat.succ_pos w) h)
    rw [leBytes, List.take_succ_cons, ih _ (by omega), leBytes]

theorem read_part (m : Mem) (a : Nat) {k w n : Nat} (h : k + w ≤ n) : Mem.read m (a + k) w = ((Mem.read m a n).drop k).take w := by
  apply List.ext_getElem
  · simp only [Mem.read, List.length_map, List.length_range, List.length_take, List.length_drop]
    omega
  · intro i h1 h2
    simp [Mem.read, Nat.add_assoc]

/-- Bytes `k` to `k + w` of a word that was written are its bits from `8 k` on. -/
theorem num_put_bits (m : Mem) (a : Nat) (x : BitVec 256) {k w : Nat} (h : k + w ≤ 32) :
    Mem.num (Mem.put m a 32 x.toNat) (a + k) w = bits x (8 * k) (8 * w) := by
  have hread := Mem.read_write m a (leBytes 32 x.toNat)
  rw [leBytes_length] at hread
  rw [Mem.num, Mem.put, read_part _ a h, hread, drop_leBytes _ (by omega), take_leBytes _ (by omega), ofLe_leBytes, bits_eq, Nat.pow_mul,
    Nat.pow_mul]

/-! ### The fields of a receipt -/

/-- A field reads as before where another is put. -/
theorem bits_putBits_other {w : Nat} (x : BitVec w) {lo len lo' len' : Nat} (v : Nat) (h : lo + len ≤ w)
    (hout : lo + len ≤ lo' ∨ lo' + len' ≤ lo) : bits (putBits x lo' len' v) lo len = bits x lo len := by
  refine Nat.eq_of_testBit_eq fun i => ?_
  rw [bits, bits, BitVec.testBit_toNat, BitVec.testBit_toNat, BitVec.getLsbD_extractLsb', BitVec.getLsbD_extractLsb']
  by_cases hi : i < len
  · have hother := bit_putBits_other x lo' len' v (i := lo + i) (by omega) (by omega)
    rw [bit, bit] at hother
    rw [hother]
  · simp [hi]

theorem pack_head (w v : Nat) (l : List (Nat × Nat)) : pack ((w, v) :: l) / 2 ^ 0 % 2 ^ w = v % 2 ^ w := by
  rw [pack, Nat.pow_zero, Nat.div_one, Nat.add_mul_mod_self_left, Nat.mod_mod]

theorem pack_tail (w v lo len : Nat) (l : List (Nat × Nat)) : pack ((w, v) :: l) / 2 ^ (w + lo) % 2 ^ len = pack l / 2 ^ lo % 2 ^ len := by
  have hdiv : (v % 2 ^ w + 2 ^ w * pack l) / 2 ^ w = pack l := by
    rw [Nat.add_mul_div_left _ _ (Nat.two_pow_pos w), Nat.div_eq_of_lt (Nat.mod_lt _ (Nat.two_pow_pos w)), Nat.zero_add]
  rw [pack, Nat.pow_add, ← Nat.div_div_eq_div_mul, hdiv]

section
variable (s : State) (p : Packet) (op status detail : Nat)

theorem rcptOf_tag : bits (rcptOf s p op status detail) 0 64 = p.tag.toNat := by
  rw [rcptOf, bits_ofNat _ (by decide), pack_head, Nat.mod_eq_of_lt p.tag.isLt]

theorem rcptOf_seq : bits (rcptOf s p op status detail) 64 32 = p.seq.toNat := by
  rw [rcptOf, bits_ofNat _ (by decide), show 2 ^ 64 = 2 ^ (64 + 0) from rfl, pack_tail, pack_head, Nat.mod_eq_of_lt p.seq.isLt]

theorem rcptOf_status (h : status < 2 ^ 16) : bits (rcptOf s p op status detail) 96 16 = status := by
  rw [rcptOf, bits_ofNat _ (by decide), show 96 = 64 + (32 + 0) from rfl, pack_tail, pack_tail, pack_head, Nat.mod_eq_of_lt h]

theorem rcptOf_detail (h : detail < 2 ^ 16) : bits (rcptOf s p op status detail) 112 16 = detail := by
  rw [rcptOf, bits_ofNat _ (by decide), show 112 = 64 + (32 + (16 + 0)) from rfl, pack_tail, pack_tail, pack_tail, pack_head,
    Nat.mod_eq_of_lt h]

/-- No event bit, and 6 reserved bits of zero. -/
theorem rcptOf_reserved : bits (rcptOf s p op status detail) 193 7 = 0 := by
  rw [rcptOf, bits_ofNat _ (by decide), show 193 = 64 + (32 + (16 + (16 + (64 + (1 + 0))))) from rfl, pack_tail, pack_tail, pack_tail,
    pack_tail, pack_tail, pack_tail]
  simp only [pack]
  omega

theorem rcptOf_opcode (h : op < 2 ^ 8) : bits (rcptOf s p op status detail) 200 8 = op := by
  rw [rcptOf, bits_ofNat _ (by decide), show 200 = 64 + (32 + (16 + (16 + (64 + (1 + (1 + (6 + 0))))))) from rfl, pack_tail, pack_tail,
    pack_tail, pack_tail, pack_tail, pack_tail, pack_tail, pack_tail, pack_head, Nat.mod_eq_of_lt h]

end

/-- Receipt `raw` with its count and phase. -/
def counted (raw : BitVec 256) (comp phase : Nat) : BitVec 256 := putBits (putBits raw 128 64 comp) 192 1 phase

section
variable (raw : BitVec 256) (comp phase : Nat)

theorem bits_counted_low {lo len : Nat} (h : lo + len ≤ 128) : bits (counted raw comp phase) lo len = bits raw lo len := by
  rw [counted, bits_putBits_other _ _ (by omega) (by omega), bits_putBits_other _ _ (by omega) (by omega)]

theorem bits_counted_high {lo len : Nat} (hlo : 193 ≤ lo) (h : lo + len ≤ 256) :
    bits (counted raw comp phase) lo len = bits raw lo len := by
  rw [counted, bits_putBits_other _ _ h (by omega), bits_putBits_other _ _ h (by omega)]

theorem bits_counted_comp (h : comp < 2 ^ 64) : bits (counted raw comp phase) 128 64 = comp := by
  rw [counted, bits_putBits_other _ _ (by decide) (by decide), bits_putBits_same _ _ (by decide), Nat.mod_eq_of_lt h]

theorem bits_counted_phase (hreserved : bits raw 193 7 = 0) : bits (counted raw comp phase) 192 8 = phase % 2 := by
  have hphase : bits (counted raw comp phase) 192 1 = phase % 2 := bits_putBits_same _ phase (by decide)
  have hrest : bits (counted raw comp phase) 193 7 = 0 := (bits_counted_high raw comp phase (by decide) (by decide)).trans hreserved
  rw [bits_eq] at hphase hrest ⊢
  rw [show 193 = 192 + 1 from rfl, Nat.pow_add, ← Nat.div_div_eq_div_mul] at hrest
  generalize (counted raw comp phase).toNat / 2 ^ 192 = y at hphase hrest ⊢
  omega

end

/-! ### The state after a receipt in host memory -/

/-- The state without what a receipt in host memory changes. -/
def unposted (s : State) : State :=
  { s with fresh := 0, outbox := [], msixPend := 0, slots := [], rings := .ofFn fun n => Ring.init n.val, hostMem := [], hostLines := [] }

/-- Where the next receipt of ring `n` lies in host memory. -/
def rcptPlace (s : State) (n : Nat) : Nat :=
  bits (ringOf s n).rcptBase 12 36 * 4096 + 32 * ((ringOf s n).comp.toNat % rcptEntries (ringOf s n))

/-- A receipt lies in one line of 256 bytes. -/
theorem linesOf_receipt (s : State) (n : Nat) : linesOf 256 (rcptPlace s n) 32 = [rcptPlace s n / 256] := by
  have hone : (rcptPlace s n + 32 - 1) / 256 - rcptPlace s n / 256 + 1 = 1 := by
    unfold rcptPlace
    omega
  rw [linesOf, if_neg (by decide), hone]
  simp

theorem bareLine_eq (s : State) (l : Nat) : ∃ m ls, bareLine s l = { s with hostMem := m, hostLines := ls } := by
  unfold bareLine
  split
  · exact ⟨s.hostMem, s.hostLines, rfl⟩
  · exact ⟨_, _, rfl⟩

/-- Rings, command slots and receipts have no part in what a raw read gives. -/
theorem bareLine_hostMem_congr {s t : State} (hmem : t.hostMem = s.hostMem) (hlines : t.hostLines = s.hostLines) (l : Nat) :
    (bareLine t l).hostMem = (bareLine s l).hostMem := by
  have hraw (a : Nat) : hostRaw t a = hostRaw s a := by simp only [hostRaw, hmem, hlines]
  simp only [bareLine, hlines, hmem, hraw]
  split
  · exact hmem
  · rfl

theorem hostWrite_receipt {s : State} {a : Nat} (x : BitVec 256) (hline : linesOf 256 a 32 = [a / 256]) :
    (hostWrite s a (leBytes 32 x.toNat)).hostMem = Mem.put (bareLine s (a / 256)).hostMem a 32 x.toNat ∧
      unposted (hostWrite s a (leBytes 32 x.toNat)) = unposted s ∧ (hostWrite s a (leBytes 32 x.toNat)).rings = s.rings := by
  have hwrite : hostWrite s a (leBytes 32 x.toNat) =
      { bareLine s (a / 256) with hostMem := Mem.put (bareLine s (a / 256)).hostMem a 32 x.toNat } := by
    rw [hostWrite, leBytes_length, hline]
    rfl
  obtain ⟨m, ls, hbare⟩ := bareLine_eq s (a / 256)
  rw [hwrite, hbare]
  exact ⟨rfl, rfl, rfl⟩

theorem sendVector_posts (s : State) (v : Nat) :
    unposted (sendVector s v) = unposted s ∧ (sendVector s v).rings = s.rings ∧ (sendVector s v).hostMem = s.hostMem := by
  unfold sendVector
  dsimp only
  split <;> exact ⟨rfl, rfl, rfl⟩

/-- The ring once its next receipt, no event's, has counted. -/
def receiptRing (r : Ring) : Ring := refreshRing { r with comp := r.comp + 1, taken := r.taken - 1 }

theorem ringWrite_host {s : State} {n off : Nat} {base : BitVec 64} {bs : List Byte} (hhost : bit base 63 = false)
    (hok : s.hostReject.contains ((bits base 12 36 * 4096 + off) / 64) = false) :
    ringWrite s n base off bs = some (hostWrite s (bits base 12 36 * 4096 + off) bs) := by
  simp only [ringWrite, hhost, hok, Bool.false_eq_true, if_false]

/-- Receipt `raw` of ring `n` with its count and phase. -/
def receiptWord (s : State) (n : Nat) (raw : BitVec 256) : BitVec 256 :=
  counted raw ((ringOf s n).comp.toNat + 1) (((ringOf s n).comp.toNat / rcptEntries (ringOf s n) + 1) % 2)

/-- The state as a receipt lies in host memory and its ring counts it, before its vector is sent. -/
def receiptPosted (s : State) (n : Nat) (raw : BitVec 256) (slots : List Taken) : State :=
  setRing (hostWrite { setRing s n (receiptRing (ringOf s n)) with slots := slots } (rcptPlace s n) (leBytes 32 (receiptWord s n raw).toNat))
    n (receiptRing (ringOf s n))

section
variable {s : State} {n : Nat} {raw : BitVec 256} (notify : Bool) (hevent : bit raw 193 = false)
  (hhost : bit (ringOf s n).rcptBase 63 = false) (hok : s.hostReject.contains (rcptPlace s n / 64) = false)
  (hcomp : (ringOf s n).comp.toNat + 1 < 2 ^ 64)
include hevent hhost hok hcomp

theorem writeReceipt_host : ∃ slots v, writeReceipt s n raw notify = receiptPosted s n raw slots ∨
    writeReceipt s n raw notify = sendVector (receiptPosted s n raw slots) v := by
  have hnext : ((ringOf s n).comp + 1).toNat = (ringOf s n).comp.toNat + 1 := by
    rw [BitVec.toNat_add]
    exact Nat.mod_eq_of_lt hcomp
  unfold writeReceipt
  simp only [hevent, hnext, Nat.add_sub_cancel, Bool.false_eq_true, if_false]
  rw [ringWrite_host hhost]
  · dsimp only
    split
    · exact ⟨_, _, Or.inr rfl⟩
    · exact ⟨_, 0, Or.inl rfl⟩
  · exact hok

end

/-- What host memory, the rings and all else hold once a receipt of ring `n` lies at its place. -/
structure Posted (s : State) (n : Nat) (raw : BitVec 256) (t : State) : Prop where
  others : unposted t = unposted s
  ring   : ringOf t n = receiptRing (ringOf s n)
  rings  : ∀ q, q ≠ n → ringOf t q = ringOf s q
  mem    : t.hostMem = Mem.put (bareLine s (rcptPlace s n / 256)).hostMem (rcptPlace s n) 32 (receiptWord s n raw).toNat

theorem posted_receiptPosted (s : State) {n : Nat} (hn : n < 65) (raw : BitVec 256) (slots : List Taken) :
    Posted s n raw (receiptPosted s n raw slots) := by
  unfold receiptPosted
  generalize hR : receiptRing (ringOf s n) = R
  generalize hs1 : ({ setRing s n R with slots := slots } : State) = s1
  have hsame : unposted s1 = unposted s ∧ s1.rings = (setRing s n R).rings ∧ s1.hostMem = s.hostMem ∧ s1.hostLines = s.hostLines := by
    rw [← hs1]
    exact ⟨rfl, rfl, rfl, rfl⟩
  obtain ⟨hothers, hrings, hmem, hlines⟩ := hsame
  obtain ⟨hmem', hothers', hrings'⟩ := hostWrite_receipt (s := s1) (receiptWord s n raw) (linesOf_receipt s n)
  refine ⟨hothers'.trans hothers, (ringOf_setRing _ _ _ hn).trans hR.symm, fun q hq => ?_, ?_⟩
  · rw [ringOf_setRing_ne _ _ _ _ hq, ringOf, hrings', hrings]
    exact ringOf_setRing_ne s n q R hq
  · rw [← bareLine_hostMem_congr hmem hlines]
    exact hmem'

theorem posted_sendVector {s t : State} {n : Nat} {raw : BitVec 256} (h : Posted s n raw t) (v : Nat) :
    Posted s n raw (sendVector t v) := by
  obtain ⟨hothers, hrings, hmem⟩ := sendVector_posts t v
  have hring (q : Nat) : ringOf (sendVector t v) q = ringOf t q := by rw [ringOf, hrings, ringOf]
  exact ⟨hothers.trans h.others, (hring n).trans h.ring, fun q hq => (hring q).trans (h.rings q hq), hmem.trans h.mem⟩

/-! ### Answers -/

/-- The answer to a command whose ring has room is its receipt, written at once. -/
theorem answer_writes {s : State} {p : Packet} (op : Nat) {status : Nat} (detail : Nat) (hlink : s.life.linkUp = true)
    (hstatus : status ≠ 0x0102) (hroom : rcptFull (ringOf s p.ring.toNat) = false) (hwait : (ringOf s p.ring.toNat).waiting = []) :
    answer s p op status detail = draw (writeReceipt s p.ring.toNat (rcptOf s p op status detail) p.notify) := by
  have hpush : pushReceipt s p.ring.toNat (rcptOf s p op status detail) p.notify =
      writeReceipt s p.ring.toNat (rcptOf s p op status detail) p.notify :=
    if_neg (by simp [hroom, hwait, hlink])
  rw [answer, if_neg fun h => hstatus h.1, answerD, if_neg hstatus]
  exact congrArg draw hpush

/-- An answer in host memory is posted at its ring's place. -/
theorem posted_answer {s : State} {p : Packet} (op : Nat) {status : Nat} (detail : Nat) (hring : p.ring.toNat ≤ 64)
    (hlink : s.life.linkUp = true) (hstatus : status ≠ 0x0102) (hroom : rcptFull (ringOf s p.ring.toNat) = false)
    (hwait : (ringOf s p.ring.toNat).waiting = []) (hhost : bit (ringOf s p.ring.toNat).rcptBase 63 = false)
    (hok : s.hostReject.contains (rcptPlace s p.ring.toNat / 64) = false) (hcomp : (ringOf s p.ring.toNat).comp.toNat + 1 < 2 ^ 64) :
    Posted s p.ring.toNat (rcptOf s p op status detail) (answer s p op status detail) := by
  have hevent : bit (rcptOf s p op status detail) 193 = false :=
    bit_of_bits_zero (rcptOf_reserved s p op status detail) (by decide) (by decide)
  obtain ⟨slots, v, hwritten⟩ := writeReceipt_host p.notify hevent hhost hok hcomp
  have hposted := posted_receiptPosted s (Nat.lt_succ_of_le hring) (rcptOf s p op status detail) slots
  have hwrite : Posted s p.ring.toNat (rcptOf s p op status detail)
      (writeReceipt s p.ring.toNat (rcptOf s p op status detail) p.notify) := by
    obtain h | h := hwritten
    · exact h ▸ hposted
    · exact h ▸ posted_sendVector hposted v
  rw [answer_writes op detail hlink hstatus hroom hwait]
  exact ⟨hwrite.others, hwrite.ring, hwrite.rings, hwrite.mem⟩

/-- Bytes of a posted receipt are bits of its word. -/
theorem Posted.num {s t : State} {n : Nat} {raw : BitVec 256} (h : Posted s n raw t) {k w : Nat} (hk : k + w ≤ 32) :
    Mem.num t.hostMem (rcptPlace s n + k) w = bits (receiptWord s n raw) (8 * k) (8 * w) := by
  rw [h.mem, num_put_bits _ _ _ hk]

theorem Posted.num_first {s t : State} {n : Nat} {raw : BitVec 256} (h : Posted s n raw t) {w : Nat} (hw : w ≤ 32) :
    Mem.num t.hostMem (rcptPlace s n) w = bits (receiptWord s n raw) 0 (8 * w) := by
  simpa only [Nat.add_zero, Nat.mul_zero] using h.num (k := 0) (w := w) (by omega)

/-- Bytes outside a posted receipt are those of its line as a raw read gives them. -/
theorem Posted.byte_outside {s t : State} {n : Nat} {raw : BitVec 256} (h : Posted s n raw t) {x : Nat}
    (hx : x < rcptPlace s n ∨ rcptPlace s n + 32 ≤ x) :
    Mem.byte t.hostMem x = Mem.byte (bareLine s (rcptPlace s n / 256)).hostMem x := by
  rw [h.mem, byte_put_outside _ _ hx]

/-- The named fields of a state that a posted receipt leaves. -/
theorem Posted.keeps {s t : State} {n : Nat} {raw : BitVec 256} (h : Posted s n raw t) : t.life = s.life ∧ t.fw = s.fw ∧ t.ctxs = s.ctxs ∧
    t.cores = s.cores ∧ t.clusters = s.clusters ∧ t.counters = s.counters ∧ t.ports = s.ports ∧ t.shared = s.shared ∧ t.lpddr = s.lpddr ∧
    t.dead = s.dead ∧ t.health = s.health ∧ t.hstErr = s.hstErr := by
  have hkeep {α : Type} (g : State → α) (hg : ∀ u, g (unposted u) = g u) : g t = g s := by rw [← hg t, h.others, hg s]
  exact ⟨hkeep State.life fun _ => rfl, hkeep State.fw fun _ => rfl, hkeep State.ctxs fun _ => rfl, hkeep State.cores fun _ => rfl,
    hkeep State.clusters fun _ => rfl, hkeep State.counters fun _ => rfl, hkeep State.ports fun _ => rfl, hkeep State.shared fun _ => rfl,
    hkeep State.lpddr fun _ => rfl, hkeep State.dead fun _ => rfl, hkeep State.health fun _ => rfl, hkeep State.hstErr fun _ => rfl⟩

/-! ### What O27 turns on -/

/-- The ciphertext of every host line that a receipt can lie in is its plain text. The model gives `Config.hostCipher` no value, so neither this
nor its negation has a proof. -/
def CipherIsPlain : Prop := ∀ (key line : Nat) (plain : List Byte) (i : Nat), line < 2 ^ 40 + 1008 → plain.length = 256 → i < 256 →
  Config.hostCipher key line plain i = plain.getD i 0

/-- A line of plain bytes holds what a raw read gave. -/
theorem byte_bareLine (s : State) (l x : Nat) :
    Mem.byte (bareLine s l).hostMem x = if x / 256 = l then hostRaw s x else Mem.byte s.hostMem x := by
  by_cases hnone : (tget s.hostLines l).isNone = true
  · rw [bareLine, if_pos hnone]
    split
    next hin =>
      subst hin
      rw [hostRaw, Option.isNone_iff_eq_none.mp hnone]
    next => rfl
  · rw [bareLine, if_neg hnone]
    dsimp only
    rw [Mem.byte_write, List.length_map, List.length_range]
    by_cases hin : x / 256 = l
    · have hx : 256 * l + (x - 256 * l) = x := by omega
      rw [if_pos (by omega), if_pos hin]
      simp [show x - 256 * l < 256 by omega, hx]
    · rw [if_neg (by omega), if_neg hin]

/-- A raw read of a home's line gives its ciphertext. -/
theorem hostRaw_tagged {s : State} {x : Nat} {tag : LineTag} (h : tget s.hostLines (x / 256) = some tag) :
    hostRaw s x = Config.hostCipher tag.key (x / 256) (Mem.read s.hostMem (x / 256 * 256) 256) (x % 256) := by
  rw [hostRaw, h]

theorem hostRaw_of_cipherIsPlain (h : CipherIsPlain) (s : State) {x : Nat} (hx : x / 256 < 2 ^ 40 + 1008) :
    hostRaw s x = Mem.byte s.hostMem x := by
  cases htag : tget s.hostLines (x / 256) with
  | none => rw [hostRaw, htag]
  | some tag =>
    have hplace : x / 256 * 256 + x % 256 = x := by omega
    rw [hostRaw_tagged htag, h _ _ _ _ hx (by simp [Mem.read]) (Nat.mod_lt x (by decide))]
    simp [Mem.read, Nat.mod_lt x, hplace]

/-- The lines that a receipt can lie in. -/
theorem rcptPlace_line (s : State) (n : Nat) : rcptPlace s n / 256 < 2 ^ 40 + 1008 := by
  have hbase := bits_lt (ringOf s n).rcptBase 12 36
  have hsize := bits_lt (ringOf s n).ctrl 8 3
  have hentries : rcptEntries (ringOf s n) ≤ 2 ^ 13 := Nat.pow_le_pow_right (by decide) (by omega)
  have hplace := Nat.mod_lt (ringOf s n).comp.toNat (show rcptEntries (ringOf s n) > 0 from Nat.two_pow_pos _)
  unfold rcptPlace
  omega

/-- Every clause of O27 holds where the ciphertext of a line is its plain text. -/
theorem answersWriteReceipts_of_cipherIsPlain (h : CipherIsPlain) : Obligations.AnswersWriteReceipts := by
  intro s p op status detail hring hlink hstatus hs16 hd16 hop r hroom hwait hhost a hok hcomp t
  have hposted : Posted s p.ring.toNat (rcptOf s p op status detail) t :=
    posted_answer op detail hring hlink hstatus hroom hwait hhost hok hcomp
  have hlow {lo len : Nat} (hl : lo + len ≤ 128) := bits_counted_low (rcptOf s p op status detail) (r.comp.toNat + 1)
    ((r.comp.toNat / rcptEntries r + 1) % 2) hl
  have hphase := bits_counted_phase _ (r.comp.toNat + 1) ((r.comp.toNat / rcptEntries r + 1) % 2) (rcptOf_reserved s p op status detail)
  refine ⟨?_, ?_, ?_, ?_, ?_, ?_, ?_, ?_, fun x hx => ?_, hposted.rings, hposted.keeps⟩
  · rw [hposted.ring]
    exact refreshRing_comp _
  · exact (hposted.num_first (w := 8) (by decide)).trans ((hlow (by decide)).trans (rcptOf_tag s p op status detail))
  · exact (hposted.num (k := 8) (w := 4) (by decide)).trans ((hlow (by decide)).trans (rcptOf_seq s p op status detail))
  · exact (hposted.num (k := 12) (w := 2) (by decide)).trans ((hlow (by decide)).trans (rcptOf_status s p op status detail hs16))
  · exact (hposted.num (k := 14) (w := 2) (by decide)).trans ((hlow (by decide)).trans (rcptOf_detail s p op status detail hd16))
  · exact (hposted.num (k := 16) (w := 8) (by decide)).trans (bits_counted_comp _ _ _ hcomp)
  · exact (hposted.num (k := 24) (w := 1) (by decide)).trans (hphase.trans (Nat.mod_mod _ _))
  · exact (hposted.num (k := 25) (w := 1) (by decide)).trans
      ((bits_counted_high _ _ _ (by decide) (by decide)).trans (rcptOf_opcode s p op status detail hop))
  · rw [hposted.byte_outside hx, byte_bareLine]
    split
    next hin => exact hostRaw_of_cipherIsPlain h s (hin ▸ rcptPlace_line s p.ring.toNat)
    next => rfl

/-! ### A receipt beside a home's bytes -/

/-- The management ring with its next receipt, count `c`, in a ring of 8,192 at page `base`. -/
def emptyRing (base c : Nat) : Ring :=
  { Ring.init 64 with ctrl := 0x700, rcptBase := BitVec.ofNat 64 (base * 4096), comp := BitVec.ofNat 64 c, consumed := BitVec.ofNat 32 c }

/-- A module with that ring, where host line `line` holds a home's bytes under `key`. -/
def besideHome (base c line key : Nat) (plain : List Byte) : State :=
  let s : State := { State.reset with life := { Life.init with linkUp := true }, hostMem := Mem.write [] (256 * line) plain,
                                      hostLines := [(line, { modId := 0, slot := 0, gen := 0, key := key, bad := false })] }
  setRing s 64 (emptyRing base c)

/-- A packet of the management ring. -/
def plainPkt : Packet := { ring := 64, tag := 0, ctx := 0, seq := 0, notify := false, fence := false, param := 0, extra := [] }

theorem rcptEntries_emptyRing (base c : Nat) : rcptEntries (emptyRing base c) = 2 ^ 13 := by
  have hsize : bits (0x700 : BitVec 64) 8 3 = 7 := by decide
  rw [rcptEntries, emptyRing, hsize]

theorem ringOf_besideHome (base c line key : Nat) (plain : List Byte) :
    ringOf (besideHome base c line key plain) plainPkt.ring.toNat = emptyRing base c :=
  ringOf_setRing _ 64 _ (by decide)

section
variable {base c : Nat} (line key : Nat) (plain : List Byte) (hbase : base < 2 ^ 36) (hc : c < 2 ^ 13)
include hbase hc

theorem rcptPlace_besideHome :
    rcptPlace (besideHome base c line key plain) plainPkt.ring.toNat = base * 4096 + 32 * c := by
  have hfield : bits (emptyRing base c).rcptBase 12 36 = base := by
    rw [emptyRing, bits_ofNat _ (by decide)]
    omega
  have hcount : (emptyRing base c).comp.toNat = c := Nat.mod_eq_of_lt (by omega)
  rw [rcptPlace, ringOf_besideHome, hfield, hcount, rcptEntries_emptyRing, Nat.mod_eq_of_lt hc]

/-- O27 says of this module that a byte beside the receipt stays. -/
theorem byte_kept_besideHome (h : Obligations.AnswersWriteReceipts) {x : Nat}
    (hx : x < base * 4096 + 32 * c ∨ base * 4096 + 32 * c + 32 ≤ x) :
    Mem.byte (bareLine (besideHome base c line key plain) ((base * 4096 + 32 * c) / 256)).hostMem x =
      Mem.byte (besideHome base c line key plain).hostMem x := by
  have hplace := rcptPlace_besideHome line key plain hbase hc
  have hR := ringOf_besideHome base c line key plain
  have hcount : (emptyRing base c).comp.toNat = c := Nat.mod_eq_of_lt (by omega)
  have hconsumed : (emptyRing base c).consumed.toNat = c := Nat.mod_eq_of_lt (by omega)
  have hroom : rcptFull (emptyRing base c) = false := by
    rw [rcptFull, hcount, hconsumed, rcptEntries_emptyRing, Nat.add_sub_cancel_left]
    rfl
  have hhost : bit (emptyRing base c).rcptBase 63 = false := by
    have hbit : (base * 4096).testBit 63 = false := Nat.testBit_lt_two_pow (by omega)
    rw [bit, emptyRing, BitVec.getLsbD_ofNat, hbit, Bool.and_false]
  have hring : plainPkt.ring.toNat ≤ 64 := by decide
  generalize hs : besideHome base c line key plain = s at hplace hR ⊢
  have hlink : s.life.linkUp = true := by
    subst hs
    rfl
  have hok (a : Nat) : s.hostReject.contains a = false := by
    subst hs
    rfl
  rw [← hR] at hroom hhost hcount
  have hwait : (ringOf s plainPkt.ring.toNat).waiting = [] := hR ▸ rfl
  have hcomp : (ringOf s plainPkt.ring.toNat).comp.toNat + 1 < 2 ^ 64 := by omega
  have hposted := posted_answer (p := plainPkt) 0 (status := 0) 0 hring hlink (by decide) hroom hwait hhost (hok _) hcomp
  rw [← hplace] at hx ⊢
  obtain ⟨-, -, -, -, -, -, -, -, hkept, -⟩ := h s plainPkt 0 0 0 hring hlink (by decide) (by decide) (by decide) (by decide) hroom hwait
    hhost (hok _) hcomp
  exact (hposted.byte_outside hx).symm.trans (hkept x hx)

end

/-- O27 gives every byte of a line's ciphertext as its plain byte: a receipt that lies beside it must leave it. -/
theorem cipherIsPlain_of_answersWriteReceipts (h : Obligations.AnswersWriteReceipts) : CipherIsPlain := by
  intro key line plain i hline hlength hi
  obtain ⟨base, j, hbase, hj, hplace⟩ : ∃ base j, base < 2 ^ 36 ∧ j < 1024 ∧ line = 16 * base + j := by
    by_cases hlow : line < 2 ^ 40
    · exact ⟨line / 16, line % 16, by omega, by omega, by omega⟩
    · exact ⟨2 ^ 36 - 1, line - 16 * (2 ^ 36 - 1), by omega, by omega, by omega⟩
  obtain ⟨k, hk, hout⟩ : ∃ k, k < 2 ∧ (i < 32 * k ∨ 32 * k + 32 ≤ i) := by
    by_cases hfirst : i < 32
    · exact ⟨1, by omega, by omega⟩
    · exact ⟨0, by omega, by omega⟩
  have hkept := byte_kept_besideHome (base := base) (c := 8 * j + k) line key plain hbase (by omega) h (x := 256 * line + i) (by omega)
  have hin : (256 * line + i) / 256 = line := by omega
  have hat : (256 * line + i) % 256 = i := by omega
  have htag : tget (besideHome base (8 * j + k) line key plain).hostLines ((256 * line + i) / 256) =
      some { modId := 0, slot := 0, gen := 0, key := key, bad := false } := by
    rw [hin]
    exact List.lookup_cons_self
  have hread : Mem.read (Mem.write [] (256 * line) plain) (line * 256) 256 = plain := by
    have hall := Mem.read_write [] (256 * line) plain
    rw [hlength] at hall
    rwa [Nat.mul_comm line]
  rw [byte_bareLine, if_pos (by omega), hostRaw_tagged htag, hin, hat] at hkept
  change Config.hostCipher key line (Mem.read (Mem.write [] (256 * line) plain) (line * 256) 256) i =
    Mem.byte (Mem.write [] (256 * line) plain) (256 * line + i) at hkept
  rw [hread, Mem.byte_write, if_pos (by omega), Nat.add_sub_cancel_left] at hkept
  exact hkept

/-- Leaves O27 unsettled, and says why: it holds exactly where a host line's ciphertext is its plain text. Its clause on the bytes outside
the receipt has no exception for a line of a home, which `hostWrite` first turns into the bytes that a raw read gives; every other clause
holds (`posted_answer`). -/
theorem answersWriteReceipts_iff : Obligations.AnswersWriteReceipts ↔ CipherIsPlain :=
  ⟨cipherIsPlain_of_answersWriteReceipts, answersWriteReceipts_of_cipherIsPlain⟩

end Sys2Proof.Machine
end
